-- ==== Sys2Proof/Word.lean ====
section
/-! DEFINITION. The word types of the EKW-1 (R6, R7, R105) and nothing else: bit-field helpers stand in
`Sys2Proof/Decode.lean` and `Sys2Proof/Machine/Bits.lean`. -/

namespace Sys2Proof

/-- One byte of memory or of the register space. -/
abbrev Byte := BitVec 8

/-- A 64-bit scalar register, instruction word or control register. -/
abbrev Word := BitVec 64

/-- A 128-bit predicate (R44). -/
abbrev PredBits := BitVec 128

end Sys2Proof
end

