-- ==== Sys2Proof/Syntax.lean ====
section
/-! DEFINITION. The syntax of the EKW-1: the fields of an instruction word by format class (R69, R84), of an
engine command word (R90), the records that events carry, and `Instr`, one constructor per row of
`spec/opcode_table.json`. A word's record holds every one of its 64 bits but VER's upper bit, so that decoding
drops nothing; which field values are instructions is `WellFormed`'s. -/

namespace Sys2Proof

/-- The modifiers of every word: VER 0 or 1 (R69), the sync bit, the stall count and the old-value bit. -/
structure Mods where
  ver   : Bool
  sync  : Bool
  stall : BitVec 4
  old   : Bool
  deriving DecidableEq, Repr

/-- Class Reg (R84). -/
structure RegW where
  mods : Mods
  op   : BitVec 8
  d    : BitVec 8
  a    : BitVec 8
  b    : BitVec 8
  c    : BitVec 8
  pred : BitVec 3
  pn   : Bool
  ty   : BitVec 4
  fdn  : BitVec 4
  fn   : BitVec 4
  deriving DecidableEq, Repr

/-- Class Imm (R84). -/
structure ImmW where
  mods : Mods
  op   : BitVec 8
  d    : BitVec 8
  a    : BitVec 8
  imm  : BitVec 32
  deriving DecidableEq, Repr

/-- Class Mem (R84). -/
structure MemW where
  mods  : Mods
  op    : BitVec 8
  d     : BitVec 8
  base  : BitVec 8
  space : BitVec 3
  scope : BitVec 5
  off   : BitVec 16
  pred  : BitVec 3
  pn    : Bool
  fn    : BitVec 4
  deriving DecidableEq, Repr

/-- Class Br (R84). -/
structure BrW where
  mods : Mods
  op   : BitVec 8
  link : BitVec 8
  a    : BitVec 8
  cc   : BitVec 4
  fn   : BitVec 4
  disp : BitVec 24
  deriving DecidableEq, Repr

/-- Class Wt (R84). -/
structure WtW where
  mods : Mods
  op   : BitVec 8
  a    : BitVec 8
  fn   : BitVec 4
  arg  : BitVec 36
  deriving DecidableEq, Repr

/-- Class Eng (R84); `rsv` is the reserved run 37:4. -/
structure EngW where
  mods : Mods
  op   : BitVec 8
  a    : BitVec 8
  q    : BitVec 2
  rsv  : BitVec 34
  fn   : BitVec 4
  deriving DecidableEq, Repr

/-- Class Sys (R84). -/
structure SysW where
  mods : Mods
  op   : BitVec 8
  d    : BitVec 8
  a    : BitVec 8
  cr   : BitVec 8
  imm  : BitVec 20
  fn   : BitVec 4
  deriving DecidableEq, Repr

/-- An engine command of one to four words (R90); `w1` to `w3` are 0 beyond LEN. -/
structure Cmd where
  wait   : BitVec 8
  signal : BitVec 8
  cmd    : BitVec 8
  len    : BitVec 2
  body   : BitVec 38
  w1     : Word
  w2     : Word
  w3     : Word
  deriving DecidableEq, Repr

/-- What a fabric message asks for or answers (R428–R434). -/
inductive Payload where
  /-- A read of `len` bytes at the peer's frame address; `ro` marks a MODE 2 read (R430, R431). -/
  | read (pa len : Nat) (ro : Bool)
  /-- A write of bytes at the peer's frame address (R428). -/
  | write (pa : Nat) (bytes : List Byte)
  /-- An atomic at the peer's M-die: operation number (FN), width in bytes, floating-point or not (R227). -/
  | atomic (op width : Nat) (fp : Bool) (pa : Nat) (x cmp : Word)
  /-- A reply that carries bytes read or the old value of an atomic, and the flags of R226. -/
  | data (bytes : List Byte) (flags : Nat)
  /-- An acknowledgement of a write (R325). -/
  | ack
  /-- A refusal with its REASON (R430). -/
  | refused (reason : Nat)
  /-- The page has moved (R434). -/
  | moved (peer pa : Nat)
  /-- The router of a package dropped the packet, or its arrival check failed, with the cause and the hop (R419). -/
  | courseFault (cause hop : Nat)
  /-- Bytes of a page that is moving to this frame, with the page's sequence number and that of the migration's first message
  (R433). -/
  | pageWrite (pa seq first : Nat) (bytes : List Byte)
  /-- The page sequence number past the last of a page that has moved to this frame, and the first (R433). -/
  | pageEnd (pa seq first : Nat)
  /-- A FABRIC shoot-down of a home range (R431). -/
  | revoke (lo hi : Nat)
  /-- An element update of a reducing copy (R264, R441): the element's frame address, its descriptor, the operation and
  the exact value as sign, magnitude and binary exponent, or (kind) 1 a NaN, 2 a signalling NaN, 3 an infinity. -/
  | reduce (region seq op : Nat) (pa : Nat) (fd : Word) (kind : Nat) (neg : Bool) (mag : Nat) (exp : Int)
  /-- The completion marker of a SEQ of a region (R441), for the M-dies of the package. -/
  | reduceMark (region seq : Nat)
  /-- A rank's data of a collective for a team, and the handle of the team that sends it (R268, R269). -/
  | collective (h rank sender : Nat) (bytes : List Byte) (digest : Nat)
  deriving DecidableEq, Repr

/-- A fabric packet: its course word, hop index and message header (R416, R418, R426). -/
structure Packet where
  course  : Word
  hop     : Nat
  isReply : Bool
  src     : Nat
  ctx     : Nat
  flow    : Nat
  seq     : Nat
  hd      : Nat
  ref     : Nat
  entered : List Nat
  payload : Payload
  deriving DecidableEq, Repr

/-- A packet as it comes in: the port that it entered by, and the packet (R418). -/
structure Incoming where
  port   : Nat
  packet : Packet
  deriving DecidableEq, Repr

/-- One copy of a message that was sent: the message's number and the course word of the copy (R419, R424). -/
structure SentCopy where
  ref    : Nat
  course : Word
  deriving DecidableEq, Repr

/-- Whose values a collective brings: the rank, and who sends them (R266, R269). -/
structure FromRank where
  rank   : Nat
  sender : Nat
  deriving DecidableEq, Repr

/-- What Binnacle samples of the dies (R488): the temperature of every logic die and every stack in °C, and the current of every
die rail in mA. -/
structure DieSample where
  temps : List Nat
  currents : List Nat
  deriving DecidableEq, Repr

/-- The resources whose error events Binnacle counts (R446). -/
inductive Resource where
  /-- A 4 KiB frame, by its first byte. -/
  | frame (pa : Nat)
  | bank (core bank : Nat)
  | core (core : Nat)
  /-- Plane 0 (A) or 1 (B) of a port. -/
  | plane (port plane : Nat)
  | way (die way : Nat)
  deriving DecidableEq, Repr

/-- The steps of the part: instruction words, engine commands and the events of units and of the outside, one
constructor per row of the opcode table. A word carries its record, a command its words, an event what
identifies it. -/
inductive Instr where
  /-- R87: Does nothing beyond its stall count and sync bit. -/
  | nop (r : RegW)
  /-- R141: Wrapping integer add of two scalars at the type width. -/
  | add (r : RegW)
  /-- R141: Wrapping integer subtract of two scalars. -/
  | sub (r : RegW)
  /-- R141: Saturating integer add, setting ISAT on saturation. -/
  | adds (r : RegW)
  /-- R141: Saturating integer subtract, setting ISAT on saturation. -/
  | subs (r : RegW)
  /-- R141: Smaller of two scalars compared as the type. -/
  | min (r : RegW)
  /-- R141: Larger of two scalars compared as the type. -/
  | max (r : RegW)
  /-- R141: Absolute value of a signed scalar, wrapping. -/
  | abs (r : RegW)
  /-- R141: Wrapping negation of a signed scalar. -/
  | neg (r : RegW)
  /-- R141: Low bits of the scalar product. -/
  | mul (r : RegW)
  /-- R141: High half of the exact double-width scalar product. -/
  | mulh (r : RegW)
  /-- R142: Integer quotient rounded toward zero, with the zero-divisor and overflow cases of R142. -/
  | div (r : RegW)
  /-- R142: Integer remainder with the sign of the dividend, with the special cases of R142. -/
  | rem (r : RegW)
  /-- R141: Low bits of A times B plus C. -/
  | mad (r : RegW)
  /-- R141: Bitwise and of two scalars. -/
  | and (r : RegW)
  /-- R141: Bitwise or of two scalars. -/
  | or (r : RegW)
  /-- R141: Bitwise xor of two scalars. -/
  | xor (r : RegW)
  /-- R141: A and not B. -/
  | andn (r : RegW)
  /-- R141: Bitwise complement of a scalar. -/
  | not (r : RegW)
  /-- R141: Left shift by B mod width. -/
  | shl (r : RegW)
  /-- R141: Right shift by B mod width, arithmetic for signed types. -/
  | shr (r : RegW)
  /-- R141: Rotate left within the type width. -/
  | rotl (r : RegW)
  /-- R141: Rotate right within the type width. -/
  | rotr (r : RegW)
  /-- R141: Count of leading zeros. -/
  | clz (r : RegW)
  /-- R141: Count of trailing zeros. -/
  | ctz (r : RegW)
  /-- R141: Count of one bits. -/
  | popc (r : RegW)
  /-- R141: Bit reversal within the type width. -/
  | brev (r : RegW)
  /-- R141: Byte reversal within the type width. -/
  | bswap (r : RegW)
  /-- R141: Copies a scalar register. -/
  | mov (r : RegW)
  /-- R141: Selects A or B by the predicate bit, never gated. -/
  | sel (r : RegW)
  /-- R143: Sets a predicate to all ones if A equals B, else zeros. -/
  | cmpEq (r : RegW)
  /-- R143: Sets a predicate if A differs from B. -/
  | cmpNe (r : RegW)
  /-- R143: Sets a predicate if A is less than B. -/
  | cmpLt (r : RegW)
  /-- R143: Sets a predicate if A is at most B. -/
  | cmpLe (r : RegW)
  /-- R143: Sets a predicate if A is greater than B. -/
  | cmpGt (r : RegW)
  /-- R143: Sets a predicate if A is at least B. -/
  | cmpGe (r : RegW)
  /-- R143: Sets a predicate if A and B is non-zero. -/
  | cmpTst (r : RegW)
  /-- R143: Sets a predicate if A and B is zero. -/
  | cmpNtst (r : RegW)
  /-- R144: 128-bit and of two predicates. -/
  | pand (r : RegW)
  /-- R144: 128-bit or of two predicates. -/
  | por (r : RegW)
  /-- R144: 128-bit xor of two predicates. -/
  | pxor (r : RegW)
  /-- R144: Predicate A and not B. -/
  | pandn (r : RegW)
  /-- R144: Complement of a predicate. -/
  | pnot (r : RegW)
  /-- R144: Copies a predicate. -/
  | pmov (r : RegW)
  /-- R144: Reads bits 63:0 of a predicate into a scalar. -/
  | pgetLo (r : RegW)
  /-- R144: Reads bits 127:64 of a predicate into a scalar. -/
  | pgetHi (r : RegW)
  /-- R144: Writes bits 63:0 of a predicate from a scalar. -/
  | psetLo (r : RegW)
  /-- R144: Writes bits 127:64 of a predicate from a scalar. -/
  | psetHi (r : RegW)
  /-- R146: Adds a sign-extended immediate. -/
  | addi (r : ImmW)
  /-- R146: Ands with a sign-extended immediate. -/
  | andi (r : ImmW)
  /-- R146: Ors with a sign-extended immediate. -/
  | ori (r : ImmW)
  /-- R146: Xors with a sign-extended immediate. -/
  | xori (r : ImmW)
  /-- R146: Left shift by an immediate count. -/
  | shli (r : ImmW)
  /-- R146: Logical right shift by an immediate count. -/
  | shri (r : ImmW)
  /-- R146: Arithmetic right shift by an immediate count. -/
  | srai (r : ImmW)
  /-- R146: Loads a sign-extended immediate. -/
  | movi (r : ImmW)
  /-- R146: Places an immediate in the upper 32 bits, keeping the lower 32 bits of A. -/
  | movhi (r : ImmW)
  /-- R146: Multiplies by a sign-extended immediate. -/
  | muli (r : ImmW)
  /-- R147: Canonical address of A plus an immediate. -/
  | lea (r : ImmW)
  /-- R148: Canonical address of A plus B shifted by k. -/
  | leax (r : ImmW)
  /-- R147: Canonical address of the word's PC plus an immediate. -/
  | lpc (r : ImmW)
  /-- R149: Unconditional relative branch. -/
  | b (r : BrW)
  /-- R149: Branches if A equals zero. -/
  | beq (r : BrW)
  /-- R149: Branches if A is not zero. -/
  | bne (r : BrW)
  /-- R149: Branches if A is below zero. -/
  | blt (r : BrW)
  /-- R149: Branches if A is at most zero. -/
  | ble (r : BrW)
  /-- R149: Branches if A is above zero. -/
  | bgt (r : BrW)
  /-- R149: Branches if A is at least zero. -/
  | bge (r : BrW)
  /-- R149: Branches if bit 0 of a predicate is 1. -/
  | bp (r : BrW)
  /-- R149: Branches if bit 0 of a predicate is 0. -/
  | bnp (r : BrW)
  /-- R149: Relative call that writes the return address to a link register. -/
  | call (r : BrW)
  /-- R149: Jumps to the address held in a register. -/
  | jr (r : BrW)
  /-- R149: Calls the address held in a register and writes the link. -/
  | callr (r : BrW)
  /-- R149: Decrements A and branches while the new value is not zero. -/
  | loop (r : BrW)
  /-- R152: Ends the block and waits until a signal slot is non-zero, then consumes one unit. -/
  | waitSig (r : WtW)
  /-- R152: Ends the block and waits until a tile is ready. -/
  | waitTile (r : WtW)
  /-- R152: Ends the block and waits until the earlier commands of an engine queue have completed. -/
  | waitQ (r : WtW)
  /-- R152: Ends the block and waits until MERIDIAN reaches a value. -/
  | waitMer (r : WtW)
  /-- R152: Ends the block with a condition that always holds. -/
  | yield (r : WtW)
  /-- R156: Stops the strand or access stream; when the last strand stops, the team moves toward retirement. -/
  | exit (r : WtW)
  /-- R158: Reads a control register into a scalar. -/
  | crr (r : SysW)
  /-- R159: Writes a control register under its field access types. -/
  | crw (r : SysW)
  /-- R159: Sets bits of a control register. -/
  | crs (r : SysW)
  /-- R159: Clears bits of a control register. -/
  | crc (r : SysW)
  /-- R159: Writes a zero-extended 20-bit immediate to a control register. -/
  | crwi (r : SysW)
  /-- R161: Reads a team counter into a scalar. -/
  | ctrr (r : SysW)
  /-- R167: Returns from a trap handler to TRAPPC and clears INH. -/
  | tret (r : SysW)
  /-- R170: Raises the software trap with an immediate. -/
  | trap (r : SysW)
  /-- R170: Raises the breakpoint trap, or stops the team for an attached debugger. -/
  | brk (r : SysW)
  /-- R179: Elementwise wrapping vector add. -/
  | vadd (r : RegW)
  /-- R179: Elementwise wrapping vector subtract. -/
  | vsub (r : RegW)
  /-- R179: Elementwise saturating vector add. -/
  | vadds (r : RegW)
  /-- R179: Elementwise saturating vector subtract. -/
  | vsubs (r : RegW)
  /-- R179: Elementwise integer minimum. -/
  | vmin (r : RegW)
  /-- R179: Elementwise integer maximum. -/
  | vmax (r : RegW)
  /-- R179: Elementwise absolute value. -/
  | vabs (r : RegW)
  /-- R179: Elementwise negation. -/
  | vneg (r : RegW)
  /-- R179: Elementwise low product. -/
  | vmul (r : RegW)
  /-- R179: Elementwise high product. -/
  | vmulh (r : RegW)
  /-- R179: Elementwise multiply-add. -/
  | vmad (r : RegW)
  /-- R180: Four-way byte dot product accumulated into 32-bit lanes. -/
  | vdp4 (r : RegW)
  /-- R179: Bytewise and. -/
  | vand (r : RegW)
  /-- R179: Bytewise or. -/
  | vor (r : RegW)
  /-- R179: Bytewise xor. -/
  | vxor (r : RegW)
  /-- R179: Bytewise A and not B. -/
  | vandn (r : RegW)
  /-- R179: Bytewise complement. -/
  | vnot (r : RegW)
  /-- R179: Elementwise left shift. -/
  | vshl (r : RegW)
  /-- R179: Elementwise right shift. -/
  | vshr (r : RegW)
  /-- R179: Elementwise rotate left. -/
  | vrotl (r : RegW)
  /-- R179: Elementwise rotate right. -/
  | vrotr (r : RegW)
  /-- R179: Elementwise leading-zero count. -/
  | vclz (r : RegW)
  /-- R179: Elementwise trailing-zero count. -/
  | vctz (r : RegW)
  /-- R179: Elementwise population count. -/
  | vpopc (r : RegW)
  /-- R181: Sets predicate bits of elements where A equals B. -/
  | vcmpEq (r : RegW)
  /-- R181: Sets predicate bits of elements where A differs from B. -/
  | vcmpNe (r : RegW)
  /-- R181: Sets predicate bits of elements where A is less than B. -/
  | vcmpLt (r : RegW)
  /-- R181: Sets predicate bits of elements where A is at most B. -/
  | vcmpLe (r : RegW)
  /-- R181: Sets predicate bits of elements where A is greater than B. -/
  | vcmpGt (r : RegW)
  /-- R181: Sets predicate bits of elements where A is at least B. -/
  | vcmpGe (r : RegW)
  /-- R181: Sets predicate bits of elements where A and B is non-zero. -/
  | vcmpTst (r : RegW)
  /-- R181: Sets predicate bits of elements where A and B is zero. -/
  | vcmpNtst (r : RegW)
  /-- R182: Copies the enabled bytes of a vector. -/
  | vmov (r : RegW)
  /-- R182: Selects each element from A or B by the predicate. -/
  | vsel (r : RegW)
  /-- R182: Broadcasts a scalar into every enabled element. -/
  | vbcast (r : RegW)
  /-- R182: Inserts a scalar into one element. -/
  | vins (r : RegW)
  /-- R182: Extracts one element into a scalar. -/
  | vext (r : RegW)
  /-- R182: Writes each element's index. -/
  | vidx (r : RegW)
  /-- R182: Permutes elements of A by indices in B. -/
  | vperm (r : RegW)
  /-- R183: Cross-strand shuffle that gathers 4-byte words from computed offsets in the team's register allocation. -/
  | vshx (r : RegW)
  /-- R182: Rotates elements by a scalar count. -/
  | vrot (r : RegW)
  /-- R184: Sums the enabled integer elements into a scalar. -/
  | vredAdd (r : RegW)
  /-- R184: Writes the smallest enabled integer element to a scalar. -/
  | vredMin (r : RegW)
  /-- R184: Writes the largest enabled integer element to a scalar. -/
  | vredMax (r : RegW)
  /-- R186: Decodes digit k of packed-trit bytes into signed trits, trapping on illegal codes. -/
  | vtrit (r : RegW)
  /-- R188: Ternary-sign accumulation of four bytes into saturating 32-bit lanes. -/
  | vtacc (r : RegW)
  /-- R189: Floating-point add, rounded in the opcode's mode. -/
  | vfadd (r : RegW)
  /-- R189: Floating-point subtract. -/
  | vfsub (r : RegW)
  /-- R189: Floating-point multiply. -/
  | vfmul (r : RegW)
  /-- R189: Fused multiply-add with one rounding. -/
  | vfma (r : RegW)
  /-- R189: Fused C minus A times B with one rounding. -/
  | vfnma (r : RegW)
  /-- R189: Floating-point divide. -/
  | vfdiv (r : RegW)
  /-- R189: Floating-point square root. -/
  | vfsqrt (r : RegW)
  /-- R191: Lesser element under MinMaxOrder. -/
  | vfmin (r : RegW)
  /-- R191: Greater element under MinMaxOrder. -/
  | vfmax (r : RegW)
  /-- R191: Clears the sign of each element. -/
  | vfabs (r : RegW)
  /-- R191: Inverts the sign of each element. -/
  | vfneg (r : RegW)
  /-- R192: Floating-point compare for equality into a predicate. -/
  | vfcmpEq (r : RegW)
  /-- R192: Floating-point not-equal or unordered compare. -/
  | vfcmpNe (r : RegW)
  /-- R192: Floating-point less-than compare. -/
  | vfcmpLt (r : RegW)
  /-- R192: Floating-point less-or-equal compare. -/
  | vfcmpLe (r : RegW)
  /-- R192: Floating-point greater-than compare. -/
  | vfcmpGt (r : RegW)
  /-- R192: Floating-point greater-or-equal compare. -/
  | vfcmpGe (r : RegW)
  /-- R192: Sets predicate bits where either operand is NaN. -/
  | vfcmpUn (r : RegW)
  /-- R193: Fixed-tree FP32 sum of the elements into a scalar. -/
  | vfredAdd (r : RegW)
  /-- R193: Fixed-tree minimum of the elements. -/
  | vfredMin (r : RegW)
  /-- R193: Fixed-tree maximum of the elements. -/
  | vfredMax (r : RegW)
  /-- R196: Converts elements between integer and float types in the opcode's rounding mode. -/
  | vcvt (r : RegW)
  /-- R197: Quantises 64 FP32 values into a narrow format with AUTO block scales. -/
  | vquant (r : RegW)
  /-- R197: Quantises 64 FP32 values with a starting scale taken from a scalar. -/
  | vquantStart (r : RegW)
  /-- R198: Dequantises a narrow-format register into 64 FP32 values. -/
  | vdequantF32 (r : RegW)
  /-- R198: Dequantises a narrow-format register into 64 BF16 values. -/
  | vdequantBf16 (r : RegW)
  /-- R214: Scalar load from global or SP space, local or remote; block-ending for global and remote forms. -/
  | ld (r : MemW)
  /-- R214: Scalar store to global or SP space, local or remote; posted for global. -/
  | st (r : MemW)
  /-- R215: Loads 128, 256 or 512 bytes into one vector register or a group. -/
  | vld (r : MemW)
  /-- R215: Stores 128, 256 or 512 bytes from one vector register or a group. -/
  | vst (r : MemW)
  /-- R217: Loads an SP word once it is full; the bit stays full. -/
  | ldwF (r : MemW)
  /-- R217: Loads an SP word once it is full and sets it empty. -/
  | ldwFe (r : MemW)
  /-- R217: Loads 16 SP words once all are full. -/
  | vldwF (r : MemW)
  /-- R217: Loads 16 full SP words and sets them empty. -/
  | vldwFe (r : MemW)
  /-- R217: Stores an SP word once it is empty and sets it full. -/
  | stwEf (r : MemW)
  /-- R217: Stores an SP word unconditionally and sets it full. -/
  | stwF (r : MemW)
  /-- R217: Stores 16 SP words once all are empty and sets them full. -/
  | vstwEf (r : MemW)
  /-- R217: Stores 16 SP words unconditionally and sets them full. -/
  | vstwF (r : MemW)
  /-- R217: Sets 16 full/empty bits to empty. -/
  | feEmpty (r : MemW)
  /-- R217: Sets 16 full/empty bits to full. -/
  | feFull (r : MemW)
  /-- R217: Reads 16 full/empty bits into a scalar. -/
  | feGet (r : MemW)
  /-- R220: Discards the n oldest entries of a load queue. -/
  | qdrop (r : MemW)
  /-- R220: Reads the number of entries in a queue. -/
  | qlen (r : MemW)
  /-- R220: Waits until earlier pushes to a store queue are drained and performed at core scope. -/
  | qwait (r : MemW)
  /-- R221: Access stream reads 128 bytes into the next load-queue entry. -/
  | fetch (r : MemW)
  /-- R221: Access stream full/empty fetch that leaves the bits full. -/
  | fetchF (r : MemW)
  /-- R221: Access stream full/empty fetch that sets the bits empty. -/
  | fetchFe (r : MemW)
  /-- R221: Access stream writes the oldest store-queue entry to memory. -/
  | drain (r : MemW)
  /-- R221: Access stream full/empty drain that requires empty. -/
  | drainEf (r : MemW)
  /-- R221: Access stream unconditional full/empty drain. -/
  | drainF (r : MemW)
  /-- R221: Brings a line into the access cache; never faults. -/
  | pref (r : MemW)
  /-- R225: Atomic add returning the old value. -/
  | amoAdd (r : MemW)
  /-- R225: Atomic and. -/
  | amoAnd (r : MemW)
  /-- R225: Atomic or. -/
  | amoOr (r : MemW)
  /-- R225: Atomic xor. -/
  | amoXor (r : MemW)
  /-- R225: Atomic signed minimum. -/
  | amoMinS (r : MemW)
  /-- R225: Atomic signed maximum. -/
  | amoMaxS (r : MemW)
  /-- R225: Atomic unsigned minimum. -/
  | amoMinN (r : MemW)
  /-- R225: Atomic unsigned maximum. -/
  | amoMaxN (r : MemW)
  /-- R225: Atomic swap. -/
  | amoSwap (r : MemW)
  /-- R225: Atomic compare-and-swap. -/
  | amoCas (r : MemW)
  /-- R226: Atomic floating-point add. -/
  | amoFadd (r : MemW)
  /-- R226: Atomic floating-point minimum. -/
  | amoFmin (r : MemW)
  /-- R226: Atomic floating-point maximum. -/
  | amoFmax (r : MemW)
  /-- R229: Orders earlier accesses before later ones at a scope, waiting until they are performed. -/
  | fence (r : MemW)
  /-- R229: Release fence that gives later stores the release ordering of earlier accesses. -/
  | fenceRel (r : MemW)
  /-- R229: Acquire fence that waits for earlier loads. -/
  | fenceAcq (r : MemW)
  /-- R229: Release store at a scope; logs an entry at team or core scope. -/
  | rel (r : MemW)
  /-- R229: Acquire load at a scope. -/
  | acq (r : MemW)
  /-- R231: Remote-promoting acquire that promotes a target team's logged releases, then loads with acquire. -/
  | acqP (r : MemW)
  /-- R232: Arrives at a barrier and waits for the phase. -/
  | barSync (r : MemW)
  /-- R232: Arrives at a barrier without waiting. -/
  | barArr (r : MemW)
  /-- R232: Waits for the phase of the team's latest arrival. -/
  | barWt (r : MemW)
  /-- R237: Copies a command from scalar registers into an engine queue. -/
  | enq (r : EngW)
  /-- R239: Clears a stopped engine queue, discarding the faulted command and those behind it. -/
  | qclr (r : EngW)
  /-- R242: Reads a signal slot. -/
  | sigGet (r : RegW)
  /-- R242: Adds to a signal slot. -/
  | sigAdd (r : RegW)
  /-- R242: Sets a signal slot, overriding other changes of that cycle. -/
  | sigSet (r : RegW)
  /-- R243: Posts an addition to another team's signal slot. -/
  | sigAddR (r : RegW)
  /-- R94: Engine command that waits, then signals, and does nothing else. -/
  | cmdNop (c : Cmd)
  /-- R252: Matrix multiply-accumulate of tiles, one or more products. -/
  | mm (c : Cmd)
  /-- R254: Grouped ragged matrix multiply driven by a row-count table. -/
  | mmG (c : Cmd)
  /-- R260: Copies a global tensor into a tile, optionally converting and transposing. -/
  | cpLd (c : Cmd)
  /-- R261: Writes a tile to a global tensor. -/
  | cpSt (c : Cmd)
  /-- R262: Copies one tile to another. -/
  | cpMv (c : Cmd)
  /-- R263: Writes every element of a tile as code 0. -/
  | cpZero (c : Cmd)
  /-- R265: Re-encodes a stale Sextant memory tile to the team's generation. -/
  | cpRenc (c : Cmd)
  /-- R264: Reducing copy that updates global elements at their home M-dies in SEQ order. -/
  | cpRed (c : Cmd)
  /-- R268: All-reduce across ranks in a fixed tree order. -/
  | clAred (c : Cmd)
  /-- R268: Reduce-scatter across ranks. -/
  | clRsc (c : Cmd)
  /-- R268: All-gather across ranks. -/
  | clAgat (c : Cmd)
  /-- R270: Copies bytes to a destination and completes when they are performed at a scope. -/
  | clPut (c : Cmd)
  /-- R270: Copies FP32 values quantised on the wire and expanded at the receiver. -/
  | clPutq (c : Cmd)
  /-- R273: Applies its SIGNAL; with FINAL it closes the queue. -/
  | notify (c : Cmd)
  /-- R274: Waits for named queues' earlier commands and performs their effects at a scope. -/
  | qfence (c : Cmd)
  /-- R275: Performs a run of commands read from memory in place of itself. -/
  | chain (c : Cmd)
  /-- R276: Seals a range of pages and apertures after a shoot-down. -/
  | sealRange (c : Cmd)
  /-- R73: A fixed-latency result is written to its destination at its strand time. -/
  | resultLands (h k : Nat)
  /-- R208: A local buffer store is performed in its bank and leaves the spill forwarding table. -/
  | localStorePerform (h k : Nat)
  /-- R216: A posted global store is performed or refused after the strand has gone on. -/
  | postedStorePerform (core n : Nat)
  /-- R209: The reply or condition of a block-ending form arrives and its result lands. -/
  | blockEndReply (h k : Nat)
  /-- R222: Data of a fetch fills its reserved load-queue entry. -/
  | fetchDataArrival (h q : Nat)
  /-- R154: A waiting strand's condition holds and it is released. -/
  | waitConditionMet (h k : Nat)
  /-- R155: A strand held on a queue, tile, full/empty or granule condition becomes eligible again. -/
  | headConditionMet (h k : Nat)
  /-- R356: After four cycles on one team while another is eligible, the slot cluster passes to the next team. -/
  | clusterTimeSlice (core k : Nat)
  /-- R168: A posted asynchronous event is delivered to the lowest live strand whose INH is 0. -/
  | asyncEventDelivery (h : Nat)
  /-- R68: A team whose queues are closed and whose access stream has stopped retires and frees its resources. -/
  | teamRetire (h : Nat)
  /-- R362: The launch unit sees a halt, stops dispatch, halts the launch's teams and writes a failed record. -/
  | launchFail (l : Nat)
  /-- R42: A register granule untouched for 4,096 cycles goes drowsy. -/
  | granuleDrowsy (h g : Nat)
  /-- R359: A team whose wait outlasts SWAPTH is saved to a save area and its slot freed. -/
  | swap (h : Nat)
  /-- R66: A swapped team whose head condition holds is requeued. -/
  | teamRequeue (h : Nat)
  /-- R28: A requeued team is restored on its own core in a free slot. -/
  | teamRestore (h : Nat)
  /-- R358: Work that has waited 65,536 cycles for a slot rises one priority. -/
  | priorityAging (core l : Nat)
  /-- R96: A checked command at the head of its queue starts once its WAIT and tile conditions hold. -/
  | engineCmdStart (h q : Nat)
  /-- R247: A command completes, setting flags and applying its SIGNAL. -/
  | engineCmdComplete (h q : Nat)
  /-- R287: A held tile-ready set takes effect the cycle after the tile leaves filling or draining. -/
  | heldTileReady (h t : Nat)
  /-- R360: A newly granted gang bank joins after power-on, one per cycle per core. -/
  | bankJoin (core : Nat)
  /-- R279: After its reply, a fix-up segment is replayed in full. -/
  | fixupReplay (h q : Nat)
  /-- R341: A store to a launch-queue tail word sets the tail and starts reading packets. -/
  | launchDoorbell (ctx q : Nat) (v : Word)
  /-- R349: A packet and its structures are read and checked, and the launch is accepted or refused. -/
  | launchAccept (ctx q : Nat)
  /-- R351: A task whose predecessors have completed becomes ready and takes its task generation. -/
  | taskReady (l t : Nat)
  /-- R355: A work item becomes a team when a slot and resources are free on its owner core. -/
  | teamDispatch (core l : Nat)
  /-- R390: A translation miss walks the page table. -/
  | translationWalk (ctx va : Nat)
  /-- R398: A store to the fault-reply doorbell word reads and consumes a reply entry, retrying or refusing the record. -/
  | faultReply (ctx : Nat) (v : Word)
  /-- R391: Writing SDGO starts a shoot-down over a range of pages. -/
  | shootdownStart (ctx : Nat)
  /-- R391: A shoot-down completes and SDDONE is set. -/
  | shootdownDone (ctx : Nat)
  /-- R404: CMD 1 stops acceptance and begins saving every resident team of the context. -/
  | contextSave (ctx : Nat)
  /-- R404: CMD 2 reads pending replies and requeues the saved teams. -/
  | contextRestore (ctx : Nat)
  /-- R404: Every resident team is saved and the context enters state saved. -/
  | contextSaveDone (ctx : Nat)
  /-- R404: Every saved team is restored and acceptance resumes. -/
  | contextRestoreDone (ctx : Nat)
  /-- R395: An uncorrectable error in a buffer raises the data-error fault at the access's latency. -/
  | bufferDataError (h k off : Nat)
  /-- R448: An uncorrectable error on a memory line adds an error-table entry. -/
  | memoryLineError (pa ctx : Nat)
  /-- R333: A promotion request reaches a core's log arbiter and is answered at once or waits. -/
  | promotionRequest (core n : Nat)
  /-- R334: The log arbiter starts a flush for the oldest waiting request. -/
  | flushStart (core : Nat)
  /-- R335: The flush's local phase ends and stalled stores are performed. -/
  | flushLocalPhaseEnd (core : Nat)
  /-- R334: All homes acknowledge, entries take PROM and waiting requests are answered. -/
  | flushRemotePhaseEnd (core : Nat)
  /-- R323: An M-die applies a tagged write when its clock condition holds. -/
  | taggedWriteApply (core n : Nat)
  /-- R323: An M-die applies a clock marker and advances APPLIED. -/
  | clockMarkerApply (die n : Nat)
  /-- R62: A remote SP message is served at the target bank unit or by the team directory. -/
  | remoteSpAccess (core n : Nat)
  /-- R243: A remote signal addition arrives and is applied, saved or dropped. -/
  | sigAddRArrive (core n : Nat)
  /-- R293: A fill copies the granule in, sets it present and releases its waiters. -/
  | granuleFillDone (h g : Nat)
  /-- R382: A claim of a Sextant memory tile is performed at the tag's M-die. -/
  | tileClaim (n : Nat)
  /-- R382: A claim waiting on BUSY starts again when a tag write clears it. -/
  | claimRestart (n : Nat)
  /-- R382: The claimer finishes converting and writes the new tag as a release. -/
  | reencodeTagWrite (n : Nat)
  /-- R376: A store to the step-request word sets PEND or is discarded. -/
  | sextantStepRequest (ctx : Nat) (v : Word)
  /-- R378: Once earlier launches end, the step reloads, copies statistics, evaluates rules and writes back. -/
  | sextantStepApply (ctx : Nat)
  /-- R441: An ordered-reduction update is applied, held or refused by SEQ. -/
  | redUpdateArrive (die n : Nat)
  /-- R441: A completion marker advances EXP or is held. -/
  | redMarkerArrive (die n : Nat)
  /-- R442: A refused held message is retried within 1,024 cycles. -/
  | redRetry (die n : Nat)
  /-- R269: Collective data for a rank arrives and is used or held until the rank starts. -/
  | collectiveDataArrive (h : Nat) (rank : FromRank) (data : List Byte) (digest : Nat)
  /-- R418: A router sends a packet on port HOPh and raises the hop index, or drops it. -/
  | packetHop (n : Nat)
  /-- R419: A packet reaches its destination, is checked and applied in flow order. -/
  | packetArrive (p : Incoming)
  /-- R424: A course or arrival fault returns, marks the course failed and resends the message. -/
  | courseFaultReturn (n : SentCopy) (cause hop : Nat)
  /-- R424: A request unanswered for 1,048,576 cycles marks its course failed and is resent. -/
  | requestTimeout (n : Nat)
  /-- R426: A remembered reply for duplicate suppression expires after 2^21 cycles. -/
  | dupReplyExpiry (n : Nat)
  /-- R422: A store to the course-table reread word rereads a peer's entry. -/
  | courseTableReread (ctx : Nat) (v : Word)
  /-- R411: A flit failing its CRC is retried from the replay buffer. -/
  | flitRetry (port plane : Nat)
  /-- R411: A Gliem plane comes up or goes down. -/
  | linkPlaneChange (port plane : Nat) (up : Bool)
  /-- R415: Writing CGO reads, checks and installs the chart, or sets CREF. -/
  | chartInstall
  /-- R429: Writing EGO loads the export table, or sets EREF. -/
  | exportLoad
  /-- R433: Writing MIGGO starts copying a page to its new home. -/
  | migrationStart
  /-- R433: Copy and forwards acknowledged: the page is marked moved. -/
  | migrationSwitch (ok : Bool)
  /-- R434: After a shoot-down following a moved answer, the requester walks again and resends. -/
  | movedResend (n : Nat)
  /-- R431: A fabric shoot-down message drops cached read-only peer lines. -/
  | roLineRevoke (peer lo hi : Nat)
  /-- R436: MERIDIAN advances by one every 14 cycles. -/
  | meridianTick
  /-- R436: Every 65,536 ticks an alignment message is sent on each tree link. -/
  | alignMessageSend
  /-- R436: An alignment message stops or advances the local count and sets ALIGNED. -/
  | alignMessageArrive (port count delay : Nat)
  /-- R436: No alignment message for 2^20 ticks clears ALIGNED. -/
  | alignTimeout
  /-- R233: A barrier phase completes when every participant has arrived. -/
  | barrierPhaseComplete (h b : Nat)
  /-- R445: A store to the digest-request word requests a page digest. -/
  | digestRequest (ctx : Nat) (v : Word)
  /-- R445: Once earlier launches end, the digest tree is computed and written. -/
  | digestApply (ctx : Nat)
  /-- R446: Binnacle counts an error event for a resource. -/
  | errorEvent (r : Resource)
  /-- R64: Package reset clears contexts, slots and counters. -/
  | packageReset
  /-- R477: Binnacle checks the firmware, trains links and releases the host complex. -/
  | powerOnBoot (image : List Byte)
  /-- R478: A firmware image arrives over the management port and is staged or refused. -/
  | firmwareUpdate (image : List Byte)
  /-- R483: OP 1 creates a context from its context-table entry. -/
  | contextCreate (c : Nat)
  /-- R483: OP 2 destroys a context and frees its entries. -/
  | contextDestroy (c : Nat)
  /-- R483: A create or destroy ends and CTXLIVE changes. -/
  | contextOpDone
  /-- R484: DCMD 1 stops the selected team for the debugger. -/
  | debugStop (ctx : Nat)
  /-- R484: The team's strands have stopped; DSTOP is set and interrupt 34 raised. -/
  | debugTeamStopped (ctx : Nat)
  /-- R484: DCMD 2 resumes a stopped team. -/
  | debugRelease (ctx : Nat)
  /-- R484: DCMD 3 reads a team space into DDATA. -/
  | debugRead (ctx : Nat)
  /-- R484: DCMD 4 writes DDATA into a team space. -/
  | debugWrite (ctx : Nat)
  /-- R487: A store to SQTAIL hands send entries to the Ultra Ethernet endpoint. -/
  | ueSqDoorbell (k : Nat) (v : Word)
  /-- R487: The endpoint performs a send entry and writes a completion. -/
  | ueSend (k : Nat) (status : Nat)
  /-- R487: The endpoint performs a remote write entry. -/
  | ueWrite (k : Nat) (status : Nat)
  /-- R487: The endpoint performs a remote read entry. -/
  | ueRead (k : Nat) (status : Nat) (data : List Byte)
  /-- R437: An Ultra Ethernet packet arrives at a port. -/
  | uePacketReceive (port : Nat) (die : Nat) (pa : Nat) (data : List Byte)
  /-- R489: Binnacle answers a nonce with signed digests and state. -/
  | attestationRequest (nonce : List Byte)
  /-- R488: Every 100 μs Binnacle samples temperatures and currents. -/
  | binnacleSample (power : Nat) (sample : DieSample)
  /-- R490: A core idle for 65,536 cycles is power gated. -/
  | corePowerGate (core : Nat)
  /-- R490: A gated core resumes issue at its phase of t mod 8. -/
  | coreWake (core : Nat)
  /-- R306: Writing CLR sets every counter of a C-die block to 0. -/
  | counterClear (die : Nat)
  /-- R306: Writing FRZ stops or restarts every counter of the block. -/
  | counterFreeze (die : Nat) (on : Bool)
  /-- R10: A write to a device register with no behaviour of its own, under its field access types. -/
  | registerWrite (pa : Nat) (v : Word)
  /-- R88: A word that is not an instruction issues and raises the illegal-instruction trap with its reason code. -/
  | illegalInstruction (w : Word) (reason : BitVec 8)
  /-- R397: Software advances HEAD in the fault-queue header, and a fault waiting on a full queue writes its record. -/
  | faultQueueHeadAdvance (ctx : Nat) (v : BitVec 32)
  /-- R487: An Ultra Ethernet send entry that is never answered ends with a completion entry of status 2, timeout. -/
  | ueCompletionTimeout (k : Nat)
  deriving DecidableEq, Repr

end Sys2Proof
end

