-- ==== Sys2Proof/WellFormed.lean ====
section
/-! DEFINITION. Which terms of `Instr` are instructions: the field rules of every form, and for a word that breaks
them the reason code R88 gives, the lowest of those that apply. Reasons 0x01 to 0x05 that a term cannot carry (VER,
reserved OP, unassigned FN) are `Sys2Proof/Decode.lean`'s. -/

namespace Sys2Proof

/-- What one 8-bit field position of a form holds (R83, R137, R175, R220, R241). -/
inductive Slot where
  /-- A field the form does not use: 0, or reason 0x07. -/
  | zero
  /-- A scalar group of `n` registers. -/
  | sc (n : Nat)
  /-- A vector source: v0–v55, a pop of lq0–lq3, or vz (R175). -/
  | vsrc
  /-- A vector destination: v0–v55 or a push to sq0–sq1 (R175). -/
  | vdst
  /-- A group of `n` vector registers, v0–v55 only (R175, R215, R217). -/
  | vg (n : Nat)
  /-- A predicate number in bits 2:0 (R137). -/
  | pr
  /-- A signal-slot number in bits 5:0 (R241). -/
  | slotNo
  /-- A queue number in the low `n` bits (R220, R221). -/
  | low (n : Nat)
  deriving DecidableEq, Repr

/-- The view number of a specifier, bits 7:6 (R83). -/
def specView (x : BitVec 8) : Nat := x.toNat / 64

/-- The index of a specifier, bits 5:0 (R83). -/
def specIndex (x : BitVec 8) : Nat := x.toNat % 64

/-- Whether a field breaks a rule of reason 0x07 for its slot. -/
def Slot.bad7 : Slot → BitVec 8 → Bool
  | .zero, x => x ≠ 0
  | .pr, x => x.toNat ≥ 8
  | .slotNo, x => x.toNat ≥ 64
  | .low n, x => x.toNat ≥ 2 ^ n
  | _, _ => false

/-- Whether a specifier breaks R83, R38 or R175 for its slot: reason 0x08. In the access stream (`acc`) only the
scalar view may be named (R81). -/
def Slot.bad8 (acc : Bool) : Slot → BitVec 8 → Bool
  | .sc _, x => specView x ≠ 0
  | .vsrc, x => acc || specView x ≠ 1 || specIndex x = 60 || specIndex x = 61 || specIndex x = 63
  | .vdst, x => acc || specView x ≠ 1 || specIndex x = 62 || specIndex x = 63
      || (56 ≤ specIndex x && specIndex x ≤ 59)
  | .vg _, x => acc || specView x ≠ 1 || specIndex x ≥ 56
  | _, _ => false

/-- The codes of TYPE by the classes of R141, R179, R182 (R85). -/
def intTys : List Nat := [1, 2, 3, 4, 5, 6, 7, 8]
def sgnTys : List Nat := [1, 2, 3, 4]
def unsTys : List Nat := [5, 6, 7, 8]
def fltTys : List Nat := [9, 10, 11]
def anyTys : List Nat := intTys ++ fltTys

/-- The element width in bytes of a TYPE code; 1 for codes without a width (R171). -/
def typeBytes (t : Nat) : Nat :=
  if t = 2 ∨ t = 6 ∨ t = 10 ∨ t = 11 then 2
  else if t = 3 ∨ t = 7 ∨ t = 9 then 4
  else if t = 4 ∨ t = 8 then 8
  else 1

/-- Registers moved by FN 0, 1, 2 of the vector loads and stores and of their remote forms (R215). -/
def groupOf (fn : BitVec 4) : Nat := 2 ^ (fn.toNat % 8)

/-- R195: the wide side of a conversion is a group of the ratio of the widths. -/
def vcvtD (r : RegW) : Slot :=
  let n := typeBytes r.ty.toNat / typeBytes r.fn.toNat
  if n ≤ 1 then .vdst else .vg n

/-- R195, the source side. -/
def vcvtA (r : RegW) : Slot :=
  let n := typeBytes r.fn.toNat / typeBytes r.ty.toNat
  if n ≤ 1 then .vsrc else .vg n

/-- A row of a Reg-class table: OP and FN values, the TYPE codes admitted, and the four operand fields. -/
structure RegForm where
  ops : List Nat
  fns : List Nat
  tys : List Nat
  d   : Slot
  a   : Slot
  b   : Slot
  c   : Slot
  deriving DecidableEq, Repr

/-- What the OFF field of a Mem-class form holds. -/
inductive OffUse where
  | byte
  | none
  | range (lo hi : Nat)
  deriving DecidableEq, Repr

/-- A row of a Mem-class table: (OP, FN) pairs, the D field, the spaces of the local forms, whether SCOPE is named,
what OFF holds, whether a strand may gate the form (R207) and whether BASE is named. -/
structure MemForm where
  opfns  : List (Nat × Nat)
  d      : Slot
  spaces : List Nat
  scopeUsed : Bool
  off    : OffUse
  gated  : Bool
  based  : Bool
  deriving DecidableEq, Repr

/-- A row of R149. -/
structure BrForm where
  op     : Nat
  fn     : Nat
  cc     : Nat
  link   : Slot
  a      : Slot
  noDisp : Bool
  deriving DecidableEq, Repr

/-- A remote form: OP 0xD4–0xD7 among the atomics, FN bit 3 elsewhere (R202, R224). -/
def MemW.remote (r : MemW) : Bool :=
  if 0xD0 ≤ r.op.toNat && r.op.toNat ≤ 0xD7 then 0xD4 ≤ r.op.toNat else r.fn.getLsbD 3


/-- The row of R141–R199 and R241 that a Reg-class constructor stands for, with its record. -/
def Instr.regForm : Instr → Option (RegW × RegForm)
  | .nop r => some (r, ⟨[0x00], [0x00], [0], .zero, .zero, .zero, .zero⟩)
  | .add r => some (r, ⟨[0x10], [0x00], intTys, .sc 1, .sc 1, .sc 1, .zero⟩)
  | .sub r => some (r, ⟨[0x10], [0x01], intTys, .sc 1, .sc 1, .sc 1, .zero⟩)
  | .adds r => some (r, ⟨[0x10], [0x02], intTys, .sc 1, .sc 1, .sc 1, .zero⟩)
  | .subs r => some (r, ⟨[0x10], [0x03], intTys, .sc 1, .sc 1, .sc 1, .zero⟩)
  | .min r => some (r, ⟨[0x10], [0x04], intTys, .sc 1, .sc 1, .sc 1, .zero⟩)
  | .max r => some (r, ⟨[0x10], [0x05], intTys, .sc 1, .sc 1, .sc 1, .zero⟩)
  | .abs r => some (r, ⟨[0x10], [0x06], sgnTys, .sc 1, .sc 1, .zero, .zero⟩)
  | .neg r => some (r, ⟨[0x10], [0x07], sgnTys, .sc 1, .sc 1, .zero, .zero⟩)
  | .mul r => some (r, ⟨[0x11], [0x00], intTys, .sc 1, .sc 1, .sc 1, .zero⟩)
  | .mulh r => some (r, ⟨[0x11], [0x01], intTys, .sc 1, .sc 1, .sc 1, .zero⟩)
  | .div r => some (r, ⟨[0x11], [0x02], intTys, .sc 1, .sc 1, .sc 1, .zero⟩)
  | .rem r => some (r, ⟨[0x11], [0x03], intTys, .sc 1, .sc 1, .sc 1, .zero⟩)
  | .mad r => some (r, ⟨[0x11], [0x04], intTys, .sc 1, .sc 1, .sc 1, .sc 1⟩)
  | .and r => some (r, ⟨[0x12], [0x00], [0], .sc 1, .sc 1, .sc 1, .zero⟩)
  | .or r => some (r, ⟨[0x12], [0x01], [0], .sc 1, .sc 1, .sc 1, .zero⟩)
  | .xor r => some (r, ⟨[0x12], [0x02], [0], .sc 1, .sc 1, .sc 1, .zero⟩)
  | .andn r => some (r, ⟨[0x12], [0x03], [0], .sc 1, .sc 1, .sc 1, .zero⟩)
  | .not r => some (r, ⟨[0x12], [0x04], [0], .sc 1, .sc 1, .zero, .zero⟩)
  | .shl r => some (r, ⟨[0x13], [0x00], intTys, .sc 1, .sc 1, .sc 1, .zero⟩)
  | .shr r => some (r, ⟨[0x13], [0x01], intTys, .sc 1, .sc 1, .sc 1, .zero⟩)
  | .rotl r => some (r, ⟨[0x13], [0x02], unsTys, .sc 1, .sc 1, .sc 1, .zero⟩)
  | .rotr r => some (r, ⟨[0x13], [0x03], unsTys, .sc 1, .sc 1, .sc 1, .zero⟩)
  | .clz r => some (r, ⟨[0x14], [0x00], unsTys, .sc 1, .sc 1, .zero, .zero⟩)
  | .ctz r => some (r, ⟨[0x14], [0x01], unsTys, .sc 1, .sc 1, .zero, .zero⟩)
  | .popc r => some (r, ⟨[0x14], [0x02], unsTys, .sc 1, .sc 1, .zero, .zero⟩)
  | .brev r => some (r, ⟨[0x14], [0x03], unsTys, .sc 1, .sc 1, .zero, .zero⟩)
  | .bswap r => some (r, ⟨[0x14], [0x04], unsTys, .sc 1, .sc 1, .zero, .zero⟩)
  | .mov r => some (r, ⟨[0x15], [0x00], [0], .sc 1, .sc 1, .zero, .zero⟩)
  | .sel r => some (r, ⟨[0x15], [0x01], [0], .sc 1, .sc 1, .sc 1, .zero⟩)
  | .cmpEq r => some (r, ⟨[0x16], [0x00], intTys, .pr, .sc 1, .sc 1, .zero⟩)
  | .cmpNe r => some (r, ⟨[0x16], [0x01], intTys, .pr, .sc 1, .sc 1, .zero⟩)
  | .cmpLt r => some (r, ⟨[0x16], [0x02], intTys, .pr, .sc 1, .sc 1, .zero⟩)
  | .cmpLe r => some (r, ⟨[0x16], [0x03], intTys, .pr, .sc 1, .sc 1, .zero⟩)
  | .cmpGt r => some (r, ⟨[0x16], [0x04], intTys, .pr, .sc 1, .sc 1, .zero⟩)
  | .cmpGe r => some (r, ⟨[0x16], [0x05], intTys, .pr, .sc 1, .sc 1, .zero⟩)
  | .cmpTst r => some (r, ⟨[0x16], [0x06], intTys, .pr, .sc 1, .sc 1, .zero⟩)
  | .cmpNtst r => some (r, ⟨[0x16], [0x07], intTys, .pr, .sc 1, .sc 1, .zero⟩)
  | .pand r => some (r, ⟨[0x17], [0x00], [0], .pr, .pr, .pr, .zero⟩)
  | .por r => some (r, ⟨[0x17], [0x01], [0], .pr, .pr, .pr, .zero⟩)
  | .pxor r => some (r, ⟨[0x17], [0x02], [0], .pr, .pr, .pr, .zero⟩)
  | .pandn r => some (r, ⟨[0x17], [0x03], [0], .pr, .pr, .pr, .zero⟩)
  | .pnot r => some (r, ⟨[0x17], [0x04], [0], .pr, .pr, .zero, .zero⟩)
  | .pmov r => some (r, ⟨[0x17], [0x05], [0], .pr, .pr, .zero, .zero⟩)
  | .pgetLo r => some (r, ⟨[0x17], [0x06], [0], .sc 1, .pr, .zero, .zero⟩)
  | .pgetHi r => some (r, ⟨[0x17], [0x07], [0], .sc 1, .pr, .zero, .zero⟩)
  | .psetLo r => some (r, ⟨[0x17], [0x08], [0], .pr, .sc 1, .zero, .zero⟩)
  | .psetHi r => some (r, ⟨[0x17], [0x09], [0], .pr, .sc 1, .zero, .zero⟩)
  | .vadd r => some (r, ⟨[0x50], [0x00], intTys, .vdst, .vsrc, .vsrc, .zero⟩)
  | .vsub r => some (r, ⟨[0x50], [0x01], intTys, .vdst, .vsrc, .vsrc, .zero⟩)
  | .vadds r => some (r, ⟨[0x50], [0x02], intTys, .vdst, .vsrc, .vsrc, .zero⟩)
  | .vsubs r => some (r, ⟨[0x50], [0x03], intTys, .vdst, .vsrc, .vsrc, .zero⟩)
  | .vmin r => some (r, ⟨[0x50], [0x04], intTys, .vdst, .vsrc, .vsrc, .zero⟩)
  | .vmax r => some (r, ⟨[0x50], [0x05], intTys, .vdst, .vsrc, .vsrc, .zero⟩)
  | .vabs r => some (r, ⟨[0x50], [0x06], sgnTys, .vdst, .vsrc, .zero, .zero⟩)
  | .vneg r => some (r, ⟨[0x50], [0x07], sgnTys, .vdst, .vsrc, .zero, .zero⟩)
  | .vmul r => some (r, ⟨[0x51], [0x00], intTys, .vdst, .vsrc, .vsrc, .zero⟩)
  | .vmulh r => some (r, ⟨[0x51], [0x01], intTys, .vdst, .vsrc, .vsrc, .zero⟩)
  | .vmad r => some (r, ⟨[0x51], [0x02], intTys, .vdst, .vsrc, .vsrc, .vsrc⟩)
  | .vdp4 r => some (r, ⟨[0x51], [0x03], [3, 7], .vdst, .vsrc, .vsrc, .vsrc⟩)
  | .vand r => some (r, ⟨[0x52], [0x00], [0], .vdst, .vsrc, .vsrc, .zero⟩)
  | .vor r => some (r, ⟨[0x52], [0x01], [0], .vdst, .vsrc, .vsrc, .zero⟩)
  | .vxor r => some (r, ⟨[0x52], [0x02], [0], .vdst, .vsrc, .vsrc, .zero⟩)
  | .vandn r => some (r, ⟨[0x52], [0x03], [0], .vdst, .vsrc, .vsrc, .zero⟩)
  | .vnot r => some (r, ⟨[0x52], [0x04], [0], .vdst, .vsrc, .zero, .zero⟩)
  | .vshl r => some (r, ⟨[0x53], [0x00], intTys, .vdst, .vsrc, .vsrc, .zero⟩)
  | .vshr r => some (r, ⟨[0x53], [0x01], intTys, .vdst, .vsrc, .vsrc, .zero⟩)
  | .vrotl r => some (r, ⟨[0x53], [0x02], unsTys, .vdst, .vsrc, .vsrc, .zero⟩)
  | .vrotr r => some (r, ⟨[0x53], [0x03], unsTys, .vdst, .vsrc, .vsrc, .zero⟩)
  | .vclz r => some (r, ⟨[0x54], [0x00], unsTys, .vdst, .vsrc, .zero, .zero⟩)
  | .vctz r => some (r, ⟨[0x54], [0x01], unsTys, .vdst, .vsrc, .zero, .zero⟩)
  | .vpopc r => some (r, ⟨[0x54], [0x02], unsTys, .vdst, .vsrc, .zero, .zero⟩)
  | .vcmpEq r => some (r, ⟨[0x55], [0x00], intTys, .pr, .vsrc, .vsrc, .zero⟩)
  | .vcmpNe r => some (r, ⟨[0x55], [0x01], intTys, .pr, .vsrc, .vsrc, .zero⟩)
  | .vcmpLt r => some (r, ⟨[0x55], [0x02], intTys, .pr, .vsrc, .vsrc, .zero⟩)
  | .vcmpLe r => some (r, ⟨[0x55], [0x03], intTys, .pr, .vsrc, .vsrc, .zero⟩)
  | .vcmpGt r => some (r, ⟨[0x55], [0x04], intTys, .pr, .vsrc, .vsrc, .zero⟩)
  | .vcmpGe r => some (r, ⟨[0x55], [0x05], intTys, .pr, .vsrc, .vsrc, .zero⟩)
  | .vcmpTst r => some (r, ⟨[0x55], [0x06], intTys, .pr, .vsrc, .vsrc, .zero⟩)
  | .vcmpNtst r => some (r, ⟨[0x55], [0x07], intTys, .pr, .vsrc, .vsrc, .zero⟩)
  | .vmov r => some (r, ⟨[0x56], [0x00], [0], .vdst, .vsrc, .zero, .zero⟩)
  | .vsel r => some (r, ⟨[0x56], [0x01], anyTys, .vdst, .vsrc, .vsrc, .zero⟩)
  | .vbcast r => some (r, ⟨[0x56], [0x02], anyTys, .vdst, .sc 1, .zero, .zero⟩)
  | .vins r => some (r, ⟨[0x56], [0x03], anyTys, .vdst, .sc 1, .sc 1, .zero⟩)
  | .vext r => some (r, ⟨[0x56], [0x04], anyTys, .sc 1, .vsrc, .sc 1, .zero⟩)
  | .vidx r => some (r, ⟨[0x56], [0x05], intTys, .vdst, .zero, .zero, .zero⟩)
  | .vperm r => some (r, ⟨[0x57], [0x00], anyTys, .vdst, .vsrc, .vsrc, .zero⟩)
  | .vshx r => some (r, ⟨[0x57], [0x01], [3, 7, 9], .vdst, .vsrc, .sc 1, .zero⟩)
  | .vrot r => some (r, ⟨[0x57], [0x02], anyTys, .vdst, .vsrc, .sc 1, .zero⟩)
  | .vredAdd r => some (r, ⟨[0x58], [0x00], intTys, .sc 1, .vsrc, .zero, .zero⟩)
  | .vredMin r => some (r, ⟨[0x58], [0x01], intTys, .sc 1, .vsrc, .zero, .zero⟩)
  | .vredMax r => some (r, ⟨[0x58], [0x02], intTys, .sc 1, .vsrc, .zero, .zero⟩)
  | .vtrit r => some (r, ⟨[0x5C], [0x00, 0x01, 0x02, 0x03, 0x04], [1], .vdst, .vsrc, .zero, .zero⟩)
  | .vtacc r => some (r, ⟨[0x5C], [0x08], [3], .vdst, .vsrc, .vsrc, .vsrc⟩)
  | .vfadd r => some (r, ⟨[0x80, 0x81, 0x82], [0x00], fltTys, .vdst, .vsrc, .vsrc, .zero⟩)
  | .vfsub r => some (r, ⟨[0x80, 0x81, 0x82], [0x01], fltTys, .vdst, .vsrc, .vsrc, .zero⟩)
  | .vfmul r => some (r, ⟨[0x80, 0x81, 0x82], [0x02], fltTys, .vdst, .vsrc, .vsrc, .zero⟩)
  | .vfma r => some (r, ⟨[0x80, 0x81, 0x82], [0x03], fltTys, .vdst, .vsrc, .vsrc, .vsrc⟩)
  | .vfnma r => some (r, ⟨[0x80, 0x81, 0x82], [0x04], fltTys, .vdst, .vsrc, .vsrc, .vsrc⟩)
  | .vfdiv r => some (r, ⟨[0x80, 0x81, 0x82], [0x05], fltTys, .vdst, .vsrc, .vsrc, .zero⟩)
  | .vfsqrt r => some (r, ⟨[0x80, 0x81, 0x82], [0x06], fltTys, .vdst, .vsrc, .zero, .zero⟩)
  | .vfmin r => some (r, ⟨[0x84], [0x00], fltTys, .vdst, .vsrc, .vsrc, .zero⟩)
  | .vfmax r => some (r, ⟨[0x84], [0x01], fltTys, .vdst, .vsrc, .vsrc, .zero⟩)
  | .vfabs r => some (r, ⟨[0x84], [0x02], fltTys, .vdst, .vsrc, .zero, .zero⟩)
  | .vfneg r => some (r, ⟨[0x84], [0x03], fltTys, .vdst, .vsrc, .zero, .zero⟩)
  | .vfcmpEq r => some (r, ⟨[0x85], [0x00], fltTys, .pr, .vsrc, .vsrc, .zero⟩)
  | .vfcmpNe r => some (r, ⟨[0x85], [0x01], fltTys, .pr, .vsrc, .vsrc, .zero⟩)
  | .vfcmpLt r => some (r, ⟨[0x85], [0x02], fltTys, .pr, .vsrc, .vsrc, .zero⟩)
  | .vfcmpLe r => some (r, ⟨[0x85], [0x03], fltTys, .pr, .vsrc, .vsrc, .zero⟩)
  | .vfcmpGt r => some (r, ⟨[0x85], [0x04], fltTys, .pr, .vsrc, .vsrc, .zero⟩)
  | .vfcmpGe r => some (r, ⟨[0x85], [0x05], fltTys, .pr, .vsrc, .vsrc, .zero⟩)
  | .vfcmpUn r => some (r, ⟨[0x85], [0x06], fltTys, .pr, .vsrc, .vsrc, .zero⟩)
  | .vfredAdd r => some (r, ⟨[0x88], [0x00], fltTys, .sc 1, .vsrc, .zero, .zero⟩)
  | .vfredMin r => some (r, ⟨[0x88], [0x01], fltTys, .sc 1, .vsrc, .zero, .zero⟩)
  | .vfredMax r => some (r, ⟨[0x88], [0x02], fltTys, .sc 1, .vsrc, .zero, .zero⟩)
  | .vcvt r => some (r, ⟨[0x98, 0x99, 0x9A], [0x01, 0x02, 0x03, 0x04, 0x05, 0x06, 0x07, 0x08, 0x09, 0x0A, 0x0B], anyTys, vcvtD r, vcvtA r, .zero, .zero⟩)
  | .vquant r => some (r, ⟨[0x9C], [0x00, 0x01, 0x02], [12], .vdst, .vg 2, .zero, .zero⟩)
  | .vquantStart r => some (r, ⟨[0x9C], [0x04, 0x05, 0x06], [12], .vdst, .vg 2, .sc 1, .zero⟩)
  | .vdequantF32 r => some (r, ⟨[0x9D], [0x00], [12], .vg 2, .vsrc, .zero, .zero⟩)
  | .vdequantBf16 r => some (r, ⟨[0x9D], [0x01], [12], .vdst, .vsrc, .zero, .zero⟩)
  | .sigGet r => some (r, ⟨[0xF4], [0x00], [0], .sc 1, .zero, .zero, .slotNo⟩)
  | .sigAdd r => some (r, ⟨[0xF4], [0x01], [0], .zero, .sc 1, .zero, .slotNo⟩)
  | .sigSet r => some (r, ⟨[0xF4], [0x02], [0], .zero, .sc 1, .zero, .slotNo⟩)
  | .sigAddR r => some (r, ⟨[0xF5], [0x00], [0], .zero, .sc 2, .zero, .slotNo⟩)
  | _ => none

/-- The row of R214–R232 that a Mem-class constructor stands for, with its record. -/
def Instr.memForm : Instr → Option (MemW × MemForm)
  | .ld r => some (r, ⟨[(0xB0, 0), (0xB0, 1), (0xB0, 2), (0xB0, 3), (0xB0, 4), (0xB0, 5), (0xB0, 6), (0xB0, 8), (0xB0, 9), (0xB0, 10), (0xB0, 11), (0xB0, 12), (0xB0, 13), (0xB0, 14)], .sc 1, [0, 1], false, .byte, true, true⟩)
  | .st r => some (r, ⟨[(0xB1, 0), (0xB1, 1), (0xB1, 2), (0xB1, 3), (0xB1, 8), (0xB1, 9), (0xB1, 10), (0xB1, 11)], .sc 1, [0, 1], false, .byte, true, true⟩)
  | .vld r => some (r, ⟨[(0xB2, 0), (0xB2, 1), (0xB2, 2), (0xB2, 8), (0xB2, 9), (0xB2, 10)], .vg (groupOf r.fn), [0, 1, 2, 3, 4], false, .byte, true, true⟩)
  | .vst r => some (r, ⟨[(0xB3, 0), (0xB3, 1), (0xB3, 2), (0xB3, 8), (0xB3, 9), (0xB3, 10)], (if r.fn.toNat % 8 = 0 then .vsrc else .vg (groupOf r.fn)), [0, 1, 3, 4], false, .byte, true, true⟩)
  | .ldwF r => some (r, ⟨[(0xB4, 0), (0xB4, 8)], .sc 1, [1], false, .byte, true, true⟩)
  | .ldwFe r => some (r, ⟨[(0xB4, 1), (0xB4, 9)], .sc 1, [1], false, .byte, true, true⟩)
  | .vldwF r => some (r, ⟨[(0xB4, 2), (0xB4, 10)], .vg 1, [1], false, .byte, true, true⟩)
  | .vldwFe r => some (r, ⟨[(0xB4, 3), (0xB4, 11)], .vg 1, [1], false, .byte, true, true⟩)
  | .stwEf r => some (r, ⟨[(0xB5, 0), (0xB5, 8)], .sc 1, [1], false, .byte, true, true⟩)
  | .stwF r => some (r, ⟨[(0xB5, 1), (0xB5, 9)], .sc 1, [1], false, .byte, true, true⟩)
  | .vstwEf r => some (r, ⟨[(0xB5, 2), (0xB5, 10)], .vg 1, [1], false, .byte, true, true⟩)
  | .vstwF r => some (r, ⟨[(0xB5, 3), (0xB5, 11)], .vg 1, [1], false, .byte, true, true⟩)
  | .feEmpty r => some (r, ⟨[(0xE5, 0), (0xE5, 8)], .zero, [1], false, .byte, true, true⟩)
  | .feFull r => some (r, ⟨[(0xE5, 1), (0xE5, 9)], .zero, [1], false, .byte, true, true⟩)
  | .feGet r => some (r, ⟨[(0xE5, 2), (0xE5, 10)], .sc 1, [1], false, .byte, true, true⟩)
  | .qdrop r => some (r, ⟨[(0xC0, 0)], .low 2, [], false, .range 1 16, false, false⟩)
  | .qlen r => some (r, ⟨[(0xC0, 1)], .sc 1, [], false, .range 0 5, false, false⟩)
  | .qwait r => some (r, ⟨[(0xC1, 0)], .low 1, [], false, .none, false, false⟩)
  | .fetch r => some (r, ⟨[(0xC4, 0), (0xC4, 8)], .low 2, [0, 1, 2, 3, 4], false, .byte, false, true⟩)
  | .fetchF r => some (r, ⟨[(0xC4, 1), (0xC4, 9)], .low 2, [1], false, .byte, false, true⟩)
  | .fetchFe r => some (r, ⟨[(0xC4, 2), (0xC4, 10)], .low 2, [1], false, .byte, false, true⟩)
  | .drain r => some (r, ⟨[(0xC5, 0), (0xC5, 8)], .low 1, [0, 1, 3, 4], false, .byte, false, true⟩)
  | .drainEf r => some (r, ⟨[(0xC5, 1), (0xC5, 9)], .low 1, [1], false, .byte, false, true⟩)
  | .drainF r => some (r, ⟨[(0xC5, 2), (0xC5, 10)], .low 1, [1], false, .byte, false, true⟩)
  | .pref r => some (r, ⟨[(0xC6, 0)], .zero, [0], false, .byte, false, true⟩)
  | .amoAdd r => some (r, ⟨[(0xD0, 0), (0xD1, 0), (0xD4, 0), (0xD5, 0)], .sc 2, [0, 1], true, .byte, true, true⟩)
  | .amoAnd r => some (r, ⟨[(0xD0, 1), (0xD1, 1), (0xD4, 1), (0xD5, 1)], .sc 2, [0, 1], true, .byte, true, true⟩)
  | .amoOr r => some (r, ⟨[(0xD0, 2), (0xD1, 2), (0xD4, 2), (0xD5, 2)], .sc 2, [0, 1], true, .byte, true, true⟩)
  | .amoXor r => some (r, ⟨[(0xD0, 3), (0xD1, 3), (0xD4, 3), (0xD5, 3)], .sc 2, [0, 1], true, .byte, true, true⟩)
  | .amoMinS r => some (r, ⟨[(0xD0, 4), (0xD1, 4), (0xD4, 4), (0xD5, 4)], .sc 2, [0, 1], true, .byte, true, true⟩)
  | .amoMaxS r => some (r, ⟨[(0xD0, 5), (0xD1, 5), (0xD4, 5), (0xD5, 5)], .sc 2, [0, 1], true, .byte, true, true⟩)
  | .amoMinN r => some (r, ⟨[(0xD0, 6), (0xD1, 6), (0xD4, 6), (0xD5, 6)], .sc 2, [0, 1], true, .byte, true, true⟩)
  | .amoMaxN r => some (r, ⟨[(0xD0, 7), (0xD1, 7), (0xD4, 7), (0xD5, 7)], .sc 2, [0, 1], true, .byte, true, true⟩)
  | .amoSwap r => some (r, ⟨[(0xD0, 8), (0xD1, 8), (0xD4, 8), (0xD5, 8)], .sc 2, [0, 1], true, .byte, true, true⟩)
  | .amoCas r => some (r, ⟨[(0xD0, 9), (0xD1, 9), (0xD4, 9), (0xD5, 9)], .sc 2, [0, 1], true, .byte, true, true⟩)
  | .amoFadd r => some (r, ⟨[(0xD2, 0), (0xD3, 0), (0xD6, 0), (0xD7, 0)], .sc 2, [0, 1], true, .byte, true, true⟩)
  | .amoFmin r => some (r, ⟨[(0xD2, 1), (0xD3, 1), (0xD6, 1), (0xD7, 1)], .sc 2, [0, 1], true, .byte, true, true⟩)
  | .amoFmax r => some (r, ⟨[(0xD2, 2), (0xD3, 2), (0xD6, 2), (0xD7, 2)], .sc 2, [0, 1], true, .byte, true, true⟩)
  | .fence r => some (r, ⟨[(0xE0, 0)], .zero, [], true, .none, false, false⟩)
  | .fenceRel r => some (r, ⟨[(0xE0, 1)], .zero, [], true, .none, false, false⟩)
  | .fenceAcq r => some (r, ⟨[(0xE0, 2)], .zero, [], true, .none, false, false⟩)
  | .rel r => some (r, ⟨[(0xE1, 0), (0xE1, 1)], .sc 1, [0, 1], true, .byte, false, true⟩)
  | .acq r => some (r, ⟨[(0xE2, 0), (0xE2, 1)], .sc 1, [0, 1], true, .byte, false, true⟩)
  | .acqP r => some (r, ⟨[(0xE3, 0), (0xE3, 1)], .sc 2, [0], true, .byte, false, true⟩)
  | .barSync r => some (r, ⟨[(0xE4, 0)], .zero, [], true, .range 0 15, false, false⟩)
  | .barArr r => some (r, ⟨[(0xE4, 1)], .zero, [], true, .range 0 15, false, false⟩)
  | .barWt r => some (r, ⟨[(0xE4, 2)], .zero, [], true, .range 0 15, false, false⟩)
  | _ => none

/-- The row of R149: OP, FN, CC, and what LINK, A and DISP hold. -/
def Instr.brForm : Instr → Option (BrW × BrForm)
  | .b r => some (r, ⟨0x40, 0, 0, .zero, .zero, false⟩)
  | .beq r => some (r, ⟨0x40, 1, 0, .zero, .sc 1, false⟩)
  | .bne r => some (r, ⟨0x40, 1, 1, .zero, .sc 1, false⟩)
  | .blt r => some (r, ⟨0x40, 1, 2, .zero, .sc 1, false⟩)
  | .ble r => some (r, ⟨0x40, 1, 3, .zero, .sc 1, false⟩)
  | .bgt r => some (r, ⟨0x40, 1, 4, .zero, .sc 1, false⟩)
  | .bge r => some (r, ⟨0x40, 1, 5, .zero, .sc 1, false⟩)
  | .bp r => some (r, ⟨0x41, 0, 0, .zero, .pr, false⟩)
  | .bnp r => some (r, ⟨0x41, 1, 0, .zero, .pr, false⟩)
  | .call r => some (r, ⟨0x42, 0, 0, .sc 1, .zero, false⟩)
  | .jr r => some (r, ⟨0x43, 0, 0, .zero, .sc 1, true⟩)
  | .callr r => some (r, ⟨0x43, 1, 0, .sc 1, .sc 1, true⟩)
  | .loop r => some (r, ⟨0x44, 0, 0, .zero, .sc 1, false⟩)
  | _ => none

/-- Control-register numbers that exist (R45). -/
def crExists (n : Nat) : Bool := n ≤ 0x0E || (0x14 ≤ n && n ≤ 0x16) || (0x20 ≤ n && n ≤ 0x2F)

/-- Control registers that a write form may name (R45, R159). -/
def crWritable (n : Nat) : Bool :=
  n ≤ 0x05 || n = 0x0B || (0x14 ≤ n && n ≤ 0x16) || (0x20 ≤ n && n ≤ 0x2F)

/-- The lowest reason code among the conditions that hold, given in rising order (R88). -/
def firstReason : List (Bool × Nat) → Option Nat
  | [] => none
  | (true, r) :: _ => some r
  | (false, _) :: rest => firstReason rest

/-- R194: the FN and TYPE pairs of `vcvt` that give reason 0x05. -/
def vcvtBad5 (r : RegW) : Bool :=
  r.fn = r.ty || (r.op ≠ 0x98 && intTys.contains r.fn.toNat && intTys.contains r.ty.toNat)

/-- Conditions 0x05 to 0x08 on a Reg-class word (R85, R88, R137, R175, R200). -/
def RegW.reason (acc : Bool) (r : RegW) (f : RegForm) : Option Nat :=
  firstReason [
    (!(f.ops.contains r.op.toNat && f.fns.contains r.fn.toNat)
      || (0x98 ≤ r.op.toNat && r.op.toNat ≤ 0x9A && vcvtBad5 r), 5),
    (!f.tys.contains r.ty.toNat || (r.fdn ≠ 0 && r.ty ≠ 0xC), 6),
    (f.d.bad7 r.d || f.a.bad7 r.a || f.b.bad7 r.b || f.c.bad7 r.c
      || (r.op = 0 && (r.pred ≠ 0 || r.pn)), 7),
    (f.d.bad8 acc r.d || f.a.bad8 acc r.a || f.b.bad8 acc r.b || f.c.bad8 acc r.c, 8)]

/-- Conditions on an Imm-class word: `noA` forms must have A 0, `imm7` says when IMM breaks its range, and `leax`
holds a second specifier in IMM (R146, R147). -/
def ImmW.reason (r : ImmW) (op : Nat) (noA : Bool) (imm7 : Bool) (leax : Bool) : Option Nat :=
  firstReason [
    (r.op.toNat ≠ op, 5),
    ((noA && r.a ≠ 0) || imm7, 7),
    (specView r.d ≠ 0 || (!noA && specView r.a ≠ 0)
      || (leax && specView (r.imm.extractLsb' 0 8) ≠ 0), 8)]

def OffUse.bad7 : OffUse → BitVec 16 → Bool
  | .byte, _ => false
  | .none, x => x ≠ 0
  | .range lo hi, x => x.toNat < lo || hi < x.toNat

/-- Conditions on a Mem-class word (R201–R207, R235). A remote form admits only SPACE sp and a scalar group of 2
as BASE (R202); a form whose entry admits no space has 0 there, and any other value is reason 0x05 too (R203, R88). -/
def MemW.reason (acc : Bool) (r : MemW) (f : MemForm) : Option Nat :=
  let spaces := if r.remote then [1] else f.spaces
  firstReason [
    (!f.opfns.contains (r.op.toNat, r.fn.toNat)
      || (if f.spaces.isEmpty then r.space ≠ 0 else !spaces.contains r.space.toNat), 5),
    (f.d.bad7 r.d || f.off.bad7 r.off || (!f.scopeUsed && r.scope ≠ 0)
      || (!f.based && r.base ≠ 0) || ((acc || !f.gated) && (r.pred ≠ 0 || r.pn)), 7),
    (f.d.bad8 acc r.d || (f.based && specView r.base ≠ 0), 8)]

/-- The CC values that the entries of a branch opcode assign: 0 to 5 under OP 0x40, 0 alone under the others (R149). -/
def ccAssigned (op cc : Nat) : Bool := if op = 0x40 then cc ≤ 5 else cc = 0

/-- Conditions on a Br-class word (R149): a CC that no entry of the opcode assigns is reason 0x05 (R88), and one that
another form of it uses is a field this form must leave 0. -/
def BrW.reason (r : BrW) (f : BrForm) : Option Nat :=
  firstReason [
    (r.op.toNat ≠ f.op || r.fn.toNat ≠ f.fn || !ccAssigned f.op r.cc.toNat
      || (f.op = 0x40 && f.fn = 1 && r.cc.toNat ≠ f.cc), 5),
    (f.link.bad7 r.link || f.a.bad7 r.a || r.cc.toNat ≠ f.cc || (f.noDisp && r.disp ≠ 0), 7),
    (f.link.bad8 true r.link || f.a.bad8 true r.a, 8)]

/-- Conditions on a Wt-class word: `lo` and `hi` bound ARG, `aUsed` says that A is a scalar (R152). -/
def WtW.reason (r : WtW) (op fn lo hi : Nat) (aUsed : Bool) : Option Nat :=
  firstReason [
    (r.op.toNat ≠ op || r.fn.toNat ≠ fn || (op = 0x48 && fn = 2 && r.arg.toNat % 4 = 3), 5),
    ((!aUsed && r.a ≠ 0) || r.arg.toNat < lo || hi < r.arg.toNat, 7),
    (aUsed && specView r.a ≠ 0, 8)]

/-- Conditions on an Eng-class word (R236). -/
def EngW.reason (r : EngW) (fn : Nat) (aUsed : Bool) : Option Nat :=
  firstReason [
    (r.op ≠ 0xF0 || r.fn.toNat ≠ fn || r.q = 3, 5),
    (r.rsv ≠ 0 || (!aUsed && r.a ≠ 0), 7),
    (aUsed && specView r.a ≠ 0, 8)]

/-- Conditions on a Sys-class word: which of D, A, CR and how much of IMM the form uses (R158, R161, R167, R170). -/
def SysW.reason (r : SysW) (op fn : Nat) (dUsed aUsed : Bool) (crBad : Bool) (crUsed : Bool) (immHi : Nat) :
    Option Nat :=
  firstReason [
    (r.op.toNat ≠ op || r.fn.toNat ≠ fn, 5),
    ((!dUsed && r.d ≠ 0) || (!aUsed && r.a ≠ 0) || (!crUsed && r.cr ≠ 0) || immHi < r.imm.toNat, 7),
    ((dUsed && specView r.d ≠ 0) || (aUsed && specView r.a ≠ 0), 8),
    (crUsed && crBad, 9)]

/-- Conditions on the shift immediates: IMM bits 31:6 must be 0 (R146). -/
def shiftImmBad (r : ImmW) : Bool := r.imm.toNat ≥ 64

/-- The reason for which a word term is not an instruction in the strand or access stream, if there is one. Commands
and events have no word and no reason. -/
def Instr.reason (acc : Bool) (i : Instr) : Option Nat :=
  match i.regForm with
  | some (r, f) => r.reason acc f
  | none =>
    match i.memForm with
    | some (r, f) => r.reason acc f
    | none =>
      match i.brForm with
      | some (r, f) => r.reason f
      | none =>
        match i with
        | .addi r => r.reason 0x20 false false false
        | .andi r => r.reason 0x21 false false false
        | .ori r => r.reason 0x22 false false false
        | .xori r => r.reason 0x23 false false false
        | .shli r => r.reason 0x24 false (shiftImmBad r) false
        | .shri r => r.reason 0x25 false (shiftImmBad r) false
        | .srai r => r.reason 0x26 false (shiftImmBad r) false
        | .movi r => r.reason 0x27 true false false
        | .movhi r => r.reason 0x28 false false false
        | .muli r => r.reason 0x29 false false false
        | .lea r => r.reason 0x30 false false false
        | .leax r => r.reason 0x31 false (r.imm.toNat ≥ 2 ^ 14) true
        | .lpc r => r.reason 0x32 true false false
        | .waitSig r => r.reason 0x48 0 1 63 false
        | .waitTile r => r.reason 0x48 1 0 63 false
        | .waitQ r => r.reason 0x48 2 0 3 false
        | .waitMer r => r.reason 0x48 3 0 0 true
        | .yield r => r.reason 0x48 4 0 0 false
        | .exit r => r.reason 0x49 0 0 0 false
        | .enq r => r.reason 0 true
        | .qclr r => r.reason 1 false
        | .crr r => r.reason 1 0 true false (!crExists r.cr.toNat) true 0
        | .crw r => r.reason 1 1 false true (!crWritable r.cr.toNat) true 0
        | .crs r => r.reason 1 2 false true (!crWritable r.cr.toNat || r.cr = 5) true 0
        | .crc r => r.reason 1 3 false true (!crWritable r.cr.toNat) true 0
        | .crwi r => r.reason 1 4 false false (!crWritable r.cr.toNat) true (2 ^ 20)
        | .trap r => r.reason 2 0 false false false false (2 ^ 20)
        | .brk r => r.reason 2 1 false false false false (2 ^ 20)
        | .tret r => r.reason 3 0 false false false false 0
        | .ctrr r => r.reason 4 0 true false false false 31
        | _ => none

/-- The modifiers of a word term; commands and events have none. -/
def Instr.modsOp (i : Instr) : Option (Mods × BitVec 8) :=
  match i.regForm with
  | some (r, _) => some (r.mods, r.op)
  | none =>
    match i.memForm with
    | some (r, _) => some (r.mods, r.op)
    | none =>
      match i.brForm with
      | some (r, _) => some (r.mods, r.op)
      | none =>
        match i with
        | .addi r | .andi r | .ori r | .xori r | .shli r | .shri r | .srai r | .movi r | .movhi r | .muli r
        | .lea r | .leax r | .lpc r => some (r.mods, r.op)
        | .waitSig r | .waitTile r | .waitQ r | .waitMer r | .yield r | .exit r => some (r.mods, r.op)
        | .enq r | .qclr r => some (r.mods, r.op)
        | .crr r | .crw r | .crs r | .crc r | .crwi r | .trap r | .brk r | .tret r | .ctrr r =>
          some (r.mods, r.op)
        | _ => none

/-- Opcodes marked "access" in R86. -/
def accessOnlyOp (op : Nat) : Bool := 0xC4 ≤ op && op ≤ 0xC7

/-- Opcodes marked "strand" in R86. -/
def strandOnlyOp (op : Nat) : Bool :=
  (0x50 ≤ op && op ≤ 0x9F) || (0xC0 ≤ op && op ≤ 0xC3) || (0xD0 ≤ op && op ≤ 0xE7) || (0xF0 ≤ op && op ≤ 0xF5)

/-- Reason 0x04: OP not legal in the issuing stream, or S or O is 1 in the access stream (R81, R86, R88). -/
def streamBad (acc : Bool) (op : Nat) (m : Mods) : Bool :=
  if acc then strandOnlyOp op || m.sync || m.old else accessOnlyOp op

/-- The command codes (R94) with the constructor's code, and the LEN values a code requires (R258, R267, R272). -/
def Instr.cmdForm : Instr → Option (Cmd × Nat × List Nat)
  | .cmdNop c => some (c, 0x00, [0])
  | .cpLd c => some (c, 0x01, [2 + (if c.body.getLsbD 24 then 1 else 0)])
  | .cpSt c => some (c, 0x02, [2])
  | .cpMv c => some (c, 0x03, [1 + (if c.body.getLsbD 24 then 1 else 0)])
  | .cpZero c => some (c, 0x04, [0])
  | .cpRenc c => some (c, 0x05, [1])
  | .cpRed c => some (c, 0x06, [3])
  | .mm c => some (c, 0x20, [0])
  | .mmG c => some (c, 0x21, [1])
  | .clAred c => some (c, 0x40, [3])
  | .clRsc c => some (c, 0x41, [3])
  | .clAgat c => some (c, 0x42, [3])
  | .clPut c => some (c, 0x48, [2])
  | .clPutq c => some (c, 0x49, [3])
  | .notify c => some (c, 0xF0, [0])
  | .qfence c => some (c, 0xF1, [0])
  | .chain c => some (c, 0xF2, [1])
  | .sealRange c => some (c, 0xF3, [2])
  | _ => none

/-- A command's words beyond LEN are not part of it: they are 0 in a well-formed term. -/
def Cmd.tidy (c : Cmd) : Bool :=
  (c.len.toNat ≥ 1 || c.w1 = 0) && (c.len.toNat ≥ 2 || c.w2 = 0) && (c.len.toNat ≥ 3 || c.w3 = 0)

/-- A word term is well formed in the stream `acc` when R88 gives no reason against it; a command term when its
code and length agree and it holds no words beyond its length; an event always. -/
def Instr.wf (acc : Bool) (i : Instr) : Bool :=
  match i.modsOp with
  | some (m, op) => !streamBad acc op.toNat m && (i.reason acc).isNone
  | none =>
    match i.cmdForm with
    | some (c, code, lens) => c.cmd.toNat = code && lens.contains c.len.toNat && c.tidy
    | none => true

/-- Well-formedness as a proposition. -/
abbrev Instr.WellFormed (acc : Bool) (i : Instr) : Prop := i.wf acc = true

end Sys2Proof
end

