-- ==== Sys2Proof/Decode.lean ====
section
/-! DEFINITION. From words to instructions and back: the fields of the seven format classes (R69, R84), the opcode map
(R86), the decoder, which is total and answers with the reason code of R88 where a word is no instruction, the
command decoder (R90, R94), and after them the encoder, written from the same tables. -/

namespace Sys2Proof

/-- Eight bytes, the one at the lowest address first, as a word (R7). -/
def wordOfBytes (bs : List Byte) : Word :=
  bs.foldr (fun b acc => (acc <<< 8) ||| b.zeroExtend 64) 0

/-- The eight bytes of a word, the lowest address first (R7). -/
def bytesOfWord (w : Word) : List Byte :=
  (List.range 8).map fun i => w.extractLsb' (8 * i) 8

/-- VER, S, STALL and O (R69); VER's upper bit is 0 in every instruction. -/
def Mods.ofWord (w : Word) : Mods :=
  ⟨w.getLsbD 62, w.getLsbD 61, w.extractLsb' 57 4, w.getLsbD 56⟩

/-- The major opcode (R69). -/
def opOfWord (w : Word) : BitVec 8 := w.extractLsb' 48 8

def RegW.ofWord (w : Word) : RegW :=
  ⟨Mods.ofWord w, opOfWord w, w.extractLsb' 40 8, w.extractLsb' 32 8, w.extractLsb' 24 8, w.extractLsb' 16 8,
    w.extractLsb' 13 3, w.getLsbD 12, w.extractLsb' 8 4, w.extractLsb' 4 4, w.extractLsb' 0 4⟩

def ImmW.ofWord (w : Word) : ImmW :=
  ⟨Mods.ofWord w, opOfWord w, w.extractLsb' 40 8, w.extractLsb' 32 8, w.extractLsb' 0 32⟩

def MemW.ofWord (w : Word) : MemW :=
  ⟨Mods.ofWord w, opOfWord w, w.extractLsb' 40 8, w.extractLsb' 32 8, w.extractLsb' 29 3, w.extractLsb' 24 5,
    w.extractLsb' 8 16, w.extractLsb' 5 3, w.getLsbD 4, w.extractLsb' 0 4⟩

def BrW.ofWord (w : Word) : BrW :=
  ⟨Mods.ofWord w, opOfWord w, w.extractLsb' 40 8, w.extractLsb' 32 8, w.extractLsb' 28 4, w.extractLsb' 24 4,
    w.extractLsb' 0 24⟩

def WtW.ofWord (w : Word) : WtW :=
  ⟨Mods.ofWord w, opOfWord w, w.extractLsb' 40 8, w.extractLsb' 36 4, w.extractLsb' 0 36⟩

def EngW.ofWord (w : Word) : EngW :=
  ⟨Mods.ofWord w, opOfWord w, w.extractLsb' 40 8, w.extractLsb' 38 2, w.extractLsb' 4 34, w.extractLsb' 0 4⟩

def SysW.ofWord (w : Word) : SysW :=
  ⟨Mods.ofWord w, opOfWord w, w.extractLsb' 40 8, w.extractLsb' 32 8, w.extractLsb' 24 8, w.extractLsb' 4 20,
    w.extractLsb' 0 4⟩

/-- The format class of an assigned major opcode; none where an entry's chapter or R86 reserves it. -/
inductive WordClass where
  | reg | imm | mem | br | wt | eng | sys
  deriving DecidableEq, Repr

/-- The opcode map (R86) with the reservations of R141, R146, R147, R149, R152, R170, R200, R220, R221, R229, R235
and R236. -/
def classOf (op : Nat) : Option WordClass :=
  if op = 0 then some .reg
  else if op ≤ 0x04 then some .sys
  else if op < 0x10 then none
  else if op ≤ 0x17 then some .reg
  else if op < 0x20 then none
  else if op ≤ 0x29 then some .imm
  else if op < 0x30 then none
  else if op ≤ 0x32 then some .imm
  else if op < 0x40 then none
  else if op ≤ 0x44 then some .br
  else if op < 0x48 then none
  else if op ≤ 0x49 then some .wt
  else if op < 0x50 then none
  else if op ≤ 0x58 then some .reg
  else if op = 0x5C then some .reg
  else if op < 0x80 then none
  else if op ≤ 0x82 then some .reg
  else if op = 0x84 || op = 0x85 || op = 0x88 then some .reg
  else if op < 0x98 then none
  else if op ≤ 0x9A then some .reg
  else if op = 0x9C || op = 0x9D then some .reg
  else if op < 0xB0 then none
  else if op ≤ 0xB5 then some .mem
  else if op = 0xC0 || op = 0xC1 then some .mem
  else if op < 0xC4 then none
  else if op ≤ 0xC6 then some .mem
  else if op < 0xD0 then none
  else if op ≤ 0xD7 then some .mem
  else if op < 0xE0 then none
  else if op ≤ 0xE5 then some .mem
  else if op = 0xF0 then some .eng
  else if op = 0xF4 || op = 0xF5 then some .reg
  else none

/-- Reg-class entries (R141–R145, R179–R199, R241) but `nop`. -/
def regOf (op fn : Nat) : Option (RegW → Instr) :=
  match op with
  | 0x10 =>
    match fn with
    | 0 => some .add
    | 1 => some .sub
    | 2 => some .adds
    | 3 => some .subs
    | 4 => some .min
    | 5 => some .max
    | 6 => some .abs
    | 7 => some .neg
    | _ => none
  | 0x11 =>
    match fn with
    | 0 => some .mul
    | 1 => some .mulh
    | 2 => some .div
    | 3 => some .rem
    | 4 => some .mad
    | _ => none
  | 0x12 =>
    match fn with
    | 0 => some .and
    | 1 => some .or
    | 2 => some .xor
    | 3 => some .andn
    | 4 => some .not
    | _ => none
  | 0x13 =>
    match fn with
    | 0 => some .shl
    | 1 => some .shr
    | 2 => some .rotl
    | 3 => some .rotr
    | _ => none
  | 0x14 =>
    match fn with
    | 0 => some .clz
    | 1 => some .ctz
    | 2 => some .popc
    | 3 => some .brev
    | 4 => some .bswap
    | _ => none
  | 0x15 =>
    match fn with
    | 0 => some .mov
    | 1 => some .sel
    | _ => none
  | 0x16 =>
    match fn with
    | 0 => some .cmpEq
    | 1 => some .cmpNe
    | 2 => some .cmpLt
    | 3 => some .cmpLe
    | 4 => some .cmpGt
    | 5 => some .cmpGe
    | 6 => some .cmpTst
    | 7 => some .cmpNtst
    | _ => none
  | 0x17 =>
    match fn with
    | 0 => some .pand
    | 1 => some .por
    | 2 => some .pxor
    | 3 => some .pandn
    | 4 => some .pnot
    | 5 => some .pmov
    | 6 => some .pgetLo
    | 7 => some .pgetHi
    | 8 => some .psetLo
    | 9 => some .psetHi
    | _ => none
  | 0x50 =>
    match fn with
    | 0 => some .vadd
    | 1 => some .vsub
    | 2 => some .vadds
    | 3 => some .vsubs
    | 4 => some .vmin
    | 5 => some .vmax
    | 6 => some .vabs
    | 7 => some .vneg
    | _ => none
  | 0x51 =>
    match fn with
    | 0 => some .vmul
    | 1 => some .vmulh
    | 2 => some .vmad
    | 3 => some .vdp4
    | _ => none
  | 0x52 =>
    match fn with
    | 0 => some .vand
    | 1 => some .vor
    | 2 => some .vxor
    | 3 => some .vandn
    | 4 => some .vnot
    | _ => none
  | 0x53 =>
    match fn with
    | 0 => some .vshl
    | 1 => some .vshr
    | 2 => some .vrotl
    | 3 => some .vrotr
    | _ => none
  | 0x54 =>
    match fn with
    | 0 => some .vclz
    | 1 => some .vctz
    | 2 => some .vpopc
    | _ => none
  | 0x55 =>
    match fn with
    | 0 => some .vcmpEq
    | 1 => some .vcmpNe
    | 2 => some .vcmpLt
    | 3 => some .vcmpLe
    | 4 => some .vcmpGt
    | 5 => some .vcmpGe
    | 6 => some .vcmpTst
    | 7 => some .vcmpNtst
    | _ => none
  | 0x56 =>
    match fn with
    | 0 => some .vmov
    | 1 => some .vsel
    | 2 => some .vbcast
    | 3 => some .vins
    | 4 => some .vext
    | 5 => some .vidx
    | _ => none
  | 0x57 =>
    match fn with
    | 0 => some .vperm
    | 1 => some .vshx
    | 2 => some .vrot
    | _ => none
  | 0x58 =>
    match fn with
    | 0 => some .vredAdd
    | 1 => some .vredMin
    | 2 => some .vredMax
    | _ => none
  | 0x5C =>
    match fn with
    | 0 => some .vtrit
    | 1 => some .vtrit
    | 2 => some .vtrit
    | 3 => some .vtrit
    | 4 => some .vtrit
    | 8 => some .vtacc
    | _ => none
  | 0x80 =>
    match fn with
    | 0 => some .vfadd
    | 1 => some .vfsub
    | 2 => some .vfmul
    | 3 => some .vfma
    | 4 => some .vfnma
    | 5 => some .vfdiv
    | 6 => some .vfsqrt
    | _ => none
  | 0x81 =>
    match fn with
    | 0 => some .vfadd
    | 1 => some .vfsub
    | 2 => some .vfmul
    | 3 => some .vfma
    | 4 => some .vfnma
    | 5 => some .vfdiv
    | 6 => some .vfsqrt
    | _ => none
  | 0x82 =>
    match fn with
    | 0 => some .vfadd
    | 1 => some .vfsub
    | 2 => some .vfmul
    | 3 => some .vfma
    | 4 => some .vfnma
    | 5 => some .vfdiv
    | 6 => some .vfsqrt
    | _ => none
  | 0x84 =>
    match fn with
    | 0 => some .vfmin
    | 1 => some .vfmax
    | 2 => some .vfabs
    | 3 => some .vfneg
    | _ => none
  | 0x85 =>
    match fn with
    | 0 => some .vfcmpEq
    | 1 => some .vfcmpNe
    | 2 => some .vfcmpLt
    | 3 => some .vfcmpLe
    | 4 => some .vfcmpGt
    | 5 => some .vfcmpGe
    | 6 => some .vfcmpUn
    | _ => none
  | 0x88 =>
    match fn with
    | 0 => some .vfredAdd
    | 1 => some .vfredMin
    | 2 => some .vfredMax
    | _ => none
  | 0x98 =>
    match fn with
    | 1 => some .vcvt
    | 2 => some .vcvt
    | 3 => some .vcvt
    | 4 => some .vcvt
    | 5 => some .vcvt
    | 6 => some .vcvt
    | 7 => some .vcvt
    | 8 => some .vcvt
    | 9 => some .vcvt
    | 10 => some .vcvt
    | 11 => some .vcvt
    | _ => none
  | 0x99 =>
    match fn with
    | 1 => some .vcvt
    | 2 => some .vcvt
    | 3 => some .vcvt
    | 4 => some .vcvt
    | 5 => some .vcvt
    | 6 => some .vcvt
    | 7 => some .vcvt
    | 8 => some .vcvt
    | 9 => some .vcvt
    | 10 => some .vcvt
    | 11 => some .vcvt
    | _ => none
  | 0x9A =>
    match fn with
    | 1 => some .vcvt
    | 2 => some .vcvt
    | 3 => some .vcvt
    | 4 => some .vcvt
    | 5 => some .vcvt
    | 6 => some .vcvt
    | 7 => some .vcvt
    | 8 => some .vcvt
    | 9 => some .vcvt
    | 10 => some .vcvt
    | 11 => some .vcvt
    | _ => none
  | 0x9C =>
    match fn with
    | 0 => some .vquant
    | 1 => some .vquant
    | 2 => some .vquant
    | 4 => some .vquantStart
    | 5 => some .vquantStart
    | 6 => some .vquantStart
    | _ => none
  | 0x9D =>
    match fn with
    | 0 => some .vdequantF32
    | 1 => some .vdequantBf16
    | _ => none
  | 0xF4 =>
    match fn with
    | 0 => some .sigGet
    | 1 => some .sigAdd
    | 2 => some .sigSet
    | _ => none
  | 0xF5 =>
    match fn with
    | 0 => some .sigAddR
    | _ => none
  | _ => none

/-- Imm-class entries (R146–R148): the opcode alone selects. -/
def immOf (op : Nat) : Option (ImmW → Instr) :=
  match op with
  | 0x20 => some .addi
  | 0x21 => some .andi
  | 0x22 => some .ori
  | 0x23 => some .xori
  | 0x24 => some .shli
  | 0x25 => some .shri
  | 0x26 => some .srai
  | 0x27 => some .movi
  | 0x28 => some .movhi
  | 0x29 => some .muli
  | 0x30 => some .lea
  | 0x31 => some .leax
  | 0x32 => some .lpc
  | _ => none

/-- Mem-class entries (R214–R232). -/
def memOf (op fn : Nat) : Option (MemW → Instr) :=
  match op with
  | 0xB0 =>
    match fn with
    | 0 => some .ld
    | 1 => some .ld
    | 2 => some .ld
    | 3 => some .ld
    | 4 => some .ld
    | 5 => some .ld
    | 6 => some .ld
    | 8 => some .ld
    | 9 => some .ld
    | 10 => some .ld
    | 11 => some .ld
    | 12 => some .ld
    | 13 => some .ld
    | 14 => some .ld
    | _ => none
  | 0xB1 =>
    match fn with
    | 0 => some .st
    | 1 => some .st
    | 2 => some .st
    | 3 => some .st
    | 8 => some .st
    | 9 => some .st
    | 10 => some .st
    | 11 => some .st
    | _ => none
  | 0xB2 =>
    match fn with
    | 0 => some .vld
    | 1 => some .vld
    | 2 => some .vld
    | 8 => some .vld
    | 9 => some .vld
    | 10 => some .vld
    | _ => none
  | 0xB3 =>
    match fn with
    | 0 => some .vst
    | 1 => some .vst
    | 2 => some .vst
    | 8 => some .vst
    | 9 => some .vst
    | 10 => some .vst
    | _ => none
  | 0xB4 =>
    match fn with
    | 0 => some .ldwF
    | 1 => some .ldwFe
    | 2 => some .vldwF
    | 3 => some .vldwFe
    | 8 => some .ldwF
    | 9 => some .ldwFe
    | 10 => some .vldwF
    | 11 => some .vldwFe
    | _ => none
  | 0xB5 =>
    match fn with
    | 0 => some .stwEf
    | 1 => some .stwF
    | 2 => some .vstwEf
    | 3 => some .vstwF
    | 8 => some .stwEf
    | 9 => some .stwF
    | 10 => some .vstwEf
    | 11 => some .vstwF
    | _ => none
  | 0xC0 =>
    match fn with
    | 0 => some .qdrop
    | 1 => some .qlen
    | _ => none
  | 0xC1 =>
    match fn with
    | 0 => some .qwait
    | _ => none
  | 0xC4 =>
    match fn with
    | 0 => some .fetch
    | 1 => some .fetchF
    | 2 => some .fetchFe
    | 8 => some .fetch
    | 9 => some .fetchF
    | 10 => some .fetchFe
    | _ => none
  | 0xC5 =>
    match fn with
    | 0 => some .drain
    | 1 => some .drainEf
    | 2 => some .drainF
    | 8 => some .drain
    | 9 => some .drainEf
    | 10 => some .drainF
    | _ => none
  | 0xC6 =>
    match fn with
    | 0 => some .pref
    | _ => none
  | 0xD0 =>
    match fn with
    | 0 => some .amoAdd
    | 1 => some .amoAnd
    | 2 => some .amoOr
    | 3 => some .amoXor
    | 4 => some .amoMinS
    | 5 => some .amoMaxS
    | 6 => some .amoMinN
    | 7 => some .amoMaxN
    | 8 => some .amoSwap
    | 9 => some .amoCas
    | _ => none
  | 0xD1 =>
    match fn with
    | 0 => some .amoAdd
    | 1 => some .amoAnd
    | 2 => some .amoOr
    | 3 => some .amoXor
    | 4 => some .amoMinS
    | 5 => some .amoMaxS
    | 6 => some .amoMinN
    | 7 => some .amoMaxN
    | 8 => some .amoSwap
    | 9 => some .amoCas
    | _ => none
  | 0xD2 =>
    match fn with
    | 0 => some .amoFadd
    | 1 => some .amoFmin
    | 2 => some .amoFmax
    | _ => none
  | 0xD3 =>
    match fn with
    | 0 => some .amoFadd
    | 1 => some .amoFmin
    | 2 => some .amoFmax
    | _ => none
  | 0xD4 =>
    match fn with
    | 0 => some .amoAdd
    | 1 => some .amoAnd
    | 2 => some .amoOr
    | 3 => some .amoXor
    | 4 => some .amoMinS
    | 5 => some .amoMaxS
    | 6 => some .amoMinN
    | 7 => some .amoMaxN
    | 8 => some .amoSwap
    | 9 => some .amoCas
    | _ => none
  | 0xD5 =>
    match fn with
    | 0 => some .amoAdd
    | 1 => some .amoAnd
    | 2 => some .amoOr
    | 3 => some .amoXor
    | 4 => some .amoMinS
    | 5 => some .amoMaxS
    | 6 => some .amoMinN
    | 7 => some .amoMaxN
    | 8 => some .amoSwap
    | 9 => some .amoCas
    | _ => none
  | 0xD6 =>
    match fn with
    | 0 => some .amoFadd
    | 1 => some .amoFmin
    | 2 => some .amoFmax
    | _ => none
  | 0xD7 =>
    match fn with
    | 0 => some .amoFadd
    | 1 => some .amoFmin
    | 2 => some .amoFmax
    | _ => none
  | 0xE0 =>
    match fn with
    | 0 => some .fence
    | 1 => some .fenceRel
    | 2 => some .fenceAcq
    | _ => none
  | 0xE1 =>
    match fn with
    | 0 => some .rel
    | 1 => some .rel
    | _ => none
  | 0xE2 =>
    match fn with
    | 0 => some .acq
    | 1 => some .acq
    | _ => none
  | 0xE3 =>
    match fn with
    | 0 => some .acqP
    | 1 => some .acqP
    | _ => none
  | 0xE4 =>
    match fn with
    | 0 => some .barSync
    | 1 => some .barArr
    | 2 => some .barWt
    | _ => none
  | 0xE5 =>
    match fn with
    | 0 => some .feEmpty
    | 1 => some .feFull
    | 2 => some .feGet
    | 8 => some .feEmpty
    | 9 => some .feFull
    | 10 => some .feGet
    | _ => none
  | _ => none

/-- Br-class entries (R149): CC selects under OP 0x40, FN 1. -/
def brOf (op fn cc : Nat) : Option (BrW → Instr) :=
  match op with
  | 0x40 =>
    match fn with
    | 0 => some .b
    | 1 =>
      match cc with
      | 0 => some .beq
      | 1 => some .bne
      | 2 => some .blt
      | 3 => some .ble
      | 4 => some .bgt
      | 5 => some .bge
      | _ => none
    | _ => none
  | 0x41 =>
    match fn with
    | 0 => some .bp
    | 1 => some .bnp
    | _ => none
  | 0x42 =>
    match fn with
    | 0 => some .call
    | _ => none
  | 0x43 =>
    match fn with
    | 0 => some .jr
    | 1 => some .callr
    | _ => none
  | 0x44 =>
    match fn with
    | 0 => some .loop
    | _ => none
  | _ => none

/-- Wt-class entries (R152, R156). -/
def wtOf (op fn : Nat) : Option (WtW → Instr) :=
  match op with
  | 0x48 =>
    match fn with
    | 0 => some .waitSig
    | 1 => some .waitTile
    | 2 => some .waitQ
    | 3 => some .waitMer
    | 4 => some .yield
    | _ => none
  | 0x49 =>
    match fn with
    | 0 => some .exit
    | _ => none
  | _ => none

/-- Eng-class entries (R236). -/
def engOf (op fn : Nat) : Option (EngW → Instr) :=
  match op, fn with
  | 0xF0, 0 => some .enq
  | 0xF0, 1 => some .qclr
  | _, _ => none

/-- Sys-class entries (R158, R161, R167, R170). -/
def sysOf (op fn : Nat) : Option (SysW → Instr) :=
  match op with
  | 0x01 =>
    match fn with
    | 0 => some .crr
    | 1 => some .crw
    | 2 => some .crs
    | 3 => some .crc
    | 4 => some .crwi
    | _ => none
  | 0x02 =>
    match fn with
    | 0 => some .trap
    | 1 => some .brk
    | _ => none
  | 0x03 =>
    match fn with
    | 0 => some .tret
    | _ => none
  | 0x04 =>
    match fn with
    | 0 => some .ctrr
    | _ => none
  | _ => none

/-- The entry that the opcode and the minor fields of a word select, with the word's fields; none where no entry
assigns them (reason 0x05). -/
def selectWord (w : Word) : Option Instr :=
  let op := (opOfWord w).toNat
  let fn := (w.extractLsb' 0 4).toNat
  match classOf op with
  | some .reg => if op = 0 then some (.nop (RegW.ofWord w)) else (regOf op fn).map fun k => k (RegW.ofWord w)
  | some .imm => (immOf op).map fun k => k (ImmW.ofWord w)
  | some .mem => (memOf op fn).map fun k => k (MemW.ofWord w)
  | some .br => (brOf op (w.extractLsb' 24 4).toNat (w.extractLsb' 28 4).toNat).map fun k => k (BrW.ofWord w)
  | some .wt => (wtOf op (w.extractLsb' 36 4).toNat).map fun k => k (WtW.ofWord w)
  | some .eng => (engOf op fn).map fun k => k (EngW.ofWord w)
  | some .sys => (sysOf op fn).map fun k => k (SysW.ofWord w)
  | none => none

/-- The decoder of strands (`acc` false) and of the access stream (`acc` true): the instruction, or the lowest
reason code of R88 that applies. -/
def decodeWord (acc : Bool) (w : Word) : Except (BitVec 8) Instr :=
  if w.getLsbD 63 then .error (if w.getLsbD 62 then 1 else 2)
  else if (classOf (opOfWord w).toNat).isNone then .error 3
  else if streamBad acc (opOfWord w).toNat (Mods.ofWord w) then .error 4
  else
    match selectWord w with
    | none => .error 5
    | some i =>
      match i.reason acc with
      | none => .ok i
      | some n => .error (BitVec.ofNat 8 n)

/-- The constructor of a command code (R94); none where the code is reserved. -/
def cmdOf (code : Nat) : Option (Cmd → Instr) :=
  match code with
  | 0x00 => some .cmdNop
  | 0x01 => some .cpLd
  | 0x02 => some .cpSt
  | 0x03 => some .cpMv
  | 0x04 => some .cpZero
  | 0x05 => some .cpRenc
  | 0x06 => some .cpRed
  | 0x20 => some .mm
  | 0x21 => some .mmG
  | 0x40 => some .clAred
  | 0x41 => some .clRsc
  | 0x42 => some .clAgat
  | 0x48 => some .clPut
  | 0x49 => some .clPutq
  | 0xF0 => some .notify
  | 0xF1 => some .qfence
  | 0xF2 => some .chain
  | 0xF3 => some .sealRange
  | _ => none

/-- The fields of a command from its four possible words; words beyond LEN are no part of it (R90). -/
def Cmd.ofWords (w0 w1 w2 w3 : Word) : Cmd :=
  let len := w0.extractLsb' 38 2
  ⟨w0.extractLsb' 56 8, w0.extractLsb' 48 8, w0.extractLsb' 40 8, len, w0.extractLsb' 0 38,
    if len.toNat ≥ 1 then w1 else 0, if len.toNat ≥ 2 then w2 else 0, if len.toNat ≥ 3 then w3 else 0⟩

/-- The command a queue entry holds, by its code (R94); none for a reserved code. -/
def decodeCmd (c : Cmd) : Option Instr := (cmdOf c.cmd.toNat).map fun k => k c

/-- The instruction that the decoder of a strand reads from a word given as a number, bit 0 of the number being bit
0 of the word; where the strand's decoder refuses it, what the access stream's reads (R81). -/
def decodeTableWord (_nbits w : Nat) : Option Instr :=
  match decodeWord false (BitVec.ofNat 64 w) with
  | .ok i => some i
  | .error _ =>
    match decodeWord true (BitVec.ofNat 64 w) with
    | .ok i => some i
    | .error _ => none

/-! The encoder. -/

/-- Bits 63:56 of a word (R69). -/
def Mods.bits (m : Mods) : BitVec 8 :=
  BitVec.ofBool false ++ (BitVec.ofBool m.ver ++ (BitVec.ofBool m.sync ++ (m.stall ++ BitVec.ofBool m.old)))

def RegW.toWord (r : RegW) : Word :=
  r.mods.bits ++ (r.op ++ (r.d ++ (r.a ++ (r.b ++ (r.c ++ (r.pred ++ (BitVec.ofBool r.pn ++
    (r.ty ++ (r.fdn ++ r.fn)))))))))

def ImmW.toWord (r : ImmW) : Word := r.mods.bits ++ (r.op ++ (r.d ++ (r.a ++ r.imm)))

def MemW.toWord (r : MemW) : Word :=
  r.mods.bits ++ (r.op ++ (r.d ++ (r.base ++ (r.space ++ (r.scope ++ (r.off ++ (r.pred ++
    (BitVec.ofBool r.pn ++ r.fn))))))))

def BrW.toWord (r : BrW) : Word := r.mods.bits ++ (r.op ++ (r.link ++ (r.a ++ (r.cc ++ (r.fn ++ r.disp)))))

def WtW.toWord (r : WtW) : Word := r.mods.bits ++ (r.op ++ (r.a ++ (r.fn ++ r.arg)))

def EngW.toWord (r : EngW) : Word := r.mods.bits ++ (r.op ++ (r.a ++ (r.q ++ (r.rsv ++ r.fn))))

def SysW.toWord (r : SysW) : Word := r.mods.bits ++ (r.op ++ (r.d ++ (r.a ++ (r.cr ++ (r.imm ++ r.fn)))))

/-- The words of a command, LEN + 1 of them (R90). -/
def Cmd.words (c : Cmd) : List Word :=
  let w0 : Word := c.wait ++ (c.signal ++ (c.cmd ++ (c.len ++ c.body)))
  [w0, c.w1, c.w2, c.w3].take (c.len.toNat + 1)

/-- The word of an instruction term; commands and events have none. -/
def encodeWord? (i : Instr) : Option Word :=
  match i.regForm with
  | some (r, _) => some r.toWord
  | none =>
    match i.memForm with
    | some (r, _) => some r.toWord
    | none =>
      match i.brForm with
      | some (r, _) => some r.toWord
      | none =>
        match i with
        | .addi r | .andi r | .ori r | .xori r | .shli r | .shri r | .srai r | .movi r | .movhi r | .muli r
        | .lea r | .leax r | .lpc r => some r.toWord
        | .waitSig r | .waitTile r | .waitQ r | .waitMer r | .yield r | .exit r => some r.toWord
        | .enq r | .qclr r => some r.toWord
        | .crr r | .crw r | .crs r | .crc r | .crwi r | .trap r | .brk r | .tret r | .ctrr r => some r.toWord
        | _ => none

/-- The words of an instruction or a command; an event has no encoding. -/
def encode (i : Instr) : List Word :=
  match encodeWord? i with
  | some w => [w]
  | none =>
    match i.cmdForm with
    | some (c, _, _) => c.words
    | none => []

end Sys2Proof
end

