-- ==== Sys2Proof/Config.lean ====
section
/-! DEFINITION. What the spec leaves to the implementation or to the outside, as constants without a body: nothing in
Lean can evaluate them or prove a value of them. Log entries 2, 5 and 10 say where each is used. -/

namespace Sys2Proof.Config

/-- Whether an occurrence whose time is not fixed waits for a later cycle; applied to the counter of free values. -/
opaque freeHold : Nat → Bool

/-- A free choice between two outcomes that a rule lists (R14). -/
opaque freeBit : Nat → Bool

/-- Whether the firmware image passes the boot ROM's checks (R477). -/
opaque imageAccepted : List Byte → Bool

/-- The security version of a firmware image (R478). -/
opaque imageVersion : List Byte → Nat

/-- The enable map that a firmware image fixes (R477, R18). -/
opaque enableMap : List Byte → BitVec 608

/-- The digest of the device identity public key (R489). -/
opaque identityDigest : List Byte

/-- The ML-DSA-65 signature over an attestation's answer (R489). -/
opaque signature : List Byte → List Byte

/-- The digest of a collective's descriptor and rank table that its ranks exchange (R266). -/
opaque collectiveDigest : List Byte → Nat

/-- The number of bytes of a firmware digest in an attestation's answer (R489). -/
opaque digestLength : Nat

/-- Shared slots of an M-die's ordered-atomic buffer (R442). -/
opaque redSlots : Nat

/-- The set of a slice group in which a peer's line is held (R303), by peer and line. -/
opaque peerSet : Nat → Nat → Nat

/-- The most gang banks that a core grants while Binnacle throttles (R491). -/
opaque bankCap : Nat

/-- The measured delay of a port's link, in ticks (R436). -/
opaque linkDelay : Nat → Nat

/-- The event-log source and data of an event (R488), by its code and what it concerns. -/
opaque eventSource : Nat → Nat → Nat
opaque eventData : Nat → Nat → Nat

end Sys2Proof.Config
end

