-- ==== Sys2Proof/Machine/Bits.lean ====
section
/-! DEFINITION. Bit fields of numbers, two's complement, elements of little-endian strings, masks, FLAGS bits. -/

namespace Sys2Proof.Machine

open Sys2Proof

/-- Bits lo + n − 1 : lo of a number (R6). -/
def bits (x lo n : Nat) : Nat := (x >>> lo) % 2 ^ n

/-- Bit i of a number. -/
def bit (x i : Nat) : Bool := x.testBit i

/-- The two's-complement value of the low w bits (R105). -/
def toSigned (w x : Nat) : Int :=
  let y := x % 2 ^ w
  if y < 2 ^ (w - 1) then (y : Int) else (y : Int) - (2 : Int) ^ w

/-- The w-bit two's-complement pattern of an integer (R105). -/
def ofSigned (w : Nat) (i : Int) : Nat := (i % (2 : Int) ^ w).toNat

/-- A value read from the low w bits, signed or unsigned (R138). -/
def readAs (sgn : Bool) (w x : Nat) : Int := if sgn then toSigned w x else ((x % 2 ^ w : Nat) : Int)

/-- The low w bits extended to 64, by sign or by zero (R138). -/
def extend (sgn : Bool) (w x : Nat) : Nat := if sgn then ofSigned 64 (toSigned w x) else x % 2 ^ w

/-- Sign extension of a w-bit field to 64 bits. -/
def sxt (w x : Nat) : Nat := ofSigned 64 (toSigned w x)

/-- Bits 55:0 with bit 55 repeated above (R147). -/
def canon (x : Nat) : Nat := extend true 56 x

/-- Whether bits 63:56 equal bit 55 (R201). -/
def isCanon (x : Nat) : Bool := canon x = x

/-- Element i of width w bytes of a little-endian string. -/
def elem (w x i : Nat) : Nat := bits x (8 * w * i) (8 * w)

/-- The first n elements of width w bytes. -/
def elems (w n x : Nat) : List Nat := (List.range n).map (elem w x)

/-- The string of elements of width w bytes, element 0 lowest. -/
def ofElems (w : Nat) (l : List Nat) : Nat :=
  l.foldr (fun e acc => (acc <<< (8 * w)) ||| (e % 2 ^ (8 * w))) 0

/-- n ones. -/
def ones (n : Nat) : Nat := 2 ^ n - 1

/-- The byte mask with bits w·i … w·i + w − 1 set for each element i that is enabled. -/
def elemMask (w : Nat) (en : List Bool) : Nat :=
  en.foldr (fun b acc => (acc <<< w) ||| (if b then ones w else 0)) 0

/-- The bytes of a number of n bytes, lowest first. -/
def toBytes (n x : Nat) : List Byte := (List.range n).map fun i => BitVec.ofNat 8 (x >>> (8 * i))

/-- The number a byte list spells, lowest first (R7). -/
def ofBytes (l : List Byte) : Nat := l.foldr (fun b acc => (acc <<< 8) ||| b.toNat) 0

/-- Number of 1 bits among the low n. -/
def popcount (n x : Nat) : Nat := ((List.range n).filter (bit x)).length

def ceilDiv (a b : Nat) : Nat := (a + b - 1) / b

/-- FLAGS bits (R49). -/
def fNV : Nat := 1
def fDZ : Nat := 2
def fOF : Nat := 4
def fUF : Nat := 8
def fNX : Nat := 16
def fSAT : Nat := 32
def fRSC : Nat := 64
def fISAT : Nat := 128
def fSIGOV : Nat := 256
def fBNAN : Nat := 512

end Sys2Proof.Machine
end

