-- ==== Sys2Proof/Machine/Numbers.lean ====
section
/-! DEFINITION. Number formats, rounding and the order of sums (chapter 03): standard formats, format descriptors and
narrow formats, the rounding of exact values, block quantisation, and the K-step sum of the matrix engine. An exact
value is a sign, a magnitude and a binary exponent; a quotient or root that has no such form carries more than 70
bits with a last bit that is 1 when something was cut off, which rounding cannot tell from the exact value. -/

namespace Sys2Proof.Machine

open Sys2Proof

/-- An exact value: a NaN (signalling or quiet), an infinity, or ±m·2^e (R107, R108). -/
inductive Val where
  | nan (sig : Bool)
  | inf (neg : Bool)
  | fin (neg : Bool) (m : Nat) (e : Int)
  deriving DecidableEq, Repr

/-- A standard format: width, exponent bits, mantissa bits, bias (R107). -/
structure Fmt where
  w : Nat
  eb : Nat
  mb : Nat
  bias : Nat
  deriving DecidableEq, Repr

def fmtF32 : Fmt := ⟨32, 8, 23, 127⟩
def fmtBf16 : Fmt := ⟨16, 8, 7, 127⟩
def fmtF16 : Fmt := ⟨16, 5, 10, 15⟩

/-- The standard format of a TYPE code (R85). -/
def fmtOfType (ty : Nat) : Fmt := if ty = 0x9 then fmtF32 else if ty = 0xA then fmtBf16 else fmtF16

/-- The standard format of a descriptor KIND (R111). -/
def fmtOfKind (kind : Nat) : Fmt := if kind = 2 then fmtF32 else if kind = 3 then fmtBf16 else fmtF16

/-- Exponent of the smallest normal value. -/
def Fmt.emin (f : Fmt) : Int := 1 - (f.bias : Int)

/-- The canonical quiet NaN (R107). -/
def Fmt.qnan (f : Fmt) : Nat := (ones f.eb <<< f.mb) ||| 2 ^ (f.mb - 1)

def Fmt.infCode (f : Fmt) (neg : Bool) : Nat :=
  (if neg then 2 ^ (f.w - 1) else 0) ||| (ones f.eb <<< f.mb)

/-- The largest finite magnitude's code. -/
def Fmt.maxCode (f : Fmt) : Nat := (ones f.eb <<< f.mb) - 1

/-- The value of a code of a standard format (R107, R108). -/
def Fmt.value (f : Fmt) (c : Nat) : Val :=
  let s := bit c (f.w - 1)
  let e := bits c f.mb f.eb
  let m := bits c 0 f.mb
  if e = ones f.eb then
    if m = 0 then .inf s else .nan (!bit m (f.mb - 1))
  else if e = 0 then .fin s m (f.emin - f.mb)
  else .fin s (2 ^ f.mb + m) ((e : Int) - f.bias - f.mb)

def Val.isNan : Val → Bool
  | .nan _ => true
  | _ => false

def Val.isSnan : Val → Bool
  | .nan s => s
  | _ => false

def Val.isZero : Val → Bool
  | .fin _ m _ => m = 0
  | _ => false

def Val.neg : Val → Val
  | .nan s => .nan s
  | .inf n => .inf (!n)
  | .fin n m e => .fin (!n) m e

def Val.isNeg : Val → Bool
  | .nan _ => false
  | .inf n => n
  | .fin n _ _ => n

/-- An integer as an exact value. -/
def Val.ofInt (i : Int) : Val := .fin (i < 0) i.natAbs 0

/-- Multiplication of an exact value by 2^k. -/
def Val.scale (k : Int) : Val → Val
  | .fin n m e => .fin n m (e + k)
  | v => v

/-- ±m as an integer. -/
def signed (neg : Bool) (m : Nat) : Int := if neg then -(m : Int) else (m : Int)

/-- The magnitude m·2^(e − u) for u ≤ e. -/
def shl (m : Nat) (k : Int) : Nat := m <<< k.toNat

/-- Sum of exact values; an exact zero sum of opposite signs is +0 (R109); ∞ − ∞ is an invalid operation (R108). -/
def Val.add : Val → Val → Val
  | .nan a, .nan b => .nan (a || b)
  | .nan a, _ => .nan a
  | _, .nan b => .nan b
  | .inf a, .inf b => if a = b then .inf a else .nan false
  | .inf a, _ => .inf a
  | _, .inf b => .inf b
  | .fin n1 m1 e1, .fin n2 m2 e2 =>
    if m1 = 0 then (if m2 = 0 then .fin (n1 && n2) 0 0 else .fin n2 m2 e2)
    else if m2 = 0 then .fin n1 m1 e1
    else
      let u := min e1 e2
      let i := signed n1 (shl m1 (e1 - u)) + signed n2 (shl m2 (e2 - u))
      .fin (i < 0) i.natAbs u

/-- Product of exact values; 0 × ∞ is a NaN (R108). -/
def Val.mul : Val → Val → Val
  | .nan a, .nan b => .nan (a || b)
  | .nan a, _ => .nan a
  | _, .nan b => .nan b
  | .inf a, .inf b => .inf (a != b)
  | .inf a, .fin n m _ => if m = 0 then .nan false else .inf (a != n)
  | .fin n m _, .inf b => if m = 0 then .nan false else .inf (n != b)
  | .fin n1 m1 e1, .fin n2 m2 e2 => .fin (n1 != n2) (m1 * m2) (e1 + e2)

/-- floor(log2 m·2^e) for m ≠ 0. -/
def log2v (m : Nat) (e : Int) : Int := (Nat.log2 m : Int) + e

/-- Comparison of m1·2^e1 with m2·2^e2. -/
def magCmp (m1 : Nat) (e1 : Int) (m2 : Nat) (e2 : Int) : Ordering :=
  let u := min e1 e2
  compare (shl m1 (e1 - u)) (shl m2 (e2 - u))

/-- Comparison of two values that are not NaN; zeros are equal (R192). -/
def Val.cmp : Val → Val → Ordering
  | .inf a, .inf b => if a = b then .eq else if a then .lt else .gt
  | .inf a, _ => if a then .lt else .gt
  | _, .inf b => if b then .gt else .lt
  | .fin n1 m1 e1, .fin n2 m2 e2 =>
    let u := min e1 e2
    compare (signed n1 (shl m1 (e1 - u))) (signed n2 (shl m2 (e2 - u)))
  | _, _ => .eq

/-! ## Rounding -/

/-- The rounding modes; the stochastic mode carries its draw (R119, R120). -/
inductive Mode where
  | rne
  | rtz
  | sto (draw : Nat)
  deriving DecidableEq, Repr

/-- Rounds ±m·2^e to a multiple of 2^u: the magnitude in units of 2^u, and whether it is exact (R119, R120). A tie goes to
the even multiple of the spacing at the value itself; with MAN = 0 the larger candidate may not be an even multiple of its
own spacing, and it is still the one taken (log entry 83). -/
def roundUnit (mode : Mode) (neg : Bool) (m : Nat) (e u : Int) : Nat × Bool :=
  if u ≤ e then (shl m (e - u), true)
  else
    let d := (u - e).toNat
    let q := m >>> d
    let r := m % 2 ^ d
    if r = 0 then (q, true)
    else
      let up :=
        match mode with
        | .rne => decide (2 ^ d < 2 * r) || (2 * r = 2 ^ d && q % 2 = 1)
        | .rtz => false
        | .sto dr =>
          if neg then
            -- lo is the candidate of larger magnitude; (y − lo)/(hi − lo) = 1 − r/2^d
            let f := 2 ^ 32 - ceilDiv (r <<< 32) (2 ^ d)
            decide (f < dr)
          else decide (dr ≤ (r <<< 32) >>> d)
      (if up then q + 1 else q, false)

/-- The exponent of the grid's spacing at a non-zero value (R119). -/
def ulpExp (emin : Int) (mbits : Nat) (m : Nat) (e : Int) : Int := max (log2v m e) emin - mbits

/-- `RoundStd(y, F, mode)` (R110) with the flags it sets; a NaN gives the canonical quiet NaN (R108). -/
def roundStd (f : Fmt) (mode : Mode) : Val → Nat × Nat
  | .nan _ => (f.qnan, 0)
  | .inf n => (f.infCode n, 0)
  | .fin n m e =>
    let sb := if n then 2 ^ (f.w - 1) else 0
    if m = 0 then (sb, 0)
    else
      let u := ulpExp f.emin f.mb m e
      let (q, exact) := roundUnit mode n m e u
      let tiny := decide (log2v m e < f.emin)
      let fl := (if exact then 0 else fNX) ||| (if tiny && !exact then fUF else 0)
      -- the code of q·2^u: at u = emin − mb the field runs from subnormals to normals without a break
      let base := (u - (f.emin - f.mb)).toNat
      let code := if q < 2 ^ f.mb then q else ((base + 1) <<< f.mb) + (q - 2 ^ f.mb)
      if code > f.maxCode then
        (match mode with
          | .rtz => sb ||| f.maxCode
          | _ => f.infCode n, fOF ||| fNX)
      else (sb ||| code, fl)

/-- `ToInt(y, type, mode)` (R130): the pattern and the flags. -/
def toInt (sgn : Bool) (w : Nat) (mode : Mode) : Val → Nat × Nat
  | .nan _ => (0, fNV)
  | .inf n =>
    ((if n then (if sgn then 2 ^ (w - 1) else 0) else (if sgn then ones (w - 1) else ones w)), fISAT)
  | .fin n m e =>
    let (q, exact) := roundUnit mode n m e 0
    let i := signed n q
    let lo : Int := if sgn then -(2 : Int) ^ (w - 1) else 0
    let hi : Int := if sgn then (2 : Int) ^ (w - 1) - 1 else (2 : Int) ^ w - 1
    if i < lo then (ofSigned w lo, fISAT)
    else if hi < i then (ofSigned w hi, fISAT)
    else (ofSigned w i, if exact then 0 else fNX)

/-- `SatInt(x, type)` (R106). -/
def satInt (sgn : Bool) (w : Nat) (i : Int) : Nat × Nat :=
  let lo : Int := if sgn then -(2 : Int) ^ (w - 1) else 0
  let hi : Int := if sgn then (2 : Int) ^ (w - 1) - 1 else (2 : Int) ^ w - 1
  if i < lo then (ofSigned w lo, fISAT) else if hi < i then (ofSigned w hi, fISAT) else (ofSigned w i, 0)

/-- `LfsrNext` (R121). -/
def lfsrNext (x : Nat) : Nat := if x % 2 = 1 then (x >>> 1) ^^^ 0x80200003 else x >>> 1

/-- n draws, each the state after one step, and the state left (R120, R122). -/
def lfsrDraws : Nat → Nat → List Nat × Nat
  | 0, x => ([], x)
  | n + 1, x =>
    let y := lfsrNext x
    let (l, z) := lfsrDraws n y
    (y :: l, z)

def lfsrSteps : Nat → Nat → Nat
  | 0, x => x
  | n + 1, x => lfsrSteps n (lfsrNext x)

/-- The start state of a command's LFSR (R247), and the last part of `Seed32` (R124). -/
def lfsrSeeded (x : Nat) : Nat := lfsrSteps 32 (if x % 2 ^ 32 = 0 then 1 else x % 2 ^ 32)

def rotl32 (x n : Nat) : Nat := ((x % 2 ^ 32) <<< n ||| (x % 2 ^ 32) >>> (32 - n)) % 2 ^ 32

/-- `Seed32` (R124). -/
def seed32 (seed wid task : Nat) : Nat :=
  lfsrSeeded (seed % 2 ^ 32 ^^^ wid % 2 ^ 32 ^^^ rotl32 (wid >>> 32) 16 ^^^ (task * 0x9E3779B9) % 2 ^ 32)

/-! ## Format descriptors -/

/-- The fields of a descriptor (R111). -/
structure Fd where
  kind : Nat
  sgn  : Bool
  ex   : Nat
  man  : Nat
  bias : Int
  bs   : Nat
  rl   : Nat
  xv   : Nat
  rest : Nat
  deriving DecidableEq, Repr

def fdOf (v : Nat) : Fd :=
  ⟨bits v 0 4, bit v 4, bits v 5 3, bits v 8 3, toSigned 8 (bits v 12 8), bits v 20 2, bits v 22 2, bits v 32 16,
    bits v 11 1 + bits v 24 8 + bits v 48 16⟩

/-- Width of a narrow code (R112). -/
def Fd.w (d : Fd) : Nat := (if d.sgn then 1 else 0) + d.ex + d.man

/-- Elements of a block; 0 when unscaled (R111). -/
def Fd.block (d : Fd) : Nat := if d.bs = 0 then 0 else 8 <<< d.bs

/-- The reserved descriptor bits 11, 31:24 and 63:48 (R111). -/
def fdReserved : Nat := 2 ^ 11 ||| (0xFF <<< 24) ||| (0xFFFF <<< 48)

/-- A valid descriptor that is not null (R112, R53). -/
def fdUsable (v : Nat) : Bool :=
  let d := fdOf v
  d.rest = 0 &&
  (if d.kind = 1 then
    1 ≤ d.w && d.w ≤ 8 && 1 ≤ d.ex + d.man && bits d.xv 7 8 ≠ 255 && (d.sgn || d.xv = 0)
  else 2 ≤ d.kind && d.kind ≤ 6 && v = d.kind)

/-- The value of the BF16 encoding. -/
def bf16Value (h : Nat) : Val := fmtBf16.value h

/-- `NarrowValue(c, fd)` (R113–R115). -/
def Fd.value (d : Fd) (c : Nat) : Val :=
  let m := bits c 0 d.man
  let e := bits c d.man d.ex
  let s := d.sgn && bit c (d.w - 1)
  if s && m = 0 && e = 0 then bf16Value d.xv
  else if d.ex = 0 then .fin s m (-d.bias)
  else if e = 0 then .fin s m (1 - d.bias - d.man)
  else .fin s (2 ^ d.man + m) ((e : Int) - d.bias - d.man)

/-- VMAX(fd) as magnitude and exponent (R116). -/
def Fd.vmax (d : Fd) : Nat × Int :=
  match d.value (ones (d.ex + d.man)) with
  | .fin _ m e => (m, e)
  | _ => (0, 0)

/-- EMAX(fd) (R116). -/
def Fd.emax (d : Fd) : Int := log2v d.vmax.1 d.vmax.2

/-- Rounding to a narrow grid: magnitude, exponent and whether it is exact (R119). -/
def Fd.round (d : Fd) (mode : Mode) (neg : Bool) (m : Nat) (e : Int) : Nat × Int × Bool :=
  if m = 0 then (0, 0, true)
  else
    let u := if d.ex = 0 then -d.bias else ulpExp (1 - d.bias) d.man m e
    let (q, ok) := roundUnit mode neg m e u
    (q, u, ok)

/-- `Encode(g, fd)` of ±m·2^e on the grid and within VMAX (R128, R115). -/
def Fd.encode (d : Fd) (neg : Bool) (m : Nat) (e : Int) : Nat :=
  if m = 0 then 0
  else
    let sb := if neg && d.sgn then 2 ^ (d.w - 1) else 0
    if d.ex = 0 then sb ||| (if 0 ≤ e + d.bias then shl m (e + d.bias) else m >>> (-(e + d.bias)).toNat)
    else
      let sub : Int := 1 - d.bias - d.man
      let l := log2v m e
      if l < 1 - d.bias then sb ||| (if sub ≤ e then shl m (e - sub) else m >>> (sub - e).toNat)
      else
        let u := l - d.man
        let q := if u ≤ e then shl m (e - u) else m >>> (u - e).toNat
        sb ||| (((l + d.bias).toNat) <<< d.man) ||| (q - 2 ^ d.man)

/-- Bits from the leading to the trailing 1 of a magnitude. -/
def sigBitsFuel : Nat → Nat → Nat
  | 0, m => if m = 0 then 0 else Nat.log2 m + 1
  | k + 1, m => if m = 0 then 0 else if m % 2 = 0 then sigBitsFuel k (m / 2) else Nat.log2 m + 1

/-- The significand width (R116). -/
def Fd.sigWidth (d : Fd) : Nat :=
  if d.kind = 3 then 8 else if d.kind = 5 then 8 else if d.kind = 4 then 11 else if d.kind = 6 then 16
  else
    let base := d.man + (if d.ex = 0 then 0 else 1)
    if d.sgn && d.xv ≠ 0 then
      match bf16Value d.xv with
      | .fin _ m _ => max base (sigBitsFuel 8 m)
      | _ => base
    else base

/-- Cells per MAC of a pair of operands (R116). -/
def cellsPerMac (a b : Fd) : Nat :=
  let w := max a.sigWidth b.sigWidth
  if w ≤ 2 then 1 else if w ≤ 4 then 4 else if w ≤ 8 then 16 else 64

/-- Element width in bytes of a standard or integer kind. -/
def kindBytes (kind : Nat) : Nat := if kind = 2 then 4 else if kind = 5 then 1 else 2

/-- Packed bytes of a row of c elements (R117, R285): whole groups of 8 or whole blocks, a part group rounded up to
a byte. -/
def Fd.rowBytes (d : Fd) (c : Nat) : Nat :=
  if d.kind ≠ 1 then c * kindBytes d.kind
  else if d.bs = 0 then ceilDiv (c * d.w) 8
  else ceilDiv c d.block * (d.block * d.w / 8 + 1)

/-! ## Conversions -/

/-- What a conversion of one element did: its code, its value, and whether it was clamped (R372). -/
structure Conv where
  code : Nat
  q : Val
  clamped : Bool
  deriving DecidableEq, Repr

/-- One element at scale code s after rounding (R125, R126, R128), with its flags. An infinity that becomes the code of VMAX
sets SAT and not NX: R126 names SAT only (log entry 84). -/
def Fd.place (d : Fd) (x : Val) (s : Nat) (g : Nat × Int × Bool) : Conv × Nat :=
  match x with
  | .fin neg m _ =>
    let (gm, ge, ok) := g
    let (vm, ve) := d.vmax
    let below := !d.sgn && neg && gm ≠ 0
    let exceeds := magCmp gm ge vm ve = .gt
    let (fm, fe) := if below then (0, 0) else if exceeds then (vm, ve) else (gm, ge)
    let clamped := below || exceeds
    let fl := (if clamped then fSAT else 0) ||| (if clamped || !ok then fNX else 0)
      ||| (if m ≠ 0 && fm = 0 then fUF else 0)
    (⟨d.encode neg fm fe, .fin neg fm (fe + s - 127), clamped⟩, fl)
  | .inf neg =>
    let (vm, ve) := d.vmax
    if neg && !d.sgn then (⟨0, .fin false 0 0, true⟩, fSAT)
    else (⟨d.encode neg vm ve, .fin neg vm (ve + s - 127), true⟩, fSAT)
  | .nan _ => (⟨0, .fin false 0 0, false⟩, fNV)

/-- The rounded grid value of one finite element at a scale. -/
def Fd.gridAt (d : Fd) (s : Nat) (x : Val) (mode : Mode) : Nat × Int × Bool :=
  match x with
  | .fin n m e => d.round mode n m (e - ((s : Int) - 127))
  | _ => (0, 0, true)

/-- The result of a block: codes with what each did, the scale byte, flags, and raises of the scale. -/
structure BlockRes where
  elems : List Conv
  scale : Nat
  flags : Nat
  raises : Nat
  deriving DecidableEq, Repr

def orAll (l : List Nat) : Nat := l.foldl (· ||| ·) 0

/-- A block that holds a NaN or an infinity (R126). -/
def nanBlock (xs : List Val) : BlockRes :=
  ⟨xs.map fun _ => ⟨0, .nan false, false⟩, 0xFF,
    fBNAN ||| (if xs.any fun x => match x with | .nan s => s | .inf _ => true | _ => false then fNV else 0), 0⟩

/-- The draw of each element as a mode (R120); `none` for the modes without draws. -/
def modesOf (rtz : Bool) (draws : Option (List Nat)) (n : Nat) : List Mode :=
  match draws with
  | some l => l.map .sto
  | none => List.replicate n (if rtz then .rtz else .rne)

/-- The loop of R125, `left` raises still allowed. -/
def quantLoop (d : Fd) (xs : List Val) (modes : List Mode) : Nat → Nat → Nat → BlockRes
  | left, s, tries =>
    let gs := List.zipWith (fun x m => d.gridAt s x m) xs modes
    let exceeds := (List.zip xs gs).any fun (x, g) =>
      magCmp g.1 g.2.1 d.vmax.1 d.vmax.2 = .gt && (d.sgn || !x.isNeg)
    let done : BlockRes :=
      let cs := List.zipWith (fun x g => d.place x s g) xs gs
      ⟨cs.map (·.1), s, orAll (cs.map (·.2)) ||| (if tries = 0 then 0 else fRSC), tries⟩
    match left with
    | 0 => done
    | l + 1 => if !exceeds || s = 254 then done else quantLoop d xs modes l (s + 1) (tries + 1)

/-- `QuantiseBlock(x, fd, start, mode)` (R125); `start` none is AUTO. -/
def quantiseBlock (d : Fd) (xs : List Val) (start : Option Nat) (modes : List Mode) : BlockRes :=
  if xs.any fun x => match x with | .fin _ _ _ => false | _ => true then nanBlock xs
  else
    let s :=
      match start with
      | some s => s
      | none =>
        let logs := xs.filterMap fun x => match x with
          | .fin _ m e => if m = 0 then none else some (log2v m e)
          | _ => none
        match logs with
        | [] => 127
        | l :: ls => (min 254 (max 0 (ls.foldl max l - d.emax + 127))).toNat
    quantLoop d xs modes d.rl s 0

/-- A fixed-scale conversion of one block, or of one element of a format with BS = 0 (R127). -/
def fixedScale (d : Fd) (xs : List Val) (s : Nat) (modes : List Mode) : BlockRes :=
  if d.bs ≠ 0 && xs.any fun x => match x with | .fin _ _ _ => false | _ => true then nanBlock xs
  else
    let cs := List.zipWith (fun x m => d.place x s (d.gridAt s x m)) xs modes
    ⟨cs.map (·.1), s, orAll (cs.map (·.2)), 0⟩

/-- The value of a stored narrow code at its block's scale, and BNAN for scale 0xFF (R118). -/
def Fd.read (d : Fd) (c s : Nat) : Val × Nat :=
  if d.bs ≠ 0 && s = 0xFF then (.nan false, fBNAN)
  else ((d.value c).scale (if d.bs = 0 then 0 else (s : Int) - 127), 0)

/-- `Dequantise(c, s, fd, F)` (R129). -/
def dequantise (d : Fd) (c s : Nat) (f : Fmt) : Nat × Nat :=
  let (v, fl) := d.read c s
  let (r, fl2) := roundStd f .rne v
  (r, fl ||| fl2)

/-! ## Standard arithmetic (R189–R193, R226) -/

/-- Quotient of exact values: more than 70 bits and a last bit for what is cut off; DZ for a non-zero finite value
by zero; 0/0 and ∞/∞ are NaN (R190). -/
def Val.div : Val → Val → Val × Nat
  | .nan a, .nan b => (.nan (a || b), 0)
  | .nan a, _ => (.nan a, 0)
  | _, .nan b => (.nan b, 0)
  | .inf _, .inf _ => (.nan false, 0)
  | .inf a, .fin n _ _ => (.inf (a != n), 0)
  | .fin n _ _, .inf b => (.fin (n != b) 0 0, 0)
  | .fin n1 m1 e1, .fin n2 m2 e2 =>
    if m2 = 0 then (if m1 = 0 then (.nan false, 0) else (.inf (n1 != n2), fDZ))
    else if m1 = 0 then (.fin (n1 != n2) 0 0, 0)
    else
      let k := 70 + Nat.log2 m2 - Nat.log2 m1
      let q := (m1 <<< k) / m2
      let st := if (m1 <<< k) % m2 = 0 then 0 else 1
      (.fin (n1 != n2) (2 * q + st) (e1 - e2 - k - 1), 0)

/-- Integer square root by bits, from bit k down. -/
def isqrtFrom : Nat → Nat → Nat → Nat
  | 0, _, r => r
  | k + 1, x, r =>
    let r' := r + 2 ^ k
    isqrtFrom k x (if r' * r' ≤ x then r' else r)

/-- Square root (R190): −0 gives −0, a negative non-zero value is invalid. -/
def Val.sqrt : Val → Val
  | .nan s => .nan s
  | .inf n => if n then .nan false else .inf false
  | .fin n m e =>
    if m = 0 then .fin n 0 0
    else if n then .nan false
    else
      let (m, e) := if e % 2 = 0 then (m, e) else (2 * m, e - 1)
      let k := 140 - Nat.log2 m
      let k := k + k % 2
      let x := m <<< k
      let r := isqrtFrom 96 x 0
      .fin false (2 * r + (if r * r = x then 0 else 1)) ((e - k) / 2 - 1)

/-- The result of an operation whose exact value is `r` on operands `xs`: a signalling NaN operand, or a NaN from
operands without one, sets NV (R108); then one rounding (R110). -/
def roundOp (f : Fmt) (mode : Mode) (xs : List Val) (r : Val) : Nat × Nat :=
  match r with
  | .nan _ =>
    (f.qnan, if xs.any Val.isSnan || !xs.any Val.isNan then fNV else 0)
  | v => roundStd f mode v

def fpAdd (f : Fmt) (mode : Mode) (a b : Nat) : Nat × Nat :=
  let x := f.value a; let y := f.value b
  roundOp f mode [x, y] (x.add y)

def fpSub (f : Fmt) (mode : Mode) (a b : Nat) : Nat × Nat :=
  let x := f.value a; let y := f.value b
  roundOp f mode [x, y] (x.add y.neg)

def fpMul (f : Fmt) (mode : Mode) (a b : Nat) : Nat × Nat :=
  let x := f.value a; let y := f.value b
  roundOp f mode [x, y] (x.mul y)

/-- A × B + C with one rounding, or C − A × B when `sub`; 0 × ∞ is invalid also when C is a quiet NaN (R190). -/
def fpFma (f : Fmt) (mode : Mode) (sub : Bool) (a b c : Nat) : Nat × Nat :=
  let x := f.value a; let y := f.value b; let z := f.value c
  let p := x.mul y
  if !x.isNan && !y.isNan && p.isNan then (f.qnan, fNV)
  else roundOp f mode [x, y, z] (if sub then z.add p.neg else p.add z)

def fpDiv (f : Fmt) (mode : Mode) (a b : Nat) : Nat × Nat :=
  let x := f.value a; let y := f.value b
  let (r, fl) := x.div y
  let (c, fl2) := roundOp f mode [x, y] r
  (c, fl ||| fl2)

def fpSqrt (f : Fmt) (mode : Mode) (a : Nat) : Nat × Nat :=
  let x := f.value a
  roundOp f mode [x] x.sqrt

/-- `MinMaxOrder` (R191): −0 below +0, a quiet NaN loses to a number, a signalling NaN gives the canonical quiet NaN
and NV. -/
def fpMinMax (f : Fmt) (wantMax : Bool) (a b : Nat) : Nat × Nat :=
  let x := f.value a; let y := f.value b
  if x.isSnan || y.isSnan then (f.qnan, fNV)
  else if x.isNan then (if y.isNan then f.qnan else b, 0)
  else if y.isNan then (a, 0)
  else
    let o := match x.cmp y with
      | .eq => compare (if y.isNeg then 1 else 0) (if x.isNeg then 1 else 0)
      | o => o
    match o with
    | .gt => (if wantMax then a else b, 0)
    | .lt => (if wantMax then b else a, 0)
    | .eq => (a, 0)

/-! ## Matrix sums (R131–R134) -/

/-- TruncZ(p / 2^q) for a finite value. -/
def truncAt (q : Int) : Val → Int
  | .fin n m e => signed n (if q ≤ e then shl m (e - q) else m >>> (q - e).toNat)
  | _ => 0

/-- `KStepSum` (R132): none is NONE; the sum as an FP32 code, with flags. -/
def kStepSum (ps : List Val) : Option (Nat × Nat) :=
  if ps.any Val.isNan || (ps.contains (.inf true) && ps.contains (.inf false)) then some (fmtF32.qnan, fNV)
  else
    match ps.find? fun p => match p with | .inf _ => true | _ => false with
    | some (.inf n) => some (fmtF32.infCode n, 0)
    | _ =>
      let logs := ps.filterMap fun p => match p with
        | .fin _ m e => if m = 0 then none else some (log2v m e)
        | _ => none
      match logs with
      | [] => none
      | l :: ls =>
        let q := ls.foldl max l - 41
        let t := (ps.map (truncAt q)).foldl (· + ·) 0
        if t = 0 then none
        else some (roundStd fmtF32 .rne (.fin (t < 0) t.natAbs q))

/-- One update of an FP32 accumulator (R133). -/
def accStep (acc : Nat) (ps : List Val) : Nat × Nat :=
  match kStepSum ps with
  | none => (acc, 0)
  | some (w, fl) =>
    let (r, fl2) := fpAdd fmtF32 .rne acc w
    (r, fl ||| fl2)

/-- The integer value of an exact value, when it is one. -/
def Val.int? : Val → Option Int
  | .fin n m e =>
    if 0 ≤ e then some (signed n (shl m e))
    else if m % 2 ^ (-e).toNat = 0 then some (signed n (m >>> (-e).toNat)) else none
  | _ => none

/-- One update of an INT32 accumulator (R134). -/
def accStepInt (acc : Nat) (ps : List Val) : Nat × Nat :=
  satInt true 32 (toSigned 32 acc + (ps.map fun p => p.int?.getD 0).foldl (· + ·) 0)

/-- An integer operand of a matrix command (R134). -/
def Fd.isIntOperand (d : Fd) : Bool :=
  d.kind = 5 || d.kind = 6 ||
  (d.kind = 1 && d.ex = 0 && d.bias = 0 && d.bs = 0 && ((bf16Value d.xv).int?).isSome)

/-! ## Elements of any kind -/

/-- The exact value of a stored element of a descriptor, its scale code beside it (R259). -/
def Fd.elemValue (d : Fd) (c s : Nat) : Val × Nat :=
  if d.kind = 1 then d.read c s
  else if d.kind = 5 then (.ofInt (toSigned 8 c), 0)
  else if d.kind = 6 then (.ofInt (toSigned 16 c), 0)
  else ((fmtOfKind d.kind).value c, 0)

/-- Conversion of one value into KIND 2–6 (R259): RoundStd, with NV for a signalling NaN (R108), or ToInt. -/
def Fd.convert (d : Fd) (x : Val) (mode : Mode) : Conv × Nat :=
  if d.kind = 5 || d.kind = 6 then
    let w := if d.kind = 5 then 8 else 16
    let (r, fl) := toInt true w mode x
    (⟨r, .ofInt (toSigned w r), fl &&& fISAT ≠ 0⟩, fl)
  else
    let f := fmtOfKind d.kind
    let (r, fl) := roundStd f mode x
    let q := f.value r
    (⟨r, q, false⟩, fl ||| (if x.isSnan then fNV else 0))

end Sys2Proof.Machine
end

