-- ==== Sys2Proof/Machine/State.lean ====
section
/-! DEFINITION. The state of the EKW-1 as plain data: every piece the spec gives the package, a context, a core, a
team and a strand, with the parts of work in progress the spec names, and after them the model's own fields (which
occurrence comes next, the outside occurrences to come, and the counter that free values are drawn with). Byte
strings are little-endian numbers with a length beside them; memories are canonical lists of cells. -/

namespace Sys2Proof.Machine

open Sys2Proof

/-- A memory of bytes: strictly rising addresses, no listed byte 0; an unlisted address reads 0 (R61, R63; for HBM
log entry 1). -/
abbrev Mem := List Host.Cell

/-- Why a step stops with a fault. -/
inductive Fault where
  /-- A word or command was executed with no strand, access stream or engine queue to execute it (`cur` names
  none, or one that does not exist). Raised by every word's and command's meaning. Safe: the step function never
  calls them so. -/
  | noAgent
  deriving DecidableEq, Repr

/-- Why a step refuses. -/
inductive Refusal where
  /-- An instruction whose meaning is not written yet, by its mnemonic. Safe. -/
  | notModelled (mnemonic : String)
  deriving DecidableEq, Repr

/-! ## Strands -/

/-- What a result in flight writes (R73, R406): register bytes, a predicate, a reserved store-queue place, or a
control register with the form of the write (R158: FN). -/
inductive Dest where
  | reg (off : Nat)
  | pred (n : Nat)
  | push (q place : Nat)
  | creg (n fn : Nat)
  deriving DecidableEq, Repr

/-- The typed buffers (R60). -/
inductive Buf where
  | wb | ab | cb | sp
  deriving DecidableEq, Repr

/-- How a loaded value fills its destination: `sx` sign-extends from `width` bytes to `len` (R214). -/
structure LocalRead where
  buf   : Buf
  off   : Nat
  width : Nat
  sx    : Bool
  deriving DecidableEq, Repr

/-- A result in flight (R73–R75): where it lands, at which strand time, its bytes and the bytes enabled (bit j of
`mask` for byte j), the FLAGS bits set at landing, and for a local load its read, made at strand time `readAt` (0 once
made). -/
structure Flight where
  land  : Nat
  dest  : Dest
  len   : Nat
  data  : Nat
  mask  : Nat
  flags : BitVec 64
  src   : Option LocalRead
  readAt : Nat
  deriving DecidableEq, Repr

/-- A local store not yet performed: an entry of the spill forwarding table (R297); `fenced` when a `fence.rel` of the
strand came after it, so that no later released write may overtake it (R318, R319); `logs`: the scope entries of the
releases that its performance completes, each of which is then logged (R332). -/
structure Spill where
  perform : Nat
  buf  : Buf
  off  : Nat
  len  : Nat
  data : Nat
  mask : Nat
  fenced : Bool := false
  logs : List Nat := []
  deriving DecidableEq, Repr

/-- What a strand holds or waits on: its head condition (R155, WKIND of R409). -/
inductive Wait where
  | none
  | sig (n : Nat)
  | tile (t : Nat)
  | queue (q : Nat) (seq : BitVec 16)
  | mer (a : BitVec 64)
  | yield
  /-- A block-ending form awaiting its reply, with the tag of its request (R209). -/
  | reply (tag : Nat)
  /-- Its reply was written into the saved registers of its team by the team directory (R211). -/
  | answered (tag : Nat)
  /-- A fence at a scope entry: the writes it waits for are those with number below `upto` (R229, R332). -/
  | fence (scope : Nat) (upto : Nat)
  /-- `qwait`: the number of the newest place pushed to the store queue before it (R220). -/
  | drained (q : Nat) (last : Nat)
  | barrier (b scope : Nat) (phase : BitVec 16)
  | popEmpty (q n : Nat)
  | pushFull (q : Nat)
  /-- A local full/empty requirement: words from `off`, how many, and whether they must be full (R218). -/
  | fe (off n : Nat) (full : Bool)
  | granule (g : Nat)
  | queueRoom (q : Nat)
  | sync
  /-- An instruction fetch waiting on the fault path, with the serial (R408). -/
  | fetch (serial : Nat)
  deriving DecidableEq, Repr

/-- A trap record: code, reason, specifier, position, source, asynchronous or not, TRAPINFO (R163, R164). -/
structure TrapInfo where
  code   : Nat
  reason : Nat := 0
  spec   : Nat := 0
  pos    : Nat := 0
  src    : Nat := 0
  async  : Bool := false
  info   : BitVec 64 := 0
  deriving DecidableEq, Repr

/-- What the last presentation of a word came to: used by sync groups (R78) and for the hold rules. -/
inductive Issued where
  | idle | issued | held | trapped (t : TrapInfo) (pc : BitVec 64)
  deriving DecidableEq, Repr

/-- A strand, or the access stream (R29, R30, R44, R45). -/
structure Strand where
  pc      : BitVec 64 := 0
  live    : Bool := false
  exiting : Bool := false
  /-- p1 to p7 at indices 0 to 6 (R44). -/
  preds   : Vector PredBits 7 := Vector.replicate 7 0
  /-- Strand time (R71), and the strand time from which the next word may issue (R72). -/
  time    : Nat := 0
  ready   : Nat := 0
  /-- Time advances at the next cycle: the strand issued, counted, or waits for landings (R71, R76, R153). -/
  advance : Bool := false
  /-- The next word issues only when nothing is in flight (R153). -/
  settle  : Bool := false
  flights : List Flight := []
  spills  : List Spill := []
  wait    : Wait := .none
  issued  : Issued := .idle
  /-- A word that has come from a peer's page: its address and its bits (R428). -/
  fetched : Option (BitVec 64 × Nat) := none
  cause   : BitVec 64 := 0
  info    : BitVec 64 := 0
  trappc  : BitVec 64 := 0
  /-- The number of the core path's next write at the stream's latest acquire: every write below it may happen before
  what the stream does next (R320, R321). -/
  acqUpto : Nat := 0
  /-- The writes of the core's path that a release fence at scope entry 2 or wider puts before the stream's later
  accesses: of those numbered below `relUpto`, its own and all below `relAcq` (R229, R319); and the tag that the
  stream's later stores carry, with the die it is of (R323). -/
  relUpto : Nat := 0
  relAcq : Nat := 0
  relTag : Option (Nat × Vector (BitVec 16) 4) := none
  /-- The writes that a release fence at scope entry 0 or 1 puts before the stream's later writes, wherever these are
  performed: its own numbered below (R319, R322). -/
  relOwn : Nat := 0
  /-- A debugger stop (R170, R484). -/
  stopped : Bool := false
  deriving DecidableEq, Repr

/-- The four strands and the access stream of a team. -/
structure Strands where
  s0  : Strand := {}
  s1  : Strand := {}
  s2  : Strand := {}
  s3  : Strand := {}
  acc : Strand := {}
  deriving DecidableEq, Repr

/-! ## Teams -/

/-- A load-queue entry: reserved until its data arrives; the lines it locks, of local frames or of a peer's (R222,
R299). -/
structure LqEntry where
  tag  : Nat
  data : Option Nat
  lines : List (Option Nat × Nat)
  /-- The entry was filled by a full/empty acquire (R328). -/
  acquired : Bool := false
  deriving DecidableEq, Repr

/-- A store-queue entry: a reserved place until its push lands (R176). -/
structure SqEntry where
  num  : Nat
  data : Option Nat
  deriving DecidableEq, Repr

/-- A command in a queue: its sequence number, the accept sequence numbers of queues 0 to 2 recorded at its
acceptance (R92), and its words. -/
structure QCmd where
  seq : BitVec 16
  recs : Vector (BitVec 16) 3
  cmd : Cmd
  deriving DecidableEq, Repr

/-- A segment of an engine's global access (R279): address, length, bytes, and the bytes of it that are read or written. -/
structure Seg where
  va   : Nat
  len  : Nat
  data : Nat := 0
  mask : Nat := 0
  deriving DecidableEq, Repr

/-- A fix-up entry: a faulted segment, the sequence number of its command, its fault serial (none once a retry has answered
it), or refused (R279). -/
structure Fixup where
  seg     : Seg
  seq     : Nat := 0
  write   : Bool
  serial  : Option Nat
  refused : Bool
  deriving DecidableEq, Repr

/-- An element update or, without an address, a completion marker of `cp.red` at or on its way to an M-die (R441,
R442): its context, region and SEQ, the team and the command's sequence number or the fabric request it answers, the element's
descriptor and operation, the exact value, and the cycle of its last refusal. -/
structure RedMsg where
  mdie : Nat
  ctx : Nat
  region : Nat
  seq : BitVec 16
  h : Nat
  back : Option Packet
  pa : Option Nat
  fd : BitVec 64
  op : Nat
  val : Val
  va : Nat := 0
  cmdSeq : Nat := 0
  held : Bool := false
  refusedAt : Option Nat := none
  deriving DecidableEq, Repr

/-- The stage of a command in progress: started, its effect not yet performed; performed, with work, writes or answers
left (R253, R279). -/
inductive Phase where
  | started | performed
  deriving DecidableEq, Repr

/-- A tile-table entry's state (R58). -/
inductive TileState where
  | empty | filling | ready | draining
  deriving DecidableEq, Repr

/-- A tile-table entry (R58) with its held SIGNAL set (R287) and the number of commands that read it. -/
structure Tile where
  st   : TileState
  buf  : Nat
  skew : Bool
  off  : Nat
  rows : Nat
  cols : Nat
  fd   : Nat
  gen  : BitVec 32
  held : Bool := false
  readers : Nat := 0
  /-- A command took the tile in this cycle (R288). -/
  taken : Bool := false
  /-- The state at the start of the cycle, which `wait.tile` tests (R154). -/
  was : TileState := .empty
  deriving DecidableEq, Repr

/-- A command in progress: the command, its stage, the descriptors and tile entries read when it started (R246), the
cell operations left, the tiles it holds, the FLAGS bits of its helpers, the source bytes that have arrived and the
reads sent to peers (address, length, reference), the segments and reduction elements still to be written, and the
answers still awaited. -/
structure Prog where
  cmd    : Cmd
  phase  : Phase := .started
  fds    : Vector (BitVec 64) 16
  tiles  : List Tile
  work   : Nat := 0
  filling  : List Nat := []
  draining : List Nat := []
  reading  : List Nat := []
  flags  : Nat := 0
  fetched : List Seg := []
  asked  : List (Nat × Nat × Nat) := []
  askedSegs : List Seg := []
  out    : List Seg := []
  reds   : List (Nat × RedMsg) := []
  /-- Packages that a reducing copy's tensor reached, 0 for this one and 8 + p for peer p: their M-dies get its marker
  (R441). In a collective, the ranks that this rank's values have been sent to. -/
  reached : List Nat := []
  awaits : Nat := 0
  /-- Of the bytes that the command still needs, every segment waits in the fix-up list (R405). -/
  fixupsOnly : Bool := false
  /-- The number of the path's next write when a `qfence` was performed, or 0: it waits for the writes below. -/
  upto   : Nat := 0
  /-- The tag that the command's writes carry, with the die it is of (R323). -/
  tag    : Option (Nat × Vector (BitVec 16) 4) := none
  /-- The gradient noise that a collective adds at its completion: the Sextant entry and b (R375). -/
  noise  : Option (Nat × Nat) := none
  deriving DecidableEq, Repr

/-- A chain being performed: commands left, the next command's address and index, the command read, and while it is
read the bytes that have arrived and the reads sent to peers (R275). -/
structure Chain where
  left : Nat
  addr : Nat
  index : Nat
  cur : Option Cmd := none
  got : List Seg := []
  asked : List (Nat × Nat × Nat) := []
  deriving DecidableEq, Repr

/-- One engine queue (R56, R239, R273, R275, R279). -/
structure EngQ where
  accept  : BitVec 16 := 0
  cmds    : List QCmd := []
  stopped : Bool := false
  closed  : Bool := false
  /-- A `qclr` takes effect in the next cycle (R239). -/
  clear   : Bool := false
  prog    : Option Prog := none
  chain   : Option Chain := none
  fixups  : List Fixup := []
  /-- A chain's read, or the head, waiting on the fault path with its serial. -/
  serial  : Option Nat := none
  refused : Bool := false
  /-- The WAIT condition of a `qfence` at the head has held, and its slot is consumed (R96, R274). -/
  waited  : Bool := false
  /-- The command at the head, or the chain's current one, has passed the checks made there (R95). -/
  checked : Bool := false
  /-- The granule whose fill the head or the command in progress waits for (R294). -/
  wantsFill : Option Nat := none
  deriving DecidableEq, Repr

/-- A map-table entry (R291). -/
structure MapEntry where
  wbk : Bool
  tagged : Bool
  sxe : Nat
  spg0 : Nat
  ng : Nat
  va : Nat
  /-- Its place in the table of 8 entries. -/
  idx : Nat := 0
  deriving DecidableEq, Repr

/-- A granule fill in progress (R293), its fault serial, and its refusal. -/
structure Fill where
  granule : Nat
  serial  : Option Nat := none
  refused : Bool := false
  /-- A read sent to a peer for the granule's page, and its bytes once they have come (R428). -/
  asked   : Option Nat := none
  got     : Option Nat := none
  deriving DecidableEq, Repr

/-- Changes of signal slots: increments, and a set (R55, R242). -/
inductive SlotChange where
  | add (n k : Nat)
  | dec (n : Nat)
  | put (n v : Nat)
  deriving DecidableEq, Repr

/-- A statistics set (R371, R372). -/
structure Stats where
  n    : BitVec 64 := 0
  nz   : BitVec 64 := 0
  qerr : BitVec 64 := 0
  satn : BitVec 64 := 0
  rscn : BitVec 64 := 0
  ufn  : BitVec 64 := 0
  deriving DecidableEq, Repr

/-- An asynchronous event posted to a team (R168), with the queue it stopped, if any. -/
structure AsyncEvent where
  trap  : TrapInfo
  queue : Option Nat
  deriving DecidableEq, Repr

/-- Where a team is (R65–R68, R361, R405): in a slot; with its slot freed and work in its queues left; swapped to
or saved with its context in save area `i`. A retired team is in no table. -/
inductive Place where
  | slot (i : Nat)
  | tail
  | swapped (area : Nat)
  | saved (area : Nat)
  deriving DecidableEq, Repr

/-- A granule of a team's allocation: the cycle of the last touch, drowsy or not, and the cycle at which a wake in
progress ends (R42). -/
structure Granule where
  touched : Nat := 0
  drowsy  : Bool := false
  wakeAt  : Option Nat := none
  deriving DecidableEq, Repr

/-- How far the promotion flush before a team's save, retirement or reported halt has come (R337). -/
inductive Flushed where
  | no | asked | done
  deriving DecidableEq, Repr

/-- An arrival at barrier b of stream k that still waits, as a release fence does, for the writes before it: of those of
the core's path numbered below `upto`, its own and all below `acq`, and the strand's local stores that are due by strand
time `stores` (R233, R318, R322). -/
structure Arrival where
  k : Nat
  b : Nat
  scope : Nat
  upto : Nat
  acq : Nat
  stores : Nat
  deriving DecidableEq, Repr

/-- A team (R33–R68). -/
structure Team where
  handle : Nat
  place  : Place
  /-- The launch, the task and the item the team came from, and its priority. -/
  launch : Nat := 0
  task   : Nat := 0
  item   : Nat := 0
  pri    : Nat := 0
  regs   : Mem := []
  regsz  : Nat := 1
  vs     : BitVec 64 := 0
  vv     : BitVec 64 := 0
  va     : BitVec 64 := 0
  vm     : BitVec 64 := 0
  scben  : Bool := false
  flags  : BitVec 64 := 0
  /-- FLAGS bits set in this cycle (R50). -/
  flagNow : BitVec 64 := 0
  /-- The team is halted (R169). -/
  halted : Bool := false
  /-- A debugger stop asked for or in force (R170, R484). -/
  dbg : Bool := false
  /-- The team is stopping for a swap or a context save (R65, R405). -/
  saving : Bool := false
  wid    : BitVec 64 := 0
  gen    : BitVec 32 := 0
  lfsr   : BitVec 32 := 1
  wbg    : Nat := 0
  abg    : Nat := 0
  cbg    : Nat := 0
  spg    : Nat := 0
  ntiles : Nat := 0
  fds    : Vector (BitVec 64) 16 := Vector.replicate 16 0
  /-- The Sextant entry each descriptor's statistics set is bound to (R371). -/
  binds  : Vector (Option Nat) 16 := Vector.replicate 16 none
  stats  : Vector Stats 16 := Vector.replicate 16 {}
  slots  : Vector (BitVec 32) 64 := Vector.replicate 64 0
  /-- Slot changes of this cycle and of the next (R55, R242). -/
  slotNow  : List SlotChange := []
  slotNext : List SlotChange := []
  q0     : EngQ := {}
  q1     : EngQ := {}
  q2     : EngQ := {}
  tiles  : List Tile := []
  wb     : Mem := []
  ab     : Mem := []
  cb     : Mem := []
  sp     : Mem := []
  /-- Full words of the SP window: address k holds 1 when word k is full (R61). -/
  fe     : Mem := []
  /-- The words whose bit a request changed in this cycle, with the bit at its start (R219). -/
  feBusy : List (Nat × Bool) := []
  /-- The SP words written in this cycle, with their data at its start (R219). -/
  spBusy : List (Nat × Nat) := []
  maps   : List MapEntry := []
  present : List Nat := []
  dirty  : List Nat := []
  fills  : List Fill := []
  bars   : Vector (BitVec 16) 16 := Vector.replicate 16 0
  barScope : Vector Nat 16 := Vector.replicate 16 0
  /-- Arrivals counted in `bars` whose release is not complete: no phase counts them yet (R233). -/
  arriving : List Arrival := []
  ctrs   : Vector (BitVec 64) 14 := Vector.replicate 14 0
  events : List AsyncEvent := []
  trapEnt : BitVec 64 := 0
  gb     : Nat := 0
  strands : Strands := {}
  lqs    : Vector (List LqEntry) 4 := Vector.replicate 4 []
  sqs    : Vector (List SqEntry) 2 := Vector.replicate 2 []
  /-- Pushes made so far to each store queue; they number its places. -/
  pushes : Vector Nat 2 := Vector.replicate 2 0
  accStopped : Bool := false
  accSerial  : Option Nat := none
  /-- The address of the access that the access unit halted at (R400), and its fault once it has been refused. -/
  accVa : Nat := 0
  accRefused : Option TrapInfo := none
  grans  : Vector Granule 16 := Vector.replicate 16 {}
  /-- Cycles for which the head condition has not held (R359). -/
  failed : Nat := 0
  /-- A swapped or saved team whose condition came to hold: the cycle (R358). -/
  requeued : Option Nat := none
  /-- Granules whose write-back failed (R296), and those still to be written back. -/
  wbFailed : List Nat := []
  wbLeft   : List Nat := []
  wbSerial : Option Nat := none
  /-- The bytes of the first granule left have entered the core's write path. -/
  wbPosted : Bool := false
  banks  : Nat := 0
  joined : Nat := 0
  flushed : Flushed := .no
  /-- The team's end has begun: `wbLeft` lists what is to be written back (R296). -/
  ending : Bool := false
  /-- The scope entries of releases that have been performed in this occurrence and are to be logged (R332). -/
  toLog : List Nat := []
  /-- The first entry of its window in the core's tile table (R58). -/
  tileBase : Nat := 0
  deriving DecidableEq, Repr

/-! ## Cores -/

/-- An entry of the promotion log (R331). -/
structure LogEntry where
  seq  : BitVec 32
  ctx  : Nat
  serial : Nat
  core1 : Bool
  prom : Nat
  valid : Bool := true
  summary : BitVec 256
  /-- The number of the path's next write when the entry was written: the write set lies below it (R332). -/
  upto : Nat
  deriving DecidableEq, Repr

/-- Where a posted write goes. -/
inductive Target where
  /-- A local frame. -/
  | home (pa : Nat)
  /-- A frame of a peer (R428). -/
  | peer (peer pa hd : Nat)
  /-- Aperture `i` of the launch at a view offset (R309). -/
  | aperture (i off : Nat)
  /-- A word of the context's doorbell page (R492). -/
  | doorbell (off : Nat)
  /-- Waiting on the fault path. -/
  | fault (serial : Nat)
  deriving DecidableEq, Repr

/-- A posted global write in its core's write path (R216, R332, R401): number, who stored it, its virtual address,
its bytes, where it goes; it is performed at its home only after the writes of the path numbered below `after` that
are its own stream's or numbered below `acq` (R322); `rel` is the scope entry of a release; `drainOf` names the store
queue and the place of a drained entry (R220); `cmdOf` the sequence number and the CMD of an engine's command (R277, R396);
the tag that it carries with the die it is of (R323), and the reference
of its fabric request while unacknowledged. -/
structure Posted where
  num   : Nat
  h     : Nat
  k     : Nat
  ctx   : Nat
  va    : Nat
  len   : Nat
  data  : Nat
  mask  : Nat
  target : Target
  after   : Nat := 0
  acq     : Nat := 0
  drainOf : Option (Nat × Nat) := none
  cmdOf   : Option (Nat × Nat) := none
  rel     : Option Nat := none
  tag   : Option (Nat × Vector (BitVec 16) 4) := none
  ref   : Option Nat := none
  deriving DecidableEq, Repr

/-- A promotion request at the log arbiter (R333): the requester's strand and request tag, the point, the level; with
`k` = 9 the flush of level 2 that team `h` is to complete before it goes, over the writes numbered below `upto` (R337).
-/
structure PromReq where
  h : Nat
  k : Nat
  tag : Nat
  point : BitVec 32
  level : Nat
  upto : Nat := 0
  /-- The save of the team that it names has begun: the flush of that save answers it (R337). -/
  held : Bool := false
  deriving DecidableEq, Repr

inductive FlushPhase where
  | localPart | remotePart
  deriving DecidableEq, Repr

/-- A flush in progress (R334), with the marked line hashes and the writes it waits for: every write sent, numbered
below `upto`, and of the writes on the fault path those of the promoted entries, numbered below `must` (R401). -/
structure Flush where
  level : Nat
  point : BitVec 32
  phase : FlushPhase
  marks : BitVec 256
  upto  : Nat
  must  : Nat
  began : Nat
  deriving DecidableEq, Repr

/-- A message waiting at a bank unit or on its way there (R62, R202, R243): the request it serves. -/
structure SpMsg where
  h : Nat
  k : Nat
  tag : Nat
  target : Nat
  slotAdd : Option (Nat × Nat)
  deriving DecidableEq, Repr

/-- A line of the access cache (R299, R301): of a local frame or of a peer's, its number, its lock count; its bytes as they
were when it was locked, those of them that were read then, and the teams whose access stream may still read them: those on
the core then, less those that have acquired since (R321). -/
structure CacheLine where
  peer : Option Nat
  line : Nat
  locks : Nat
  data : Nat := 0
  mask : Nat := 0
  readers : List Nat := []
  deriving DecidableEq, Repr

/-- An access that a flush stalls (R335): a stream's word at its address, an engine queue's write, the request of a
block-ending form, a write of the path that is translated again, a claim's access to a tag or a tile, the write-back of a
team's granule. -/
inductive Owed where
  | word (h k : Nat) (pc : BitVec 64)
  | engine (h q : Nat)
  | request (tag : Nat)
  | retry (num : Nat)
  | claim (n : Nat)
  | back (h : Nat)
  deriving DecidableEq, Repr

/-- A bank of a typed buffer taken for one cycle by a word of a team; `sync`: the word is a member of a sync group, whose
members do not contend with each other (R212, R282). -/
structure BankUse where
  cycle : Nat
  buf : Buf
  bank : Nat
  h : Nat
  sync : Bool
  deriving DecidableEq, Repr

/-- What runs on a slot cluster: the team, the cycles in a row in which it ran while another was eligible, the slot from which
the cluster passes on, and whether a word has issued on it in this cycle (R356). -/
structure Cluster where
  handle : Option Nat := none
  ran    : Nat := 0
  next   : Nat := 0
  used   : Bool := false
  deriving DecidableEq, Repr

/-- The work that a swap was started for: a requeued team, or an item of a task of a launch (R359). -/
inductive SwapFor where
  | team (h : Nat)
  | item (launch task item : Nat)
  deriving DecidableEq, Repr

/-- A core (R17). -/
structure Core where
  log     : List LogEntry := []
  relCount : BitVec 32 := 0
  /-- The number of the path's next write when the newest entry was written (R332). -/
  logNum  : Nat := 0
  /-- A release waits for a free log entry (R336). -/
  logFull : Bool := false
  requests : List PromReq := []
  flush   : Option Flush := none
  path    : List Posted := []
  nextNum : Nat := 0
  msgs    : List SpMsg := []
  cache   : List CacheLine := []
  /-- Accesses that met a flush's stall: they are performed before the next flush starts (R335). -/
  owed    : List Owed := []
  /-- Banks taken in this cycle and later ones (R212). -/
  bankUse : List BankUse := []
  clusters : Vector Cluster 4 := Vector.replicate 4 {}
  /-- The team whose complete sync group the clusters pass to until it issues, and the slot from which the next is looked for
  (R357). -/
  syncTeam : Option Nat := none
  syncSlot : Nat := 0
  retiredBanks : Nat := 0
  retired : Bool := false
  /-- The cycle in which a team was last on the core (R490). -/
  lastBusy : Nat := 0
  powerGated : Bool := false
  /-- For each priority the launch number whose turn is next: one past that of the item dispatched last (R358). -/
  turns : Vector Nat 4 := Vector.replicate 4 0
  /-- The work that the last swap was started for, until it is dispatched or restored (R359). -/
  swapFor : Option SwapFor := none
  deriving DecidableEq, Repr

/-! ## Contexts and launches -/

/-- What a unit's access of a context's memory waits on: a serial of the fault path, and the virtual pages refused for
what it does now (R341, R349, R494). -/
structure UnitWait where
  serial : Option Nat := none
  denied : List Nat := []
  deriving DecidableEq, Repr

/-- An access of a unit to a page of a peer: its unit (SRC), address, length, direction, the value written, request and
answer. -/
structure UnitOp where
  src : Nat
  va : Nat
  len : Nat
  write : Bool
  val : Nat := 0
  ref : Nat
  got : Option Nat := none
  failed : Option Nat := none
  deriving DecidableEq, Repr

/-- A programmable scope-table entry as read at acceptance (R23). -/
structure ScopeEntry where
  valid : Bool
  allPeers : Bool
  cores : Nat
  peers : Nat
  deriving DecidableEq, Repr

/-- An aperture-table entry as read at acceptance (R308). -/
structure Aperture where
  xf : Nat
  isSealed : Bool
  w : Nat
  vbase : Nat
  vlen : Nat
  pbase : Nat
  plen : Nat
  vfd : BitVec 64
  sfd : BitVec 64
  rows : Nat
  cols : Nat
  deriving DecidableEq, Repr

/-- A tile entry of a team image (R348). -/
structure TileImg where
  buf : Nat
  skew : Bool
  fd : Nat
  off : Nat
  size : Nat
  deriving DecidableEq, Repr

/-- A descriptor binding of a team image (R348). -/
inductive Binding where
  | unbound
  | lit (v : BitVec 64)
  | entry (e : Nat)
  deriving DecidableEq, Repr

/-- A team image (R348). -/
structure TeamImage where
  ents : List Nat
  trapEnt : Nat
  views : List (BitVec 64)
  regsz : Nat
  wbg : Nat
  abg : Nat
  cbg : Nat
  spg : Nat
  ntiles : Nat
  binds : List Binding
  tiles : List TileImg
  deriving DecidableEq, Repr

inductive TaskState where
  | waiting | ready | done
  deriving DecidableEq, Repr

/-- A task of an accepted launch (R347, R351–R354): what its record gives, then its state: generation, extents,
the next item of each core and the items whose teams have retired. -/
structure Task where
  image : TeamImage
  exts  : List Nat
  perm  : List Nat
  gb    : Nat
  heights : List Nat
  maps  : List MapEntry
  preds : List Nat
  st    : TaskState := .waiting
  gen   : BitVec 32 := 0
  extents : List Nat := []
  shapes : List (Nat × Nat) := []
  started : List (Nat × Nat) := []
  retired : List Nat := []
  readyAt : Nat := 0
  deriving DecidableEq, Repr

/-- How a launch ended or is ending (R362, R363). -/
inductive LaunchEnd where
  | running
  | failed (handle task : Nat) (traps : List (BitVec 64))
  | refused (detail task : Nat)
  | completed
  deriving DecidableEq, Repr

/-- An accepted launch (R343–R363). -/
structure Launch where
  ctx : Nat
  queue : Nat
  index : Nat
  pri : Nat
  ovl : Bool
  nf : Nat
  fws : List Nat
  dims : List Nat
  seed : BitVec 32
  scope : Nat
  notifyS : Nat
  notifyH : Nat
  compl : Nat
  arg : BitVec 64
  cores : List Nat
  scopes : List ScopeEntry
  apertures : List Aperture
  tasks : List Task
  fate : LaunchEnd := .running
  acceptedAt : Nat := 0
  /-- The launch was accepted after the pending step request, or digest request (R377, R445). -/
  afterStep : Bool := false
  afterDigest : Bool := false
  /-- The first cycle since which nothing of R350 or R404 has kept it from dispatching: its items wait from then (R358). -/
  openAt : Nat := 0
  /-- Priority steps gained by waiting (R358): core, task, steps. -/
  boosts : List (Nat × Nat × Nat) := []
  /-- What the write of the completion record waits on. -/
  wait : UnitWait := {}
  deriving DecidableEq, Repr

/-- One launch queue of a context as the hardware holds it (R340, R341): the tail stored, HEAD, the ring, the doorbell
values that wait, and the packet whose launch is being accepted. -/
structure LaunchQ where
  tail : BitVec 32 := 0
  head : BitVec 32 := 0
  base : Nat := 0
  log2n : Nat := 0
  bells : List (BitVec 64) := []
  packet : Option Nat := none
  /-- The structures of that launch read so far, each once (R349): address, length, and the bytes unless the read was
  refused. -/
  reads : List (Nat × Nat × Option Nat) := []
  wait : UnitWait := {}
  deriving DecidableEq, Repr

/-- A record outstanding on the fault path (R396, R397). -/
structure FaultRec where
  serial : Nat
  vpn : Nat
  kind : Nat
  reason : Nat
  /-- The C-dies whose translation units hold the miss (R390). -/
  dies : List Nat
  deriving DecidableEq, Repr

/-- A cached translation: die, level of the leaf, virtual page base, and the entry (R390). -/
structure TlbEntry where
  die : Nat
  level : Nat
  base : Nat
  pte : BitVec 64
  deriving DecidableEq, Repr

/-- A history slot of a Sextant entry (R367). -/
structure Hist where
  gfrom : BitVec 32 := 0
  rung : Nat := 0
  valid : Bool := false
  deriving DecidableEq, Repr

/-- The unit's copy of a Sextant entry (R367), and its accumulators (R373). -/
structure SxEntry where
  mode : Nat := 0
  role : Nat := 0
  layer : Nat := 0
  nr : Nat := 0
  curr : Nat := 0
  hyst : Nat := 0
  hold : Nat := 0
  hi : Nat := 0
  lo : Nat := 0
  sathi : Nat := 0
  tlog : Nat := 0
  gth : Nat := 0
  ne : Nat := 0
  rbase : Nat := 0
  rtiles : Nat := 0
  tagt : Nat := 0
  rungs : List (BitVec 64) := []
  hists : List Hist := List.replicate 4 {}
  dncnt : Nat := 0
  holdcnt : Nat := 0
  last : Stats := {}
  gnsum : BitVec 64 := 0
  gncnt : BitVec 64 := 0
  acc : Stats := {}
  accGnsum : BitVec 64 := 0
  accGncnt : BitVec 64 := 0
  deriving DecidableEq, Repr

/-- A step request held by the unit: EVAL, RELOAD (R376). -/
structure StepReq where
  eval : Bool
  reload : Bool
  deriving DecidableEq, Repr

/-- A write that the Sextant unit is to make: bytes at an address, or a bit of byte 5 of the control block (R493). -/
inductive SxWrite where
  | bytes (va len v : Nat)
  | flag (n : Nat) (on : Bool)
  deriving DecidableEq, Repr

/-- The Sextant unit's state for a context (R366–R379); entries not listed have MODE 0. `applied` says that the pending
step has been worked out and only its writes are left. -/
structure Sextant where
  entries : List (Nat × SxEntry) := []
  gen : BitVec 32 := 1
  maxch : Nat := 0
  steprec : Nat := 0
  steps : BitVec 64 := 0
  pend : Option StepReq := none
  applied : Bool := false
  writes : List SxWrite := []
  /-- Cycles since the pending step could be applied, but for those on the fault path (R377). -/
  ran : Nat := 0
  wait : UnitWait := {}
  deriving DecidableEq, Repr

/-- The hardware's copy of a course-table entry (R421–R423). -/
structure CourseEntry where
  courses : List (BitVec 64)
  valid : Nat
  policy : Nat
  failed : Nat
  causes : List Nat
  /-- The entry is malformed, could not be read, or every course failed: the REASON of fault 0x40 (R425). -/
  unreachable : Option Nat
  serial : Option Nat := none
  /-- The read of the entry waits for a peer's answer (R428). -/
  asked : Bool := false
  /-- FAILED and CAUSE have changed and are still to be written back; what that write waits on (R422). -/
  back : Option UnitWait := none
  /-- The entry is to be read again once that write has been made (R422). -/
  reread : Bool := false
  deriving DecidableEq, Repr

inductive CtxState where
  | running | saving | saved | restoring
  deriving DecidableEq, Repr

/-- The debug block of a context (R484). -/
structure Debug where
  handle : BitVec 32 := 0xFFFFFFFF
  busy : Bool := false
  gated : Bool := false
  err : Bool := false
  /-- A read that waits for drowsy granules to wake (R42). -/
  reading : Bool := false
  /-- Teams whose stop commands still run (R484). -/
  stopping : List Nat := []
  code : Nat := 0
  space : Nat := 0
  strand : Nat := 0
  off : BitVec 32 := 0
  len : Nat := 0
  data : Mem := []
  deriving DecidableEq, Repr

/-- A context (R19, R402, R482). -/
structure Context where
  swapth : BitVec 16 := 0x07D0
  swv : Bool := false
  lqtab : Nat := 0
  scopetab : Nat := 0
  aptab : Nat := 0
  sxtab : Nat := 0
  sxcb : Nat := 0
  crstab : Nat := 0
  dgcb : Nat := 0
  ptroot : BitVec 64 := 0
  fqbase : BitVec 64 := 0
  frbase : BitVec 64 := 0
  savepool : BitVec 64 := 0
  savecnt : Nat := 0
  st : CtxState := .running
  refused : Bool := false
  sdva : BitVec 64 := 0
  sdcnt : BitVec 32 := 0
  sdbusy : Bool := false
  fabric : Bool := false
  sddone : Bool := false
  /-- A shoot-down in progress (R391, R431): peers still to be told, acknowledgements still awaited, the number of each
  core's next write and of the next fabric request when it started. -/
  sdpeers : List Nat := []
  sdacks : Nat := 0
  sdmarks : List (Nat × Nat) := []
  sdref : Nat := 0
  /-- The range of the shoot-down in progress, read when it started: its first page and its pages, and the number of the next
  reduction message then. -/
  sdlo : Nat := 0
  sdn : Nat := 0
  sdmsg : Nat := 0
  /-- The number of the next request of a stream when the shoot-down started. -/
  sdreq : Nat := 0
  faults : List FaultRec := []
  nextSerial : BitVec 32 := 0
  tlb : List TlbEntry := []
  launchQs : Vector LaunchQ 16 := Vector.replicate 16 {}
  launchCount : Vector Nat 16 := Vector.replicate 16 0
  sextant : Sextant := {}
  courses : List (Nat × CourseEntry) := []
  digest : Bool := false
  /-- Dispatches so far on each core (R26). -/
  serials : List (Nat × Nat) := []
  /-- Accesses of units to pages of peers. -/
  unitOps : List UnitOp := []
  /-- Granules whose write-back failed, as reported with their launch: its queue and index, the team, the granule (R296). -/
  wbReports : List (Nat × Nat × Nat × Nat) := []
  dblk : Debug := {}
  /-- What the digest engine is still to write to the control block: address and bytes (R445). -/
  digestPut : Option (Nat × List Byte) := none
  deriving DecidableEq, Repr

/-! ## Fabric, meridian, host -/

/-- A chart entry of one port (R412). -/
structure PortEntry where
  neigh : Nat
  nport : Nat
  st : Nat
  deriving DecidableEq, Repr

/-- The chart in force (R412). -/
structure Chart where
  cgen : BitVec 32
  nmax : Nat
  self : Nat
  deg : Nat
  mroot : Nat
  /-- Present nodes with their 36 port entries. -/
  nodes : List (Nat × List PortEntry)
  deriving DecidableEq, Repr

/-- An export-table entry in use (R429). -/
structure Export where
  pbase : Nat
  plen : Nat
  srclo : Nat
  srchi : Nat
  w : Bool
  atom : Bool
  ro : Bool
  mig : Bool
  thrlog : Nat
  deriving DecidableEq, Repr

/-- The Gliem control block (R414). -/
structure GliemCtl where
  chartbase : BitVec 64 := 0
  cref : Bool := false
  cbusy : Bool := false
  linka : BitVec 36 := 0
  linkb : BitVec 36 := 0
  expbase : BitVec 64 := 0
  eref : Bool := false
  ebusy : Bool := false
  migpa : BitVec 64 := 0
  migpeer : Nat := 0
  mignpa : BitVec 64 := 0
  migcrs0 : BitVec 64 := 0
  migcrs1 : BitVec 64 := 0
  migst : Nat := 0
  /-- The next page sequence number and the first of the migration, the course word in use, and the new home's refusal
  (R433). -/
  migseq : Nat := 0
  migfirst : Nat := 0
  migcrs : Nat := 0
  migref : Bool := false
  meqbase : BitVec 64 := 0
  meqtail : BitVec 32 := 0
  deriving DecidableEq, Repr

/-- Why a packet was sent, so that its reply finds its requester: an outstanding request of a strand or access
stream, a posted write, an engine's segment, a granule's fill, a migration's copy or forward, with the first page sequence
of that migration and its other course word, a shoot-down. -/
inductive Origin where
  | request (tag : Nat)
  | posted (core num : Nat)
  | engine (h q seq : Nat)
  | fill (h g : Nat)
  | migration (first : Nat) (alt : BitVec 64)
  | shootdown (ctx : Nat)
  /-- A unit of the package, for a context (R304, R349, R494). -/
  | unit (ctx : Nat)
  /-- The read of a peer's course-table entry (R422). -/
  | course (ctx peer : Nat)
  deriving DecidableEq, Repr

/-- A fabric request sent by this package whose reply has not arrived (R424, R426). -/
structure Outstanding where
  ref : Nat
  origin : Origin
  peer : Nat
  packet : Packet
  sentAt : Nat
  course : Nat
  /-- The virtual address of the access, and for a request answered "moved" how far the shoot-down it waits for has come:
  0 not started since, 1 started, 2 complete (R434). -/
  va : Nat := 0
  moved : Option Nat := none
  /-- The message waits to be sent again (R424). -/
  held : Bool := false
  deriving DecidableEq, Repr

/-- Sequence numbers of a flow at its source or its destination (R426). -/
structure FlowSeq where
  ctx : Nat
  peer : Nat
  flow : Nat
  next : Nat
  deriving DecidableEq, Repr

/-- A reply given, kept for copies of its request (R426). -/
structure GivenReply where
  ctx : Nat
  src : Nat
  flow : Nat
  seq : Nat
  reply : Packet
  givenAt : Nat
  deriving DecidableEq, Repr

/-- A page that is moving here: its old home and frame, the first page sequence of the migration and the one to be applied
next, the messages of it that came early, and the last sequence once it is known (R433). -/
structure Inbound where
  peer : Nat
  pa : Nat
  first : Nat
  next : Nat
  held : List Packet := []
  last : Option Nat := none
  deriving DecidableEq, Repr

/-- A packet on its way out by a link (R418): port, channel of its class, and the packet with its hop index raised. -/
structure Leaving where
  port : Nat
  channel : Nat
  packet : Packet
  deriving DecidableEq, Repr

/-- An alignment message that has gone out on a link: the sender's count and the measured link delay, in ticks (R436). -/
structure AlignMsg where
  port : Nat
  count : Nat
  delay : Nat
  deriving DecidableEq, Repr

/-- The fabric unit (R418–R435). `aligns` holds the alignment messages sent last (R436). -/
structure Fabric where
  transit : List (Nat × Packet) := []
  nextPkt : Nat := 0
  outstanding : List Outstanding := []
  nextRef : Nat := 0
  sendSeq : List FlowSeq := []
  recvSeq : List FlowSeq := []
  early : List Packet := []
  links : List (Nat × Leaving) := []
  aligns : List AlignMsg := []
  inbound : List Inbound := []
  replies : List GivenReply := []
  deriving DecidableEq, Repr

/-- A copy of a peer's line (R431). -/
structure PeerLine where
  mdie : Nat
  peer : Nat
  pa : Nat
  data : Nat
  deriving DecidableEq, Repr

/-- A migration counter of an M-die (R432); the least recently used is first in its list. -/
structure MigCount where
  mdie : Nat
  pa : Nat
  last : Nat
  count : Nat
  stopped : Bool
  deriving DecidableEq, Repr

/-- A page marked moved (R433). -/
structure Moved where
  pa : Nat
  peer : Nat
  npa : Nat
  deriving DecidableEq, Repr

/-- A region entry of an ordered-reduction unit (R440). -/
structure RedRegion where
  mdie : Nat
  ctx : Nat
  region : Nat
  exp : BitVec 16
  deriving DecidableEq, Repr

/-- A line in error with the context that first consumed it: in its M-die's error table, or met when the table was full
(R448). -/
structure ErrEntry where
  mdie : Nat
  line : Nat
  ctx : Nat
  tabled : Bool := true
  deriving DecidableEq, Repr

/-- What a claim of a memory tile is for (R384): a fill of a granule, `cp.renc` of a queue, a write-back of a granule. -/
inductive Claimer where
  | fill (h g : Nat)
  | renc (h q : Nat)
  | back (h g : Nat)
  deriving DecidableEq, Repr

/-- How far a claim has come (R382): to be claimed; waiting for BUSY to clear; holding BUSY over contents of a
generation; the converted bytes worked out, with the pieces still to be written (frame address, first byte, length); all
bytes written, the tag not yet; ended, with the tile's generation then; failed with a code and a REASON, refused or at once. -/
inductive ClaimState where
  | start
  | waiting
  | busy (tgen : Nat)
  | coded (v : Nat) (left : List (Nat × Nat × Nat))
  | written
  | ended (tgen : Nat)
  | failed (code reason : Nat) (refused : Bool)
  deriving DecidableEq, Repr

/-- A claim of memory tile `tile` of a Sextant entry for a generation by a core (R382). -/
structure Claim where
  by_   : Claimer
  ctx   : Nat
  core  : Nat
  entry : Nat
  tile  : Nat
  gen   : Nat
  st    : ClaimState := .start
  serial : Option Nat := none
  /-- The address at which the claim failed. -/
  va    : Nat := 0
  /-- The tag's bytes as the claim found them and their place, while it holds BUSY (R385). -/
  tag   : Nat := 0
  tagPa : Nat := 0
  /-- The tag that its writes carry, with the die it is of: the write of the tile's tag is a release at package scope (R323,
  R382). -/
  mark  : Option (Nat × Vector (BitVec 16) 4) := none
  /-- Its claimer has ended; it writes what it has begun to write and then goes. -/
  orphan : Bool := false
  deriving DecidableEq, Repr

/-- Data of a rank that has arrived for a team's collective, with the team that sent it (R269): its handle, and for one of
peer p 2^32 × (1 + p) more. -/
structure CollData where
  h : Nat
  rank : Nat
  sender : Nat
  data : List Byte
  digest : Nat
  deriving DecidableEq, Repr

/-- A clock marker on its way to or at an M-die (R323); it follows the writes with its tag that its core's path held
when it was sent, numbered below `upto`. -/
structure Marker where
  mdie : Nat
  src : Nat
  tag : Vector (BitVec 16) 4
  upto : Nat := 0
  deriving DecidableEq, Repr

/-- An event-log entry (R488). -/
structure LogRec where
  seq : BitVec 64
  mer : BitVec 64
  source : Nat
  code : Nat
  data : Nat
  deriving DecidableEq, Repr

/-- A queue pair of the Ultra Ethernet endpoint (R487). -/
structure UeQp where
  sqbase : BitVec 64 := 0
  cqbase : BitVec 64 := 0
  sqtail : BitVec 64 := 0
  cqtail : BitVec 64 := 0
  done : Nat := 0
  deriving DecidableEq, Repr

inductive BootStage where
  | off | rom | running
  deriving DecidableEq, Repr

/-- Boot, firmware and attestation (R477, R478, R489). -/
structure Binnacle where
  stage : BootStage := .off
  image : List Byte := []
  staged : Option (List Byte) := none
  fuse : Nat := 0
  mailbox : List Byte := []
  throttled : Bool := false
  /-- The last sample (R488). -/
  sample : DieSample := { temps := [], currents := [] }
  log : List LogRec := []
  deriving DecidableEq, Repr

/-- The create or destroy that runs (R483). -/
structure CtxOp where
  ctx : Nat
  create : Bool
  /-- The context-table entry read for a create. -/
  entry : Nat := 0
  /-- The cycle in which it began. -/
  since : Nat := 0
  deriving DecidableEq, Repr

/-- The package control block (R481). CTXLIVE is the set of contexts that exist. -/
structure PkgCtl where
  ctxtbase : BitVec 64 := 0
  sel : Nat := 0
  busy : Option CtxOp := none
  crefd : Bool := false
  dbgmask : BitVec 64 := 0
  /-- Entries of the event log written; EVTAIL reads bits 31:0 (R481, R488). -/
  evtail : BitVec 64 := 0
  pcap : Nat := 2400
  deriving DecidableEq, Repr

/-- The counter block of a C-die (R306). -/
structure Traffic where
  ctrs : Vector (BitVec 64) 10 := Vector.replicate 10 0
  frozen : Bool := false
  deriving DecidableEq, Repr

/-! ## Requests in progress, agents and the agenda -/

/-- Where a request of a block-ending form or of the access stream stands: to be performed; at the bank unit of a
core; waiting for its promotion reply; on the fault path; at a peer; refused with
a fault; its value there. -/
inductive ReqState where
  | start
  | message (core : Nat)
  | promotion
  | promoted
  | faultPath (serial : Nat)
  | remote (ref : Nat)
  | failed (t : TrapInfo)
  | value (data : Nat) (flags : Nat)
  deriving DecidableEq, Repr

/-- Where a piece of an access goes. -/
inductive Loc where
  | frame (pa : Nat)
  | peer (peer pa hd : Nat) (ro : Bool)
  | bell (off : Nat)
  | aperture (i off : Nat)
  deriving DecidableEq, Repr

/-- A piece of an access, within one page or one aperture: its address, its first byte and length, and its place. -/
structure Piece where
  va  : Nat
  off : Nat
  len : Nat
  loc : Loc
  deriving DecidableEq, Repr

/-- A request: who issued it, the word and its address, the operands read at issue, its state; `place` is the
load-queue entry's tag for a `fetch`; `locs` holds the pieces still to be accessed once the access is translated (R400),
`got` the bytes gathered so far; it is performed or sent only after the writes of its core's path numbered below `upto`
that are its own stream's or numbered below `acq` (R319, R322). -/
structure Req where
  tag : Nat
  h : Nat
  k : Nat
  pc : BitVec 64
  word : Instr
  ea : Nat
  x : Nat
  cmp : Nat
  handle : Nat
  mask : Nat
  dest : Nat
  st : ReqState
  place : Nat := 0
  got : Nat := 0
  flags : Nat := 0
  upto : Nat := 0
  acq : Nat := 0
  locs : Option (List Piece) := none
  /-- A shoot-down has reached a page that it is still to access: it is made again from its start (R391). -/
  restart : Bool := false
  /-- The request is an instruction fetch from a peer page. -/
  isFetch : Bool := false
  deriving DecidableEq, Repr

/-- The agent that the step performs. -/
inductive Agent where
  | none
  | strand (h k : Nat)
  | engine (h q : Nat)
  deriving DecidableEq, Repr

/-- The occurrences that the step schedules by itself: the units' own events, each under the name of its constructor of
`Instr`, whose meaning it has. -/
inductive Ev where
  | resultLands (h k : Nat)
  | localStorePerform (h k : Nat)
  | postedStorePerform (core n : Nat)
  | blockEndReply (h k : Nat)
  /-- No constructor of Instr: the requests of stream k at its own window's banks are served (R212). -/
  | bankReply (h k : Nat)
  | fetchDataArrival (h q : Nat)
  | waitConditionMet (h k : Nat)
  | headConditionMet (h k : Nat)
  | clusterTimeSlice (core k : Nat)
  | asyncEventDelivery (h : Nat)
  | teamRetire (h : Nat)
  | launchFail (l : Nat)
  | granuleDrowsy (h g : Nat)
  | swap (h : Nat)
  | teamRequeue (h : Nat)
  | teamRestore (h : Nat)
  | priorityAging (core l : Nat)
  | engineCmdStart (h q : Nat)
  | engineCmdComplete (h q : Nat)
  | heldTileReady (h t : Nat)
  | bankJoin (core : Nat)
  | fixupReplay (h q : Nat)
  | launchDoorbell (ctx q : Nat) (v : Word)
  | launchAccept (ctx q : Nat)
  | taskReady (l t : Nat)
  | teamDispatch (core l : Nat)
  | translationWalk (ctx va : Nat)
  | faultReply (ctx : Nat) (v : Word)
  | shootdownStart (ctx : Nat)
  | shootdownDone (ctx : Nat)
  | contextSave (ctx : Nat)
  | contextRestore (ctx : Nat)
  | contextSaveDone (ctx : Nat)
  | contextRestoreDone (ctx : Nat)
  | promotionRequest (core n : Nat)
  | flushStart (core : Nat)
  | flushLocalPhaseEnd (core : Nat)
  | flushRemotePhaseEnd (core : Nat)
  | taggedWriteApply (core n : Nat)
  | clockMarkerApply (die n : Nat)
  | remoteSpAccess (core n : Nat)
  | sigAddRArrive (core n : Nat)
  | granuleFillDone (h g : Nat)
  | tileClaim (n : Nat)
  | claimRestart (n : Nat)
  | reencodeTagWrite (n : Nat)
  | sextantStepRequest (ctx : Nat) (v : Word)
  | sextantStepApply (ctx : Nat)
  | redUpdateArrive (die n : Nat)
  | redMarkerArrive (die n : Nat)
  | redRetry (die n : Nat)
  | packetHop (n : Nat)
  /-- No constructor of Instr: a packet that a router has sent leaves by its link. -/
  | packetLeave (n : Nat)
  | courseFaultReturn (n : SentCopy) (cause hop : Nat)
  | requestTimeout (n : Nat)
  | dupReplyExpiry (n : Nat)
  | courseTableReread (ctx : Nat) (v : Word)
  /-- No constructor of Instr: FAILED and CAUSE of a peer's entry are written back. -/
  | courseWriteBack (ctx peer : Nat)
  | chartInstall
  | exportLoad
  | migrationStart
  | migrationSwitch (ok : Bool)
  | movedResend (n : Nat)
  | meridianTick
  | alignMessageSend
  | alignTimeout
  | barrierPhaseComplete (h b : Nat)
  | digestRequest (ctx : Nat) (v : Word)
  | digestApply (ctx : Nat)
  | contextCreate (c : Nat)
  | contextDestroy (c : Nat)
  | contextOpDone
  | debugStop (ctx : Nat)
  | debugTeamStopped (ctx : Nat)
  | debugRelease (ctx : Nat)
  | debugRead (ctx : Nat)
  | debugWrite (ctx : Nat)
  | ueSqDoorbell (k : Nat) (v : Word)
  | corePowerGate (core : Nat)
  | coreWake (core : Nat)
  | ueCompletionTimeout (k : Nat)
  | collectiveDataArrive (h : Nat) (rank : FromRank) (data : List Byte) (digest : Nat)
  | faultQueueHeadAdvance (ctx : Nat) (v : BitVec 32)
  | counterClear (die : Nat)
  | counterFreeze (die : Nat) (on : Bool)
  | packageReset
  deriving DecidableEq, Repr

/-- An occurrence of a cycle: a strand or access stream presents its next word; a sync group; a core's issue phase;
an engine performs its command in progress; an event of a unit; an event from outside. -/
inductive Occ where
  | issue (h k : Nat)
  | group (h : Nat) (ks : List Nat)
  | cluster (core k : Nat)
  | engine (h q : Nat)
  | ev (e : Ev)
  | event (i : Instr)
  deriving DecidableEq, Repr

/-- An occurrence from outside, with the cycle at or after which it comes. -/
structure Input where
  cycle : Nat
  event : Instr
  deriving DecidableEq, Repr

/-- The machine. The last six fields are the model's own (log entries 2 and 5). -/
structure State where
  cycle : Nat
  meridian : Nat
  merPhase : Nat
  /-- Ticks for which MERIDIAN does not count (R436). -/
  merHold : Nat
  aligned : Bool
  root : Bool
  lastAlign : Nat
  hbm : Mem
  pkg : PkgCtl
  gliem : GliemCtl
  chart : Option Chart
  exports : List Export
  traffic : Vector Traffic 4
  clocks : Vector (Vector (BitVec 16) 4) 4
  applied : Vector (Vector (BitVec 16) 4) 8
  markers : List Marker
  redRegions : List RedRegion
  redMsgs : List (Nat × RedMsg)
  nextMsg : Nat
  claims : List (Nat × Claim)
  collectives : List CollData
  errors : List ErrEntry
  errOver : Vector (BitVec 64) 8
  peerLines : List PeerLine
  migCounts : List MigCount
  moved : List Moved
  fabric : Fabric
  errCounts : List (Resource × List Nat)
  retired : List Resource
  interrupts : List Nat
  /-- Frames whose retirement has been reported to the host complex (R446). -/
  frameReports : List Nat
  /-- Addresses of host cores' accesses that returned an access fault (R479). -/
  hostFaults : List Nat
  binnacle : Binnacle
  ue : List (Nat × UeQp)
  enableMap : BitVec 608
  contexts : List (Nat × Context)
  /-- Contexts that do not exist: their control and debug blocks only (R402, R484). -/
  parked : List (Nat × Context)
  cores : List (Nat × Core)
  teams : List (Nat × Team)
  launches : List (Nat × Launch)
  nextLaunch : Nat
  reqs : List (Nat × Req)
  cur : Agent
  agenda : List Occ
  inputs : List Input
  fresh : Nat
  nextReq : Nat
  tagOf : List (Nat × Vector (BitVec 16) 4)
  deriving DecidableEq, Repr

/-- The machine right after package reset (R64; the values the spec leaves open are log entry 6's). -/
def State.reset : State where
  cycle := 0
  meridian := 0
  merPhase := 0
  merHold := 0
  aligned := false
  root := false
  lastAlign := 0
  hbm := []
  pkg := {}
  gliem := {}
  chart := none
  exports := []
  traffic := Vector.replicate 4 {}
  clocks := Vector.replicate 4 (Vector.replicate 4 0)
  applied := Vector.replicate 8 (Vector.replicate 4 0)
  markers := []
  redRegions := []
  redMsgs := []
  nextMsg := 0
  claims := []
  collectives := []
  errors := []
  errOver := Vector.replicate 8 0
  peerLines := []
  migCounts := []
  moved := []
  fabric := {}
  errCounts := []
  retired := []
  interrupts := []
  frameReports := []
  hostFaults := []
  binnacle := {}
  ue := []
  enableMap := 0
  contexts := []
  parked := []
  cores := []
  teams := []
  launches := []
  nextLaunch := 0
  reqs := []
  cur := .none
  agenda := []
  inputs := []
  fresh := 0
  nextReq := 0
  tagOf := []

end Sys2Proof.Machine
end

