-- ==== Sys2Proof/Machine/Ops.lean ====
section
/-! DEFINITION. The named operations over memory, tables, registers and teams; landing of results; the taking of a trap,
its halts, and the return from one. Every family of instructions is written over these. -/

namespace Sys2Proof.Machine

open Sys2Proof

/-! ## Memory -/

/-- A byte of a memory; an unlisted address reads 0 (log entry 1). -/
def Mem.get : Mem → Nat → Byte
  | [], _ => 0
  | (a, b) :: r, x => if x = a then b else if x < a then 0 else Mem.get r x

/-- Writes a byte and keeps the canonical form: writing 0 removes the entry. -/
def Mem.set : Mem → Nat → Byte → Mem
  | [], x, v => if v = 0 then [] else [(x, v)]
  | (a, b) :: r, x, v =>
    if x < a then (if v = 0 then (a, b) :: r else (x, v) :: (a, b) :: r)
    else if x = a then (if v = 0 then r else (x, v) :: r)
    else (a, b) :: Mem.set r x v

/-- The canonical form: addresses strictly rising, no entry 0. -/
def Mem.wfFrom : Nat → Mem → Bool
  | _, [] => true
  | lo, (a, b) :: r => lo ≤ a && b ≠ 0 && Mem.wfFrom (a + 1) r

def Mem.wf (m : Mem) : Bool := Mem.wfFrom 0 m

/-- n bytes from an address as a little-endian number (R7). -/
def Mem.readN (m : Mem) (a : Nat) : Nat → Nat
  | 0 => 0
  | n + 1 => (Mem.get m a).toNat + 256 * Mem.readN m (a + 1) n

/-- Writes the bytes of `v` from address `a` whose mask bit is 1. -/
def Mem.writeN (m : Mem) (a v mask : Nat) : Nat → Mem
  | 0 => m
  | n + 1 =>
    let m' := if mask % 2 = 1 then Mem.set m a (BitVec.ofNat 8 v) else m
    Mem.writeN m' (a + 1) (v >>> 8) (mask >>> 1) n

/-- Writes n bytes of `v`. -/
def Mem.write (m : Mem) (a v n : Nat) : Mem := Mem.writeN m a v (ones n) n

/-- Bytes as a list. -/
def Mem.bytes (m : Mem) (a n : Nat) : List Byte := (List.range n).map fun i => Mem.get m (a + i)

/-- Writes a list of bytes. -/
def Mem.writeBytes (m : Mem) (a : Nat) : List Byte → Mem
  | [] => m
  | b :: r => Mem.writeBytes (Mem.set m a b) (a + 1) r

/-! ## Tables: association lists with rising keys -/

def tget {α : Type} : List (Nat × α) → Nat → Option α
  | [], _ => none
  | (k, v) :: r, x => if k = x then some v else tget r x

def tput {α : Type} : List (Nat × α) → Nat → α → List (Nat × α)
  | [], x, v => [(x, v)]
  | (k, w) :: r, x, v =>
    if x < k then (x, v) :: (k, w) :: r
    else if k = x then (x, v) :: r
    else (k, w) :: tput r x v

def tdel {α : Type} (t : List (Nat × α)) (x : Nat) : List (Nat × α) := t.filter fun e => e.1 ≠ x

/-- An element of a fixed file; the default out of range, which no well-formed word reaches. -/
def vget {α : Type} {n : Nat} (v : Vector α n) (i : Nat) (d : α) : α := if h : i < n then v[i] else d

def vset {α : Type} {n : Nat} (v : Vector α n) (i : Nat) (x : α) : Vector α n :=
  if h : i < n then v.set i x else v

/-! ## The parts of the state -/

def State.team? (s : State) (h : Nat) : Option Team := tget s.teams h

def State.setTeam (s : State) (h : Nat) (t : Team) : State := { s with teams := tput s.teams h t }

def State.delTeam (s : State) (h : Nat) : State := { s with teams := tdel s.teams h }

def State.core (s : State) (c : Nat) : Core := (tget s.cores c).getD {}

def State.setCore (s : State) (c : Nat) (x : Core) : State := { s with cores := tput s.cores c x }

def State.ctx? (s : State) (c : Nat) : Option Context := tget s.contexts c

def State.setCtx (s : State) (c : Nat) (x : Context) : State := { s with contexts := tput s.contexts c x }

def State.launch? (s : State) (l : Nat) : Option Launch := tget s.launches l

def State.setLaunch (s : State) (l : Nat) (x : Launch) : State := { s with launches := tput s.launches l x }

def State.req? (s : State) (n : Nat) : Option Req := tget s.reqs n

def State.setReq (s : State) (n : Nat) (r : Req) : State := { s with reqs := tput s.reqs n r }

def State.delReq (s : State) (n : Nat) : State := { s with reqs := tdel s.reqs n }

/-- Puts occurrences at the end of the cycle's agenda. -/
def State.later (s : State) (l : List Occ) : State := { s with agenda := s.agenda ++ l }

/-- A free choice (R14), and the counter advanced (log entry 5). -/
def State.choose (s : State) : Bool × State := (Config.freeBit s.fresh, { s with fresh := s.fresh + 1 })

/-- Whether an occurrence of unfixed time waits for a later cycle (log entry 2). -/
def State.holdBack (s : State) : Bool × State := (Config.freeHold s.fresh, { s with fresh := s.fresh + 1 })

/-- Fields of a handle (R26). -/
def handleCtx (h : Nat) : Nat := bits h 26 6
def handleCore (h : Nat) : Nat := bits h 16 10
def handleSerial (h : Nat) : Nat := bits h 0 16
def mkHandle (ctx core serial : Nat) : Nat := (ctx <<< 26) ||| (core <<< 16) ||| (serial % 65536)

/-- The C-die and the quadrant of a core (R18). -/
def dieOf (core : Nat) : Nat := core / 144
def quadOf (core : Nat) : Nat := core / 36

/-- The C-die and the M-die that home a local frame address (R302). -/
def homeDie (pa : Nat) : Nat := bits pa 37 2
def homeMdie (pa : Nat) : Nat := 2 * bits pa 37 2 + bits pa 8 1

def Team.core (t : Team) : Nat := handleCore t.handle
def Team.ctx (t : Team) : Nat := handleCtx t.handle

/-- Strand 0–3, or the access stream for any other number. -/
def Strands.get (ss : Strands) (k : Nat) : Strand :=
  match k with
  | 0 => ss.s0
  | 1 => ss.s1
  | 2 => ss.s2
  | 3 => ss.s3
  | _ => ss.acc

def Strands.put (ss : Strands) (k : Nat) (x : Strand) : Strands :=
  match k with
  | 0 => { ss with s0 := x }
  | 1 => { ss with s1 := x }
  | 2 => { ss with s2 := x }
  | 3 => { ss with s3 := x }
  | _ => { ss with acc := x }

def Team.strand (t : Team) (k : Nat) : Strand := t.strands.get k

def Team.setStrand (t : Team) (k : Nat) (x : Strand) : Team := { t with strands := t.strands.put k x }

def Team.queue (t : Team) (q : Nat) : EngQ :=
  match q with
  | 0 => t.q0
  | 1 => t.q1
  | _ => t.q2

def Team.setQueue (t : Team) (q : Nat) (x : EngQ) : Team :=
  match q with
  | 0 => { t with q0 := x }
  | 1 => { t with q1 := x }
  | _ => { t with q2 := x }

/-- Indices of the live strands, ascending. -/
def Team.liveStrands (t : Team) : List Nat := (List.range 4).filter fun k => (t.strand k).live

/-- The lowest-numbered live strand, or strand 0 (R169). -/
def Team.lowest (t : Team) : Nat := (t.liveStrands.head?).getD 0

/-- Every strand has stopped being live: drain-only mode of the access stream (R156). -/
def Team.drainOnly (t : Team) : Bool := t.liveStrands.isEmpty

/-- The team stands in a slot (R27: swapped, saved and lingering teams are named by their handles too). -/
def Team.resident (t : Team) : Bool :=
  match t.place with
  | .slot _ => true
  | .tail => true
  | _ => false

def Team.window (t : Team) (b : Buf) : Mem :=
  match b with
  | .wb => t.wb
  | .ab => t.ab
  | .cb => t.cb
  | .sp => t.sp

def Team.setWindow (t : Team) (b : Buf) (m : Mem) : Team :=
  match b with
  | .wb => { t with wb := m }
  | .ab => { t with ab := m }
  | .cb => { t with cb := m }
  | .sp => { t with sp := m }

/-- Window size in granules (R51). -/
def Team.granules (t : Team) (b : Buf) : Nat :=
  match b with
  | .wb => t.wbg
  | .ab => t.abg
  | .cb => t.cbg
  | .sp => t.spg

def Team.windowSize (t : Team) (b : Buf) : Nat := 4096 * t.granules b

/-- The buffer of a SPACE code 1–4 (R84). -/
def bufOfSpace (sp : Nat) : Buf := if sp = 2 then .wb else if sp = 3 then .ab else if sp = 4 then .cb else .sp

def spaceOfBuf : Buf → Nat
  | .sp => 1
  | .wb => 2
  | .ab => 3
  | .cb => 4

/-- The buffer of a tile's BUF field (R58). -/
def bufOfTile (b : Nat) : Buf := if b = 0 then .wb else if b = 1 then .ab else if b = 2 then .cb else .sp

/-- The launch that a team came from. -/
def State.launchOf (s : State) (t : Team) : Option Launch := s.launch? t.launch

/-! ## Map-unit granules of the SP window (R291–R294) -/

/-- The map entry of an SP granule. -/
def Team.mapOf (t : Team) (g : Nat) : Option MapEntry := t.maps.find? fun e => e.spg0 ≤ g && g < e.spg0 + e.ng

/-- The units of a byte range, `size` bytes each, that hold a byte that the mask enables. -/
def enabledUnits (size off len mask : Nat) : List Nat :=
  ((List.range ((off + len - 1) / size + 1 - off / size)).map (· + off / size)).filter fun g =>
    let a := max off (size * g)
    decide (bits mask (a - off) (min (off + len) (size * g + size) - a) ≠ 0)

/-- The first granule of a byte range of SP, among those with an enabled byte, whose present bit is 0 (R292). -/
def Team.missing (t : Team) (off len mask : Nat) : Option Nat :=
  (enabledUnits 4096 off len mask).find? fun g => (t.mapOf g).isSome && !t.present.contains g

/-- Starts the fill of a granule, unless it is in progress: accesses share one fill (R293, R294). -/
def Team.startFill (t : Team) (g : Nat) : Team :=
  if t.fills.any fun f => f.granule = g then t else { t with fills := t.fills ++ [{ granule := g }] }

/-- Marks the granules dirty of which a write stores a byte (R292). -/
def Team.touchDirty (t : Team) (off len mask : Nat) : Team :=
  let gs := (enabledUnits 4096 off len mask).filter fun g => (t.mapOf g).isSome && !t.dirty.contains g
  if gs.isEmpty then t else { t with dirty := t.dirty ++ gs }

/-- Remembers the words that a write of this cycle changes as they stood at its start (R219). -/
def Team.noteWords (t : Team) (off len mask : Nat) : Team :=
  let ws := (enabledUnits 8 off len mask).filter fun w => !t.spBusy.any fun e => e.1 = w
  { t with spBusy := t.spBusy ++ ws.map fun w => (w, Mem.readN t.sp (8 * w) 8) }

/-- A write of window bytes by any observer but a fill. -/
def Team.writeWindow (t : Team) (b : Buf) (off v mask n : Nat) : Team :=
  match b with
  | .sp =>
    if n = 0 then t
    else
      let t := (t.noteWords off n mask).touchDirty off n mask
      { t with sp := Mem.writeN t.sp off v mask n }
  | _ => t.setWindow b (Mem.writeN (t.window b) off v mask n)

/-- A read of window bytes. -/
def Team.readWindow (t : Team) (b : Buf) (off n : Nat) : Nat := Mem.readN (t.window b) off n

/-- Whether SP word `k` is full (R61). -/
def Team.isFull (t : Team) (k : Nat) : Bool := Mem.get t.fe k ≠ 0

/-- Sets `n` full/empty bits from word `k`. -/
def Team.setFull (t : Team) (k n : Nat) (full : Bool) : Team :=
  { t with fe := (List.range n).foldl (fun m i => Mem.set m (k + i) (if full then 1 else 0)) t.fe }

/-! ## Views and specifiers (R34–R39) -/

/-- The view register that a specifier's view number selects (R83). -/
def Team.view (t : Team) (v : Nat) : BitVec 64 :=
  match v with
  | 0 => t.vs
  | 1 => t.vv
  | 2 => t.va
  | _ => t.vm

/-- Register size of a view in bytes; also its base alignment (R35). -/
def viewSize (v : Nat) : Nat :=
  match v with
  | 0 => 8
  | 1 => 128
  | 2 => 512
  | _ => 1024

/-- Maximum COUNT of a view (R35). -/
def viewMax (v : Nat) : Nat :=
  match v with
  | 0 => 64
  | 1 => 56
  | _ => 16

/-- Byte offset of the register a specifier names (R36). -/
def Team.regOff (t : Team) (spec : BitVec 8) : Nat :=
  bits (t.view (specView spec)).toNat 0 16 + specIndex spec * viewSize (specView spec)

/-- A vector specifier that names a queue or `vz` (R38). -/
def isQueueSpec (spec : BitVec 8) : Bool := specView spec = 1 && 56 ≤ specIndex spec

/-- R37: whether a specifier of a group of n fails its bounds. -/
def Team.specBad (t : Team) (spec : BitVec 8) (n : Nat) : Bool :=
  let v := specView spec
  let i := specIndex spec
  let base := bits (t.view v).toNat 0 16
  let count := bits (t.view v).toNat 16 7
  !isQueueSpec spec &&
  (base % viewSize v ≠ 0 || i % n ≠ 0 || count ≤ i + n - 1 || t.regsz * 4096 < base + (i + n) * viewSize v)

/-- A scalar register. -/
def Team.scalar (t : Team) (spec : BitVec 8) : BitVec 64 := BitVec.ofNat 64 (Mem.readN t.regs (t.regOff spec) 8)

/-- The scalar register j places after the one a specifier names. -/
def Team.scalarAt (t : Team) (spec : BitVec 8) (j : Nat) : BitVec 64 :=
  BitVec.ofNat 64 (Mem.readN t.regs (t.regOff spec + 8 * j) 8)

/-- A vector register, or `vz`; a pop is the caller's (R38). -/
def Team.vector (t : Team) (spec : BitVec 8) (n : Nat) : Nat :=
  if isQueueSpec spec then 0 else Mem.readN t.regs (t.regOff spec) (128 * n)

/-- Predicate n: p0 reads as all ones (R44). -/
def Strand.pred (x : Strand) (n : Nat) : PredBits := if n = 0 then BitVec.allOnes 128 else vget x.preds (n - 1) 0

/-- A write to p0 is discarded (R44). -/
def Strand.setPred (x : Strand) (n : Nat) (v : PredBits) : Strand :=
  if n = 0 then x else { x with preds := vset x.preds (n - 1) v }

/-- The gate of a word: predicate or its complement (R139, R172). -/
def Strand.gate (x : Strand) (p : BitVec 3) (pn : Bool) : PredBits :=
  if pn then ~~~(x.pred p.toNat) else x.pred p.toNat

/-! ## FLAGS and signal slots -/

/-- Sets FLAGS bits (R49, R50). -/
def Team.raise (t : Team) (f : BitVec 64) : Team :=
  { t with flags := t.flags ||| (f &&& 0x3FF), flagNow := t.flagNow ||| (f &&& 0x3FF) }

/-- A W1C write of FLAGS: a bit set in the same cycle stays 1 (R50). -/
def Team.clearFlags (t : Team) (v : BitVec 64) : Team :=
  { t with flags := t.flags &&& (~~~v ||| t.flagNow) }

/-- Units of a slot already granted in this cycle (R154). -/
def Team.taken (t : Team) (n : Nat) : Nat :=
  (t.slotNow.filter fun c => match c with | .dec m => m = n | _ => false).length

/-- Units a consumer may still take in this cycle: the value at its start less those granted (R55, R154). -/
def Team.available (t : Team) (n : Nat) : Nat := (vget t.slots n 0).toNat - t.taken n

/-- A change that takes effect at the end of this cycle. -/
def Team.slotChange (t : Team) (c : SlotChange) : Team := { t with slotNow := t.slotNow ++ [c] }

/-- The new value of a slot after a cycle's changes, and whether an increment was held at the top (R55, R242). Of two
`sig.set` of one slot in one cycle the one issued last stands (log entry 86). -/
def slotAfter (v n : Nat) (cs : List SlotChange) : Nat × Bool :=
  let puts := cs.filterMap fun c => match c with | .put m x => if m = n then some x else none | _ => none
  match puts.getLast? with
  | some x => (x, false)
  | none =>
    let adds := (cs.map fun c => match c with | .add m k => if m = n then k else 0 | _ => 0).foldl (· + ·) 0
    let decs := (cs.filter fun c => match c with | .dec m => m = n | _ => false).length
    let w := v + adds - decs
    if w > 0xFFFFFFFF then (0xFFFFFFFF, true) else (w, false)

/-- The end of a cycle for the slots: its changes are made, the next cycle's become current (R55, R242). -/
def Team.commitSlots (t : Team) : Team :=
  if t.slotNow.isEmpty then { t with slotNow := t.slotNext, slotNext := [] }
  else
    let touched := t.slotNow.map fun c => match c with | .add n _ => n | .dec n => n | .put n _ => n
    let (slots, ov) := touched.eraseDups.foldl (fun (p : Vector (BitVec 32) 64 × Bool) n =>
      let (w, o) := slotAfter (vget t.slots n 0).toNat n t.slotNow
      (vset p.1 n (BitVec.ofNat 32 w), p.2 || o)) (t.slots, false)
    let t := { t with slots := slots, slotNow := t.slotNext, slotNext := [] }
    if ov then t.raise (BitVec.ofNat 64 fSIGOV) else t

/-- Adds to a team counter (R307). -/
def Team.count (t : Team) (n k : Nat) : Team :=
  { t with ctrs := vset t.ctrs n (vget t.ctrs n 0 + BitVec.ofNat 64 k) }

/-! ## Control registers (R45, R158–R160) -/

/-- TEAMCTL (R48): LIVE is read from the strands. -/
def Team.teamctl (t : Team) : Nat :=
  let live := (List.range 4).foldl (fun acc k => acc + if (t.strand k).live then 2 ^ k else 0) 0
  (if t.scben then 1 else 0) + live * 4 + (t.pri % 4) * 64 + (t.regsz % 32) * 256

/-- BUFW (R51). -/
def Team.bufw (t : Team) : Nat :=
  t.wbg % 256 + (t.abg % 256) * 2 ^ 8 + (t.cbg % 256) * 2 ^ 16 + (t.spg % 256) * 2 ^ 24 + (t.ntiles % 128) * 2 ^ 32

/-- The value a read of control register n returns to stream k (R45, R47, R160). -/
def State.readCr (s : State) (t : Team) (k n : Nat) : BitVec 64 :=
  let x := t.strand k
  if n ≤ 3 then t.view n
  else if n = 0x04 then BitVec.ofNat 64 t.teamctl
  else if n = 0x05 then t.flags
  else if n = 0x06 then t.wid
  else if n = 0x07 then BitVec.ofNat 64 t.handle
  else if n = 0x08 then BitVec.ofNat 64 t.core
  else if n = 0x09 then BitVec.ofNat 64 (if k < 4 then k else 4)
  else if n = 0x0A then t.gen.zeroExtend 64
  else if n = 0x0B then t.lfsr.zeroExtend 64
  else if n = 0x0C then BitVec.ofNat 64 s.cycle
  else if n = 0x0D then BitVec.ofNat 64 s.meridian
  else if n = 0x0E then BitVec.ofNat 64 t.bufw
  else if n = 0x14 then x.cause
  else if n = 0x15 then x.info
  else if n = 0x16 then x.trappc
  else vget t.fds (n - 0x20) 0

/-- A view register's stored value: COUNT at most the maximum, reserved bits 0 (R34, R35). -/
def viewStored (v : Nat) (x : BitVec 64) : BitVec 64 :=
  BitVec.ofNat 64 (bits x.toNat 0 16 + min (bits x.toNat 16 7) (viewMax v) * 2 ^ 16)

/-- Stores the value x in control register n under its field rules (R159, R35, R48, R111, R124, R163, R164, R371);
FLAGS is W1C and is not written here. -/
def Team.storeCr (t : Team) (k n : Nat) (x : BitVec 64) : Team :=
  let sd := t.strand k
  if n = 0 then { t with vs := viewStored 0 x }
  else if n = 1 then { t with vv := viewStored 1 x }
  else if n = 2 then { t with va := viewStored 2 x }
  else if n = 3 then { t with vm := viewStored 3 x }
  else if n = 4 then { t with scben := x.getLsbD 0 }
  else if n = 0x0B then { t with lfsr := if x.setWidth 32 = 0 then 1 else x.setWidth 32 }
  else if n = 0x14 then t.setStrand k { sd with cause := (x &&& 0x1FFFFFFF) ||| (sd.cause &&& 0x60000000) }
  else if n = 0x15 then t.setStrand k { sd with info := x }
  else if n = 0x16 then t.setStrand k { sd with trappc := x &&& 0x00FFFFFFFFFFFFF8 }
  else if 0x20 ≤ n then
    { t with fds := vset t.fds (n - 0x20) (x &&& ~~~(BitVec.ofNat 64 fdReserved)),
             binds := vset t.binds (n - 0x20) none }
  else t

/-- The landing of a control-register write by form FN (R158–R160): `crs` and `crc` read the register now. -/
def State.landCr (s : State) (t : Team) (k n fn : Nat) (x : BitVec 64) : Team :=
  if n = 0x05 then t.clearFlags x
  else
    let old := s.readCr t k n
    t.storeCr k n (if fn = 2 then old ||| x else if fn = 3 then old &&& ~~~x else x)

/-! ## Landing of results (R73, R74, R140, R174) -/

/-- A local load's bytes: those of the newest covering entries of the strand's spill forwarding table, the rest from
the buffer (R297). -/
def forwardBytes (b : Buf) (off : Nat) (spills : List Spill) (v n : Nat) : Nat :=
  spills.foldl (fun acc e =>
    if e.buf = b then
      (List.range n).foldl (fun a i =>
        let p := off + i
        if e.off ≤ p && p < e.off + e.len && bit e.mask (p - e.off) then
          let cur := bits a (8 * i) 8
          a - cur * 2 ^ (8 * i) + bits e.data (8 * (p - e.off)) 8 * 2 ^ (8 * i)
        else a) acc
    else acc) v

/-- The value of a local load read now: width bytes, extended when the destination is wider (R208, R214). -/
def Team.localLoad (t : Team) (k : Nat) (r : LocalRead) (len : Nat) : Nat :=
  let raw := forwardBytes r.buf r.off (t.strand k).spills (t.readWindow r.buf r.off r.width) r.width
  if r.width = len then raw else extend r.sx (8 * r.width) raw

/-- A granule as it stands at a cycle: a wake that has ended leaves it awake (R42). -/
def Granule.seen (x : Granule) (cycle : Nat) : Granule :=
  match x.wakeAt with
  | some c => if c ≤ cycle then { touched := x.touched } else x
  | none => x

/-- A granule touched at a cycle: a drowsy one starts its wake, which ends 4 cycles later (R42). -/
def Granule.touch (x : Granule) (cycle : Nat) : Granule :=
  let x := x.seen cycle
  if x.drowsy && x.wakeAt.isNone then { x with touched := cycle, wakeAt := some (cycle + 4) } else { x with touched := cycle }

/-- Touches a granule of the allocation. -/
def Team.touchGranule (t : Team) (cycle g : Nat) : Team :=
  { t with grans := vset t.grans g ((vget t.grans g {}).touch cycle) }

/-- A write of register bytes; it touches their granules (R42). -/
def Team.writeRegs (t : Team) (cycle off v mask n : Nat) : Team :=
  let t := { t with regs := Mem.writeN t.regs off v mask n }
  (enabledUnits 4096 off n mask).foldl (fun t g => t.touchGranule cycle g) t

/-- One landing: the bytes, predicate, queue place or control register, and the FLAGS bits. -/
def State.land (s : State) (t : Team) (k : Nat) (f : Flight) : Team :=
  let t := t.raise f.flags
  match f.dest with
  | .reg off => t.writeRegs s.cycle off f.data f.mask f.len
  | .pred n =>
    let sd := t.strand k
    let keep := (sd.pred n).toNat &&& (ones 128 ^^^ f.mask)
    t.setStrand k (sd.setPred n (BitVec.ofNat 128 (keep ||| (f.data &&& f.mask))))
  | .push q num =>
    { t with sqs := vset t.sqs q ((vget t.sqs q []).map fun e =>
        if e.num = num then { e with data := some f.data } else e) }
  | .creg n fn => s.landCr t k n fn (BitVec.ofNat 64 f.data)

/-- Lands every result of a stream that is due at its strand time, in issue order (R74). -/
def State.landDue (s : State) (t : Team) (k : Nat) : Team :=
  let now := (t.strand k).time
  let due := (t.strand k).flights.filter fun f => f.land ≤ now
  let sd := t.strand k
  let t := t.setStrand k { sd with flights := sd.flights.filter fun f => now < f.land }
  due.foldl (fun t f => s.land t k f) t

/-- Performs one local store (R208, R298); the releases that it completes are to be logged (R332). -/
def Team.performSpill (t : Team) (e : Spill) : Team :=
  let t := t.writeWindow e.buf e.off e.data e.mask e.len
  if e.logs.isEmpty then t else { t with toLog := t.toLog ++ e.logs }

/-- Performs the local stores of a stream due at its strand time, in issue order, then the reads of its local loads
due (R208). -/
def Team.performLocal (t : Team) (k : Nat) : Team :=
  let now := (t.strand k).time
  let due := (t.strand k).spills.filter fun e => e.perform ≤ now
  let t := due.foldl Team.performSpill t
  let sd := t.strand k
  let t := t.setStrand k { sd with spills := sd.spills.filter fun e => now < e.perform }
  let fl := (t.strand k).flights.map fun f =>
    match f.src with
    | some r => if f.readAt ≠ 0 && f.readAt ≤ now then { f with readAt := 0, data := t.localLoad k r f.len } else f
    | none => f
  let sd := t.strand k
  t.setStrand k { sd with flights := fl }

/-- Performs every local store of a stream that is not yet performed (R298). -/
def Team.flushSpills (t : Team) (k : Nat) : Team :=
  let t := (t.strand k).spills.foldl Team.performSpill t
  t.setStrand k { t.strand k with spills := [] }

/-! ## Traps (R162–R169) -/

/-- TRAPCAUSE of a trap taken (R163). -/
def trapCause (x : TrapInfo) (dbl : Bool) : BitVec 64 :=
  BitVec.ofNat 64 (x.code % 256 + (x.reason % 256) * 2 ^ 8 + (x.spec % 256) * 2 ^ 16 + (x.pos % 4) * 2 ^ 24
    + (x.src % 4) * 2 ^ 26 + (if x.async then 2 ^ 28 else 0) + (if dbl then 2 ^ 29 else 0) + 2 ^ 30)

/-- INH of a strand (R163). -/
def Strand.inh (x : Strand) : Bool := x.cause.getLsbD 30

/-- TRAPPC's stored value (R164). -/
def trapPcBits (pc : BitVec 64) : BitVec 64 := pc &&& 0x00FFFFFFFFFFFFF8

/-- The trap registers of a strand after a trap (R165). -/
def Strand.trapRegs (x : Strand) (ti : TrapInfo) (pc : BitVec 64) : Strand :=
  { x with cause := trapCause ti x.inh, info := ti.info, trappc := trapPcBits pc }

/-- A strand's requests are dropped when its word is abandoned. -/
def State.dropReqs (s : State) (h k : Nat) : State :=
  { s with reqs := s.reqs.filter fun e => !(e.2.h = h && e.2.k = k && k < 4) }

/-- Halts a team (R169): it issues no further word; its local stores are performed (R298). -/
def Team.halt (t : Team) : Team :=
  (List.range 5).foldl Team.flushSpills { t with halted := true }

/-- The trap registers of strands 0 to 3, in order (R362). -/
def Team.trapWords (t : Team) : List (BitVec 64) :=
  (List.range 4).flatMap fun k => [(t.strand k).cause, (t.strand k).info, (t.strand k).trappc]

/-- The launch of a halted team fails; the first team halted is the one reported, with its strands' trap registers: those of
words of one sync group that trap with it too (R78, R362). -/
def State.failLaunch (s : State) (t : Team) : State :=
  match s.launch? t.launch with
  | some l =>
    match l.fate with
    | .running => s.setLaunch t.launch { l with fate := .failed t.handle t.task t.trapWords }
    | .failed h n _ => if h = t.handle then s.setLaunch t.launch { l with fate := .failed h n t.trapWords } else s
    | _ => s
  | none => s

def State.haltTeam (s : State) (h : Nat) : State :=
  match s.team? h with
  | none => s
  | some t => if t.halted then s.failLaunch t else (s.setTeam h t.halt).failLaunch t.halt

/-- TAKING A TRAP in strand k (R165, R169): the trap registers are written and INH set, DBL when INH was set
already; the next word is the one at the trap entry point, no earlier than the next strand time, unless the entry
point is 0 or a trap struck a handler, which halt the team. `pc` is what TRAPPC takes. The stall count of a word that traps
after its issue is dropped (log entry 95). -/
def State.takeTrap (s : State) (h k : Nat) (ti : TrapInfo) (pc : BitVec 64) : State :=
  match s.team? h with
  | none => s
  | some t =>
    let x := t.strand k
    let dbl := x.inh
    let x := { x.trapRegs ti pc with
      wait := .none, settle := false, ready := x.time + 1, advance := true, issued := .trapped ti pc, pc := t.trapEnt }
    let s := (s.setTeam h (t.setStrand k x)).dropReqs h k
    if dbl || t.trapEnt = 0 then s.haltTeam h else s

/-- A trap of an access-stream word (R169): the trap registers of the lowest-numbered live strand, or of strand 0,
take its values with SRC 1 and the access stream's PC, and the team halts. INH and DBL are set as for a trap of that strand
(log entry 95). -/
def State.accessTrap (s : State) (h : Nat) (ti : TrapInfo) : State :=
  match s.team? h with
  | none => s
  | some t =>
    let k := t.lowest
    let x := (t.strand k).trapRegs { ti with src := 1 } t.strands.acc.pc
    let acc := { t.strands.acc with issued := .trapped ti t.strands.acc.pc, wait := .none }
    (s.setTeam h { (t.setStrand k x).setStrand 4 acc with accStopped := true }).haltTeam h

/-- A precise trap of stream k's word at its PC. -/
def State.trapHere (s : State) (h k : Nat) (ti : TrapInfo) : State :=
  if k < 4 then
    match s.team? h with
    | some t => s.takeTrap h k ti (t.strand k).pc
    | none => s
  else s.accessTrap h ti

/-- RETURN FROM A TRAP (R167): with INH set, a branch to TRAPPC that clears INH in this cycle. -/
def Strand.trapReturn (x : Strand) : Strand :=
  { x with cause := x.cause &&& ~~~(0x40000000 : BitVec 64), pc := x.trappc }

/-- Posts an asynchronous event to a team (R168); with no live strand the team halts with it and its launch fails
(R278, R362). No strand is named for it there: strand 0's trap registers take it, with TRAPPC 0 (log entry 85). -/
def State.postEvent (s : State) (h : Nat) (ti : TrapInfo) (queue : Option Nat) : State :=
  match s.team? h with
  | none => s
  | some t =>
    if t.liveStrands.isEmpty then
      let x := (t.strand 0).trapRegs { ti with async := true } 0
      (s.setTeam h (t.setStrand 0 x)).haltTeam h
    else s.setTeam h { t with events := t.events ++ [⟨{ ti with async := true }, queue⟩] }

end Sys2Proof.Machine
end

