-- ==== Sys2Proof/Machine/Flags.lean ====
section
/-! DEFINITION. The flag computations of the scalar and integer forms (R106, R142, R49); those of the floating-point
forms and conversions come with their results from `Sys2Proof/Machine/Numbers.lean`. -/

namespace Sys2Proof.Machine

open Sys2Proof

/-- FLAGS bits as the register holds them (R49). -/
def flagBits (f : Nat) : BitVec 64 := BitVec.ofNat 64 f

/-- The saturating forms set ISAT when the exact result lies outside the type (R106). -/
def satFlags (sgn : Bool) (w : Nat) (i : Int) : Nat := (satInt sgn w i).2

/-- Division sets DZ when the divisor is 0, and nothing else (R142). -/
def divFlags (b : Int) : Nat := if b = 0 then fDZ else 0

/-- A read of an element in a block with scale 0xFF sets BNAN (R118). -/
def scaleFlags (s : Nat) : Nat := if s = 0xFF then fBNAN else 0

end Sys2Proof.Machine
end

