-- ==== Sys2Proof/Machine/Operands.lean ====
section
/-! DEFINITION. What a word names and the checks at issue (R89): specifiers with the bytes they read and write, the
scoreboard, the access stream's interlock, drowsy granules; then how a word issues, holds or traps, and the two
ways an instruction's meaning is run: a word by the strand or access stream in `cur`. -/

namespace Sys2Proof.Machine

open Sys2Proof

abbrev Out := Host.Outcome State Fault Refusal

/-- An operand: its position (0 D, 1 A, 2 B, 3 C), specifier, group size, and the masks of bytes read and written
from the group's first byte. -/
structure Opd where
  pos  : Nat
  spec : BitVec 8
  n    : Nat
  rd   : Nat
  wr   : Nat

/-- What a word uses: its operands, the predicates it reads, its latency, whether it holds a result in flight, the
descriptor, tile and scope entry it names; `narrow`: the descriptor must have KIND 1 (R197); `off`: the word is gated off
as a whole, and makes no access of its operands (R139, R207). -/
structure Uses where
  opds  : List Opd := []
  predR : List Nat := []
  lat   : Nat := 0
  holds : Bool := false
  fd    : Option Nat := none
  narrow : Bool := false
  tile  : Option Nat := none
  scope : Option Nat := none
  off   : Bool := false

/-- Bytes of a group. -/
def Opd.len (o : Opd) : Nat := o.n * viewSize (specView o.spec)

/-- The whole-group byte mask. -/
def Opd.full (spec : BitVec 8) (n : Nat) : Nat := ones (n * viewSize (specView spec))

/-- A source read whole. -/
def opdR (pos : Nat) (spec : BitVec 8) (n : Nat) : Opd := ⟨pos, spec, n, Opd.full spec n, 0⟩

/-- A source of which a form reads only some bytes of the group (R138). -/
def opdB (pos : Nat) (spec : BitVec 8) (n mask : Nat) : Opd := ⟨pos, spec, n, mask, 0⟩

/-- A destination written whole, when the gate admits it. -/
def opdW (pos : Nat) (spec : BitVec 8) (n : Nat) (on : Bool) : Opd :=
  ⟨pos, spec, n, 0, if on then Opd.full spec n else 0⟩

/-- The first operand that fails R37, in the order D, A, B, C (log entry 11). -/
def Team.boundsTrap (t : Team) (opds : List Opd) : Option TrapInfo :=
  (opds.find? fun o => t.specBad o.spec o.n).map fun o =>
    { code := 0x03, spec := o.spec.toNat, pos := o.pos }

/-- Whether scope entry n is valid for the team's launch (R22, R23). -/
def State.scopeValid (s : State) (t : Team) (n : Nat) : Bool :=
  n < 6 || match s.launchOf t with
    | some l => (match l.scopes[n - 6]? with
      | some e => e.valid
      | none => false)
    | none => false

/-- The results that R75 counts: all but control-register writes (log entry 7). -/
def Flight.counted (f : Flight) : Bool :=
  match f.dest with
  | .creg _ _ => false
  | _ => true

/-- Bytes of the allocation on which a result is in flight: as a bit set over offsets. -/
def Flight.bytesPending (f : Flight) : Nat :=
  match f.dest with
  | .reg off => f.mask <<< off
  | _ => 0

/-- The bytes on which stream j has a result pending; with `from_`, only those landing at or after that time. -/
def Team.pendingBytes (t : Team) (j : Nat) (after : Nat) : Nat :=
  (t.strand j).flights.foldl (fun acc f => if after ≤ f.land then acc ||| f.bytesPending else acc) 0

/-- The register bytes that a request of the access stream is to write (R82). -/
def Req.bytesPending (q : Req) : Nat :=
  match q.word with
  | .ld _ => ones 8 <<< q.dest
  | .ldwF _ => ones 8 <<< q.dest
  | .ldwFe _ => ones 8 <<< q.dest
  | .feGet _ => ones 8 <<< q.dest
  | _ => 0

/-- The register bytes on which results of the access stream of a team are pending: those in flight, and those of its
loads whose replies have not arrived (R82). -/
def State.accessPending (s : State) (t : Team) : Nat :=
  s.reqs.foldl (fun acc e => if e.2.h = t.handle && e.2.k = 4 then acc ||| e.2.bytesPending else acc) (t.pendingBytes 4 0)

/-- The scoreboard's bytes for a read by a strand: every stream's pending results (R80, R82). -/
def State.pendingAll (s : State) (t : Team) : Nat :=
  (List.range 4).foldl (fun acc j => acc ||| t.pendingBytes j 0) (s.accessPending t)

/-- The scoreboard's bytes for a write by strand k landing at `land`: its own results landing then or later, and
every result of another stream (R80). -/
def State.pendingWrite (s : State) (t : Team) (k land : Nat) : Nat :=
  (List.range 4).foldl (fun acc j => acc ||| t.pendingBytes j (if j = k then land else 0)) (s.accessPending t)

/-- R80: the register-pending trap of a strand's word: registers first, then the gate, then the predicates that the word
reads (log entry 73). A block-ending form counts as landing at once, for its landing time is not known at issue (log
entry 73). -/
def State.pendingTrap (s : State) (t : Team) (k : Nat) (u : Uses) : Option TrapInfo :=
  let rdBad := s.pendingAll t
  let wrBad := s.pendingWrite t k ((t.strand k).time + u.lat)
  match u.opds.find? fun o => !isQueueSpec o.spec &&
      ((o.rd <<< t.regOff o.spec) &&& rdBad ≠ 0 || (o.wr <<< t.regOff o.spec) &&& wrBad ≠ 0) with
  | some o => some { code := 0x08, spec := o.spec.toNat, pos := o.pos }
  | none =>
    (u.predR.find? fun n => n ≠ 0 && (t.strand k).flights.any fun f => f.dest = .pred n).map fun n =>
      { code := 0x08, info := BitVec.ofNat 64 (0x100 + n) }

/-- The checks of R89 after the illegal-instruction check, in order. -/
def State.check89 (s : State) (t : Team) (k : Nat) (m : Mods) (u : Uses) : Option TrapInfo :=
  match t.boundsTrap u.opds with
  | some x => some x
  | none =>
  match u.fd.filter fun n => !fdUsable (vget t.fds n 0).toNat with
  | some n => some { code := 0x04, info := BitVec.ofNat 64 n }
  | none =>
  match u.fd.filter fun n => u.narrow && (fdOf (vget t.fds n 0).toNat).kind ≠ 1 with
  | some n => some { code := 0x04, reason := 0x02, info := BitVec.ofNat 64 n }
  | none =>
  match u.tile.filter fun n => t.ntiles ≤ n with
  | some n => some { code := 0x05, info := BitVec.ofNat 64 n }
  | none =>
  match u.scope.filter fun n => !s.scopeValid t n with
  | some n => some { code := 0x06, info := BitVec.ofNat 64 n }
  | none =>
  if k < 4 && u.holds && 48 ≤ ((t.strand k).flights.filter Flight.counted).length then some { code := 0x07, info := 48 }
  else if k < 4 && t.scben && !m.old then s.pendingTrap t k u
  else none

/-- The access stream's interlock (R82): a scalar it reads has an access-stream result pending. -/
def State.interlocked (s : State) (t : Team) (u : Uses) : Bool :=
  u.opds.any fun o => (o.rd <<< t.regOff o.spec) &&& s.accessPending t ≠ 0

/-- Granules of the allocation that a word's operands touch (R42); a word gated off touches none (R139, R207). -/
def Team.touched (t : Team) (u : Uses) : List Nat :=
  if u.off then []
  else
  (u.opds.foldl (fun acc o =>
    if isQueueSpec o.spec || o.len = 0 then acc
    else
      let a := t.regOff o.spec / 4096
      let b := (t.regOff o.spec + o.len - 1) / 4096
      acc ++ (List.range (b + 1 - a)).map (· + a)) []).eraseDups

/-- Touches granules at a cycle; the second part says whether one is drowsy or still waking (R42). -/
def Team.wake (t : Team) (cycle : Nat) (gs : List Nat) : Team × Bool :=
  (gs.foldl (fun t g => t.touchGranule cycle g) t, gs.any fun g => ((vget t.grans g {}).seen cycle).drowsy)

/-! ## How a word issues -/

/-- A word at its issue: the machine, the team and stream that present it, and the team's state. -/
structure Here where
  s : State
  h : Nat
  k : Nat
  t : Team

def Here.sd (x : Here) : Strand := x.t.strand x.k

/-- This word's address. -/
def Here.pc (x : Here) : BitVec 64 := x.sd.pc

/-- The cycles, in strand time, until the next word may issue (R72). -/
def spacing (m : Mods) : Nat := 1 + (if m.ver then 2 * m.stall.toNat else m.stall.toNat)

/-- The word issues: its results take flight, the next word stands at `npc`, no earlier than the stall count lets it;
the team may have been changed by the word (R71–R75). -/
def Here.finish (x : Here) (m : Mods) (t : Team) (fl : List Flight) (npc : BitVec 64) : State :=
  let sd := t.strand x.k
  let sd := { sd with
    pc := npc, ready := sd.time + spacing m, advance := true, issued := .issued, settle := false, wait := .none,
    flights := sd.flights ++ fl }
  x.s.setTeam x.h ((t.setStrand x.k sd).count 1 1)

/-- The address of the next word, within 56 bits (R29). -/
def nextPc (pc : BitVec 64) : BitVec 64 := (pc + 8) &&& 0x00FFFFFFFFFFFFFF

/-- The word issues and goes on at the next word. -/
def Here.done (x : Here) (m : Mods) (t : Team) (fl : List Flight) : State := x.finish m t fl (nextPc x.pc)

/-- The word issues and ends its block: the strand waits on `w` with its results landing first (R153, R209). -/
def Here.wait (x : Here) (m : Mods) (t : Team) (w : Wait) : State :=
  let s := x.done m t []
  match s.team? x.h with
  | some t => s.setTeam x.h (t.setStrand x.k { t.strand x.k with wait := w, settle := true })
  | none => s

/-- The word does not issue: strand time stands still, the head condition is `w`, and the strand's local stores are
performed (R71, R155, R298). -/
def Here.hold (x : Here) (w : Wait) : State :=
  let t := x.t.flushSpills x.k
  let t := t.setStrand x.k { t.strand x.k with wait := w, advance := false, issued := .held }
  x.s.setTeam x.h t

/-- The word traps (R165, R169). -/
def Here.trap (x : Here) (ti : TrapInfo) : State := x.s.trapHere x.h x.k ti

/-- The same word with its team changed. -/
def Here.withTeam (x : Here) (t : Team) : Here := { x with t := t, s := x.s.setTeam x.h t }

/-- Runs a word by the agent in `cur`: the checks of R89 that follow decoding, the access stream's interlock, the
wake of drowsy granules, then the word's own part. -/
def issueWord (s : State) (m : Mods) (uses : Here → Uses) (body : Here → State) : Out :=
  match s.cur with
  | .strand h k =>
    match s.team? h with
    | none => .fault .noAgent
    | some t =>
      let x : Here := ⟨s, h, k, t⟩
      let u := uses x
      match s.check89 t k m u with
      | some ti => .next (x.trap ti)
      | none =>
        if 4 ≤ k && s.interlocked t u then .next (x.hold .none)
        else
          let (t', waking) := t.wake s.cycle (t.touched u)
          let x := x.withTeam t'
          if waking then .next (x.hold .none) else .next (body x)
  | _ => .fault .noAgent

/-- A result in flight, unless it writes no byte (R75). -/
def Flight.kept (f : Flight) : List Flight := if f.mask = 0 then [] else [f]

/-- A result for a scalar destination (R138). -/
def Here.flyScalar (x : Here) (spec : BitVec 8) (lat : Nat) (v flags : Nat) : Flight :=
  { land := x.sd.time + lat, dest := .reg (x.t.regOff spec), len := 8, data := v % 2 ^ 64, mask := 0xFF,
    flags := flagBits flags, src := none, readAt := 0 }

/-- A result for a predicate; `mask` the bits written (R44, R145). -/
def Here.flyPred (x : Here) (n lat v mask : Nat) (flags : Nat) : Flight :=
  { land := x.sd.time + lat, dest := .pred n, len := 16, data := v, mask := mask, flags := flagBits flags,
    src := none, readAt := 0 }

/-- Bit 0 of the gating predicate (R139). -/
def Here.gate0 (x : Here) (p : BitVec 3) (pn : Bool) : Bool := (x.sd.gate p pn).getLsbD 0

/-- The predicate a Reg or Mem word reads as its gate, when it is not p0. -/
def gateReads (p : BitVec 3) : List Nat := if p = 0 then [] else [p.toNat]

end Sys2Proof.Machine
end

