-- ==== Sys2Proof/Machine/VectorOps.lean ====
section
/-! DEFINITION. What vector words share (R171–R178): elements and their enables, queue operands (R31, R38, R157, R176),
draws (R178), and the shapes of vector words. -/

namespace Sys2Proof.Machine

open Sys2Proof

/-- Element width of a TYPE in bytes; 1 without a TYPE (R171). -/
def elemBytes (ty : BitVec 4) : Nat := if ty = 0 then 1 else typeBytes ty.toNat

/-- The gate bits of the elements of a word whose elements are w bytes wide, n of them (R172, R195). -/
def Here.enables (x : Here) (r : RegW) (w n : Nat) : List Bool :=
  let g := (x.sd.gate r.pred r.pn).toNat
  (List.range n).map fun i => bit g (i * w % 128)

/-- The load queue that a source specifier pops (R38). -/
def popOf (spec : BitVec 8) : Option Nat :=
  if specView spec = 1 && 56 ≤ specIndex spec && specIndex spec < 60 then some (specIndex spec - 56) else none

/-- The store queue that a destination specifier pushes to (R38). -/
def pushOf (spec : BitVec 8) : Option Nat :=
  if specView spec = 1 && 60 ≤ specIndex spec && specIndex spec < 62 then some (specIndex spec - 60) else none

/-- Entries of a load queue whose data has arrived, from the oldest (R222). -/
def filled (l : List LqEntry) : Nat := (l.takeWhile fun e => e.data.isSome).length

/-- Stream k acquires (R318): the writes of its core's path numbered below `num` may happen before what it does next. -/
def Team.acquired (t : Team) (k num : Nat) : Team := t.setStrand k { t.strand k with acqUpto := num }

/-- The access stream of a team acquires: it reads the bytes of the lines that are locked no more (R301, R321). -/
def Core.dropReader (c : Core) (h : Nat) : Core :=
  { c with cache := c.cache.map fun e => { e with readers := e.readers.erase h } }

/-- Stream k of a team acquires. -/
def State.acquires (s : State) (h k : Nat) : State :=
  match s.team? h with
  | none => s
  | some t =>
    let s := s.setTeam h (t.acquired k (s.core t.core).nextNum)
    if k < 4 then s else s.setCore t.core ((s.core t.core).dropReader h)

/-- Releases the locks that load-queue entries hold on lines of the core's access cache (R299). -/
def Core.unlock (c : Core) (lines : List (Option Nat × Nat)) : Core :=
  { c with cache := lines.foldl (fun l a =>
      l.map fun e => if (e.peer, e.line) = a then { e with locks := e.locks - 1 } else e) c.cache }

/-- Removes the n oldest entries of load queue q and releases their locks (R176, R299); a pop of an entry that a full/empty
acquire filled acquires with it (R328). -/
def Here.popEntries (x : Here) (q n : Nat) : Here :=
  let l := vget x.t.lqs q []
  let lines := (l.take n).flatMap fun e => e.lines
  let s := if lines.isEmpty then x.s else x.s.setCore x.t.core ((x.s.core x.t.core).unlock lines)
  let t := { x.t with lqs := vset x.t.lqs q (l.drop n) }
  let t := if (l.take n).any fun e => e.acquired then t.acquired x.k (x.s.core x.t.core).nextNum else t
  { x with s := s.setTeam x.h t, t := t }

/-- What happens at a pop of n entries of queue q that are not there: the access-exhausted trap once the access
stream has stopped (R157), else a hold (R31). -/
def Here.popMissing (x : Here) (q n : Nat) : State :=
  let l := vget x.t.lqs q []
  if x.t.accStopped && l.length < n then x.trap { code := 0x0C, info := BitVec.ofNat 64 q }
  else x.hold (.popEmpty q n)

/-- How many of the sources pop queue q. -/
def popCount (specs : List (BitVec 8)) (q : Nat) : Nat := (specs.filter fun d => popOf d = some q).length

/-- The first load queue that lacks the entries the sources pop. -/
def Here.lacking (x : Here) (specs : List (BitVec 8)) : Option Nat :=
  (List.range 4).find? fun q => filled (vget x.t.lqs q []) < popCount specs q

/-- A store queue without room for a push to `d` (R31). -/
def Here.noRoom (x : Here) (d : BitVec 8) : Option Nat :=
  (pushOf d).filter fun q => 16 ≤ (vget x.t.sqs q []).length

/-- The values of vector sources, pops in operand order from the oldest entry on (R38). -/
def Here.sourceValues (x : Here) (srcs : List (BitVec 8 × Nat)) : List Nat :=
  (srcs.zipIdx).map fun (p, j) =>
    match popOf p.1 with
    | some q =>
      let k := popCount ((srcs.take j).map (·.1)) q
      ((vget x.t.lqs q [])[k]?.bind (·.data)).getD 0
    | none => x.t.vector p.1 p.2

/-- Every pop of the sources made. -/
def Here.popAll (x : Here) (specs : List (BitVec 8)) : Here :=
  (List.range 4).foldl (fun x q => if popCount specs q = 0 then x else x.popEntries q (popCount specs q)) x

/-- Takes the vector sources of a word and a place for its push, or holds or traps (R31, R157, R176); `d` is the
destination that will be written, if any. -/
def Here.withSources (x : Here) (srcs : List (BitVec 8 × Nat)) (d : Option (BitVec 8))
    (k : Here → List Nat → State) : State :=
  match x.lacking (srcs.map (·.1)) with
  | some q => x.popMissing q (popCount (srcs.map (·.1)) q)
  | none =>
    match d.bind x.noRoom with
    | some q => x.hold (.pushFull q)
    | none => k (x.popAll (srcs.map (·.1))) (x.sourceValues srcs)

/-- A vector word holds a result in flight when it writes a byte, or pushes an entry (R75, R172, R176). -/
def vectorHolds (d : BitVec 8) (mask : Nat) : Bool := decide (mask ≠ 0) || (pushOf d).isSome

/-- A vector result of `len` bytes: in flight to a register group, unless it writes no byte (R75), or to a reserved place
of a store queue, where the bytes of disabled elements are 0 (R172, R176). -/
def Here.doneVector (x : Here) (m : Mods) (d : BitVec 8) (lat len v mask fl : Nat) : State :=
  let f : Flight :=
    { land := x.sd.time + lat, dest := .reg (x.t.regOff d), len := len, data := v, mask := mask,
      flags := flagBits fl, src := none, readAt := 0 }
  match pushOf d with
  | none => x.done m x.t f.kept
  | some q =>
    let l := vget x.t.sqs q []
    let place := vget x.t.pushes q 0 + 1
    let t := { x.t with
      sqs := vset x.t.sqs q (l ++ [{ num := place, data := none }]), pushes := vset x.t.pushes q place }
    let kept := ofElems 1 ((List.range len).map fun i => if bit mask i then elem 1 v i else 0)
    x.done m t [{ f with dest := .push q place, data := kept, mask := ones len }]

/-- Draws for the enabled elements of a stochastic word, in ascending order, the LFSR left after them (R178); a
disabled element gets no draw. -/
def drawsFor : List Bool → Nat → List Nat × Nat
  | [], l => ([], l)
  | true :: r, l =>
    let (ds, z) := drawsFor r (lfsrNext l)
    (lfsrNext l :: ds, z)
  | false :: r, l =>
    let (ds, z) := drawsFor r l
    (0 :: ds, z)

/-- The rounding modes of the elements under an opcode's mode: 0 RNE, 1 RTZ, 2 stochastic. -/
def Here.elementModes (x : Here) (mode : Nat) (en : List Bool) : List Mode × Here :=
  if mode = 2 then
    let (ds, z) := drawsFor en x.t.lfsr.toNat
    (ds.map .sto, x.withTeam { x.t with lfsr := BitVec.ofNat 32 z })
  else (en.map fun _ => if mode = 1 then .rtz else .rne, x)

/-- Results of the enabled elements: the packed value and the flags; a disabled element gives 0 and no flag. -/
def packElements (w : Nat) (l : List (Bool × Nat × Nat)) : Nat × Nat :=
  (ofElems w (l.map fun e => if e.1 then e.2.1 else 0), orAll (l.map fun e => if e.1 then e.2.2 else 0))

/-- A per-element form with element width w: vector sources `srcs` (position and specifier), scalar sources `scal` (with
the bytes read of each); `f` gives element i and its flags from the source registers (R172). -/
def perElement (r : RegW) (s : State) (srcs : List (Nat × BitVec 8)) (scal : List (Nat × BitVec 8 × Nat)) (w lat : Nat)
    (f : Here → List Nat → Nat → Nat × Nat) : Out :=
  issueWord s r.mods
    (fun x =>
      let srcOpds := srcs.map (fun p => opdR p.1 p.2 1) ++ scal.map fun p => opdB p.1 p.2.1 1 (ones p.2.2)
      let mask := elemMask w (x.enables r w (128 / w))
      { opds := ⟨0, r.d, 1, 0, mask⟩ ::
          (srcOpds.filter fun o => o.pos = 1) ++ (srcOpds.filter fun o => o.pos = 2) ++ (srcOpds.filter fun o => o.pos = 3),
        predR := gateReads r.pred, lat := lat, holds := vectorHolds r.d mask })
    fun x => x.withSources (srcs.map fun p => (p.2, 1)) (some r.d) fun x vs =>
      let en := x.enables r w (128 / w)
      let (v, fl) := packElements w (en.zipIdx.map fun e => (e.1, if e.1 then f x vs e.2 else (0, 0)))
      x.doneVector r.mods r.d lat 128 v (elemMask w en) fl

/-- A per-element form on elements of A, B and C. -/
def elementwise (r : RegW) (s : State) (nsrc w lat : Nat) (f : Nat → Nat → Nat → Nat × Nat) : Out :=
  perElement r s (([(1, r.a), (2, r.b), (3, r.c)] : List (Nat × BitVec 8)).take nsrc) [] w lat fun _ vs i =>
    f (elem w (vs.getD 0 0) i) (elem w (vs.getD 1 0) i) (elem w (vs.getD 2 0) i)

/-- A comparison of elements into a predicate (R181, R192): the bits of each enabled element become all ones or all
zeros. -/
def elementCompare (r : RegW) (s : State) (lat : Nat) (f : Nat → Nat → Bool × Nat) : Out :=
  let w := elemBytes r.ty
  issueWord s r.mods
    (fun x => { opds := [opdR 1 r.a 1, opdR 2 r.b 1], predR := gateReads r.pred, lat := lat,
                holds := decide (elemMask w (x.enables r w (128 / w)) ≠ 0) })
    fun x => x.withSources [(r.a, 1), (r.b, 1)] none fun x vs =>
      let en := x.enables r w (128 / w)
      let rs := en.zipIdx.map fun e => (e.1, f (elem w (vs.getD 0 0) e.2) (elem w (vs.getD 1 0) e.2))
      let v := elemMask w (rs.map fun e => e.1 && e.2.1)
      let fl := orAll (rs.map fun e => if e.1 then e.2.2 else 0)
      x.done r.mods x.t (x.flyPred r.d.toNat lat v (elemMask w en) fl).kept

/-- A whole-word form from a vector to a scalar (R173): pops are taken also when the gate is 0 (R176). -/
def vectorToScalar (r : RegW) (s : State) (scal : List (Nat × BitVec 8)) (lat : Nat)
    (f : Here → Nat → Nat × Nat) : Out :=
  issueWord s r.mods
    (fun x =>
      let on := x.gate0 r.pred r.pn
      { opds := opdW 0 r.d 1 on :: opdR 1 r.a 1 :: scal.map fun p => opdR p.1 p.2 1,
        predR := gateReads r.pred, lat := lat, holds := on, off := !on })
    fun x => x.withSources [(r.a, 1)] none fun x vs =>
      if x.gate0 r.pred r.pn then
        let (v, fl) := f x (vs.getD 0 0)
        x.done r.mods x.t [x.flyScalar r.d lat v fl]
      else x.done r.mods x.t []

end Sys2Proof.Machine
end

