-- ==== Sys2Proof/Machine/Quant.lean ====
section
/-! DEFINITION. Vector quantisation and dequantisation (R197–R199), the packing of narrow elements (R117), and the
statistics that a feeding conversion gathers (R371, R372). -/

namespace Sys2Proof.Machine

open Sys2Proof

/-! Statistics -/

/-- Adds to a 64-bit sum that stops at its top (R372). -/
def satAdd (a : BitVec 64) (n : Nat) : BitVec 64 := BitVec.ofNat 64 (min (2 ^ 64 - 1) (a.toNat + n))

/-- floor(65,536 × min(1, |x − q| / |x|)) for a finite x ≠ 0 (R372). -/
def errTerm (x q : Val) : Nat :=
  match x, x.add q.neg with
  | .fin _ m e, .fin _ dm de =>
    if m = 0 then 0
    else
      let u := min e de
      min 65536 (65536 * shl dm (de - u) / shl m (e - u))
  | _, _ => 65536

/-- One element x converted into q (R372). -/
def Stats.element (st : Stats) (nanBlock : Bool) (x : Val) (c : Conv) : Stats :=
  let st := { st with n := satAdd st.n 1 }
  if nanBlock then st
  else
    let st :=
      match x with
      | .fin _ m _ =>
        if m = 0 then st
        else
          { st with
            nz := satAdd st.nz 1, qerr := satAdd st.qerr (errTerm x c.q),
            ufn := if c.q.isZero && !c.clamped then satAdd st.ufn 1 else st.ufn }
      | _ => st
    if c.clamped then { st with satn := satAdd st.satn 1 } else st

/-- A converted block: its elements, then the raises of its scale, counted once (R372). -/
def Stats.block (st : Stats) (d : Fd) (xs : List Val) (b : BlockRes) : Stats :=
  let nb := d.bs ≠ 0 && b.scale = 0xFF
  let st := (xs.zip b.elems).foldl (fun st e => st.element nb e.1 e.2) st
  if nb || b.raises = 0 then st else { st with rscn := satAdd st.rscn b.raises }

/-- Feeds the set of descriptor n when it is bound (R371). -/
def Team.feed (t : Team) (n : Nat) (d : Fd) (l : List (List Val × BlockRes)) : Team :=
  match vget t.binds n none with
  | none => t
  | some _ => { t with stats := vset t.stats n (l.foldl (fun st e => st.block d e.1 e.2) (vget t.stats n {})) }

/-! Packing (R117) -/

/-- A bit string of codes of width w, lowest first. -/
def packCodes (w : Nat) (l : List Nat) : Nat := l.foldr (fun c acc => (acc <<< w) ||| (c % 2 ^ w)) 0

/-- The string of blocks: each block's codes, then its scale byte; without blocks, one run of codes. -/
def Fd.packBlocks (d : Fd) (l : List BlockRes) : Nat :=
  if d.bs = 0 then packCodes d.w (l.flatMap fun b => b.elems.map (·.code))
  else
    let bytes := d.block * d.w / 8
    (l.zipIdx).foldl (fun acc b =>
      acc ||| ((packCodes d.w (b.1.elems.map (·.code)) ||| (b.1.scale <<< (8 * bytes))) <<< (8 * (bytes + 1) * b.2))) 0

/-- Code and scale of element i of a packed string; scale 127 without blocks (R198). -/
def Fd.unpack (d : Fd) (x i : Nat) : Nat × Nat :=
  if d.bs = 0 then (bits x (i * d.w) d.w, 127)
  else
    let bytes := d.block * d.w / 8
    let base := 8 * (bytes + 1) * (i / d.block)
    (bits x (base + (i % d.block) * d.w) d.w, bits x (base + 8 * bytes) 8)

/-! The words -/

/-- Whether a block takes no draws: it holds a NaN or an infinity (R125). -/
def isNanBlock (d : Fd) (xs : List Val) : Bool :=
  d.bs ≠ 0 && xs.any fun x => match x with | .fin _ _ _ => false | _ => true

/-- Splits a list in pieces of n, `k` pieces. -/
def chunks {α : Type} (n : Nat) : Nat → List α → List (List α)
  | 0, _ => []
  | k + 1, l => l.take n :: chunks n k (l.drop n)

/-- Converts blocks in order, drawing from the LFSR in mode 2 (R125, R178). -/
def quantBlocks (d : Fd) (start : Option Nat) (mode : Nat) : List (List Val) → Nat → List (List Val × BlockRes) × Nat
  | [], l => ([], l)
  | xs :: r, l =>
    let (ds, l') := if mode = 2 && !isNanBlock d xs then lfsrDraws xs.length l else (List.replicate xs.length 0, l)
    let modes := modesOf (mode = 1) (if mode = 2 then some ds else none) xs.length
    let b := if d.bs = 0 then fixedScale d xs 127 modes else quantiseBlock d xs start modes
    let (bs, z) := quantBlocks d start mode r l'
    ((xs, b) :: bs, z)

/-- `vquant` with start given by the word (R197): a whole-word gate; a store-queue destination is pushed only when
the gate is on. -/
def quantWord (r : RegW) (s : State) (scal : List (Nat × BitVec 8)) (start : Here → Option Nat) : Out :=
  let n := r.fdn.toNat
  issueWord s r.mods
    (fun x =>
      let on := x.gate0 r.pred r.pn
      { opds := opdW 0 r.d 1 on :: opdR 1 r.a 2 :: scal.map fun p => opdR p.1 p.2 1,
        predR := gateReads r.pred, lat := 12, holds := on, fd := some n, narrow := true,
        off := !on })
    fun x =>
      if x.gate0 r.pred r.pn then
        x.withSources [(r.a, 2)] (some r.d) fun x vs =>
          let d := fdOf (vget x.t.fds n 0).toNat
          let xs := (elems 4 64 (vs.getD 0 0)).map fmtF32.value
          let size := if d.bs = 0 then 64 else d.block
          let (bs, z) := quantBlocks d (start x) (r.fn.toNat % 4) (chunks size (64 / size) xs) x.t.lfsr.toNat
          let t := { x.t with lfsr := if r.fn.toNat % 4 = 2 then BitVec.ofNat 32 z else x.t.lfsr }
          let x := x.withTeam (t.feed n d bs)
          x.doneVector r.mods r.d 12 128 (d.packBlocks (bs.map (·.2))) (ones 128) (orAll (bs.map fun b => b.2.flags))
      else x.done r.mods x.t []

def execVquant (r : RegW) (s : State) : Out := quantWord r s [] fun _ => none

/-- The starting scale is min(B mod 256, 254). -/
def execVquantStart (r : RegW) (s : State) : Out :=
  quantWord r s [(2, r.b)] fun x => some (min ((x.t.scalar r.b).toNat % 256) 254)

/-- `vdequant` into format f of n registers (R198); a pop is taken also when the gate is 0 (R176). -/
def dequantWord (r : RegW) (s : State) (f : Fmt) (n : Nat) : Out :=
  let fdn := r.fdn.toNat
  issueWord s r.mods
    (fun x =>
      let on := x.gate0 r.pred r.pn
      { opds := [opdW 0 r.d n on, opdR 1 r.a 1], predR := gateReads r.pred, lat := 6, holds := on,
        fd := some fdn, narrow := true, off := !on })
    fun x =>
      let on := x.gate0 r.pred r.pn
      x.withSources [(r.a, 1)] (if on then some r.d else none) fun x vs =>
        if on then
          let d := fdOf (vget x.t.fds fdn 0).toNat
          let es := (List.range 64).map fun i =>
            let (c, sc) := d.unpack (vs.getD 0 0) i
            dequantise d c sc f
          let v := ofElems (f.w / 8) (es.map (·.1))
          x.doneVector r.mods r.d 6 (128 * n) v (ones (128 * n)) (orAll (es.map (·.2)))
        else x.done r.mods x.t []

def execVdequantF32 (r : RegW) (s : State) : Out := dequantWord r s fmtF32 2
def execVdequantBf16 (r : RegW) (s : State) : Out := dequantWord r s fmtBf16 1

end Sys2Proof.Machine
end

