-- ==== Sys2Proof/Machine/Translate.lean ====
section
/-! DEFINITION. Page tables, translation and its faults (R387–R393, R480), the fault queue (R396, R397), and the places a
global access reaches. -/

namespace Sys2Proof.Machine

open Sys2Proof

def State.modTeam (s : State) (h : Nat) (f : Team → Team) : State :=
  match s.team? h with
  | some t => s.setTeam h (f t)
  | none => s

/-- Changes queue q of a team. -/
def State.modQueue (s : State) (h q : Nat) (f : EngQ → EngQ) : State := s.modTeam h fun t => t.setQueue q (f (t.queue q))

def State.modCore (s : State) (c : Nat) (f : Core → Core) : State := s.setCore c (f (s.core c))

def State.modCtx (s : State) (c : Nat) (f : Context → Context) : State :=
  match s.ctx? c with
  | some x => s.setCtx c (f x)
  | none => s

/-- The first physical address of device space (R302, R479). -/
def deviceBase : Nat := 2 ^ 39

/-- The physical address of a context's doorbell page (R479). -/
def doorbellPage (ctx : Nat) : Nat := deviceBase + 0x200000 + 0x1000 * ctx

/-- Kinds of access (R396): read, write, atomic, instruction fetch. -/
inductive Acc where
  | read | write | atomic | fetch
  deriving DecidableEq, Repr

def Acc.code : Acc → Nat
  | .read => 0
  | .write => 1
  | .atomic => 2
  | .fetch => 3

def Acc.writes : Acc → Bool
  | .write => true
  | .atomic => true
  | _ => false

/-! ## The walk -/

def pteValid (e : Nat) : Bool := bit e 0
def pteLeaf (e : Nat) : Bool := bit e 1
def pteW (e : Nat) : Bool := bit e 2
def pteX (e : Nat) : Bool := bit e 3
def pteSeal (e : Nat) : Bool := bit e 4
def pteCont (e : Nat) : Bool := bit e 5
def pteTrk (e : Nat) : Bool := bit e 6
def pteMode (e : Nat) : Nat := bits e 7 2
def pteHd (e : Nat) : Nat := bits e 9 3
def ptePa (e : Nat) : Nat := bits e 12 40 * 4096
def ptePeer (e : Nat) : Nat := bits e 52 11

/-- Bytes that a leaf at a level maps (R387). -/
def leafSize (level : Nat) : Nat := 2 ^ (12 + 9 * level)

/-- What a walk finds: a leaf of a level, no valid entry, or an entry that breaks the format, with its REASON. -/
inductive Walk where
  | leaf (level pte : Nat)
  | missing
  | malformed (reason : Nat)
  deriving DecidableEq, Repr

/-- This package's peer number (R412). -/
def State.selfPeer (s : State) : Option Nat := s.chart.map fun c => c.self

/-- Whether a leaf's access is local: MODE 0, or a peer number that is this package's (R428). -/
def State.pteLocal (s : State) (e : Nat) : Bool := pteMode e = 0 || s.selfPeer = some (ptePeer e)

/-- The 16 entries of a 64 KiB group agree, but for PA bits 15:12, which number them (R388). -/
def contOk (m : Mem) (base index : Nat) : Bool :=
  let g := base + 8 * (index - index % 16)
  let first := Mem.readN m g 8
  (List.range 16).all fun i =>
    let e := Mem.readN m (g + 8 * i) 8
    bits e 12 4 = i && e - bits e 12 4 * 4096 = first - bits first 12 4 * 4096

/-- A valid leaf against R388, R389 and R480. -/
def State.checkLeaf (s : State) (ctx level base index e : Nat) : Walk :=
  let pa := ptePa e
  if bit e 63 || (pteMode e = 0 && ptePeer e ≠ 0) || (4 ≤ pteHd e && pteHd e ≤ 6)
      || (pteCont e && (level ≠ 0 || !contOk s.hbm base index)) || pa % leafSize level ≠ 0 then .malformed 1
  else if deviceBase ≤ pa then
    if level = 0 && !pteCont e && pa = doorbellPage ctx && pteHd e = 7 && pteMode e = 0 && pteW e && !pteX e then .leaf level e
    else .malformed 1
  else if s.pteLocal e && pteHd e ≤ 3 && pteHd e ≠ homeDie pa then .malformed 2
  else .leaf level e

/-- The walk from a table of a level (R387, R390): entries as they stand at package scope. -/
def State.walkFrom (s : State) (ctx va : Nat) : Nat → Nat → Walk
  | level, base =>
    let index := bits va (12 + 9 * level) (if level = 4 then 8 else 9)
    let e := Mem.readN s.hbm (base + 8 * index) 8
    if !pteValid e then .missing
    else if pteLeaf e then
      if 3 ≤ level then .malformed 1 else s.checkLeaf ctx level base index e
    else
      match level with
      | 0 => .malformed 1
      | l + 1 =>
        if e ≠ 1 + ptePa e then .malformed 1 else s.walkFrom ctx va l (ptePa e)

/-- The walk of a context's page table. -/
def State.walk (s : State) (ctx va : Nat) : Walk :=
  match s.ctx? ctx with
  | some c => s.walkFrom ctx va 4 (bits c.ptroot.toNat 12 40 * 4096)
  | none => .missing

/-! ## Cached entries (R390–R392) -/

/-- Whether a cached entry maps the address. -/
def TlbEntry.covers (e : TlbEntry) (va : Nat) : Bool := bits va 0 56 / leafSize e.level = e.base / leafSize e.level

/-- The entry that a translation uses: the walk's, or, while a shoot-down has not completed, a cached one that
differs (R391, R392: either may be used). -/
def State.lookup (s : State) (ctx die va : Nat) : Walk × State :=
  let w := s.walk ctx va
  match s.ctx? ctx with
  | none => (w, s)
  | some c =>
    let cached := c.tlb.filter fun e => e.die = die && e.covers va
    let old := cached.filter fun e => .leaf e.level e.pte.toNat ≠ w
    let (b, s) := if old.isEmpty then (false, s) else s.choose
    match old.head?, b with
    | some e, true => (.leaf e.level e.pte.toNat, s)
    | _, _ =>
      match w with
      | .leaf level pte =>
        let e : TlbEntry :=
          { die := die, level := level, base := bits va 0 56 - bits va 0 56 % leafSize level, pte := BitVec.ofNat 64 pte }
        (w, if c.tlb.contains e then s else s.modCtx ctx fun c => { c with tlb := c.tlb ++ [e] })
      | _ => (w, s)

/-! ## Translation -/

/-- Where a translated access goes, or its fault: raised at once, or through the fault path (R393). -/
inductive Xlat where
  | frame (pa : Nat)
  | peer (peer pa hd : Nat) (ro : Bool)
  | bell (off : Nat)
  | raised (code reason : Nat)
  | path (code reason : Nat)
  deriving DecidableEq, Repr

/-- Whether a local range reaches a protected structure of a context (R402). -/
def State.hitsProtected (s : State) (pa len : Nat) : Bool :=
  s.contexts.any fun e =>
    let c := e.2
    let meets := fun base size => decide (pa < base + size) && decide (base < pa + len)
    (c.savecnt ≠ 0 && meets (bits c.savepool.toNat 21 31 * 2 ^ 21) (c.savecnt * 2 ^ 21))
    || (c.fqbase ≠ 0 && meets (bits c.fqbase.toNat 6 46 * 64) (64 + 4096 * 64))
    || (c.frbase ≠ 0 && meets (bits c.frbase.toNat 12 40 * 4096) 65536)

/-- The faults of an access to a valid leaf, in the order of R393. -/
def State.leafAccess (s : State) (acc : Acc) (level e va len : Nat) : Xlat :=
  let pa := ptePa e + va % leafSize level
  let here := s.pteLocal e
  let bell := here && deviceBase ≤ pa
  if here && !bell && s.hitsProtected pa len then .raised 0x21 6
  else if bell && acc = .atomic then .raised 0x21 5
  else if acc.writes && pteSeal e then .raised 0x21 3
  else if acc.writes && !pteW e then .path 0x21 1
  else if acc = .fetch && !pteX e then .path 0x21 2
  else if acc.writes && !here && pteMode e = 2 then .path 0x21 4
  else if bell then .bell (pa % 4096)
  else if here then .frame pa
  else .peer (ptePeer e) pa (pteHd e) (pteMode e = 2)

/-- Translates `len` bytes within one page for a requester of a C-die. -/
def State.translate (s : State) (ctx die va len : Nat) (acc : Acc) : Xlat × State :=
  let (w, s) := s.lookup ctx die va
  match w with
  | .malformed r => (.raised 0x25 r, s)
  | .missing => (.path 0x20 0, s)
  | .leaf level e => (s.leafAccess acc level e va len, s)

/-! ## The fault path (R396, R397) -/

/-- Who meets a fault: the source code of R396, the handle of its team, and for an engine its queue and sequence
number. -/
structure Who where
  src : Nat
  handle : Nat := 0xFFFFFFFF
  qseq : Nat := 0

/-- What the fault path does with a fault: refuses it at once because the context has no fault path (R402), lets it
wait for room, or holds it under a serial. -/
inductive Joined where
  | refused
  | full
  | serial (n : Nat)
  deriving DecidableEq, Repr

/-- The interrupt is raised towards the host complex (R486). -/
def State.interrupt (s : State) (n : Nat) : State := { s with interrupts := s.interrupts ++ [n] }

/-- The pages of a context whose misses a die's translation unit holds: a page with records of two KINDs is one miss
(R390). -/
def Context.missesOf (c : Context) (die : Nat) : List Nat :=
  ((c.faults.filter fun f => f.dies.contains die).map fun f => f.vpn).eraseDups

/-- Outstanding misses of a die's translation unit (R390). -/
def State.missesOf (s : State) (die : Nat) : Nat := s.contexts.foldl (fun n e => n + (e.2.missesOf die).length) 0

/-- A fault joins an outstanding record or writes a new one (R397). -/
def State.joinFault (s : State) (ctx die : Nat) (kind reason : Nat) (acc : Acc) (va : Nat) (w : Who) : Joined × State :=
  match s.ctx? ctx with
  | none => (.refused, s)
  | some c =>
    if c.fqbase = 0 || c.frbase = 0 then (.refused, s)
    else
      let vpn := bits va 12 44
      let room := (c.missesOf die).contains vpn || s.missesOf die < 4096
      match c.faults.find? fun f => f.vpn = vpn && f.kind = kind with
      | some f =>
        let fs := c.faults.map fun g =>
          if g.serial = f.serial && !g.dies.contains die then { g with dies := g.dies ++ [die] } else g
        if room then (.serial f.serial, s.setCtx ctx { c with faults := fs })
        else (.full, s)
      | none =>
        let fq := bits c.fqbase.toNat 6 46 * 64
        let tail := Mem.readN s.hbm fq 4
        let head := Mem.readN s.hbm (fq + 4) 4
        if 4096 ≤ c.faults.length || (tail + 2 ^ 32 - head) % 2 ^ 32 ≥ 4096 || !room then (.full, s)
        else
          let n := c.nextSerial.toNat
          let rec_ := n + kind * 2 ^ 32 + reason * 2 ^ 40 + acc.code * 2 ^ 48 + w.src * 2 ^ 56
            + (va % 2 ^ 64) * 2 ^ 64 + w.handle * 2 ^ 128 + w.qseq * 2 ^ 160
          let m := Mem.write s.hbm (fq + 64 + 64 * (tail % 4096)) rec_ 64
          let m := Mem.write m fq ((tail + 1) % 2 ^ 32) 4
          let c := { c with
            nextSerial := c.nextSerial + 1,
            faults := c.faults ++ [{ serial := n, vpn := vpn, kind := kind, reason := reason, dies := [die] }] }
          (.serial n, ({ s with hbm := m }.setCtx ctx c).interrupt (64 + ctx))

/-! ## Apertures (R308, R309): which one an access reaches -/

/-- What the address of an access says about apertures: none, whole inside aperture i at a view offset, or a fault. -/
inductive ApHit where
  | none
  | inside (i off : Nat)
  | fault (reason : Nat)
  deriving DecidableEq, Repr

def apertureHit (l : List Aperture) (va len : Nat) : ApHit :=
  let va := bits va 0 56
  match (l.zipIdx).find? fun e => e.1.xf ≠ 0 &&
      decide (va < bits e.1.vbase 0 56 + e.1.vlen) && decide (bits e.1.vbase 0 56 < va + len) with
  | some (a, i) =>
    let b := bits a.vbase 0 56
    if va < b || b + a.vlen < va + len then .fault 1
    else if (va - b) % a.w ≠ 0 || len % a.w ≠ 0 then .fault 2
    else .inside i (va - b)
  | none => .none

/-- The answer to the first piece of an access: its place and length, a fault raised at once, one that the fault path
would take in a context that has none, delivered as refused (R394, R402), a wait under a serial, or a wait for room on
the fault path. -/
inductive Res where
  | ok (loc : Loc) (len : Nat)
  | fault (ti : TrapInfo)
  | refused (ti : TrapInfo)
  | wait (serial : Nat)
  | full
  deriving DecidableEq, Repr

/-- The address `n` bytes on, within 56 bits, sign-extended. -/
def vaAdd (va n : Nat) : Nat := canon (va + n)

/-- The place that a translation gives, if it gives one. -/
def Xlat.loc? : Xlat → Option Loc
  | .frame pa => some (.frame pa)
  | .peer p pa hd ro => some (.peer p pa hd ro)
  | .bell off => some (.bell off)
  | _ => none

/-- A fault that a translation found: raised at once, or taken by the fault path, which a context may lack (R393, R397,
R402). -/
def State.faultAt (s : State) (ctx die va : Nat) (x : Xlat) (acc : Acc) (w : Who) : Res × State :=
  let ti := fun c r => ({ code := c, reason := r, info := BitVec.ofNat 64 va } : TrapInfo)
  match x with
  | .path c r =>
    let (j, s) := s.joinFault ctx die c r acc va w
    match j with
    | .refused => (.refused (ti c r), s)
    | .full => (.full, s)
    | .serial k => (.wait k, s)
  | .raised c r => (.fault (ti c r), s)
  | _ => (.full, s)

/-- Resolves the part of an access that lies in the first page it touches, or the whole of an aperture access
(R309, R393). -/
def State.resolve (s : State) (ctx die : Nat) (aps : List Aperture) (va len : Nat) (acc : Acc) (w : Who) : Res × State :=
  match apertureHit aps va len with
  | .fault r => (.fault { code := 0x23, reason := r, info := BitVec.ofNat 64 va }, s)
  | .inside i off =>
    if acc = .atomic then (.fault { code := 0x21, reason := 5, info := BitVec.ofNat 64 va }, s)
    else (.ok (.aperture i off) len, s)
  | .none =>
    let n := min len (4096 - va % 4096)
    let (x, s) := s.translate ctx die va n acc
    match x.loc? with
    | some l => (.ok l n, s)
    | none => s.faultAt ctx die va x acc w

/-! ## A whole access -/

/-- The parts of a byte range that lie in one page each: address, first byte and length. -/
def pageCuts : Nat → Nat → Nat → Nat → List (Nat × Nat × Nat)
  | 0, _, _, _ => []
  | fuel + 1, va, off, left =>
    if left = 0 then []
    else
      let n := min left (4096 - va % 4096)
      (va, off, n) :: pageCuts fuel (vaAdd va n) (off + n) (left - n)

/-- The parts of `len` bytes at `va` by page. -/
def pagesOf (va len : Nat) : List (Nat × Nat × Nat) := pageCuts (len / 4096 + 2) va 0 len

/-- The order in which R393 reports the faults of one access: a page-format fault, then those raised at once in the order
6, 5, 3, then those of the fault path by REASON. -/
def Xlat.rank : Xlat → Nat
  | .raised code reason => if code = 0x25 then 0 else if reason = 6 then 1 else if reason = 5 then 2 else 3
  | .path _ reason => 4 + reason
  | _ => 9

/-- Translates the parts of an access that have an enabled byte (R207). -/
def State.translateAll (s : State) (ctx die : Nat) (acc : Acc) (mask : Nat) :
    List (Nat × Nat × Nat) → List (Nat × Nat × Nat × Xlat) × State
  | [] => ([], s)
  | (va, off, n) :: r =>
    if bits mask off n = 0 then s.translateAll ctx die acc mask r
    else
      let (x, s) := s.translate ctx die va n acc
      let (l, s) := s.translateAll ctx die acc mask r
      ((va, off, n, x) :: l, s)

/-- The translation whose fault an access reports: the first in R393's order, of equals the lowest address. -/
def worstOf (l : List (Nat × Nat × Nat × Xlat)) : Option (Nat × Xlat) :=
  l.foldr (fun e w =>
    if e.2.2.2.loc?.isSome then w
    else
      match w with
      | some (va, x) => if x.rank < e.2.2.2.rank then some (va, x) else some (e.1, e.2.2.2)
      | none => some (e.1, e.2.2.2)) none

/-- What a whole access comes to: the pieces it reaches, or the one fault that it raises (R393). -/
inductive Spans where
  | ok (l : List Piece)
  | fault (ti : TrapInfo)
  | refused (ti : TrapInfo)
  | wait (serial : Nat)
  | full
  deriving DecidableEq, Repr

/-- Resolves every page of an access (R309, R393): nothing of it goes to the fault path while a fault raised at once
applies. -/
def State.spans (s : State) (ctx die : Nat) (aps : List Aperture) (va len mask : Nat) (acc : Acc) (w : Who) : Spans × State :=
  match apertureHit aps va len with
  | .fault r => (.fault { code := 0x23, reason := r, info := BitVec.ofNat 64 va }, s)
  | .inside i off =>
    if acc = .atomic then (.fault { code := 0x21, reason := 5, info := BitVec.ofNat 64 va }, s)
    else (.ok [{ va := va, off := 0, len := len, loc := .aperture i off }], s)
  | .none =>
    let (l, s) := s.translateAll ctx die acc mask (pagesOf va len)
    match worstOf l with
    | none => (.ok (l.filterMap fun e => e.2.2.2.loc?.map fun x => { va := e.1, off := e.2.1, len := e.2.2.1, loc := x }), s)
    | some (va, x) =>
      match s.faultAt ctx die va x acc w with
      | (.fault ti, s) => (.fault ti, s)
      | (.refused ti, s) => (.refused ti, s)
      | (.wait k, s) => (.wait k, s)
      | (_, s) => (.full, s)

/-- The apertures of a team's launch (R308). -/
def State.aperturesOf (s : State) (t : Team) : List Aperture :=
  match s.launchOf t with
  | some l => l.apertures
  | none => []

end Sys2Proof.Machine
end

