-- ==== Sys2Proof/Machine/WritePath.lean ====
section
/-! DEFINITION. Scopes (R22–R24), reads as a core sees them, the core's write path (R332), causal tags (R323), the
promotion log (R331, R332), traffic counters (R305–R307) and data errors (R448). -/

namespace Sys2Proof.Machine

open Sys2Proof

/-! ## Scopes -/

/-- A programmable scope-table entry of the team's launch (R25). -/
def State.scopeEntry (s : State) (t : Team) (n : Nat) : Option ScopeEntry :=
  (s.launchOf t).bind fun l => l.scopes[n - 6]?

/-- Whether the entry names a peer (R24). -/
def State.namesPeer (s : State) (e : ScopeEntry) : Bool :=
  e.allPeers ||
    (match s.selfPeer with
     | some n => decide (e.peers % 2 ^ n + (e.peers >>> (n + 1)) * 2 ^ (n + 1) ≠ 0)
     | none => decide (e.peers ≠ 0))

/-- The widest reach of a scope entry for promotions (R333): 0, 1 or 2. -/
def State.scopeLevel (s : State) (t : Team) (n : Nat) : Nat :=
  if n ≤ 1 then 0
  else if n = 5 then 2
  else if n < 5 then 1
  else
    match s.scopeEntry t n with
    | some e => if s.namesPeer e then 2 else 1
    | none => 1

/-- Whether core c is a member of scope n of a team (R22, R24); entry 0 holds the team alone. -/
def State.scopeHas (s : State) (t : Team) (n c : Nat) : Bool :=
  if n = 0 then false
  else if n = 1 then c = t.core
  else if n = 2 then quadOf c = quadOf t.core
  else if n = 3 then dieOf c = dieOf t.core
  else if n ≤ 5 then true
  else
    c = t.core ||
      (match s.scopeEntry t n with
       | some e => bit e.cores c
       | none => false)

/-- Whether scope n has members on more than one C-die (R323). -/
def State.scopeWide (s : State) (t : Team) (n : Nat) : Bool :=
  if n ≤ 3 then false
  else if n ≤ 5 then true
  else
    match s.scopeEntry t n with
    | some e => s.namesPeer e || (List.range 4).any fun d => d ≠ dieOf t.core && bits e.cores (144 * d) 144 ≠ 0
    | none => false

/-! ## Data errors -/

/-- Lines of a byte range (R331). -/
def linesOf (pa n : Nat) : List Nat := (List.range ((pa + n - 1) / 128 + 1 - pa / 128)).map (· + pa / 128)

/-- A line of the range is in an error table (R448). -/
def State.lineBad (s : State) (pa n : Nat) : Bool := (linesOf pa n).any fun l => s.errors.any fun e => e.line = l

/-- A write of a range clears the entries of the lines it covers whole (R448). -/
def State.clearErrors (s : State) (pa n : Nat) : State :=
  if s.errors.isEmpty then s
  else { s with errors := s.errors.filter fun e => !(pa ≤ 128 * e.line && 128 * e.line + 128 ≤ pa + n) }

/-- A write that covers only part of a line in an error table (R448). -/
def State.partialBad (s : State) (pa n mask : Nat) : Bool :=
  s.errors.any fun e =>
    e.tabled && (linesOf pa n).contains e.line &&
      !(pa ≤ 128 * e.line && 128 * e.line + 128 ≤ pa + n && bits mask (128 * e.line - pa) 128 = ones 128)

/-! ## Traffic (R305–R307) -/

/-- Adds to a counter of a C-die's block unless it is frozen. -/
def State.addTraffic (s : State) (die i n : Nat) : State :=
  let b := vget s.traffic die {}
  if b.frozen then s
  else { s with traffic := vset s.traffic die { b with ctrs := vset b.ctrs i (vget b.ctrs i 0 + BitVec.ofNat 64 n) } }

/-- One ring link from die d: up or down. -/
def State.ringHop (s : State) (d n : Nat) (up : Bool) : State :=
  if up then (s.addTraffic d 2 n).addTraffic ((d + 1) % 4) 5 n
  else (s.addTraffic d 4 n).addTraffic ((d + 3) % 4) 3 n

/-- Payload from one die to another by the ring (R305). -/
def State.ring (s : State) (src dst n : Nat) : State :=
  match (dst + 4 - src) % 4 with
  | 0 => s
  | 1 => s.ringHop src n true
  | 2 => (s.ringHop src n true).ringHop ((src + 1) % 4) n true
  | _ => s.ringHop src n false

/-- Whether a line request missed the memory-side cache: free, for the cache's contents are not told (log entry 16). -/
def State.missCount (s : State) : Nat → State × Nat
  | 0 => (s, 0)
  | n + 1 =>
    let (b, s) := s.choose
    let (s, k) := s.missCount n
    (s, k + if b then 1 else 0)

/-- The bytes of a range that a mask enables, and the lines that hold one of them (R207). -/
def maskedLines (pa n mask : Nat) : List Nat :=
  (linesOf pa n).filter fun l =>
    let a := max pa (128 * l)
    decide (bits mask (a - pa) (min (pa + n) (128 * l + 128) - a) ≠ 0)

/-- Counts an access of a team's core to bytes of an M-die's stack: its own counters, those of the dies, and the ring
between them (R2, R305–R307). -/
def State.noteBytes (s : State) (h die home bytes lines : Nat) (write : Bool) : State :=
  let (s, miss) := s.missCount lines
  let s := s.modTeam h fun t => (t.count ((if die = home then 2 else 4) + if write then 1 else 0) bytes).count 13 miss
  let s := if die = home then s.addTraffic die (if write then 1 else 0) bytes else s
  if write then s.ring die home bytes else s.ring home die bytes

/-- Counts an access of a team to local HBM: the bytes that it enables, and their lines. -/
def State.noteAccess (s : State) (h pa n mask : Nat) (write : Bool) : State :=
  match s.team? h with
  | none => s
  | some t => s.noteBytes h (dieOf t.core) (homeDie pa) (popcount n mask) (maskedLines pa n mask).length write

/-! ## Reads as a core sees them -/

/-- The bytes of `v` (n bytes from `a`) with those that a write covers replaced. -/
def overlay (v a n p len data mask : Nat) : Nat :=
  if p + len ≤ a || a + n ≤ p then v
  else
    (List.range n).foldl (fun acc i =>
      let x := a + i
      if p ≤ x && x < p + len && bit mask (x - p) then
        acc - bits acc (8 * i) 8 * 2 ^ (8 * i) + bits data (8 * (x - p)) 8 * 2 ^ (8 * i)
      else acc) v

/-- Where the page table puts an address now, when that is a local frame. -/
def State.placeNow (s : State) (ctx va : Nat) : Option Nat :=
  match s.walk ctx va with
  | .leaf level e =>
    let pa := ptePa e + va % leafSize level
    if s.pteLocal e && pa < deviceBase then some pa else none
  | _ => none

/-- The local frame addresses that the parts of a write reach: physical address, first byte and length. A write on the
fault path is at the places that the page table gives now. -/
def State.placesOf (s : State) (e : Posted) : List (Nat × Nat × Nat) :=
  match e.target with
  | .home p => [(p, 0, e.len)]
  | .fault _ => (pagesOf e.va e.len).filterMap fun p => (s.placeNow e.ctx p.1).map fun pa => (pa, p.2.1, p.2.2)
  | _ => []

/-- n bytes of a local frame as the observers of a core read them: the writes of the core's path, those on the fault path
among them, are performed at core scope (R332, R401). -/
def State.readAt (s : State) (core pa n : Nat) : Nat :=
  (s.core core).path.foldl (fun acc e =>
    (s.placesOf e).foldl (fun acc p =>
      overlay acc pa n p.1 p.2.2 (bits e.data (8 * p.2.1) (8 * p.2.2)) (bits e.mask p.2.1 p.2.2)) acc)
    (Mem.readN s.hbm pa n)

/-! ## The write path -/

/-- The hash of the line of an address (R331). -/
def lineHash (pa : Nat) : Nat :=
  let l := pa / 128
  (l ^^^ (l >>> 8) ^^^ (l >>> 16) ^^^ (l >>> 24) ^^^ (l >>> 32)) % 256

/-- The address at its home of a write whose line can be hashed. -/
def Target.pa? : Target → Option Nat
  | .home pa => some pa
  | .peer _ pa _ => some pa
  | _ => none

/-- The hash bits of a byte range. -/
def hashBits (pa n : Nat) : BitVec 256 :=
  (linesOf pa n).foldl (fun acc l => acc ||| BitVec.ofNat 256 (2 ^ lineHash (128 * l))) 0

/-- Whether a write or atomic to the range is stalled by the local phase of a flush (R335). -/
def State.stalled (s : State) (core pa n : Nat) : Bool :=
  match (s.core core).flush with
  | some f => f.phase = .localPart && f.marks &&& hashBits pa n ≠ 0
  | none => false

/-- A write of the path that happens before what stream k of a team does: of those numbered below `upto`, its own and all
numbered below `acq` (R319–R321). -/
def Posted.before (e : Posted) (h k upto acq : Nat) : Bool :=
  decide (e.num < upto) && ((e.h = h && e.k = k) || decide (e.num < acq))

/-- Whether no such write is left in the core's path (R322). -/
def State.setClear (s : State) (core h k upto acq : Nat) : Bool :=
  (s.core core).path.all fun e => !e.before h k upto acq

/-- Whether the path holds a write, not to a local frame, that touches bytes of the range and that a read waits for: one
of the stream itself (R213, R401), or one of another stream of the core and context to a peer, which reads no write of
the path (R332). -/
def State.awaitsOwn (s : State) (core ctx h k va n : Nat) : Bool :=
  (s.core core).path.any fun e =>
    let meets := decide (bits e.va 0 56 < bits va 0 56 + n) && decide (bits va 0 56 < bits e.va 0 56 + e.len)
    e.ctx = ctx && meets &&
      (match e.target with
       | .home _ => false
       | .peer _ _ _ => true
       | _ => e.h = h && e.k = k)

/-- The places at a peer that the parts of a write reach: peer, physical address, length. A write on the fault path is where the
page table gives now. -/
def State.peerPlacesOf (s : State) (e : Posted) : List (Nat × Nat × Nat) :=
  match e.target with
  | .peer p pa _ => [(p, pa, e.len)]
  | .fault _ => (pagesOf e.va e.len).filterMap fun p =>
    match s.walk e.ctx p.1 with
    | .leaf level x => if s.pteLocal x then none else some (ptePeer x, ptePa x + p.1 % leafSize level, p.2.2)
    | _ => none
  | _ => []

/-- Whether the path holds a write to bytes of a range at a peer, by whatever virtual address: a read of the core waits for it
(R213, R332). -/
def State.peerTouches (s : State) (core peer pa n : Nat) : Bool :=
  (s.core core).path.any fun e =>
    (s.peerPlacesOf e).any fun p => p.1 = peer && decide (p.2.1 < pa + n) && decide (pa < p.2.1 + p.2.2)

/-- Whether the path holds a write to bytes of a local range. -/
def State.pathTouches (s : State) (core pa n : Nat) : Bool :=
  (s.core core).path.any fun e => (s.placesOf e).any fun p => decide (p.1 < pa + n) && decide (pa < p.1 + p.2.2)

/-- A write of an access stream to a locked line: the line changes when that stream alone reads it there; else the stream reads
memory again, and the line stays as it is for the others (R213, R301). -/
def CacheLine.written (l : CacheLine) (h : Nat) (peer : Option Nat) (pa len data mask : Nat) : CacheLine :=
  if l.peer ≠ peer || pa + len ≤ 128 * l.line || 128 * l.line + 128 ≤ pa then l
  else if l.readers = [h] then { l with data := overlay l.data (128 * l.line) 128 pa len data mask }
  else { l with readers := l.readers.erase h }

/-- The access stream's own writes change what it reads in locked lines; those of other observers do not (R301). -/
def Core.writeLines (c : Core) (e : Posted) : Core :=
  if e.k ≠ 4 then c
  else
    match e.target with
    | .home pa => { c with cache := c.cache.map fun l => l.written e.h none pa e.len e.data e.mask }
    | .peer p pa _ => { c with cache := c.cache.map fun l => l.written e.h (some p) pa e.len e.data e.mask }
    | _ => c

/-- Puts a write into the core's path; it leaves as many numbers free as it has bytes, for the parts that it may be cut
into when it is translated again. -/
def State.enterPath (s : State) (core : Nat) (e : Posted) : State :=
  s.modCore core fun c =>
    { c.writeLines e with path := c.path ++ [{ e with num := c.nextNum }], nextNum := c.nextNum + 1 + e.len }

def State.dropPath (s : State) (core num : Nat) : State :=
  s.modCore core fun c => { c with path := c.path.filter fun e => e.num ≠ num }

def State.setPath (s : State) (core : Nat) (x : Posted) : State :=
  s.modCore core fun c => { c with path := c.path.map fun e => if e.num = x.num then x else e }

/-! ## Causal tags (R323) -/

/-- a ≥ b for 16-bit counters compared modulo 2^16. -/
def atLeast (a b : BitVec 16) : Bool := (a - b).toNat < 32768

/-- The clock of a die. -/
def State.clock (s : State) (d : Nat) : Vector (BitVec 16) 4 := vget s.clocks d (Vector.replicate 4 0)

/-- The counters of an M-die. -/
def State.appliedAt (s : State) (m : Nat) : Vector (BitVec 16) 4 := vget s.applied m (Vector.replicate 4 0)

/-- Whether a tagged event of die d keeps the lead of its counter within 32,767 at every M-die. -/
def State.leadOk (s : State) (d : Nat) : Bool :=
  (List.range 8).all fun m => (vget (s.clock d) d 0 + 1 - vget (s.appliedAt m) d 0).toNat ≤ 32767

/-- A tagged event of a core: the counter of its die rises, the tag is its clock, and markers go to the M-dies of all
dies. -/
def State.newTag (s : State) (core : Nat) : Vector (BitVec 16) 4 × State :=
  let d := dieOf core
  let c := s.clock d
  let tag := vset c d (vget c d 0 + 1)
  (tag, { s with clocks := vset s.clocks d tag,
                 markers := s.markers ++ (List.range 8).map fun m =>
                   { mdie := m, src := d, tag := tag, upto := (s.core core).nextNum + 1 } })

/-- A tagged event with a write set (R323): the writes of the core's path that carry no tag yet are sent with its. -/
def State.tagPath (s : State) (core : Nat) : (Nat × Vector (BitVec 16) 4) × State :=
  let (tag, s) := s.newTag core
  let d := dieOf core
  ((d, tag), s.modCore core fun c => { c with path := c.path.map fun e =>
    if e.tag.isNone then { e with tag := some (d, tag) } else e })

/-- Whether an M-die may apply a write with a tag from die d; a marker needs the equality (R323). -/
def tagReady (ap : Vector (BitVec 16) 4) (d : Nat) (tag : Vector (BitVec 16) 4) (marker : Bool) : Bool :=
  (if marker then decide (vget ap d 0 = vget tag d 0 - 1) else atLeast (vget ap d 0) (vget tag d 0 - 1)) &&
    (List.range 4).all fun k => k = d || atLeast (vget ap k 0) (vget tag k 0)

/-- The aligned 8-byte words of a byte range. -/
def wordsOf (pa n : Nat) : List Nat := (List.range ((pa + n - 1) / 8 + 1 - pa / 8)).map (· + pa / 8)

/-- Remembers the tag that the words of a range were written with; a later untagged write forgets it. -/
def State.noteTag (s : State) (pa n : Nat) (tag : Option (Vector (BitVec 16) 4)) : State :=
  let l := s.tagOf.filter fun e => e.1 + 8 ≤ pa || pa + n ≤ e.1
  { s with tagOf := match tag with
      | some x => (wordsOf pa n).foldl (fun l w => tput l (8 * w) x) l
      | none => l }

/-- The address under which the tag of a word of a team's SP window is remembered. -/
def spKey (h off : Nat) : Nat := 2 ^ 56 * (h + 1) + off

/-- The larger counters of two clocks, each compared modulo 2^16 (R323). -/
def mergeClock (a b : Vector (BitVec 16) 4) : Vector (BitVec 16) 4 :=
  (List.range 4).foldl (fun c k => if atLeast (vget c k 0) (vget b k 0) then c else vset c k (vget b k 0)) a

/-- An acquire of core c's die that reads an address: its clock takes the larger counters of the tags (R323). -/
def State.acquireTag (s : State) (core pa n : Nat) : State :=
  let d := dieOf core
  let tags := (s.tagOf.filter fun e => e.1 < pa + n && pa < e.1 + 8).map (·.2)
  if tags.isEmpty then s else { s with clocks := vset s.clocks d (tags.foldl mergeClock (s.clock d)) }

/-! ## The promotion log (R331, R332) -/

/-- The places of a core's log that are in use. -/
def Core.validLog (c : Core) : List LogEntry := c.log.filter fun e => e.valid

/-- Releases of a team whose entries are still to be written: they are performed with its local stores (R332). -/
def Team.logsDue (t : Team) : Nat :=
  ((List.range 5).flatMap fun k => (t.strand k).spills.flatMap fun e => e.logs).length + t.toLog.length

/-- Whether the log holds 64 valid entries, those counted that its teams' local stores are still to write. -/
def State.logIsFull (s : State) (core : Nat) : Bool :=
  64 ≤ s.teams.foldl (fun n e => if e.2.core = core then n + e.2.logsDue else n) (s.core core).validLog.length

/-- Puts an entry at the lowest place of the log that is not in use (log entry 72). -/
def placeEntry (l : List LogEntry) (x : LogEntry) : List LogEntry :=
  match l.findIdx? fun e => !e.valid with
  | some i => l.set i x
  | none => l ++ [x]

/-- The hash bits of the lines that a write reaches; none while its translation waits. -/
def Posted.hashes (e : Posted) : BitVec 256 :=
  match e.target.pa? with
  | some pa => hashBits pa e.len
  | none => 0

/-- Writes an entry for a release at scope entry 0 or 1: its SUMMARY covers the writes that entered the path after the
newest entry and are still in it (R332). -/
def State.logRelease (s : State) (t : Team) (scope : Nat) : State :=
  s.modCore t.core fun c =>
    let sum := c.path.foldl (fun acc e => if c.logNum ≤ e.num then acc ||| e.hashes else acc) (0 : BitVec 256)
    { c with
      relCount := c.relCount + 1,
      log := placeEntry c.log
        { seq := c.relCount + 1, ctx := t.ctx, serial := handleSerial t.handle,
          core1 := scope = 1, prom := 0, summary := sum, upto := c.nextNum },
      logNum := c.nextNum, logFull := false }

/-- The releases that a team's local stores have completed are logged (R332). -/
def State.logPerformed (s : State) (h : Nat) : State :=
  match s.team? h with
  | some t =>
    if t.toLog.isEmpty then s
    else t.toLog.foldl (fun s sc => s.logRelease t sc) (s.setTeam h { t with toLog := [] })
  | none => s

/-- Those of every team are. -/
def State.logAll (s : State) : State := (s.teams.map (·.1)).foldl State.logPerformed s

/-- A write that waited on the fault path has its place now: the SUMMARY of the entry whose write set it is in takes its
lines, as the first entry written after it (R332). -/
def Core.summarise (c : Core) (e : Posted) : Core :=
  let after := c.log.filter fun x => decide (e.num < x.upto)
  let first := after.foldl (fun m x => min m x.upto) c.nextNum
  { c with log := c.log.map fun x => if x.upto = first then { x with summary := x.summary ||| e.hashes } else x }

/-- A SEQ at or before a point (R331). -/
def seqBefore (a p : BitVec 32) : Bool := (p - a).toNat < 2 ^ 31

/-! ## Posting writes -/

/-- The answer to posting a write: entered, or not yet (a stall, a full queue, a fault that an access stream halts
at with its serial). -/
inductive Post where
  | ok (s : State)
  | hold (s : State)
  | halted (s : State) (serial : Nat)
  | fault (s : State) (ti : TrapInfo)

/-- The target of a resolved piece. -/
def Loc.target : Loc → Target
  | .frame pa => .home pa
  | .peer p pa hd _ => .peer p pa hd
  | .bell off => .doorbell off
  | .aperture i off => .aperture i off

/-- The runs of enabled bytes of a masked write: first byte and length of each. -/
def enabledRuns (mask : Nat) : Nat → Nat → List (Nat × Nat)
  | 0, _ => []
  | n + 1, i =>
    let rest := enabledRuns mask n (i + 1)
    if bit mask i then
      match rest with
      | (j, k) :: r => if j = i + 1 then (i, k + 1) :: r else (i, 1) :: (j, k) :: r
      | [] => [(i, 1)]
    else rest

/-- The pieces that a read of some bytes of a piece comes to: at a peer one for each run of them, for a message names whole
runs of bytes (R207, R428). -/
def Piece.runs (mask : Nat) (p : Piece) : List Piece :=
  match p.loc with
  | .peer q pa hd ro => (enabledRuns (bits mask p.off p.len) p.len 0).map fun r =>
    { va := vaAdd p.va r.1, off := p.off + r.1, len := r.2, loc := .peer q (pa + r.1) hd ro }
  | _ => [p]

/-- A part of a write from byte `i` on, `n` bytes long, going to a place. -/
def Posted.part (e : Posted) (i n : Nat) (target : Target) : Posted :=
  { e with
    num := e.num + i, va := vaAdd e.va i, len := n, data := bits e.data (8 * i) (8 * n), mask := bits e.mask i n,
    target := target }

/-- The writes that one piece of a write comes to: one to a local place, and to a peer one for each run of its enabled
bytes, for a message carries whole bytes only (R428). -/
def Posted.parts (e : Posted) (p : Piece) : List Posted :=
  match p.loc with
  | .peer q pa hd _ =>
    (enabledRuns (bits e.mask p.off p.len) p.len 0).map fun r => e.part (p.off + r.1) r.2 (.peer q (pa + r.1) hd)
  | l => [e.part p.off p.len l.target]

/-- What a posted write is besides its bytes. -/
structure Writer where
  h : Nat
  k : Nat
  ctx : Nat
  core : Nat
  aps : List Aperture
  src : Nat
  after : Nat := 0
  acq : Nat := 0
  rel : Option Nat := none
  tag : Option (Nat × Vector (BitVec 16) 4) := none
  drainOf : Option (Nat × Nat) := none
  cmdOf : Option (Nat × Nat) := none
  /-- The address of the word that stores. -/
  pc : BitVec 64 := 0

/-- A write by this writer, not yet placed. -/
def Writer.posted (w : Writer) (va len data mask : Nat) : Posted :=
  { num := 0, h := w.h, k := w.k, ctx := w.ctx, va := va, len := len, data := data, mask := mask, target := .fault 0,
    after := w.after, acq := w.acq, rel := w.rel, tag := w.tag, drainOf := w.drainOf, cmdOf := w.cmdOf }

/-- QSEQ of a fault that queue q meets in the command with a sequence number (R396). -/
def qseqOf (q seq : Nat) : Nat := q % 4 + 4 * (seq % 2 ^ 14)

/-- QSEQ of the fault of a posted write. -/
def Posted.qseq (e : Posted) : Nat :=
  match e.cmdOf with
  | some (seq, _) => qseqOf (e.k - 5) seq
  | none => 0

/-- A piece of a write or atomic lies on a line under flush (R335). -/
def State.pieceStalled (s : State) (core : Nat) (p : Piece) : Bool :=
  match p.loc with
  | .frame pa => s.stalled core pa p.len
  | .peer _ pa _ _ => s.stalled core pa p.len
  | _ => false

/-- An access met a flush's stall and is owed before the next flush (R335). -/
def State.owe (s : State) (core : Nat) (x : Owed) : State :=
  s.modCore core fun c => if c.owed.contains x then c else { c with owed := c.owed ++ [x] }

/-- Who is owed the write of a writer. -/
def Writer.owed (w : Writer) : Owed :=
  if w.k < 5 then .word w.h w.k w.pc else if w.k < 8 then .engine w.h (w.k - 5) else .back w.h

/-- Posts a write of `len` bytes at `va` into the core's path. A write that goes to the fault path stays in the path whole
under its serial (R401); a fault at once is reported asynchronously (R216); with `precise` both stop the word instead
(R400). -/
def State.post (s : State) (w : Writer) (va len data mask : Nat) (precise : Bool) : Post :=
  let e := w.posted va len data mask
  let (r, s) := s.spans w.ctx (dieOf w.core) w.aps va len mask .write { src := w.src, handle := w.h, qseq := e.qseq }
  match r with
  | .full => .hold s
  | .fault ti => if precise then .fault s ti else .ok (s.postEvent w.h ti none)
  | .refused ti => if precise then .fault s ti else .ok (s.postEvent w.h ti none)
  | .wait k => if precise then .halted s k else .ok (s.enterPath w.core { e with target := .fault k })
  | .ok ps =>
    if ps.any (s.pieceStalled w.core) then .hold (s.owe w.core w.owed)
    else .ok ((ps.flatMap e.parts).foldl (fun s e => s.enterPath w.core e) s)

end Sys2Proof.Machine
end

