-- ==== Sys2Proof/Machine/Apertures.lean ====
section
/-! DEFINITION. Apertures (R309–R314): loads and stores of view elements under format conversion, transposed view and
bitmask-pack. -/

namespace Sys2Proof.Machine

open Sys2Proof

/-- Bits lo … lo + n − 1 of the bit string that starts at a byte address (R117). -/
def Mem.readBits (m : Mem) (base lo n : Nat) : Nat := bits (Mem.readN m (base + lo / 8) ((lo % 8 + n + 7) / 8)) (lo % 8) n

/-- Writes n bits of the bit string, keeping the other bits of its bytes. -/
def Mem.writeBits (m : Mem) (base lo n v : Nat) : Mem :=
  let k := (lo % 8 + n + 7) / 8
  let old := Mem.readN m (base + lo / 8) k
  let new := old - bits old (lo % 8) n * 2 ^ (lo % 8) + (v % 2 ^ n) * 2 ^ (lo % 8)
  Mem.write m (base + lo / 8) new k

/-- Width of a stored element in bits. -/
def Fd.elemBits (d : Fd) : Nat := if d.kind = 1 then d.w else 8 * kindBytes d.kind

/-- One value into a descriptor at scale 2^0 in RNE (R259 with CV = 2): the code and the flags. -/
def Fd.store (d : Fd) (x : Val) : Nat × Nat :=
  if d.kind = 1 then
    let r := fixedScale d [x] 127 [.rne]
    ((r.elems.map (·.code)).headD 0, r.flags)
  else
    let (c, fl) := d.convert x .rne
    (c.code, fl)

/-- VOFF of a bitmask-pack aperture (R312). -/
def Aperture.voff (a : Aperture) : Nat := 8 * ceilDiv (4 + ceilDiv (a.vlen / a.w) 8) 8

/-- Byte of the stored matrix that element e of a transposed view takes (R311). -/
def Aperture.matrixByte (a : Aperture) (e : Nat) : Nat :=
  (e % a.rows * a.cols + e / a.rows) * a.w

/-- The value of view element e, with flags (R311, R313). -/
def Aperture.loadElem (a : Aperture) (m : Mem) (e : Nat) : Nat × Nat :=
  match a.xf with
  | 1 =>
    let sfd := fdOf a.sfd.toNat
    let (x, fl) := sfd.elemValue (Mem.readBits m a.pbase (e * sfd.elemBits) sfd.elemBits) 127
    let (c, fl2) := (fdOf a.vfd.toNat).store x
    (c, fl ||| fl2)
  | 2 => (Mem.readN m (a.pbase + a.matrixByte e) a.w, 0)
  | _ =>
    let len := Mem.readN m a.pbase 4
    if len ≤ e * a.w || Mem.readBits m (a.pbase + 4) e 1 = 0 then (0, 0)
    else
      let rank := popcount e (Mem.readBits m (a.pbase + 4) 0 e)
      (Mem.readN m (a.pbase + a.voff + rank * a.w) a.w, 0)

/-- The elements of a load or store of n bytes at a view offset that have an enabled byte (R207). -/
def Aperture.enabled (a : Aperture) (off n mask : Nat) : List Nat :=
  ((List.range (n / a.w)).filter fun i => decide (bits mask (i * a.w) a.w ≠ 0)).map fun i => off / a.w + i

/-- A load of n bytes at a view offset: the elements with an enabled byte, and their flags. -/
def Aperture.load (a : Aperture) (m : Mem) (off n mask : Nat) : Nat × Nat :=
  let es := (List.range (n / a.w)).map fun i =>
    if bits mask (i * a.w) a.w = 0 then (0, 0) else a.loadElem m (off / a.w + i)
  (ofElems a.w (es.map (·.1)), orAll (es.map (·.2)))

/-- The bytes of the buffer that view element e lies in: addresses and numbers (R311–R313). -/
def Aperture.reach (a : Aperture) (m : Mem) (e : Nat) : List (Nat × Nat) :=
  match a.xf with
  | 1 =>
    let n := (fdOf a.sfd.toNat).elemBits
    [(a.pbase + e * n / 8, (e * n % 8 + n + 7) / 8)]
  | 2 => [(a.pbase + a.matrixByte e, a.w)]
  | _ =>
    (a.pbase, 4) :: (a.pbase + 4, e / 8 + 1) ::
      (if Mem.readBits m (a.pbase + 4) e 1 = 0 then []
       else [(a.pbase + a.voff + popcount e (Mem.readBits m (a.pbase + 4) 0 e) * a.w, a.w)])

/-- The bytes of the buffer that an access reaches. -/
def Aperture.reaches (a : Aperture) (m : Mem) (off n mask : Nat) : List (Nat × Nat) :=
  ((a.enabled off n mask).flatMap (a.reach m)).eraseDups

/-- Counts an access of n bytes of a view, served at the M-die that homes the buffer (R2, R306, R307, R310): its payload is
the bytes of the view that it enables. -/
def State.noteView (s : State) (h : Nat) (a : Aperture) (off n mask : Nat) (write : Bool) : State :=
  match s.team? h with
  | none => s
  | some t =>
    let lines := ((a.reaches s.hbm off n mask).flatMap fun r => linesOf r.1 r.2).eraseDups
    s.noteBytes h (dieOf t.core) (homeDie a.pbase) (popcount n mask) lines.length write

/-- A line of the buffer that a load reaches is in error (R395). -/
def State.viewBad (s : State) (a : Aperture) (off n mask : Nat) : Bool :=
  (a.reaches s.hbm off n mask).any fun r => s.lineBad r.1 r.2

/-- A store of one element under XF 1 or 2. -/
def Aperture.storeElem (a : Aperture) (m : Mem) (e v : Nat) : Mem × Nat :=
  if a.xf = 1 then
    let sfd := fdOf a.sfd.toNat
    let (x, fl) := (fdOf a.vfd.toNat).elemValue v 127
    let (c, fl2) := sfd.store x
    (Mem.writeBits m a.pbase (e * sfd.elemBits) sfd.elemBits c, fl ||| fl2)
  else (Mem.write m (a.pbase + a.matrixByte e) v a.w, 0)

/-- Appends elements to a bitmask-pack buffer (R312). -/
def Aperture.append (a : Aperture) (m : Mem) : Nat → List Nat → Mem
  | _, [] => m
  | e, v :: r =>
    if v = 0 then a.append m (e + 1) r
    else
      let count := popcount (a.vlen / a.w) (Mem.readBits m (a.pbase + 4) 0 (a.vlen / a.w))
      let m := Mem.write m (a.pbase + a.voff + count * a.w) v a.w
      a.append (Mem.writeBits m (a.pbase + 4) e 1 1) (e + 1) r

/-- The code and REASON of a fault of an aperture store (R393). -/
inductive ApStore where
  | ok (m : Mem) (flags : Nat)
  | fault (code reason : Nat)

/-- A store of n bytes at a view offset, of which a mask enables some: sealed apertures refuse it (R314); elements enabled only
in part are not whole elements (log entry 18). -/
def Aperture.store (a : Aperture) (m : Mem) (off n data mask : Nat) : ApStore :=
  let k := n / a.w
  let ens := (List.range k).map fun i => bits mask (i * a.w) a.w
  if a.isSealed then .fault 0x21 3
  else if ens.any fun b => b ≠ 0 && b ≠ ones a.w then .fault 0x23 2
  else if a.xf = 3 then
    if ens.any fun b => b = 0 then .fault 0x23 2
    else
      let m' := if off = 0 then Mem.write (Mem.writeBits m (a.pbase + 4) 0 (8 * ceilDiv (a.vlen / a.w) 8) 0) a.pbase 0 4 else m
      let len := Mem.readN m' a.pbase 4
      if off ≠ len then .fault 0x23 3
      else
        let vs := elems a.w k data
        let p := popcount (a.vlen / a.w) (Mem.readBits m' (a.pbase + 4) 0 (a.vlen / a.w))
          + (vs.filter fun v => v ≠ 0).length
        if a.plen < a.voff + p * a.w then .fault 0x24 0
        else .ok (Mem.write (a.append m' (off / a.w) vs) a.pbase (off + n) 4) 0
  else
    let (m, fl) := ((elems a.w k data).zip ens).zipIdx.foldl (fun (acc : Mem × Nat) p =>
      if p.1.2 = 0 then acc
      else
        let (m, fl) := a.storeElem acc.1 (off / a.w + p.2) p.1.1
        (m, acc.2 ||| fl)) (m, 0)
    .ok m fl

end Sys2Proof.Machine
end

