-- ==== Sys2Proof/Machine/Enqueue.lean ====
section
/-! DEFINITION. `enq` and `qclr` (R236–R239), and access to signal slots (R241–R243). -/

namespace Sys2Proof.Machine

open Sys2Proof

/-- Accepts a command into queue q with the accept sequence numbers of all queues beside it (R92, R237); it stays in
the queue until it completes. -/
def Team.accept (t : Team) (q : Nat) (c : Cmd) : Team :=
  let x := t.queue q
  let e : QCmd := { seq := x.accept, recs := #v[t.q0.accept, t.q1.accept, t.q2.accept], cmd := c }
  t.setQueue q { x with cmds := x.cmds ++ [e], accept := x.accept + 1 }

/-- Room for one more command (R238). -/
def EngQ.room (x : EngQ) : Bool := x.cmds.length < 32

/-- LEN of the command whose first word is `w` (R90). -/
def lenOf (w : Word) : Nat := bits w.toNat 38 2

/-- The command that the group of registers holds (R237); words beyond LEN are not read. -/
def Here.command (x : Here) (a : BitVec 8) : Cmd :=
  Cmd.ofWords (x.t.scalarAt a 0) (x.t.scalarAt a 1) (x.t.scalarAt a 2) (x.t.scalarAt a 3)

def execEnq (r : EngW) (s : State) : Out :=
  issueWord s r.mods
    (fun x => { opds := [⟨1, r.a, 4, ones (8 * (lenOf (x.t.scalarAt r.a 0) + 1)), 0⟩] })
    fun x =>
      let q := r.q.toNat
      if (x.t.queue q).room then x.done r.mods (x.t.accept q (x.command r.a)) []
      else x.hold (.queueRoom q)

/-- `qclr` on a stopped queue takes effect in the next cycle; otherwise it does nothing (R239). -/
def execQclr (r : EngW) (s : State) : Out :=
  issueWord s r.mods (fun _ => {}) fun x =>
    let q := x.t.queue r.q.toNat
    x.done r.mods (if q.stopped then x.t.setQueue r.q.toNat { q with clear := true } else x.t) []

/-- The clear of a stopped queue: its commands are discarded, and count as completed (R239). It is made at the
boundary before that cycle, so that a `wait.q` sees it in the cycle itself (log entry 97). -/
def EngQ.cleared (x : EngQ) : EngQ :=
  if x.clear then
    { x with clear := false, cmds := [], stopped := false, closed := false, prog := none, chain := none, fixups := [],
             serial := none, refused := false, waited := false, checked := false, wantsFill := none }
  else x

/-! ## Signal slots -/

def execSigGet (r : RegW) (s : State) : Out :=
  issueWord s r.mods
    (fun x =>
      let on := x.gate0 r.pred r.pn
      { opds := [opdW 0 r.d 1 on], predR := gateReads r.pred, lat := 2, holds := on, off := !on })
    fun x =>
      if x.gate0 r.pred r.pn then
        x.done r.mods x.t [x.flyScalar r.d 2 (vget x.t.slots (r.c.toNat % 64) 0).toNat 0]
      else x.done r.mods x.t []

/-- A change of a slot in the cycle after the word issues (R242). -/
def slotWord (r : RegW) (s : State) (f : Nat → Nat → SlotChange) : Out :=
  issueWord s r.mods
    (fun x => { opds := [opdB 1 r.a 1 0xF], predR := gateReads r.pred, off := !x.gate0 r.pred r.pn })
    fun x =>
      if x.gate0 r.pred r.pn then
        let c := f (r.c.toNat % 64) ((x.t.scalar r.a).toNat % 2 ^ 32)
        x.done r.mods { x.t with slotNext := x.t.slotNext ++ [c] } []
      else x.done r.mods x.t []

def execSigAdd (r : RegW) (s : State) : Out := slotWord r s .add
def execSigSet (r : RegW) (s : State) : Out := slotWord r s .put

/-- `sig.add.r`: its handle is checked at issue; then it travels as a message (R243). -/
def execSigAddR (r : RegW) (s : State) : Out :=
  issueWord s r.mods
    (fun x => { opds := [opdB 1 r.a 2 0xF0F], predR := gateReads r.pred, off := !x.gate0 r.pred r.pn })
    fun x =>
      if x.gate0 r.pred r.pn then
        let h := (x.t.scalarAt r.a 1).toNat % 2 ^ 32
        let info := BitVec.ofNat 64 h
        if 576 ≤ handleCore h then x.trap { code := 0x12, reason := 0, info := info }
        else if handleCtx h ≠ x.t.ctx then x.trap { code := 0x12, reason := 2, info := info }
        else
          let n := x.s.nextReq
          let msg : SpMsg :=
            { h := x.h, k := x.k, tag := n, target := h,
              slotAdd := some (r.c.toNat % 64, (x.t.scalarAt r.a 0).toNat % 2 ^ 32) }
          let s := { x.s with nextReq := n + 1 }
          let c := s.core (handleCore h)
          let s := s.setCore (handleCore h) { c with msgs := c.msgs ++ [msg] }
          { x with s := s }.done r.mods x.t []
      else x.done r.mods x.t []

end Sys2Proof.Machine
end

