-- ==== Sys2Proof/Machine/EngineOps.lean ====
section
/-! DEFINITION. What engine queues share: tile states (R287), engine-command faults and the stopping of a queue (R95, R277,
R278). -/

namespace Sys2Proof.Machine

open Sys2Proof

/-! ## Tiles -/

def Team.tile? (t : Team) (n : Nat) : Option Tile := t.tiles[n]?

def Team.setTile (t : Team) (n : Nat) (x : Tile) : Team := { t with tiles := t.tiles.set n x }

def Team.setTileState (t : Team) (n : Nat) (st : TileState) : Team :=
  match t.tile? n with
  | some x => t.setTile n { x with st := st }
  | none => t

/-- A SIGNAL code 64–127 that names a tile takes effect (R287): held while the tile is filling or draining. -/
def Team.signalTile (t : Team) (n : Nat) : Team :=
  match t.tile? n with
  | some x =>
    match x.st with
    | .empty => t.setTile n { x with st := .ready }
    | .ready => t
    | _ => t.setTile n { x with held := true }
  | none => t

/-- A SIGNAL code takes effect (R93). -/
def Team.signal (t : Team) (code : Nat) : Team :=
  if code = 0 then t
  else if code < 64 then t.slotChange (.add code 1)
  else if code < 128 then t.signalTile (code - 64)
  else t

/-- The readers of a tile, one more or one fewer. -/
def Team.addReader (t : Team) (n : Nat) (up : Bool) : Team :=
  match t.tile? n with
  | some x => t.setTile n { x with readers := if up then x.readers + 1 else x.readers - 1 }
  | none => t

/-- The tiles that a command took are given back: filling ones and draining ones take the state given (R287). -/
def Team.releaseTiles (t : Team) (p : Prog) (drained : TileState) : Team :=
  let t := p.filling.foldl (fun t n => t.setTileState n .ready) t
  let t := p.draining.foldl (fun t n => t.setTileState n drained) t
  p.reading.foldl (fun t n => t.addReader n false) t

/-! ## Faults -/

/-- TRAPINFO of an engine fault (R277). -/
def engineInfo (q seq cmd detail : Nat) : BitVec 64 :=
  BitVec.ofNat 64 (q % 4 + (seq % 65536) * 2 ^ 8 + (cmd % 256) * 2 ^ 24 + (detail % 2 ^ 32) * 2 ^ 32)

/-- The sequence number of the command at the head, or of the `chain` that holds the current one. -/
def EngQ.headSeq (x : EngQ) : Nat := (x.cmds.head?.map fun c => c.seq.toNat).getD 0

/-- The CMD code of the command being checked or performed. -/
def EngQ.currentCode (x : EngQ) : Nat :=
  match x.prog with
  | some p => p.cmd.cmd.toNat
  | none => (x.cmds.head?.map fun c => c.cmd.cmd.toNat).getD 0

/-- An engine-command fault (R95, R277, R278): the tiles the command holds become ready, the queue stops with its commands
in it, and the event is posted to the team. -/
def State.stopQueue (s : State) (h q code reason detail : Nat) (cmd : Option Nat) : State :=
  match s.team? h with
  | none => s
  | some t =>
    let x := t.queue q
    if x.stopped then s
    else
      let info := engineInfo q x.headSeq (cmd.getD x.currentCode) detail
      let t := match x.prog with
        | some p => t.releaseTiles p .ready
        | none => t
      let t := t.setQueue q { x with
        stopped := true, prog := none, chain := none, fixups := [], serial := none, refused := false, waited := false,
        checked := false, wantsFill := none }
      (s.setTeam h t).postEvent h { code := code, reason := reason, src := 2, info := info } (some q)

/-- A fault that reaches a command by an answer from outside its queue stops the queue while that command is in progress
there (R278). -/
def State.stopCommand (s : State) (h q seq code reason detail : Nat) : State :=
  match s.team? h with
  | none => s
  | some t =>
    if (t.queue q).prog.isSome && (t.queue q).headSeq = seq then s.stopQueue h q code reason detail none else s

/-- The write-back of the first granule left fails (R296). -/
def Team.failBack (t : Team) : Team :=
  { t with wbFailed := t.wbFailed ++ t.wbLeft.take 1, wbLeft := t.wbLeft.drop 1, wbPosted := false, wbSerial := none }

/-- The detail of an engine's write that ends in a fault: the peer number for a fabric fault (R435), bits 63:32 of the
virtual address for an unresolved access (R277), the page of the virtual address for the others (R394). -/
def Posted.detail (e : Posted) (code : Nat) : Nat :=
  match e.target with
  | .peer p _ _ => if 0x40 ≤ code then p else if code = 0x34 then bits e.va 32 32 else bits e.va 12 32
  | _ => if code = 0x34 then bits e.va 32 32 else bits e.va 12 32

/-- A fault that a write in a core's path meets at its home, by its source (R394): a strand's is posted, an access
stream's halts the team, an engine's stops its queue, a write-back's (stream 8) fails its granule. -/
def State.writeFault (s : State) (e : Posted) (code reason : Nat) : State :=
  if e.k < 4 then s.postEvent e.h { code := code, reason := reason, info := BitVec.ofNat 64 e.va } none
  else if e.k = 4 then s.accessTrap e.h { code := code, reason := reason, info := BitVec.ofNat 64 e.va }
  else if e.k < 8 then s.stopCommand e.h (e.k - 5) ((e.cmdOf.map (·.1)).getD 0) code reason (e.detail code)
  else
    match s.team? e.h with
    | some t => s.setTeam e.h t.failBack
    | none => s

end Sys2Proof.Machine
end

