-- ==== Sys2Proof/Machine/Courses.lean ====
section
/-! DEFINITION. Courses and their checks (R416, R417), course-table entries (R421–R423, R425), flows (R426), and the
sending of a message to a peer (R428). -/

namespace Sys2Proof.Machine

open Sys2Proof

/-- Writes an event-log entry (R488): the 1,024 newest are kept; interrupt 33 is raised (R486). The source and the data
of an entry are free values (log entry 10). -/
def State.logEvent (s : State) (code about : Nat) : State :=
  let r : LogRec :=
    { seq := s.pkg.evtail, mer := BitVec.ofNat 64 s.meridian, source := Config.eventSource code about,
      code := code, data := Config.eventData code about }
  let l := s.binnacle.log ++ [r]
  { s with binnacle := { s.binnacle with log := l.drop (l.length - 1024) },
           pkg := { s.pkg with evtail := s.pkg.evtail + 1 } }.interrupt 33

/-! ## Course words (R416) -/

def hopOf (c : Word) (i : Nat) : Nat := bits c.toNat (6 * i) 6
def nhOf (c : Word) : Nat := bits c.toNat 24 2
def midOf (c : Word) : Nat := bits c.toNat 26 2
def destOf (c : Word) : Nat := bits c.toNat 32 11
def pathOf (c : Word) : Nat := bits c.toNat 48 8

/-- The check byte of a course word. -/
def chkOf (c : Word) : Nat := (List.range 7).foldl (fun acc i => acc ^^^ bits c.toNat (8 * i) 8) 0x5A

/-- A port entry of a node. -/
def Chart.port (ch : Chart) (node p : Nat) : Option PortEntry := (tget ch.nodes node).bind fun l => l[p]?

/-- The nodes a course visits from a node on; `none` where a port is absent or no link port (R417). -/
def Chart.visit (ch : Chart) (c : Word) : Nat → Nat → Nat → Option (List Nat)
  | 0, _, node => some [node]
  | k + 1, i, node =>
    if 35 ≤ hopOf c i then none
    else
      match ch.port node (hopOf c i) with
      | some e => if e.st = 0 then none else (ch.visit c k (i + 1) e.neigh).map (node :: ·)
      | none => none

/-- Whether every port the course takes is up, as far as the walk goes (R417). -/
def Chart.portsUp (ch : Chart) (c : Word) : Nat → Nat → Nat → Bool
  | 0, _, _ => true
  | k + 1, i, node =>
    if 35 ≤ hopOf c i then false
    else
      match ch.port node (hopOf c i) with
      | some e => e.st = 1 && ch.portsUp c k (i + 1) e.neigh
      | none => false

def noRepeat : List Nat → Bool
  | [] => true
  | a :: r => !r.contains a && noRepeat r

/-- The lowest failing cause at injection, checks in the order of the cause codes (R417). -/
def Chart.courseCause (ch : Chart) (c : Word) (peer : Nat) : Option Nat :=
  let nh := nhOf c
  let mid := midOf c
  let second := nh + 1 - mid
  let shapeOk := (mid = 0 && nh ≤ 1) || ((mid = 1 || mid = 2) && mid ≤ nh + 1 && 1 ≤ second && second ≤ 2)
  let nodes := ch.visit c (nh + 1) 0 ch.self
  if !shapeOk then some 1
  else if (match nodes with
      | some l => l.getLast? ≠ some (destOf c) || destOf c ≠ peer
      | none => false) then some 2
  else if !ch.portsUp c (nh + 1) 0 ch.self then some 3
  else if (match nodes with
      | some l => !noRepeat l
      | none => false) then some 4
  else if bits c.toNat 56 8 ≠ chkOf c then some 5
  else if bits c.toNat 28 4 ≠ 0 || bits c.toNat 43 5 ≠ 0
      || (List.range 4).any fun i => nh < i && hopOf c i ≠ 0 then some 6
  else none

/-! ## Course-table entries (R421, R422) -/

/-- The REASON of a peer of whose valid courses every one has failed: the cause of the highest-numbered (R425; which failed
last the entry does not say, log entry 76). -/
def lastCause (valid failed : Nat) (causes : List Nat) : Option Nat :=
  if valid &&& (failed ^^^ 15) ≠ 0 then none
  else (((List.range 4).filter fun i => bit valid i).getLast?).map fun i => bits (causes.getD i 0) 0 4

/-- An entry from its 64 bytes (R421, R13). -/
def courseEntryOf (x : Nat) : CourseEntry :=
  let causes := (List.range 4).map fun i => bits x (8 * (34 + i)) 8
  let bad := bits x (8 * 32 + 6) 2 ≠ 0 || 2 ≤ bits x (8 * 32 + 4) 2 || bits x (8 * 33 + 4) 4 ≠ 0
    || causes.any (fun c => bits c 6 2 ≠ 0) || bits x (8 * 38) (8 * 26) ≠ 0
  { courses := (List.range 4).map fun i => BitVec.ofNat 64 (bits x (64 * i) 64),
    valid := bits x (8 * 32) 4, policy := bits x (8 * 32 + 4) 2, failed := bits x (8 * 33) 4, causes := causes,
    unreachable := if bad || bits x (8 * 32) 4 = 0 then some 10 else lastCause (bits x (8 * 32) 4) (bits x (8 * 33) 4) causes }

def Context.course? (c : Context) (peer : Nat) : Option CourseEntry := tget c.courses peer

/-- An entry that says nothing yet. -/
def CourseEntry.blank : CourseEntry := { courses := [], valid := 0, policy := 0, failed := 0, causes := [], unreachable := none }

/-- The hardware's copy of a peer's entry; the event that makes the peer unreachable is logged (R425). -/
def State.putCourse (s : State) (ctx peer : Nat) (e : CourseEntry) : State :=
  let s := s.modCtx ctx fun c => { c with courses := tput c.courses peer e }
  if e.unreachable.isSome then s.logEvent 4 peer else s

/-- The entry could not be read: the peer is unreachable with REASON 11 (R422, R425). -/
def State.courseUnread (s : State) (ctx peer : Nat) : State :=
  s.putCourse ctx peer { CourseEntry.blank with unreachable := some 11 }

/-- Marks course i of a peer failed with its cause and hop; FAILED and CAUSE are to be written back (R422, R424, R425). -/
def State.failCourse (s : State) (ctx peer i cause hop : Nat) : State :=
  match (s.ctx? ctx).bind fun c => c.course? peer with
  | none => s
  | some e =>
    let failed := e.failed ||| 2 ^ i
    let causes := (e.causes.zipIdx).map fun p => if p.2 = i then cause + 16 * hop else p.1
    let left := e.valid &&& (failed ^^^ 15)
    let e' := { e with
      failed := failed, causes := causes, back := some {}, unreachable := if left = 0 then some cause else e.unreachable }
    if left = 0 && e.unreachable.isNone then s.putCourse ctx peer e'
    else s.modCtx ctx fun c => { c with courses := tput c.courses peer e' }

/-- The courses still usable, by index. -/
def CourseEntry.usable (e : CourseEntry) : List Nat := (List.range 4).filter fun i => bit e.valid i && !bit e.failed i

/-- The course that a message takes (R423): the checks mark failing courses until one passes. A message to no line takes its
place under POLICY 1 as one to address 0 (log entry 76). -/
def State.pickCourse (s : State) (ctx peer : Nat) (line : Option Nat) : Nat → Option (Nat × Word) × State
  | 0 => (none, s)
  | fuel + 1 =>
    match (s.ctx? ctx).bind fun c => c.course? peer, s.chart with
    | some e, some ch =>
      if e.unreachable.isSome then (none, s)
      else
        let us := e.usable
        let pick := if e.policy = 1 then us[lineHash (line.getD 0) % (max 1 us.length)]? else us.head?
        match pick with
        | none => (none, s)
        | some i =>
          let c := e.courses.getD i 0
          match ch.courseCause c peer with
          | none => (some (i, c), s)
          | some cause => (s.failCourse ctx peer i cause 0).pickCourse ctx peer line fuel
    | _, _ => (none, s)

/-! ## Sending (R418, R423, R426) -/

/-- What sending comes to: sent under a reference, to be tried again, or unreachable with the REASON of fault 0x40. -/
inductive Sent where
  | ref (n : Nat)
  | wait
  | unreachable (reason : Nat)

/-- The address of the line at the peer that a payload concerns, if it concerns one (R423, R424). -/
def payloadLine (p : Payload) : Option Nat :=
  match p with
  | .read pa _ _ => some (pa / 128 * 128)
  | .write pa _ => some (pa / 128 * 128)
  | .atomic _ _ _ pa _ _ => some (pa / 128 * 128)
  | .reduce _ _ _ pa _ _ _ _ _ => some (pa / 128 * 128)
  | .revoke lo _ => some (lo / 128 * 128)
  | _ => none

/-- The bytes at the peer that a payload concerns (R424). -/
def payloadRange (p : Payload) : Option (Nat × Nat) :=
  match p with
  | .read pa n _ => some (pa, n)
  | .write pa b => some (pa, b.length)
  | .atomic _ w _ pa _ _ => some (pa, w)
  | .reduce _ _ _ pa fd _ _ _ _ => some (pa, kindBytes (fdOf fd.toNat).kind)
  | .revoke lo _ => some (lo, 1)
  | _ => none

/-- Two payloads concern a line in common. -/
def shareLine (p q : Payload) : Bool :=
  match payloadRange p, payloadRange q with
  | some (a, n), some (b, m) => decide (a / 128 ≤ (b + m - 1) / 128) && decide (b / 128 ≤ (a + n - 1) / 128)
  | _, _ => false

/-- Payload bytes that count as Gliem traffic (R306, R307): of a reduction's update those of its element. -/
def payloadSize (p : Payload) : Nat :=
  match p with
  | .write _ b => b.length
  | .data b _ => b.length
  | .atomic _ w _ _ _ _ => w
  | .pageWrite _ _ _ b => b.length
  | .reduce _ _ _ _ fd _ _ _ _ => kindBytes (fdOf fd.toNat).kind
  | .collective _ _ _ b _ => b.length
  | _ => 0

/-- The next sequence number of a flow, and the table with it advanced. -/
def takeSeq (l : List FlowSeq) (ctx peer flow : Nat) : Nat × List FlowSeq :=
  match l.find? fun f => f.ctx = ctx && f.peer = peer && f.flow = flow with
  | some f => (f.next, l.map fun g =>
      if g.ctx = ctx && g.peer = peer && g.flow = flow then { g with next := (g.next + 1) % 2 ^ 32 } else g)
  | none => (0, l ++ [{ ctx := ctx, peer := peer, flow := flow, next := 1 }])

/-- Puts a packet at the router of this package (R418). -/
def State.inject (s : State) (p : Packet) : State :=
  let f := s.fabric
  { s with fabric := { f with transit := tput f.transit f.nextPkt p, nextPkt := f.nextPkt + 1 } }

/-- The team whose work a message is (R307). -/
def State.teamOf (s : State) (o : Origin) : Option Nat :=
  match o with
  | .request tag => (s.req? tag).map fun q => q.h
  | .posted core num => ((s.core core).path.find? fun e => e.num = num).map fun e => e.h
  | .engine h _ _ => some h
  | .fill h _ => some h
  | _ => none

/-- Counts payload that goes out for a die, and for the team whose work it is (R306, R307). -/
def State.countSent (s : State) (origin : Origin) (die n : Nat) : State :=
  let s := s.addTraffic die 6 n
  match s.teamOf origin with
  | some h => s.modTeam h fun t => t.count 6 n
  | none => s

/-- An earlier message to a line of a payload has not been acknowledged and took another course (R424). -/
def State.lineHeld (s : State) (ctx peer before course : Nat) (pay : Payload) : Bool :=
  s.fabric.outstanding.any fun o =>
    o.ref < before && o.packet.ctx = ctx && o.peer = peer && shareLine o.packet.payload pay
      && o.course ≠ course && o.moved.isNone

/-- While messages of a flow are unanswered, the destination's hold space for it may be full, and a sender waits (R426); its size
the spec leaves open (log entry 82). -/
def State.flowFull (s : State) (ctx peer flow : Nat) : Bool × State :=
  if s.fabric.outstanding.any fun o => o.packet.ctx = ctx && o.peer = peer && o.packet.flow = flow then s.choose else (false, s)

/-- Sends a request to a peer whose course-table entry the hardware holds. A message whose course would differ from that of
an earlier unanswered message to the same line is held (R424). -/
def State.sendKnown (s : State) (ctx peer hd die : Nat) (origin : Origin) (va : Nat) (pay : Payload) : Sent × State :=
  let (c, s) := s.pickCourse ctx peer (payloadLine pay) 5
  match c, s.chart with
  | some (i, w), some ch =>
    let (full, s) := s.flowFull ctx peer (pathOf w)
    if full || s.lineHeld ctx peer s.fabric.nextRef i pay then (.wait, s)
    else
      let (seq, flows) := takeSeq s.fabric.sendSeq ctx peer (pathOf w)
      let ref := s.fabric.nextRef
      let p : Packet :=
        { course := w, hop := 0, isReply := false, src := ch.self, ctx := ctx, flow := pathOf w, seq := seq, hd := hd,
          ref := ref, entered := [], payload := pay }
      let f := { s.fabric with sendSeq := flows, nextRef := ref + 1,
                               outstanding := s.fabric.outstanding ++
                                 [{ ref := ref, origin := origin, peer := peer, packet := p, sentAt := s.cycle, course := i, va := va }] }
      (.ref ref, (({ s with fabric := f }).inject p).countSent origin die (payloadSize pay))
  | _, _ =>
    let r := ((s.ctx? ctx).bind fun c => c.course? peer).bind fun e => e.unreachable
    (.unreachable (r.getD 10), s)

/-- The entry of a peer is held and its read is over. -/
def CourseEntry.ready (e : CourseEntry) : Bool := e.serial.isNone && !e.asked

/-- Reads a peer's entry (R422), with SRC 7 on the fault path: the answer is ready, or the read waits. An entry on a peer's
page is read there (R428), once that peer's own entry is held. -/
def State.readCourse (s : State) (ctx peer : Nat) : Nat → Bool × State
  | 0 => (false, s)
  | fuel + 1 =>
    match s.ctx? ctx with
    | none => (false, s)
    | some c =>
      let va := c.crstab + 64 * peer
      let (r, s) := s.resolve ctx 0 [] va 64 .read { src := 7 }
      let wait := fun (s : State) (e : CourseEntry) =>
        (false, s.modCtx ctx fun c => { c with courses := tput c.courses peer e })
      match r with
      | .ok (.frame pa) _ =>
        if s.lineBad pa 64 then (true, s.courseUnread ctx peer)
        else (true, s.putCourse ctx peer (courseEntryOf (Mem.readN s.hbm pa 64)))
      | .ok (.bell _) _ => (true, s.putCourse ctx peer (courseEntryOf 0))
      | .ok (.peer p pa hd ro) _ =>
        match c.course? p with
        | none => (false, (s.readCourse ctx p fuel).2)
        | some e =>
          if !e.ready then (false, s)
          else
            match s.sendKnown ctx p hd 0 (.course ctx peer) va (.read pa 64 ro) with
            | (.ref _, s) => wait s { CourseEntry.blank with asked := true }
            | (.wait, s) => (false, s)
            | (.unreachable _, s) => (true, s.courseUnread ctx peer)
      | .ok _ _ => (true, s.courseUnread ctx peer)
      | .fault _ => (true, s.courseUnread ctx peer)
      | .refused _ => (true, s.courseUnread ctx peer)
      | .wait k => wait s { CourseEntry.blank with serial := some k }
      | .full => (false, s)

/-- Sends a request to a peer on behalf of a context; its first use reads the peer's course-table entry (R422). -/
def State.sendPeer (s : State) (ctx peer hd die : Nat) (origin : Origin) (va : Nat) (pay : Payload) : Sent × State :=
  let known := (s.ctx? ctx).bind fun c => c.course? peer
  let (ready, s) := match known with
    | some e => (e.ready, s)
    | none => s.readCourse ctx peer 3
  if ready then s.sendKnown ctx peer hd die origin va pay else (.wait, s)

end Sys2Proof.Machine
end

