-- ==== Sys2Proof/Machine/MemForms.lean ====
section
/-! DEFINITION. What each memory word does to the bytes it names: widths (R214–R217), full/empty service (R217–R219),
atomics (R224–R226); addresses and their checks (R201–R206); requests. -/

namespace Sys2Proof.Machine

open Sys2Proof

/-- What an access does at the place it reaches: bytes accessed, bytes of its register destination, sign extension,
reading, writing, the atomic's FN and whether it is floating-point, the full/empty requirement and change, the
reading of bits, the scope entry, acquire and promotion. -/
structure Deed where
  width : Nat
  len   : Nat := 0
  sx    : Bool := false
  load  : Bool := false
  store : Bool := false
  amo   : Option (Nat × Bool) := none
  need  : Option Bool := none
  set   : Option Bool := none
  get   : Bool := false
  scope : Nat := 0
  acquire : Bool := false
  promote : Bool := false
  deriving DecidableEq, Repr

/-- Width in bytes of a scalar load's FN (R214). -/
def loadWidth (fn : Nat) : Nat := if fn = 3 then 8 else if fn < 3 then 2 ^ fn else 2 ^ (fn - 4)

/-- Registers of a vector access's FN (R215). -/
def groupRegs (fn : BitVec 4) : Nat := 2 ^ (fn.toNat % 8)

def amoDeed (r : MemW) : Deed :=
  let op := r.op.toNat % 4
  { width := if op = 0 then 4 else if op = 1 then 8 else if op = 2 then 4 else 2, len := 8, load := true, store := true,
    amo := some (r.fn.toNat, decide (2 ≤ op)), scope := r.scope.toNat }

/-- The deed of a memory word. -/
def deedOf : Instr → Deed
  | .ld r =>
    let f := r.fn.toNat % 8
    { width := loadWidth f, len := 8, sx := f < 3, load := true }
  | .st r => { width := 2 ^ (r.fn.toNat % 4), store := true }
  | .vld r => { width := 128 * groupRegs r.fn, len := 128 * groupRegs r.fn, load := true }
  | .vst r => { width := 128 * groupRegs r.fn, store := true }
  | .ldwF _ => { width := 8, len := 8, load := true, need := some true, acquire := true }
  | .ldwFe _ => { width := 8, len := 8, load := true, need := some true, set := some false, acquire := true }
  | .vldwF _ => { width := 128, len := 128, load := true, need := some true, acquire := true }
  | .vldwFe _ => { width := 128, len := 128, load := true, need := some true, set := some false, acquire := true }
  | .stwEf _ => { width := 8, store := true, need := some false, set := some true }
  | .stwF _ => { width := 8, store := true, set := some true }
  | .vstwEf _ => { width := 128, store := true, need := some false, set := some true }
  | .vstwF _ => { width := 128, store := true, set := some true }
  | .feEmpty _ => { width := 128, set := some false }
  | .feFull _ => { width := 128, set := some true }
  | .feGet _ => { width := 128, len := 8, get := true }
  | .fetch _ => { width := 128, len := 128, load := true }
  | .fetchF _ => { width := 128, len := 128, load := true, need := some true, acquire := true }
  | .fetchFe _ => { width := 128, len := 128, load := true, need := some true, set := some false, acquire := true }
  | .drain _ => { width := 128, store := true }
  | .drainEf _ => { width := 128, store := true, need := some false, set := some true }
  | .drainF _ => { width := 128, store := true, set := some true }
  | .rel r => { width := if r.fn = 0 then 8 else 4, store := true, scope := r.scope.toNat }
  | .acq r => { width := if r.fn = 0 then 8 else 4, len := 8, load := true, scope := r.scope.toNat, acquire := true }
  | .acqP r =>
    { width := if r.fn = 0 then 8 else 4, len := 8, load := true, scope := r.scope.toNat, acquire := true, promote := true }
  | .amoAdd r => amoDeed r
  | .amoAnd r => amoDeed r
  | .amoOr r => amoDeed r
  | .amoXor r => amoDeed r
  | .amoMinS r => amoDeed r
  | .amoMaxS r => amoDeed r
  | .amoMinN r => amoDeed r
  | .amoMaxN r => amoDeed r
  | .amoSwap r => amoDeed r
  | .amoCas r => amoDeed r
  | .amoFadd r => amoDeed r
  | .amoFmin r => amoDeed r
  | .amoFmax r => amoDeed r
  | _ => { width := 0 }

/-! ## Atomics (R225, R226) -/

/-- The new value of an integer location. -/
def amoInt (fn w m x cmp : Nat) : Nat :=
  match fn with
  | 0 => (m + x) % 2 ^ w
  | 1 => m &&& x
  | 2 => m ||| x
  | 3 => m ^^^ x
  | 4 => if toSigned w x < toSigned w m then x else m
  | 5 => if toSigned w m < toSigned w x then x else m
  | 6 => min m x
  | 7 => max m x
  | 8 => x
  | _ => if m = cmp then x else m

/-- The new value of a floating-point location, and the flags the reply carries. -/
def amoFloat (fn bytes m x : Nat) : Nat × Nat :=
  let f := if bytes = 4 then fmtF32 else fmtBf16
  match fn with
  | 0 => fpAdd f .rne m x
  | 1 => fpMinMax f false m x
  | _ => fpMinMax f true m x

/-- New value and flags of an atomic on the old value m. -/
def Deed.update (d : Deed) (m x cmp : Nat) : Nat × Nat :=
  let w := 8 * d.width
  match d.amo with
  | some (fn, fp) => if fp then amoFloat fn d.width m (x % 2 ^ w) else (amoInt fn w m (x % 2 ^ w) (cmp % 2 ^ w), 0)
  | none => (m, 0)

/-- The register value of the bytes read: an atomic of width 32 extends by sign for FN 4 and 5 (R225), a scalar load
as its type says (R214), a group takes them as they are. -/
def Deed.result (d : Deed) (v : Nat) : Nat :=
  match d.amo with
  | some (fn, fp) => if !fp && d.width = 4 && (fn = 4 || fn = 5) then extend true 32 v else v
  | none => if d.sx then extend true (8 * d.width) v else v

/-! ## Service at a bank unit (R219) -/

/-- Whether word k was full at the start of the cycle. -/
def Team.startFull (t : Team) (k : Nat) : Bool :=
  match t.feBusy.find? fun e => e.1 = k with
  | some e => e.2
  | none => t.isFull k

/-- Word k as it stood at the start of the cycle. -/
def Team.startWord (t : Team) (k : Nat) : Nat :=
  match t.spBusy.find? fun e => e.1 = k with
  | some e => e.2
  | none => Mem.readN t.sp (8 * k) 8

/-- Performs a deed on the SP window at `off`: the value read and the flags, unless the requirement does not hold or
another request of the cycle took the change. -/
def Team.serve (t : Team) (d : Deed) (off x cmp mask : Nat) : Option (Nat × Nat × Team) :=
  let ks := (List.range (d.width / 8)).map (· + off / 8)
  let testOk := match d.need with
    | some b => ks.all fun k => t.startFull k = b
    | none => true
  let clash := d.set.isSome && ks.any fun k => t.feBusy.any fun e => e.1 = k
  if !testOk || clash then none
  else
    let v :=
      if d.get then (ks.zipIdx).foldl (fun acc e => acc + if t.startFull e.1 then 2 ^ e.2 else 0) 0
      else if d.need.isSome && d.load then ofElems 8 (ks.map t.startWord)
      else if d.load then t.readWindow .sp off d.width
      else 0
    let (new, fl) := if d.amo.isSome then d.update v x cmp else (x, 0)
    let old := ks.map fun k => (k, t.startFull k)
    let t := if d.store then t.writeWindow .sp off new (if d.amo.isSome then ones d.width else mask) d.width else t
    let t := match d.set with
      | some b => { t.setFull (off / 8) (d.width / 8) b with feBusy := t.feBusy ++ old }
      | none => t
    some (d.result v, fl, t)

/-! ## Addresses (R201–R206) -/

/-- EA, or the offset in the window (R201, R202). -/
def Here.address (x : Here) (r : MemW) : Nat := ((x.t.scalar r.base).toNat + sxt 16 r.off.toNat) % 2 ^ 64

/-- The BASE operand: a group of 2 in a remote form (R202). -/
def baseOpd (r : MemW) : Opd := if MemW.remote r then opdB 1 r.base 2 0xFFF else opdR 1 r.base 1

/-- The handle of a remote form (R202). -/
def Here.remoteHandle (x : Here) (r : MemW) : Nat := (x.t.scalarAt r.base 1).toNat % 2 ^ 32

/-- The checks of R206: non-canonical address, alignment, buffer range of a local access. -/
def Here.addressTrap (x : Here) (r : MemW) (ea width align : Nat) : Option TrapInfo :=
  let info := BitVec.ofNat 64 ea
  let g := r.space = 0 && !MemW.remote r
  if g && !isCanon ea then some { code := 0x13, info := info }
  else if ea % align ≠ 0 then some { code := 0x10, info := info }
  else if !g && !MemW.remote r && x.t.windowSize (bufOfSpace r.space.toNat) < ea + width then
    some { code := 0x11, reason := r.space.toNat, info := info }
  else none

/-- A granule of the range, among those with an enabled byte, that is not present: its fill starts and the word holds
(R293, R294). -/
def Here.fillHold (x : Here) (r : MemW) (off n mask : Nat) : Option State :=
  if r.space ≠ 1 then none
  else
    (x.t.missing off n mask).map fun g =>
      (x.withTeam (x.t.startFill g)).hold (.granule g)

/-- The word's machine and team after another part of the state has changed. -/
def Here.reload (x : Here) (s : State) : Here := { x with s := s, t := (s.team? x.h).getD x.t }

/-- The byte mask of a vector access: byte j by g(j mod 128) (R207). -/
def Here.byteMask (x : Here) (r : MemW) (n : Nat) : Nat :=
  let g := (x.sd.gate r.pred r.pn).toNat
  (List.range (n / 128)).foldl (fun acc j => acc ||| (g <<< (128 * j))) 0

/-! ## Requests (R209) -/

/-- The target of a remote form: the core its handle names, or the remote-target fault (R205). -/
def remoteTarget (t : Team) (handle : Nat) : ReqState :=
  if 576 ≤ handleCore handle then .failed { code := 0x12, reason := 0, info := BitVec.ofNat 64 handle }
  else if handleCtx handle ≠ t.ctx then .failed { code := 0x12, reason := 2, info := BitVec.ofNat 64 handle }
  else .message (handleCore handle)

/-- Creates a request for the word and gives its tag; unless the word orders it after more, it follows the writes that a
wide release fence before it puts first, and one that writes those of a narrow one too (R319, R322). -/
def Here.request (x : Here) (q : Req) : Nat × Here :=
  let n := x.s.nextReq
  let q := if q.upto = 0 then
      { q with upto := if (deedOf q.word).store then max x.sd.relUpto x.sd.relOwn else x.sd.relUpto, acq := x.sd.relAcq }
    else q
  let s := { x.s with nextReq := n + 1 }.setReq n { q with tag := n, h := x.h, k := x.k, pc := x.pc }
  (n, { x with s := s })

/-- A request with nothing filled in but its word, address and destination. -/
def Req.of (i : Instr) (ea dest : Nat) : Req :=
  { tag := 0, h := 0, k := 0, pc := 0, word := i, ea := ea, x := 0, cmp := 0, handle := 0, mask := 0, dest := dest,
    st := .start }

/-- The smallest of scope entries 1 to 4 that holds two cores (R328). -/
def implicitScope (a b : Nat) : Nat :=
  if a = b then 1 else if quadOf a = quadOf b then 2 else if dieOf a = dieOf b then 3 else 4

/-- A deed that compares with s[d] as well (R225). -/
def Deed.compares (d : Deed) : Bool :=
  match d.amo with
  | some (fn, fp) => !fp && fn = 9
  | none => false

/-- A deed that releases at a bank unit: it fills or empties words without reading them (R318, R328). -/
def Deed.releases (d : Deed) : Bool := d.set.isSome && !d.load

/-- A word whose value comes with a reply: its request is made. It ends the strand's block, and the strand waits for the
reply (R209). The access stream, which has no blocks, waits only for an acquire and goes on after any other (R82,
R319). -/
def Here.await (x : Here) (m : Mods) (q : Req) : State :=
  let (n, x) := x.request q
  if 4 ≤ x.k && !(deedOf q.word).acquire then x.done m x.t [] else x.wait m x.t (.reply n)

/-- A request of the access stream is still to be performed. -/
def Here.accessBusy (x : Here) : Bool := decide (4 ≤ x.k) && x.s.reqs.any fun e => e.2.h = x.h && e.2.k = 4

/-- A tagged event must wait while the counter of its die leads too far (R323). -/
def Here.leadHeld (x : Here) (wide : Bool) : Bool := wide && !x.s.leadOk (dieOf x.t.core)

/-- A release at a scope: its write set is sent with a tag when the scope reaches another C-die (R323). The answer is the
tag, for the writes that it releases. -/
def Here.tagRelease (x : Here) (wide : Bool) : Option (Nat × Vector (BitVec 16) 4) × Here :=
  if wide then
    let (tag, s) := x.s.tagPath x.t.core
    (some tag, { x with s := s })
  else (none, x)

/-- A deed at the bank unit of a handle's core releases to another C-die: a tagged event (R323, R328). -/
def Deed.releasesFar (d : Deed) (core handle : Nat) : Bool := d.releases && decide (dieOf core ≠ dieOf (handleCore handle))

/-- A remote form: a request that goes as a message to the bank unit of the target's core once what it must follow is
performed (R319, R322): of a full/empty release whose implicit scope is wider than the core, the writes that happen
before it (R328). -/
def Here.awaitRemote (x : Here) (m : Mods) (i : Instr) (handle ea v mask dest : Nat) : State :=
  let d := deedOf i
  if d.releases && (!x.sd.spills.isEmpty || x.accessBusy) || x.leadHeld (d.releasesFar x.t.core handle) then x.hold .none
  else
    let (_, x) := x.tagRelease (d.releasesFar x.t.core handle)
    let q := { Req.of i ea dest with x := v, mask := mask, handle := handle }
    let q := if d.releases && decide (1 < implicitScope x.t.core (handleCore handle)) then
        { q with upto := (x.s.core x.t.core).nextNum, acq := x.sd.acqUpto } else q
    (x.withTeam (x.t.count 8 1)).await m q

/-! ## Order of requests (R213, R319) -/

/-- The form's bytes lie at the bank unit of a team (R202). -/
def Req.isRemote (q : Req) : Bool := (q.word.memForm.map fun p => MemW.remote p.1).getD false

/-- The space of a request's word: 0 global, 1 to 4 a window. -/
def Req.space (q : Req) : Nat := (q.word.memForm.map fun p => p.1.space.toNat).getD 0

/-- The bytes of a request: global ones, or those of the SP window of a team, with their first byte and number. -/
def Req.extent (q : Req) : Option Nat × Nat × Nat :=
  let d := deedOf q.word
  (if q.isRemote then some q.handle else if q.space ≠ 0 then some q.h else none, bits q.ea 0 56, d.width)

/-- A word on the stream's own window that is to be served at its banks: its request waits for that cycle's turn (R212). -/
def Req.atBank (q : Req) : Bool :=
  !q.isFetch && !q.isRemote && q.space ≠ 0 && (match q.st with
    | .start => true
    | .promoted => true
    | _ => false)

/-- Two byte ranges of one space share a byte. -/
def extentsMeet (a b : Option Nat × Nat × Nat) : Bool :=
  decide (a.1 = b.1) && decide (a.2.1 < b.2.1 + b.2.2) && decide (b.2.1 < a.2.1 + a.2.2)

/-- A byte range of a frame: of this package, or of a peer. -/
abbrev FrameRange := Option Nat × Nat × Nat

/-- The frames that a range of addresses reaches by the page table as it stands. -/
def State.framesAt (s : State) (ctx va n : Nat) : List FrameRange :=
  (pagesOf va n).filterMap fun p =>
    match s.walk ctx p.1 with
    | .leaf level e => some (if s.pteLocal e then none else some (ptePeer e), ptePa e + p.1 % leafSize level, p.2.2)
    | _ => none

/-- The frame range of a piece. -/
def Piece.frame? (p : Piece) : Option FrameRange :=
  match p.loc with
  | .frame pa => some (none, pa, p.len)
  | .peer r pa _ _ => some (some r, pa, p.len)
  | _ => none

/-- The frames that a global request is still to access. -/
def State.framesOf (s : State) (q : Req) : List FrameRange :=
  match q.locs with
  | some l => l.filterMap Piece.frame?
  | none => s.framesAt (handleCtx q.h) q.ea (deedOf q.word).width

/-- A request of the access stream still touches bytes of an extent, by the same address or by another of the same frame
(R213). -/
def State.meets (s : State) (q : Req) (x : Option Nat × Nat × Nat) : Bool :=
  extentsMeet q.extent x ||
    (q.extent.1.isNone && x.1.isNone &&
      (s.framesOf q).any fun a => (s.framesAt (handleCtx q.h) (canon x.2.1) x.2.2).any fun b => extentsMeet a b)

/-- A request of the access stream that still touches bytes of an extent (R213); one issued before request `n`. -/
def State.accessMeets (s : State) (h n : Nat) (x : Option Nat × Nat × Nat) : Bool :=
  s.reqs.any fun e => decide (e.1 < n) && e.2.h = h && e.2.k = 4 && !e.2.isFetch && s.meets e.2 x

/-- What a request must follow has been performed: writes that a release puts before it (R319, R322), its strand's local
stores where they must come first, and the access stream's earlier accesses of its bytes (R213). -/
def State.reqClear (s : State) (q : Req) : Bool :=
  match s.team? q.h with
  | none => true
  | some t =>
    let sp := (t.strand q.k).spills
    s.setClear t.core q.h q.k q.upto q.acq
      && (if (deedOf q.word).releases || (q.isRemote && q.handle = q.h) then sp.isEmpty else !sp.any fun e => e.fenced)
      && !(q.k = 4 && s.accessMeets q.h q.tag q.extent)

end Sys2Proof.Machine
end

