-- ==== Sys2Proof/Machine/LoadStore.lean ====
section
/-! DEFINITION. Loads and stores (R214–R216), full/empty forms (R217–R219) and atomics (R224–R228) as a stream issues
them; what a request comes to at its reply stands in `Sys2Proof/Machine/Replies.lean`. -/

namespace Sys2Proof.Machine

open Sys2Proof

/-! ## Banks (R212, R282–R284) -/

/-- Width in bytes of a buffer's bank words (R282). -/
def bankWidth : Buf → Nat
  | .wb => 8
  | .ab => 8
  | .cb => 16
  | .sp => 16

/-- The bank that holds a byte of a team's window: of the 32 of WB, AB or CB; of SP 8 for each quarter of the window (R282,
R283). -/
def Team.bankOf (t : Team) (b : Buf) (off : Nat) : Nat :=
  match b with
  | .sp => off / (4096 * ceilDiv t.spg 4) * 8 + off / 16 % 8
  | b => off / bankWidth b % 32

/-- The banks that an access of a word takes, 128 bytes of bank words in a cycle from the one in which it issues (log entry
75). -/
def Team.bankUses (t : Team) (cycle : Nat) (sync : Bool) (b : Buf) (off len mask : Nat) : List BankUse :=
  let w := bankWidth b
  (enabledUnits w off len mask).map fun u =>
    { cycle := cycle + (u - off / w) / (128 / w), buf := b, bank := t.bankOf b (w * u), h := t.handle, sync := sync }

/-- No other word has taken the bank for that cycle; members of one sync group do not contend (log entry 75). -/
def BankUse.free (u : BankUse) (l : List BankUse) : Bool :=
  !l.any fun e => e.cycle = u.cycle && e.buf = u.buf && e.bank = u.bank && !(e.h = u.h && e.sync && u.sync)

/-- The banks that this word needs are free. -/
def Here.banksFree (x : Here) (m : Mods) (b : Buf) (off len mask : Nat) : Bool :=
  (x.t.bankUses x.s.cycle m.sync b off len mask).all fun u => u.free (x.s.core x.t.core).bankUse

/-- A word takes its banks and goes on, or is not served and holds (R212). -/
def Here.atBanks (x : Here) (m : Mods) (b : Buf) (off len mask : Nat) (k : Here → State) : State :=
  if x.banksFree m b off len mask then
    k { x with s := x.s.modCore x.t.core fun c =>
      { c with bankUse := c.bankUse ++ x.t.bankUses x.s.cycle m.sync b off len mask } }
  else x.hold .none

/-- What a local access must follow has been performed: the writes that a wide release fence puts before it (R319), and in
the access stream its own accesses of those bytes that are on their way (R213). -/
def Here.localReady (x : Here) (r : MemW) (off width : Nat) : Bool :=
  x.s.setClear x.t.core x.h x.k x.sd.relUpto x.sd.relAcq
    && !(4 ≤ x.k && r.space = 1 && x.s.accessMeets x.h x.s.nextReq (some x.h, off, width))

/-- A local access: its granules present, its turn come, its banks free. -/
def Here.localAccess (x : Here) (r : MemW) (off width mask : Nat) (k : Here → State) : State :=
  match x.fillHold r off width mask with
  | some s => s
  | none =>
    if x.localReady r off width then x.atBanks r.mods (bufOfSpace r.space.toNat) off width mask k else x.hold .none

/-! ## Loads and stores of windows and of global memory -/

/-- The bytes of memory that a word reads: those of the enabled bytes of its group, or all (R207). -/
def Deed.readMask (d : Deed) (mask : Nat) : Nat := if d.len = d.width then mask else ones d.width

/-- Translates the bytes of an access-stream word at issue (R400): goes on with its pieces, traps, halts or holds. -/
def Here.accessTranslate (x : Here) (ea n mask : Nat) (acc : Acc) (k : Here → List Piece → State) : State :=
  let (r, s) := x.s.spans x.t.ctx (dieOf x.t.core) (x.s.aperturesOf x.t) ea n mask acc { src := 1, handle := x.h }
  let y := x.reload s
  match r with
  | .ok ps => k y ps
  | .fault ti => y.trap ti
  | .refused ti => y.trap ti
  | .wait n => (y.withTeam { y.t with accSerial := some n, accVa := ea }).hold .none
  | .full => y.hold .none

/-- A load of SPACE g. The access stream translates it at issue (R400); a strand's word goes on to the reply (R209). -/
def Here.globalAwait (x : Here) (m : Mods) (i : Instr) (ea mask dest : Nat) : State :=
  let q := { Req.of i ea dest with mask := mask }
  if x.k < 4 then x.await m q
  else x.accessTranslate ea (deedOf i).width ((deedOf i).readMask mask) .read fun y ps =>
    y.await m { q with locs := some (ps.flatMap fun p => p.runs ((deedOf i).readMask mask)) }

/-- A load of a window: the read is made one unit later, the result lands after `lat` (R208). -/
def Here.localLoad (x : Here) (m : Mods) (r : MemW) (off width len : Nat) (sx : Bool) (mask lat : Nat) (dest : BitVec 8) :
    State :=
  let f : Flight :=
    { land := x.sd.time + lat, dest := .reg (x.t.regOff dest), len := len, data := 0, mask := mask, flags := 0,
      src := some { buf := bufOfSpace r.space.toNat, off := off, width := width, sx := sx }, readAt := x.sd.time + 1 }
  x.done m x.t f.kept

/-- A store to a window: an entry of the spill forwarding table, performed three units later (R208, R297); `logs` as in
`Spill`. -/
def Here.localStore (x : Here) (m : Mods) (r : MemW) (off width data mask : Nat) (logs : List Nat := []) : State :=
  let e : Spill :=
    { perform := x.sd.time + 3, buf := bufOfSpace r.space.toNat, off := off, len := width, data := data, mask := mask,
      logs := logs }
  let t := x.t.setStrand x.k { x.sd with spills := x.sd.spills ++ [e] }
  x.done m t []

/-- A ninth entry of the spill forwarding table holds the word (R298). -/
def Here.spillRoom (x : Here) : Bool := x.sd.spills.length < 8

/-- Who posts a write for a word of this stream: a write that follows what a release fence puts before it, with the tag of a
wide one (R319, R322, R323). -/
def Here.writer (x : Here) : Writer :=
  { h := x.h, k := x.k, ctx := x.t.ctx, core := x.t.core, aps := x.s.aperturesOf x.t,
    src := if x.k < 4 then 0 else 1, after := max x.sd.relUpto x.sd.relOwn, acq := x.sd.relAcq, tag := x.sd.relTag, pc := x.pc }

/-- A write of SPACE g by a word: posted by a strand (R216); the access stream halts at a fault of the fault path (R400). It
waits for local stores that a release fence puts before it (R319), and in the access stream for earlier loads of its
bytes (R213). `k` goes on once the write is entered. -/
def Here.globalWrite (x : Here) (w : Writer) (ea width data mask : Nat) (k : Here → State) : State :=
  if (x.sd.spills.any fun e => e.fenced) || (4 ≤ x.k && x.s.accessMeets x.h x.s.nextReq (none, bits ea 0 56, width)) then
    x.hold .none
  else
    match x.s.post w ea width data mask (4 ≤ x.k) with
    | .ok s => k (x.reload s)
    | .hold s => (x.reload s).hold .none
    | .fault s ti => (x.reload s).trap ti
    | .halted s n => ((x.reload s).withTeam { (x.reload s).t with accSerial := some n, accVa := ea }).hold .none

/-- A store of SPACE g. -/
def Here.globalStore (x : Here) (ea width data mask : Nat) (k : Here → State) : State :=
  x.globalWrite x.writer ea width data mask k

/-! ## Scalar loads and stores -/

def execLd (r : MemW) (s : State) : Out :=
  let d := deedOf (.ld r)
  let isLocal := r.space ≠ 0 && !MemW.remote r
  issueWord s r.mods
    (fun x =>
      let on := x.gate0 r.pred r.pn
      { opds := [opdW 0 r.d 1 on, baseOpd r], predR := gateReads r.pred, lat := if isLocal then 4 else 0,
        holds := on && isLocal, off := !on })
    fun x =>
      if !x.gate0 r.pred r.pn then x.done r.mods x.t []
      else
        let ea := x.address r
        match x.addressTrap r ea d.width d.width with
        | some ti => x.trap ti
        | none =>
          if MemW.remote r then x.awaitRemote r.mods (.ld r) (x.remoteHandle r) ea 0 0xFF (x.t.regOff r.d)
          else if r.space = 0 then x.globalAwait r.mods (.ld r) ea 0xFF (x.t.regOff r.d)
          else x.localAccess r ea d.width (ones d.width) fun x => x.localLoad r.mods r ea d.width 8 d.sx 0xFF 4 r.d

def execSt (r : MemW) (s : State) : Out :=
  let d := deedOf (.st r)
  issueWord s r.mods
    (fun x => { opds := [opdB 0 r.d 1 (ones d.width), baseOpd r], predR := gateReads r.pred,
                off := !x.gate0 r.pred r.pn })
    fun x =>
      if !x.gate0 r.pred r.pn then x.done r.mods x.t []
      else
        let ea := x.address r
        let v := (x.t.scalar r.d).toNat % 2 ^ (8 * d.width)
        match x.addressTrap r ea d.width d.width with
        | some ti => x.trap ti
        | none =>
          if MemW.remote r then x.awaitRemote r.mods (.st r) (x.remoteHandle r) ea v (ones d.width) 0
          else if r.space = 0 then x.globalStore ea d.width v (ones d.width) fun y => y.done r.mods y.t []
          else if !x.spillRoom then x.hold .none
          else x.localAccess r ea d.width (ones d.width) fun x => x.localStore r.mods r ea d.width v (ones d.width)

/-! ## Vector loads and stores -/

/-- Latency of a local vector load (R208). -/
def vloadLat (n : Nat) : Nat := if n = 1 then 6 else if n = 2 then 7 else 9

def execVld (r : MemW) (s : State) : Out :=
  let n := groupRegs r.fn
  let w := 128 * n
  let isLocal := r.space ≠ 0 && !MemW.remote r
  issueWord s r.mods
    (fun x => { opds := [⟨0, r.d, n, 0, x.byteMask r w⟩, baseOpd r], predR := gateReads r.pred,
                lat := if isLocal then vloadLat n else 0, holds := isLocal && decide (x.byteMask r w ≠ 0) })
    fun x =>
      let ea := x.address r
      let mask := x.byteMask r w
      match x.addressTrap r ea w 8 with
      | some ti => x.trap ti
      | none =>
        if MemW.remote r then x.awaitRemote r.mods (.vld r) (x.remoteHandle r) ea 0 mask (x.t.regOff r.d)
        else if r.space = 0 then x.globalAwait r.mods (.vld r) ea mask (x.t.regOff r.d)
        else x.localAccess r ea w mask fun x => x.localLoad r.mods r ea w w false mask (vloadLat n) r.d

/-- `vst`: a pop as its source takes its entry in the cycle in which the word issues (R176, R215). -/
def execVst (r : MemW) (s : State) : Out :=
  let n := groupRegs r.fn
  let w := 128 * n
  issueWord s r.mods
    (fun x => { opds := [opdB 0 r.d n (x.byteMask r w), baseOpd r], predR := gateReads r.pred })
    fun x =>
      let ea := x.address r
      let mask := x.byteMask r w
      match x.addressTrap r ea w 8 with
      | some ti => x.trap ti
      | none =>
        match x.lacking [r.d] with
        | some q => x.popMissing q 1
        | none =>
          let v := (x.sourceValues [(r.d, n)]).getD 0 0
          if MemW.remote r then
            (x.popAll [r.d]).awaitRemote r.mods (.vst r) (x.remoteHandle r) ea v mask 0
          else if r.space = 0 then
            x.globalStore ea w v mask fun y =>
              let y := y.popAll [r.d]
              y.done r.mods y.t []
          else if !x.spillRoom then x.hold .none
          else x.localAccess r ea w mask fun x => (x.popAll [r.d]).localStore r.mods r ea w v mask

/-! ## Full/empty forms -/

/-- A local full/empty word must wait for local stores of its stream: those to its bytes (R218), and before a release all,
with the access stream's accesses on their way (R319). -/
def Here.feBlocked (x : Here) (d : Deed) (ea : Nat) : Bool :=
  if d.releases then !x.sd.spills.isEmpty || x.accessBusy
  else x.sd.spills.any fun e => e.buf = .sp && decide (e.off < ea + d.width) && decide (ea < e.off + e.len)

/-- The stream of this word acquires when it reads `width` bytes of its own window as an acquire (R319, R323). -/
def Here.acquireIf (x : Here) (b : Bool) (ea width : Nat) : Here :=
  if b then x.reload ((x.s.acquires x.h x.k).acquireTag x.t.core (spKey x.h ea) width) else x

/-- A full/empty form (R217–R219): a local one issues in the cycle in which it is served, a remote one is a
request. `value` gives the stored data, `n` the registers of the destination (0 none), `src` says that D is a
source. -/
def fullEmptyWord (r : MemW) (s : State) (i : Instr) (scalarD : Bool) (src : Bool) (lat : Nat) : Out :=
  let d := deedOf i
  let remote := MemW.remote r
  issueWord s r.mods
    (fun x =>
      let on := x.gate0 r.pred r.pn
      let dOpd := if src then [opdR 0 r.d 1] else if d.len ≠ 0 then [opdW 0 r.d 1 on] else []
      { opds := dOpd ++ [baseOpd r], predR := gateReads r.pred, lat := lat,
        holds := on && !remote && d.len ≠ 0, off := !on })
    fun x =>
      if !x.gate0 r.pred r.pn then x.done r.mods x.t []
      else
        let ea := x.address r
        let v := if !src then 0 else if scalarD then (x.t.scalar r.d).toNat else x.t.vector r.d 1
        let dest := if d.len ≠ 0 then x.t.regOff r.d else 0
        match x.addressTrap r ea d.width 8 with
        | some ti => x.trap ti
        | none =>
          if remote then x.awaitRemote r.mods i (x.remoteHandle r) ea v (ones d.width) dest
          else
            match x.fillHold r ea d.width (ones d.width) with
            | some s => s
            | none =>
              if x.feBlocked d ea || !x.localReady r ea d.width then x.hold .none
              else
                match x.t.serve d ea v 0 (ones d.width) with
                | none => x.hold (.fe ea (if d.need.isSome then d.width / 8 else 0) (d.need.getD true))
                | some (v, _, t) =>
                  let f : Flight :=
                    { land := x.sd.time + lat, dest := .reg dest, len := d.len, data := v, mask := ones d.len,
                      flags := 0, readAt := 0,
                      src := if d.load then some { buf := .sp, off := ea, width := d.width, sx := false } else none }
                  x.atBanks r.mods .sp ea d.width (ones d.width) fun x =>
                    let x := (x.withTeam t).acquireIf d.acquire ea d.width
                    x.done r.mods x.t (if d.len ≠ 0 then [f] else [])

def execLdwF (r : MemW) (s : State) : Out := fullEmptyWord r s (.ldwF r) true false 4
def execLdwFe (r : MemW) (s : State) : Out := fullEmptyWord r s (.ldwFe r) true false 4
def execVldwF (r : MemW) (s : State) : Out := fullEmptyWord r s (.vldwF r) false false 6
def execVldwFe (r : MemW) (s : State) : Out := fullEmptyWord r s (.vldwFe r) false false 6
def execStwEf (r : MemW) (s : State) : Out := fullEmptyWord r s (.stwEf r) true true 0
def execStwF (r : MemW) (s : State) : Out := fullEmptyWord r s (.stwF r) true true 0
def execVstwEf (r : MemW) (s : State) : Out := fullEmptyWord r s (.vstwEf r) false true 0
def execVstwF (r : MemW) (s : State) : Out := fullEmptyWord r s (.vstwF r) false true 0
def execFeEmpty (r : MemW) (s : State) : Out := fullEmptyWord r s (.feEmpty r) true false 0
def execFeFull (r : MemW) (s : State) : Out := fullEmptyWord r s (.feFull r) true false 0
def execFeGet (r : MemW) (s : State) : Out := fullEmptyWord r s (.feGet r) true false 4

/-! ## Atomics -/

/-- An atomic (R224): a request in every space; D is a group of 2, of which s[d] takes the old value. -/
def amoWord (r : MemW) (s : State) (i : Instr) : Out :=
  let d := deedOf i
  let remote := MemW.remote r
  issueWord s r.mods
    (fun x =>
      let on := x.gate0 r.pred r.pn
      { opds := [⟨0, r.d, 2, ones d.width <<< 8 ||| (if d.compares then ones d.width else 0), if on then 0xFF else 0⟩,
                 baseOpd r],
        predR := gateReads r.pred, scope := some r.scope.toNat, off := !on })
    fun x =>
      if !x.gate0 r.pred r.pn then x.done r.mods x.t []
      else
        let ea := x.address r
        match x.addressTrap r ea d.width d.width with
        | some ti => x.trap ti
        | none =>
          let q := { Req.of i ea (x.t.regOff r.d) with
            x := (x.t.scalarAt r.d 1).toNat, cmp := (x.t.scalarAt r.d 0).toNat, mask := 0xFF }
          if remote then
            let h := x.remoteHandle r
            (x.withTeam (x.t.count 8 1)).await r.mods { q with handle := h }
          else x.await r.mods q

def execAmoAdd (r : MemW) (s : State) : Out := amoWord r s (.amoAdd r)
def execAmoAnd (r : MemW) (s : State) : Out := amoWord r s (.amoAnd r)
def execAmoOr (r : MemW) (s : State) : Out := amoWord r s (.amoOr r)
def execAmoXor (r : MemW) (s : State) : Out := amoWord r s (.amoXor r)
def execAmoMinS (r : MemW) (s : State) : Out := amoWord r s (.amoMinS r)
def execAmoMaxS (r : MemW) (s : State) : Out := amoWord r s (.amoMaxS r)
def execAmoMinN (r : MemW) (s : State) : Out := amoWord r s (.amoMinN r)
def execAmoMaxN (r : MemW) (s : State) : Out := amoWord r s (.amoMaxN r)
def execAmoSwap (r : MemW) (s : State) : Out := amoWord r s (.amoSwap r)
def execAmoCas (r : MemW) (s : State) : Out := amoWord r s (.amoCas r)
def execAmoFadd (r : MemW) (s : State) : Out := amoWord r s (.amoFadd r)
def execAmoFmin (r : MemW) (s : State) : Out := amoWord r s (.amoFmin r)
def execAmoFmax (r : MemW) (s : State) : Out := amoWord r s (.amoFmax r)

end Sys2Proof.Machine
end

