-- ==== Sys2Proof/Machine/Sync.lean ====
section
/-! DEFINITION. Fences, release, acquire and the remote-promoting acquire (R229–R231), and barriers (R232, R233), as a
strand issues them. -/

namespace Sys2Proof.Machine

open Sys2Proof

/-- `fence`: waits until the earlier writes are performed at the scope (R229). -/
def execFence (r : MemW) (s : State) : Out :=
  issueWord s r.mods (fun _ => { scope := some r.scope.toNat }) fun x =>
    let wide := x.s.scopeWide x.t r.scope.toNat
    if x.leadHeld wide then x.hold .none
    else
      let upto := (x.s.core x.t.core).nextNum + 1
      let (tag, x) := x.tagRelease wide
      let t := if wide then x.t.setStrand x.k { x.sd with relTag := tag } else x.t
      x.wait r.mods t (.fence r.scope.toNat upto)

/-- A release that must log finds the log full: the observer holds, for no flush's stall, and the arbiter is told (R336). -/
def Here.logHold (x : Here) : State :=
  let me := Owed.word x.h x.k x.pc
  let x := { x with s := x.s.modCore x.t.core fun c => { c with logFull := true, owed := c.owed.filter fun o => o ≠ me } }
  x.hold .none

/-- The strand's local stores not yet performed come before what it releases next (R319). -/
def Strand.fenceSpills (x : Strand) : Strand := { x with spills := x.spills.map fun e => { e with fenced := true } }

/-- A narrow release fence behind local stores is performed, and logged, with the last of them (R332). -/
def Strand.logSpill (x : Strand) (sc : Nat) : Strand :=
  { x with spills := x.spills.modify (x.spills.length - 1) fun e => { e with logs := e.logs ++ [sc] } }

/-- A release fence at scope entry n (R229, R230, R233, R318): at entries 0 and 1 an entry of the promotion log once the
strand's local stores are performed, and its later writes reach their homes after its earlier ones (R322); at a wider
scope every later access of the strand follows the writes that happen before the fence, and its stores carry the fence's
tag. `k` goes on. -/
def Here.releaseFence (x : Here) (sc : Nat) (k : Here → State) : State :=
  let wide := x.s.scopeWide x.t sc
  if sc ≤ 1 && x.s.logIsFull x.t.core then x.logHold
  else if x.leadHeld wide then x.hold .none
  else if sc ≤ 1 then
    let sd := { x.sd.fenceSpills with relOwn := (x.s.core x.t.core).nextNum }
    if x.sd.spills.isEmpty then
      let x := { x with s := x.s.logRelease x.t sc }
      k (x.withTeam (x.t.setStrand x.k sd))
    else k (x.withTeam (x.t.setStrand x.k (sd.logSpill sc)))
  else
    let upto := (x.s.core x.t.core).nextNum
    let (tag, x) := x.tagRelease wide
    let sd := { x.sd.fenceSpills with relUpto := upto, relAcq := x.sd.acqUpto, relTag := if wide then tag else x.sd.relTag }
    k (x.withTeam (x.t.setStrand x.k sd))

/-- `fence.rel` (R229). -/
def execFenceRel (r : MemW) (s : State) : Out :=
  issueWord s r.mods (fun _ => { scope := some r.scope.toNat }) fun x =>
    x.releaseFence r.scope.toNat fun x => x.done r.mods x.t []

/-- `fence.acq`: every earlier load has returned once the strand's results have landed (R209, R229). -/
def execFenceAcq (r : MemW) (s : State) : Out :=
  issueWord s r.mods (fun _ => { scope := some r.scope.toNat }) fun x => x.wait r.mods x.t (.fence 0 0)

/-- The writer of a `rel`: its write reaches its home only after its strand's earlier ones, at a wide scope after all those that
happen before it (R322). -/
def Here.relWriter (x : Here) (sc : Nat) : Writer :=
  if sc ≤ 1 then { x.writer with after := (x.s.core x.t.core).nextNum, rel := some sc }
  else { x.writer with after := (x.s.core x.t.core).nextNum, acq := x.sd.acqUpto, rel := some sc }

/-- `rel` (R229, R230, R322, R323): at entries 0 and 1 it is logged in the cycle in which it is performed (R332); at a wider
scope it is performed only after the writes that happen before it, and with a tag when the scope reaches another C-die. It holds
until the strand's local stores are performed (log entry 77). -/
def execRel (r : MemW) (s : State) : Out :=
  let d := deedOf (.rel r)
  let sc := r.scope.toNat
  issueWord s r.mods (fun _ => { opds := [opdB 0 r.d 1 (ones d.width), baseOpd r], scope := some sc }) fun x =>
    let ea := x.address r
    let v := (x.t.scalar r.d).toNat % 2 ^ (8 * d.width)
    let upto := (x.s.core x.t.core).nextNum
    let wide := x.s.scopeWide x.t sc
    match x.addressTrap r ea d.width d.width with
    | some ti => x.trap ti
    | none =>
      if sc ≤ 1 && x.s.logIsFull x.t.core then x.logHold
      else if !x.sd.spills.isEmpty || x.leadHeld wide then x.hold .none
      else if r.space = 0 then
        let w := x.relWriter sc
        x.globalWrite (if wide then { w with tag := none } else w) ea d.width v (ones d.width) fun y =>
          -- a write that met a fault at once is no release
          if (y.s.core y.t.core).nextNum = upto then y.done r.mods y.t []
          else
            let (_, y) := y.tagRelease wide
            let y := if sc ≤ 1 then { y with s := y.s.logRelease y.t sc } else y
            y.done r.mods y.t []
      else if 2 ≤ sc && !x.s.setClear x.t.core x.h x.k upto x.sd.acqUpto then x.hold .none
      else
        x.localAccess r ea d.width (ones d.width) fun x =>
          let (_, x) := x.tagRelease wide
          x.localStore r.mods r ea d.width v (ones d.width) (if sc ≤ 1 then [sc] else [])

/-- `acq`: an acquire load, a request in either space (R209, R229). -/
def execAcq (r : MemW) (s : State) : Out :=
  let d := deedOf (.acq r)
  issueWord s r.mods
    (fun _ => { opds := [opdW 0 r.d 1 true, baseOpd r], scope := some r.scope.toNat })
    fun x =>
      let ea := x.address r
      match x.addressTrap r ea d.width d.width with
      | some ti => x.trap ti
      | none =>
        let q := { Req.of (.acq r) ea (x.t.regOff r.d) with mask := 0xFF }
        x.await r.mods q

/-- `acq.p` (R231): the request for promotion, then the acquire load. -/
def execAcqP (r : MemW) (s : State) : Out :=
  let d := deedOf (.acqP r)
  issueWord s r.mods
    (fun _ => { opds := [⟨0, r.d, 2, 0xF00, 0xFF⟩, baseOpd r], scope := some r.scope.toNat })
    fun x =>
      let ea := x.address r
      let h := (x.t.scalarAt r.d 1).toNat % 2 ^ 32
      match x.addressTrap r ea d.width d.width with
      | some ti => x.trap ti
      | none =>
        match remoteTarget x.t h with
        | .failed ti => x.trap ti
        | _ => x.await r.mods { Req.of (.acqP r) ea (x.t.regOff r.d) with mask := 0xFF, handle := h, st := .promotion }

/-! ## Barriers (R232, R233) -/

/-- The barrier-scope fault: system scope, or a programmable scope that names a peer. -/
def Here.barrierTrap (x : Here) (sc : Nat) : Option TrapInfo :=
  if x.s.scopeLevel x.t sc = 2 then some { code := 0x14, info := BitVec.ofNat 64 sc } else none

/-- An arrival at barrier b: it acts as a release fence at the scope, and the team's own count rises (R233). The word does
not wait: until the writes and the local stores that the fence covers are performed no phase counts the arrival
(R318, R322). `k` goes on. -/
def Here.arrive (x : Here) (b sc : Nat) (k : Here → State) : State :=
  let a : Arrival :=
    { k := x.k, b := b, scope := sc, upto := if sc ≤ 1 then 0 else (x.s.core x.t.core).nextNum, acq := x.sd.acqUpto,
      stores := x.sd.spills.foldl (fun n e => max n e.perform) 0 }
  x.releaseFence sc fun x =>
    k (x.withTeam { x.t with
      bars := vset x.t.bars b (vget x.t.bars b 0 + 1), barScope := vset x.t.barScope b sc, arriving := x.t.arriving ++ [a] })

/-- A barrier word; the barrier number stands in OFF bits 3:0. -/
def barrierWord (r : MemW) (s : State) (body : Here → Nat → Nat → State) : Out :=
  issueWord s r.mods (fun _ => { scope := some r.scope.toNat }) fun x =>
    match x.barrierTrap r.scope.toNat with
    | some ti => x.trap ti
    | none => body x (r.off.toNat % 16) r.scope.toNat

def execBarSync (r : MemW) (s : State) : Out :=
  barrierWord r s fun x b sc => x.arrive b sc fun y => y.wait r.mods y.t (.barrier b sc (vget y.t.bars b 0))

def execBarArr (r : MemW) (s : State) : Out :=
  barrierWord r s fun x b sc => x.arrive b sc fun y => y.done r.mods y.t []

def execBarWt (r : MemW) (s : State) : Out :=
  barrierWord r s fun x b sc => x.wait r.mods x.t (.barrier b sc (vget x.t.bars b 0))

end Sys2Proof.Machine
end

