-- ==== Sys2Proof/Machine/Queues.lean ====
section
/-! DEFINITION. Queue forms of strands (R220) and the forms of the access stream (R221–R223, R299, R300, R400). -/

namespace Sys2Proof.Machine

open Sys2Proof

/-! ## Strands -/

def execQdrop (r : MemW) (s : State) : Out :=
  issueWord s r.mods (fun _ => {}) fun x =>
    let q := r.d.toNat % 4
    let n := r.off.toNat
    if filled (vget x.t.lqs q []) < n then x.popMissing q n
    else
      let y := x.popEntries q n
      y.done r.mods y.t []

/-- Entries of a queue: those a pop can take, and every place of a store queue (R220). -/
def Team.queueLen (t : Team) (q : Nat) : Nat :=
  if q < 4 then filled (vget t.lqs q []) else (vget t.sqs (q - 4) []).length

def execQlen (r : MemW) (s : State) : Out :=
  issueWord s r.mods (fun _ => { opds := [opdW 0 r.d 1 true], lat := 2, holds := true }) fun x =>
    x.done r.mods x.t [x.flyScalar r.d 2 (x.t.queueLen r.off.toNat) 0]

def execQwait (r : MemW) (s : State) : Out :=
  issueWord s r.mods (fun _ => {}) fun x =>
    let q := r.d.toNat % 2
    x.wait r.mods x.t (.drained q (vget x.t.pushes q 0))

/-! ## The access stream -/

/-- Reserves the next entry of a load queue for request n, with its data when it is known already. -/
def Team.reserve (t : Team) (q n : Nat) (data : Option Nat) (acq : Bool) : Team :=
  { t with lqs := vset t.lqs q (vget t.lqs q [] ++ [{ tag := n, data := data, lines := [], acquired := acq }]) }

/-- A plain `fetch`: the entry is reserved at issue and filled when its data arrives; bytes of a window are read at issue,
after the access stream's own stores to them (R213, R222). In drain-only mode it does nothing (R156). -/
def execFetch (r : MemW) (s : State) : Out :=
  issueWord s r.mods (fun _ => { opds := [baseOpd r] }) fun x =>
    if x.t.drainOnly then x.done r.mods x.t []
    else
      let q := r.d.toNat % 4
      let ea := x.address r
      match x.addressTrap r ea 128 8 with
      | some ti => x.trap ti
      | none =>
        if 16 ≤ (vget x.t.lqs q []).length then x.hold .none
        else
          let go := fun (y : Here) (rq : Req) =>
            let (n, y) := y.request rq
            y.done r.mods (y.t.reserve q n none false) []
          let rq := { Req.of (.fetch r) ea q with mask := ones 128 }
          if MemW.remote r then go (x.withTeam (x.t.count 8 1)) { rq with handle := x.remoteHandle r }
          else if r.space = 0 then x.accessTranslate ea 128 (ones 128) .read fun y ps => go y { rq with locs := some ps }
          else
            x.localAccess r ea 128 (ones 128) fun x =>
              let b := bufOfSpace r.space.toNat
              let v := forwardBytes b ea x.sd.spills (x.t.readWindow b ea 128) 128
              { x with s := { x.s with nextReq := x.s.nextReq + 1 } }.done r.mods (x.t.reserve q x.s.nextReq (some v) false) []

/-- A full/empty `fetch` (R221, R222): the access stream holds until its request is served. -/
def fetchFullWord (r : MemW) (s : State) (i : Instr) : Out :=
  issueWord s r.mods (fun _ => { opds := [baseOpd r] }) fun x =>
    if x.t.drainOnly then x.done r.mods x.t []
    else
      let d := deedOf i
      let q := r.d.toNat % 4
      let ea := x.address r
      match x.addressTrap r ea 128 8 with
      | some ti => x.trap ti
      | none =>
        if 16 ≤ (vget x.t.lqs q []).length then x.hold .none
        else if MemW.remote r then
          let x := x.withTeam (x.t.count 8 1)
          let (n, x) := x.request { Req.of i ea q with handle := x.remoteHandle r }
          x.wait r.mods (x.t.reserve q n none true) (.reply n)
        else
          match x.fillHold r ea 128 (ones 128) with
          | some s => s
          | none =>
            if x.feBlocked d ea || !x.localReady r ea 128 then x.hold .none
            else
              match x.t.serve d ea 0 0 0 with
              | none => x.hold (.fe ea 16 true)
              | some (v, _, t) =>
                x.atBanks r.mods .sp ea 128 (ones 128) fun x =>
                  let n := x.s.nextReq
                  let x := ({ x with s := { x.s with nextReq := n + 1 } }.withTeam t).acquireIf true ea 128
                  x.done r.mods (x.t.reserve q n (some v) true) []

def execFetchF (r : MemW) (s : State) : Out := fetchFullWord r s (.fetchF r)
def execFetchFe (r : MemW) (s : State) : Out := fetchFullWord r s (.fetchFe r)

/-- The team without the oldest entry of store queue q. -/
def Team.takeDrain (t : Team) (q : Nat) : Team := { t with sqs := vset t.sqs q ((vget t.sqs q []).drop 1) }

/-- What a `drain` finds: nothing in drain-only mode stops the access stream (R156), an entry not there or not landed
holds it (R176, R222). -/
def Here.oldestPush (x : Here) (q : Nat) (k : SqEntry → Nat → State) : State :=
  match vget x.t.sqs q [] with
  | [] =>
    if x.t.drainOnly then
      let t := x.t.setStrand 4 { x.t.strands.acc with advance := false }
      x.s.setTeam x.h { t with accStopped := true }
    else x.hold .none
  | e :: _ =>
    match e.data with
    | some v => k e v
    | none => x.hold .none

/-- The request of a remote `drain` of entry e of queue q: to its target, or the remote-target fault (R205). -/
def Here.drainRequest (x : Here) (r : MemW) (i : Instr) (ea q v : Nat) (e : SqEntry) (k : Req → Here → State) : State :=
  let h := x.remoteHandle r
  match remoteTarget x.t h with
  | .failed ti => x.trap ti
  | _ => k { Req.of i ea 0 with x := v, mask := ones 128, handle := h, place := e.num, cmp := q } (x.withTeam (x.t.count 8 1))

/-- `drain` (R221): writes the oldest entry, all 128 bytes, and removes it. A global one enters the core's write path,
a local one is performed at once, after the access stream's own stores (R213); a remote one waits at its target, its place
counted until it is performed. A bad address traps before an empty queue is looked at, in drain-only mode also (log
entry 78). -/
def execDrain (r : MemW) (s : State) : Out :=
  issueWord s r.mods (fun _ => { opds := [baseOpd r] }) fun x =>
    let q := r.d.toNat % 2
    let ea := x.address r
    match x.addressTrap r ea 128 8 with
    | some ti => x.trap ti
    | none =>
      x.oldestPush q fun e v =>
        if MemW.remote r then
          x.drainRequest r (.drain r) ea q v e fun rq x =>
            let (_, x) := x.request rq
            x.done r.mods (x.t.takeDrain q) []
        else if r.space = 0 then
          x.globalWrite { x.writer with drainOf := some (q, e.num) } ea 128 v (ones 128) fun y =>
            y.done r.mods (y.t.takeDrain q) []
        else if !x.sd.spills.isEmpty then x.hold .none
        else
          x.localAccess r ea 128 (ones 128) fun x =>
            x.done r.mods ((x.t.writeWindow (bufOfSpace r.space.toNat) ea v (ones 128) 128).takeDrain q) []

/-- A full/empty `drain` (R221): a release, which holds until its request is served. -/
def drainFullWord (r : MemW) (s : State) (i : Instr) : Out :=
  issueWord s r.mods (fun _ => { opds := [baseOpd r] }) fun x =>
    let d := deedOf i
    let q := r.d.toNat % 2
    let ea := x.address r
    match x.addressTrap r ea 128 8 with
    | some ti => x.trap ti
    | none =>
      x.oldestPush q fun e v =>
        if x.feBlocked d ea || MemW.remote r && x.leadHeld (d.releasesFar x.t.core (x.remoteHandle r)) then x.hold .none
        else if MemW.remote r then
          x.drainRequest r i ea q v e fun rq x =>
            let (_, x) := x.tagRelease (d.releasesFar x.t.core rq.handle)
            let rq := if 1 < implicitScope x.t.core (handleCore rq.handle) then
                { rq with upto := (x.s.core x.t.core).nextNum, acq := x.sd.acqUpto } else rq
            let (n, x) := x.request rq
            x.wait r.mods (x.t.takeDrain q) (.reply n)
        else
          match x.fillHold r ea 128 (ones 128) with
          | some s => s
          | none =>
            if !x.localReady r ea 128 then x.hold .none
            else
              match x.t.serve d ea v 0 (ones 128) with
              | none => x.hold (.fe ea (if d.need.isSome then 16 else 0) false)
              | some (_, _, t) =>
                x.atBanks r.mods .sp ea 128 (ones 128) fun x =>
                  let x := x.withTeam t
                  x.done r.mods (x.t.takeDrain q) []

def execDrainEf (r : MemW) (s : State) : Out := drainFullWord r s (.drainEf r)
def execDrainF (r : MemW) (s : State) : Out := drainFullWord r s (.drainF r)

/-! ## The access cache (R299–R301) -/

/-- The line of the cache with a name: the peer that it is of, if it is one's, and its number. -/
def CacheLine.is (e : CacheLine) (peer : Option Nat) (line : Nat) : Bool := e.peer = peer && e.line = line

/-- Brings a line into the access cache: a free line or one not locked is used; with every line locked nothing happens
(R299, R300). -/
def Core.cacheLine (c : Core) (peer : Option Nat) (line : Nat) : Core :=
  let e : CacheLine := { peer := peer, line := line, locks := 0 }
  if c.cache.any fun e => e.is peer line then c
  else if c.cache.length < 512 then { c with cache := c.cache ++ [e] }
  else
    match c.cache.find? fun e => e.locks = 0 with
    | some v => { c with cache := c.cache.erase v ++ [e] }
    | none => c

/-- A line with bytes that a `fetch` has read of it: from its first lock on it keeps those it has (R301). -/
def CacheLine.lock (e : CacheLine) (data mask : Nat) (readers : List Nat) : CacheLine :=
  if e.locks = 0 then { e with locks := 1, data := data, mask := mask, readers := readers }
  else { e with locks := e.locks + 1, data := overlay data 0 128 0 128 e.data e.mask, mask := e.mask ||| mask }

/-- Locks a line for a load-queue entry, bringing it in first. -/
def Core.lockLine (c : Core) (peer : Option Nat) (line data mask : Nat) (readers : List Nat) : Core :=
  let c := c.cacheLine peer line
  { c with cache := c.cache.map fun e => if e.is peer line then e.lock data mask readers else e }

/-- The bytes of a locked line that the access stream of a team reads there (R301, R321): data and mask. -/
def Core.heldLine (c : Core) (h : Nat) (peer : Option Nat) (line : Nat) : Option (Nat × Nat) :=
  (c.cache.find? fun e => e.is peer line && e.locks ≠ 0 && e.readers.contains h).map fun e => (e.data, e.mask)

/-- The bytes of a range as a team's access stream reads them: those in lines locked on its core as the lines hold them, the
others `v` (R299, R301). -/
def State.accessRead (s : State) (t : Team) (peer : Option Nat) (pa n v : Nat) : Nat :=
  (linesOf pa n).foldl (fun v l =>
    match (s.core t.core).heldLine t.handle peer l with
    | some (d, m) => overlay v pa n (128 * l) 128 d m
    | none => v) v

/-- Every enabled byte of the range is in a locked line that the team's access stream reads. -/
def State.accessHolds (s : State) (t : Team) (peer : Option Nat) (pa n mask : Nat) : Bool :=
  (maskedLines pa n mask).all fun l =>
    match (s.core t.core).heldLine t.handle peer l with
    | some (_, m) => (List.range n).all fun i => !bit mask i || (pa + i) / 128 ≠ l || bit m (pa + i - 128 * l)
    | none => false

/-- A piece of a `pref` brings its lines into the access cache. -/
def State.prefetch (s : State) (t : Team) (x : Xlat) (n : Nat) : State :=
  match x with
  | .frame pa => s.modCore t.core fun c => (linesOf pa n).foldl (fun c l => c.cacheLine none l) c
  | .peer p pa _ _ => s.modCore t.core fun c => (linesOf pa n).foldl (fun c l => c.cacheLine (some p) l) c
  | _ => s

/-- `pref` (R221, R222): brings the 128 bytes at EA into the access cache. It never faults, and has no effect when its
translation fails or its bytes are an aperture's (R309); nothing in drain-only mode (R156). -/
def execPref (r : MemW) (s : State) : Out :=
  issueWord s r.mods (fun _ => { opds := [baseOpd r] }) fun x =>
    let ea := x.address r
    if x.t.drainOnly || !isCanon ea || apertureHit (x.s.aperturesOf x.t) ea 128 ≠ .none then x.done r.mods x.t []
    else
      let (ps, s) := x.s.translateAll x.t.ctx (dieOf x.t.core) .read (ones 128) (pagesOf ea 128)
      let s := if (worstOf ps).isSome then s else ps.foldl (fun s p => s.prefetch x.t p.2.2.2 p.2.2.1) s
      (x.reload s).done r.mods (x.reload s).t []

end Sys2Proof.Machine
end

