-- ==== Sys2Proof/Machine/Replies.lean ====
section
/-! DEFINITION. The events that complete accesses: replies of block-ending forms (R209–R211), load-queue data (R222),
service at bank units (R62, R67, R219), signal additions (R243), posted writes and their tags (R216, R322, R323). -/

namespace Sys2Proof.Machine

open Sys2Proof

/-! ## The end of a request -/

/-- Fills the load-queue entry reserved for request n. -/
def Team.fillEntry (t : Team) (n v : Nat) : Team :=
  { t with lqs := t.lqs.map fun l => l.map fun e => if e.tag = n then { e with data := some v } else e }

/-- The word of a request fills a load-queue entry. -/
def isFetch : Instr → Bool
  | .fetch _ => true
  | .fetchF _ => true
  | .fetchFe _ => true
  | _ => false

/-- The word of a request writes a store-queue entry. -/
def isDrain : Instr → Bool
  | .drain _ => true
  | .drainEf _ => true
  | .drainF _ => true
  | _ => false

/-- The stream waits for this request. -/
def Strand.awaits (x : Strand) (n : Nat) : Bool := x.wait = .reply n

/-- The reply of request n has arrived (R209, R211): its value is written, its flags are set, an acquire has been made, and
the stream that waits for it may go on. -/
def State.landReply (s : State) (n : Nat) (q : Req) (v fl : Nat) : State :=
  let s := s.delReq n
  match s.team? q.h with
  | none => s
  | some t =>
    let d := deedOf q.word
    let t := t.raise (flagBits fl)
    let t := if isFetch q.word then t.fillEntry n v
      else if d.len = 0 then t
      else if t.resident then t.writeRegs s.cycle q.dest v q.mask d.len
      else { t with regs := Mem.writeN t.regs q.dest v q.mask d.len }
    let x := t.strand q.k
    let w : Wait := if t.resident then .none else .answered n
    let s := s.setTeam q.h (if x.awaits n then t.setStrand q.k { x with wait := w } else t)
    if d.acquire then s.acquires q.h q.k else s

/-- The request meets a fault: precise at its word (R210), or the access stream's (R394); for a team set aside it is
delivered when the team is restored. -/
def State.replyFault (s : State) (n : Nat) (q : Req) (ti : TrapInfo) : State :=
  if (s.team? q.h).any fun t => !t.resident then s.setReq n { q with st := .failed ti }
  else
  let s := s.delReq n
  if q.k < 4 then s.takeTrap q.h q.k ti q.pc
  else
    match s.team? q.h with
    | none => s
    | some t => (s.setTeam q.h (t.setStrand 4 { t.strands.acc with pc := q.pc })).accessTrap q.h ti

/-! ## Global accesses -/

/-- The streams' source codes on the fault path (R396). -/
def Req.who (q : Req) : Who := { src := if q.k < 4 then 0 else 1, handle := q.h }

/-- The path holds a write to aperture i of the team's launch, which its unit is to perform first (R310, R332). -/
def State.awaitsAperture (s : State) (t : Team) (i : Nat) : Bool :=
  (s.core t.core).path.any fun e =>
    (s.team? e.h).any (fun u => u.launch = t.launch) && (match e.target with
      | .aperture j _ => i = j
      | _ => false)

/-- A copy of a peer's lines held on a die's side (R431): its bytes when every line is held. -/
def State.peerCopy (s : State) (die peer pa n : Nat) : Option Nat :=
  let find := fun l => s.peerLines.find? fun e => e.peer = peer && e.pa = 128 * l && e.mdie / 2 = die
  if (linesOf pa n).all fun l => (find l).isSome then
    some (ofElems 1 ((List.range n).map fun i =>
      match find ((pa + i) / 128) with
      | some e => bits e.data (8 * ((pa + i) % 128)) 8
      | none => 0))
  else none

def State.dropPeerLines (s : State) (die peer pa n : Nat) : State :=
  { s with peerLines := s.peerLines.filter fun e =>
      !(e.peer = peer && e.mdie / 2 = die && (linesOf pa n).contains (e.pa / 128)) }

/-- What a step of a request comes to: it has gone on, it stays as it is for now, or it meets a fault. -/
inductive Got where
  | more (s : State) (q : Req)
  | stay (s : State) (q : Req)
  | fault (s : State) (ti : TrapInfo)

/-- A request is made again from its start: it is translated anew (R391, R434). -/
def Req.again (q : Req) : Req := { q with st := .start, locs := none, got := 0, flags := 0, restart := false }

/-- The bytes of a piece have been read. -/
def Req.gather (q : Req) (p : Piece) (v fl : Nat) : Req :=
  if q.restart then q.again
  else { q with got := q.got + v * 2 ^ (8 * p.off), locs := q.locs.map fun l => l.drop 1, flags := q.flags ||| fl, st := .start }

/-- The translation of a request's bytes is made (R393), unless it was at issue (R400). -/
def State.place (s : State) (t : Team) (q : Req) (d : Deed) (acc : Acc) : Got :=
  let (r, s) := s.spans t.ctx (dieOf t.core) (s.aperturesOf t) q.ea d.width (d.readMask q.mask) acc q.who
  match r with
  | .ok ps => .more s { q with locs := some (ps.flatMap fun p => p.runs (d.readMask q.mask)), st := .start }
  | .fault ti => .fault s ti
  | .refused ti => .fault s ti
  | .wait k => .more s { q with st := .faultPath k }
  | .full => .stay s q

/-- The bytes `v` of a line's part of a read: placed in the line, with their mask. -/
def linePart (l pa n v : Nat) : Nat × Nat :=
  let lo := max pa (128 * l)
  let k := min (pa + n) (128 * l + 128) - lo
  (bits v (8 * (lo - pa)) (8 * k) <<< (8 * (lo - 128 * l)), ones k <<< (lo - 128 * l))

/-- Locks the lines that a `fetch` has read for its entry, with the bytes `v` that it read (R299, R301): of a local frame the
whole line is read. -/
def State.lockFetched (s : State) (t : Team) (tag : Nat) (peer : Option Nat) (pa n v : Nat) : State :=
  let ls := linesOf pa n
  let readers := (s.teams.filter fun e => e.2.core = t.core && e.2.resident).map (·.1)
  let c := ls.foldl (fun c l =>
    let (d, m) := if peer.isSome then linePart l pa n v else (s.readAt t.core (128 * l) 128, ones 128)
    c.lockLine peer l d m readers) (s.core t.core)
  let s := s.setCore t.core c
  s.modTeam t.handle fun t =>
    { t with lqs := t.lqs.map fun l => l.map fun e =>
        if e.tag = tag then { e with lines := e.lines ++ ls.map fun l => (peer, l) } else e }

/-- A line that the access stream loads is brought into the access cache, or a `fetch` locks it (R299, R300). -/
def State.cacheRead (s : State) (t : Team) (q : Req) (d : Deed) (peer : Option Nat) (pa n v : Nat) : State :=
  if isFetch q.word then s.lockFetched t q.tag peer pa n v
  else if q.k = 4 && !d.acquire then
    s.modCore t.core fun c => (linesOf pa n).foldl (fun c l => c.cacheLine peer l) c
  else s

/-- An access that the access cache serves (R299); an acquire reads past it (R321). -/
def Req.cached (q : Req) (d : Deed) : Bool := q.k = 4 && !d.acquire

/-- The bytes `v` of a read as a request sees them: for one that the access cache serves, with those in locked lines (R301). -/
def State.seen (s : State) (t : Team) (q : Req) (d : Deed) (peer : Option Nat) (pa n v : Nat) : Nat :=
  if q.cached d then s.accessRead t peer pa n v else v

/-- A write of the core's path to bytes of a piece at a peer is still to be performed (R213, R332). -/
def State.awaitsPeer (s : State) (core : Nat) (p : Piece) : Bool :=
  match p.loc with
  | .peer r pa _ _ => s.peerTouches core r pa p.len
  | _ => false

/-- Reads a piece of a load (R213, R299, R310, R395, R431): only its enabled bytes count (R207). -/
def State.loadPiece (s : State) (t : Team) (q : Req) (d : Deed) (p : Piece) : Got :=
  let mask := bits (d.readMask q.mask) p.off p.len
  if s.awaitsOwn t.core t.ctx q.h q.k p.va p.len || s.awaitsPeer t.core p then .stay s q
  else
    match p.loc with
    | .frame pa =>
      if (maskedLines pa p.len mask).any fun l => s.lineBad (128 * l) 128 then
        .fault s { code := 0x22, info := BitVec.ofNat 64 p.va }
      else
        let v := s.seen t q d none pa p.len (s.readAt t.core pa p.len)
        let s := s.noteAccess q.h pa p.len mask false
        let s := if d.acquire then s.acquireTag t.core pa p.len else s
        .more (s.cacheRead t q d none pa p.len v) (q.gather p v 0)
    | .bell _ => .more s (q.gather p 0 0)
    | .aperture i off =>
      if s.awaitsAperture t i then .stay s q
      else
        match (s.aperturesOf t)[i]? with
        | some a =>
          if s.viewBad a off p.len mask then .fault s { code := 0x22, info := BitVec.ofNat 64 p.va }
          else
            let (v, fl) := a.load s.hbm off p.len mask
            .more (s.noteView q.h a off p.len mask false) (q.gather p v fl)
        | none => .stay s q
    | .peer r pa hd ro =>
      let held := q.cached d && s.accessHolds t (some r) pa p.len mask
      let copy := if held then some 0 else if ro then s.peerCopy (dieOf t.core) r pa p.len else none
      let (ask, s) := if copy.isSome && !held then s.choose else (false, s)
      match copy, ask with
      | some v, false =>
        let v := s.seen t q d (some r) pa p.len v
        .more (s.cacheRead t q d (some r) pa p.len v) (q.gather p v 0)
      | _, _ =>
        let s := if ro then s.dropPeerLines (dieOf t.core) r pa p.len else s
        let (x, s) := s.sendPeer t.ctx r hd (dieOf t.core) (.request q.tag) p.va (.read pa p.len ro)
        match x with
        | .ref k => .more s { q with st := .remote k }
        | .wait => .stay s q
        | .unreachable c => .fault s { code := 0x40, reason := c, info := BitVec.ofNat 64 p.va }

/-- Reads on until the bytes are all there or something stops it. -/
def State.loadOn (s : State) (t : Team) (d : Deed) : Nat → Req → Got
  | 0, q => .stay s q
  | fuel + 1, q =>
    match q.locs with
    | some [] => .more s q
    | some (p :: _) =>
      match s.loadPiece t q d p with
      | .more s q => if q.st = .start then s.loadOn t d fuel q else .more s q
      | g => g
    | none =>
      match s.place t q d .read with
      | .more s q => if q.st = .start then s.loadOn t d fuel q else .more s q
      | g => g

/-- An atomic of a team at a scope is a tagged event (R323). -/
def State.atomicWide (s : State) (t : Team) (d : Deed) : Bool := d.amo.isSome && s.scopeWide t d.scope

/-- Its tag is taken. -/
def State.tagIf (s : State) (core : Nat) (wide : Bool) : Option (Vector (BitVec 16) 4) × State :=
  if wide then
    let (x, s) := s.newTag core
    (some x, s)
  else (none, s)

/-- A global atomic at its home (R224–R228): after the core's earlier writes to its bytes, outside a flush of its line
(R335), and in causal order when its scope reaches another C-die (R323). -/
def State.atomicPiece (s : State) (t : Team) (q : Req) (d : Deed) (p : Piece) : Got :=
  let die := dieOf t.core
  let wide := s.atomicWide t d
  if s.awaitsOwn t.core t.ctx q.h q.k q.ea d.width || s.awaitsPeer t.core p || (wide && !s.leadOk die) then .stay s q
  else if s.pieceStalled t.core p then .stay (s.owe t.core (.request q.tag)) q
  else
    match p.loc with
    | .frame pa =>
      if s.pathTouches t.core pa d.width then .stay s q
      else if s.lineBad pa d.width then .fault s { code := 0x22, info := BitVec.ofNat 64 q.ea }
      else if wide && !tagReady (s.appliedAt (homeMdie pa)) die (s.newTag t.core).1 false then .stay s q
      else
        let (tag, s) := s.tagIf t.core wide
        let old := Mem.readN s.hbm pa d.width
        let (new, fl) := d.update old q.x q.cmp
        let s := { s with hbm := Mem.write s.hbm pa new d.width }.noteTag pa d.width tag
        let m := ones d.width
        .more ((s.noteAccess q.h pa d.width m false).noteAccess q.h pa d.width m true) (q.gather p old fl)
    | .peer r pa hd _ =>
      match d.amo with
      | some (fn, fp) =>
        let (x, s) := s.sendPeer t.ctx r hd die (.request q.tag) q.ea
          (.atomic fn d.width fp pa (BitVec.ofNat 64 q.x) (BitVec.ofNat 64 q.cmp))
        match x with
        | .ref k => .more (s.tagIf t.core wide).2 { q with st := .remote k }
        | .wait => .stay s q
        | .unreachable c => .fault s { code := 0x40, reason := c, info := BitVec.ofNat 64 q.ea }
      | none => .stay s q
    | _ => .stay s q

/-- A global atomic: translated, then performed. -/
def State.atomicOn (s : State) (t : Team) (d : Deed) (q : Req) : Got :=
  match q.locs with
  | some (p :: _) => s.atomicPiece t q d p
  | some [] => .more s q
  | none =>
    match s.place t q d .atomic with
    | .more s q =>
      match q.locs with
      | some (p :: _) => s.atomicPiece t q d p
      | _ => .more s q
    | g => g

/-- The bytes of a window that a request touches (R207). -/
def Deed.touchMask (d : Deed) (mask : Nat) : Nat := if d.load then d.readMask mask else mask

/-- The tag of a word of a team's window that a core's request has served: an acquire merges it, and an atomic at a wide scope
leaves its own (R323). -/
def State.spTag (s : State) (core h : Nat) (q : Req) (d : Deed) (tag : Option (Vector (BitVec 16) 4)) : State :=
  let s := if d.acquire then s.acquireTag core (spKey h q.ea) d.width else s
  if d.amo.isSome then s.noteTag (spKey h q.ea) d.width tag else s

/-- The banks of the SP window that a request needs are free, for the core that they are of (R212). -/
def State.spBanksFree (s : State) (t : Team) (q : Req) (d : Deed) : Bool :=
  (t.bankUses s.cycle false .sp q.ea d.width (d.touchMask q.mask)).all fun u => u.free (s.core t.core).bankUse

/-- They are taken. -/
def State.takeSpBanks (s : State) (t : Team) (q : Req) (d : Deed) : State :=
  s.modCore t.core fun c => { c with bankUse := c.bankUse ++ t.bankUses s.cycle false .sp q.ea d.width (d.touchMask q.mask) }

/-- A request of a local SP word (R209): atomics and acquires on the team's own window, after its local stores (R213); its value
lands with the results of a later cycle (R41). -/
def State.ownSp (s : State) (t : Team) (q : Req) (d : Deed) : Got :=
  let wide := s.atomicWide t d
  if !(t.strand q.k).spills.isEmpty || !s.spBanksFree t q d || (wide && !s.leadOk (dieOf t.core)) then .stay s q
  else
    match t.missing q.ea d.width (d.touchMask q.mask) with
    | some g => .stay (s.setTeam q.h (t.startFill g)) q
    | none =>
      match t.serve d q.ea q.x q.cmp (ones d.width) with
      | some (v, fl, t) =>
        let (tag, s) := ((s.setTeam q.h t).takeSpBanks t q d).tagIf t.core wide
        .stay (s.spTag t.core q.h q d tag) { q with st := .value v fl }
      | none => .stay s q

/-- A word standing for none, in the request of an instruction fetch. -/
def blankWord : Instr :=
  .nop { mods := ⟨false, false, 0, false⟩, op := 0, d := 0, a := 0, b := 0, c := 0, pred := 0, pn := false, ty := 0, fdn := 0,
         fn := 0 }

/-- The request of an instruction fetch at `pc`. -/
def fetchReq (pc : BitVec 64) : Req := { Req.of blankWord pc.toNat 0 with pc := pc, isFetch := true }

/-- An instruction fetch from a peer's page has come, has failed, or is to be made again. -/
def State.stepFetch (s : State) (n : Nat) (q : Req) : State :=
  let wake := fun (s : State) (w : Option (BitVec 64 × Nat)) =>
    (s.delReq n).modTeam q.h fun t =>
      t.setStrand q.k { t.strand q.k with wait := .none, fetched := w }
  match q.st with
  | .failed ti => s.replyFault n q ti
  | .value v _ => wake s (some (q.pc, v))
  | .start => wake s none
  | _ => s

/-- A request after a step: it lands when its value is complete. -/
def State.settleReq (s : State) (n : Nat) (q : Req) (d : Deed) (g : Got) : State :=
  match g with
  | .fault s ti => s.replyFault n q ti
  | .stay s q => s.setReq n q
  | .more s q =>
    match q.st with
    | .value v fl => s.landReply n q v fl
    | .start => if q.locs = some [] then s.landReply n q (d.result q.got) q.flags else s.setReq n q
    | _ => s.setReq n q

/-- A request is performed, or sent to the bank unit that it names, once what it must follow is performed. -/
def State.performReq (s : State) (t : Team) (n : Nat) (q : Req) : State :=
  let d := deedOf q.word
  if !s.reqClear q then s
  else if q.isRemote then s.setReq n { q with st := remoteTarget t q.handle }
  else s.settleReq n q d (if q.space ≠ 0 then s.ownSp t q d else if d.amo.isSome then s.atomicOn t d q else s.loadOn t d 8 q)

/-- One step of a request towards its reply. -/
def State.stepReq (s : State) (n : Nat) : State :=
  match s.req? n with
  | none => s
  | some q =>
    if q.isFetch then s.stepFetch n q
    else
    match s.team? q.h with
    | none => s.delReq n
    | some t =>
      match q.st with
      | .failed ti => s.replyFault n q ti
      | .value v fl => s.landReply n q v fl
      | .start => s.performReq t n q
      | .promoted => s.performReq t n { q with st := .start }
      | _ => s

/-- A request of a team saved with its context goes no further than its answer (R399, R405). -/
def Team.mayStep (t : Team) (s : State) (n : Nat) : Bool :=
  match t.place with
  | .saved _ => (s.req? n).any fun q => match q.st with
      | .value _ _ => true
      | _ => false
  | _ => true

/-- The requests of the access stream for which it does not wait and which fill no load-queue entry, but for those that wait for
their turn at its window's banks. -/
def State.accessReqs (s : State) (h : Nat) : List Nat :=
  (s.reqs.filter fun e => e.2.h = h && e.2.k = 4 && !isFetch e.2.word && !e.2.isFetch && !e.2.atBank).map (·.1)

/-- A step of a request of a team. -/
def State.stepOf (s : State) (t : Team) (n : Nat) : State := if t.mayStep s n then s.stepReq n else s

/-- The request is to be served at the banks of its stream's own window. -/
def State.bankReq (s : State) (n : Nat) : Bool := (s.req? n).any Req.atBank

/-- The requests of stream k at its own window's banks are served in the stream's turn of the cycle (R212). -/
def State.bankReply (s : State) (h k : Nat) : State :=
  match s.team? h with
  | none => s
  | some t => (s.reqs.filter fun e => e.2.h = h && e.2.k = k && e.2.atBank).foldl (fun s e => s.stepOf t e.1) s

/-- BLOCK_END_REPLY (R209): the request that a stream waits for moves on; its reply lands when it is complete. Of the access
stream's requests, for which it does not wait, any may move on (R82). A request for the stream's own window is served in the
stream's turn at the banks (R212). -/
def execBlockEndReply (h k : Nat) (s : State) : Out :=
  match s.team? h with
  | none => .next s
  | some t =>
    match (t.strand k).wait with
    | .reply n => .next (if s.bankReq n then s else s.stepOf t n)
    | _ =>
      .next (if k < 4 then s else (s.accessReqs h).foldl (fun s n =>
        let (b, s) := s.choose
        if b then s.stepOf t n else s) s)

/-- The oldest reserved entry of a load queue whose data has not arrived (R222). -/
def Team.nextReserved (t : Team) (q : Nat) : Option LqEntry := (vget t.lqs q []).find? fun e => e.data.isNone

/-- FETCH_DATA_ARRIVAL (R222): data fills the oldest reserved entry of load queue q. -/
def execFetchDataArrival (h q : Nat) (s : State) : Out :=
  match (s.team? h).bind fun t => (t.nextReserved q).map fun e => (t, e) with
  | some (t, e) => .next (s.stepOf t e.tag)
  | none => .next s

/-! ## Bank units -/

/-- The clocks after a full/empty release or acquire between C-dies (R323, R328): the owning die's clock takes the tag that the
release took at its issue; an acquire's clock takes the owning die's (log entry 19). -/
def State.bankClocks (s : State) (d : Deed) (srcCore dst : Nat) : State :=
  let src := dieOf srcCore
  let merge := fun (s : State) (a b : Nat) => { s with clocks := vset s.clocks a (mergeClock (s.clock a) (s.clock b)) }
  if src = dst then s
  else if d.releases then merge s dst src
  else if d.acquire then merge s src dst
  else s

/-- REMOTE_SP_ACCESS (R62, R67, R205, R219): a remote form is served at the bank unit of the core that its handle
names, on the window of a resident, swapped or saved team; a fault found there goes back with the reply. -/
def execRemoteSpAccess (core n : Nat) (s : State) : Out :=
  match s.req? n with
  | none => .next s
  | some q =>
    if q.st ≠ .message core then .next s
    else
      let d := deedOf q.word
      -- a plain remote drain has no waiting word: it ends here
      let reply := fun (s : State) (st : ReqState) =>
        match q.word, st with
        | .drain _, .failed ti => s.replyFault n q ti
        | .drain _, _ => s.delReq n
        | _, st => s.setReq n { q with st := st }
      match s.team? q.handle with
      | none => .next (reply s (.failed { code := 0x12, reason := 1, info := BitVec.ofNat 64 q.handle }))
      | some t =>
        if t.windowSize .sp < q.ea + d.width then
          .next (reply s (.failed { code := 0x11, reason := 1, info := BitVec.ofNat 64 q.ea }))
        else
          match t.missing q.ea d.width (d.touchMask q.mask) with
          | some g =>
            .next (s.setTeam q.handle (t.startFill g))
          | none =>
            let src := dieOf (handleCore q.h)
            let dst := dieOf core
            let wide := (s.team? q.h).any fun u => s.atomicWide u d
            if wide && !s.leadOk src then .next s
            else if t.resident && !s.spBanksFree t q d then .next s
            else
              match t.serve d q.ea q.x q.cmp q.mask with
              | none => .next s
              | some (v, fl, t) =>
                let s := s.setTeam q.handle t
                let s := if t.resident then s.takeSpBanks t q d else s
                let (tag, s) := s.tagIf (handleCore q.h) wide
                .next (reply ((s.spTag (handleCore q.h) q.handle q d tag).bankClocks d (handleCore q.h) dst) (.value v fl))

/-- SIG_ADD_R_ARRIVE (R243): the slot of a team gains the amount; a retired target drops the message and the issuing
team is told. -/
def execSigAddRArrive (core n : Nat) (s : State) : Out :=
  match (s.core core).msgs.find? fun m => m.tag = n with
  | none => .next s
  | some m =>
    let s := s.modCore core fun c => { c with msgs := c.msgs.filter fun m => m.tag ≠ n }
    match s.team? m.target, m.slotAdd with
    | some t, some (slot, k) => .next (s.setTeam m.target (t.slotChange (.add slot k)))
    | none, some _ =>
      .next (s.postEvent m.h { code := 0x12, reason := 1, info := BitVec.ofNat 64 m.target } none)
    | _, none => .next s

/-! ## Posted writes -/

/-- Whether an earlier write of the path must be performed first: one that touches the same bytes, or one of the
same stream to the same aperture (R213, R310). -/
def pathBlocks (e f : Posted) : Bool :=
  decide (f.num < e.num) &&
    (match e.target, f.target with
     | .home a, .home b => decide (a < b + f.len) && decide (b < a + e.len)
     | .peer p a _, .peer r b _ => p = r && decide (a < b + f.len) && decide (b < a + e.len)
     | .doorbell a, .doorbell b => e.ctx = f.ctx && decide (a < b + f.len) && decide (b < a + e.len)
     | .aperture i _, .aperture j _ => i = j && e.h = f.h && e.k = f.k
     | _, .fault _ => e.h = f.h && e.k = f.k && decide (bits e.va 0 56 < bits f.va 0 56 + f.len)
         && decide (bits f.va 0 56 < bits e.va 0 56 + e.len)
     | _, _ => false)

/-- Two writes of a path share a byte of a local frame, where the page table puts those on the fault path. -/
def State.sharePlace (s : State) (e f : Posted) : Bool :=
  (s.placesOf e).any fun a => (s.placesOf f).any fun b => decide (a.1 < b.1 + b.2.2) && decide (b.1 < a.1 + a.2.2)

/-- Whether the order of the path lets a write go (R322): after the writes it must follow, and after an earlier one to its
bytes. -/
def State.mayGo (s : State) (core : Nat) (e : Posted) : Bool :=
  s.setClear core e.h e.k (min e.after e.num) e.acq
    && !((s.core core).path.any fun f => pathBlocks e f || (decide (f.num < e.num) && s.sharePlace e f))

/-- Writes the bytes at their home, unless they cover only part of a line in error (R448). -/
def State.applyHome (s : State) (core : Nat) (e : Posted) (pa : Nat) : State :=
  let s := s.dropPath core e.num
  if s.partialBad pa e.len e.mask then s.writeFault e 0x22 0
  else
    let s := { s with hbm := Mem.writeN s.hbm pa e.data e.mask e.len }
    let s := s.clearErrors pa e.len
    (s.noteTag pa e.len (e.tag.map (·.2))).noteAccess e.h pa e.len e.mask true

/-- The number under which a posted write waits that is to be translated again; no record has it (R399). -/
def retrySerial : Nat := 2 ^ 32

/-- SRC of the stream that posted a write (R396). -/
def Posted.src (e : Posted) : Nat := if e.k < 4 then 0 else if e.k = 4 then 1 else if e.k < 8 then 2 else 3

/-- The write of an engine's command in progress. -/
def State.writesOf (s : State) (e : Posted) : Bool :=
  decide (5 ≤ e.k) && decide (e.k < 8) && (s.team? e.h).any fun t =>
    (t.queue (e.k - 5)).prog.isSome && (e.cmdOf.any fun c => c.1 = (t.queue (e.k - 5)).headSeq)

/-- A posted write whose new translation waits on the fault path: that of an engine's command goes to its queue's fix-up list,
once the list has room (R279); another stays in the path under its serial (R401). -/
def State.faultPosted (s : State) (core : Nat) (e : Posted) (k : Nat) : State :=
  if s.writesOf e then
    let x := ((s.team? e.h).map fun t => t.queue (e.k - 5)).getD {}
    if 16 ≤ x.fixups.length then s
    else
      (s.dropPath core e.num).modQueue e.h (e.k - 5) fun x => { x with fixups := x.fixups ++ [
        { seg := { va := e.va, len := e.len, data := e.data, mask := e.mask }, seq := x.headSeq, write := true, serial := some k,
          refused := false }] }
  else s.setPath core { e with target := .fault k }

/-- Translates a posted write again, the whole of it (R399, R401); it then stands in the path as the writes its pages make.
A line under flush lets it wait (R335). A refusal at once of an engine's write stops its queue as one on the fault path does
(R394). -/
def State.retryPosted (s : State) (core : Nat) (e : Posted) : State :=
  let (r, s) := s.spans e.ctx (dieOf core) [] e.va e.len e.mask .write { src := e.src, handle := e.h, qseq := e.qseq }
  match r with
  | .wait k => s.faultPosted core e k
  | .fault ti => (s.dropPath core e.num).writeFault e ti.code ti.reason
  | .refused ti => (s.dropPath core e.num).writeFault e (if 5 ≤ e.k && e.k < 8 then 0x34 else ti.code)
      (if 5 ≤ e.k && e.k < 8 then 0 else ti.reason)
  | .full => s
  | .ok ps =>
    if ps.any (s.pieceStalled core) then s.owe core (.retry e.num)
    else
      let es := ps.flatMap e.parts
      s.modCore core fun c =>
        es.foldl Core.summarise { c with path := c.path.flatMap fun x => if x.num = e.num then es else [x] }

/-- The occurrence that a store to a doorbell word brings about; other stores are discarded (R492). -/
def doorbellEvent (ctx off : Nat) (v : Word) : Option Ev :=
  if off < 0x80 then some (.launchDoorbell ctx (off / 8) v)
  else if off = 0x100 then some (.sextantStepRequest ctx v)
  else if off = 0x108 then some (.faultReply ctx v)
  else if off = 0x110 then some (.courseTableReread ctx v)
  else if off = 0x118 then some (.digestRequest ctx v)
  else none

/-- POSTED_STORE_PERFORM (R216): a write of a core's path goes to its home, to a peer, to its aperture unit or to a
doorbell word, when the order allows it. A write to a frame with a tag is applied by TAGGED_WRITE_APPLY. A store to a doorbell
page that is not 8 whole bytes is discarded (R492), a wider one too (log entry 99). -/
def execPostedStorePerform (core n : Nat) (s : State) : Out :=
  match (s.core core).path.find? fun e => e.num = n with
  | none => .next s
  | some e =>
    if !s.mayGo core e then .next s
    else
      let die := dieOf core
      match e.target with
      | .home pa =>
        .next (if e.tag.isSome then s else s.applyHome core e pa)
      | .peer p pa hd =>
        if e.ref.isSome then .next s
        else
          let (r, s) := s.sendPeer e.ctx p hd die (.posted core n) e.va (.write pa (toBytes e.len e.data))
          match r with
          | .ref k => .next (s.setPath core { e with ref := some k })
          | .wait => .next s
          | .unreachable r => .next ((s.dropPath core n).writeFault e 0x40 r)
      | .aperture i off =>
        match ((s.team? e.h).map s.aperturesOf).bind fun l => l[i]? with
        | none => .next (s.dropPath core n)
        | some a =>
          let s := s.dropPath core n
          match a.store s.hbm off e.len e.data e.mask with
          | .ok m fl =>
            if (a.reaches m off e.len e.mask).any fun r => s.partialBad r.1 r.2 (ones r.2) then .next (s.writeFault e 0x22 0)
            else
              let s := ({ s with hbm := m }.modTeam e.h fun t => t.raise (flagBits fl)).noteView e.h a off e.len e.mask true
              .next ((a.reaches m off e.len e.mask).foldl (fun s r => s.clearErrors r.1 r.2) s)
          | .fault c r => .next (s.writeFault e c r)
      | .doorbell off =>
        let s := s.dropPath core n
        if e.len = 8 && off % 8 = 0 && e.mask % 256 = 255 then
          match doorbellEvent e.ctx off (BitVec.ofNat 64 e.data) with
          | some i => .next (s.later [.ev i])
          | none => .next s
        else .next s
      | .fault k => .next (if k = retrySerial then s.retryPosted core e else s)

/-- TAGGED_WRITE_APPLY (R323): the M-die applies a tagged write when its clock condition holds. -/
def execTaggedWriteApply (core n : Nat) (s : State) : Out :=
  match (s.core core).path.find? fun e => e.num = n with
  | some e =>
    match e.target, e.tag with
    | .home pa, some (d, tag) =>
      if s.mayGo core e && tagReady (s.appliedAt (homeMdie pa)) d tag false then .next (s.applyHome core e pa) else .next s
    | _, _ => .next s
  | none => .next s

/-- A tag of a tagged event of die d is the marker's. -/
def Marker.of (m : Marker) (d : Nat) (tag : Vector (BitVec 16) 4) : Bool := d = m.src && vget tag d 0 = vget m.tag d 0

/-- The claim holds BUSY of its tag. -/
def ClaimState.holdsBusy : ClaimState → Bool
  | .busy _ => true
  | .coded _ _ => true
  | .written => true
  | _ => false

/-- Whether a write with the marker's tag that was sent before it is still to be applied at its M-die: one of a path, or one
that a claim is to make to its tile or its tag. -/
def State.markerBlocked (s : State) (m : Marker) : Bool :=
  (s.cores.any fun c => c.2.path.any fun e =>
    match e.target, e.tag with
    | .home pa, some (d, tag) => homeMdie pa = m.mdie && m.of d tag && decide (e.num < m.upto)
    | _, _ => false)
    || s.claims.any fun c => c.2.st.holdsBusy && c.2.mark.any fun x => m.of x.1 x.2

/-- CLOCK_MARKER_APPLY (R323): M-die `die` applies the n-th marker in flight when it is for it and its condition holds;
APPLIED takes the source's counter. -/
def execClockMarkerApply (die n : Nat) (s : State) : Out :=
  match s.markers[n]? with
  | none => .next s
  | some m =>
    let ap := s.appliedAt die
    if m.mdie = die && tagReady ap m.src m.tag true && !s.markerBlocked m then
      .next { s with markers := s.markers.eraseIdx n, applied := vset s.applied die (vset ap m.src (vget m.tag m.src 0)) }
    else .next s

end Sys2Proof.Machine
end

