-- ==== Sys2Proof/Machine/TileData.lean ====
section
/-! DEFINITION. The bytes and elements of tiles (R117, R285, R286), and the conversion of rows of elements between
descriptors (R259). -/

namespace Sys2Proof.Machine

open Sys2Proof

/-! ## Rows of a tile -/

/-- Row length RB in bytes of a tile under a descriptor; a null or invalid one has one byte per column (R285, R353). -/
def Tile.rowLen (x : Tile) (fd : BitVec 64) : Nat :=
  if fdUsable fd.toNat then (fdOf fd.toNat).rowBytes x.cols else x.cols

/-- Bytes of a tile's rows. -/
def Tile.size (x : Tile) (fd : BitVec 64) : Nat := x.rows * x.rowLen fd

/-- Ring width Wr of a buffer in bytes (R285). -/
def ringWidth (buf : Nat) : Nat := if buf ≤ 1 then 256 else if buf = 2 then 512 else 128

/-- The window byte that byte b of row i takes, from the row's start: rotated by the row in a skewed tile (R285). A row
length that the ring width does not divide is unskewed (R286). -/
def Tile.place (x : Tile) (rb i b : Nat) : Nat :=
  if x.skew && rb % ringWidth x.buf = 0 && rb ≠ 0 then
    let bw := bankWidth (bufOfTile x.buf)
    let u := rb / bw
    x.off + i * rb + ((b / bw + i) % u) * bw + b % bw
  else x.off + i * rb + b

/-- Row i of a tile, its bytes in unrotated order. -/
def Team.tileRow (t : Team) (x : Tile) (fd : BitVec 64) (i : Nat) : Nat :=
  let rb := x.rowLen fd
  ofElems 1 ((List.range rb).map fun b => t.readWindow (bufOfTile x.buf) (x.place rb i b) 1)

/-- Writes row i of a tile. -/
def Team.setTileRow (t : Team) (x : Tile) (fd : BitVec 64) (i v : Nat) : Team :=
  let rb := x.rowLen fd
  (List.range rb).foldl (fun t b => t.writeWindow (bufOfTile x.buf) (x.place rb i b) (elem 1 v b) 1 1) t

/-- The bytes of an SP tile lie in granules that are present; otherwise the first that is missing (R293). -/
def Team.tileMissing (t : Team) (x : Tile) (fd : BitVec 64) : Option Nat :=
  if bufOfTile x.buf = .sp && x.size fd ≠ 0 then t.missing x.off (x.size fd) (ones (x.size fd)) else none

/-! ## Elements -/

/-- Code and scale code of element c of a row (R117). -/
def Fd.codeAt (d : Fd) (row c : Nat) : Nat × Nat :=
  if d.kind = 1 then d.unpack row c else (elem (kindBytes d.kind) row c, 127)

/-- Exact value of element c of a row, and the flags of reading it (R259). -/
def Fd.valueAt (d : Fd) (row c : Nat) : Val × Nat :=
  let (x, s) := d.codeAt row c
  d.elemValue x s

/-- Elements that share a scale: a block, or a whole row of n. -/
def Fd.group (d : Fd) (n : Nat) : Nat := if d.kind = 1 && d.bs ≠ 0 then d.block else max 1 n

/-- How a command converts: CV (R256), its SCALE, and its rounding mode (0 RNE, 1 RTZ, 2 stochastic). -/
structure Conversion where
  cv    : Nat
  scale : Nat
  rnd   : Nat

/-- Converts a group of values into a descriptor, the draws given (R259). -/
def Fd.convertGroup (d : Fd) (c : Conversion) (xs : List Val) (draws : List Nat) : BlockRes :=
  let modes := modesOf (c.rnd = 1) (if c.rnd = 2 then some draws else none) xs.length
  if d.kind ≠ 1 then
    let cs := List.zipWith (fun x m => d.convert x m) xs modes
    ⟨cs.map (·.1), 127, orAll (cs.map (·.2)), 0⟩
  else if d.bs = 0 then fixedScale d xs 127 modes
  else if c.cv = 1 then quantiseBlock d xs none modes
  else fixedScale d xs c.scale modes

/-- Converts a row of values in groups, drawing from the command's LFSR once for each element (R123, R259): the groups
with their values, and the LFSR left. -/
def Fd.convertRow (d : Fd) (c : Conversion) (xs : List Val) (lfsr : Nat) : List (List Val × BlockRes) × Nat :=
  let g := d.group xs.length
  (chunks g (ceilDiv xs.length g) xs).foldl (fun acc b =>
    let (ds, z) := if c.rnd = 2 then lfsrDraws b.length acc.2 else ([], acc.2)
    (acc.1 ++ [(b, d.convertGroup c b ds)], z)) ([], lfsr)

/-- The bytes of a row of converted groups (R117). -/
def Fd.packRow (d : Fd) (l : List BlockRes) : Nat :=
  if d.kind = 1 then d.packBlocks l else ofElems (kindBytes d.kind) (l.flatMap fun b => b.elems.map (·.code))

/-- The flags of a row of groups. -/
def rowFlags (l : List (List Val × BlockRes)) : Nat := orAll (l.map fun b => b.2.flags)

/-- A row of codes copied raw, each group's scale code with it (R259, R260); BNAN for a scale 0xFF (R118). -/
def Fd.rawRow (d : Fd) (cs : List (Nat × Nat)) : Nat × Nat :=
  let g := d.group cs.length
  let bs := (chunks g (ceilDiv cs.length g) cs).map fun b =>
    (⟨b.map fun e => ⟨e.1, .nan false, false⟩, (b.head?.map (·.2)).getD 127, 0, 0⟩ : BlockRes)
  (d.packRow bs, if d.kind = 1 && d.bs ≠ 0 && bs.any fun b => b.scale = 0xFF then fBNAN else 0)

/-- A row as codes 0 with scale bytes 127 (R263). -/
def Fd.zeroRow (d : Fd) (n : Nat) : Nat := (d.rawRow (List.replicate n (0, 127))).1

end Sys2Proof.Machine
end

