-- ==== Sys2Proof/Machine/EngineAccess.lean ====
section
/-! DEFINITION. The global accesses of engine commands: segments by page, fix-up lists and replays (R279, R280), reads
gathered before a command's effect, and writes posted after it (R248, R335). -/

namespace Sys2Proof.Machine

open Sys2Proof

/-- The pieces of a range, by page. -/
def segments : Nat → Nat → Nat → List Seg
  | 0, _, _ => []
  | fuel + 1, va, len =>
    if len = 0 then []
    else
      let n := min len (4096 - va % 4096)
      { va := canon va, len := n } :: segments fuel (va + n) (len - n)

/-- The pieces of a range. -/
def segmentsOf (va len : Nat) : List Seg := segments (len / 4096 + 2) va len

/-- The pieces of a range with the bytes of a value. -/
def cutSegs (va len v : Nat) : List Seg :=
  ((segmentsOf va len).foldl (fun (acc : List Seg × Nat) g =>
    (acc.1 ++ [{ g with data := bits v (8 * acc.2) (8 * g.len), mask := ones g.len }], acc.2 + g.len)) ([], 0)).1

/-- Two parts of an access to one page as one: where both have a byte the later one's stands. -/
def Seg.join (a b : Seg) : Seg :=
  let lo := min a.va b.va
  let n := max (a.va + a.len) (b.va + b.len) - lo
  { va := lo, len := n, data := overlay (a.data <<< (8 * (a.va - lo))) lo n b.va b.len b.data b.mask,
    mask := (a.mask <<< (a.va - lo)) ||| (b.mask <<< (b.va - lo)) }

/-- Adds a part to the segment of its page (R279). An access through an aperture, which no page table translates, stands by
itself. -/
def addSeg (aps : List Aperture) (l : List Seg) (g : Seg) : List Seg :=
  match l.findIdx? fun x => x.va / 4096 = g.va / 4096 && decide (apertureHit aps (x.join g).va (x.join g).len = .none) with
  | some i => l.modify i fun x => x.join g
  | none => l ++ [g]

/-- The segments of a command's accesses, one for each page they touch (R279). -/
def segsOf (aps : List Aperture) (parts : List Seg) : List Seg := parts.foldl (addSeg aps) []

/-- The segments that bring the bytes of some ranges. -/
def readSegs (aps : List Aperture) (ranges : List (Nat × Nat)) : List Seg :=
  segsOf aps (ranges.flatMap fun r => cutSegs r.1 r.2 0)

/-- The engine of a command in progress. -/
structure Eng where
  s : State
  h : Nat
  q : Nat
  t : Team
  x : EngQ
  p : Prog

/-- The engine with another machine: its team, queue and command are read again; none when the command has been
stopped. -/
def State.eng? (s : State) (h q : Nat) : Option Eng :=
  match s.team? h with
  | none => none
  | some t => (t.queue q).prog.map fun p => ⟨s, h, q, t, t.queue q, p⟩

/-- Changes the command in progress. -/
def State.modProg (s : State) (h q : Nat) (f : Prog → Prog) : State :=
  s.modTeam h fun t =>
    let x := t.queue q
    t.setQueue q { x with prog := x.prog.map f }

def Eng.who (e : Eng) : Who := { src := 2, handle := e.h, qseq := qseqOf e.q e.x.headSeq }

/-- The apertures that its accesses may reach. -/
def Eng.aps (e : Eng) : List Aperture := e.s.aperturesOf e.t

/-- Stops the queue with a fault of an access: its own code, with VA bits 43:12 as the detail (R393, R435). -/
def Eng.accessFault (e : Eng) (s : State) (ti : TrapInfo) (va : Nat) : State :=
  s.stopQueue e.h e.q ti.code ti.reason (bits va 12 32) none

/-- Stops the queue with the fault of a refused access (R279, R394). -/
def Eng.refusedAt (e : Eng) (s : State) (va : Nat) : State := s.stopQueue e.h e.q 0x34 0 (bits va 32 32) none

/-- Puts a faulted segment into the fix-up list (R279). -/
def Eng.fixup (e : Eng) (s : State) (g : Seg) (write : Bool) (serial : Nat) : State :=
  s.modQueue e.h e.q fun x => { x with fixups := x.fixups ++ [
    { seg := g, seq := e.x.headSeq, write := write, serial := some serial, refused := false }] }

/-- The fix-up list holds the segment. -/
def EngQ.fixing (x : EngQ) (g : Seg) (write : Bool) : Bool := x.fixups.any fun f => f.write = write && f.seg.va = g.va && f.seg.len = g.len

def Prog.has (p : Prog) (g : Seg) : Bool := p.fetched.any fun f => f.va = g.va && f.len = g.len

/-- The segment that a read sent to a peer brings, as it was asked for. -/
def Prog.seg? (p : Prog) (k : Nat × Nat × Nat) : Option Seg := p.askedSegs.find? fun g => g.va = k.1 && g.len = k.2.1

/-- Adds source bytes. -/
def State.fetchedSeg (s : State) (h q : Nat) (g : Seg) (v : Nat) : State :=
  s.modProg h q fun p => { p with fetched := p.fetched ++ [{ g with data := v }] }

/-- Reads one segment, unless its bytes are there, are on their way, or wait in the fix-up list. -/
def Eng.readSeg (e : Eng) (g : Seg) : State :=
  let s := e.s
  if e.p.has g || e.x.fixing g false || e.p.asked.any (fun a => a.1 = g.va && a.2.1 = g.len) || 16 ≤ e.x.fixups.length
      || s.awaitsOwn e.t.core e.t.ctx e.h (5 + e.q) g.va g.len then s
  else
    let die := dieOf e.t.core
    let (r, s) := s.spans e.t.ctx die e.aps g.va g.len g.mask .read e.who
    match r with
    | .full => s
    | .wait k => e.fixup s g false k
    | .fault ti => e.accessFault s ti g.va
    | .refused _ => e.refusedAt s g.va
    | .ok ps =>
      match (ps.head?.map fun p => p.loc : Option Loc) with
      | some (.frame pa) =>
        if (maskedLines pa g.len g.mask).any fun l => s.lineBad (128 * l) 128 then e.accessFault s { code := 0x22 } g.va
        else (s.noteAccess e.h pa g.len g.mask false).fetchedSeg e.h e.q g (s.readAt e.t.core pa g.len)
      | some (.aperture i off) =>
        match e.aps[i]? with
        | some a =>
          if s.awaitsAperture e.t i then s
          else if s.viewBad a off g.len g.mask then e.accessFault s { code := 0x22 } g.va
          else
            let (v, fl) := a.load s.hbm off g.len g.mask
            let s := s.noteView e.h a off g.len g.mask false
            (s.fetchedSeg e.h e.q g v).modProg e.h e.q fun p => { p with flags := p.flags ||| fl }
        | none => s
      | some (.peer p pa hd ro) =>
        if s.peerTouches e.t.core p pa g.len then s else
        let copy := if ro then s.peerCopy die p pa g.len else none
        let (drop, s) := if copy.isSome then s.choose else (false, s)
        match copy, drop with
        | some v, false => s.fetchedSeg e.h e.q g v
        | _, _ =>
          let s := if ro then s.dropPeerLines die p pa g.len else s
          let (r, s) := s.sendPeer e.t.ctx p hd die (.engine e.h e.q e.x.headSeq) g.va (.read pa g.len ro)
          match r with
          | .ref k => s.modProg e.h e.q fun p => { p with asked := p.asked ++ [(g.va, g.len, k)], askedSegs := p.askedSegs ++ [g] }
          | .wait => s
          | .unreachable r => s.stopQueue e.h e.q 0x40 r p none
      | _ => s.fetchedSeg e.h e.q g 0

/-- Reads every segment of a command's source ranges that is still needed; whether the fix-up list holds all of those is noted
(R405). -/
def Eng.gather (e : Eng) (need : List Seg) : State :=
  let s := need.foldl (fun s g =>
    match s.eng? e.h e.q with
    | some e => e.readSeg g
    | none => s) e.s
  s.modQueue e.h e.q fun x =>
    { x with prog := x.prog.map fun p => { p with fixupsOnly := need.all fun g => p.has g || x.fixing g false } }

/-- Every source byte has arrived. -/
def Prog.ready (p : Prog) (need : List Seg) : Bool := need.all p.has

/-- The arrived bytes of a piece of a range, from the segment that has them. -/
def Prog.piece (p : Prog) (g : Seg) : Nat :=
  match p.fetched.find? fun f => f.va ≤ g.va && g.va + g.len ≤ f.va + f.len && bits f.mask (g.va - f.va) g.len = ones g.len with
  | some f => bits f.data (8 * (g.va - f.va)) (8 * g.len)
  | none => 0

/-- Source bytes of a range, from the segments that have arrived. -/
def Prog.bytes (p : Prog) (va len : Nat) : Nat :=
  ((segmentsOf va len).foldl (fun (acc : Nat × Nat) g => (acc.1 + p.piece g * 2 ^ (8 * acc.2), acc.2 + g.len)) (0, 0)).1

/-! ## Writes -/

/-- The bytes of a piece on lines under flush (R335). -/
def State.stalledMask (s : State) (core : Nat) (p : Piece) : Nat :=
  let lines := fun (pa : Nat) => (linesOf pa p.len).foldl (fun m l =>
    if s.stalled core (128 * l) 128 then
      m ||| ones (min (pa + p.len) (128 * l + 128) - max pa (128 * l)) <<< (max pa (128 * l) - pa)
    else m) 0
  match p.loc with
  | .frame pa => lines pa
  | .peer _ pa _ _ => lines pa
  | _ => 0

/-- Posts one segment of a command's output into the core's write path (R248): a missing place on the fault path or a full
fix-up list leaves it for later (R279), and so a flush does its bytes on the lines under flush (R335). -/
def Eng.writeSeg (e : Eng) (g : Seg) : State :=
  let s := e.s
  let left := fun (s : State) (l : List Seg) => s.modProg e.h e.q fun p => { p with out := p.out.flatMap fun x => if x = g then l else [x] }
  if 16 ≤ e.x.fixups.length then s
  else
    let core := e.t.core
    let (r, s) := s.spans e.t.ctx (dieOf core) e.aps g.va g.len g.mask .write e.who
    match r with
    | .full => s
    | .wait k => left (e.fixup s g true k) []
    | .fault ti => e.accessFault s ti g.va
    | .refused _ => e.refusedAt s g.va
    | .ok ps =>
      match ps with
      | [] => left s []
      | p :: _ =>
        let rest := g.mask &&& s.stalledMask core p
        let w : Posted :=
          { num := 0, h := e.h, k := 5 + e.q, ctx := e.t.ctx, va := g.va, len := g.len, data := g.data, mask := g.mask - rest,
            target := .fault 0, cmdOf := some (e.x.headSeq, e.p.cmd.cmd.toNat), tag := e.p.tag }
        let s := if rest = 0 then left s [] else (left s [{ g with mask := rest }]).owe core (.engine e.h e.q)
        if rest = g.mask then s else (w.parts p).foldl (fun s e => s.enterPath core e) s

/-- Posts what is left of a command's output. -/
def State.drainOut (s : State) (h q : Nat) : State :=
  match s.eng? h q with
  | none => s
  | some e => e.p.out.foldl (fun s g =>
      match s.eng? h q with
      | some e => e.writeSeg g
      | none => s) s

/-- Runs a command of the queue in `cur`: its own part while its effect is to be performed, then its output, then what else
it does while it is in progress. -/
def engineWord (s : State) (c : Cmd) (body : Eng → State) (after : Eng → State) : Out :=
  match s.cur with
  | .engine h q =>
    match s.team? h with
    | none => .fault .noAgent
    | some _ =>
      match s.eng? h q with
      | none => .next s
      | some e =>
        if e.p.cmd = c then
          let s := (if e.p.phase = .started then body e else s).drainOut h q
          match s.eng? h q with
          | some e => .next (after e)
          | none => .next s
        else .next s
  | _ => .fault .noAgent

/-- The command's effect is performed; `f` fills in what is left of it. -/
def Eng.performed (e : Eng) (s : State) (f : Prog → Prog) : State :=
  s.modProg e.h e.q fun p => { f p with phase := .performed, fetched := [] }

/-- Waits for the granules of SP tiles, or goes on (R293, R294). -/
def Eng.withTiles (e : Eng) (ns : List Nat) (k : State) : State :=
  match ns.findSome? fun n => (e.p.tiles[n]?).bind fun x => e.t.tileMissing x (vget e.p.fds x.fd 0) with
  | some g => (e.s.setTeam e.h (e.t.startFill g)).modQueue e.h e.q fun x => { x with wantsFill := some g }
  | none => k

end Sys2Proof.Machine
end

