-- ==== Sys2Proof/Machine/EngineChecks.lean ====
section
/-! DEFINITION. The fields of engine commands, the checks at the head of a queue (R95, R281) and at the start of a command
(R245, R249–R265, R267), and what a command waits for before it starts (R91, R92, R96, R245, R287, R288). -/

namespace Sys2Proof.Machine

open Sys2Proof

/-! ## Fields -/

/-- Bits of word 0 of a command, below LEN. -/
def fld (c : Cmd) (lo n : Nat) : Nat := bits c.body.toNat lo n

def flag (c : Cmd) (i : Nat) : Bool := bit c.body.toNat i

/-- The bytes of a command code that name a tile (R249, R256). -/
def tileOf (c : Cmd) : Nat := fld c 32 6
def tbOf (c : Cmd) : Nat := fld c 26 6
def tcOf (c : Cmd) : Nat := fld c 20 6
def gfdOf (c : Cmd) : Nat := fld c 28 4
def trOf (c : Cmd) : Bool := flag c 27
def cvOf (c : Cmd) : Nat := fld c 25 2
def rndOf (c : Cmd) : Nat := fld c 22 2
def seedOf (c : Cmd) : Nat := fld c 0 20

/-- Products or groups of a matrix command: the indices of A, B and C of each (R249, R254). -/
def productsOf (c : Cmd) : List (Nat × Nat × Nat) :=
  if c.cmd = 0x21 then (List.range (bits c.w1.toNat 20 6 + 1)).map fun g => (tileOf c, tbOf c + g * fld c 6 3, tcOf c)
  else (List.range (fld c 12 4 + 1)).map fun b => (tileOf c + b * fld c 9 3, tbOf c + b * fld c 6 3, tcOf c + b * fld c 3 3)

/-- The global tensor of a copy command (R257). -/
structure Tensor where
  addr  : Nat
  pitch : Nat
  rows  : Nat
  cols  : Nat
  scale : Nat

def tensorOf (c : Cmd) : Tensor :=
  { addr := bits c.w1.toNat 0 56, pitch := bits c.w2.toNat 0 24, rows := bits c.w2.toNat 24 16,
    cols := bits c.w2.toNat 40 16, scale := bits c.w2.toNat 56 8 }

/-- SCALE of a copy command (R257, R258). -/
def scaleOf (c : Cmd) : Nat := if c.cmd = 3 then bits c.w1.toNat 8 8 else (tensorOf c).scale

/-- The source tile is emptied (R245, R256, R258). -/
def emptyOf (c : Cmd) : Bool := if c.cmd = 3 then bit c.w1.toNat 16 else flag c 24

/-- A follow-on word stands at the end (R256, R263). -/
def hasFollowOn (c : Cmd) : Bool := (c.cmd = 1 || c.cmd = 3) && flag c 24

/-- The queue that a code belongs to: 0–2, 3 for every queue; `none` for a reserved code (R94, R281). -/
def engineOf (cmd : Nat) : Option Nat :=
  if cmd = 0 then some 3
  else if 1 ≤ cmd && cmd ≤ 6 then some 0
  else if cmd = 0x20 || cmd = 0x21 then some 1
  else if (0x40 ≤ cmd && cmd ≤ 0x42) || cmd = 0x48 || cmd = 0x49 then some 2
  else if 0xF0 ≤ cmd && cmd ≤ 0xF3 then some 3
  else none

/-- LEN that a code requires (R249, R254, R258, R267, R272). -/
def lenRequired (c : Cmd) : Nat :=
  match c.cmd.toNat with
  | 0x01 => if flag c 24 then 3 else 2
  | 0x02 => 2
  | 0x03 => if flag c 24 then 2 else 1
  | 0x05 => 1
  | 0x06 => 3
  | 0x21 => 1
  | 0x40 => 3
  | 0x41 => 3
  | 0x42 => 3
  | 0x48 => 2
  | 0x49 => 3
  | 0xF2 => 1
  | 0xF3 => 2
  | _ => 0

/-! ## Checks at the head (R95) -/

/-- A fault of a command: code, REASON, detail. -/
abbrev CmdFault := Nat × Nat × Nat

/-- The fault to report: the lowest code, within it the lowest REASON, the first found among equals (R277). -/
def leastFault (l : List CmdFault) : Option CmdFault :=
  l.foldl (fun (best : Option CmdFault) x =>
    match best with
    | none => some x
    | some y => if x.1 < y.1 || (x.1 = y.1 && x.2.1 < y.2.1) then some x else best) none

/-- A check that fails gives its fault. -/
def whenBad (bad : Bool) (f : CmdFault) : List CmdFault := if bad then [f] else []

/-- Reserved bits that are not 0: the index of each word that has one (R249, R254, R256–R258, R264, R267, R272). -/
def reservedWords (c : Cmd) : List Nat :=
  let w0 := c.body.toNat
  let w1 := c.w1.toNat
  let w3 := c.w3.toNat
  let bad := fun (i : Nat) (x : Nat) => if x ≠ 0 then [i] else []
  let copy := bad 0 (bits w0 20 2) ++ (if cvOf c = 3 || rndOf c = 3 then [0] else [])
  match c.cmd.toNat with
  | 0x00 => bad 0 w0
  | 0x01 => copy ++ bad 1 (bits w1 56 8)
  | 0x02 => copy ++ bad 1 (bits w1 56 8)
  | 0x03 => copy ++ bad 0 (gfdOf c) ++ bad 1 (bits w1 6 2) ++ bad 1 (bits w1 17 47)
  | 0x04 => bad 0 (bits w0 0 32)
  | 0x05 => bad 0 (bits w0 8 30) ++ bad 1 (bits w1 56 8)
  | 0x06 => copy ++ bad 1 (bits w1 56 8) ++ (if bits w3 48 2 = 3 then [3] else []) ++ bad 3 (bits w3 50 14)
  | 0x20 => bad 0 (bits w0 0 3)
  | 0x21 => bad 0 (bits w0 0 6) ++ bad 0 (bits w0 9 7) ++ bad 1 (bits w1 19 1) ++ bad 1 (bits w1 26 38)
  | 0x40 => bad 0 (bits w0 36 2)
  | 0x41 => bad 0 (bits w0 36 2)
  | 0x42 => bad 0 (bits w0 36 2)
  | 0x48 => bad 0 (bits w0 37 1)
  | 0x49 => bad 0 (bits w0 37 1)
  | 0xF0 => bad 0 (bits w0 1 37)
  | 0xF1 => bad 0 (bits w0 3 5) ++ bad 0 (bits w0 13 25)
  | 0xF2 => bad 0 (bits w0 16 22) ++ bad 1 (bits w1 56 8)
  | 0xF3 => bad 0 w0 ++ bad 1 (bits w1 56 8)
  | _ => []

/-- The tiles that a command's fields name, with the index of the word that names each. -/
def tilesNamed (c : Cmd) : List (Nat × Nat) :=
  match c.cmd.toNat with
  | 0x01 => [(tileOf c, 0)]
  | 0x02 => [(tileOf c, 0)]
  | 0x03 => [(tileOf c, 0), (bits c.w1.toNat 0 6, 1)]
  | 0x04 => [(tileOf c, 0)]
  | 0x06 => [(tileOf c, 0)]
  | 0x20 => (productsOf c).flatMap fun p => [(p.1, 0), (p.2.1, 0), (p.2.2, 0)]
  | 0x21 => (productsOf c).flatMap fun p => [(p.1, 0), (p.2.1, 0), (p.2.2, 0)]
  | _ => []

/-- The descriptor that a field names by number: GFD or LFD. -/
def fdNamed (c : Cmd) : Option Nat :=
  match c.cmd.toNat with
  | 0x01 => some (gfdOf c)
  | 0x02 => some (gfdOf c)
  | 0x06 => some (gfdOf c)
  | 0x40 => some (fld c 32 4)
  | 0x41 => some (fld c 32 4)
  | 0x42 => some (fld c 32 4)
  | _ => none

/-- The fault of a command of this engine whose descriptor, named by number, is null or invalid: at the head (R95) and again when
it starts (R112, R246). -/
def namedFaults (t : Team) (c : Cmd) : List CmdFault :=
  match fdNamed c with
  | some n => whenBad (!fdUsable (vget t.fds n 0).toNat) (0x30, 7, 0)
  | none => []

/-- The faults that a command meets at the head of queue q. -/
def State.headFaults (s : State) (t : Team) (q : Nat) (c : Cmd) : List CmdFault :=
  let w := c.wait.toNat
  let g := c.signal.toNat
  let mine := match engineOf c.cmd.toNat with
    | some e => e = 3 || e = q
    | none => false
  let lenOk := c.len.toNat = lenRequired c
  whenBad (192 ≤ w || 128 ≤ g) (0x30, 1, 0)
  ++ whenBad (176 ≤ w && w < 192) (0x30, 2, 0)
  ++ whenBad ((64 ≤ w && w < 128 && t.ntiles ≤ w - 64) || (64 ≤ g && g < 128 && t.ntiles ≤ g - 64)) (0x30, 3, 0)
  ++ (if mine then ((tilesNamed c).filter fun p => t.ntiles ≤ p.1 && (lenOk || p.2 = 0)).map fun p => (0x30, 3, p.2) else [])
  ++ whenBad (!mine) (0x30, 4, 0)
  ++ whenBad (mine && !lenOk) (0x30, 5, 0)
  ++ (if mine && lenOk then (reservedWords c).map fun i => (0x30, 6, i) else [])
  ++ (if mine && lenOk then namedFaults t c else [])
  ++ whenBad (t.queue q).closed (0x30, 8, 0)
  ++ whenBad (c.cmd = 0xF1 && lenOk && !s.scopeValid t (fld c 8 5)) (0x30, 9, 0)

/-! ## Checks at the start -/

/-- A tile with its index and its descriptor, as a command reads them when it starts (R246). -/
structure NTile where
  n : Nat
  x : Tile
  v : BitVec 64

def Team.ntile (t : Team) (n : Nat) : NTile :=
  let x := (t.tile? n).getD { st := .empty, buf := 0, skew := false, off := 0, rows := 0, cols := 0, fd := 0, gen := 0 }
  ⟨n, x, vget t.fds x.fd 0⟩

def NTile.fd (a : NTile) : Fd := fdOf a.v.toNat
def NTile.usable (a : NTile) : Bool := fdUsable a.v.toNat
def NTile.size (a : NTile) : Nat := a.x.size a.v

/-- Two tiles share bytes of one buffer. -/
def NTile.meets (a b : NTile) : Bool :=
  a.x.buf = b.x.buf && decide (a.x.off < b.x.off + b.size) && decide (b.x.off < a.x.off + a.size)

/-- A tile lies beyond its window (R277). -/
def NTile.beyond (t : Team) (a : NTile) : List CmdFault :=
  whenBad (t.windowSize (bufOfTile a.x.buf) < a.x.off + a.size) (0x33, 3, a.n)

/-- The SP bank groups of a tile's bytes (R283). -/
def bankGroups (t : Team) (a : NTile) : List Nat :=
  let q := max 1 (ceilDiv t.spg 4) * 4096
  if a.size = 0 then [] else (List.range ((a.x.off + a.size - 1) / q + 1 - a.x.off / q)).map (· + a.x.off / q)

/-- Rows and columns of a tile as read. -/
def NTile.shape (a : NTile) (tr : Bool) : Nat × Nat := if tr then (a.x.cols, a.x.rows) else (a.x.rows, a.x.cols)

/-- A product's faults (R245, R250, R251); in `mm.g` the rows of C follow the table instead (R254). -/
def productFaults (t : Team) (c : Cmd) (p : Nat × Nat × Nat) : List CmdFault :=
  let a := t.ntile p.1
  let b := t.ntile p.2.1
  let d := t.ntile p.2.2
  let acci := flag c 16
  let kr := if acci then 5 else 2
  let (m, k) := a.shape (flag c 19)
  let (k2, n) := b.shape (flag c 18)
  let operandBad := fun (x : NTile) => !x.usable || x.fd.kind = 2 || (acci && !x.fd.isIntOperand)
  whenBad (k ≠ k2 || n ≠ d.x.cols || (c.cmd = 0x20 && m ≠ d.x.rows)) (0x31, 1, d.n)
  ++ whenBad (!d.usable || d.fd.kind ≠ 2) (0x31, kr, d.n)
  ++ whenBad (operandBad a) (0x31, kr, a.n)
  ++ whenBad (operandBad b) (0x31, kr, b.n)
  ++ whenBad (a.x.buf = 3 && b.x.buf = 3 && (bankGroups t a).any fun g => (bankGroups t b).contains g) (0x32, 0, a.n)
  ++ whenBad (a.x.buf = 2) (0x33, 1, a.n)
  ++ whenBad (b.x.buf = 2) (0x33, 1, b.n)
  ++ whenBad (d.x.buf ≠ 2) (0x33, 1, d.n)
  ++ whenBad (d.meets a || d.meets b) (0x33, 2, d.n)
  ++ a.beyond t ++ b.beyond t ++ d.beyond t

/-- Faults of a conversion from descriptor `sv` to `dv` (R259); RL is not compared. -/
def conversionFaults (c : Cmd) (sv dv : BitVec 64) (detail : Nat) : List CmdFault :=
  let src := fdOf sv.toNat
  let dst := fdOf dv.toNat
  if cvOf c = 0 then
    whenBad ((sv ^^^ dv) &&& ~~~(0xC00000 : BitVec 64) ≠ 0) (0x31, 2, detail)
    ++ whenBad (trOf c && (src.block ≠ 0 || dst.block ≠ 0)) (0x31, 3, detail)
  else whenBad (cvOf c = 2 && dst.kind = 1 && dst.bs ≠ 0 && scaleOf c = 0xFF) (0x31, 2, detail)

/-- Element width in bytes for alignment (R257). -/
def Fd.alignWidth (d : Fd) : Nat := if d.kind = 1 then 1 else kindBytes d.kind

def alignmentFaults (x : Tensor) (d : Fd) : List CmdFault :=
  whenBad (x.addr % d.alignWidth ≠ 0 || x.pitch % d.alignWidth ≠ 0) (0x31, 6, 0xFF)

/-- A copy command's source tile lies in AB, CB or SP (R245). -/
def sourceFaults (t : Team) (a : NTile) : List CmdFault :=
  whenBad (!a.usable) (0x31, 2, a.n) ++ whenBad (a.x.buf = 0) (0x33, 1, a.n) ++ a.beyond t

/-- Whether the rows of a store reach a block of the tensor only in part (R261). -/
def partBlock (x : Tensor) (d : Fd) (reach : Nat) : Bool := d.block ≠ 0 && min x.cols reach % d.block ≠ 0

/-- The Sextant entry and tile of `cp.renc`, when the entry is in use and the address is a tile's start (R384). -/
def SxEntry.tsize (e : SxEntry) : Nat := 4096 * 2 ^ e.tlog

def Context.sx (c : Context) (n : Nat) : SxEntry := (tget c.sextant.entries n).getD {}

def State.rencTile (s : State) (t : Team) (c : Cmd) : Option (Nat × Nat) :=
  (s.ctx? t.ctx).bind fun x =>
    let n := fld c 0 8
    let e := x.sx n
    let va := bits c.w1.toNat 0 56
    let base := bits e.rbase 0 56
    if e.mode ≠ 0 && base ≤ va && (va - base) % e.tsize = 0 && (va - base) / e.tsize < e.rtiles then
      some (n, (va - base) / e.tsize)
    else none

/-- The faults that a command meets when it would start. A word 3 of `cl.putq` that breaks the limits of a wire descriptor
stops the queue as an LFD that cannot be used does (log entry 36). -/
def State.startFaults (s : State) (t : Team) (c : Cmd) : List CmdFault :=
  let a := t.ntile (tileOf c)
  let x := tensorOf c
  let gv := vget t.fds (gfdOf c) 0
  let g := fdOf gv.toNat
  let (_, reach) := a.shape (trOf c)
  match c.cmd.toNat with
  | 0x01 =>
    conversionFaults c gv a.v a.n
    ++ whenBad (!a.usable) (0x31, 2, a.n)
    ++ whenBad (g.block ≠ 0 && x.cols % g.block ≠ 0 && x.cols < reach) (0x31, 4, 0xFF)
    ++ whenBad (cvOf c = 0 && a.fd.block ≠ 0 && a.x.cols % a.fd.block ≠ 0) (0x31, 4, a.n)
    ++ alignmentFaults x g ++ a.beyond t
  | 0x02 =>
    conversionFaults c a.v gv a.n ++ sourceFaults t a
    ++ whenBad ((g.block ≠ 0 && x.cols % g.block ≠ 0) || partBlock x g reach) (0x31, 4, 0xFF)
    ++ alignmentFaults x g
  | 0x03 =>
    let b := t.ntile (bits c.w1.toNat 0 6)
    conversionFaults c b.v a.v a.n ++ sourceFaults t b
    ++ whenBad (!a.usable) (0x31, 2, a.n)
    ++ whenBad (b.shape (trOf c) ≠ (a.x.rows, a.x.cols)) (0x31, 1, a.n)
    ++ whenBad (cvOf c = 0 && a.fd.block ≠ 0 && a.x.cols % a.fd.block ≠ 0) (0x31, 4, a.n)
    ++ whenBad (b.n = a.n || a.meets b) (0x33, 2, a.n) ++ a.beyond t
  | 0x04 => a.beyond t
  | 0x05 => whenBad (s.rencTile t c).isNone (0x31, 7, fld c 0 8)
  | 0x06 =>
    sourceFaults t a
    ++ whenBad (cvOf c ≠ 1 || rndOf c ≠ 0 || (g.kind ≠ 2 && g.kind ≠ 3)) (0x31, 2, 0xFF)
    ++ alignmentFaults x g
  | 0x20 => (productsOf c).flatMap (productFaults t c)
  | 0x21 => (productsOf c).flatMap (productFaults t c)
  | 0x40 => whenBad (let k := (fdOf (vget t.fds (fld c 32 4) 0).toNat).kind; k < 2 || 4 < k) (0x31, 2, 0xFF)
  | 0x41 => whenBad (let k := (fdOf (vget t.fds (fld c 32 4) 0).toNat).kind; k < 2 || 4 < k) (0x31, 2, 0xFF)
  | 0x42 => whenBad (let k := (fdOf (vget t.fds (fld c 32 4) 0).toNat).kind; k < 2 || 4 < k) (0x31, 2, 0xFF)
  | 0x48 =>
    whenBad (!s.scopeValid t (fld c 32 5)) (0x30, 9, 0)
    ++ whenBad (fld c 0 32 = 0 || fld c 0 32 % 8 ≠ 0 || c.w1.toNat % 8 ≠ 0 || c.w2.toNat % 8 ≠ 0) (0x31, 6, 0xFF)
  | 0x49 =>
    let w := fdOf c.w3.toNat
    whenBad (!s.scopeValid t (fld c 32 5)) (0x30, 9, 0)
    ++ whenBad (fld c 0 32 = 0 || c.w1.toNat % 8 ≠ 0 || c.w2.toNat % 8 ≠ 0) (0x31, 6, 0xFF)
    ++ whenBad (!fdUsable c.w3.toNat || !((w.kind = 1 && w.bs ≠ 0) || w.kind = 3 || w.kind = 4)) (0x31, 2, 0xFF)
  | 0xF2 => whenBad (fld c 0 16 = 0 || c.w1.toNat % 8 ≠ 0) (0x35, 2, 0)
  | 0xF3 => whenBad (c.w1.toNat % 4096 ≠ 0 || c.w2 = 0 || c.w2.toNat % 4096 ≠ 0) (0x31, 6, 0xFF)
  | _ => []

/-- The row-count table of `mm.g` in the SP window: offset and length in bytes (R254). -/
def tableOf (c : Cmd) : Nat × Nat := (bits c.w1.toNat 0 19, 2 * (bits c.w1.toNat 20 6 + 1))

/-- The fault of the table's counts: the group at which the rows are exceeded (R254). -/
def countFaults (t : Team) (c : Cmd) (table : Nat) : List CmdFault :=
  let a := (t.ntile (tileOf c)).shape (flag c 19)
  let d := (t.ntile (tcOf c)).x.rows
  let g := ((List.range (bits c.w1.toNat 20 6 + 1)).foldl (fun (acc : Nat × Option Nat) i =>
    let n := acc.1 + elem 2 table i
    (n, if acc.2.isNone && (a.1 < n || d < n) then some i else acc.2)) (0, none)).2
  match g with
  | some i => [(0x37, 1, i)]
  | none => []

/-! ## Waiting to start -/

/-- Commands accepted before a recorded sequence number that have not completed (R92). -/
def EngQ.uncompleted (x : EngQ) (rec_ : BitVec 16) : Nat :=
  (x.cmds.filter fun c => let d := (rec_ - c.seq).toNat; 1 ≤ d && d ≤ 32768).length

/-- The commands that a `qfence` waits for have completed (R274). -/
def Team.fenceHolds (t : Team) (e : QCmd) (c : Cmd) : Bool :=
  c.cmd ≠ 0xF1 || (List.range 3).all fun q => !flag c q || (t.queue q).uncompleted (vget e.recs q 0) = 0

/-- The WAIT condition (R91). -/
def Team.waitHolds (t : Team) (e : QCmd) (c : Cmd) : Bool :=
  let w := c.wait.toNat
  if w = 0 then true
   else if w < 64 then decide (0 < t.available w)
   else if w < 128 then
     (match t.tile? (w - 64) with
      | some x => x.st = .ready
      | none => false)
   else
     let q := (w - 128) / 16
     decide ((t.queue q).uncompleted (vget e.recs q 0) ≤ (w - 128) % 16)

/-- The tiles that a command takes: those it reads, those of them it empties, those it writes whole, its accumulators. -/
structure TileUse where
  reads  : List Nat := []
  empty  : Bool := false
  wholes : List Nat := []
  accs   : List Nat := []
  zc     : Bool := false

def tileUse (c : Cmd) : TileUse :=
  match c.cmd.toNat with
  | 0x01 => { wholes := [tileOf c] }
  | 0x02 => { reads := [tileOf c], empty := emptyOf c }
  | 0x03 => { reads := [bits c.w1.toNat 0 6], empty := emptyOf c, wholes := [tileOf c] }
  | 0x04 => { wholes := [tileOf c] }
  | 0x06 => { reads := [tileOf c], empty := emptyOf c }
  | 0x20 =>
    let ps := productsOf c
    { reads := (ps.flatMap fun p => [p.1, p.2.1]).eraseDups, accs := (ps.map fun p => p.2.2).eraseDups, zc := flag c 17 }
  | 0x21 =>
    let ps := productsOf c
    { reads := (ps.flatMap fun p => [p.1, p.2.1]).eraseDups, accs := (ps.map fun p => p.2.2).eraseDups, zc := flag c 17 }
  | _ => {}

/-- Whether the tiles are in the states that R245 requires, none taken in this cycle and none with a held set, which takes
effect first (R288). -/
def Team.tilesFree (t : Team) (u : TileUse) : Bool :=
  let ok := fun (n : Nat) (f : Tile → Bool) =>
    match t.tile? n with
    | some x => !x.taken && !(x.held && (x.st = .empty || x.st = .ready)) && f x
    | none => false
  (u.reads.all fun n => ok n fun x => x.st = .ready)
  && (u.wholes.all fun n => ok n fun x => (x.st = .empty || x.st = .ready) && x.readers = 0)
  && (u.accs.all fun n => ok n fun x => x.st = .ready || (u.zc && x.st = .empty))

/-- Takes the tiles (R287, R288). -/
def Team.takeTiles (t : Team) (u : TileUse) : Team :=
  let mark := fun (t : Team) n => match t.tile? n with
    | some x => t.setTile n { x with taken := true }
    | none => t
  let t := u.reads.foldl (fun t n => if u.empty then t.setTileState n .draining else t.addReader n true) t
  let t := (u.wholes ++ u.accs).foldl (fun t n => t.setTileState n .filling) t
  (u.reads ++ u.wholes ++ u.accs).foldl mark t

/-- The command in progress as it starts: descriptors and tile entries as they stand (R246). -/
def Team.progOf (t : Team) (c : Cmd) (fetched : List Seg) : Prog :=
  let u := tileUse c
  { cmd := c, fds := t.fds, tiles := t.tiles, filling := u.wholes ++ u.accs,
    draining := if u.empty then u.reads else [], reading := if u.empty then [] else u.reads, fetched := fetched }

end Sys2Proof.Machine
end

