-- ==== Sys2Proof/Machine/EngineQueues.lean ====
section
/-! DEFINITION. The life of a command in its queue: its start (R95, R96, R245), the reading of chains (R275), fix-up replays
(R279, R280), its completion (R247, R263, R273), held tile sets (R287) and the granting of gang banks (R253, R360). -/

namespace Sys2Proof.Machine

open Sys2Proof

/-! ## Start -/

/-- The final `notify` (R273). -/
def finalNotify : Cmd := Cmd.ofWords 0x0000F00000000001 0 0 0

/-- A queue holds no final `notify` at or behind its head. -/
def EngQ.wantsFinal (x : EngQ) : Bool := !x.closed && !x.cmds.any fun e => e.cmd.cmd = 0xF0 && flag e.cmd 0

/-- Every queue that has room takes the final `notify` that it does not hold yet (R56, R273). -/
def Team.takeFinals (t : Team) : Team :=
  (List.range 3).foldl (fun t q => if (t.queue q).wantsFinal && (t.queue q).room then t.accept q finalNotify else t) t

/-- Whether queue q may start a command: nothing is in progress, it is not stopped, and the team is neither halted nor
leaving its slot (R65, R169), but for the commands of a chain in progress when it leaves (R275); a halt lets only the chain
command in progress complete (log entry 96). -/
def Team.mayStart (t : Team) (q : Nat) : Bool :=
  t.resident && !t.halted && (!t.saving || (t.queue q).chain.isSome) && !(t.queue q).stopped && (t.queue q).prog.isNone

/-- The slot that WAIT names gives a unit (R96). -/
def Team.takeWait (t : Team) (c : Cmd) : Team :=
  let w := c.wait.toNat
  if 1 ≤ w && w < 64 then t.slotChange (.dec w) else t

/-- The command starts: its WAIT slot is consumed (R96), its tiles are taken, descriptors and tile entries are read. -/
def Team.begin (t : Team) (q : Nat) (c : Cmd) (fetched : List Seg) : Team :=
  let t := if (t.queue q).waited then t else t.takeWait c
  let p := t.progOf c fetched
  let t := t.takeTiles (tileUse c)
  t.setQueue q { t.queue q with prog := some p, wantsFill := none, waited := false, checked := false }

/-- The command at the head, its conditions met, reads its tiles, descriptors and count table, is checked and starts (R246,
R254). -/
def State.admitCommand (s : State) (h q : Nat) (t : Team) (c : Cmd) : State :=
  let stop := fun (f : CmdFault) => s.stopQueue h q f.1 f.2.1 f.2.2 (some c.cmd.toNat)
  let (off, len) := tableOf c
  let table := c.cmd = 0x21 && (off % 2 ≠ 0 || t.windowSize .sp < off + len)
  match leastFault (namedFaults t c ++ s.startFaults t c ++ whenBad table (0x37, 2, 0)) with
  | some f => stop f
  | none =>
    match if c.cmd = 0x21 then t.missing off len (ones len) else none with
    | some g => (s.setTeam h (t.startFill g)).modQueue h q fun x => { x with wantsFill := some g }
    | none =>
      let counts := t.readWindow .sp off len
      match (if c.cmd = 0x21 then leastFault (countFaults t c counts) else none) with
      | some f => stop f
      | none => s.setTeam h (t.begin q c (if c.cmd = 0x21 then [{ va := 0, len := len, data := counts }] else []))

/-- A `cp.mv` whose source is its destination (R262). Its fields alone refuse it, so it waits for no tile state: no tile
would have to become ready for it (DEDUCED, log entry 87). -/
def movesToSelf (c : Cmd) : Bool := c.cmd = 0x03 && tileOf c = bits c.w1.toNat 0 6

/-- Checks the command at the head, or the chain's current one, once (R95), waits for its conditions and starts it. A `qfence`
waits, after its WAIT condition, for the commands it names (R274). -/
def State.startCommand (s : State) (h q : Nat) (t : Team) (e : QCmd) (c : Cmd) (index : Option Nat) : State :=
  let nested := match index with
    | some i => whenBad (c.cmd = 0xF2) (0x35, 1, i)
    | none => []
  match if (t.queue q).checked then none else leastFault (s.headFaults t q c ++ nested) with
  | some f => s.stopQueue h q f.1 f.2.1 f.2.2 (some c.cmd.toNat)
  | none =>
    let t := t.setQueue q { t.queue q with checked := true }
    let s := s.setTeam h t
    if !(t.queue q).waited && !t.waitHolds e c then s
    else if !t.fenceHolds e c then
      if (t.queue q).waited then s
      else s.setTeam h ((t.takeWait c).setQueue q { t.queue q with waited := true })
    else if movesToSelf c || t.tilesFree (tileUse c) then s.admitCommand h q t c
    else s

/-! ## Reading a chain (R275) -/

def Chain.word? (x : Chain) (i : Nat) : Option Nat := (x.got.find? fun g => g.va = canon (x.addr + 8 * i)).map (·.data)

/-- Words of the current chain command that are to be read. -/
def Chain.needed (x : Chain) : List Nat :=
  match x.word? 0 with
  | none => [0]
  | some w => List.range (bits w 38 2 + 1)

def State.modChain (s : State) (h q : Nat) (f : Chain → Chain) : State :=
  s.modQueue h q fun x => { x with chain := x.chain.map f }

/-- Reads word i of the current chain command; a fault stops the queue with 0x35, REASON 3 (R394). -/
def State.chainWord (s : State) (h q i : Nat) : State :=
  match (s.team? h).bind fun t => (t.queue q).chain.map fun x => (t, x) with
  | none => s
  | some (t, x) =>
    let va := canon (x.addr + 8 * i)
    if (t.queue q).serial.isSome || (x.word? i).isSome || x.asked.any fun a => a.1 = va then s
    else
      let die := dieOf t.core
      let aps := s.aperturesOf t
      let seq := (t.queue q).headSeq
      let bad := fun (s : State) => s.stopQueue h q 0x35 3 x.index (some 0xF2)
      let got := fun (s : State) (v : Nat) => s.modChain h q fun x => { x with got := x.got ++ [{ va := va, len := 8, data := v }] }
      let (r, s) := s.resolve t.ctx die aps va 8 .read { src := 2, handle := h, qseq := qseqOf q seq }
      match r with
      | .full => s
      | .wait k => s.modQueue h q fun x => { x with serial := some k }
      | .fault _ => bad s
      | .refused _ => bad s
      | .ok (.frame pa) n =>
        if s.lineBad pa n then bad s else got (s.noteAccess h pa n (ones n) false) (s.readAt t.core pa n)
      | .ok (.bell _) _ => got s 0
      | .ok (.aperture j off) n =>
        match aps[j]? with
        | some a =>
          if s.awaitsAperture t j then s
          else if s.viewBad a off n (ones n) then bad s
          else got (s.noteView h a off n (ones n) false) (a.load s.hbm off n (ones n)).1
        | none => s
      | .ok (.peer p pa hd ro) n =>
        if s.awaitsOwn t.core t.ctx h (5 + q) va 8 || s.peerTouches t.core p pa n then s
        else
          let (r, s) := s.sendPeer t.ctx p hd die (.engine h q seq) va (.read pa n ro)
          match r with
          | .ref k => s.modChain h q fun x => { x with asked := x.asked ++ [(va, 8, k)] }
          | .wait => s
          | .unreachable _ => bad s

/-- Reads on at the current chain command; when all its words are there it is the command to start. -/
def State.readChain (s : State) (h q : Nat) : State :=
  let s := (List.range 4).foldl (fun s i =>
    match (s.team? h).bind fun t => (t.queue q).chain with
    | some x => if x.needed.contains i then s.chainWord h q i else s
    | none => s) s
  s.modChain h q fun x =>
    if (x.word? 0).isSome && x.needed.all fun i => (x.word? i).isSome then
      let w := fun i => BitVec.ofNat 64 (if x.needed.contains i then (x.word? i).getD 0 else 0)
      { x with cur := some (Cmd.ofWords (w 0) (w 1) (w 2) (w 3)), asked := [] }
    else x

/-- ENGINE_CMD_START (R95, R96): the head of queue q, or the next command of the chain there, is checked and starts once its
conditions hold. -/
def execEngineCmdStart (h q : Nat) (s : State) : Out :=
  match s.team? h with
  | none => .next s
  | some t =>
    let x := t.queue q
    match x.cmds.head? with
    | none => .next s
    | some e =>
      if !t.mayStart q then .next s
      else
        match x.chain with
        | none => .next (s.startCommand h q t e e.cmd none)
        | some ch =>
          match ch.cur with
          | some c => .next (s.startCommand h q t e c (some ch.index))
          | none =>
            if x.refused then .next (s.stopQueue h q 0x35 3 ch.index (some 0xF2))
            else .next (s.readChain h q)

/-! ## Fix-ups -/

/-- FIXUP_REPLAY (R279, R280): a refused segment stops the queue; a segment whose reply was a retry leaves the list, to be
performed again in full. -/
def execFixupReplay (h q : Nat) (s : State) : Out :=
  match s.team? h with
  | none => .next s
  | some t =>
    let x := t.queue q
    match x.fixups.find? fun f => f.refused with
    | some f => .next (s.stopQueue h q 0x34 0 (bits f.seg.va 32 32) none)
    | none =>
      let (again, left) := x.fixups.partition fun f => f.serial.isNone
      .next (s.modQueue h q fun x => { x with
        fixups := left,
        prog := x.prog.map fun p =>
          if p.cmd.cmd = 6 then p else { p with out := p.out ++ (again.filter fun f => f.write).map fun f => f.seg } })

/-! ## Completion -/

/-- The words of a follow-on command (R263). -/
def followOn (c : Cmd) : Cmd := Cmd.ofWords (if c.cmd = 1 then c.w3 else c.w2) 0 0 0

/-- SCOPE of `cl.put`, `cl.putq` and `qfence`. -/
def cmdScope (c : Cmd) : Nat := if c.cmd = 0xF1 then fld c 8 5 else fld c 32 5

/-- A write or an update meets a byte range of a context. -/
def meetsRange (base len va n : Nat) : Bool := decide (base < bits va 0 56 + n) && decide (bits va 0 56 < base + len)

/-- An access of a context that met a range before it was sealed is still to be performed (R276): a write of a path, unless
it is to be translated again; an element update; an atomic at a peer or translated. -/
def State.rangeBusy (s : State) (ctx base len : Nat) : Bool :=
  (s.cores.any fun k => k.2.path.any fun e => e.ctx = ctx && meetsRange base len e.va e.len
      && (match e.target with
          | .fault _ => false
          | _ => true))
    || (s.redMsgs.any fun e => e.2.ctx = ctx && e.2.pa.isSome && meetsRange base len e.2.va 4)
    || (s.fabric.outstanding.any fun o => o.packet.ctx = ctx && meetsRange base len o.va 8
        && (match o.packet.payload with
            | .atomic _ _ _ _ _ _ => true
            | .reduce _ _ _ _ _ _ _ _ _ => true
            | _ => false))
    || s.reqs.any fun e => (s.team? e.2.h).any (fun t => t.ctx = ctx) && (deedOf e.2.word).amo.isSome && !e.2.isRemote
        && (e.2.locs.any fun l => !l.isEmpty) && meetsRange base len e.2.ea 8

/-- The writes that a command waits for are performed: its own at their homes; for `qfence` those of the team's commands
before it (R274), for `seal` those that met its range before it (R276). -/
def State.written (s : State) (t : Team) (q : Nat) (p : Prog) : Bool :=
  let c := p.cmd
  let path := (s.core t.core).path
  if c.cmd = 0xF1 then path.all fun e => p.upto ≤ e.num || e.h ≠ t.handle || e.k < 5 || 8 ≤ e.k
  else (path.all fun e => e.h ≠ t.handle || e.k ≠ 5 + q)
    && !(c.cmd = 0xF3 && s.rangeBusy t.ctx (bits c.w1.toNat 0 56) c.w2.toNat)

/-- A command is at its end: its effect is performed, and nothing of it is left. -/
def State.atEnd (s : State) (t : Team) (q : Nat) (p : Prog) : Bool :=
  p.phase = .performed && p.work = 0 && p.out.isEmpty && p.reds.isEmpty && p.asked.isEmpty && p.awaits = 0
    && (p.cmd.cmd ≠ 6 || p.reached.isEmpty) && (t.queue q).fixups.isEmpty && s.written t q p && (!hasFollowOn p.cmd || t.q1.room)

/-- The queue after its current command: the next of the chain, or the end of the chain or of the head, with the SIGNAL
that then takes effect. -/
def EngQ.advance (x : EngQ) (c : Cmd) : EngQ × Option Nat :=
  let x := { x with prog := none, closed := x.closed || (c.cmd = 0xF0 && flag c 0) }
  match x.chain with
  | some ch =>
    if ch.left ≤ 1 then
      ({ x with chain := none, cmds := x.cmds.drop 1 }, (x.cmds.head?.map fun e => e.cmd.signal.toNat))
    else
      ({ x with chain := some { left := ch.left - 1, addr := ch.addr + 8 * (c.len.toNat + 1), index := ch.index + 1 } }, none)
  | none => ({ x with cmds := x.cmds.drop 1 }, none)

/-- Adds gradient noise to the accumulators of a Sextant entry (R375). -/
def State.addNoise (s : State) (ctx : Nat) (n : Option (Nat × Nat)) : State :=
  match n with
  | none => s
  | some (i, b) => s.modCtx ctx fun c =>
    let e := c.sx i
    { c with sextant := { c.sextant with
      entries := tput c.sextant.entries i { e with accGnsum := satAdd e.accGnsum b, accGncnt := satAdd e.accGncnt 1 } } }

/-- ENGINE_CMD_COMPLETE (R247, R263, R273, R275, R287): the follow-on is accepted, the tiles change state, FLAGS are set,
and the SIGNAL takes effect, all in one cycle. -/
def execEngineCmdComplete (h q : Nat) (s : State) : Out :=
  match s.team? h with
  | none => .next s
  | some t =>
    match (t.queue q).prog with
    | none => .next s
    | some p =>
      if !s.atEnd t q p then .next s
      else
        let t := if hasFollowOn p.cmd then t.accept 1 (followOn p.cmd) else t
        let t := t.releaseTiles p .empty
        let t := t.raise (flagBits p.flags)
        let (x, sig) := (t.queue q).advance p.cmd
        let t := t.setQueue q x
        let t := t.signal p.cmd.signal.toNat
        .next ((s.setTeam h (t.signal (sig.getD 0))).addNoise t.ctx p.noise)

/-- HELD_TILE_READY (R287, R288): a held set takes effect once the tile has left filling or draining, before any command
that waits for it. -/
def execHeldTileReady (h n : Nat) (s : State) : Out :=
  match (s.team? h).bind fun t => (t.tile? n).map fun x => (t, x) with
  | some (t, x) =>
    if x.held && (x.st = .empty || x.st = .ready) then
      .next (s.setTeam h (t.setTile n { x with held := false, st := .ready }))
    else .next s
  | none => .next s

/-! ## Gang banks (R253, R360) -/

/-- Cells per MAC of a matrix command (R116): the most of its products. -/
def Prog.cells (p : Prog) : Nat :=
  (productsOf p.cmd).foldl (fun m x =>
    let fd := fun n => fdOf (vget p.fds ((p.tiles[n]?).map (·.fd) |>.getD 0) 0).toNat
    max m (cellsPerMac (fd x.1) (fd x.2.1))) 1

/-- The need of a team whose matrix queue has a command in progress. -/
def Team.bankNeed (t : Team) : Option Nat :=
  match t.q1.prog with
  | some p =>
    if p.cmd.cmd = 0x20 || p.cmd.cmd = 0x21 then some (min 32 (max 1 (ceilDiv (t.gb * p.cells) 16))) else none
  | none => none

/-- Gives n banks one at a time, round-robin. -/
def giveBanks : Nat → Nat → List Nat → List Nat
  | 0, _, l => l
  | n + 1, i, l => giveBanks n ((i + 1) % max 1 l.length) (l.modify i (· + 1))

/-- The grants of a pool of banks for needs in ascending slot order. -/
def bankGrants (pool : Nat) (needs : List Nat) : List Nat :=
  let sum := needs.foldl (· + ·) 0
  if needs.isEmpty then []
  else
    let base := if sum ≤ pool then needs else needs.map fun n => max 1 (pool * n / sum)
    giveBanks (pool - base.foldl (· + ·) 0) 0 base

/-- The slot of a team in a slot. -/
def Team.slot? (t : Team) : Option Nat :=
  match t.place with
  | .slot i => some i
  | _ => none

/-- The resident teams of a core, in ascending slot order, those that have freed their slot after them. -/
def State.teamsOf (s : State) (core : Nat) : List Team :=
  let l := (s.teams.map (·.2)).filter fun t => t.core = core && t.resident
  ((List.range 64).flatMap fun i => l.filter fun t => t.slot? = some i) ++ l.filter fun t => t.slot?.isNone

/-- The banks that a core has to grant: all but the retired ones (R446); while Binnacle throttles, no more than its cap
(R491, log entry 10). -/
def State.bankPool (s : State) (core : Nat) : Nat :=
  let n := 32 - (s.core core).retiredBanks
  if s.binnacle.throttled then min n (max 1 Config.bankCap) else n

/-- BANK_JOIN (R360): the grants of a core's gang banks are worked out, and one bank newly granted joins. -/
def execBankJoin (core : Nat) (s : State) : Out :=
  let ts := s.teamsOf core
  let busy := ts.filter fun t => t.bankNeed.isSome
  let grants := bankGrants (s.bankPool core) (busy.filterMap Team.bankNeed)
  let s := ts.foldl (fun s t =>
    let g := match (busy.map (·.handle)).findIdx? (· = t.handle) with
      | some i => grants.getD i 0
      | none => 0
    s.modTeam t.handle fun t => { t with banks := g, joined := min t.joined g }) s
  match (s.teamsOf core).find? fun t => t.joined < t.banks with
  | some t => .next (s.modTeam t.handle fun t => { t with joined := t.joined + 1 })
  | none => .next s

end Sys2Proof.Machine
end

