-- ==== Sys2Proof/Machine/EngineCommon.lean ====
section
/-! DEFINITION. The commands that every queue accepts: nop (R94), `notify`, `qfence`, `chain` and `seal` (R272–R276, R314). -/

namespace Sys2Proof.Machine

open Sys2Proof

/-- `nop` (R94): waits and signals only. -/
def execCmdNop (c : Cmd) (s : State) : Out := engineWord s c (fun e => e.performed e.s id) fun e => e.s

/-- `notify` (R273): its SIGNAL and FINAL take effect at its completion. -/
def execNotify (c : Cmd) (s : State) : Out := engineWord s c (fun e => e.performed e.s id) fun e => e.s

/-- A release at a scope by an engine's command: a tagged event when the scope reaches another C-die, which waits while the
counter leads too far (R323). `k` goes on with the tag of the command's writes. -/
def Eng.releaseAt (e : Eng) (sc : Nat) (k : Option (Nat × Vector (BitVec 16) 4) → State → State) : State :=
  if e.s.scopeWide e.t sc then
    if e.s.leadOk (dieOf e.t.core) then
      let (tag, s) := e.s.tagPath e.t.core
      k (some tag) s
    else e.s
  else k none e.s

/-- `qfence` (R274): the named commands have completed when it starts; it completes when their writes and those of its own
queue are performed. -/
def execQfence (c : Cmd) (s : State) : Out :=
  engineWord s c
    (fun e => e.releaseAt (cmdScope c) fun _ s => e.performed s fun p => { p with upto := (s.core e.t.core).nextNum })
    fun e => e.s

/-- `chain` (R275): the queue goes on with the commands at the chain address in its place. -/
def execChain (c : Cmd) (s : State) : Out :=
  engineWord s c
    (fun e => e.s.modQueue e.h e.q fun x => { x with
      prog := none, chain := some { left := fld c 0 16, addr := bits c.w1.toNat 0 56, index := 0 } })
    fun e => e.s

/-! ## `seal` -/

/-- The address and level of the leaf that maps an address (R387). -/
def State.leafAt (s : State) (va : Nat) : Nat → Nat → Option (Nat × Nat)
  | level, base =>
    let a := base + 8 * bits va (12 + 9 * level) (if level = 4 then 8 else 9)
    let e := Mem.readN s.hbm a 8
    if !pteValid e then none
    else if pteLeaf e then some (level, a)
    else
      match level with
      | 0 => none
      | l + 1 => s.leafAt va l (ptePa e)

def State.pteAt (s : State) (ctx va : Nat) : Option (Nat × Nat) :=
  (s.ctx? ctx).bind fun c => s.leafAt va 4 (bits c.ptroot.toNat 12 40 * 4096)

/-- The apertures of a launch whose view ranges hold a part of a page (R314). -/
def viewsOf (aps : List Aperture) (va : Nat) : List Nat :=
  (aps.zipIdx.filter fun a => a.1.xf ≠ 0 && decide (bits va 0 56 < bits a.1.vbase 0 56 + a.1.vlen)
    && decide (bits a.1.vbase 0 56 < bits va 0 56 + 4096)).map (·.2)

/-- A page of the range may be sealed: it lies in an aperture's view, or is mapped writable (R276), which is its leaf's W
alone (log entry 32). -/
def State.sealable (s : State) (t : Team) (va : Nat) : Bool :=
  !(viewsOf (s.aperturesOf t) va).isEmpty ||
    (match s.walk t.ctx va with
     | .leaf _ e => pteW e
     | _ => false)

/-- Sets SEAL in the leaf that maps a page, in all 16 entries of a 64 KiB group, and drops the cached entries (R276, R388,
R391). -/
def State.sealPage (s : State) (ctx va : Nat) : State :=
  match s.pteAt ctx va with
  | none => s
  | some (level, a) =>
    let e := Mem.readN s.hbm a 8
    let as := if level = 0 && pteCont e then (List.range 16).map fun i => a - a % 128 + 8 * i else [a]
    let m := as.foldl (fun m a => Mem.write m a (Mem.readN m a 8 ||| 16) 8) s.hbm
    { s with hbm := m }.modCtx ctx fun c => { c with tlb := c.tlb.filter fun x => !x.covers va }

/-- Writes byte 0 of entry i of the aperture table with SEALED set, where the table lies: in a local frame, or at a peer by
the core's write path (R314). -/
def Eng.sealTable (e : Eng) (s : State) (i : Nat) : State :=
  let ctx := e.t.ctx
  let va := ((s.ctx? ctx).map Context.aptab).getD 0 + 64 * i
  match s.walk ctx va with
  | .leaf level x =>
    let pa := ptePa x + va % leafSize level
    if !s.pteLocal x then
      let v := ((e.aps[i]?).map Aperture.xf).getD 0 ||| 4
      s.enterPath e.t.core
        { num := 0, h := e.h, k := 5 + e.q, ctx := ctx, va := va, len := 1, data := v, mask := 1,
          target := .peer (ptePeer x) pa (pteHd x), cmdOf := some (e.x.headSeq, e.p.cmd.cmd.toNat) }
    else if pa < deviceBase then { s with hbm := Mem.write s.hbm pa (Mem.readN s.hbm pa 1 ||| 4) 1 }
    else s
  | _ => s

/-- Seals aperture i of a context: in the copies of its accepted launches and in the table in memory (R314). -/
def Eng.sealAperture (e : Eng) (s : State) (i : Nat) : State :=
  e.sealTable { s with launches := s.launches.map fun (l : Nat × Launch) =>
    if l.2.ctx = e.t.ctx then
      (l.1, { l.2 with apertures := (l.2.apertures.zipIdx).map fun (a : Aperture × Nat) =>
        if a.2 = i && a.1.xf ≠ 0 then { a.1 with isSealed := true } else a.1 })
    else l } i

/-- `seal` (R276, R314): every page of the range, or, when one is not mapped writable, none. -/
def execSealRange (c : Cmd) (s : State) : Out :=
  engineWord s c
    (fun e =>
      let base := bits c.w1.toNat 0 56
      let pages := (List.range (c.w2.toNat / 4096)).map fun i => base + 4096 * i
      match pages.findIdx? fun va => !e.s.sealable e.t va with
      | some i => e.s.stopQueue e.h e.q 0x38 0 i none
      | none =>
        let s := (pages.filter fun va => (viewsOf e.aps va).isEmpty).foldl (fun s va => s.sealPage e.t.ctx va) e.s
        let views := (pages.flatMap (viewsOf e.aps)).eraseDups
        e.performed (views.foldl e.sealAperture s) id)
    fun e => e.s

end Sys2Proof.Machine
end

