-- ==== Sys2Proof/Machine/EngineCopy.lean ====
section
/-! DEFINITION. The copy commands (R256–R265): loads, stores and moves of tiles, zeroing, the reducing copy and
re-encoding. -/

namespace Sys2Proof.Machine

open Sys2Proof

/-! ## Rows of a global tensor -/

/-- Virtual address of row r (R257). -/
def Tensor.rowVa (x : Tensor) (r : Nat) : Nat := canon (x.addr + r * x.pitch)

/-- What a command reads of a row whose first n elements it reaches: bytes from the row's start, and the place of the scale
byte of a block reached in part (R260). -/
def Fd.rowReads (d : Fd) (n : Nat) : Nat × Option Nat :=
  if d.kind = 1 && d.bs ≠ 0 then
    let full := n / d.block * (d.block * d.w / 8 + 1)
    let part := n % d.block
    if part = 0 then (full, none)
    else (full + ceilDiv (part * d.w) 8, some (full + d.block * d.w / 8))
  else (d.rowBytes n, none)

/-- The byte ranges that a command reads of row r (R260). -/
def Tensor.rowRanges (x : Tensor) (d : Fd) (r n : Nat) : List (Nat × Nat) :=
  let (len, scale) := d.rowReads n
  (x.rowVa r, len) ::
    (match scale with
     | some off => [(canon (x.addr + r * x.pitch + off), 1)]
     | none => [])

/-- The bytes of row r that have arrived, as a row. -/
def Prog.row (p : Prog) (x : Tensor) (d : Fd) (r n : Nat) : Nat :=
  let (len, scale) := d.rowReads n
  p.bytes (x.rowVa r) len +
    (match scale with
     | some off => p.bytes (canon (x.addr + r * x.pitch + off)) 1 * 2 ^ (8 * off)
     | none => 0)

/-! ## Filling a tile (R259, R260) -/

def Eng.tile (e : Eng) (n : Nat) : Tile :=
  (e.p.tiles[n]?).getD { st := .empty, buf := 0, skew := false, off := 0, rows := 0, cols := 0, fd := 0, gen := 0 }

def Eng.tileFd (e : Eng) (n : Nat) : BitVec 64 := vget e.p.fds (e.tile n).fd 0

/-- The LFSR and the conversion of a copy command (R247, R259). -/
def conversionOf (c : Cmd) : Conversion := { cv := cvOf c, scale := scaleOf c, rnd := rndOf c }

/-- Writes a tile from the codes and scales of its elements (none beyond the edge) under source descriptor `src`: the team,
and the flags. -/
def Team.fillTile (t : Team) (c : Cmd) (x : Tile) (fd : BitVec 64) (src : Fd) (get : Nat → Nat → Option (Nat × Nat)) :
    Team × Nat :=
  let d := fdOf fd.toNat
  let (t, fl, _) := (List.range x.rows).foldl (fun (acc : Team × Nat × Nat) i =>
    let (t, fl, z) := acc
    let cs := (List.range x.cols).map (get i)
    if cvOf c = 0 then
      let (v, f) := d.rawRow (cs.map fun o => o.getD (0, 127))
      (t.setTileRow x fd i v, fl ||| f, z)
    else
      let xs := cs.map fun o => match o with
        | some (code, s) => src.elemValue code s
        | none => (Val.fin false 0 0, 0)
      let (bs, z) := d.convertRow (conversionOf c) (xs.map (·.1)) z
      let t := t.feed x.fd d bs
      (t.setTileRow x fd i (d.packRow (bs.map (·.2))), fl ||| orAll (xs.map (·.2)) ||| rowFlags bs, z)) (t, 0, lfsrSeeded (seedOf c))
  (t, fl)

/-- The command's effect on the team is performed, with its flags. -/
def Eng.performedTeam (e : Eng) (r : Team × Nat) : State :=
  e.performed (e.s.setTeam e.h r.1) fun p => { p with flags := p.flags ||| r.2 }

/-- The rows of its tensor, and the elements of each, that a copy between the tensor and its tile reaches (R257). -/
def Eng.reach (e : Eng) (c : Cmd) : Nat × Nat :=
  let x := e.tile (tileOf c)
  let ten := tensorOf c
  if trOf c then (min ten.rows x.cols, min ten.cols x.rows) else (min ten.rows x.rows, min ten.cols x.cols)

/-- The descriptor of the tensor as the command read it. -/
def Eng.gfd (e : Eng) (c : Cmd) : Fd := fdOf (vget e.p.fds (gfdOf c) 0).toNat

/-- What `cp.ld` reads. -/
def Eng.loadNeed (e : Eng) (c : Cmd) : List Seg :=
  readSegs e.aps ((List.range (e.reach c).1).flatMap fun r => (tensorOf c).rowRanges (e.gfd c) r (e.reach c).2)

/-- The code and scale of the tensor element that goes to element (i, j) of the tile; none beyond the tensor's edge
(R260). -/
def Eng.loaded (e : Eng) (c : Cmd) (i j : Nat) : Option (Nat × Nat) :=
  let (r, k) := if trOf c then (j, i) else (i, j)
  if r < (e.reach c).1 && k < (e.reach c).2 then
    some ((e.gfd c).codeAt (e.p.row (tensorOf c) (e.gfd c) r (e.reach c).2) k)
  else none

/-- `cp.ld` (R260). -/
def execCpLd (c : Cmd) (s : State) : Out :=
  engineWord s c
    (fun e =>
      let n := tileOf c
      if !e.p.ready (e.loadNeed c) then e.gather (e.loadNeed c)
      else e.withTiles [n] (e.performedTeam (e.t.fillTile c (e.tile n) (e.tileFd n) (e.gfd c) (e.loaded c))))
    fun e => e.s

/-- `cp.mv` (R262). -/
def execCpMv (c : Cmd) (s : State) : Out :=
  engineWord s c
    (fun e =>
      let n := tileOf c
      let m := bits c.w1.toNat 0 6
      let src := e.tile m
      let sfd := e.tileFd m
      e.withTiles [m, n] (e.performedTeam (e.t.fillTile c (e.tile n) (e.tileFd n) (fdOf sfd.toNat) fun i j =>
        let (r, k) := if trOf c then (j, i) else (i, j)
        some ((fdOf sfd.toNat).codeAt (e.t.tileRow src sfd r) k))))
    fun e => e.s

/-- `cp.zero` (R263): codes 0 with scale bytes 127; under a null or invalid descriptor bytes 0. -/
def execCpZero (c : Cmd) (s : State) : Out :=
  engineWord s c
    (fun e =>
      let n := tileOf c
      let x := e.tile n
      let fd := e.tileFd n
      let row := if fdUsable fd.toNat then (fdOf fd.toNat).zeroRow x.cols else 0
      e.withTiles [n] (e.performedTeam
        ((List.range x.rows).foldl (fun t i => t.setTileRow x fd i row) e.t, 0)))
    fun e => e.s

/-! ## Storing a tile (R261) -/

/-- The codes and scales of the tile elements that go to elements 0 … n − 1 of tensor row r. -/
def Eng.storedRow (e : Eng) (c : Cmd) (r n : Nat) : List (Nat × Nat) :=
  let x := e.tile (tileOf c)
  let fd := e.tileFd (tileOf c)
  let d := fdOf fd.toNat
  (List.range n).map fun k =>
    let (i, j) := if trOf c then (k, r) else (r, k)
    d.codeAt (e.t.tileRow x fd i) j

/-- The bits of the last byte of a row that its elements fill, when they end within it. -/
def Eng.storeRest (e : Eng) (c : Cmd) : Nat :=
  if (e.gfd c).kind = 1 && (e.gfd c).bs = 0 then (e.reach c).2 * (e.gfd c).w % 8 else 0

/-- The address of the last byte of row r. -/
def Eng.lastVa (e : Eng) (c : Cmd) (r : Nat) : Nat :=
  canon ((tensorOf c).addr + r * (tensorOf c).pitch + (e.gfd c).rowBytes (e.reach c).2 - 1)

/-- What `cp.st` reads: the last bytes that keep bits of theirs (log entry 33). -/
def Eng.storeNeed (e : Eng) (c : Cmd) : List Seg :=
  if e.storeRest c = 0 then [] else readSegs e.aps ((List.range (e.reach c).1).map fun r => (e.lastVa c r, 1))

/-- The rows that `cp.st` writes, in order, with the draws of one generator (R117, R261): the team with the descriptor's
statistics fed, the bytes, and the flags. -/
def Eng.storeRows (e : Eng) (c : Cmd) : Team × List Seg × Nat :=
  let src := fdOf (e.tileFd (tileOf c)).toNat
  let g := e.gfd c
  let nc := (e.reach c).2
  let rest := e.storeRest c
  let len := g.rowBytes nc
  let (t, out, fl, _) := (List.range (e.reach c).1).foldl (fun (acc : Team × List Seg × Nat × Nat) r =>
    let (t, out, fl, z) := acc
    let cs := e.storedRow c r nc
    let (t, v, f, z) :=
      if cvOf c = 0 then (let (v, f) := g.rawRow cs; (t, v, f, z))
      else
        let xs := cs.map fun p => src.elemValue p.1 p.2
        let (bs, z) := g.convertRow (conversionOf c) (xs.map (·.1)) z
        (t.feed (gfdOf c) g bs, g.packRow (bs.map (·.2)), orAll (xs.map (·.2)) ||| rowFlags bs, z)
    let last := e.p.bytes (e.lastVa c r) 1
    let v := if rest = 0 then v else v + (last - last % 2 ^ rest) * 2 ^ (8 * (len - 1))
    (t, out ++ cutSegs ((tensorOf c).rowVa r) len v, fl ||| f, z)) (e.t, [], 0, lfsrSeeded (seedOf c))
  (t, segsOf e.aps out, fl)

/-- `cp.st` (R261). The last byte of a row whose elements end within it keeps its other bits (log entry 33). -/
def execCpSt (c : Cmd) (s : State) : Out :=
  engineWord s c
    (fun e =>
      if !e.p.ready (e.storeNeed c) then e.gather (e.storeNeed c)
      else
        e.withTiles [tileOf c] (
          let r := e.storeRows c
          e.performed (e.s.setTeam e.h r.1) fun p => { p with out := r.2.1, flags := p.flags ||| r.2.2 }))
    fun e => e.s

/-! ## The reducing copy (R264, R441) -/

/-- Sends one element update, once its page translates to a place; a page on the fault path joins the fix-up list, and a line
under flush lets the update wait (R335). -/
def Eng.sendUpdate (e : Eng) (va : Nat) (m : RedMsg) : State :=
  let s := e.s
  let page : Seg := { va := va - va % 4096, len := 4096 }
  if e.x.fixing page true || 16 ≤ e.x.fixups.length then s
  else
    let die := dieOf e.t.core
    let drop := fun (s : State) (d : Nat) => s.modProg e.h e.q fun p => { p with
      reds := p.reds.eraseP fun r => r.1 = va, awaits := p.awaits + 1,
      reached := if p.reached.contains d then p.reached else p.reached ++ [d] }
    let (r, s) := s.resolve e.t.ctx die (s.aperturesOf e.t) va ((fdOf m.fd.toNat).alignWidth) .atomic e.who
    match r with
    | .full => s
    | .wait k => e.fixup s page true k
    | .fault ti => e.accessFault s ti va
    | .refused _ => e.refusedAt s va
    | .ok (.frame pa) n =>
      if s.stalled e.t.core pa n then s.owe e.t.core (.engine e.h e.q)
      else
      let s := (s.noteAccess e.h pa n (ones n) false).noteAccess e.h pa n (ones n) true
      let s := { s with redMsgs := tput s.redMsgs s.nextMsg { m with mdie := homeMdie pa, pa := some pa }, nextMsg := s.nextMsg + 1 }
      drop s 0
    | .ok (.peer p pa hd _) n =>
      if s.stalled e.t.core pa n then s.owe e.t.core (.engine e.h e.q)
      else
      let (kind, neg, mag, exp) := match m.val with
        | .fin n a b => (0, n, a, b)
        | .nan sig => (if sig then 2 else 1, false, 0, 0)
        | .inf n => (3, n, 0, 0)
      let (r, s) := s.sendPeer e.t.ctx p hd die (.engine e.h e.q e.x.headSeq) va
        (.reduce m.region m.seq.toNat m.op pa m.fd kind neg mag exp)
      match r with
      | .ref _ => drop s (8 + p)
      | .wait => s
      | .unreachable r => s.stopQueue e.h e.q 0x40 r p none
    | .ok _ _ => s

/-- A completion marker for every M-die of this package (R441). -/
def State.redMarkers (s : State) (ctx region : Nat) (seq : BitVec 16) (h : Nat) : State :=
  (List.range 8).foldl (fun s d =>
    let m : RedMsg :=
      { mdie := d, ctx := ctx, region := region, seq := seq, h := h, back := none, pa := none, fd := 0, op := 0,
        val := .fin false 0 0 }
    { s with redMsgs := tput s.redMsgs s.nextMsg m, nextMsg := s.nextMsg + 1 }) s

/-- Sends the updates that are left; after the last of them has been applied, replays included, the markers (R441). -/
def Eng.reduceOn (e : Eng) : State :=
  let go := fun (s : State) (f : Eng → State) => match s.eng? e.h e.q with
    | some e => f e
    | none => s
  let s := e.p.reds.foldl (fun s r => go s fun e => e.sendUpdate r.1 r.2) e.s
  go s fun e =>
    if e.p.phase = .performed && e.p.reds.isEmpty && e.x.fixups.isEmpty && e.p.awaits = 0 then
      let c := e.p.cmd
      let region := bits c.w3.toNat 16 32
      let seq := BitVec.ofNat 16 c.w3.toNat
      e.p.reached.foldl (fun s d =>
        let sent := fun (s : State) n => s.modProg e.h e.q fun p => { p with
          reached := p.reached.filter (· ≠ d), awaits := p.awaits + n }
        if d < 8 then
          sent (s.redMarkers e.t.ctx region seq e.h) 0
        else
          let (r, s) := s.sendPeer e.t.ctx (d - 8) 7 (dieOf e.t.core) (.engine e.h e.q e.x.headSeq) 0 (.reduceMark region seq.toNat)
          match r with
          | .ref _ => sent s 1
          | .wait => s
          | .unreachable r => s.stopQueue e.h e.q 0x40 r (d - 8) none) e.s
    else e.s

/-- The updates of `cp.red`, one for every element that R261 would write, each with its address and the flags of its value
(R264). -/
def Eng.updates (e : Eng) (c : Cmd) : List ((Nat × RedMsg) × Nat) :=
  let gv := vget e.p.fds (gfdOf c) 0
  let src := fdOf (e.tileFd (tileOf c)).toNat
  let ten := tensorOf c
  (List.range (e.reach c).1).flatMap fun r => ((e.storedRow c r (e.reach c).2).zipIdx).map fun p =>
    let (v, f) := src.elemValue p.1.1 p.1.2
    let va := canon (ten.addr + r * ten.pitch + p.2 * (fdOf gv.toNat).alignWidth)
    ((va, { mdie := 0, ctx := e.t.ctx, region := bits c.w3.toNat 16 32, seq := BitVec.ofNat 16 c.w3.toNat, h := e.h,
            back := none, pa := none, fd := gv, op := bits c.w3.toNat 48 2, val := v, va := va, cmdSeq := e.x.headSeq }), f)

/-- `cp.red` (R264). -/
def execCpRed (c : Cmd) (s : State) : Out :=
  engineWord s c
    (fun e =>
      e.withTiles [tileOf c] (
        let els := e.updates c
        e.performed e.s fun p => { p with reds := els.map (·.1), flags := p.flags ||| orAll (els.map (·.2)) }))
    Eng.reduceOn

/-! ## Re-encoding (R265, R384, R385) -/

/-- The claim of a command. -/
def State.claimOf (s : State) (b : Claimer) : Option (Nat × Claim) := s.claims.find? fun c => c.2.by_ = b && !c.2.orphan

/-- A new claim. -/
def State.addClaim (s : State) (c : Claim) : State := { s with claims := tput s.claims s.nextMsg c, nextMsg := s.nextMsg + 1 }

/-- `cp.renc` (R265): claims the tile for the team's generation; completes when the claim returns or the re-encoded tile's
tag is written. -/
def execCpRenc (c : Cmd) (s : State) : Out :=
  engineWord s c
    (fun e =>
      match e.s.claimOf (.renc e.h e.q), e.s.rencTile e.t c with
      | none, some (n, i) =>
        e.s.addClaim { by_ := .renc e.h e.q, ctx := e.t.ctx, core := e.t.core, entry := n, tile := i, gen := e.t.gen.toNat }
      | none, none => e.s.stopQueue e.h e.q 0x31 7 (fld c 0 8) none
      | some (k, x), _ =>
        let s := { e.s with claims := tdel e.s.claims k }
        match x.st with
        | .ended _ => e.performed s id
        | .failed code reason refused =>
          if code = 0x04 then s.stopQueue e.h e.q 0x31 7 x.entry none
          else if refused then s.stopQueue e.h e.q 0x34 0 (bits x.va 32 32) none
          else s.stopQueue e.h e.q code reason (bits x.va 12 32) none
        | _ => e.s)
    fun e => e.s

end Sys2Proof.Machine
end

