-- ==== Sys2Proof/Machine/EngineMatrix.lean ====
section
/-! DEFINITION. The matrix commands `mm` and `mm.g` (R249–R254, R131–R135). -/

namespace Sys2Proof.Machine

open Sys2Proof

/-- Exact value and flags of element (i, j) of a tile as an operand reads it, transposed or not (R250, R252). -/
def Eng.element (e : Eng) (n : Nat) (tr : Bool) (i j : Nat) : Val × Nat :=
  let (r, c) := if tr then (j, i) else (i, j)
  (fdOf (e.tileFd n).toNat).valueAt (e.t.tileRow (e.tile n) (e.tileFd n) r) c

/-- The products of step s of an element, in order of k; none beyond K (R131, R252). -/
def stepProducts (k s : Nat) (a b : Nat → Val × Nat) : List (Val × Nat) :=
  ((List.range (min 32 (k - 32 * s))).map (· + 32 * s)).map fun i =>
    let (x, f) := a i
    let (y, g) := b i
    (x.mul y, f ||| g)

/-- The accumulator after every step, in increasing order of steps, with the flags (R133, R134, R252). -/
def accumulate (acci : Bool) (k : Nat) (a b : Nat → Val × Nat) (acc : Nat) : Nat × Nat :=
  (List.range (ceilDiv k 32)).foldl (fun (r : Nat × Nat) s =>
    let ps := stepProducts k s a b
    let (v, f) := if acci then accStepInt r.1 (ps.map (·.1)) else accStep r.1 (ps.map (·.1))
    (v, r.2 ||| f ||| orAll (ps.map (·.2)))) (acc, 0)

/-- One product over some rows of C, row i of C from row i of A (R252, R254): the engine with the team changed, the flags,
and the cell operations. With ZC = 1 every product starts its rows at 0, one whose C an earlier product wrote too
(log entry 79). -/
def Eng.product (e : Eng) (c : Cmd) (p : Nat × Nat × Nat) (rows : List Nat) : Eng × Nat × Nat :=
  let (m, k) := let x := e.tile p.1; if flag c 19 then (x.cols, x.rows) else (x.rows, x.cols)
  let d := e.tile p.2.2
  let dv := e.tileFd p.2.2
  let cells := cellsPerMac (fdOf (e.tileFd p.1).toNat) (fdOf (e.tileFd p.2.1).toNat)
  let (t, fl) := (rows.filter (· < m)).foldl (fun (acc : Team × Nat) i =>
    let old := acc.1.tileRow d dv i
    let cs := (List.range d.cols).map fun j =>
      accumulate (flag c 16) k (e.element p.1 (flag c 19) i) (fun l => e.element p.2.1 (flag c 18) l j)
        (if flag c 17 then 0 else elem 4 old j)
    (acc.1.setTileRow d dv i (ofElems 4 (cs.map (·.1))), acc.2 ||| orAll (cs.map (·.2)))) (e.t, 0)
  ({ e with t := t }, fl, rows.length * d.cols * 32 * ceilDiv k 32 * cells)

/-- The products of a command with the rows of each: every row for `mm`, the rows that the table gives for `mm.g`
(R254). -/
def Eng.productRows (e : Eng) (c : Cmd) : List ((Nat × Nat × Nat) × List Nat) :=
  if c.cmd = 0x21 then
    let table := (e.p.fetched.head?.map (·.data)).getD 0
    (((productsOf c).zipIdx).foldl (fun (acc : List ((Nat × Nat × Nat) × List Nat) × Nat) p =>
      let n := elem 2 table p.2
      (acc.1 ++ [(p.1, (List.range n).map (· + acc.2))], acc.2 + n)) ([], 0)).1
  else (productsOf c).map fun p => (p, List.range (e.tile p.2.2).rows)

/-- The products are performed in order; the command then needs its cell operations (R249, R253). -/
def Eng.multiply (e : Eng) (c : Cmd) : State :=
  let (e', fl, work) := (e.productRows c).foldl (fun (acc : Eng × Nat × Nat) p =>
    let (e, f, w) := acc.1.product c p.1 p.2
    (e, acc.2.1 ||| f, acc.2.2 + w)) (e, 0, 0)
  e.performed (e.s.setTeam e.h e'.t) fun p => { p with flags := p.flags ||| fl, work := work }

/-- In each cycle the banks that have joined do 1,024 cell operations each (R253). -/
def Eng.workOn (e : Eng) : State := e.s.modProg e.h e.q fun p => { p with work := p.work - 1024 * e.t.joined }

def matrixWord (c : Cmd) (s : State) : Out :=
  engineWord s c (fun e => e.withTiles (tileUse c).reads (e.multiply c)) Eng.workOn

/-- `mm` (R249–R253). -/
def execMm (c : Cmd) (s : State) : Out := matrixWord c s

/-- `mm.g` (R254). -/
def execMmG (c : Cmd) (s : State) : Out := matrixWord c s

end Sys2Proof.Machine
end

