-- ==== Sys2Proof/Machine/EngineCollective.lean ====
section
/-! DEFINITION. The collective commands (R266–R271) and their gradient-noise measurement (R374, R375). -/

namespace Sys2Proof.Machine

open Sys2Proof

/-! ## Copies (R270) -/

/-- The copy's effect is performed at its scope: what is to be written, with its tag (R270, R323). -/
def Eng.putOut (e : Eng) (c : Cmd) (len v fl : Nat) : State :=
  e.releaseAt (cmdScope c) fun tag s => e.performed s fun p => { p with
    out := segsOf e.aps (cutSegs c.w2.toNat len v), flags := p.flags ||| fl, tag := tag }

/-- `cl.put`. -/
def execClPut (c : Cmd) (s : State) : Out :=
  engineWord s c
    (fun e =>
      let n := fld c 0 32
      let need := readSegs e.aps [(c.w1.toNat, n)]
      if !e.p.ready need then e.gather need else e.putOut c n (e.p.bytes c.w1.toNat n) 0)
    fun e => e.s

/-- FP32 values as they come over the wire in a format (R268): quantised in blocks, the last padded with +0, and expanded,
or rounded; with the flags. -/
def wire (fd : Option Fd) (xs : List Nat) : List Nat × Nat :=
  match fd with
  | none => (xs, 0)
  | some d =>
    if d.kind = 1 then
      let bs := chunks d.block (ceilDiv xs.length d.block) xs
      let r := bs.map fun b =>
        let vs := (b ++ List.replicate (d.block - b.length) 0).map fmtF32.value
        let q := quantiseBlock d vs none (modesOf false none vs.length)
        let es := (q.elems.take b.length).map fun x => dequantise d x.code q.scale fmtF32
        (es.map (·.1), q.flags ||| orAll (es.map (·.2)))
      (r.flatMap (·.1), orAll (r.map (·.2)))
    else
      let r := xs.map fun x =>
        let (y, f) := d.convert (fmtF32.value x) .rne
        let (z, g) := roundStd fmtF32 .rne ((fmtOfKind d.kind).value y.code)
        (z, f ||| g)
      (r.map (·.1), orAll (r.map (·.2)))

/-- `cl.putq`. -/
def execClPutq (c : Cmd) (s : State) : Out :=
  engineWord s c
    (fun e =>
      let n := fld c 0 32
      let need := readSegs e.aps [(c.w1.toNat, 4 * n)]
      if !e.p.ready need then e.gather need
      else
        let (xs, fl) := wire (some (fdOf c.w3.toNat)) (elems 4 n (e.p.bytes c.w1.toNat (4 * n)))
        e.putOut c (4 * n) (ofElems 4 xs) fl)
    fun e => e.s

/-! ## Reductions (R266–R269, R271) -/

/-- A collective descriptor (R266). -/
structure ClDesc where
  op : Nat
  ranks : Nat
  mine : Nat
  wfd : Option Fd
  stat : Nat
  table : Nat

/-- The descriptor from its 64 bytes, unless it is malformed (R266, R271, R13). -/
def clDescOf (v : Nat) : Option ClDesc :=
  let wq := bits v 24 1
  let wfd := bits v 32 64
  let d := fdOf wfd
  let wok := if wq = 1 then fdUsable wfd && ((d.kind = 1 && d.bs ≠ 0) || d.kind = 3 || d.kind = 4) else wfd = 0
  let stat := bits v 96 16
  let table := bits v 128 64
  if 3 ≤ bits v 0 8 || bits v 8 8 = 0 || bits v 8 8 < bits v 16 8 || bits v 25 7 ≠ 0 || !wok || bits stat 8 7 ≠ 0
      || bits v 112 16 ≠ 0 || bits v 192 320 ≠ 0 || table % 8 ≠ 0 then none
  else some { op := bits v 0 8, ranks := bits v 8 8 + 1, mine := bits v 16 8, wfd := if wq = 1 then some d else none,
              stat := stat, table := table }

/-- A rank entry: the handle, the peer number, whether the team is on this package. -/
structure Rank where
  handle : Nat
  peer : Nat
  here : Bool

def rankOf (v : Nat) : Rank := ⟨bits v 0 32, bits v 32 11, bit v 43⟩

/-- Who sends as this rank: its handle, of a peer's team 2^32 × (1 + peer) more. -/
def Rank.sender (r : Rank) : Nat := if r.here then r.handle else r.handle + 2 ^ 32 * (1 + r.peer)

/-- Whether a rank entry fails (R266, R271): reserved bits, another context, or a handle that names no team (R27). -/
def rankBad (ctx v : Nat) : Bool :=
  let r := rankOf v
  bits v 44 20 ≠ 0 || handleCtx r.handle ≠ ctx || 576 ≤ handleCore r.handle

/-- The tree of R268 over the ranks' values: step by step, rank q takes rank q + step. -/
def treeSteps {α : Type} (f : α → α → α) : Nat → Nat → List α → List α
  | 0, _, v => v
  | fuel + 1, step, v =>
    if v.length ≤ step then v
    else
      treeSteps f fuel (2 * step) ((v.zipIdx).map fun p =>
        if p.2 % (2 * step) = 0 then
          match v[p.2 + step]? with
          | some y => f p.1 y
          | none => p.1
        else p.1)

/-- Combines two ranks' FP32 values element by element, with flags. -/
def combine (op : Nat) (fd : Option Fd) (a b : List Nat × Nat) : List Nat × Nat :=
  let (w, fw) := wire fd b.1
  let r := List.zipWith (fun x y =>
    if op = 0 then fpAdd fmtF32 .rne x y else fpMinMax fmtF32 (op = 2) x y) a.1 w
  (r.map (·.1), a.2 ||| b.2 ||| fw ||| orAll (r.map (·.2)))

/-- The reduction of every rank's values (R268): the result on the wire, and the flags. -/
def reduction (op : Nat) (fd : Option Fd) (vs : List (List Nat)) : List Nat × Nat :=
  let (r, f) := ((treeSteps (combine op fd) 16 1 (vs.map fun v => (v, 0))).head?).getD ([], 0)
  let (w, g) := wire fd r
  (w, f ||| g)

/-- FP32 values rounded into the local descriptor: codes and flags (R268). Every NaN becomes the descriptor's own quiet NaN,
one that `cl.agat` passes on too (log entry 80). -/
def intoLocal (d : Fd) (xs : List Nat) : List Nat × Nat :=
  let r := xs.map fun x => d.convert (fmtF32.value x) .rne
  (r.map fun p => p.1.code, orAll (r.map (·.2)))

/-- A running FP32 sum of squares (R374). -/
def sumSquares (xs : List Nat) : Nat :=
  xs.foldl (fun acc x =>
    let v := fmtF32.value x
    (roundStd fmtF32 .rne ((fmtF32.value acc).add (v.mul v))).1) 0

/-- The measurement b of R374. -/
def noiseOf (vs : List (List Nat)) (result : List Nat) : Nat :=
  let ssq := ((treeSteps (fun a b => (fpAdd fmtF32 .rne a b).1) 16 1 (vs.map sumSquares)).head?).getD 0
  let t := sumSquares result
  let isFin := fun (x : Nat) => match fmtF32.value x with
    | .fin _ _ _ => true
    | _ => false
  if (fmtF32.value t).isZero || !isFin t || !isFin ssq then 2 ^ 32 - 1
  else
    let num := ((Val.ofInt vs.length).mul (fmtF32.value ssq)).add (fmtF32.value t).neg
    let q := (roundStd fmtF32 .rne ((num.div (fmtF32.value t)).1)).1
    match (fmtF32.value q).scale 16 with
    | .fin true _ _ => 0
    | .fin false m e => min (2 ^ 32 - 1) (if 0 ≤ e then shl m e else m >>> (-e).toNat)
    | .inf true => 0
    | _ => 2 ^ 32 - 1

/-- The FP32 value of element i of a row, widened exactly: a signalling NaN stays one (R268). -/
def Fd.widened (d : Fd) (row i : Nat) : Nat :=
  match (d.valueAt row i).1 with
  | .nan true => 0x7F800001
  | v => (roundStd fmtF32 .rne v).1

/-- A team's collective command has started and takes data as they come (R269). -/
def Team.collecting (t : Team) : Bool := t.q2.prog.any fun p => 0x40 ≤ p.cmd.cmd && p.cmd.cmd ≤ 0x42

/-- Sends this rank's values to the ranks that have not been sent them yet. For one whose command has not started they go
into the hold space of its core; while that is full, which the spec gives no size, the sender waits (R269, log entry 80). -/
def Eng.sendRanks (e : Eng) (d : ClDesc) (ranks : List Rank) (bytes : List Byte) (digest : Nat) : State :=
  (ranks.zipIdx).foldl (fun s p =>
    match s.eng? e.h e.q with
    | none => s
    | some e =>
      if p.2 = d.mine || e.p.reached.contains p.2 then s
      else
        let sent := fun (s : State) n => s.modProg e.h e.q fun x => { x with reached := x.reached ++ [p.2], awaits := x.awaits + n }
        if p.1.here then
          let (full, s) := if (s.team? p.1.handle).any Team.collecting then (false, s) else s.choose
          if full then s
          else sent (s.later [.ev (.collectiveDataArrive p.1.handle { rank := d.mine, sender := e.h } bytes digest)]) 0
        else
          let (r, s) := s.sendPeer e.t.ctx p.1.peer 7 (dieOf e.t.core) (.engine e.h e.q e.x.headSeq) 0
            (.collective p.1.handle d.mine e.h bytes digest)
          match r with
          | .ref _ => sent s 1
          | .wait => s
          | .unreachable r => s.stopQueue e.h e.q 0x40 r p.1.peer none) e.s

/-- The values that have come for this team from the team of a rank as that rank, the oldest first (R269). -/
def State.arrived (s : State) (h rank : Nat) (ranks : List Rank) : Option CollData :=
  s.collectives.find? fun x => x.h = h && x.rank = rank && (ranks[rank]?).any fun r => r.sender = x.sender

/-- Takes the data of a collective out of the receiving core's hold space. -/
def State.takeData (s : State) (h : Nat) (ranks : List Rank) (others : List Nat) : State :=
  others.foldl (fun s q =>
    match s.arrived h q ranks with
    | some x => { s with collectives := s.collectives.erase x }
    | none => s) s

/-- Once every rank's values are there: the result of the command at this rank, its bytes and its flags. -/
def ClDesc.collect (c : Cmd) (d : ClDesc) (n : Nat) (lfd : Fd) (vs : List (List Nat)) : List Nat × Nat × List Nat :=
  if c.cmd = 0x42 then
    let r := vs.map (wire d.wfd)
    let all := r.flatMap (·.1)
    let (cs, f) := intoLocal lfd all
    (cs, f ||| orAll (r.map (·.2)), [])
  else
    let (res, f) := reduction d.op d.wfd vs
    let part := if c.cmd = 0x41 then (res.drop (n / d.ranks * d.mine)).take (n / d.ranks) else res
    let (cs, g) := intoLocal lfd part
    (cs, f ||| g, res)

/-- A reduction or gather at its rank (R266–R271). -/
def collectiveWord (c : Cmd) (s : State) : Out :=
  engineWord s c
    (fun e =>
      let n := fld c 0 32
      let lfd := fdOf (vget e.p.fds (fld c 32 4) 0).toNat
      let va := c.w1.toNat
      let src := c.w2.toNat
      let need := readSegs e.aps [(va, 64)]
      if va % 64 ≠ 0 then e.s.stopQueue e.h e.q 0x36 1 0 none
      else if !e.p.ready need then e.gather need
      else
        let v := e.p.bytes va 64
        match clDescOf v with
        | none => e.s.stopQueue e.h e.q 0x36 1 (bits v 16 8) none
        | some d =>
          let need := need ++ readSegs e.aps [(d.table, 8 * d.ranks), (src, lfd.rowBytes n)]
          if c.cmd = 0x41 && n % d.ranks ≠ 0 then e.s.stopQueue e.h e.q 0x36 1 d.mine none
          else if !e.p.ready need then e.gather need
          else
            let tab := e.p.bytes d.table (8 * d.ranks)
            match (elems 8 d.ranks tab).findIdx? (rankBad e.t.ctx) with
            | some i => e.s.stopQueue e.h e.q 0x36 2 i none
            | none =>
              let ranks := (elems 8 d.ranks tab).map rankOf
              let row := e.p.bytes src (lfd.rowBytes n)
              let own := (List.range n).map (lfd.widened row)
              let digest := Config.collectiveDigest
                (toBytes 64 (v - bits v 16 8 * 2 ^ 16) ++ toBytes (8 * d.ranks) tab)
              let s := e.sendRanks d ranks (toBytes (4 * n) (ofElems 4 own)) digest
              let others := (List.range d.ranks).filter (· ≠ d.mine)
              match s.eng? e.h e.q with
              | none => s
              | some e =>
                if !(others.all fun q => (s.arrived e.h q ranks).isSome && e.p.reached.contains q) then s
                else
                  match others.find? fun q => match s.arrived e.h q ranks with
                    | some x => x.digest ≠ digest || x.data.length ≠ 4 * n
                    | none => true with
                  | some q => (s.takeData e.h ranks others).stopQueue e.h e.q 0x36 3 q none
                  | none =>
                    let vs := (List.range d.ranks).map fun q =>
                      match s.arrived e.h q ranks with
                      | some x => if q = d.mine then own else elems 4 n (ofBytes x.data)
                      | none => own
                    let (cs, fl, res) := ClDesc.collect c d n lfd vs
                    let first := (ranks.findIdx? (·.here)).getD 0
                    let noise := if c.cmd = 0x40 && bit d.stat 15 && d.op = 0 && first = d.mine then
                      some (bits d.stat 0 8, noiseOf vs res) else none
                    let w := kindBytes lfd.kind
                    e.performed (s.takeData e.h ranks others) fun p => { p with
                      out := segsOf e.aps (cutSegs c.w3.toNat (w * cs.length) (ofElems w cs)), flags := p.flags ||| fl, noise := noise,
                      reached := [] })
    fun e => e.s

/-- `cl.ared` (R268). -/
def execClAred (c : Cmd) (s : State) : Out := collectiveWord c s

/-- `cl.rsc` (R268). -/
def execClRsc (c : Cmd) (s : State) : Out := collectiveWord c s

/-- `cl.agat` (R268). -/
def execClAgat (c : Cmd) (s : State) : Out := collectiveWord c s

/-- COLLECTIVE_DATA_ARRIVE (R269): a rank's values reach the core of a team and are held until its command uses them; a
retired team's are dropped. -/
def execCollectiveDataArrive (h : Nat) (rank : FromRank) (data : List Byte) (digest : Nat) (s : State) : Out :=
  match s.team? h with
  | some t =>
    -- the data of a peer's rank has come by the fabric (R306, R307)
    let s := if rank.sender < 2 ^ 32 then s
      else (s.addTraffic (dieOf t.core) 7 data.length).modTeam h fun t => t.count 7 data.length
    .next { s with collectives := s.collectives ++ [{ h := h, rank := rank.rank, sender := rank.sender, data := data, digest := digest }] }
  | none => .next s

end Sys2Proof.Machine
end

