-- ==== Sys2Proof/Machine/MapUnit.lean ====
section
/-! DEFINITION. Sextant rungs (R369), claims and re-encoding of memory tiles (R381–R386), fills of granules (R293, R294) and
their write-back (R296). -/

namespace Sys2Proof.Machine

open Sys2Proof

/-! ## Rungs -/

/-- The rung of an entry at a generation (R369). -/
def SxEntry.rungAt (e : SxEntry) (g : Nat) : Option Nat :=
  match e.hists.find? fun x => x.valid && decide (x.gfrom.toNat ≤ g) with
  | some x => some x.rung
  | none => if e.hists.all fun x => x.valid then none else some e.curr

/-- The descriptor of an entry at a generation; an unused entry has none (R369). -/
def SxEntry.fdAt (e : SxEntry) (g : Nat) : Option (BitVec 64) :=
  if e.mode = 0 then none else (e.rungAt g).map fun r => e.rungs.getD r 0

/-- Tiles of an entry that overlap a byte range (R381). -/
def SxEntry.tilesIn (e : SxEntry) (va len : Nat) : List Nat :=
  let b := bits e.rbase 0 56
  let a := bits va 0 56
  if e.mode = 0 || e.rtiles = 0 || a + len ≤ b then []
  else
    let i := (a - b) / e.tsize
    let j := (a + len - 1 - b) / e.tsize
    ((List.range (j + 1 - i)).map (· + i)).filter (· < e.rtiles)

def SxEntry.tileVa (e : SxEntry) (i : Nat) : Nat := canon (e.rbase + i * e.tsize)

/-- The bytes of a memory tile converted from descriptor `a` to `b` (R383). -/
def reencode (a b : Fd) (ne v : Nat) : Nat :=
  let xs := (List.range ne).map fun i => (a.valueAt v i).1
  let bs := (b.convertRow { cv := if b.bs = 0 then 2 else 1, scale := 127, rnd := 0 } xs 0).1
  b.packRow (bs.map (·.2))

/-! ## Frames of a range -/

/-- What translating a range comes to: its frames, a wait for room or under a serial, a fault, raised at once or refused, or a
page that is not local. -/
inductive Frames where
  | ok (l : List (Nat × Nat))
  | full
  | serial (k : Nat)
  | fault (ti : TrapInfo) (va : Nat) (refused : Bool)
  | notLocal

/-- Translates the pages of a range, in order. -/
def State.frames (s : State) (ctx die : Nat) (acc : Acc) (w : Who) : List Seg → Frames × State
  | [] => (.ok [], s)
  | g :: r =>
    let (x, s) := s.resolve ctx die [] g.va g.len acc w
    match x with
    | .ok (.frame pa) n =>
      match s.frames ctx die acc w r with
      | (.ok l, s) => (.ok ((pa, n) :: l), s)
      | y => y
    | .ok _ _ => (.notLocal, s)
    | .fault ti => (.fault ti g.va false, s)
    | .refused ti => (.fault ti g.va true, s)
    | .wait k => (.serial k, s)
    | .full => (.full, s)

/-- The bytes of frames, as a core's observers read them. -/
def State.readFrames (s : State) (core : Nat) (l : List (Nat × Nat)) : Nat :=
  (l.foldl (fun (acc : Nat × Nat) f => (acc.1 + s.readAt core f.1 f.2 * 2 ^ (8 * acc.2), acc.2 + f.2)) (0, 0)).1

/-- Counts the bytes of frames that a team's work reads or writes (R306, R307). -/
def State.noteFrames (s : State) (h : Nat) (write : Bool) (l : List (Nat × Nat)) : State :=
  l.foldl (fun s f => s.noteAccess h f.1 f.2 (ones f.2) write) s

/-! ## Claims -/

def State.setClaim (s : State) (n : Nat) (c : Claim) : State := { s with claims := tput s.claims n c }

def Claim.team (c : Claim) : Nat :=
  match c.by_ with
  | .fill h _ => h
  | .renc h _ => h
  | .back h _ => h

/-- SRC of a claimer on the fault path (R385). -/
def Claim.who (s : State) (c : Claim) : Who :=
  match c.by_ with
  | .renc h q =>
    { src := 2, handle := h, qseq := qseqOf q (((s.team? h).map fun t => (t.queue q).headSeq).getD 0) }
  | .fill h _ => { src := 3, handle := h }
  | .back h _ => { src := 3, handle := h }

def Claim.sx (s : State) (c : Claim) : SxEntry := ((s.ctx? c.ctx).map fun x => x.sx c.entry).getD {}

def Claim.tagVa (s : State) (c : Claim) : Nat := canon ((c.sx s).tagt + 8 * c.tile)

/-- Clears BUSY of a tag that this claim holds: the tag is as the claim found it (R385). -/
def State.releaseBusy (s : State) (c : Claim) : State :=
  if c.st.holdsBusy && !s.partialBad c.tagPa 8 (ones 8) then { s with hbm := Mem.write s.hbm c.tagPa c.tag 8 } else s

/-- The claim has begun to write its tile or its tag: it goes on to its end. -/
def ClaimState.isWriting : ClaimState → Bool
  | .coded _ _ => true
  | .written => true
  | _ => false

/-- The claims of a claimer. -/
def State.claimsBy (s : State) (b : Claimer) : List (Nat × Claim) := s.claims.filter fun c => c.2.by_ = b && !c.2.orphan

def State.dropClaims (s : State) (b : Claimer) : State :=
  { s with claims := s.claims.filter fun c => c.2.by_ ≠ b || c.2.orphan }

/-- A claimer gives up its claims: BUSY is cleared where it had set it, and one that has begun to write goes on by itself. -/
def State.abandonClaims (s : State) (b : Claimer) : State :=
  (s.claimsBy b).foldl (fun s c =>
    if c.2.st.isWriting then s.setClaim c.1 { c.2 with orphan := true }
    else { s.releaseBusy c.2 with claims := tdel s.claims c.1 }) s

def ClaimState.isFailed : ClaimState → Bool
  | .failed _ _ _ => true
  | _ => false

def ClaimState.isEnded : ClaimState → Bool
  | .ended _ => true
  | _ => false

def ClaimState.isBusy : ClaimState → Bool
  | .busy _ => true
  | _ => false

/-- The claim fails (R385). -/
def State.failClaim (s : State) (n : Nat) (c : Claim) (code reason : Nat) (refused : Bool) (va : Nat) : State :=
  (s.releaseBusy c).setClaim n { c with st := .failed code reason refused, serial := none, va := va }

/-- Goes on with the frames of a range, or fails or waits. -/
def State.claimFrames (s : State) (n : Nat) (c : Claim) (va len : Nat) (acc : Acc)
    (k : State → List (Nat × Nat) → State) : State :=
  let (f, s) := s.frames c.ctx (dieOf c.core) acc (c.who s) (segmentsOf va len)
  match f with
  | .ok l => k s l
  | .full => s
  | .serial i => s.setClaim n { c with serial := some i }
  | .fault ti va refused => s.failClaim n c ti.code ti.reason refused va
  | .notLocal => s.failClaim n c 0x04 3 false ((c.sx s).tileVa c.tile)

/-- A page of a tile is mapped and not local (R385). -/
def State.tileAway (s : State) (ctx va len : Nat) : Bool :=
  (segmentsOf va len).any fun g =>
    match s.walk ctx g.va with
    | .leaf _ _ => (s.placeNow ctx g.va).isNone
    | _ => false

/-- TILE_CLAIM (R382, R384): the indivisible operation at the M-die that homes the tag. -/
def execTileClaim (n : Nat) (s : State) : Out :=
  match tget s.claims n with
  | none => .next s
  | some c =>
    if c.st ≠ .start || c.serial.isSome then .next s
    else
      let e := c.sx s
      let tile := e.tileVa c.tile
      .next (s.claimFrames n c (c.tagVa s) 8 .atomic fun s l =>
        let pa := (l.head?.map (·.1)).getD 0
        let tag := Mem.readN s.hbm pa 8
        let tgen := bits tag 0 32
        let s := s.noteFrames c.team false l
        let back := match c.by_ with
          | .back _ _ => true
          | _ => false
        -- an atomic: after its core's writes to the tag, and outside a flush of its line (R213, R335)
        if s.stalled c.core pa 8 then s.owe c.core (.claim n)
        else if s.pathTouches c.core pa 8 then s
        else if s.lineBad pa 8 then s.failClaim n c 0x22 0 false (c.tagVa s)
        else if bits tag 32 8 ≠ c.entry || bits tag 51 13 ≠ 0 || s.tileAway c.ctx tile e.tsize then
          s.failClaim n c 0x04 3 false tile
        else if bit tag 40 then s.setClaim n { c with st := .waiting }
        else if !back && (tgen = 0 || c.gen ≤ tgen) then
          (s.acquireTag c.core pa 8).setClaim n { c with st := .ended tgen }
        else if !back && ((e.fdAt tgen).isNone || (e.fdAt c.gen).isNone) then s.failClaim n c 0x04 3 false tile
        else
          ({ s with hbm := Mem.write s.hbm pa (bits tag 0 40 + 2 ^ 40 + c.core * 2 ^ 41) 8 }.noteFrames c.team true l).setClaim n
            { c with st := .busy tgen, tag := tag, tagPa := pa })

/-- CLAIM_RESTART (R382): BUSY of the tag has been cleared, and the waiting claim starts again. -/
def execClaimRestart (n : Nat) (s : State) : Out :=
  match tget s.claims n with
  | none => .next s
  | some c =>
    if c.st ≠ .waiting then .next s
    else
      let (x, s) := s.translate c.ctx (dieOf c.core) (c.tagVa s) 8 .read
      match x with
      | .frame pa => .next (if bit (Mem.readN s.hbm pa 8) 40 then s else s.setClaim n { c with st := .start })
      | _ => .next (s.setClaim n { c with st := .start })

/-- The M-die of an address may apply what a claim writes there (R323). -/
def State.claimReady (s : State) (c : Claim) (pa : Nat) : Bool :=
  c.mark.all fun x => tagReady (s.appliedAt (homeMdie pa)) x.1 x.2 false

/-- Writes the new tag, CORE as the claim set it, as a release at package scope, and ends the claim (R382, R323, R471). -/
def State.writeTileTag (s : State) (n : Nat) (c : Claim) : State :=
  let pa := c.tagPa
  if s.partialBad pa 8 (ones 8) then s.failClaim n c 0x22 0 false (c.tagVa s)
  else if s.stalled c.core pa 8 then s.owe c.core (.claim n)
  else if !s.claimReady c pa then s
  else
    let s := s.noteFrames c.team true [(pa, 8)]
    let tag := c.gen % 2 ^ 32 + c.entry * 2 ^ 32 + c.core * 2 ^ 41
    let s := ({ s with hbm := Mem.write s.hbm pa tag 8 } : State).noteTag pa 8 (c.mark.map (·.2))
    if c.orphan then { s with claims := tdel s.claims n } else s.setClaim n { c with st := .ended c.gen, mark := none }

/-- The pieces of a tile's frames that lie in one line each: frame address, first byte and length. -/
def linePieces (l : List (Nat × Nat)) : List (Nat × Nat × Nat) :=
  (l.foldl (fun (acc : List (Nat × Nat × Nat) × Nat) f =>
    (acc.1 ++ (linesOf f.1 f.2).map fun i =>
      let lo := max f.1 (128 * i)
      (lo, acc.2 + (lo - f.1), min (f.1 + f.2) (128 * i + 128) - lo), acc.2 + f.2)) ([], 0)).1

/-- Writes a piece of a converted tile with its tag. -/
def State.writePiece (s : State) (c : Claim) (v : Nat) (p : Nat × Nat × Nat) : State :=
  let s := s.noteAccess c.team p.1 p.2.2 (ones p.2.2) true
  let s : State := { s with hbm := Mem.write s.hbm p.1 (bits v (8 * p.2.1) (8 * p.2.2)) p.2.2 }
  (s.clearErrors p.1 p.2.2).noteTag p.1 p.2.2 (c.mark.map (·.2))

/-- The claimer writes the converted bytes line by line, those of lines under flush later (R335); then the tag is due. -/
def State.writeCoded (s : State) (n : Nat) (c : Claim) (v : Nat) (left : List (Nat × Nat × Nat)) : State :=
  let (s, rest) := left.foldl (fun (acc : State × List (Nat × Nat × Nat)) p =>
    if acc.1.stalled c.core p.1 p.2.2 then (acc.1.owe c.core (.claim n), acc.2 ++ [p])
    else if !acc.1.claimReady c p.1 then (acc.1, acc.2 ++ [p])
    else (acc.1.writePiece c v p, acc.2)) (s, [])
  s.setClaim n { c with st := if rest.isEmpty then .written else .coded v rest }

/-- The conversion of a claimed tile: its bytes read, and its pages and its tag's found for the writes, which carry the tag of the
release that ends the claim (R323, R382, R383). -/
def State.convertClaim (s : State) (n : Nat) (c : Claim) (a b : BitVec 64) : State :=
  let e := c.sx s
  let va := e.tileVa c.tile
  s.claimFrames n c va e.tsize .read fun s src =>
    if src.any fun f => s.lineBad f.1 f.2 then s.failClaim n c 0x22 0 false va
    else
      s.claimFrames n c va e.tsize .write fun s dst =>
        s.claimFrames n c (c.tagVa s) 8 .write fun s tags =>
          let pa := (tags.head?.map (·.1)).getD c.tagPa
          let bad := (dst.any fun f => s.partialBad f.1 f.2 (ones f.2)) || s.partialBad pa 8 (ones 8)
          if bad then s.failClaim n c 0x22 0 false va
          -- after the core's own writes to the tile (R213)
          else if !s.leadOk (dieOf c.core) || dst.any fun f => s.pathTouches c.core f.1 f.2 then s
          else
            let s := s.noteFrames c.team false src
            let v := reencode (fdOf a.toNat) (fdOf b.toNat) e.ne (s.readFrames c.core src)
            let (tag, s) := s.newTag c.core
            let c := { c with mark := some (dieOf c.core, tag), tagPa := pa }
            (s.writeCoded n c v (linePieces dst)).modTeam c.team fun t => t.count 10 1

/-- REENCODE_TAG_WRITE (R382, R383): the claimer converts the tile and writes its bytes, then the tag; a write-back, whose
bytes are written, writes the tag. -/
def execReencodeTagWrite (n : Nat) (s : State) : Out :=
  match tget s.claims n with
  | none => .next s
  | some c =>
    if c.serial.isSome then .next s
    else
      match c.st, c.by_ with
      | .written, _ => .next (s.writeTileTag n c)
      | .coded v left, _ => .next (s.writeCoded n c v left)
      | .busy _, .back _ _ => .next s
      | .busy tgen, _ =>
        match (c.sx s).fdAt tgen, (c.sx s).fdAt c.gen with
        | some a, some b => .next (s.convertClaim n c a b)
        | _, _ => .next (s.failClaim n c 0x04 3 false ((c.sx s).tileVa c.tile))
      | _, _ => .next s

/-! ## Fills -/

/-- The address that a granule of a mapped region is filled from (R293). -/
def MapEntry.granuleVa (m : MapEntry) (g : Nat) : Nat := canon (m.va + (g - m.spg0) * 4096)

/-- A fault of an access by its source at an engine queue (R385, R394); a fabric fault names the peer (R435). -/
def State.fillStopsQueue (s : State) (h q : Nat) (ti : TrapInfo) (entry : Nat) (refused : Bool) (va peer : Nat) : State :=
  if ti.code = 0x04 then s.stopQueue h q 0x31 7 entry none
  else if refused then s.stopQueue h q 0x34 0 (bits va 32 32) none
  else s.stopQueue h q ti.code ti.reason (if 0x40 ≤ ti.code then peer else bits va 12 32) none

/-- A fill fails: it ends, the granule stays not present, and each access that waits for it takes the failure (R385). -/
def State.failFill (s : State) (h g code reason : Nat) (refused : Bool) (entry va : Nat) (peer : Nat := 0) :
    State :=
  match s.team? h with
  | none => s
  | some t =>
    let ti : TrapInfo := { code := code, reason := reason, info := BitVec.ofNat 64 va }
    let waits := fun (q : Req) =>
      let d := deedOf q.word
      let mine := match q.st with
        | .message _ => q.handle = h
        | _ => q.h = h && q.atBank
      mine && t.missing q.ea d.width (d.touchMask q.mask) = some g
    let rs := s.reqs.filter fun p => waits p.2
    let s := (s.abandonClaims (.fill h g))
    let s := s.setTeam h { t with fills := t.fills.filter fun f => f.granule ≠ g }
    let s := rs.foldl (fun s p =>
      match p.2.st with
      | .message _ => s.setReq p.1 { p.2 with st := .failed ti }
      | _ => s.replyFault p.1 p.2 ti) s
    let s := (List.range 3).foldl (fun s q =>
      if (t.queue q).wantsFill = some g && !(t.queue q).stopped then s.fillStopsQueue h q ti entry refused va peer else s) s
    (List.range 5).foldl (fun s k => if (t.strand k).wait = .granule g then s.trapHere h k ti else s) s

/-- Changes a fill in progress. -/
def State.modFill (s : State) (h g : Nat) (f : Fill → Fill) : State :=
  s.modTeam h fun t => { t with fills := t.fills.map fun x => if x.granule = g then f x else x }

/-- The bytes of a newer tile in the granule, converted to the team's generation on the way in (R293, R384). -/
def convertIn (e : SxEntry) (tgen gen va i : Nat) (tile granule : Nat) : Nat :=
  match e.fdAt tgen, e.fdAt gen with
  | some a, some b =>
    let v := reencode (fdOf a.toNat) (fdOf b.toNat) e.ne tile
    let base := bits e.rbase 0 56 + i * e.tsize
    overlay granule (bits va 0 56) 4096 base e.tsize v (ones e.tsize)
  | _, _ => granule

/-- The newer tiles of a fill, their bytes read; k goes on with the granule's bytes. -/
def State.newerTiles (s : State) (h g va : Nat) (e : SxEntry) (t : Team) : List (Nat × Claim) → Nat →
    (State → Nat → State) → State
  | [], v, k => k s v
  | (_, c) :: r, v, k =>
    match c.st with
    | .ended tgen =>
      if tgen ≤ c.gen then s.newerTiles h g va e t r v k
      else if (e.fdAt tgen).isNone || (e.fdAt c.gen).isNone then s.failFill h g 0x04 3 false c.entry (e.tileVa c.tile)
      else
        let (f, s) := s.frames t.ctx (dieOf t.core) .read { src := 3, handle := h } (segmentsOf (e.tileVa c.tile) e.tsize)
        match f with
        | .ok l =>
          if l.any fun f => s.lineBad f.1 f.2 then s.failFill h g 0x22 0 false c.entry (e.tileVa c.tile)
          else
            (s.noteFrames h false l).newerTiles h g va e t r (convertIn e tgen c.gen va c.tile (s.readFrames t.core l) v) k
        | .full => s
        | .serial i => s.modFill h g fun x => { x with serial := some i }
        | .fault ti va refused => s.failFill h g ti.code ti.reason refused c.entry va
        | .notLocal => s.failFill h g 0x04 3 false c.entry (e.tileVa c.tile)
    | _ => s.newerTiles h g va e t r v k

/-- The granule receives its bytes: every full/empty bit full, present, no longer filling (R293). -/
def State.landFill (s : State) (h g v : Nat) : State :=
  let s := s.dropClaims (.fill h g)
  s.modTeam h fun t =>
    let t := { t with sp := Mem.write t.sp (4096 * g) v 4096 }.setFull (512 * g) 512 true
    { t with present := t.present ++ [g], fills := t.fills.filter fun f => f.granule ≠ g }.count 9 1

/-- Claims every tile of the entry in the granule, then goes on once every claim has ended. -/
def State.claimTiles (s : State) (h g : Nat) (t : Team) (m : MapEntry) (va : Nat) (k : State → State) : State :=
  if !m.tagged then k s
  else
    let e := ((s.ctx? t.ctx).map fun c => c.sx m.sxe).getD {}
    let cs := s.claimsBy (.fill h g)
    let tiles := e.tilesIn va 4096
    let new := tiles.filter fun i => !cs.any fun c => c.2.tile = i
    if !new.isEmpty then
      new.foldl (fun s i => s.addClaim
        { by_ := .fill h g, ctx := t.ctx, core := t.core, entry := m.sxe, tile := i, gen := t.gen.toNat }) s
    else
      match cs.findSome? fun c => match c.2.st with
        | .failed code reason refused => some (code, reason, refused, c.2.va)
        | _ => none with
      | some (code, reason, refused, va) => s.failFill h g code reason refused m.sxe va
      | none => if cs.all fun c => c.2.st.isEnded then k s else s

/-- GRANULE_FILL_DONE (R293, R384): the fill of a granule goes on: translation, the claims of tagged tiles, the copy. -/
def execGranuleFillDone (h g : Nat) (s : State) : Out :=
  match (s.team? h).bind fun t => (t.fills.find? fun f => f.granule = g).bind fun f => (t.mapOf g).map fun m => (t, f, m) with
  | none => .next s
  | some (t, f, m) =>
    let va := m.granuleVa g
    let die := dieOf t.core
    let copy := fun (s : State) (v : Nat) =>
      let e := ((s.ctx? t.ctx).map fun c => c.sx m.sxe).getD {}
      if m.tagged then s.newerTiles h g va e t (s.claimsBy (.fill h g)) v fun s v => s.landFill h g v else s.landFill h g v
    if f.serial.isSome then .next s
    else
      match f.got with
      | some v => .next (copy s v)
      | none =>
        let (r, s) := s.resolve t.ctx die [] va 4096 .read { src := 3, handle := h }
        match r with
        | .full => .next s
        | .wait k => .next (s.modFill h g fun x => { x with serial := some k })
        | .fault ti => .next (s.failFill h g ti.code ti.reason false m.sxe va)
        | .refused ti => .next (s.failFill h g ti.code ti.reason true m.sxe va)
        | .ok (.frame pa) _ =>
          .next (s.claimTiles h g t m va fun s =>
            if s.lineBad pa 4096 then s.failFill h g 0x22 0 false m.sxe va
            else copy (s.noteAccess h pa 4096 (ones 4096) false) (s.readAt t.core pa 4096))
        | .ok (.peer p pa hd ro) _ =>
          if f.asked.isSome then .next s
          else
            .next (s.claimTiles h g t m va fun s =>
              let (r, s) := s.sendPeer t.ctx p hd die (.fill h g) va (.read pa 4096 ro)
              match r with
              | .ref k => s.modFill h g fun x => { x with asked := some k }
              | .wait => s
              | .unreachable r => s.failFill h g 0x40 r false m.sxe va p)
        | .ok _ _ => .next (s.claimTiles h g t m va fun s => copy s 0)

/-! ## Write-back (R296) -/

/-- Granules to be written back, those not counted whose write-back has failed. -/
def Team.toWriteBack (t : Team) : List Nat :=
  t.dirty.filter fun g => !t.wbFailed.contains g && match t.mapOf g with
    | some m => m.wbk
    | none => false

/-- The claims of granules whose write-back has failed are given up. -/
def State.cleanBack (s : State) (h : Nat) : State :=
  match s.team? h with
  | some t => t.wbFailed.foldl (fun s g => s.abandonClaims (.back h g)) s
  | none => s

/-- The write-back of the first granule left fails: its claims are given up. -/
def State.failWriteBack (s : State) (h g : Nat) : State := (s.abandonClaims (.back h g)).modTeam h Team.failBack

/-- The bytes of a write-back's granule are performed: the tags are written, and once they are the granule is done. -/
def State.finishBack (s : State) (h g : Nat) (cs : List (Nat × Claim)) : State :=
  if cs.all fun c => c.2.st.isEnded then
    (s.dropClaims (.back h g)).modTeam h fun t => { t with wbLeft := t.wbLeft.drop 1, wbPosted := false }
  else if cs.any fun c => c.2.st.isFailed then s.failWriteBack h g
  else cs.foldl (fun s c => if c.2.st.isBusy then s.setClaim c.1 { c.2 with st := .written } else s) s

/-- Finds the places of the tags that claims are to write, or waits or fails. -/
def State.placeTags (s : State) (k : State → State) : List (Nat × Claim) → State
  | [] => k s
  | (n, c) :: r =>
    if c.serial.isSome then s
    else
      s.claimFrames n c (c.tagVa s) 8 .write fun s l =>
        (s.setClaim n { c with tagPa := (l.head?.map (·.1)).getD c.tagPa }).placeTags k r

/-- The claims of a write-back carry the tag of the release that their tags' writes are (R323, R384). -/
def State.markClaims (s : State) (b : Claimer) (core : Nat) : Option (Nat × Vector (BitVec 16) 4) × State :=
  if (s.claimsBy b).isEmpty then (none, s)
  else
    let (tag, s) := s.newTag core
    let m := some (dieOf core, tag)
    (m, (s.claimsBy b).foldl (fun s c => s.setClaim c.1 { c.2 with mark := m }) s)

/-- One step of the write-back of team h's first granule left: translation, the claims of its tiles, the bytes into the
core's path, and once they are performed the tags. -/
def State.writeBackStep (s : State) (h : Nat) : State :=
  let s := s.cleanBack h
  match (s.team? h).bind fun t => t.wbLeft.head?.bind fun g => (t.mapOf g).map fun m => (t, g, m) with
  | none => s
  | some (t, g, m) =>
    let va := m.granuleVa g
    let cs := s.claimsBy (.back h g)
    if t.wbSerial.isSome then s
    else if t.wbPosted then
      if (s.core t.core).path.any fun e => e.h = h && e.k = 8 then s else s.finishBack h g cs
    else
      let e := ((s.ctx? t.ctx).map fun c => c.sx m.sxe).getD {}
      let tiles := if m.tagged then e.tilesIn va 4096 else []
      let new := tiles.filter fun i => !cs.any fun c => c.2.tile = i
      let w : Writer := { h := h, k := 8, ctx := t.ctx, core := t.core, aps := [], src := 3 }
      let (x, s) := s.resolve t.ctx (dieOf t.core) [] va 4096 .write { src := 3, handle := h }
      match x with
      | .full => s
      | .wait k => s.modTeam h fun t => { t with wbSerial := some k }
      | .fault _ => s.failWriteBack h g
      | .refused _ => s.failWriteBack h g
      | .ok loc _ =>
        if !new.isEmpty then
          new.foldl (fun s i => s.addClaim
            { by_ := .back h g, ctx := t.ctx, core := t.core, entry := m.sxe, tile := i, gen := t.gen.toNat }) s
        else if cs.any fun c => c.2.st.isFailed then s.failWriteBack h g
        else if cs.all fun c => c.2.st.isBusy then
          s.placeTags (fun s =>
            if s.pieceStalled t.core { va := va, off := 0, len := 4096, loc := loc } then s.owe t.core (.back h)
            else if !cs.isEmpty && !s.leadOk (dieOf t.core) then s
            else
              let (tag, s) := s.markClaims (.back h g) t.core
              match s.post { w with tag := tag } va 4096 (t.readWindow .sp (4096 * g) 4096) (ones 4096) true with
              -- a store that comes later makes the granule dirty again
              | .ok s => s.modTeam h fun t => { t with wbPosted := true, dirty := t.dirty.filter fun x => x ≠ g }
              | .hold s => s
              | .halted s k => s.modTeam h fun t => { t with wbSerial := some k }
              | .fault s _ => s.failWriteBack h g) cs
        else s

end Sys2Proof.Machine
end

