-- ==== Sys2Proof/Machine/StrandEvents.lean ====
section
/-! DEFINITION. The events of strands: results that land (R73, R76, R156), local stores performed (R208, R298), waits and
holds that end (R153–R155, R229, R233), events delivered (R168), the passing of slot clusters (R356, R357), and drowsy
granules (R42). -/

namespace Sys2Proof.Machine

open Sys2Proof

/-! ## Landing and exit -/

/-- The contents of the load queues are discarded (R156): locks end, and no `fetch` goes on; one that the access stream
waits for, or that it holds for a fill, is over. -/
def State.discardLoads (s : State) (h : Nat) : State :=
  match s.team? h with
  | none => s
  | some t =>
    let lines := t.lqs.toList.flatMap fun l => l.flatMap fun (e : LqEntry) => e.lines
    let s := if lines.isEmpty then s else s.modCore t.core fun c => c.unlock lines
    let mine := fun (e : Nat × Req) => e.2.h = h && e.2.k = 4 && isFetch e.2.word
    let waits := (s.reqs.any fun e => mine e && t.strands.acc.awaits e.1) ||
      (match t.strands.acc.wait with
       | .granule _ => true
       | _ => false)
    let s := { s with reqs := s.reqs.filter fun e => !mine e }
    let t := if waits then t.setStrand 4 { t.strands.acc with wait := .none } else t
    s.setTeam h { t with lqs := Vector.replicate 4 [] }

/-- The team's last strand has stopped being live: its slot is freed, the load queues are emptied, each queue with room takes
its final `notify` (R68, R156, R273), and an event still posted halts the team (R278). -/
def State.strandsOver (s : State) (h : Nat) : State :=
  match s.team? h with
  | none => s
  | some t =>
    let t := t.takeFinals
    let t := match t.place with
      | .slot _ => { t with place := .tail }
      | _ => t
    let s := (s.setTeam h t).discardLoads h
    match t.events with
    | e :: _ => s.postEvent h e.trap e.queue
    | [] => s

/-- An exiting stream whose results have landed stops: a strand stops being live (R76); the access stream stops when its
own words have completed (R157). -/
def State.stopExited (s : State) (h k : Nat) : State :=
  match s.team? h with
  | none => s
  | some t =>
    let x := t.strand k
    if !x.exiting || !x.flights.isEmpty then s
    else if k < 4 then
      if !x.live then s
      else
        let t := t.setStrand k { x with live := false, exiting := false, wait := .none }
        let s := s.setTeam h t
        if t.liveStrands.isEmpty then s.strandsOver h else s
    else if s.reqs.any fun e => e.2.h = h && e.2.k = 4 then s
    else s.setTeam h { t with accStopped := true }

/-- RESULT_LANDS (R73, R74, R76): the results of a stream due at its strand time are written, and an exiting stream whose
results have all landed stops. -/
def execResultLands (h k : Nat) (s : State) : Out :=
  match s.team? h with
  | none => .next s
  | some t => .next ((s.setTeam h (s.landDue t k)).stopExited h k)

/-- LOCAL_STORE_PERFORM (R208, R297): the local stores due are performed in the buffer, and the local loads due read it; a
release that a store performs is logged (R332). -/
def execLocalStorePerform (h k : Nat) (s : State) : Out := .next ((s.modTeam h fun t => t.performLocal k).logPerformed h)

/-! ## Items and their owners (R354) -/

/-- The number of items of a task (R354). -/
def Task.total (t : Task) : Nat := t.extents.foldl (· * ·) 1

/-- The slice of items of the core of rank r of C. -/
def sliceOf (total c r : Nat) : Nat × Nat := (r * total / c, (r + 1) * total / c)

/-- The items of a task that a core owns: first and one past the last. -/
def Launch.itemsOf (l : Launch) (t : Task) (core : Nat) : Nat × Nat :=
  match l.cores.findIdx? (· = core) with
  | some r => sliceOf t.total l.cores.length r
  | none => (0, 0)

/-! ## Barriers (R233) -/

/-- What an arrival waits for as a release fence is performed (R233, R318). -/
def State.arrivalDone (s : State) (t : Team) (a : Arrival) : Bool :=
  s.setClear t.core t.handle a.k a.upto a.acq && (t.strand a.k).spills.all fun e => decide (a.stores < e.perform)

/-- The arrivals of a team at barrier b that count: those made, less those whose release is not complete (R233). -/
def State.arrivals (s : State) (t : Team) (b : Nat) : BitVec 16 :=
  vget t.bars b 0 - BitVec.ofNat 16 (t.arriving.filter fun a => a.b = b && !s.arrivalDone t a).length

/-- Whether the team of item i of the issuing team's task has made its arrival at a phase of barrier b; a retired team
counts as arrived. -/
def State.itemArrived (s : State) (t : Team) (tk : Task) (b : Nat) (phase : BitVec 16) (i : Nat) : Bool :=
  tk.retired.contains i ||
    s.teams.any fun e => e.2.launch = t.launch && e.2.task = t.task && e.2.item = i && atLeast (s.arrivals e.2 b) phase

/-- Whether a phase of barrier b at a scope is complete for a team. -/
def State.phaseComplete (s : State) (t : Team) (b scope : Nat) (phase : BitVec 16) : Bool :=
  scope = 0 ||
    match s.launchOf t with
    | none => true
    | some l =>
      match l.tasks[t.task]? with
      | none => true
      | some tk => (l.cores.filter fun c => s.scopeHas t scope c).all fun c =>
          let (a, z) := l.itemsOf tk c
          (List.range (z - a)).all fun i => s.itemArrived t tk b phase (a + i)

/-! ## Conditions -/

/-- The earlier accesses of a stream are performed at the scope of its fence (R229, R322): its local stores, and the writes
numbered below `upto`: at core scope its own, at a wider one those too that happen before it. -/
def State.fencePassed (s : State) (t : Team) (k scope upto : Nat) : Bool :=
  upto = 0 ||
    ((t.strand k).spills.isEmpty &&
      (if 2 ≤ scope then s.setClear t.core t.handle k upto (t.strand k).acqUpto
       else (s.core t.core).path.all fun e =>
         upto ≤ e.num || e.h ≠ t.handle || e.k ≠ k ||
           (match e.target with
            | .home _ => true
            | _ => false)))

/-- Every entry pushed to store queue q up to number `last` has been drained and its write performed at core scope (R220). -/
def State.drainPassed (s : State) (t : Team) (q last : Nat) : Bool :=
  ((vget t.sqs q []).all fun e => last < e.num)
    && ((s.core t.core).path.all fun e =>
      e.h ≠ t.handle || !(e.drainOf.any fun d => d.1 = q && decide (d.2 ≤ last)) ||
        (match e.target with
         | .home _ => true
         | _ => false))
    && !s.reqs.any fun e => e.2.h = t.handle && e.2.k = 4 && isDrain e.2.word && e.2.cmp = q && e.2.place ≤ last

/-- Whether the condition that stream k holds on holds now (R154, R155). -/
def State.headOk (s : State) (t : Team) (k : Nat) : Bool :=
  match (t.strand k).wait with
  | .none => true
  | .sig n => decide (0 < t.available n)
  | .tile n => (t.tile? n).any fun x => x.was = .ready
  | .queue q seq => decide ((t.queue q).uncompleted seq = 0)
  | .mer a => decide (a.toNat ≤ s.meridian)
  | .yield => true
  | .reply n => (s.req? n).any fun q => match q.st with
      | .failed _ => !t.resident
      | _ => false
  | .answered _ => true
  | .fence scope upto => s.fencePassed t k scope upto
  | .drained q last => s.drainPassed t q last
  | .barrier b scope phase => s.phaseComplete t b scope phase
  | .popEmpty q n => decide (n ≤ filled (vget t.lqs q [])) || t.accStopped
  | .pushFull q => decide ((vget t.sqs q []).length < 16)
  | .fe off n full => (4 ≤ k && t.drainOnly) || (List.range n).all fun i => t.isFull (off / 8 + i) = full
  | .granule g => t.present.contains g || (t.mapOf g).isNone
  | .queueRoom q => (t.queue q).room
  | .sync => t.liveStrands.all fun j => (t.strand j).wait = .sync
  | .fetch _ => false

/-- A wait of R152. -/
def Wait.isWait : Wait → Bool
  | .sig _ => true
  | .tile _ => true
  | .queue _ _ => true
  | .mer _ => true
  | .yield => true
  | _ => false

/-- An ordering condition of a block-ending form (R209). -/
def Wait.isOrdering : Wait → Bool
  | .fence _ _ => true
  | .drained _ _ => true
  | .answered _ => true
  | _ => false

/-- A hold that ends a block or waits for a fill (R31, R57, R218, R294). -/
def Wait.isHold : Wait → Bool
  | .popEmpty _ _ => true
  | .pushFull _ => true
  | .fe _ _ _ => true
  | .granule _ => true
  | .queueRoom _ => true
  | _ => false

/-- A wait whose end is an acquire: what it waited for happens before the strand's next word (R319). -/
def Wait.acquires : Wait → Bool
  | .sig _ => true
  | .tile _ => true
  | .queue _ _ => true
  | .fence _ _ => true
  | .drained _ _ => true
  | .barrier _ _ _ => true
  | _ => false

/-- The condition of stream k is met: the strand may present its next word. -/
def Team.unwait (t : Team) (k : Nat) : Team := t.setStrand k { t.strand k with wait := .none }

/-- The end of a wait of strand k of a team. -/
def State.endWait (s : State) (h k : Nat) (t : Team) : State :=
  let s := s.setTeam h (t.unwait k)
  if (t.strand k).wait.acquires then s.acquires h k else s

/-! ## Posted events (R168) -/

/-- A wait in which an event is taken at once: one of R152, or a fence (R464). -/
def Wait.takesEvent (w : Wait) : Bool :=
  w.isWait ||
    (match w with
     | .fence _ _ => true
     | _ => false)

/-- The address of a wait word, or of the word about to issue. -/
def Strand.eventPc (x : Strand) : BitVec 64 := if x.wait.takesEvent then (x.pc - 8) &&& 0x00FFFFFFFFFFFFFF else x.pc

/-- The lowest-numbered live strand whose INH is 0. -/
def Team.eventStrand (t : Team) : Option Nat := t.liveStrands.find? fun k => !(t.strand k).inh

/-- The oldest posted event is delivered to strand k. -/
def State.deliver (s : State) (h k : Nat) (e : AsyncEvent) : State :=
  match s.team? h with
  | none => s
  | some t =>
    ({ s with teams := tput s.teams h { t with events := t.events.drop 1 } }).takeTrap h k e.trap (t.strand k).eventPc

/-- A strand takes an event in its present wait: any wait of R152, a fence's (R464), or the hold for room in a queue that has
stopped (R239). -/
def Team.takesNow (t : Team) (k : Nat) : Bool :=
  let w := (t.strand k).wait
  w.takesEvent ||
    (match w with
     | .queueRoom q => (t.queue q).stopped
     | _ => false)

/-- The posted event that strand k takes at once. -/
def Team.eventNow (t : Team) (k : Nat) : Option AsyncEvent :=
  if t.eventStrand = some k && t.resident && !t.halted && !(t.strand k).exiting && t.takesNow k then t.events.head? else none

/-- WAIT_CONDITION_MET (R153, R154, R209): a wait of strand k, or an ordering condition it waits on, holds; `wait.sig`
consumes one unit. An event posted before it held is taken at the wait word (R168, R464). -/
def execWaitConditionMet (h k : Nat) (s : State) : Out :=
  match s.team? h with
  | none => .next s
  | some t =>
    let w := (t.strand k).wait
    match t.eventNow k with
    | some e => .next (s.deliver h k e)
    | none =>
    if t.resident && (w.isWait || w.isOrdering) && s.headOk t k then
      match w with
      | .sig n => .next (s.endWait h k (t.slotChange (.dec n)))
      | _ => .next (s.endWait h k t)
    else .next s

/-- HEAD_CONDITION_MET (R155): the condition that strand k holds on has come to hold; its word is presented again. -/
def execHeadConditionMet (h k : Nat) (s : State) : Out :=
  match s.team? h with
  | none => .next s
  | some t =>
    if t.resident && (t.strand k).wait.isHold && s.headOk t k then .next (s.setTeam h (t.unwait k)) else .next s

/-- BARRIER_PHASE_COMPLETE (R233): the strands of a team that wait for a complete phase of barrier b go on. -/
def execBarrierPhaseComplete (h b : Nat) (s : State) : Out :=
  match s.team? h with
  | none => .next s
  | some t =>
    let done := (List.range 4).filter fun k =>
      match (t.strand k).wait with
      | .barrier n _ _ => t.resident && n = b && s.headOk t k
      | _ => false
    .next (done.foldl (fun s k => s.modTeam h (·.unwait k) |>.acquires h k) s)

/-! ## Asynchronous events -/

/-- ASYNC_EVENT_DELIVERY (R168): the oldest posted event is delivered to the lowest-numbered live strand whose INH is 0
when that strand is in a wait; a strand that issues takes it at its next word. -/
def execAsyncEventDelivery (h : Nat) (s : State) : Out :=
  match s.team? h with
  | none => .next s
  | some t =>
    match t.eventStrand.bind fun k => (t.eventNow k).map fun e => (k, e) with
    | some (k, e) => .next (s.deliver h k e)
    | none => .next s

/-! ## Slot clusters (R356, R357) -/

/-- The team may issue: it stands in a slot and is neither halted, nor leaving, nor stopped for the debugger. -/
def Team.runs (t : Team) : Bool := t.slot?.isSome && !t.halted && !t.saving && !t.dbg

/-- Every live strand presents a word with S = 1 (R357). -/
def Team.syncReady (t : Team) : Bool :=
  !t.liveStrands.isEmpty && t.liveStrands.all fun j => (t.strand j).wait = .sync && !(t.strand j).exiting

/-- Strand k of a team is eligible for its cluster (R356): a member of a complete sync group is while its core's clusters pass
to that group (R357). -/
def State.eligible (s : State) (t : Team) (k : Nat) : Bool :=
  let x := t.strand k
  t.runs && x.live && !x.exiting && !x.stopped &&
    (x.wait = .none || (x.wait = .sync && t.syncReady && (s.core t.core).syncTeam = some t.handle))

/-- The teams of a core whose sync groups are complete, in ascending slots from that after the team chosen last, wrapping. -/
def State.syncOrder (s : State) (core : Nat) : List Team :=
  let ts := (s.teamsOf core).filter fun t => t.runs && t.syncReady
  let i := (s.core core).syncSlot
  (ts.filter fun t => i ≤ t.slot?.getD 0) ++ ts.filter fun t => t.slot?.getD 0 < i

/-- The team whose complete group the clusters pass to: it stays until its group issues, then comes the next (R357). One at a
time, so that no two groups wait for each other's clusters (R364, log entry 67). -/
def State.pickSync (s : State) (core : Nat) (c : Core) : Core :=
  let ts := s.syncOrder core
  if ts.any fun t => some t.handle = c.syncTeam then c
  else
    match ts.head? with
    | some t => { c with syncTeam := some t.handle, syncSlot := t.slot?.getD 0 + 1 }
    | none => { c with syncTeam := none }

/-- The teams of a core whose strand k is eligible, in the order in which the cluster passes: ascending slots after that of
the team it ran, wrapping; the team whose complete sync group they pass to first (R357). -/
def State.passOrder (s : State) (core k : Nat) : List Team :=
  let ts := (s.teamsOf core).filter fun t => s.eligible t k
  let i := (vget (s.core core).clusters k {}).next
  let turn := (ts.filter fun t => i ≤ t.slot?.getD 0) ++ ts.filter fun t => t.slot?.getD 0 < i
  (ts.filter Team.syncReady) ++ turn.filter fun t => !t.syncReady

/-- The cluster's current team is eligible still. -/
def State.clusterKeeps (s : State) (core k : Nat) : Bool :=
  match (vget (s.core core).clusters k {}).handle.bind s.team? with
  | some t => s.eligible t k
  | none => false

/-- The cluster passes to the next team (R356). -/
def State.passCluster (s : State) (core k : Nat) : State :=
  s.modCore core fun c =>
    let x := vget c.clusters k {}
    let t := (s.passOrder core k).head?
    let y : Cluster :=
      { handle := t.map fun t => t.handle, ran := 0,
        next := match t.bind Team.slot? with
          | some i => i + 1
          | none => x.next }
    { c with clusters := vset c.clusters k y }

/-- CLUSTER_TIME_SLICE (R356): after four cycles on one team while another is eligible, the cluster passes; a team whose
sync group is complete keeps its clusters until the group issues (R357). -/
def execClusterTimeSlice (core k : Nat) (s : State) : Out :=
  let c := vget (s.core core).clusters k {}
  match c.handle.bind s.team? with
  | some t =>
    if 4 ≤ c.ran && !t.syncReady && (s.passOrder core k).any fun u => u.handle ≠ t.handle then
      .next (s.passCluster core k)
    else .next s
  | none => .next s

/-! ## Drowsy granules -/

/-- GRANULE_DROWSY (R42): a granule of the allocation untouched for 4,096 cycles goes drowsy; its bytes stay. -/
def execGranuleDrowsy (h g : Nat) (s : State) : Out :=
  match s.team? h with
  | none => .next s
  | some t =>
    let x := (vget t.grans g {}).seen s.cycle
    if t.resident && g < t.regsz && !x.drowsy && x.touched + 4096 ≤ s.cycle then
      .next (s.setTeam h { t with grans := vset t.grans g { x with drowsy := true } })
    else .next s

end Sys2Proof.Machine
end

