-- ==== Sys2Proof/Machine/Faults.lean ====
section
/-! DEFINITION. Walks (R390), replies of the fault path and their delivery by source (R394, R397–R401), and shoot-downs
(R391, R431). -/

namespace Sys2Proof.Machine

open Sys2Proof

/-- TRANSLATION_WALK (R390): the translation unit of C-die 0 walks for an address and caches the leaf it finds; every
other requester's walk is part of its access, and an entry with V = 0 is never cached. -/
def execTranslationWalk (ctx va : Nat) (s : State) : Out := .next (s.lookup ctx 0 va).2

/-! ## The fault queue (R396–R398) -/

/-- Sets REPERR in the fault-queue header. -/
def State.setRepErr (s : State) (c : Context) : State :=
  if c.fqbase = 0 then s
  else
    let a := bits c.fqbase.toNat 6 46 * 64 + 8
    { s with hbm := Mem.write s.hbm a (Mem.readN s.hbm a 1 ||| 1) 1 }

/-- FAULT_QUEUE_HEAD_ADVANCE (R397): software stores HEAD in the header; a fault that waited for room is met again and
writes its record. -/
def execFaultQueueHeadAdvance (ctx : Nat) (v : BitVec 32) (s : State) : Out :=
  match s.ctx? ctx with
  | none => .next s
  | some c =>
    if c.fqbase = 0 then .next s
    else .next { s with hbm := Mem.write s.hbm (bits c.fqbase.toNat 6 46 * 64 + 4) v.toNat 4 }

/-! ## Delivery (R394, R399) -/

/-- The fault of a record, at the first byte of an access that lies in the record's page. -/
def FaultRec.trap (f : FaultRec) (va : Nat) : TrapInfo :=
  let a := if bits va 12 44 = f.vpn then va else canon (f.vpn * 4096)
  { code := f.kind, reason := f.reason, info := BitVec.ofNat 64 a }

/-- A strand's instruction fetch is refused: precise at the word (R394); for a team set aside it is delivered when the
team is restored. -/
def State.refuseFetch (s : State) (t : Team) (k : Nat) (f : FaultRec) : State :=
  let x := t.strand k
  let ti := f.trap x.pc.toNat
  if t.resident then s.trapHere t.handle k ti
  else
    let n := s.nextReq
    let q : Req := { fetchReq x.pc with tag := n, h := t.handle, k := k, st := .failed ti }
    ({ s with nextReq := n + 1 }.setReq n q).setTeam t.handle (t.setStrand k { x with wait := .reply n })

/-- The answer of a record to what a team's streams, fills and queues wait for. -/
def State.answerTeam (s : State) (h : Nat) (f : FaultRec) (retry : Bool) : State :=
  let n := f.serial
  -- instruction fetches
  let s := (List.range 5).foldl (fun s k =>
    match s.team? h with
    | some t =>
      if (t.strand k).wait = .fetch n then
        if retry then s.setTeam h (t.unwait k) else s.refuseFetch t k f
      else s
    | none => s) s
  -- the access unit's halt (R400)
  let s := s.modTeam h fun t =>
    if t.accSerial = some n then
      { t with accSerial := none, accRefused := if retry then none else some (f.trap t.accVa) }
    else t
  -- engine queues (R279)
  let s := (List.range 3).foldl (fun s q => s.modQueue h q fun x =>
    { x with
      serial := if x.serial = some n then none else x.serial,
      refused := x.refused || (x.serial = some n && !retry),
      fixups := x.fixups.map fun (e : Fixup) =>
        if e.serial = some n then { e with serial := none, refused := !retry } else e }) s
  -- fills and write-backs (R293, R296)
  let fills := ((s.team? h).map fun t => t.fills.filter fun e => e.serial = some n).getD []
  let s := fills.foldl (fun s e =>
    if retry then s.modFill h e.granule fun x => { x with serial := none }
    else
      match (s.team? h).bind fun t => t.mapOf e.granule with
      | some m => s.failFill h e.granule f.kind f.reason true m.sxe (m.granuleVa e.granule)
      | none => s) s
  match s.team? h with
  | some t =>
    if t.wbSerial = some n then
      if retry then s.setTeam h { t with wbSerial := none } else s.failWriteBack h (t.wbLeft.head?.getD 0)
    else s
  | none => s

/-- The answer of a record to the posted writes of a core's path (R401). A refusal of an engine's write stops its queue
with fault 0x34 (R394). -/
def State.answerPath (s : State) (ctx core : Nat) (f : FaultRec) (retry : Bool) : State :=
  let mine := (s.core core).path.filter fun e => e.ctx = ctx && e.target = .fault f.serial
  mine.foldl (fun s e =>
    if retry then s.setPath core { e with target := .fault retrySerial }
    else if 5 ≤ e.k && e.k < 8 then (s.dropPath core e.num).writeFault e 0x34 0
    else (s.dropPath core e.num).writeFault e f.kind f.reason) s

/-- The answer of a record to a unit's access. -/
def UnitWait.answered (w : UnitWait) (f : FaultRec) (retry : Bool) : UnitWait :=
  if w.serial = some f.serial then { serial := none, denied := if retry then w.denied else w.denied ++ [f.vpn] } else w

/-- The answer of a record to a request of its context. -/
def Req.answered (q : Req) (ctx : Nat) (f : FaultRec) : Req :=
  if q.st = .faultPath f.serial && handleCtx q.h = ctx then { q with st := .failed (f.trap q.ea) } else q

/-- A retry of a strand's request: its word issues again from the start (R210). The access stream's words after its own have
issued: there the request itself starts again (R400). -/
def State.reissue (s : State) (e : Nat × Req) : State :=
  if 4 ≤ e.2.k then s.setReq e.1 e.2.again
  else
    (s.delReq e.1).modTeam e.2.h fun t =>
      let x := t.strand e.2.k
      t.setStrand e.2.k { x with pc := e.2.pc, wait := .none }

/-- A retry translates from a new walk: the entries that map the page are dropped (R390, R399). -/
def Context.rewalk (c : Context) (vpn : Nat) : Context := { c with tlb := c.tlb.filter fun e => !e.covers (vpn * 4096) }

/-- The answer of a record to the requests of streams. -/
def State.answerReqs (s : State) (ctx : Nat) (f : FaultRec) (retry : Bool) : State :=
  if retry then
    (s.reqs.filter fun e => e.2.st = .faultPath f.serial && handleCtx e.2.h = ctx).foldl State.reissue s
  else { s with reqs := s.reqs.map fun (e : Nat × Req) => (e.1, e.2.answered ctx f) }

/-- The answer of a record to every access of it (R399). -/
def State.answerRecord (s : State) (ctx : Nat) (f : FaultRec) (retry : Bool) : State :=
  let n := f.serial
  let hs := (s.teams.map (·.1)).filter fun h => handleCtx h = ctx
  let s := if retry then s.modCtx ctx fun c => c.rewalk f.vpn else s
  let s := s.answerReqs ctx f retry
  let s := hs.foldl (fun s h => s.answerTeam h f retry) s
  let s := (s.cores.map (·.1)).foldl (fun s c => s.answerPath ctx c f retry) s
  -- claims (R385)
  let s := (s.claims.filter fun e => e.2.ctx = ctx && e.2.serial = some n).foldl (fun s e =>
    if retry then s.setClaim e.1 { e.2 with serial := none }
    else s.failClaim e.1 e.2 f.kind f.reason true (canon (f.vpn * 4096))) s
  -- completion records
  let s := { s with launches := s.launches.map fun (e : Nat × Launch) =>
    if e.2.ctx = ctx then (e.1, { e.2 with wait := e.2.wait.answered f retry }) else e }
  -- course-table entries whose read is refused (R422, R425)
  let peers := ((s.ctx? ctx).map fun c => c.courses.filter fun e => e.2.serial = some n).getD []
  let s := if retry then s else peers.foldl (fun s e => s.courseUnread ctx e.1) s
  -- the units of the context (R341, R349, R422, R494)
  s.modCtx ctx fun c =>
    { c with
      launchQs := c.launchQs.map fun (q : LaunchQ) => { q with wait := q.wait.answered f retry },
      sextant := { c.sextant with wait := c.sextant.wait.answered f retry },
      courses := c.courses.filterMap fun (e : Nat × CourseEntry) =>
        if e.2.serial = some n then none else some (e.1, { e.2 with back := e.2.back.map fun w => w.answered f retry }) }

/-! ## Replies (R398, R399) -/

/-- The address of entry i of the reply table. -/
def Context.replyAt (c : Context) (i : Nat) : Nat := bits c.frbase.toNat 12 40 * 4096 + 16 * i

/-- ACTION of entry i. -/
def Context.replyAction (c : Context) (m : Mem) (i : Nat) : Nat := Mem.readN m (c.replyAt i + 4) 1

/-- Reads entry i of the reply table and consumes it when it passes; the second part says whether it did. -/
def State.readReply (s : State) (ctx : Nat) (c : Context) (i : Nat) : State × Bool :=
  let a := c.replyAt i
  let x := Mem.readN s.hbm a 16
  let action := bits x 32 8
  let serial := bits x 0 32
  match c.faults.find? fun f => f.serial = serial with
  | some f =>
    if (action = 1 || action = 2) && serial % 4096 = i && bits x 40 6 = ctx && bits x 46 82 = 0 then
      let s := { s with hbm := Mem.write s.hbm (a + 4) 0 1 }
      let s := s.modCtx ctx fun c => { c with faults := c.faults.filter fun g => g.serial ≠ serial }
      (s.answerRecord ctx f (action = 1), true)
    else (s, false)
  | none => (s, false)

/-- FAULT_REPLY (R398, R399): a store to the fault-reply doorbell word makes the hardware read the reply entry and consume
it, or set REPERR. While the context is saved the entry is left for the restore. -/
def execFaultReply (ctx : Nat) (v : Word) (s : State) : Out :=
  match s.ctx? ctx with
  | none => .next s
  | some c =>
    if c.fqbase = 0 || c.frbase = 0 then .next s
    else if v.toNat / 2 ^ 32 ≠ 0 then .next (s.setRepErr c)
    else if c.st = .saved then .next s
    else
      let (s, ok) := s.readReply ctx c (v.toNat % 4096)
      .next (if ok then s else s.setRepErr c)

/-! ## Shoot-downs (R391, R431, R434) -/

/-- The page of an address lies in the range of a context's shoot-down. -/
def Context.inShootdown (c : Context) (va len : Nat) : Bool :=
  c.sdn = 0 || (decide (bits va 12 44 < c.sdlo + c.sdn) && decide (c.sdlo < bits va 12 44 + (va % 4096 + len - 1) / 4096 + 1))

/-- The entry maps a page of the range. -/
def TlbEntry.inRange (e : TlbEntry) (c : Context) : Bool :=
  c.sdn = 0 || (decide (e.base < (c.sdlo + c.sdn) * 4096) && decide (c.sdlo * 4096 < e.base + leafSize e.level))

/-- The leaves that a table of a level maps, as (address, level, entry), in ascending address. -/
def State.leavesFrom (s : State) (ctx : Nat) : Nat → Nat → Nat → List (Nat × Nat × Nat)
  | level, base, va =>
    (List.range (if level = 4 then 256 else 512)).flatMap fun i =>
      let e := Mem.readN s.hbm (base + 8 * i) 8
      let a := va + i * leafSize level
      if !pteValid e then []
      else if pteLeaf e then
        (match (if 3 ≤ level then .malformed 1 else s.checkLeaf ctx level base i e) with
         | .leaf _ e => [(canon a, level, e)]
         | _ => [])
      else
        match level with
        | 0 => []
        | l + 1 => if e ≠ 1 + ptePa e then [] else s.leavesFrom ctx l (ptePa e) a

/-- Every leaf of a context's page table. -/
def State.leaves (s : State) (ctx : Nat) : List (Nat × Nat × Nat) :=
  match s.ctx? ctx with
  | some c => s.leavesFrom ctx 4 (bits c.ptroot.toNat 12 40 * 4096) 0
  | none => []

/-- The local frames of a shoot-down's range, as one range of physical addresses (R431). -/
def State.homeRange (s : State) (ctx : Nat) (c : Context) : Nat × Nat :=
  let l := (s.leaves ctx).filter fun e =>
    s.pteLocal e.2.2 && TlbEntry.inRange { die := 0, level := e.2.1, base := bits e.1 0 56, pte := 0 } c
  match l with
  | [] => (0, 0)
  | e :: r => r.foldl (fun (p : Nat × Nat) e => (min p.1 (ptePa e.2.2), max p.2 (ptePa e.2.2 + leafSize e.2.1)))
      (ptePa e.2.2, ptePa e.2.2 + leafSize e.2.1)

/-- The other packages present in the chart. -/
def State.otherPeers (s : State) : List Nat :=
  match s.chart with
  | some ch => (ch.nodes.map (·.1)).filter (· ≠ ch.self)
  | none => []

/-- A piece of a request's translation that is still to be used lies in the range: a piece on its way to a peer has been used. -/
def Req.inShootdown (q : Req) (c : Context) (used : Nat) : Bool :=
  ((q.locs.getD []).drop used).any fun p => c.inShootdown p.va p.len

/-- A request of a stream that has not been performed or sent gives its translation up where a shoot-down reaches it; one whose
first piece is at a peer starts again once that has come. -/
def Req.forgets (q : Req) : Req :=
  match q.st with
  | .start => q.again
  | .remote _ => { q with restart := true }
  | _ => q

/-- A strand's request at the start of a shoot-down. The access stream's words were translated at issue (R400): those in the
range are waited for (log entry 98). -/
def Req.forget (q : Req) (ctx : Nat) (c : Context) : Req :=
  let used := match q.st with
    | .remote _ => 1
    | _ => 0
  if q.k < 4 && handleCtx q.h = ctx && q.inShootdown c used then q.forgets else q

/-- SHOOTDOWN_START (R391): the range is read, cached entries of it go, what still uses them is marked to be waited for or
gives them up, and with FABRIC the peers are to be told. -/
def execShootdownStart (ctx : Nat) (s : State) : Out :=
  match s.ctx? ctx with
  | none => .next s
  | some c =>
    if c.sdbusy then .next s
    else
      let c := { c with sdlo := bits c.sdva.toNat 12 44, sdn := c.sdcnt.toNat }
      let c' := { c with
        sdbusy := true, tlb := c.tlb.filter fun e => !e.inRange c,
        sdpeers := if c.fabric then s.otherPeers else [], sdacks := 0,
        sdmarks := s.cores.map fun k => (k.1, k.2.nextNum), sdref := s.fabric.nextRef, sdmsg := s.nextMsg, sdreq := s.nextReq }
      let s := { s.setCtx ctx c' with reqs := s.reqs.map fun (e : Nat × Req) => (e.1, e.2.forget ctx c) }
      let f := { s.fabric with outstanding := s.fabric.outstanding.map fun (o : Outstanding) =>
        if o.packet.ctx = ctx && o.moved = some 0 && c.inShootdown o.va 1 then { o with moved := some 1 } else o }
      .next { s with fabric := f }

/-- A message answered "moved" is held for a shoot-down, and no shoot-down waits for it (R434). -/
def State.isMoved (s : State) (ref : Option Nat) : Bool :=
  ref.any fun r => s.fabric.outstanding.any fun o => o.ref = r && o.moved.isSome

/-- A request of the access stream that a shoot-down waits for: it was translated before the shoot-down started. -/
def Req.holdsShootdown (n : Nat) (q : Req) (ctx : Nat) (c : Context) : Bool :=
  decide (n < c.sdreq) && 4 ≤ q.k && handleCtx q.h = ctx && q.inShootdown c 0
    && (match q.st with
        | .start => true
        | .remote _ => !q.restart
        | _ => false)

/-- It follows a write of its core that waits on the fault path, for whose reply software may first need the shoot-down: it
gives its translation up (log entry 98). -/
def State.behindFault (s : State) (q : Req) : Bool :=
  (s.core (handleCore q.h)).path.any fun e => match e.target with
    | .fault _ => true
    | _ => false

/-- A claim of a tile whose places were found before a shoot-down and lie in its range. -/
def State.claimHolds (s : State) (ctx : Nat) (c : Context) (x : Claim) : Bool :=
  x.ctx = ctx && x.mark.isSome && x.st.holdsBusy
    && (c.inShootdown (x.tagVa s) 8 || c.inShootdown ((x.sx s).tileVa x.tile) (x.sx s).tsize)

/-- What a shoot-down waits for has been performed: the writes, the updates of `cp.red`, the fabric requests, the access stream's
words and the tile writes of its range that were translated when it started (R391). -/
def State.shotClear (s : State) (ctx : Nat) (c : Context) : Bool :=
  (c.sdmarks.all fun m => (s.core m.1).path.all fun e =>
    m.2 ≤ e.num || e.ctx ≠ ctx || !c.inShootdown e.va e.len || s.isMoved e.ref
      || (match e.target with
          | .fault _ => true
          | _ => false))
  && (s.redMsgs.all fun e =>
    c.sdmsg ≤ e.1 || e.2.ctx ≠ ctx || e.2.pa.isNone || e.2.back.isSome || !c.inShootdown e.2.va 1)
  && s.fabric.outstanding.all fun o =>
    c.sdref ≤ o.ref || o.packet.ctx ≠ ctx || o.moved.isSome || !c.inShootdown o.va 1
  && (s.reqs.all fun e => !e.2.holdsShootdown e.1 ctx c || s.isMoved (match e.2.st with
      | .remote k => some k
      | _ => none))
  && s.claims.all fun e => !s.claimHolds ctx c e.2

/-- SHOOTDOWN_DONE (R391, R431): the peers are told; once they have acknowledged and nothing uses an old entry any more,
SDBUSY falls and SDDONE is set. -/
def execShootdownDone (ctx : Nat) (s : State) : Out :=
  match s.ctx? ctx with
  | none => .next s
  | some c =>
    if !c.sdbusy then .next s
    else
      match c.sdpeers with
      | p :: rest =>
        let (lo, hi) := s.homeRange ctx c
        let (r, s) := s.sendPeer ctx p 7 0 (.shootdown ctx) 0 (.revoke lo hi)
        match r with
        | .ref _ => .next (s.modCtx ctx fun c => { c with sdpeers := rest, sdacks := c.sdacks + 1 })
        | _ => .next s
      | [] =>
        let s := { s with reqs := s.reqs.map fun (e : Nat × Req) =>
          if e.2.holdsShootdown e.1 ctx c && s.behindFault e.2 then (e.1, e.2.forgets) else e }
        if c.sdacks = 0 && s.shotClear ctx c then
          let s := s.setCtx ctx { c with sdbusy := false, sddone := true, sdmarks := [] }
          let f := { s.fabric with outstanding := s.fabric.outstanding.map fun (o : Outstanding) =>
            if o.packet.ctx = ctx && o.moved = some 1 && c.inShootdown o.va 1 then { o with moved := some 2 } else o }
          .next { s with fabric := f }
        else .next s

end Sys2Proof.Machine
end

