-- ==== Sys2Proof/Machine/Units.lean ====
section
/-! DEFINITION. The accesses that units of the package make to a context's memory (R349, R494, R445): translated by the
unit of C-die 0 (R390), page by page, at package scope. -/

namespace Sys2Proof.Machine

open Sys2Proof

/-- What an access of a unit comes to: its bytes (0 for a write), to be tried again, a wait under a serial, or a fault. -/
inductive UnitRes where
  | ok (v : Nat)
  | later
  | serial (k : Nat)
  | fault
  deriving DecidableEq, Repr

/-- The place of a unit's access at a peer: sent once, then its answer. -/
def State.unitPeer (s : State) (ctx src va len : Nat) (write : Option Nat) (p pa hd : Nat) (ro : Bool) : UnitRes × State :=
  match (s.ctx? ctx).bind fun c => c.unitOps.find? fun o =>
    o.src = src && o.va = va && o.len = len && o.write = write.isSome && o.val = write.getD 0 with
  | some o =>
    match o.failed, o.got with
    | some _, _ => (.fault, s)
    | none, some v => (.ok v, s)
    | none, none => (.later, s)
  | none =>
    let pay : Payload := match write with
      | some v => .write pa (toBytes len v)
      | none => .read pa len ro
    let (r, s) := s.sendPeer ctx p hd 0 (.unit ctx) va pay
    match r with
    | .ref k => (.later, s.modCtx ctx fun c =>
        { c with unitOps := c.unitOps ++ [{ src := src, va := va, len := len, write := write.isSome, val := write.getD 0, ref := k }] })
    | .wait => (.later, s)
    | .unreachable _ => (.fault, s)

/-- An access of a unit to a local frame. -/
def State.unitFrame (s : State) (pa len : Nat) (write : Option Nat) : UnitRes × State :=
  match write with
  | none => if s.lineBad pa len then (.fault, s) else (.ok (Mem.readN s.hbm pa len), s)
  | some v =>
    if s.partialBad pa len (ones len) then (.fault, s)
    else (.ok 0, ({ s with hbm := Mem.write s.hbm pa v len }.clearErrors pa len).noteTag pa len none)

/-- One piece, within a page. -/
def State.unitPiece (s : State) (ctx src : Nat) (w : UnitWait) (va len : Nat) (write : Option Nat) : UnitRes × State :=
  if !isCanon va || w.denied.contains (bits va 12 44) then (.fault, s)
  else
    let (r, s) := s.resolve ctx 0 [] va len (if write.isSome then .write else .read) { src := src }
    match r with
    | .fault _ => (.fault, s)
    | .refused _ => (.fault, s)
    | .full => (.later, s)
    | .wait k => (.serial k, s)
    | .ok (.frame pa) _ => s.unitFrame pa len write
    | .ok (.peer p pa hd ro) _ => s.unitPeer ctx src va len write p pa hd ro
    | .ok _ _ => (.ok 0, s)

/-- An access of a unit piece by piece, from the first byte on; `one` makes a piece. -/
def State.unitPieces (one : State → Nat → Nat → Option Nat → UnitRes × State) (s : State) (write : Option Nat) :
    List Seg → Nat → Nat → UnitRes × State
  | [], _, acc => (.ok acc, s)
  | g :: r, off, acc =>
    match one s g.va g.len (write.map fun v => bits v (8 * off) (8 * g.len)) with
    | (.ok v, s) => s.unitPieces one write r (off + g.len) (acc + v * 2 ^ (8 * off))
    | x => x

/-- Reads `len` bytes of a context's memory for a unit. -/
def State.unitRead (s : State) (ctx src : Nat) (w : UnitWait) (va len : Nat) : UnitRes × State :=
  State.unitPieces (fun s => s.unitPiece ctx src w) s none (segmentsOf va len) 0 0

/-- Writes `len` bytes of `v` to a context's memory for a unit. -/
def State.unitWrite (s : State) (ctx src : Nat) (w : UnitWait) (va len v : Nat) : UnitRes × State :=
  State.unitPieces (fun s => s.unitPiece ctx src w) s (some v) (segmentsOf va len) 0 0

/-- What a unit asked of peers is done with. -/
def State.dropUnitOps (s : State) (ctx src : Nat) : State :=
  s.modCtx ctx fun c => { c with unitOps := c.unitOps.filter fun o => o.src ≠ src }

/-- One access of a unit is done with: what it asked of peers is forgotten. -/
def State.dropUnitOp (s : State) (ctx src va len : Nat) (write : Bool) : State :=
  s.modCtx ctx fun c => { c with unitOps := c.unitOps.filter fun o =>
    !(o.src = src && o.write = write && (segmentsOf va len).any fun g => g.va = o.va) }

/-- A write of a unit of which nothing waits for the end: one that faults or would have to wait is dropped (log entry 99). -/
def State.unitPost (s : State) (ctx src va len v : Nat) : State :=
  ((s.unitWrite ctx src {} va len v).2).dropUnitOp ctx src va len true

end Sys2Proof.Machine
end

