-- ==== Sys2Proof/Machine/Acceptance.lean ====
section
/-! DEFINITION. Launch queues and doorbells (R340–R342), the structures of a launch as read from memory (R343–R348, R291,
R308, R23), and the acceptance or refusal of a launch (R349). -/

namespace Sys2Proof.Machine

open Sys2Proof

/-- Byte i of a little-endian number. -/
def byteOf (x i : Nat) : Nat := bits x (8 * i) 8

/-- n bytes from byte i. -/
def bytesAt (x i n : Nat) : Nat := bits x (8 * i) (8 * n)

/-! ## The launch packet (R343) -/

structure LaunchPacket where
  kind : Nat
  ovl : Bool
  nf : Nat
  fws : List Nat
  graph : Nat
  dims : List Nat
  seed : Nat
  scope : Nat
  notifyS : Nat
  notifyH : Nat
  compl : Nat
  arg : Nat
  deriving DecidableEq, Repr

def LaunchPacket.ofBytes (x : Nat) : LaunchPacket where
  kind := bits x 0 2
  ovl := bit x 2
  nf := bits x 8 3
  fws := (List.range 6).map fun k => byteOf x (2 + k)
  graph := bytesAt x 8 8
  dims := (List.range 4).map fun k => bytesAt x (16 + 4 * k) 4
  seed := bytesAt x 32 4
  scope := byteOf x 36
  notifyS := byteOf x 37
  notifyH := bytesAt x 40 4
  compl := bytesAt x 48 8
  arg := bytesAt x 56 8

/-- The packet's fields lie in their ranges and its reserved fields are 0 (R343). -/
def LaunchPacket.wf (p : LaunchPacket) (x : Nat) : Bool :=
  (p.kind = 1 || p.kind = 2) && bits x 3 5 = 0 && 1 ≤ p.nf && p.nf ≤ 6 && bits x 11 5 = 0
    && (p.fws.take p.nf).all (fun w => 1 ≤ w && w ≤ 63) && (p.fws.drop p.nf).all (· = 0)
    && (p.fws.foldl (· + ·) 0) ≤ 64 && p.graph % 64 = 0 && (p.scope = 4 || (6 ≤ p.scope && p.scope ≤ 31))
    && p.notifyS ≤ 63 && bytesAt x 38 2 = 0 && bytesAt x 44 4 = 0 && p.compl % 64 = 0
    && p.arg < 2 ^ (64 - p.fws.foldl (· + ·) 0)

/-! ## Graph and tasks (R346, R347) -/

/-- NT, NE, TOFF and EOFF of a graph header; none when it is malformed. -/
def graphHeader (x : Nat) : Option (Nat × Nat × Nat × Nat) :=
  let nt := bytesAt x 0 2
  let ne := bytesAt x 4 4
  let toff := bytesAt x 8 4
  let eoff := bytesAt x 12 4
  if 1 ≤ nt && bytesAt x 2 2 = 0 && ne ≤ 2 ^ 20 && toff % 64 = 0 && eoff % 8 = 0 && bytesAt x 16 48 = 0 then
    some (nt, ne, toff, eoff)
  else none

/-- A task record's fields. -/
structure TaskRec where
  timg : Nat
  exts : List Nat
  perm : List Nat
  gb : Nat
  shapes : Nat
  mapt : Nat
  deriving DecidableEq, Repr

/-- A task record for NF fields; none when it is malformed (R347, R352). -/
def taskRecOf (nf x : Nat) : Option TaskRec :=
  let exts := (List.range 6).map fun k => bytesAt x (8 + 4 * k) 4
  let perm := (List.range 6).map fun i => bits (bytesAt x 32 4) (3 * i) 3
  let r : TaskRec :=
    { timg := bytesAt x 0 8, exts := exts.take nf, perm := perm.take nf, gb := byteOf x 36, shapes := bytesAt x 40 8,
      mapt := bytesAt x 48 8 }
  let ok := r.timg % 64 = 0 && (exts.drop nf).all (· = 0) && bits (bytesAt x 32 4) 18 14 = 0 && (perm.drop nf).all (· = 0)
    && (List.range nf).all (fun k => r.perm.contains k) && r.gb ≤ 32 && bytesAt x 37 3 = 0 && r.mapt % 32 = 0
    && bytesAt x 56 8 = 0 && r.exts.all (fun e => !bit e 31 || bits e 9 22 = 0)
  if ok then some r else none

/-- The edges of an edge list of `ne` edges among `nt` tasks; none when one breaks R346, or names a successor that the graph does
not have (log entry 99). -/
def edgesOf (nt ne x : Nat) : Option (List (Nat × Nat)) :=
  let l := (List.range ne).map fun i => (bits x (32 * i) 16, bits x (32 * i + 16) 16)
  if l.all fun e => e.1 < e.2 && e.2 < nt then some l else none

/-! ## The team image (R348) -/

/-- A descriptor binding; none when it is malformed (R348, R111); the Sextant entry of one that names none is to be 0 (log
entry 99). -/
def bindingOf (x : Nat) : Option Binding :=
  let mode := byteOf x 0
  let lit := bytesAt x 8 8
  if bytesAt x 2 6 ≠ 0 then none
  else if mode = 0 then (if byteOf x 1 = 0 && lit = 0 then some .unbound else none)
  else if mode = 1 then
    (if byteOf x 1 = 0 && (fdOf lit).rest = 0 then some (.lit (BitVec.ofNat 64 lit)) else none)
  else if mode = 2 then (if lit = 0 then some (.entry (byteOf x 1)) else none)
  else none

/-- A tile entry; none when it is malformed. -/
def tileImgOf (x : Nat) : Option TileImg :=
  let t : TileImg :=
    { buf := bits x 0 3, skew := bit x 3, fd := bits x 4 4, off := bits x 8 19, size := bits x 32 20 }
  if t.buf ≤ 3 && bits x 27 5 = 0 && bits x 52 12 = 0 && t.off % 128 = 0 && t.size ≠ 0 && t.size % 8 = 0 then some t else none

/-- All of a list of options, or none. -/
def allSome {α : Type} : List (Option α) → Option (List α)
  | [] => some []
  | some a :: r => (allSome r).map (a :: ·)
  | none :: _ => none

/-- A team image from its first 384 bytes and its tile entries; none when it is malformed. -/
def imageOf (x y : Nat) : Option TeamImage :=
  let ents := (List.range 5).map fun k => bytesAt x (8 * k) 8
  let trap := bytesAt x 40 8
  let views := (List.range 4).map fun i => bytesAt x (48 + 4 * i) 4
  let n := byteOf x 69
  match allSome ((List.range 16).map fun k => bindingOf (bytesAt x (128 + 16 * k) 16)),
      allSome ((List.range n).map fun i => tileImgOf (bytesAt y (8 * i) 8)) with
  | some binds, some tiles =>
    if ents.all (fun e => bits e 56 8 = 0) && bits trap 56 8 = 0 && (ents.take 4).any (· ≠ 0)
        && views.all (fun v => bits v 23 9 = 0) && 1 ≤ byteOf x 64 && n ≤ 64 && bytesAt x 70 58 = 0 then
      some { ents := ents, trapEnt := trap, views := views.map (BitVec.ofNat 64), regsz := byteOf x 64, wbg := byteOf x 65,
             abg := byteOf x 66, cbg := byteOf x 67, spg := byteOf x 68, ntiles := n, binds := binds, tiles := tiles }
    else none
  | _, _ => none

/-! ## Map, scope and aperture tables (R291, R23, R308) -/

/-- A map-table entry: none when it is malformed; an entry not valid is no entry. -/
def mapEntryOf (x : Nat) : Option (Option MapEntry) :=
  if !bit x 0 then (if x = 0 then some none else none)
  else
    let e : MapEntry :=
      { wbk := bit x 1, tagged := bit x 2, sxe := byteOf x 1, spg0 := byteOf x 4, ng := byteOf x 5, va := bytesAt x 8 8 }
    if bits x 3 5 = 0 && (e.tagged || e.sxe = 0) && bytesAt x 2 2 = 0 && e.spg0 ≤ 127 && 1 ≤ e.ng && e.ng ≤ 128
        && bytesAt x 6 2 = 0 && bytesAt x 16 16 = 0 && isCanon e.va && e.va % 4096 = 0 then some (some e)
    else none

/-- No two entries share a granule. -/
def mapsApart : List MapEntry → Bool
  | [] => true
  | e :: r => (r.all fun f => e.spg0 + e.ng ≤ f.spg0 || f.spg0 + f.ng ≤ e.spg0) && mapsApart r

/-- A map table of 8 entries; each valid one keeps its place. -/
def mapTableOf (x : Nat) : Option (List MapEntry) :=
  match allSome ((List.range 8).map fun i =>
      (mapEntryOf (bytesAt x (32 * i) 32)).map fun o => o.map fun e => { e with idx := i }) with
  | some l => let l := l.filterMap id; if mapsApart l then some l else none
  | none => none

/-- A scope-table slot. -/
def scopeEntryOf (x : Nat) : Option ScopeEntry :=
  if bits x 2 62 = 0 && bytesAt x 336 48 = 0 then
    some { valid := bit x 0, allPeers := bit x 1, cores := bytesAt x 8 72, peers := bytesAt x 80 256 }
  else none

/-- The programmable entries of a scope table. -/
def scopeTableOf (x : Nat) : Option (List ScopeEntry) :=
  if bytesAt x 0 (6 * 384) ≠ 0 then none
  else allSome ((List.range 26).map fun i => scopeEntryOf (bytesAt x (384 * (i + 6)) 384))

/-- An aperture-table entry. -/
def apertureOf (x : Nat) : Option Aperture :=
  let a : Aperture :=
    { xf := bits x 0 2, isSealed := bit x 2, w := byteOf x 1, vbase := bytesAt x 8 8, vlen := bytesAt x 16 8,
      pbase := bytesAt x 24 8, plen := bytesAt x 32 8, vfd := BitVec.ofNat 64 (bytesAt x 40 8),
      sfd := BitVec.ofNat 64 (bytesAt x 48 8), rows := bytesAt x 56 2, cols := bytesAt x 58 2 }
  if a.xf = 0 then (if x = 0 then some a else none)
  else
    let v := fdOf a.vfd.toNat
    let d := fdOf a.sfd.toNat
    let common := bits x 3 5 = 0 && (a.w = 1 || a.w = 2 || a.w = 4) && bytesAt x 2 6 = 0 && isCanon a.vbase && a.vbase % 128 = 0
      && a.vlen ≠ 0 && a.vlen % 8 = 0 && a.vlen % a.w = 0 && a.pbase % 128 = 0 && bytesAt x 60 4 = 0
    let fds := if a.xf = 1 then
        fdUsable a.vfd.toNat && 2 ≤ v.kind && kindBytes v.kind = a.w
          && fdUsable a.sfd.toNat && (2 ≤ d.kind || d.bs = 0)
      else a.vfd = 0 && a.sfd = 0
    let own := if a.xf = 2 then a.rows * a.cols * a.w = a.vlen && a.plen = 0
      else if a.xf = 3 then a.voff ≤ a.plen
      else a.plen = 0
    if common && fds && own then some a else none

def apertureTableOf (x : Nat) : Option (List Aperture) :=
  allSome ((List.range 16).map fun i => apertureOf (bytesAt x (64 * i) 64))

/-! ## Reading -/

def State.modLq (s : State) (ctx q : Nat) (f : LaunchQ → LaunchQ) : State :=
  s.modCtx ctx fun c => { c with launchQs := vset c.launchQs q (f (vget c.launchQs q {})) }

def Context.lq (c : Context) (q : Nat) : LaunchQ := vget c.launchQs q {}

/-- A structure as read: its bytes, a read that was refused, or no answer yet. -/
inductive Rd where
  | bytes (v : Nat)
  | bad
  | stop

/-- Reads a structure for the launch unit (SRC 4); a wait's serial is noted in the queue, and a read that is over leaves
nothing. -/
def State.launchRead (s : State) (ctx q va len : Nat) : Rd × State :=
  let w := ((s.ctx? ctx).map fun c => (c.lq q).wait).getD {}
  let (r, s) := s.unitRead ctx 4 w va len
  let heard := fun (s : State) => (s.dropUnitOp ctx 4 va len false).modLq ctx q fun x => { x with wait := {} }
  match r with
  | .ok v => (.bytes v, heard s)
  | .fault => (.bad, heard s)
  | .later => (.stop, s)
  | .serial k => (.stop, s.modLq ctx q fun x => { x with wait := { x.wait with serial := some k } })

/-- Reads a structure of the launch being accepted, once: what has been read, or refused, is kept (R349). -/
def State.launchStruct (s : State) (ctx q va len : Nat) : Rd × State :=
  match ((s.ctx? ctx).map fun c => (c.lq q).reads).bind fun l => l.find? fun r => r.1 = va && r.2.1 = len with
  | some (_, _, some v) => (.bytes v, s)
  | some (_, _, none) => (.bad, s)
  | none =>
    let keep := fun (s : State) (v : Option Nat) => s.modLq ctx q fun x => { x with reads := x.reads ++ [(va, len, v)] }
    match s.launchRead ctx q va len with
    | (.bytes v, s) => (.bytes v, keep s (some v))
    | (.bad, s) => (.bad, keep s none)
    | (.stop, s) => (.stop, s)

/-- Reads several structures; none while one has no answer. -/
def State.launchReads (s : State) (ctx q : Nat) : List (Nat × Nat) → Option (List (Option Nat)) × State
  | [] => (some [], s)
  | (va, len) :: r =>
    match s.launchStruct ctx q va len with
    | (.stop, s) => (none, s)
    | (.bad, s) => let (l, s) := s.launchReads ctx q r; (l.map (none :: ·), s)
    | (.bytes v, s) => let (l, s) := s.launchReads ctx q r; (l.map (some v :: ·), s)

/-! ## Doorbells (R341) -/

/-- A launch-queue entry breaks R13 or a range of R340. -/
def lqEntryBad (x : Nat) : Bool :=
  bits x 68 2 ≠ 0 || bytesAt x 9 3 ≠ 0 || bytesAt x 16 16 ≠ 0 || 12 < bits x 64 4 || bytesAt x 0 8 % 64 ≠ 0

/-- Serves the oldest waiting doorbell of a queue: the tail is set, or the doorbell is discarded. -/
def State.serveBell (s : State) (ctx q : Nat) : State :=
  match s.ctx? ctx with
  | none => s
  | some c =>
    match (c.lq q).bells with
    | [] => s
    | v :: rest =>
      if c.st ≠ .running || (c.lq q).wait.serial.isSome then s
      else
        let va := canon (c.lqtab + 32 * q)
        let (r, s) := s.launchRead ctx q va 32
        let drop := fun (s : State) => s.modLq ctx q fun x => { x with bells := rest }
        match r with
        | .stop => s
        | .bad => drop s
        | .bytes x =>
          let head := bytesAt x 12 4
          let s := drop s
          if v.toNat / 2 ^ 32 ≠ 0 || !bit x 71 || lqEntryBad x || 2 ^ bits x 64 4 < (v.toNat + 2 ^ 32 - head) % 2 ^ 32 then
            s.unitPost ctx 4 (canon (va + 8)) 1 (byteOf x 8 ||| 0x40)
          else
            s.modLq ctx q fun l => { l with
              tail := BitVec.ofNat 32 v.toNat, head := BitVec.ofNat 32 head, base := bytesAt x 0 8, log2n := bits x 64 4 }

/-- LAUNCH_DOORBELL (R341, R404): a store to the tail word of queue q; while the context is not running it is recorded. -/
def execLaunchDoorbell (ctx q : Nat) (v : Word) (s : State) : Out :=
  .next ((s.modLq ctx q fun x => { x with bells := x.bells ++ [v] }).serveBell ctx q)

/-! ## Acceptance (R349) -/

/-- A failure: its DETAIL and the task concerned, or none. -/
abbrev LaunchFailure := Nat × Option Nat

/-- The failure reported: the lowest DETAIL, the first found of it. -/
def leastFailure (l : List LaunchFailure) : Option LaunchFailure :=
  l.foldl (fun m f =>
    match m with
    | some g => if f.1 < g.1 then some f else m
    | none => some f) none

/-- What a launch names more of than a core holds (R349, R51). -/
def resourcesBad (im : TeamImage) (maps : List MapEntry) : Bool :=
  16 < im.regsz || 128 < im.wbg || 64 < im.abg || 64 < im.cbg || 128 < im.spg
    || im.tiles.any (fun t =>
        4096 * (if t.buf = 0 then im.wbg else if t.buf = 1 then im.abg else if t.buf = 2 then im.cbg else im.spg) < t.off + t.size)
    || maps.any fun e => im.spg < e.spg0 + e.ng

/-- A task as its structures give it, with its failures. A map table that names granules outside the SP window is malformed
(R291), and names more than the core holds (R349): the lower DETAIL is reported. -/
def taskOf (j : Nat) (r : TaskRec) (img img2 shapes maps : Option Nat) (edges : List (Nat × Nat)) : Option Task × List LaunchFailure :=
  let im := match img, img2 with
    | some x, some y => imageOf x y
    | _, _ => none
  let mt := maps.bind mapTableOf
  let n := (im.map fun i => i.ntiles).getD 0
  let f (bad : Bool) (d : Nat) : List LaunchFailure := if bad then [(d, some j)] else []
  let fails := f im.isNone 5 ++ f mt.isNone 6 ++ f (shapes.isNone || r.shapes % 2 ≠ 0) 9
    ++ (match im with
        | some i => f (r.exts.any fun e => bit e 31 && i.ntiles ≤ bits e 2 6) 3
            ++ f ((mt.getD []).any fun e => i.spg < e.spg0 + e.ng) 6 ++ f (resourcesBad i (mt.getD [])) 11
        | none => [])
  let t := im.map fun i =>
    { image := i, exts := r.exts, perm := r.perm, gb := if r.gb = 0 then 32 else r.gb,
      heights := (List.range n).map fun k => bits (shapes.getD 0) (16 * k) 16, maps := mt.getD [],
      preds := ((edges.filter fun e => e.2 = j).map (·.1)).eraseDups : Task }
  (t, fails)

/-- The enabled cores that SCOPE selects (R345). -/
def launchCores (scope : Nat) (table : List ScopeEntry) : Option (List Nat) :=
  if scope = 4 then some (List.range 576)
  else
    match table[scope - 6]? with
    | some e =>
      let l := (List.range 576).filter fun c => bit e.cores c
      if e.valid && !l.isEmpty then some l else none
    | none => none

/-- The outcome of checking a packet and its structures: no answer yet, a refusal, or the launch's parts. -/
inductive Verdict where
  | stop
  | refuse (f : LaunchFailure)
  | accept (tasks : List Task) (scopes : List ScopeEntry) (aps : List Aperture) (cores : List Nat)

/-- The task records, edge list and per-task structures of a graph of `nt` tasks, then every other check; the reads come
first, so that the lowest DETAIL among all failures is reported. -/
def State.checkTasks (s : State) (ctx q : Nat) (c : Context) (p : LaunchPacket) (addrs : List Nat) (edge : Option (Nat × Nat)) :
    Verdict × State :=
  match s.launchReads ctx q (addrs.map fun a => (a, 64)) with
  | (none, s) => (.stop, s)
  | (some raw, s) =>
    let recs := raw.map fun x => x.bind fun v => taskRecOf p.nf v
    match recs.findIdx? Option.isNone with
    | some j => (.refuse (3, some j), s)
    | none =>
      let rs := recs.filterMap id
      match s.launchReads ctx q (match edge with | some e => [(e.1, 4 * e.2)] | none => []) with
      | (none, s) => (.stop, s)
      | (some eraw, s) =>
        let edges := match edge, eraw with
          | some e, some v :: _ => edgesOf rs.length e.2 v
          | some _, _ => none
          | none, _ => some []
        match s.launchReads ctx q (rs.map fun r => (r.timg, 384)) with
        | (none, s) => (.stop, s)
        | (some imgs, s) =>
          let n := fun (x : Option Nat) => min 64 ((x.map fun v => byteOf v 69).getD 0)
          match s.launchReads ctx q ((rs.zip imgs).map fun e => (canon (e.1.timg + 384), 8 * n e.2)) with
          | (none, s) => (.stop, s)
          | (some tails, s) =>
            match s.launchReads ctx q ((rs.zip imgs).map fun e => (e.1.shapes, if e.1.shapes = 0 then 0 else 2 * n e.2)) with
            | (none, s) => (.stop, s)
            | (some shapes, s) =>
              match s.launchReads ctx q (rs.map fun r => (r.mapt, if r.mapt = 0 then 0 else 256)) with
              | (none, s) => (.stop, s)
              | (some maps, s) =>
                match s.launchReads ctx q [(c.scopetab, 32 * 384), (c.aptab, 1024)] with
                | (none, s) => (.stop, s)
                | (some tabs, s) =>
                  let built := (List.range rs.length).map fun j =>
                    match rs[j]? with
                    | some r => taskOf j r (imgs.getD j none) (tails.getD j none) (shapes.getD j none) (maps.getD j none) (edges.getD [])
                    | none => (none, [])
                  let sc := (tabs.getD 0 none).bind scopeTableOf
                  let ap := (tabs.getD 1 none).bind apertureTableOf
                  let cores := sc.bind fun t => launchCores p.scope t
                  let gone := (cores.getD []).any fun k => (s.core k).retired
                  let f (bad : Bool) (d : Nat) : List LaunchFailure := if bad then [(d, none)] else []
                  let fails := built.flatMap (·.2) ++ f edges.isNone 4 ++ f cores.isNone 7 ++ f ap.isNone 8 ++ f gone 11
                  match leastFailure fails with
                  | some e => (.refuse e, s)
                  | none => (.accept (built.filterMap (·.1)) (sc.getD []) (ap.getD []) (cores.getD []), s)

/-- Reads and checks what a packet names. -/
def State.checkLaunch (s : State) (ctx q : Nat) (c : Context) (x : Nat) : Verdict × State :=
  let p := LaunchPacket.ofBytes x
  if !p.wf x then (.refuse (1, none), s)
  else if p.kind = 2 then s.checkTasks ctx q c p [p.graph] none
  else
    match s.launchStruct ctx q p.graph 64 with
    | (.stop, s) => (.stop, s)
    | (.bad, s) => (.refuse (2, none), s)
    | (.bytes h, s) =>
      match graphHeader h with
      | none => (.refuse (2, none), s)
      | some (nt, ne, toff, eoff) =>
        s.checkTasks ctx q c p ((List.range nt).map fun j => canon (p.graph + toff + 64 * j)) (some (canon (p.graph + eoff), ne))

/-- SWAPTH as the context table replaces it at acceptance (R482). -/
def State.swapThreshold (s : State) (ctx : Nat) : State :=
  let e := Mem.readN s.hbm (bits s.pkg.ctxtbase.toNat 13 39 * 8192 + 128 * ctx) 4
  if bit e 1 then s.modCtx ctx fun c => { c with swapth := BitVec.ofNat 16 (bits e 16 16) } else s

/-- Enters a launch in the launch table: accepted, or refused and waiting only for its record, of which there is none where a
refused packet's COMPL is no multiple of 64 (log entry 99). -/
def State.enterLaunch (s : State) (ctx q : Nat) (c : Context) (x : Nat) (v : Verdict) : State :=
  let p := LaunchPacket.ofBytes x
  let l : Launch :=
    { ctx := ctx, queue := q, index := vget c.launchCount q 0, pri := q / 4, ovl := p.ovl, nf := p.nf, fws := p.fws.take p.nf,
      dims := p.dims, seed := BitVec.ofNat 32 p.seed, scope := p.scope, notifyS := p.notifyS, notifyH := p.notifyH,
      compl := if p.compl % 64 = 0 then p.compl else 0, arg := BitVec.ofNat 64 p.arg, cores := [], scopes := [], apertures := [],
      tasks := [], acceptedAt := s.cycle, afterStep := c.sextant.pend.isSome, afterDigest := c.digest }
  let l := match v with
    | .accept tasks scopes aps cores => { l with tasks := tasks, scopes := scopes, apertures := aps, cores := cores }
    | .refuse (d, t) => { l with fate := .refused d (t.getD 0xFFFFFFFF) }
    | .stop => l
  let n := s.nextLaunch
  let s := { s with launches := tput s.launches n l, nextLaunch := n + 1 }
  let s := s.modCtx ctx fun c => { c with launchCount := vset c.launchCount q (vget c.launchCount q 0 + 1) }
  s.modLq ctx q fun y => { y with packet := none, reads := [], wait := {} }

/-- HEAD has passed one packet (R341); its write to the table is dropped where it faults or would wait (log entry 99). -/
def State.advanceHead (s : State) (ctx q : Nat) (c : Context) : State :=
  let head := (c.lq q).head + 1
  let s := s.modLq ctx q fun x => { x with head := head }
  s.unitPost ctx 4 (canon (c.lqtab + 32 * q + 12)) 4 head.toNat

/-- LAUNCH_ACCEPT (R341, R349): a waiting doorbell is served; else the next packet of the queue is read, then the structures
it names, and the launch is accepted or refused. -/
def execLaunchAccept (ctx q : Nat) (s : State) : Out :=
  match s.ctx? ctx with
  | none => .next s
  | some c =>
    let l := c.lq q
    if c.st ≠ .running || l.wait.serial.isSome then .next s
    else
      match l.packet with
      | some x =>
        match s.checkLaunch ctx q c x with
        | (.stop, s) => .next s
        | (.refuse f, s) => .next (s.enterLaunch ctx q c x (.refuse f))
        | (v, s) => .next ((s.swapThreshold ctx).enterLaunch ctx q c x v)
      | none =>
        if !l.bells.isEmpty then .next (s.serveBell ctx q)
        else if l.head = l.tail then .next s
        else
          match s.launchRead ctx q (canon (l.base + 64 * (l.head.toNat % 2 ^ l.log2n))) 64 with
          | (.stop, s) => .next s
          | (.bad, s) => .next ((s.advanceHead ctx q c).enterLaunch ctx q c 0 (.refuse (1, none)))
          | (.bytes x, s) =>
            .next ((s.advanceHead ctx q c).modLq ctx q fun y => { y with packet := some x, wait := {} })

end Sys2Proof.Machine
end

