-- ==== Sys2Proof/Machine/Control.lean ====
section
/-! DEFINITION. Branches and calls (R149–R151), waits and `exit` (R152–R157), control registers (R158–R161), the
software trap, breakpoint and return from a trap (R167, R170), and the trap of a word that is no instruction (R88). -/

namespace Sys2Proof.Machine

open Sys2Proof

/-! Branches -/

/-- PC + 8 × DISP (R149). -/
def relTarget (pc : BitVec 64) (disp : BitVec 24) : BitVec 64 :=
  (pc + BitVec.ofNat 64 (8 * sxt 24 disp.toNat)) &&& 0x00FFFFFFFFFFFFFF

/-- A branch: reads its operands and decides at issue; a taken target that is not a multiple of 8 is the
instruction-alignment trap (R70, R150). `plan` gives the target when taken and the scalar written at latency 2. -/
def branchWord (r : BrW) (s : State) (opds : List Opd) (preds : List Nat) (writes : Bool)
    (plan : Here → Option (BitVec 64) × Option (BitVec 8 × Nat)) : Out :=
  issueWord s r.mods (fun _ => { opds := opds, predR := preds, lat := 2, holds := writes })
    fun x =>
      let (tgt, wr) := plan x
      let fl := match wr with
        | some (spec, v) => [x.flyScalar spec 2 v 0]
        | none => []
      match tgt with
      | none => x.done r.mods x.t fl
      | some a =>
        if a.toNat % 8 ≠ 0 then x.trap { code := 0x02, info := a }
        else x.finish r.mods x.t fl a

/-- A conditional branch on A as .s64 against 0. -/
def branchCmp (r : BrW) (s : State) (f : Int → Bool) : Out :=
  branchWord r s [opdR 1 r.a 1] [] false fun x =>
    (if f (toSigned 64 (x.t.scalar r.a).toNat) then some (relTarget x.pc r.disp) else none, none)

def execB (r : BrW) (s : State) : Out :=
  branchWord r s [] [] false fun x => (some (relTarget x.pc r.disp), none)

def execBeq (r : BrW) (s : State) : Out := branchCmp r s fun a => a = 0
def execBne (r : BrW) (s : State) : Out := branchCmp r s fun a => a ≠ 0
def execBlt (r : BrW) (s : State) : Out := branchCmp r s fun a => a < 0
def execBle (r : BrW) (s : State) : Out := branchCmp r s fun a => a ≤ 0
def execBgt (r : BrW) (s : State) : Out := branchCmp r s fun a => 0 < a
def execBge (r : BrW) (s : State) : Out := branchCmp r s fun a => 0 ≤ a

/-- Bit 0 of predicate A. -/
def execBp (r : BrW) (s : State) : Out :=
  branchWord r s [] [r.a.toNat] false fun x =>
    (if (x.sd.pred r.a.toNat).getLsbD 0 then some (relTarget x.pc r.disp) else none, none)

def execBnp (r : BrW) (s : State) : Out :=
  branchWord r s [] [r.a.toNat] false fun x =>
    (if (x.sd.pred r.a.toNat).getLsbD 0 then none else some (relTarget x.pc r.disp), none)

def execCall (r : BrW) (s : State) : Out :=
  branchWord r s [opdW 0 r.link 1 true] [] true fun x =>
    (some (relTarget x.pc r.disp), some (r.link, (nextPc x.pc).toNat))

/-- Bits 55:0 of A (R149). -/
def Here.jumpTarget (x : Here) (spec : BitVec 8) : BitVec 64 := x.t.scalar spec &&& 0x00FFFFFFFFFFFFFF

def execJr (r : BrW) (s : State) : Out :=
  branchWord r s [opdR 1 r.a 1] [] false fun x => (some (x.jumpTarget r.a), none)

def execCallr (r : BrW) (s : State) : Out :=
  branchWord r s [opdW 0 r.link 1 true, opdR 1 r.a 1] [] true fun x =>
    (some (x.jumpTarget r.a), some (r.link, (nextPc x.pc).toNat))

/-- `loop`: A := A − 1, taken when the new value is not 0 (R149). -/
def execLoop (r : BrW) (s : State) : Out :=
  branchWord r s [⟨1, r.a, 1, 0xFF, 0xFF⟩] [] true fun x =>
    let v := x.t.scalar r.a - 1
    (if v = 0 then none else some (relTarget x.pc r.disp), some (r.a, v.toNat))

/-! Waits (R152–R154) -/

/-- A wait: ends the block with its condition. -/
def waitWord (r : WtW) (s : State) (opds : List Opd) (tile : Option Nat) (w : Here → Wait) : Out :=
  issueWord s r.mods (fun _ => { opds := opds, tile := tile }) fun x => x.wait r.mods x.t (w x)

def execWaitSig (r : WtW) (s : State) : Out := waitWord r s [] none fun _ => .sig (r.arg.toNat % 64)

def execWaitTile (r : WtW) (s : State) : Out :=
  waitWord r s [] (some (r.arg.toNat % 64)) fun _ => .tile (r.arg.toNat % 64)

/-- `wait.q` records the queue's accept sequence number at issue (R154). -/
def execWaitQ (r : WtW) (s : State) : Out :=
  waitWord r s [] none fun x => .queue (r.arg.toNat % 4) (x.t.queue (r.arg.toNat % 4)).accept

def execWaitMer (r : WtW) (s : State) : Out := waitWord r s [opdR 1 r.a 1] none fun x => .mer (x.t.scalar r.a)

def execYield (r : WtW) (s : State) : Out := waitWord r s [] none fun _ => .yield

/-- `exit` (R156, R157): the stream issues no further word; it stops being live when its results have landed
(R76). -/
def execExit (r : WtW) (s : State) : Out :=
  issueWord s r.mods (fun _ => {}) fun x =>
    let s := x.done r.mods x.t []
    match s.team? x.h with
    | some t => s.setTeam x.h (t.setStrand x.k { t.strand x.k with exiting := true, settle := true })
    | none => s

/-! Control registers -/

def execCrr (r : SysW) (s : State) : Out :=
  issueWord s r.mods (fun _ => { opds := [opdW 0 r.d 1 true], lat := 3, holds := true }) fun x =>
    x.done r.mods x.t [x.flyScalar r.d 3 (x.s.readCr x.t x.k r.cr.toNat).toNat 0]

/-- A control-register write of form FN: lands after 3 units (R160). -/
def crWriteWord (r : SysW) (s : State) (fn : Nat) (useA : Bool) : Out :=
  issueWord s r.mods (fun _ => { opds := if useA then [opdR 1 r.a 1] else [], lat := 3 }) fun x =>
    let v := if useA then (x.t.scalar r.a).toNat else r.imm.toNat
    let f : Flight :=
      { land := x.sd.time + 3, dest := .creg r.cr.toNat fn, len := 8, data := v, mask := 0xFF,
        flags := 0, src := none, readAt := 0 }
    x.done r.mods x.t [f]

def execCrw (r : SysW) (s : State) : Out := crWriteWord r s 1 true
def execCrs (r : SysW) (s : State) : Out := crWriteWord r s 2 true
def execCrc (r : SysW) (s : State) : Out := crWriteWord r s 3 true
def execCrwi (r : SysW) (s : State) : Out := crWriteWord r s 4 false

/-- `ctrr`: team counter n, 0 where none is assigned (R161, R307). -/
def execCtrr (r : SysW) (s : State) : Out :=
  issueWord s r.mods (fun _ => { opds := [opdW 0 r.d 1 true], lat := 3, holds := true }) fun x =>
    x.done r.mods x.t [x.flyScalar r.d 3 (vget x.t.ctrs (r.imm.toNat % 32) 0).toNat 0]

/-! Traps -/

/-- A word that raises its trap after issue, with TRAPPC the next word (R170). -/
def Here.trapAfter (x : Here) (m : Mods) (ti : TrapInfo) : State :=
  if x.k < 4 then (x.done m x.t []).takeTrap x.h x.k ti (nextPc x.pc) else x.trap ti

def execTrap (r : SysW) (s : State) : Out :=
  issueWord s r.mods (fun _ => {}) fun x =>
    x.trapAfter r.mods { code := 0x0A, info := BitVec.ofNat 64 r.imm.toNat }

/-- `brk`: while the context is attached to the debugger it stops the team after this word (R170, R484). -/
def execBrk (r : SysW) (s : State) : Out :=
  issueWord s r.mods (fun _ => {}) fun x =>
    if x.s.pkg.dbgmask.getLsbD x.t.ctx then x.done r.mods { x.t with dbg := true } []
    else x.trapAfter r.mods { code := 0x0B, info := BitVec.ofNat 64 r.imm.toNat }

/-- `tret` (R167). -/
def execTret (r : SysW) (s : State) : Out :=
  issueWord s r.mods (fun _ => {}) fun x =>
    if x.sd.inh then
      x.finish r.mods (x.t.setStrand x.k x.sd.trapReturn) [] x.sd.trappc
    else x.trap { code := 0x0D }

/-- The illegal-instruction trap: the word in TRAPINFO, its reason code in REASON (R88, R162). -/
def execIllegalInstruction (w : Word) (reason : BitVec 8) (s : State) : Out :=
  match s.cur with
  | .strand h k =>
    match s.team? h with
    | some _ => .next (s.trapHere h k { code := 0x01, reason := reason.toNat, info := w })
    | none => .fault .noAgent
  | _ => .fault .noAgent

end Sys2Proof.Machine
end

