-- ==== Sys2Proof/Machine/Promotion.lean ====
section
/-! DEFINITION. Remote promotion (R333–R338): requests at the log arbiter of a core, and the flushes that serve them. -/

namespace Sys2Proof.Machine

open Sys2Proof

/-- The level of a request for a scope entry (R333). -/
def State.requestLevel (s : State) (q : Req) : Nat :=
  match s.team? q.h with
  | some t => s.scopeLevel t (deedOf q.word).scope
  | none => 0

/-- The valid entries that a flush of a level up to a point promotes (R334). -/
def Core.covered (c : Core) (level : Nat) (point : BitVec 32) : List LogEntry :=
  c.validLog.filter fun e => seqBefore e.seq point && decide (e.prom < level)

/-- A request is answered at once: by the team directory for a team that is not resident, and by the arbiter when
nothing is left to promote (R333, R337). -/
def State.promotedAtOnce (s : State) (core : Nat) (q : Req) : Bool :=
  let resident := match s.team? q.handle with
    | some t => t.resident
    | none => false
  !resident || s.requestLevel q = 0 || (((s.core core).covered (s.requestLevel q) (s.core core).relCount).isEmpty)

/-- PROMOTION_REQUEST (R333): the request of `acq.p` with tag n reaches the log arbiter of a core. -/
def execPromotionRequest (core n : Nat) (s : State) : Out :=
  -- what the cycle's local stores have released stands in the log (R332)
  let s := s.logAll
  match s.req? n with
  | none => .next s
  | some q =>
    if q.st ≠ .promotion || handleCore q.handle ≠ core || (s.core core).requests.any (fun r => r.k < 9 && r.tag = n) then .next s
    else if s.promotedAtOnce core q then .next (s.setReq n { q with st := .promoted })
    else
      let r : PromReq := { h := q.h, k := q.k, tag := n, point := (s.core core).relCount, level := s.requestLevel q }
      .next (s.modCore core fun c => { c with requests := c.requests ++ [r] })

/-- Asks for the flush that precedes a team's save, retirement or reported halt (R337), ahead of the requests that wait. -/
def State.askFlush (s : State) (h : Nat) : State :=
  match s.team? h with
  | none => s
  | some t =>
    if t.flushed = .no then
      let c := s.core t.core
      let r : PromReq := { h := h, k := 9, tag := 0, point := c.relCount, level := 2, upto := c.nextNum }
      (s.setTeam h { t with flushed := .asked }).setCore t.core { c with requests := r :: c.requests }
    else s

/-- The team that a request names. -/
def State.named (s : State) (r : PromReq) : Option Nat := if r.k < 9 then (s.req? r.tag).map fun q => q.handle else none

/-- The save of a team begins: its strands stop, its local stores are performed (R65, R298), and the requests that wait for it
at the log stay for its flush (R337). -/
def State.beginSave (s : State) (h : Nat) : State :=
  match s.team? h with
  | none => s
  | some t =>
    ((s.modTeam h fun t => (List.range 5).foldl Team.flushSpills { t with saving := true }).logPerformed h).modCore t.core fun c =>
      { c with requests := c.requests.map fun r => if s.named r = some h then { r with held := true } else r }

/-- The oldest valid entry of the log. -/
def Core.oldest (c : Core) : Option LogEntry :=
  c.validLog.foldl (fun (m : Option LogEntry) e =>
    match m with
    | some x => if seqBefore x.seq e.seq then some x else some e
    | none => some e) none

/-- The level and point of the next flush: a full log's first (R336), then the oldest request's point with the widest
level that waits (R334). -/
def Core.nextFlush (c : Core) : Option (Nat × BitVec 32) :=
  let rs := c.requests.filter fun r => !r.held
  match decide (64 ≤ c.validLog.length) && c.logFull, c.oldest, rs.head? with
  | true, some e, _ => some (2, e.seq)
  | _, _, some r => some (rs.foldl (fun m q => max m q.level) 0, r.point)
  | _, _, none => none

/-- An access that a flush stalled is still to be performed (R335); one that has come to wait for something else is not. -/
def State.owedStill (s : State) (core : Nat) (x : Owed) : Bool :=
  match x with
  | .word h k pc => (s.team? h).any fun t =>
      let sd := t.strand k
      t.resident && !t.halted && !t.dbg && sd.pc = pc && sd.issued = .held && sd.wait = .none && t.accSerial.isNone
  | .engine h q => (s.eng? h q).any fun e => (!e.p.out.isEmpty || !e.p.reds.isEmpty) && e.x.fixups.length < 16
  | .request tag => (s.req? tag).any fun q => q.st = .start
  | .retry num => (s.core core).path.any fun e => e.num = num && e.target = .fault retrySerial
  | .claim n => (tget s.claims n).any fun c => c.serial.isNone && (match c.st with
      | .start => true
      | .coded _ _ => true
      | .written => true
      | _ => false)
  | .back h => (s.team? h).any fun t => !t.wbLeft.isEmpty && !t.wbPosted && t.wbSerial.isNone

/-- FLUSH_START (R334, R335): once the accesses that the last flush stalled are performed, the lines of the covered entries
are marked, and every write of the path is sent with the tag of this flush (R323). -/
def execFlushStart (core : Nat) (s : State) : Out :=
  let c := s.core core
  match c.flush, c.nextFlush with
  | none, some (level, point) =>
    if s.leadOk (dieOf core) && !c.owed.any (s.owedStill core) then
      let (_, s) := s.tagPath core
      let marks := (c.covered level point).foldl (fun m e => m ||| e.summary) (0 : BitVec 256)
      let must := (c.covered level point).foldl (fun m e => max m e.upto) 0
      let f : Flush :=
        { level := level, point := point, phase := .localPart, marks := marks, upto := c.nextNum, must := must,
          began := s.cycle }
      .next (s.modCore core fun c => { c with flush := some f, owed := [] })
    else .next s
  | _, _ => .next s

/-- FLUSH_LOCAL_PHASE_END (R334, R335): the marks are cleared. -/
def execFlushLocalPhaseEnd (core : Nat) (s : State) : Out :=
  match (s.core core).flush with
  | some f =>
    if f.phase = .localPart then
      .next (s.modCore core fun c => { c with flush := some { f with phase := .remotePart, marks := 0 } })
    else .next s
  | none => .next s

/-- A waiting request that a flush covers (R334); the flush before a team's end covers its writes up to then (R337). -/
def PromReq.answeredBy (r : PromReq) (f : Flush) : Bool :=
  seqBefore r.point f.point && decide (r.level ≤ f.level) && decide (r.upto ≤ f.upto)

/-- The requests that the end of a flush answers: those it covers, but of a request that waited when the save of its team began
the answer waits for the flush of that save (R337). -/
def State.answeredNow (s : State) (c : Core) (f : Flush) (r : PromReq) : Bool :=
  if r.held then c.requests.any fun x => x.k = 9 && s.named r = some x.h && x.answeredBy f else r.answeredBy f

/-- The answer to one request. -/
def State.answer (s : State) (r : PromReq) : State :=
  if r.k < 9 then
    match s.req? r.tag with
    | some q => s.setReq r.tag { q with st := .promoted }
    | none => s
  else s.modTeam r.h fun t => { t with flushed := .done }

/-- Whether every write that a flush waits for has been performed (R334, R401). -/
def Core.flushed (c : Core) (f : Flush) : Bool :=
  c.path.all fun e =>
    match e.target with
    | .fault _ => f.must ≤ e.num
    | _ => f.upto ≤ e.num

/-- An entry after a flush has promoted it: PROM takes the level, and level 2 frees it (R334). -/
def LogEntry.promoted (e : LogEntry) (f : Flush) : LogEntry :=
  if e.valid && seqBefore e.seq f.point && e.prom < f.level then { e with prom := f.level, valid := f.level < 2 } else e

/-- FLUSH_REMOTE_PHASE_END (R334, R325): once every write of the flush has been performed and acknowledged, the covered
entries are promoted (level 2 frees them) and the covered requests are answered. -/
def execFlushRemotePhaseEnd (core : Nat) (s : State) : Out :=
  let c := s.core core
  match c.flush with
  | some f =>
    if f.phase = .remotePart && c.flushed f then
      let (yes, no) := c.requests.partition (s.answeredNow c f)
      .next (yes.foldl State.answer
        (s.setCore core { c with flush := none, log := c.log.map fun e => e.promoted f, requests := no }))
    else .next s
  | none => .next s

end Sys2Proof.Machine
end

