-- ==== Sys2Proof/Machine/Teams.lean ====
section
/-! DEFINITION. Readiness and task generations (R351–R353), what fits on a core (R355), the work a core serves next (R358), the
dispatch of teams (R26, R63, R344, R354), their retirement (R68, R361, R373) and the end of launches (R361–R363). -/

namespace Sys2Proof.Machine

open Sys2Proof

def State.modLaunch (s : State) (n : Nat) (f : Launch → Launch) : State :=
  match s.launch? n with
  | some l => s.setLaunch n (f l)
  | none => s

def Launch.modTask (l : Launch) (t : Nat) (f : Task → Task) : Launch := { l with tasks := l.tasks.modify t f }

/-! ## Readiness -/

/-- The descriptor that a binding loads at a generation (R52, R369). -/
def Binding.fdAt (b : Binding) (sx : Sextant) (gen : BitVec 32) : BitVec 64 :=
  match b with
  | .unbound => 0
  | .lit v => v
  | .entry e => ((((tget sx.entries e).getD {}).fdAt gen.toNat)).getD 0

/-- COLS of a tile of row length RL under a descriptor (R353). -/
def colsOf (fd : BitVec 64) (rl : Nat) : Nat :=
  let d := fdOf fd.toNat
  if !fdUsable fd.toNat then rl
  else if d.kind ≠ 1 then rl / kindBytes d.kind
  else if d.bs = 0 then 8 * (rl / d.w)
  else d.block * (rl / (d.block * d.w / 8 + 1))

/-- ROWS and COLS of a tile, or none when it has no shape (R353). COLS has 16 bits (R58): of a larger number those are kept (log
entry 44). -/
def tileShape (size height : Nat) (fd : BitVec 64) : Option (Nat × Nat) :=
  let h := if height = 0 then 32 else height
  let cols := colsOf fd (size / h) % 65536
  if size % h ≠ 0 || cols = 0 then none else some (h, cols)

/-- The shapes of a task's tiles at a generation. -/
def Task.shapesAt (t : Task) (sx : Sextant) (gen : BitVec 32) : Option (List (Nat × Nat)) :=
  allSome ((t.image.tiles.zipIdx).map fun e =>
    tileShape e.1.size (t.heights.getD e.2 0) ((t.image.binds.getD e.1.fd .unbound).fdAt sx gen))

/-- The extent that an EXT field gives (R352). -/
def extentOf (dims : List Nat) (shapes : List (Nat × Nat)) (e : Nat) : Nat :=
  if bit e 31 then
    let (r, c) := shapes.getD (bits e 2 6) (1, 1)
    ceilDiv (dims.getD (bits e 0 2) 0) (if bit e 8 then c else r)
  else e

/-- TASK_READY (R351–R353, R377): every predecessor has completed and no step or digest holds the task; it takes the
context's generation, its shapes and its extents, or the launch fails. -/
def execTaskReady (n t : Nat) (s : State) : Out :=
  match s.launch? n with
  | none => .next s
  | some l =>
    match l.tasks[t]?, s.ctx? l.ctx with
    | some tk, some c =>
      let done := fun i => (l.tasks[i]?).any fun p => p.st = .done
      let held := (l.afterStep && c.sextant.pend.isSome) || (l.afterDigest && c.digest)
      if l.fate ≠ .running || tk.st ≠ .waiting || !tk.preds.all done || held then .next s
      else
        let fail := fun d => s.setLaunch n { l with fate := .refused d t }
        let gen := c.sextant.gen
        match tk.shapesAt c.sextant gen with
        | none => .next (fail 9)
        | some shapes =>
          let exts := tk.exts.map (extentOf l.dims shapes)
          if (exts.zip l.fws).any fun e => 2 ^ e.2 < e.1 then .next (fail 10)
          else
            let tk := { tk with st := .ready, gen := gen, extents := exts, shapes := shapes, readyAt := s.cycle }
            let tk := if tk.total = 0 then { tk with st := .done } else tk
            let l := l.modTask t fun _ => tk
            let l := if l.tasks.all fun k => k.st = .done then { l with fate := .completed } else l
            .next (s.setLaunch n l)
    | _, _ => .next s

/-! ## Resources (R355) -/

/-- What a team takes of its core. -/
structure Need where
  regsz : Nat
  wbg : Nat
  abg : Nat
  cbg : Nat
  spg : Nat
  ntiles : Nat
  deriving DecidableEq, Repr

def TeamImage.need (i : TeamImage) : Need := ⟨i.regsz, i.wbg, i.abg, i.cbg, i.spg, i.ntiles⟩
def Team.need (t : Team) : Need := ⟨t.regsz, t.wbg, t.abg, t.cbg, t.spg, t.ntiles⟩

/-- The lowest place for a window of n entries in a tile table of 64. -/
def tileRoom (used : List (Nat × Nat)) (n : Nat) : Option Nat :=
  (List.range (65 - n)).find? fun b => used.all fun u => u.2 = 0 || n = 0 || b + n ≤ u.1 || u.1 + u.2 ≤ b

/-- A free team slot of a core's teams. -/
def slotRoom (ts : List Team) : Option Nat := (List.range 4).find? fun i => !ts.any fun t => t.slot? = some i

/-- The slot and the tile window that work with a need takes beside the teams `ts`, when it fits. -/
def roomFor (ts : List Team) (n : Need) : Option (Nat × Nat) :=
  let sum := fun (f : Team → Nat) => (ts.map f).foldl (· + ·) 0
  if sum Team.regsz + n.regsz ≤ 32 && sum Team.wbg + n.wbg ≤ 128 && sum Team.abg + n.abg ≤ 64
      && sum Team.cbg + n.cbg ≤ 64 && sum Team.spg + n.spg ≤ 128 then
    match slotRoom ts, tileRoom (ts.map fun t => (t.tileBase, t.ntiles)) n.ntiles with
    | some i, some b => some (i, b)
    | _, _ => none
  else none

/-! ## Work for a core (R350, R355, R358) -/

/-- The launch before it in its queue lets a launch dispatch (R350). -/
def State.gateOpen (s : State) (l : Launch) : Bool :=
  l.ovl || !s.launches.any fun e => e.2.ctx = l.ctx && e.2.queue = l.queue && e.2.index + 1 = l.index

/-- The next item of a launch on a core: task and item (R354, R355). -/
def Launch.nextItem (l : Launch) (core : Nat) : Option (Nat × Nat) :=
  (l.tasks.zipIdx).findSome? fun e =>
    if e.1.st = .ready then
      let (a, z) := l.itemsOf e.1 core
      let n := (tget e.1.started core).getD a
      if n < z then some (e.2, n) else none
    else none

/-- A launch may dispatch: its context runs (R404) and the launch before it lets it (R350). -/
def State.mayDispatch (s : State) (l : Launch) : Bool := ((s.ctx? l.ctx).any fun c => c.st = .running) && s.gateOpen l

/-- The next item of a launch that a core may dispatch. -/
def State.itemFor (s : State) (core n : Nat) : Option (Launch × Task × Nat × Nat) :=
  match s.launch? n with
  | none => none
  | some l =>
    if l.fate = .running && !(s.core core).retired && s.mayDispatch l then
      match l.nextItem core with
      | some (t, i) => (l.tasks[t]?).map fun tk => (l, tk, t, i)
      | none => none
    else none

/-- Work that waits on a core: a requeued team, or the next item of a launch. -/
inductive Work where
  | team (h : Nat)
  | item (n : Nat)
  deriving DecidableEq, Repr

/-- The priority steps that the next item of a launch has gained on a core (R358). -/
def Launch.boost (l : Launch) (core t : Nat) : Nat :=
  ((l.boosts.find? fun b => b.1 = core && b.2.1 = t).map (·.2.2)).getD 0

/-- Requeued teams of a core with their priority, in the order in which their conditions came to hold. -/
def State.requeuedOn (s : State) (core : Nat) : List (Nat × Nat × Need) :=
  let back := fun (t : Team) => match (s.ctx? t.ctx).map (·.st) with
    | some .running => true
    | some .restoring => true
    | _ => false
  let l := (s.teams.map (·.2)).filter fun t => t.core = core && t.requeued.isSome && back t
  let l := l.mergeSort fun a b => a.requeued.getD 0 ≤ b.requeued.getD 0
  l.map fun t => (min 3 (t.pri + (s.cycle - t.requeued.getD 0) / 65536), t.handle, t.need)

/-- The priority at which the next item of a launch waits on a core (R358). -/
def Launch.priOn (l : Launch) (core t : Nat) : Nat := min 3 (l.pri + l.boost core t)

/-- Launches with an item for a core, with its priority; those of one priority round-robin after the last one served at it. -/
def State.itemsOn (s : State) (core : Nat) : List (Nat × Nat × Need) :=
  let l := s.launches.filterMap fun e => (s.itemFor core e.1).map fun p => (p.1.priOn core p.2.2.1, e.1, p.2.1.image.need)
  let turn := fun (e : Nat × Nat × Need) => vget (s.core core).turns e.1 0
  (l.filter fun e => turn e ≤ e.2.1) ++ l.filter fun e => e.2.1 < turn e

/-- Work waiting on a core in the order of R358, with its need. -/
def State.workOn (s : State) (core : Nat) : List (Work × Need) :=
  [3, 2, 1, 0].flatMap fun p =>
    ((s.requeuedOn core).filter fun e => e.1 = p).map (fun e => (Work.team e.2.1, e.2.2))
      ++ ((s.itemsOn core).filter fun e => e.1 = p).map (fun e => (Work.item e.2.1, e.2.2))

/-- The work that a core dispatches or restores next: the first that fits. -/
def State.nextWork (s : State) (core : Nat) : Option Work :=
  let ts := s.teamsOf core
  ((s.workOn core).find? fun w => (roomFor ts w.2).isSome).map (·.1)

/-- The cycle since which a task's items wait for a slot: it is ready and its launch may dispatch (R350, R358). -/
def Launch.waitsFrom (l : Launch) (t : Task) : Nat := max t.readyAt l.openAt

/-- PRIORITY_AGING (R358): the next item of launch n for a core has waited 65,536 cycles more, and counts one priority
higher. -/
def execPriorityAging (core n : Nat) (s : State) : Out :=
  match s.itemFor core n with
  | none => .next s
  | some (l, tk, t, _) =>
    let b := l.boost core t
    if l.waitsFrom tk + 65536 * (b + 1) ≤ s.cycle && l.pri + b < 3 then
      .next (s.setLaunch n { l with boosts := (l.boosts.filter fun x => !(x.1 = core && x.2.1 = t)) ++ [(core, t, b + 1)] })
    else .next s

/-! ## Dispatch -/

/-- The level indices of item n, by level (R354). -/
def levelIndices (perm extents : List Nat) (n : Nat) : List (Nat × Nat) :=
  (perm.reverse.foldl (fun (acc : Nat × List (Nat × Nat)) k =>
    let e := max 1 (extents.getD k 1)
    (acc.1 / e, (k, acc.1 % e) :: acc.2)) (n, [])).2

/-- WID of an item (R344). -/
def widOf (l : Launch) (t : Task) (n : Nat) : BitVec 64 :=
  let s := l.fws.foldl (· + ·) 0
  BitVec.ofNat 64 (((levelIndices t.perm t.extents n).map fun e =>
    e.2 * 2 ^ ((l.fws.take e.1).foldl (· + ·) 0)).foldl (· + ·) (l.arg.toNat * 2 ^ s))

/-- A tile entry at dispatch (R58, R286, R290). -/
def tileOfImage (x : TileImg) (shape : Nat × Nat) (fd : BitVec 64) (gen : BitVec 32) : Tile :=
  let t : Tile :=
    { st := .empty, buf := x.buf, skew := x.skew, off := x.off, rows := shape.1, cols := shape.2, fd := x.fd, gen := gen }
  { t with skew := x.skew && x.off % ringWidth x.buf = 0 && t.rowLen fd % ringWidth x.buf = 0 }

/-- The team of item i of task t, in slot `slot` of its core, at dispatch (R26, R29, R63). -/
def teamOfItem (s : State) (c : Context) (n : Nat) (l : Launch) (tk : Task) (t i core slot tiles : Nat) : Team :=
  let im := tk.image
  let fds := Vector.ofFn fun (k : Fin 16) => (im.binds.getD k.val .unbound).fdAt c.sextant tk.gen
  let wid := widOf l tk i
  let sd := fun k =>
    let e := im.ents.getD k 0
    { pc := BitVec.ofNat 64 e, live := e ≠ 0 : Strand }
  let view := fun k => viewStored k (im.views.getD k 0)
  { handle := mkHandle l.ctx core ((tget c.serials core).getD 0), place := .slot slot, launch := n, task := t, item := i,
    pri := l.pri, regsz := im.regsz, vs := view 0, vv := view 1, va := view 2, vm := view 3, wid := wid, gen := tk.gen,
    lfsr := BitVec.ofNat 32 (seed32 l.seed.toNat wid.toNat t), wbg := im.wbg, abg := im.abg, cbg := im.cbg, spg := im.spg,
    ntiles := im.ntiles, fds := fds,
    binds := Vector.ofFn fun (k : Fin 16) => match im.binds.getD k.val .unbound with
      | .entry e => some e
      | _ => none,
    tiles := (im.tiles.zipIdx).map fun e =>
      tileOfImage e.1 (tk.shapes.getD e.2 (0, 0)) (vget fds e.1.fd 0) tk.gen,
    maps := tk.maps, trapEnt := BitVec.ofNat 64 im.trapEnt, gb := tk.gb,
    strands := { s0 := sd 0, s1 := sd 1, s2 := sd 2, s3 := sd 3, acc := sd 4 }, accStopped := im.ents.getD 4 0 = 0,
    grans := Vector.replicate 16 { touched := s.cycle }, tileBase := tiles }

/-- An entry point that is not a multiple of 8 raises the instruction-alignment trap at dispatch, which halts the team
(R70, R169): in its strand; for the trap entry point, which is no strand's, in the lowest live one (log entry 81). -/
def State.entryTraps (s : State) (h : Nat) : State :=
  match s.team? h with
  | none => s
  | some t =>
    let bad := fun k => (t.strand k).pc % 8 ≠ 0
    let ti := fun (pc : BitVec 64) => ({ code := 0x02, info := pc } : TrapInfo)
    let trap := fun (t : Team) k pc => t.setStrand k ((t.strand k).trapRegs (ti pc) (t.strand k).pc)
    let t' := (List.range 4).foldl (fun u k => if bad k then trap u k (t.strand k).pc else u) t
    if (List.range 4).any bad then (s.setTeam h t').haltTeam h
    else if t.trapEnt % 8 ≠ 0 then (s.setTeam h (trap t t.lowest t.trapEnt)).haltTeam h
    else if bad 4 then s.accessTrap h (ti (t.strand 4).pc)
    else s

/-- The dispatch of a team acquires all that was released before it (R330, R350). -/
def State.dispatchAcquires (s : State) (h : Nat) : State := (List.range 5).foldl (fun s k => s.acquires h k) s

/-- TEAM_DISPATCH (R26, R355): the next item of launch n for a core becomes a team in a free slot, when its needs are free
there. -/
def execTeamDispatch (core n : Nat) (s : State) : Out :=
  match s.itemFor core n with
  | none => .next s
  | some (l, tk, t, i) =>
    match roomFor (s.teamsOf core) tk.image.need, s.ctx? l.ctx with
    | some (slot, tiles), some c =>
      let team := teamOfItem s c n l tk t i core slot tiles
      let s := s.setLaunch n (l.modTask t fun k => { k with started := tput k.started core (i + 1) })
      let s := s.setCtx l.ctx { c with serials := tput c.serials core (((tget c.serials core).getD 0 + 1) % 65536) }
      let s := s.modCore core fun k => { k with turns := vset k.turns (l.priOn core t) (n + 1), lastBusy := s.cycle }
      .next (((s.setTeam team.handle team).dispatchAcquires team.handle).entryTraps team.handle)
    | _, _ => .next s

/-! ## The end of a team (R68, R296, R337, R361, R373) -/

/-- The team's work is over: it has stopped and its queues are closed, or it is halted, its results have landed and nothing
is in progress (R68, R169). -/
def Team.isOver (t : Team) : Bool :=
  let idle := [t.q0, t.q1, t.q2].all fun x => x.prog.isNone && (x.chain.isNone || t.halted)
  if t.halted then idle && (!t.resident || (List.range 5).all fun k => (t.strand k).flights.isEmpty)
  else t.liveStrands.isEmpty && t.accStopped && idle && t.q0.closed && t.q1.closed && t.q2.closed && t.resident && !t.saving

/-- Adds a statistics set to another; the sums stop at 2^64 − 1 (R372, R373). -/
def Stats.add (a b : Stats) : Stats :=
  { n := satAdd a.n b.n.toNat, nz := satAdd a.nz b.nz.toNat, qerr := satAdd a.qerr b.qerr.toNat,
    satn := satAdd a.satn b.satn.toNat, rscn := satAdd a.rscn b.rscn.toNat, ufn := satAdd a.ufn b.ufn.toNat }

/-- Each bound set of the team is added to the unit's accumulators of its entry (R373). -/
def State.mergeStats (s : State) (t : Team) : State :=
  s.modCtx t.ctx fun c =>
    { c with sextant := { c.sextant with
      entries := (List.range 16).foldl (fun l k =>
        match vget t.binds k none with
        | some e =>
          let x := (tget l e).getD {}
          tput l e { x with acc := x.acc.add (vget t.stats k {}) }
        | none => l) c.sextant.entries } }

/-- The team is gone: locks, requests, claims, fills and tags of it end, its failed write-backs are reported with its launch, and
its handle names a retired team. -/
def State.freeTeam (s : State) (t : Team) : State :=
  let s := s.discardLoads t.handle
  let s := { s with reqs := s.reqs.filter fun e => e.2.h ≠ t.handle }
  let s := t.fills.foldl (fun s f => s.abandonClaims (.fill t.handle f.granule)) (s.cleanBack t.handle)
  let s := match s.launchOf t with
    | some l => s.modCtx t.ctx fun c =>
        { c with wbReports := c.wbReports ++ t.wbFailed.map fun g => (l.queue, l.index, t.handle, g) }
    | none => s
  let s := s.modCtx t.ctx fun c => { c with dblk := { c.dblk with stopping := c.dblk.stopping.filter (· ≠ t.handle) } }
  let s := { s with tagOf := s.tagOf.filter fun e => e.1 / 2 ^ 56 ≠ t.handle + 1 }
  s.delTeam t.handle

/-- The item of a retired team is counted: its task and its launch may be complete (R361). -/
def State.itemRetired (s : State) (t : Team) : State :=
  s.modLaunch t.launch fun l =>
    let l := l.modTask t.task fun k =>
      let k := { k with retired := k.retired ++ [t.item] }
      if k.retired.length = k.total then { k with st := .done } else k
    if l.fate = .running && l.tasks.all (fun k => k.st = .done) then { l with fate := .completed } else l

/-- Every write of the team, and every write that it has acquired, is performed: a task's completion releases them at package
scope (R330). -/
def State.writesDone (s : State) (t : Team) : Bool :=
  let acq := ((List.range 5).map fun k => (t.strand k).acqUpto).foldl max 0
  !(s.core t.core).path.any fun e => e.h = t.handle || decide (e.num < acq)

/-- The retirement takes effect: the release at package scope of what the team wrote is a tagged event (R323, R330), its
statistics are merged, and a halted team is not counted as retired. -/
def State.retireNow (s : State) (t : Team) : State :=
  let s := ((s.newTag t.core).2.mergeStats t).freeTeam t
  if t.halted then s else s.itemRetired t

/-- TEAM_RETIRE (R68, R296, R330, R337): the end of a team goes on: dirty mapped granules are written back, those dirtied
meanwhile too; the promotion flush completes; every write has been performed; and the team retires. -/
def execTeamRetire (h : Nat) (s : State) : Out :=
  match s.team? h with
  | none => .next s
  | some t =>
    if !t.isOver then .next s
    else if !t.ending then .next (s.setTeam h { t with ending := true, wbLeft := t.toWriteBack })
    else if !t.wbLeft.isEmpty then .next (s.writeBackStep h)
    else if !t.toWriteBack.isEmpty then .next (s.setTeam h { t with wbLeft := t.toWriteBack })
    else if t.resident && t.flushed ≠ .done then .next (s.askFlush h)
    else if !s.writesDone t || !s.leadOk (dieOf t.core) then .next s
    else .next (s.retireNow t)

/-! ## The end of a launch (R361–R363) -/

/-- Registers of the reported team: zero for a strand with no trap (R363). -/
def trapWords (l : List (BitVec 64)) : Nat :=
  ofElems 8 ((List.range 12).map fun i =>
    if (l.getD (3 * (i / 3)) 0) = 0 then 0 else (l.getD i 0).toNat)

/-- The completion record of a launch that has ended (R363). -/
def Launch.record (l : Launch) : Nat :=
  let mk := fun status detail handle task traps =>
    status + detail * 2 ^ 32 + handle * 2 ^ 64 + task * 2 ^ 96 + traps * 2 ^ 128
  match l.fate with
  | .running => 0
  | .completed => mk 1 0 0xFFFFFFFF 0xFFFFFFFF 0
  | .failed h t traps => mk 2 0 h t (trapWords traps)
  | .refused d t => mk 3 d 0xFFFFFFFF t 0

/-- NOTIFYS of NOTIFYH is raised by one; a retired or invalid handle drops it (R361). -/
def State.notifyLaunch (s : State) (l : Launch) : State :=
  if l.fate = .completed && l.notifyS ≠ 0 && handleCtx l.notifyH = l.ctx && handleCore l.notifyH < 576 then
    s.modTeam l.notifyH fun t => t.slotChange (.add l.notifyS 1)
  else s

/-- Writes the record of an ended launch, raises its slot and its interrupt, and removes it from the launch table. -/
def State.reportLaunch (s : State) (n : Nat) (l : Launch) : State :=
  if l.wait.serial.isSome then s
  else
    let past := fun (s : State) => { ((s.notifyLaunch l).dropUnitOp l.ctx 4 l.compl 128 true) with launches := tdel s.launches n }
    if l.compl = 0 then past s
    else
      match s.unitWrite l.ctx 4 l.wait l.compl 128 l.record with
      | (.ok _, s) => (past s).interrupt (128 + l.ctx)
      | (.later, s) => s
      | (.serial k, s) => s.setLaunch n { l with wait := { l.wait with serial := some k } }
      | (.fault, s) => past s

/-- LAUNCH_FAIL (R361, R362): a launch that has ended: its teams halt, and once none is left its record is written. A
launch that has completed is reported in the same way. -/
def execLaunchFail (n : Nat) (s : State) : Out :=
  match s.launch? n with
  | none => .next s
  | some l =>
    if l.fate = .running then .next s
    else
      let ts := (s.teams.map (·.2)).filter fun t => t.launch = n
      if ts.isEmpty then .next (s.reportLaunch n l)
      else .next (ts.foldl (fun s t => s.haltTeam t.handle) s)

end Sys2Proof.Machine
end

