-- ==== Sys2Proof/Machine/SaveArea.lean ====
section
/-! DEFINITION. The save area (R409): its contents as pieces, the writing of a team into its area, the copy kept there
while the team is set aside (R67), and the loading of a team from it. What the layout has no place for (log entry 7) stays
in the team directory's own record. -/

namespace Sys2Proof.Machine

open Sys2Proof

/-- A piece of a save area: offset, length in bytes, value. -/
abbrev Piece3 := Nat × Nat × Nat

def areaSize : Nat := 2 ^ 21

/-- The address of save area i of a context. -/
def Context.area (c : Context) (i : Nat) : Nat := bits c.savepool.toNat 21 31 * 2 ^ 21 + i * areaSize

/-! ## The strand records -/

/-- WKIND and WARG of a strand's condition (R409). -/
def Strand.wkind (x : Strand) : Nat × Nat :=
  if !x.live then (14, 0)
  else
    match x.wait with
    | .none => (0, 0)
    | .sig n => (1, n)
    | .tile n => (2, n)
    | .queue q _ => (3, q)
    | .mer _ => (4, 0)
    | .yield => (5, 0)
    | .reply _ => (6, 0)
    | .answered _ => (6, 0)
    | .fence _ _ => (7, 0)
    | .drained q _ => (7, q)
    | .barrier b _ _ => (7, b)
    | .popEmpty q _ => (8, q)
    | .pushFull q => (9, q)
    | .fe _ _ _ => (10, 0)
    | .granule _ => (11, 0)
    | .queueRoom q => (12, q)
    | .sync => (13, 0)
    | .fetch _ => (0, 0)

/-- WSEQ. -/
def Strand.wseq (x : Strand) : Nat :=
  match x.wait with
  | .queue _ n => n.toNat
  | .barrier _ _ n => n.toNat
  | _ => 0

/-- FSER: the serial that a fetch or a request of the strand waits on. -/
def State.fser (s : State) (x : Strand) : Nat :=
  match x.wait with
  | .fetch n => n
  | .reply n =>
    match s.req? n with
    | some q => (match q.st with
      | .faultPath k => k
      | _ => 0xFFFFFFFF)
    | none => 0xFFFFFFFF
  | _ => 0xFFFFFFFF

/-- RTAG and RDONE. -/
def Strand.rtag (x : Strand) : Nat × Nat :=
  match x.wait with
  | .reply n => (n, 0)
  | .answered n => (n, 1)
  | _ => (0xFFFFFFFF, 0)

/-- The results in flight that have a snapshot entry: all but the writes of control registers. -/
def Strand.held (x : Strand) : List Flight :=
  x.flights.filter fun f => match f.dest with
    | .creg _ _ => false
    | _ => true

def predPieces (o : Nat) (x : Strand) : List Piece3 := (List.range 7).map fun i => (o + 16 * i, 16, (vget x.preds i 0).toNat)

/-- A strand record at an offset. -/
def State.strandRecord (s : State) (o : Nat) (x : Strand) : List Piece3 :=
  let (kind, arg) := x.wkind
  let (tag, done) := x.rtag
  [(o, 8, x.pc.toNat), (o + 8, 8, x.time), (o + 0x10, 8, x.cause.toNat), (o + 0x18, 8, x.info.toNat),
   (o + 0x20, 8, x.trappc.toNat), (o + 0x28, 2, x.held.length), (o + 0x2C, 4, s.fser x), (o + 0x30, 1, kind),
   (o + 0x31, 1, arg), (o + 0x32, 2, x.wseq), (o + 0x34, 4, tag), (o + 0x38, 1, done)] ++ predPieces (o + 0x90) x

/-! ## Snapshot entries (R406) -/

/-- Bytes of a snapshot entry with its head. -/
def snapSize (len : Nat) : Nat := 16 + 16 * ceilDiv len 16

/-- The entries of a strand, packed from an offset. -/
def snapPieces (time : Nat) : Nat → List Flight → List Piece3
  | _, [] => []
  | o, f :: r =>
    let (off, kind, six) := match f.dest with
      | .reg off => (off, 0, 0)
      | .pred n => (0, 1, n)
      | .push q p => (0, 2, q % 2 * 16 + p % 16)
      | .creg _ _ => (0, 0, 0)
    [(o, 2, off), (o + 2, 2, f.len), (o + 4, 1, f.land - time), (o + 5, 1, kind), (o + 6, 1, six),
     (o + 8, 2, f.flags.toNat), (o + 16, f.len, f.data)] ++ snapPieces time (o + snapSize f.len) r

/-- The same entries read back; the enabled bytes of each are the directory's own. -/
def loadSnaps (m : Mem) (time : Nat) : Nat → Nat → List Flight → List Flight
  | 0, _, _ => []
  | n + 1, o, old =>
    let len := Mem.readN m (o + 2) 2
    let kind := Mem.readN m (o + 5) 1
    let full := if kind = 1 then ones 128 else ones len
    let dest := match old.head?.map (·.dest), kind with
      | some (.push q p), 2 => .push q p
      | _, 1 => .pred (Mem.readN m (o + 6) 1 % 8)
      | _, 2 => .push (Mem.readN m (o + 6) 1 / 16 % 2) (Mem.readN m (o + 6) 1 % 16)
      | _, _ => .reg (Mem.readN m o 2)
    let f : Flight :=
      { land := time + Mem.readN m (o + 4) 1, dest := dest, len := len, data := Mem.readN m (o + 16) len,
        mask := (old.head?.map (·.mask)).getD full, flags := BitVec.ofNat 64 (Mem.readN m (o + 8) 2), src := none, readAt := 0 }
    f :: loadSnaps m time n (o + snapSize len) (old.drop 1)

/-- The head of an entry is malformed (R13, R409): a reserved byte that is not 0, a kind with no meaning, a length outside its
range. -/
def snapBad (m : Mem) (o : Nat) : Bool :=
  let kind := Mem.readN m (o + 5) 1
  let len := Mem.readN m (o + 2) 2
  let six := Mem.readN m (o + 6) 1
  Mem.readN m (o + 7) 1 ≠ 0 || Mem.readN m (o + 10) 6 ≠ 0 || 2 < kind || len = 0 || 512 < len || (kind = 0 && six ≠ 0)

/-- Some head of a strand's entries is malformed. -/
def snapsBad (m : Mem) : Nat → Nat → Bool
  | 0, _ => false
  | n + 1, o => snapBad m o || snapsBad m n (o + snapSize (Mem.readN m (o + 2) 2))

/-! ## The other contents -/

/-- Pointers of a queue: head, reserved and tail, its oldest entry being entry 0 of its region. -/
def pointers (total ready : Nat) : Nat := total * 2 ^ 16 + ready * 2 ^ 32

/-- A tile-table entry (R58). -/
def Tile.pack (x : Tile) : Nat :=
  let st := match x.st with
    | .empty => 0
    | .filling => 1
    | .ready => 2
    | .draining => 3
  st + x.buf * 2 ^ 2 + (if x.skew then 2 ^ 5 else 0) + x.off * 2 ^ 8 + x.rows % 65536 * 2 ^ 32 + x.cols % 65536 * 2 ^ 48
    + x.fd * 2 ^ 64 + x.gen.toNat * 2 ^ 80

/-- A tile entry with the fields of 16 bytes. -/
def Tile.load (x : Tile) (v : Nat) : Tile :=
  let st : TileState := if bits v 0 2 = 0 then .empty else if bits v 0 2 = 1 then .filling else if bits v 0 2 = 2 then .ready else .draining
  { x with
    st := st, buf := bits v 2 3, skew := bit v 5, off := bits v 8 19, rows := bits v 32 16,
    cols := bits v 48 16, fd := bits v 64 4,
    gen := BitVec.ofNat 32 (bits v 80 32) }

/-- A map-table entry (R291). -/
def MapEntry.pack (e : MapEntry) : Nat :=
  1 + (if e.wbk then 2 else 0) + (if e.tagged then 4 else 0) + e.sxe * 2 ^ 8 + e.spg0 * 2 ^ 32 + e.ng * 2 ^ 40 + e.va * 2 ^ 64

def bitsOfList (l : List Nat) : Nat := l.foldl (fun acc g => acc ||| 2 ^ g) 0
def listOfBits (n x : Nat) : List Nat := (List.range n).filter (bit x)

def wordsNat (l : List Word) : Nat := ofElems 8 (l.map BitVec.toNat)

/-- A fix-up entry in 16 bytes: address, length, direction and refusal, sequence number, serial. -/
def Fixup.pack (e : Fixup) : Nat :=
  e.seg.va + e.seg.len * 2 ^ 64 + (if e.write then 2 ^ 78 else 0) + (if e.refused then 2 ^ 79 else 0)
    + e.seq % 65536 * 2 ^ 80 + (e.serial.getD 0xFFFFFFFF) * 2 ^ 96

/-- STATE of a save area. -/
def Team.areaState (t : Team) : Nat :=
  match t.place with
  | .swapped _ => 1
  | .saved _ => 2
  | _ => 0

/-- The header without the strand records (R409). -/
def Team.headerPieces (t : Team) : List Piece3 :=
  let word := fun (o : Nat) (v : BitVec 64) => (o, 8, v.toNat)
  let acc := t.strands.acc
  [(0, 4, t.handle), (4, 1, t.areaState), word 0x08 t.wid, (0x10, 8, t.gen.toNat), (0x18, 8, t.teamctl), word 0x20 t.flags,
   (0x28, 8, t.lfsr.toNat), (0x30, 8, t.bufw), word 0x38 t.vs, word 0x40 t.vv, word 0x48 t.va, word 0x50 t.vm]
  ++ (List.range 16).map (fun k => word (0x70 + 8 * k) (vget t.fds k 0))
  ++ [word 0x500 acc.pc, (0x508, 4, t.accSerial.getD 0xFFFFFFFF)]
  ++ (List.range 4).map (fun q => (0x510 + 8 * q, 6, pointers (vget t.lqs q []).length (filled (vget t.lqs q []))))
  ++ (List.range 2).map (fun q => (0x530 + 8 * q, 6,
      pointers (vget t.sqs q []).length ((vget t.sqs q []).takeWhile fun e => e.data.isSome).length))
  ++ predPieces 0x540 acc
  ++ [word 0x5B0 acc.cause, word 0x5B8 acc.info, word 0x5C0 acc.trappc]
  ++ (List.range 64).map (fun n => (0x600 + 4 * n, 4, (vget t.slots n 0).toNat))
  ++ (List.range 16).map (fun n => (0x700 + 2 * n, 2, (vget t.bars n 0).toNat))
  ++ (List.range 3).flatMap (fun q =>
      let x := t.queue q
      let o := 0x720 + 0x20 * q
      [(o, 2, x.accept.toNat), (o + 2, 1, x.cmds.length), (o + 3, 1, if x.stopped then 1 else 0),
       (o + 4, 1, if x.closed then 1 else 0), (o + 5, 1, x.fixups.length)])
  ++ (List.range 14).map (fun n => word (0x780 + 8 * n) (vget t.ctrs n 0))
  ++ (List.range 16).flatMap (fun k =>
      let x := vget t.stats k {}
      let o := 0x800 + 64 * k
      let b := vget t.binds k none
      [word o x.n, word (o + 8) x.nz, word (o + 16) x.qerr, word (o + 24) x.satn, word (o + 32) x.rscn, word (o + 40) x.ufn,
       (o + 48, 1, b.getD 0), (o + 49, 1, if b.isSome then 1 else 0)])
  ++ (List.range 8).map (fun i => (0xC00 + 32 * i, 32, ((t.maps.find? fun e => e.idx = i).map MapEntry.pack).getD 0))
  ++ [(0xD00, 16, bitsOfList t.present), (0xD10, 16, bitsOfList t.dirty)]

/-- Queue contents, tile window and full/empty bits. -/
def Team.queuePieces (t : Team) : List Piece3 :=
  (List.range 4).flatMap (fun q => (List.range 16).map fun i =>
      (0x1B000 + 0x800 * q + 128 * i, 128, (((vget t.lqs q [])[i]?).bind (·.data)).getD 0))
  ++ (List.range 2).flatMap (fun q => (List.range 16).map fun i =>
      (0x1D000 + 0x800 * q + 128 * i, 128, (((vget t.sqs q [])[i]?).bind (·.data)).getD 0))
  ++ (List.range 3).flatMap (fun q => (List.range 32).map fun i =>
      (0x1E000 + 0x400 * q + 32 * i, 32, (((t.queue q).cmds[i]?).map fun e => wordsNat e.cmd.words).getD 0))
  ++ (List.range 3).flatMap (fun q => (List.range 16).map fun i =>
      (0x1EC00 + 0x100 * q + 16 * i, 16, (((t.queue q).fixups[i]?).map Fixup.pack).getD 0))
  ++ (List.range 64).map (fun i => (0x1F000 + 16 * i, 16, ((t.tiles[i]?).map Tile.pack).getD 0))
  ++ [(0x20000, 0x2000, t.fe.foldl (fun acc c => acc ||| 2 ^ c.1) 0)]

/-- The whole team but its register allocation and windows. -/
def State.areaPieces (s : State) (t : Team) : List Piece3 :=
  t.headerPieces
  ++ (List.range 4).flatMap (fun k => s.strandRecord (0x100 + 0x100 * k) (t.strand k))
  ++ (List.range 4).flatMap (fun k => snapPieces (t.strand k).time (0x1000 + 0x6400 * k) (t.strand k).held)
  ++ t.queuePieces

/-- The register allocation and the windows: offset in the area, bytes that the team has, bytes of the region. -/
def Team.regions (t : Team) : List (Nat × Nat × Nat × Mem) :=
  [(0x30000, 4096 * t.regsz, 0x10000, t.regs), (0x40000, t.windowSize .wb, 0x80000, t.wb),
   (0xC0000, t.windowSize .ab, 0x40000, t.ab), (0x100000, t.windowSize .cb, 0x40000, t.cb),
   (0x140000, t.windowSize .sp, 0x80000, t.sp)]

/-! ## Memories -/

/-- The cells of a memory from an address on, renumbered from 0. -/
def Mem.slice (m : Mem) (a n : Nat) : Mem := (m.filter fun c => a ≤ c.1 && c.1 < a + n).map fun c => (c.1 - a, c.2)

/-- A memory with n bytes from an address replaced by those of another. -/
def Mem.splice (m : Mem) (a n : Nat) (w : Mem) : Mem :=
  (m.filter fun c => c.1 < a) ++ ((w.filter fun c => c.1 < n).map fun c => (a + c.1, c.2)) ++ m.filter fun c => a + n ≤ c.1

def Mem.writePieces (m : Mem) (a : Nat) (l : List Piece3) : Mem := l.foldl (fun m p => Mem.write m (a + p.1) p.2.2 p.2.1) m

/-! ## Saving -/

/-- Writes a team to its area whole: reserved bytes 0, bytes of the windows' regions beyond their size untouched. -/
def State.writeArea (s : State) (t : Team) (a : Nat) : State :=
  let m := Mem.splice s.hbm a 0x30000 []
  let m := t.regions.foldl (fun m r => Mem.splice m (a + r.1) r.2.1 r.2.2.2) m
  let m := Mem.splice m (a + 0x1C0000) 0x40000 []
  { s with hbm := Mem.writePieces m a (s.areaPieces t) }

/-- Pieces that differ from those before. -/
def changed (old new : List Piece3) : List Piece3 := new.filter fun p => !old.contains p

/-- The area follows a change of the team while it is set aside (R66, R67, R211). -/
def State.mirror (s0 s : State) (a : Nat) (t0 t : Team) : State :=
  let m := Mem.writePieces s.hbm a (changed (s0.areaPieces t0) (s.areaPieces t))
  let m := (t0.regions.zip t.regions).foldl (fun m r =>
    if r.1.2.2.2 = r.2.2.2.2 then m else Mem.splice m (a + r.2.1) r.2.2.1 r.2.2.2.2) m
  { s with hbm := m }

/-- The area of a team that is set aside. -/
def Team.area? (t : Team) : Option Nat :=
  match t.place with
  | .swapped i => some i
  | .saved i => some i
  | _ => none

/-- After an occurrence, the area of every team set aside that it changed follows. -/
def State.mirrorAll (s0 s : State) : State :=
  s.teams.foldl (fun s e =>
    match e.2.area?, s0.team? e.1, s.ctx? e.2.ctx with
    | some i, some t0, some c =>
      if t0.area? = some i && (t0 ≠ e.2 || s0.reqs ≠ s.reqs) then State.mirror s0 s (c.area i) t0 e.2 else s
    | _, _, _ => s) s

/-! ## Loading -/

/-- The condition that WKIND, WARG and WSEQ name; one with more than they say is the directory's own. -/
def loadWait (old : Strand) (kind arg seq : Nat) : Wait :=
  if kind = 1 then .sig (arg % 64)
  else if kind = 2 then .tile arg
  else if kind = 3 then .queue (arg % 3) (BitVec.ofNat 16 seq)
  else if kind = 5 then .yield
  else if kind = 9 then .pushFull (arg % 2)
  else if kind = 12 then .queueRoom (arg % 3)
  else if kind = 0 then (match old.wait with
    | .fetch n => .fetch n
    | _ => .none)
  else old.wait

def loadPreds (m : Mem) (o : Nat) : Vector PredBits 7 :=
  Vector.ofFn fun (i : Fin 7) => BitVec.ofNat 128 (Mem.readN m (o + 16 * i.val) 16)

/-- A strand from its record and its snapshot entries. -/
def Strand.load (x : Strand) (m : Mem) (o snaps : Nat) : Strand :=
  let word := fun i => BitVec.ofNat 64 (Mem.readN m (o + i) 8)
  let time := Mem.readN m (o + 8) 8
  let keep := x.flights.filter fun f => match f.dest with
    | .creg _ _ => true
    | _ => false
  { x with
    pc := word 0 &&& 0x00FFFFFFFFFFFFFF, time := time, ready := min x.ready time, cause := word 0x10, info := word 0x18,
    trappc := word 0x20,
    flights := loadSnaps m time (Mem.readN m (o + 0x28) 2) snaps x.held
      ++ keep.map (fun f => { f with land := f.land + time - x.time }),
    spills := [], wait := if x.live then loadWait x (Mem.readN m (o + 0x30) 1) (Mem.readN m (o + 0x31) 1) (Mem.readN m (o + 0x32) 2)
      else .none,
    preds := loadPreds m (o + 0x90) }

/-- An engine queue from its header fields and slots. -/
def EngQ.load (x : EngQ) (m : Mem) (q : Nat) : EngQ :=
  let o := 0x720 + 0x20 * q
  { x with
    accept := BitVec.ofNat 16 (Mem.readN m o 2), stopped := Mem.readN m (o + 3) 1 ≠ 0, closed := Mem.readN m (o + 4) 1 ≠ 0,
    cmds := x.cmds.zipIdx.map fun (p : QCmd × Nat) =>
      let w := fun i => BitVec.ofNat 64 (Mem.readN m (0x1E000 + 0x400 * q + 32 * p.2 + 8 * i) 8)
      { p.1 with cmd := Cmd.ofWords (w 0) (w 1) (w 2) (w 3) } }

/-- A statistics set and its binding. -/
def loadStats (m : Mem) (k : Nat) : Stats :=
  let w := fun j => BitVec.ofNat 64 (Mem.readN m (0x800 + 64 * k + 8 * j) 8)
  { n := w 0, nz := w 1, qerr := w 2, satn := w 3, rscn := w 4, ufn := w 5 }

/-- The whole team from the contents of an area (R65, R409). -/
def Team.load (t : Team) (m : Mem) : Team :=
  let word := fun o => BitVec.ofNat 64 (Mem.readN m o 8)
  let half := fun o => BitVec.ofNat 32 (Mem.readN m o 4)
  let sd := fun k => (t.strand k).load m (0x100 + 0x100 * k) (0x1000 + 0x6400 * k)
  let acc := { t.strands.acc with
    pc := word 0x500 &&& 0x00FFFFFFFFFFFFFF, preds := loadPreds m 0x540, cause := word 0x5B0, info := word 0x5B8, trappc := word 0x5C0 }
  let region := fun i => match t.regions[i]? with
    | some r => Mem.slice m r.1 r.2.1
    | none => []
  let entries := fun (base : Nat) (l : List (Option Nat)) =>
    l.zipIdx.map fun (p : Option Nat × Nat) => p.1.map fun _ => Mem.readN m (base + 128 * p.2) 128
  { t with
    wid := word 0x08, gen := half 0x10, scben := bit (Mem.readN m 0x18 1) 0, flags := word 0x20 &&& 0x3FF, lfsr := half 0x28,
    vs := viewStored 0 (word 0x38), vv := viewStored 1 (word 0x40), va := viewStored 2 (word 0x48),
    vm := viewStored 3 (word 0x50),
    fds := Vector.ofFn fun (k : Fin 16) => word (0x70 + 8 * k.val),
    strands := { s0 := sd 0, s1 := sd 1, s2 := sd 2, s3 := sd 3, acc := acc },
    slots := Vector.ofFn fun (n : Fin 64) => half (0x600 + 4 * n.val),
    bars := Vector.ofFn fun (n : Fin 16) => BitVec.ofNat 16 (Mem.readN m (0x700 + 2 * n.val) 2),
    q0 := t.q0.load m 0, q1 := t.q1.load m 1, q2 := t.q2.load m 2,
    ctrs := Vector.ofFn fun (n : Fin 14) => word (0x780 + 8 * n.val),
    stats := Vector.ofFn fun (k : Fin 16) => loadStats m k.val,
    binds := Vector.ofFn fun (k : Fin 16) =>
      if bit (Mem.readN m (0x800 + 64 * k.val + 49) 1) 0 then some (Mem.readN m (0x800 + 64 * k.val + 48) 1) else none,
    maps := ((mapTableOf (Mem.readN m 0xC00 256)).getD t.maps),
    present := listOfBits 128 (Mem.readN m 0xD00 16), dirty := listOfBits 128 (Mem.readN m 0xD10 16),
    lqs := Vector.ofFn fun (q : Fin 4) =>
      let l := vget t.lqs q.val []
      (l.zip (entries (0x1B000 + 0x800 * q.val) (l.map (·.data)))).map fun p => { p.1 with data := p.2 },
    sqs := Vector.ofFn fun (q : Fin 2) =>
      let l := vget t.sqs q.val []
      (l.zip (entries (0x1D000 + 0x800 * q.val) (l.map (·.data)))).map fun p => { p.1 with data := p.2 },
    tiles := t.tiles.zipIdx.map fun (p : Tile × Nat) => p.1.load (Mem.readN m (0x1F000 + 16 * p.2) 16),
    fe := (listOfBits (t.spg * 512) (Mem.readN m 0x20000 0x2000)).map fun k => (k, 1),
    regs := region 0, wb := region 1, ab := region 2, cb := region 3, sp := region 4 }

/-- The fields of an area that have reserved bits: offset, bytes, and the bits that are not reserved (R44–R51, R58, R111, R163,
R164, R409). -/
def areaFields (ntiles : Nat) : List Piece3 :=
  let pc := 2 ^ 56 - 1
  let trappc := 2 ^ 56 - 8
  let view := 2 ^ 23 - 1
  [(0x10, 8, 2 ^ 32 - 1), (0x18, 8, 0x1FFD), (0x20, 8, 0x3FF), (0x28, 8, 2 ^ 32 - 1), (0x30, 8, 2 ^ 39 - 1), (0x38, 8, view),
   (0x40, 8, view), (0x48, 8, view), (0x50, 8, view), (0x500, 8, pc), (0x5B0, 8, 0x7FFFFFFF), (0x5C0, 8, trappc)]
  ++ (List.range 16).map (fun k => (0x70 + 8 * k, 8, 2 ^ 64 - 1 - fdReserved))
  ++ (List.range 4).flatMap (fun k =>
      let o := 0x100 + 0x100 * k
      [(o, 8, pc), (o + 0x10, 8, 0x7FFFFFFF), (o + 0x20, 8, trappc), (o + 0x38, 1, 1)])
  ++ (List.range 16).map (fun k => (0x800 + 64 * k + 49, 1, 1))
  ++ (List.range ntiles).map fun i =>
      (0x1F000 + 16 * i, 16, 0x2F + (2 ^ 19 - 1) * 2 ^ 8 + (2 ^ 32 - 1) * 2 ^ 32 + 0xF * 2 ^ 64 + (2 ^ 32 - 1) * 2 ^ 80)

/-- Some reserved byte of a team's area is not 0, or a field of it holds a reserved value (R13). -/
def State.areaBad (s : State) (t : Team) (m : Mem) : Bool :=
  let ps := s.areaPieces t
  (m.any fun c => c.1 < areaSize && !(0x30000 ≤ c.1 && c.1 < 0x1C0000) && !(0x1000 ≤ c.1 && c.1 < 0x1B000)
      && !ps.any fun p => p.1 ≤ c.1 && c.1 < p.1 + p.2.1)
    || ((areaFields t.ntiles).any fun f => Mem.readN m f.1 f.2.1 &&& f.2.2 ≠ Mem.readN m f.1 f.2.1)
    || ((List.range 4).any fun k => 14 < Mem.readN m (0x130 + 0x100 * k) 1)
    || (mapTableOf (Mem.readN m 0xC00 256)).isNone
    || (List.range 4).any fun k => snapsBad m (Mem.readN m (0x100 + 0x100 * k + 0x28) 2) (0x1000 + 0x6400 * k)

end Sys2Proof.Machine
end

