-- ==== Sys2Proof/Machine/Swap.lean ====
section
/-! DEFINITION. Swaps on long waits (R65–R67, R359), the saving and restoring of contexts (R403–R406), and the creation and
destruction of contexts (R481–R483). -/

namespace Sys2Proof.Machine

open Sys2Proof

/-! ## Setting a team aside -/

/-- A stream may be stopped: its stall count has run out (R75), and neither an exit nor a wait is landing results. -/
def Strand.mayStop (x : Strand) : Bool := !x.live || (!x.exiting && x.ready ≤ x.time && (!x.settle || x.flights.isEmpty))

/-- Nothing of the command in progress is left but fix-up entries that wait for replies (R405): of one that is to be performed
every byte that it still needs waits in the list. A collective reduction completes first. -/
def EngQ.onlyFixups (x : EngQ) : Bool :=
  match x.prog with
  | some p =>
    let left := match p.phase with
      | .started => p.fixupsOnly && !(0x40 ≤ p.cmd.cmd.toNat && p.cmd.cmd.toNat ≤ 0x42)
      | .performed => decide (p.work = 0)
    left && p.out.isEmpty && p.reds.isEmpty && p.asked.isEmpty && p.awaits = 0
      && !x.fixups.isEmpty && x.fixups.all fun f => f.serial.isSome
  | none => false

/-- The queue lets its team go: nothing is in progress (R65), or, at a context save, only the replay of fix-ups (R405). -/
def EngQ.mayLeave (x : EngQ) (saveCtx : Bool) : Bool :=
  (x.prog.isNone && x.chain.isNone) || (saveCtx && x.onlyFixups)

/-- The save areas of a context that hold a team. -/
def State.areasUsed (s : State) (ctx : Nat) : List Nat :=
  s.teams.filterMap fun e => if e.2.ctx = ctx then e.2.area? else none

/-- The free save areas of a context, lowest first (R403). -/
def State.freeAreas (s : State) (ctx : Nat) : List Nat :=
  match s.ctx? ctx with
  | some c => (List.range c.savecnt).filter fun i => !(s.areasUsed ctx).contains i
  | none => []

/-- The lowest-numbered free save area. -/
def State.freeArea (s : State) (ctx : Nat) : Option Nat := (s.freeAreas ctx).head?

/-- A free area is left for another swap beside those of the context that are under way. -/
def State.areaLeft (s : State) (ctx : Nat) : Bool :=
  decide ((s.teams.filter fun e => e.2.ctx = ctx && e.2.saving).length < (s.freeAreas ctx).length)

/-- The team leaves its slot for area i: its locks end (R301), it is written whole, and every resource is freed. -/
def State.setAside (s : State) (t : Team) (c : Context) (i : Nat) : State :=
  let lines := t.lqs.toList.flatMap fun l => l.flatMap fun (e : LqEntry) => e.lines
  let s := if lines.isEmpty then s else s.modCore t.core fun k => k.unlock lines
  let place : Place := if c.st = .saving then .saved i else .swapped i
  let t := { (((List.range 5).foldl Team.flushSpills t).count 11 (if c.st = .saving then 0 else 1)) with
    place := place, saving := false, requeued := none, failed := 0, flushed := .no, feBusy := [],
    lqs := t.lqs.map fun l => l.map fun (e : LqEntry) => { e with lines := [] } }
  (s.setTeam t.handle t).writeArea t (c.area i)

/-- The save of a stopping team goes on: its strands stop, its engines come to rest, the flush of R337 completes, and it
is set aside. -/
def State.saveStep (s : State) (h : Nat) : State :=
  match s.team? h with
  | none => s
  | some t =>
    match s.ctx? t.ctx with
    | none => s
    | some c =>
      let ready := (List.range 5).all (fun k => (t.strand k).mayStop)
        && [t.q0, t.q1, t.q2].all fun x => x.mayLeave (c.st = .saving)
      if t.halted || !t.saving || !t.resident || !ready then s
      else if t.flushed ≠ .done then s.askFlush h
      else
        match s.freeArea t.ctx with
        | some i => s.setAside t c i
        | none => s

/-! ## Swaps (R359) -/

/-- The threshold in force; none when teams of the context are never swapped (R21). -/
def Context.threshold (c : Context) : Option Nat :=
  if c.swapth = 0 || c.swapth = 0xFFFF then none else some (max 64 c.swapth.toNat)

/-- The team is eligible for a swap. -/
def State.swapEligible (s : State) (core : Nat) (t : Team) : Bool :=
  match s.ctx? t.ctx with
  | some c =>
    t.slot?.isSome && !t.halted && !t.dbg && !t.saving && c.st = .running && (c.threshold.any fun n => n ≤ t.failed)
      && s.areaLeft t.ctx
      && (s.workOn core).any fun w => (roomFor ((s.teamsOf core).filter fun u => u.handle ≠ t.handle) w.2).isSome
  | none => false

/-- The work that a swap was started for has been dispatched or restored, or waits no more. -/
def State.swapServed (s : State) (core : Nat) (w : SwapFor) : Bool :=
  match w with
  | .team h => !(s.team? h).any fun t => t.requeued.isSome && !t.resident
  | .item n t i => !(s.itemFor core n).any fun p => p.2.2.1 = t && p.2.2.2 = i

/-- The team that a core swaps next: the one that has waited longest, on a tie in the lowest slot; none while a swap has
not freed its resources or the work it was started for is still to be dispatched or restored, or work waits that fits
already. -/
def State.swapChoice (s : State) (core : Nat) : Option Nat :=
  let ts := s.teamsOf core
  if ts.any (fun t => t.saving) || (s.nextWork core).isSome || (s.core core).swapFor.any fun w => !s.swapServed core w then none
  else
    (ts.filter (s.swapEligible core)).foldl (fun (m : Option Team) t =>
      match m with
      | some u => if u.failed < t.failed then some t else m
      | none => some t) none |>.map (·.handle)

/-- The work for which a team is swapped: the first of R358's order that fits once the team's resources are free. -/
def State.swapWork (s : State) (t : Team) : Option SwapFor :=
  let room := fun (w : Work × Need) => (roomFor ((s.teamsOf t.core).filter fun u => u.handle ≠ t.handle) w.2).isSome
  ((s.workOn t.core).find? room).bind fun w =>
    match w.1 with
    | .team h => some (.team h)
    | .item n => (s.itemFor t.core n).map fun p => .item n p.2.2.1 p.2.2.2

/-- SWAP (R65, R359, R403): the chosen team stops at its waits and holds, and is set aside once its commands have
completed and its flush has ended. -/
def execSwap (h : Nat) (s : State) : Out :=
  match s.team? h with
  | none => .next s
  | some t =>
    if t.saving then .next (s.saveStep h)
    else if s.swapChoice t.core = some h then
      .next ((s.modCore t.core fun c => { c with swapFor := s.swapWork t }).beginSave h)
    else .next s

/-- The team's head condition holds (R155): that of one of its live strands. -/
def State.teamReady (s : State) (t : Team) : Bool := t.liveStrands.any fun k => s.headOk t k

/-- TEAM_REQUEUE (R66, R358): a swapped team whose head condition has come to hold is requeued. -/
def execTeamRequeue (h : Nat) (s : State) : Out :=
  match s.team? h with
  | none => .next s
  | some t =>
    match t.place with
    | .swapped _ =>
      if t.requeued.isNone && !t.halted && s.teamReady t then .next (s.setTeam h { t with requeued := some s.cycle }) else .next s
    | _ => .next s

/-- The team as it comes back into a slot: every granule awake, its window in a new place (R65). -/
def Team.back (t : Team) (slot tiles cycle : Nat) : Team :=
  { t with
    place := if t.liveStrands.isEmpty then .tail else .slot slot, tileBase := tiles, requeued := none, failed := 0,
    grans := Vector.replicate 16 { touched := cycle } }

/-- TEAM_RESTORE (R28, R65, R409): a requeued team is loaded from its save area into a free slot of its core; a save area
with a reserved byte that is not 0 halts it. -/
def execTeamRestore (h : Nat) (s : State) : Out :=
  match s.team? h with
  | none => .next s
  | some t =>
    match s.ctx? t.ctx, t.area?, decide (s.nextWork t.core = some (.team h)) with
    | some c, some i, true =>
      match roomFor (s.teamsOf t.core) t.need with
      | none => .next s
      | some (slot, tiles) =>
        let m := Mem.slice s.hbm (c.area i) areaSize
        let s := s.modCore t.core fun k => { k with lastBusy := s.cycle }
        if s.areaBad t m then .next ((s.setTeam h (t.back slot tiles s.cycle)).haltTeam h)
        else .next (s.setTeam h ((t.load m).back slot tiles s.cycle))
    | _, _, _ => .next s

/-! ## Context save and restore (R404) -/

/-- The handles of a context's teams that pass a test. -/
def State.handlesOf (s : State) (ctx : Nat) (p : Team → Bool) : List Nat :=
  s.teams.filterMap fun e => if e.2.ctx = ctx && p e.2 then some e.1 else none

def State.refuseCmd (s : State) (ctx : Nat) : State := s.modCtx ctx fun c => { c with refused := true }

/-- CONTEXT_SAVE (R404): CMD 1 stops acceptance and dispatch, and every resident team begins to stop; with too few free
areas, or in another state, it is refused. -/
def execContextSave (ctx : Nat) (s : State) : Out :=
  match s.ctx? ctx with
  | none => .next s
  | some c =>
    let hs := s.handlesOf ctx Team.resident
    if c.st = .running && hs.length ≤ (s.freeAreas ctx).length then
      .next (hs.foldl State.beginSave (s.setCtx ctx { c with st := .saving }))
    else .next (s.refuseCmd ctx)

/-- CONTEXT_SAVE_DONE (R404, R405): the save of each team goes on; once no team of the context is resident, it is saved. -/
def execContextSaveDone (ctx : Nat) (s : State) : Out :=
  match s.ctx? ctx with
  | none => .next s
  | some c =>
    if c.st ≠ .saving then .next s
    else
      let s := (s.handlesOf ctx Team.resident).foldl State.saveStep s
      .next (if (s.handlesOf ctx Team.resident).isEmpty then s.modCtx ctx fun c => { c with st := .saved } else s)

/-- The team was saved with its context. -/
def Team.isSaved (t : Team) : Bool :=
  match t.place with
  | .saved _ => true
  | _ => false

/-- Reads the reply entry of an outstanding record at a restore (R399): one that fails the checks sets REPERR, but an empty one
is no reply yet (log entry 98). -/
def State.restoreReply (s : State) (ctx serial : Nat) : State :=
  match s.ctx? ctx with
  | none => s
  | some c =>
    let (s, ok) := s.readReply ctx c (serial % 4096)
    if ok || c.replyAction s.hbm (serial % 4096) = 0 then s else s.setRepErr c

/-- CONTEXT_RESTORE (R399, R404): CMD 2 reads the reply entries of the outstanding records and requeues the saved teams; in
another state it is refused. -/
def execContextRestore (ctx : Nat) (s : State) : Out :=
  match s.ctx? ctx with
  | none => .next s
  | some c =>
    if c.st ≠ .saved then .next (s.refuseCmd ctx)
    else
      let s := (if c.frbase = 0 then [] else c.faults).foldl (fun s f => s.restoreReply ctx f.serial) s
      let s := (s.handlesOf ctx Team.isSaved).foldl (fun s h => s.modTeam h fun t => { t with requeued := some s.cycle }) s
      .next (s.modCtx ctx fun c => { c with st := .restoring })

/-- CONTEXT_RESTORE_DONE (R404): once every saved team is restored, acceptance and dispatch resume. -/
def execContextRestoreDone (ctx : Nat) (s : State) : Out :=
  match s.ctx? ctx with
  | none => .next s
  | some c =>
    if c.st = .restoring && (s.handlesOf ctx Team.isSaved).isEmpty then .next (s.setCtx ctx { c with st := .running })
    else .next s

/-! ## Create and destroy (R481–R483) -/

/-- A context-table entry is malformed (R13, R482). -/
def ctxEntryBad (x : Nat) : Bool :=
  let addr := fun i => bytesAt x (8 * i) 8
  !bit x 0 || bits x 2 6 ≠ 0 || byteOf x 1 ≠ 0 || bytesAt x 4 4 ≠ 0 || bytesAt x 64 64 ≠ 0
    || addr 1 % 512 ≠ 0 || addr 2 % 4096 ≠ 0 || addr 3 % 1024 ≠ 0 || addr 4 % 4096 ≠ 0 || addr 5 % 64 ≠ 0
    || addr 6 % 4096 ≠ 0 || addr 7 % 64 ≠ 0

/-- A context as it is created from its entry; `regs` holds its control and debug blocks. -/
def contextOf (regs : Context) (x : Nat) : Context :=
  let addr := fun i => bytesAt x (8 * i) 8
  { regs with
    swv := bit x 1, lqtab := addr 1, scopetab := addr 2, aptab := addr 3, sxtab := addr 4, sxcb := addr 5, crstab := addr 6,
    dgcb := addr 7 }

/-- What outlives a context: its control and debug blocks. -/
def Context.blocks (c : Context) : Context :=
  { ptroot := c.ptroot, fqbase := c.fqbase, frbase := c.frbase, savepool := c.savepool, savecnt := c.savecnt,
    refused := c.refused, sdva := c.sdva, sdcnt := c.sdcnt, fabric := c.fabric, sddone := c.sddone, dblk := c.dblk }

/-- The control and debug blocks of a context, existing or not. -/
def State.ctxRegs (s : State) (c : Nat) : Context := (s.ctx? c).getD ((tget s.parked c).getD {})

def State.putRegs (s : State) (c : Nat) (x : Context) : State :=
  if (s.ctx? c).isSome then s.setCtx c x else { s with parked := tput s.parked c x }

def State.refuseOp (s : State) : State := { s with pkg := { s.pkg with crefd := true } }

/-- CONTEXT_CREATE (R482, R483): the entry is read and the create begins, or it is refused. -/
def execContextCreate (c : Nat) (s : State) : Out :=
  let x := Mem.readN s.hbm (bits s.pkg.ctxtbase.toNat 13 39 * 8192 + 128 * c) 128
  if s.pkg.busy.isSome || (s.ctx? c).isSome || ctxEntryBad x then .next s.refuseOp
  else .next { s with pkg := { s.pkg with busy := some { ctx := c, create := true, entry := x, since := s.cycle } } }

/-- An accepted launch that has not completed: one refused at acceptance waits only for its record. -/
def Launch.uncompleted (l : Launch) : Bool :=
  match l.fate with
  | .completed => false
  | .refused _ _ => !l.tasks.isEmpty
  | _ => true

/-- What keeps a context from being destroyed (R483). -/
def State.keepsContext (s : State) (c : Nat) : Bool :=
  (s.launches.any fun e => e.2.ctx = c && e.2.uncompleted) || (s.teams.any fun e => e.2.ctx = c && e.2.area?.isSome)
    || (s.ctx? c).any fun x => x.st ≠ .running

/-- CONTEXT_DESTROY (R483): the destroy begins, or it is refused. -/
def execContextDestroy (c : Nat) (s : State) : Out :=
  if s.pkg.busy.isSome || (s.ctx? c).isNone || s.keepsContext c then .next s.refuseOp
  else .next { s with pkg := { s.pkg with busy := some { ctx := c, create := false, since := s.cycle } } }

/-- The flows of a context start again when it is created (R426): no number, message or reply of its flows is left. -/
def Fabric.restart (f : Fabric) (ctx : Nat) : Fabric :=
  { f with
    sendSeq := f.sendSeq.filter fun x => x.ctx ≠ ctx, recvSeq := f.recvSeq.filter fun x => x.ctx ≠ ctx,
    early := f.early.filter fun p => p.ctx ≠ ctx, replies := f.replies.filter fun r => r.ctx ≠ ctx }

/-- CONTEXT_OP_DONE (R483): the create or destroy ends, and CTXLIVE changes; a destroy frees the context's region entries
and fault records. -/
def execContextOpDone (s : State) : Out :=
  match s.pkg.busy with
  | none => .next s
  | some op =>
    let s := { s with pkg := { s.pkg with busy := none } }
    if op.create then
      .next { s with
        contexts := tput s.contexts op.ctx (contextOf (s.ctxRegs op.ctx) op.entry), parked := tdel s.parked op.ctx,
        fabric := s.fabric.restart op.ctx }
    else
      .next { s with
        parked := tput s.parked op.ctx (s.ctxRegs op.ctx).blocks,
        contexts := tdel s.contexts op.ctx, redRegions := s.redRegions.filter fun r => r.ctx ≠ op.ctx }

end Sys2Proof.Machine
end

