-- ==== Sys2Proof/Machine/SextantUnit.lean ====
section
/-! DEFINITION. Steps of the Sextant unit (R366–R380, R493, R494): requests, reloads, the rules, and the unit's writes. -/

namespace Sys2Proof.Machine

open Sys2Proof

/-! ## The unit's writes (R493, R494) -/

def State.modSx (s : State) (ctx : Nat) (f : Sextant → Sextant) : State :=
  s.modCtx ctx fun c => { c with sextant := f c.sextant }

/-- A bit of byte 5 of the control block is set or cleared by one indivisible operation at its home. -/
def State.sxFlag (s : State) (ctx : Nat) (c : Context) (n : Nat) (on : Bool) : UnitRes × State :=
  let va := canon (c.sxcb + 4)
  if c.sextant.wait.denied.contains (bits va 12 44) then (.fault, s)
  else
    let (r, s) := s.resolve ctx 0 [] va 4 .atomic { src := 6 }
    match r with
    | .fault _ => (.fault, s)
    | .refused _ => (.fault, s)
    | .full => (.later, s)
    | .wait k => (.serial k, s)
    | .ok (.frame pa) _ =>
      if s.partialBad pa 4 15 then (.fault, s)
      else
        let old := Mem.readN s.hbm (pa + 1) 1
        let new := if on then old ||| 2 ^ n else old &&& (255 - 2 ^ n)
        (.ok 0, { s with hbm := Mem.write s.hbm (pa + 1) new 1 }.noteTag (pa + 1) 1 none)
    | .ok (.peer p pa hd _) _ =>
      match c.unitOps.find? fun o => o.src = 6 && o.va = va && o.len = 4 && o.write with
      | some o =>
        match o.failed, o.got with
        | some _, _ => (.fault, s)
        | none, some v => (.ok v, s)
        | none, none => (.later, s)
      | none =>
        let x := if on then BitVec.ofNat 64 (2 ^ (8 + n)) else BitVec.ofNat 64 (0xFFFFFFFF - 2 ^ (8 + n))
        let (r, s) := s.sendPeer ctx p hd 0 (.unit ctx) va (.atomic (if on then 2 else 1) 4 false pa x 0)
        match r with
        | .ref k => (.later, s.modCtx ctx fun c =>
            { c with unitOps := c.unitOps ++ [{ src := 6, va := va, len := 4, write := true, ref := k }] })
        | .wait => (.later, s)
        | .unreachable _ => (.fault, s)
    | .ok _ _ => (.fault, s)

/-- The first write of the list has been made or dropped; a cleared PEND ends the step (R377, R379). -/
def State.sxWritten (s : State) (ctx : Nat) (w : SxWrite) (refused : Bool) : State :=
  let s := (s.dropUnitOps ctx 6).modSx ctx fun x =>
    let rest := x.writes.drop 1
    { x with
      writes := if refused && w ≠ .flag 0 true then .flag 0 true :: rest else rest, wait := { x.wait with denied := [] } }
  match w with
  | .flag 1 false =>
    let s := s.modSx ctx fun x => { x with pend := none, applied := false, ran := 0 }
    { s with launches := s.launches.map fun (e : Nat × Launch) =>
        if e.2.ctx = ctx then (e.1, { e.2 with afterStep := false }) else e }
  | _ => s

/-- Makes the unit's writes in order, until one has to wait. -/
def State.sxWrites (s : State) (ctx : Nat) : Nat → State
  | 0 => s
  | fuel + 1 =>
    match s.ctx? ctx with
    | none => s
    | some c =>
      match c.sextant.writes with
      | [] => s
      | w :: _ =>
        if c.sextant.wait.serial.isSome then s
        else
          let (r, s) := match w with
            | .bytes va len v => s.unitWrite ctx 6 c.sextant.wait va len v
            | .flag n on => s.sxFlag ctx c n on
          match r with
          | .ok _ => (s.sxWritten ctx w false).sxWrites ctx fuel
          | .fault => (s.sxWritten ctx w true).sxWrites ctx fuel
          | .later => s
          | .serial k => s.modSx ctx fun x => { x with wait := { x.wait with serial := some k } }

/-- Adds writes to the list and makes what can be made. -/
def State.sxPut (s : State) (ctx : Nat) (l : List SxWrite) : State :=
  (s.modSx ctx fun x => { x with writes := x.writes ++ l }).sxWrites ctx (2 * l.length + 4)

/-! ## Requests (R376, R377) -/

/-- SEXTANT_STEP_REQUEST (R376, R377): a step is pending from now, or the request is discarded and ERR is set. -/
def execSextantStepRequest (ctx : Nat) (v : Word) (s : State) : Out :=
  match s.ctx? ctx with
  | none => .next s
  | some c =>
    if v.toNat / 4 ≠ 0 || c.sextant.pend.isSome then .next (s.sxPut ctx [.flag 0 true])
    else
      let s := s.modSx ctx fun x => { x with pend := some { eval := v.getLsbD 0, reload := v.getLsbD 1 } }
      .next (s.sxPut ctx [.flag 1 true])

/-! ## Entries and the control block as read (R367–R370) -/

/-- A Sextant entry from its 256 bytes; its accumulators are those of `old`. -/
def sxEntryOf (old : SxEntry) (x : Nat) : SxEntry :=
  let w := fun i => BitVec.ofNat 64 (bytesAt x i 8)
  { mode := bits x 0 2, role := byteOf x 1, layer := bytesAt x 2 2, nr := bits x 32 3, curr := bits x 40 3, hyst := byteOf x 6,
    hold := byteOf x 7, hi := bytesAt x 8 2, lo := bytesAt x 10 2, sathi := bytesAt x 12 2, tlog := bits x 112 3,
    gth := bytesAt x 16 4, ne := bytesAt x 20 4, rbase := bytesAt x 24 8, rtiles := bytesAt x 32 4, tagt := bytesAt x 40 8,
    rungs := (List.range 8).map fun i => w (64 + 8 * i),
    hists := ((List.range 4).map fun i => bytesAt x (128 + 8 * i) 8).map fun h =>
      { gfrom := BitVec.ofNat 32 (bits h 0 32), rung := bits h 32 3, valid := bit h 35 },
    dncnt := byteOf x 160, holdcnt := byteOf x 161,
    last := { n := w 168, nz := w 176, qerr := w 184, satn := w 192, rscn := w 200, ufn := w 208 },
    gnsum := w 216, gncnt := w 224, acc := old.acc, accGnsum := old.accGnsum, accGncnt := old.accGncnt }

/-- Strictly decreasing generations. -/
def histsFall : List Hist → Bool
  | a :: b :: r => decide (b.gfrom.toNat < a.gfrom.toNat) && histsFall (b :: r)
  | _ => true

/-- The reserved fields of an entry are 0, and its valid history slots are contiguous from HIST0. -/
def sxReserved (x : Nat) : Bool :=
  let hist := fun i => bytesAt x (128 + 8 * i) 8
  bits x 2 6 = 0 && bits x 35 5 = 0 && bits x 43 5 = 0 && bits x 115 5 = 0 && byteOf x 15 = 0 && bytesAt x 36 4 = 0
    && bytesAt x 48 16 = 0 && bytesAt x 162 6 = 0 && bytesAt x 232 24 = 0
    && (List.range 4).all (fun i => bits (hist i) 36 28 = 0)
    && (List.range 3).all fun i => bit (hist i) 35 || !bit (hist (i + 1)) 35

/-- An entry of 256 bytes is valid (R368). -/
def sxValid (x : Nat) : Bool :=
  let e := sxEntryOf {} x
  let hs := e.hists.filter fun h => h.valid
  if e.mode = 0 then x = 0
  else
    sxReserved x && e.mode ≤ 2 && e.role ≤ 3 && e.curr ≤ e.nr && e.lo ≤ e.hi && e.tlog ≤ 4 && e.ne ≠ 0 && e.ne % 64 = 0
      && isCanon e.rbase && e.rbase % e.tsize = 0 && e.tagt % 8 = 0 && (e.rtiles ≠ 0 || e.tagt = 0)
      && ((e.rungs.take (e.nr + 1)).all fun r => fdUsable r.toNat && (fdOf r.toNat).rowBytes e.ne ≤ e.tsize)
      && ((e.rungs.drop (e.nr + 1)).all (· = 0)) && hs.all (fun h => h.rung ≤ e.nr) && histsFall hs

/-- The control block of 64 bytes is malformed (R13). -/
def sxControlBad (x : Nat) : Bool :=
  bits x 42 6 ≠ 0 || bytesAt x 6 2 ≠ 0 || bytesAt x 8 8 % 64 ≠ 0 || bytesAt x 24 40 ≠ 0

/-- The unit's copy after a reload; none when it is refused (R370). -/
def Sextant.reloaded (x : Sextant) (cb table : Nat) : Option Sextant :=
  let es := (List.range 256).map fun i => (i, bytesAt table (256 * i) 256)
  if sxControlBad cb || es.any (fun e => !sxValid e.2) then none
  else
    some { x with
      entries := es.filterMap fun e =>
        let old := (tget x.entries e.1).getD {}
        let n := sxEntryOf old e.2
        if n = {} then none else some (e.1, n),
      gen := if bytesAt cb 0 4 = 0 then 1 else BitVec.ofNat 32 (bytesAt cb 0 4), maxch := byteOf cb 4,
      steprec := bytesAt cb 8 8 }

/-! ## The rules (R378) -/

/-- The unit copies its accumulators into the entries of MODE 1 and 2, and clears them all. -/
def SxEntry.gathered (e : SxEntry) : SxEntry :=
  if e.mode = 0 then { e with acc := {}, accGnsum := 0, accGncnt := 0 }
  else { e with last := e.acc, gnsum := e.accGnsum, gncnt := e.accGncnt, acc := {}, accGnsum := 0, accGncnt := 0 }

/-- The widening condition of an entry. -/
def SxEntry.widens (e : SxEntry) : Bool :=
  e.hi * e.last.nz.toNat < e.last.qerr.toNat || e.sathi * e.last.n.toNat < e.last.satn.toNat * 65536

/-- The narrowing condition of an entry. -/
def SxEntry.narrows (e : SxEntry) : Bool :=
  let lo := if e.gth ≠ 0 && 0 < e.gncnt.toNat && e.gth * e.gncnt.toNat ≤ e.gnsum.toNat then min (2 * e.lo) e.hi else e.lo
  !e.widens && 0 < e.last.nz.toNat && e.last.qerr.toNat < lo * e.last.nz.toNat && e.last.satn = 0

/-- One entry at its turn, with room for another move or not: the entry after, and whether it moved. -/
def SxEntry.turn (e : SxEntry) (room : Bool) : SxEntry × Bool :=
  if e.widens then
    let e := { e with dncnt := 0 }
    if 0 < e.curr && room then ({ e with curr := e.curr - 1, holdcnt := e.hold }, true) else (e, false)
  else if e.narrows then
    if 0 < e.holdcnt then ({ e with holdcnt := e.holdcnt - 1 }, false)
    else
      let d := min 255 (e.dncnt + 1)
      if max 1 e.hyst ≤ d && e.curr < e.nr && room then
        ({ e with curr := e.curr + 1, dncnt := 0, holdcnt := e.hold }, true)
      else ({ e with dncnt := d }, false)
  else ({ e with dncnt := 0, holdcnt := e.holdcnt - 1 }, false)

/-- The rules over the entries named, in order: the entries and those that moved. -/
def sxTurns (maxch : Nat) : List Nat → List (Nat × SxEntry) × List Nat → List (Nat × SxEntry) × List Nat
  | [], p => p
  | i :: r, (l, moved) =>
    let (e, m) := ((tget l i).getD {}).turn (maxch = 0 || moved.length < maxch)
    sxTurns maxch r (tput l i e, if m then moved ++ [i] else moved)

/-- The rules of R378: widenings first, each in ascending index. -/
def Sextant.evaluate (x : Sextant) : Sextant × List Nat :=
  let es := x.entries.filter fun e => e.2.mode = 2 && e.2.last.n ≠ 0
  let wide := (es.filter fun e => e.2.widens).map (·.1)
  let rest := (es.filter fun e => !e.2.widens).map (·.1)
  let (l, moved) := sxTurns x.maxch (wide ++ rest) (x.entries, [])
  ({ x with entries := l }, moved)

/-- A new generation when entries moved, and their histories (R379). -/
def Sextant.advance (x : Sextant) (moved : List Nat) : Sextant :=
  if moved.isEmpty then x
  else
    let g := x.gen + 1
    { x with
      gen := g,
      entries := x.entries.map fun (e : Nat × SxEntry) =>
        if moved.contains e.1 then (e.1, { e.2 with hists := ({ gfrom := g, rung := e.2.curr, valid := true } :: e.2.hists).take 4 }) else e }

/-! ## What a step writes (R379, R380) -/

/-- The history slots of an entry, packed. -/
def SxEntry.histBytes (e : SxEntry) : Nat :=
  ofElems 8 (e.hists.map fun h => h.gfrom.toNat + h.rung * 2 ^ 32 + (if h.valid then 2 ^ 35 else 0))

/-- The hardware fields of an entry. -/
def SxEntry.writes (e : SxEntry) (a : Nat) : List SxWrite :=
  let stats := ofElems 8 [e.last.n.toNat, e.last.nz.toNat, e.last.qerr.toNat, e.last.satn.toNat, e.last.rscn.toNat,
    e.last.ufn.toNat, e.gnsum.toNat, e.gncnt.toNat]
  [.bytes (canon (a + 5)) 1 e.curr, .bytes (canon (a + 128)) 34 (e.histBytes + (e.dncnt + 256 * e.holdcnt) * 2 ^ 256),
   .bytes (canon (a + 168)) 64 stats]

/-- The step record. -/
def Sextant.record (x : Sextant) (moved : List Nat) (refused : Bool) : Nat :=
  x.steps.toNat + x.gen.toNat * 2 ^ 64 + moved.length * 2 ^ 96 + bitsOfList moved * 2 ^ 128 + (if refused then 2 ^ 384 else 0)

/-- Every write of a step, in order; the last clears PEND. -/
def Context.stepWrites (c : Context) (moved : List Nat) (refused : Bool) : List SxWrite :=
  let x := c.sextant
  (List.range 256).flatMap (fun i => (c.sx i).writes (c.sxtab + 256 * i))
    ++ [.bytes c.sxcb 4 x.gen.toNat, .bytes (canon (c.sxcb + 16)) 8 x.steps.toNat]
    ++ (if x.steprec = 0 then [] else [.bytes x.steprec 64 (x.record moved refused)])
    ++ [.flag 1 false]

/-- Works the pending step out once its reload has been read or refused (R378, R379). -/
def State.takeStep (s : State) (ctx : Nat) (c : Context) (r : StepReq) (copy : Option Sextant) : State :=
  let x := copy.getD c.sextant
  let x := { x with entries := x.entries.map fun (e : Nat × SxEntry) => (e.1, e.2.gathered) }
  let (x, moved) := if r.eval && copy.isSome then x.evaluate else (x, [])
  let x := { x.advance moved with steps := x.steps + 1, applied := true, wait := {} }
  let l := (if copy.isNone then [SxWrite.flag 0 true] else []) ++ { c with sextant := x }.stepWrites moved copy.isNone
  ((s.modSx ctx fun _ => x).dropUnitOps ctx 6).sxPut ctx l

/-- SEXTANT_STEP_APPLY (R377–R379): the pending step is applied once every launch accepted before it has completed or failed,
reported or not (R361), and its writes go on; while the context is not running it is held (R404). -/
def execSextantStepApply (ctx : Nat) (s : State) : Out :=
  let s := s.sxWrites ctx 1024
  match s.ctx? ctx with
  | none => .next s
  | some c =>
    match c.sextant.pend with
    | none => .next s
    | some r =>
      let earlier := s.launches.any fun e => e.2.ctx = ctx && !e.2.afterStep && e.2.fate = .running
      if c.sextant.applied || !c.sextant.writes.isEmpty || earlier || c.st ≠ .running || c.sextant.wait.serial.isSome then .next s
      else if !r.reload then .next (s.takeStep ctx c r (some c.sextant))
      else
        let held := fun (s : State) k => s.modSx ctx fun x => { x with wait := { x.wait with serial := some k } }
        match s.unitRead ctx 6 c.sextant.wait c.sxcb 64 with
        | (.later, s) => .next s
        | (.serial k, s) => .next (held s k)
        | (.fault, s) => .next (s.takeStep ctx c r none)
        | (.ok cb, s) =>
          match s.unitRead ctx 6 c.sextant.wait c.sxtab 65536 with
          | (.later, s) => .next s
          | (.serial k, s) => .next (held s k)
          | (.fault, s) => .next (s.takeStep ctx c r none)
          | (.ok t, s) => .next (s.takeStep ctx c r (c.sextant.reloaded cb t))

end Sys2Proof.Machine
end

