-- ==== Sys2Proof/Machine/Fabric.lean ====
section
/-! DEFINITION. The requesting side of the Gliem fabric: answers and their requesters (R428, R430, R435), courses that fail
and messages sent again (R424, R425), routers (R418, R419), links (R411) and accesses to pages that have moved (R434). -/

namespace Sys2Proof.Machine

open Sys2Proof

/-! ## Answers -/

/-- The answer to a request: bytes with flags (none for an acknowledgement), or a fault with its REASON. -/
inductive Answer where
  | value (v len flags : Nat)
  | fault (code reason : Nat)
  deriving DecidableEq, Repr

/-- The REASON with which a packet says that the line is in error (R448), and that an update's sequence is refused (R441). -/
def refusedLine : Nat := 0x22
def refusedSeq : Nat := 0x34

/-- What a reply's payload says to its requester. -/
def answerOf (p : Payload) : Answer :=
  match p with
  | .data b f => .value (ofBytes b) b.length f
  | .refused r =>
    if r = refusedLine then .fault 0x22 0 else if r = refusedSeq then .fault 0x34 0 else .fault 0x41 r
  | _ => .value 0 0 0

/-- The answer to a request of a stream. -/
def Req.answer (q : Req) (a : Answer) (va : Nat) : Req :=
  match a with
  | .fault c r => { q with st := .failed { code := c, reason := r, info := BitVec.ofNat 64 va } }
  | .value v _ fl =>
    let d := deedOf q.word
    if q.isFetch then { q with st := .value v 0 }
    else if d.amo.isSome then { q with st := .value (d.result v) fl }
    else
      match q.locs with
      | some (p :: _) => q.gather p v fl
      | _ => q

/-- The answer reaches a request of a stream, with the bytes of locked lines as they hold them; the lines that it brings are
entered in the access cache, or locked (R299, R301). -/
def State.answerReq (s : State) (tag : Nat) (o : Outstanding) (a : Answer) : State :=
  match s.req? tag with
  | none => s
  | some q =>
    match o.packet.payload, a, s.team? q.h with
    | .read pa n _, .value v k fl, some t =>
      if q.isFetch then s.setReq tag (q.answer a o.va)
      else
        let v := s.seen t q (deedOf q.word) (some o.peer) pa n v
        let s := s.setReq tag (q.answer (.value v k fl) o.va)
        if q.restart then s else s.cacheRead t q (deedOf q.word) (some o.peer) pa n v
    | _, _, _ => s.setReq tag (q.answer a o.va)

/-- The command in progress sent a reduction update of a region and SEQ. -/
def Prog.reduces (p : Prog) (region seq : Nat) : Bool :=
  p.cmd.cmd = 6 && bits p.cmd.w3.toNat 16 32 = region && bits p.cmd.w3.toNat 0 16 = seq

/-- The command in progress sent this message. -/
def Prog.sent (p : Prog) (m : Payload) : Bool :=
  match m with
  | .reduce region seq _ _ _ _ _ _ _ => p.reduces region seq
  | .reduceMark region seq => p.reduces region seq
  | .collective _ _ _ _ _ => decide (0x40 ≤ p.cmd.cmd.toNat) && decide (p.cmd.cmd.toNat ≤ 0x42)
  | _ => false

/-- The answer to command `seq` of an engine: source bytes, a chain's word, or one of the answers it awaits. A fault stops the
queue, with fault 0x35 and REASON 3 for a chain read and with the peer number as the detail of a fabric fault (R275, R394,
R435); one for a command that is gone changes nothing (R278). -/
def State.answerEngine (s : State) (h q seq : Nat) (o : Outstanding) (a : Answer) : State :=
  match s.team? h with
  | none => s
  | some t =>
    let x := t.queue q
    let inProg := x.prog.bind fun p => p.asked.find? fun k => k.2.2 = o.ref
    let inChain := x.chain.bind fun p => (p.asked.find? fun k => k.2.2 = o.ref).map fun k => (p.index, k)
    match a with
    | .fault c r =>
      match inChain with
      | some (i, _) => s.stopQueue h q 0x35 3 i (some 0xF2)
      | none => s.stopCommand h q seq c r (if 0x40 ≤ c then o.peer else if c = 0x34 then bits o.va 32 32 else bits o.va 12 32)
    | .value v _ fl =>
      match inProg, inChain with
      | some k, _ =>
        let g := (x.prog.bind fun p => p.seg? k).getD { va := k.1, len := k.2.1, mask := ones k.2.1 }
        (s.fetchedSeg h q g v).modProg h q fun p => { p with asked := p.asked.erase k }
      | none, some (_, k) =>
        s.modChain h q fun p => { p with asked := p.asked.erase k, got := p.got ++ [{ va := k.1, len := k.2.1, data := v }] }
      | none, none => s.modProg h q fun p =>
          if x.headSeq = seq && p.sent o.packet.payload then { p with awaits := p.awaits - 1, flags := p.flags ||| fl } else p

/-- The answer to a fill. -/
def State.answerFill (s : State) (h g : Nat) (o : Outstanding) (a : Answer) : State :=
  match a with
  | .value v _ _ => s.modFill h g fun x => { x with asked := none, got := some v }
  | .fault c r =>
    match (s.team? h).bind fun t => t.mapOf g with
    | some m => s.failFill h g c r false m.sxe o.va o.peer
    | none => s

/-- The C-die for which a message was sent. -/
def Origin.die : Origin → Option Req → Nat
  | .request _, some q => dieOf (handleCore q.h)
  | .posted core _, _ => dieOf core
  | .engine h _ _, _ => dieOf (handleCore h)
  | .fill h _, _ => dieOf (handleCore h)
  | _, _ => 0

/-- The team for which a message was sent. -/
def Origin.team : Origin → Option Req → Option Nat
  | .request _, some q => some q.h
  | .engine h _ _, _ => some h
  | .fill h _, _ => some h
  | _, _ => none

/-- The migration whose messages begin at a page sequence number is the one in its copying state (R433). -/
def State.copying (s : State) (first : Nat) : Bool := s.gliem.migst = 1 && s.gliem.migfirst = first

/-- The answer reaches the requester (R394). A fault of a shoot-down's message is no acknowledgement: the peer is told again
(R431). -/
def State.deliverAnswer (s : State) (o : Outstanding) (a : Answer) : State :=
  match o.origin with
  | .request tag => s.answerReq tag o a
  | .posted core num =>
    match (s.core core).path.find? fun e => e.num = num, a with
    | some e, .fault c r => (s.dropPath core num).writeFault e c r
    | _, _ => s.dropPath core num
  | .engine h q seq => s.answerEngine h q seq o a
  | .fill h g => s.answerFill h g o a
  | .migration first _ =>
    match a with
    | .fault _ _ => if s.copying first then { s with gliem := { s.gliem with migref := true } } else s
    | _ => s
  | .shootdown ctx => s.modCtx ctx fun c =>
      { c with sdacks := c.sdacks - 1, sdpeers := match a with
          | .fault _ _ => c.sdpeers ++ [o.peer]
          | .value _ _ _ => c.sdpeers }
  | .course ctx peer =>
    match a with
    | .value v _ _ => s.putCourse ctx peer (courseEntryOf v)
    | .fault _ _ => s.courseUnread ctx peer
  | .unit ctx => s.modCtx ctx fun c => { c with unitOps := c.unitOps.map fun (u : UnitOp) =>
      if u.ref = o.ref then
        (match a with
         | .value v _ _ => { u with got := some v }
         | .fault c _ => { u with failed := some c })
      else u }

def State.dropOutstanding (s : State) (ref : Nat) : State :=
  { s with fabric := { s.fabric with outstanding := s.fabric.outstanding.filter fun o => o.ref ≠ ref } }

def State.setOutstanding (s : State) (x : Outstanding) : State :=
  { s with fabric := { s.fabric with outstanding := s.fabric.outstanding.map fun o => if o.ref = x.ref then x else o } }

def State.outstanding? (s : State) (ref : Nat) : Option Outstanding := s.fabric.outstanding.find? fun o => o.ref = ref

/-- A message ends with its answer. -/
def State.endMessage (s : State) (o : Outstanding) (a : Answer) : State := (s.dropOutstanding o.ref).deliverAnswer o a

/-- Holds a copy of a peer's line in its slice group: at most 4 of a set, of which the oldest makes room (R303). -/
def State.keepPeerLine (s : State) (l : PeerLine) : State :=
  let set := fun (x : PeerLine) => Config.peerSet x.peer (x.pa / 128) % 15360
  let same := fun (x : PeerLine) => x.mdie = l.mdie && set x = set l
  let rest := s.peerLines.filter fun x => !(x.peer = l.peer && x.pa = l.pa && x.mdie = l.mdie)
  let out := if 4 ≤ (rest.filter same).length then (rest.find? same).toList else []
  { s with peerLines := (rest.filter fun x => !out.contains x) ++ [l] }

/-- Copies of the whole lines that a MODE 2 read brought (R431). -/
def State.keepPeerLines (s : State) (o : Outstanding) (b : List Byte) : State :=
  match o.packet.payload with
  | .read pa n true =>
    let q := match o.origin with
      | .request tag => s.req? tag
      | _ => none
    let die := o.origin.die q
    let ls := (linesOf pa n).filter fun l => pa ≤ 128 * l && 128 * l + 128 ≤ pa + n
    ls.foldl (fun s l => s.keepPeerLine
      { mdie := 2 * die + l / 2 % 2, peer := o.peer, pa := 128 * l, data := ofBytes ((b.drop (128 * l - pa)).take 128) }) s
  | _ => s

/-- A reply reaches the package that sent the request: its payload goes to the requester, or the access is held until a
shoot-down (R434). -/
def State.replyArrives (s : State) (p : Packet) : State :=
  match s.outstanding? p.ref with
  | none => s
  | some o =>
    let q := match o.origin with
      | .request tag => s.req? tag
      | _ => none
    let n := payloadSize p.payload
    let s := s.addTraffic (o.origin.die q) 7 n
    let s := match o.origin.team q with
      | some h => s.modTeam h fun t => t.count 7 n
      | none => s
    match p.payload with
    | .moved _ _ => s.setOutstanding { o with moved := some 0 }
    | .data b _ => ((s.keepPeerLines o b).endMessage o (answerOf p.payload))
    | x => s.endMessage o (answerOf x)

/-! ## Courses that fail (R424, R425) -/

/-- Puts the message on the fabric again with its header unchanged. -/
def State.sendAgain (s : State) (o : Outstanding) (course : Nat) (w : Word) : State :=
  let p := { o.packet with course := w, hop := 0, entered := [] }
  (s.setOutstanding { o with packet := p, course := course, sentAt := s.cycle, held := false }).inject p

/-- A migration's message takes its other course word once, if that passes the checks at injection (R417); then its migration
fails (R433). A migration that is over is not changed. -/
def State.migrateAgain (s : State) (o : Outstanding) (first : Nat) (alt : BitVec 64) : State :=
  let set := fun (s : State) (f : GliemCtl → GliemCtl) => if s.copying first then { s with gliem := f s.gliem } else s
  let cause := match s.chart with
    | some ch => ch.courseCause alt o.peer
    | none => some 3
  if o.course = 0 && cause = none then (set s fun g => { g with migcrs := max 1 g.migcrs }).sendAgain o 1 alt
  else (set s fun g => { g with migcrs := 2 }).dropOutstanding o.ref

/-- Sends a message again on a course that has not failed, holds it, or ends it with fabric fault 0x40. -/
def State.resend (s : State) (o : Outstanding) : State :=
  let ctx := o.packet.ctx
  let pay := o.packet.payload
  match o.origin with
  | .migration first alt => s.migrateAgain o first alt
  | _ =>
    match (s.ctx? ctx).bind fun c => c.course? o.peer with
    | none => (s.readCourse ctx o.peer 3).2.setOutstanding { o with held := true }
    | some e =>
      if !e.ready then s.setOutstanding { o with held := true }
      else
        let (c, s) := s.pickCourse ctx o.peer (payloadLine pay) 5
        match c with
        | some (i, w) => if s.lineHeld ctx o.peer o.ref i pay then s.setOutstanding { o with held := true } else s.sendAgain o i w
        | none =>
          let r := ((s.ctx? ctx).bind fun c => c.course? o.peer).bind fun e => e.unreachable
          s.endMessage o (.fault 0x40 (r.getD 10))

/-- The course of a peer's entry that is a course word. -/
def State.courseIndex (s : State) (o : Outstanding) (course : Word) : Option Nat :=
  if course = o.packet.course then some o.course
  else ((s.ctx? o.packet.ctx).bind fun c => c.course? o.peer).bind fun e => e.courses.findIdx? fun w => w = course

/-- A course, arrival or timeout fault of a copy of a message that was sent on a course: that course is marked failed, and when
it is the one that the message is on, the message is sent again. -/
def State.courseFault (s : State) (ref : Nat) (course : Word) (cause hop : Nat) : State :=
  match s.outstanding? ref with
  | none => s
  | some o =>
    let s := match o.origin, s.courseIndex o course with
      | .migration _ _, _ => s
      | _, some i => s.failCourse o.packet.ctx o.peer i cause hop
      | _, none => s
    if course = o.packet.course && !o.held && o.moved.isNone then s.resend o else s

/-- COURSE_FAULT_RETURN (R419, R424): the fault of a copy of message n, sent on a course, comes back to its source. -/
def execCourseFaultReturn (n : SentCopy) (cause hop : Nat) (s : State) : Out := .next (s.courseFault n.ref n.course cause hop)

/-- REQUEST_TIMEOUT (R424): a request unanswered for 1,048,576 cycles marks its course failed with cause 9; a message that
is held is sent again when it may be. -/
def execRequestTimeout (n : Nat) (s : State) : Out :=
  match s.outstanding? n with
  | none => .next s
  | some o =>
    if o.moved.isSome then .next s
    else if o.held then .next (s.resend o)
    else if o.sentAt + 1048576 ≤ s.cycle then .next (s.courseFault n o.packet.course 9 0)
    else .next s

/-! ## Course tables (R422) -/

/-- A peer's entry is read again. -/
def State.rereadCourse (s : State) (ctx peer : Nat) : State :=
  (s.modCtx ctx fun c => { c with courses := tdel c.courses peer }).readCourse ctx peer 3 |>.2

/-- COURSE_TABLE_REREAD (R422): the peer's entry is read again, after a change of FAILED and CAUSE that is still to be written
back. -/
def execCourseTableReread (ctx : Nat) (v : Word) (s : State) : Out :=
  let peer := v.toNat
  if 2048 ≤ peer then .next s
  else if ((s.ctx? ctx).bind fun c => c.course? peer).any fun e => e.back.isSome then
    .next (s.modCtx ctx fun c => { c with courses := c.courses.map fun (x : Nat × CourseEntry) =>
      if x.1 = peer then (x.1, { x.2 with reread := true }) else x })
  else .next (s.rereadCourse ctx peer)

/-- FAILED and CAUSE of a peer's entry are written back to memory (R422), where a peer's page holds it at that peer (R428); a
write that is refused is dropped. -/
def State.writeBackCourse (s : State) (ctx peer : Nat) : State :=
  match s.ctx? ctx with
  | none => s
  | some c =>
    match (c.course? peer).bind fun e => e.back.map fun w => (e, w) with
    | none => s
    | some (e, w) =>
      let put := fun (s : State) (w : Option UnitWait) => s.modCtx ctx fun c =>
        { c with courses := c.courses.map fun (x : Nat × CourseEntry) => if x.1 = peer then (x.1, { x.2 with back := w }) else x }
      let done := fun (s : State) =>
        let s := put (s.dropUnitOps ctx 7) none
        if e.reread then s.rereadCourse ctx peer else s
      let v := e.failed + (ofElems 1 e.causes) * 256
      if w.serial.isSome then s
      else
        match s.unitWrite ctx 7 w (canon (c.crstab + 64 * peer + 33)) 5 v with
        | (.ok _, s) => done s
        | (.later, s) => s
        | (.serial k, s) => put s (some { w with serial := some k })
        | (.fault, s) => done s

/-! ## Routers and links (R411, R415, R418, R419) -/

/-- A port of this package carries packets: one of its planes is up, and it is no service link (R411). -/
def State.portUp (s : State) (p : Nat) : Bool := p < 35 && (s.gliem.linka.getLsbD p || s.gliem.linkb.getLsbD p)

def State.dropTransit (s : State) (n : Nat) : State :=
  { s with fabric := { s.fabric with transit := tdel s.fabric.transit n } }

/-- A fault of a packet returns to its source in the reply class, on the reverse of its entry ports (R419). -/
def State.returnFault (s : State) (p : Packet) (cause hop : Nat) : State :=
  if p.entered.isEmpty then s.courseFault p.ref p.course cause hop
  else s.inject { p with isReply := true, hop := 0, payload := .courseFault cause hop }

/-- The port by which the router sends a packet on: HOPh of a request, the port by which the request entered this package for
a reply (R418, R419). -/
def routePort (p : Packet) : Option Nat :=
  if p.isReply then p.entered.getLast? else if p.hop ≤ nhOf p.course then some (hopOf p.course p.hop) else none

/-- PACKET_HOP (R418, R419): the router sends packet n on its port, on channel h of its class, and raises h; a request whose
port is not up is dropped and its fault returned, a reply that cannot go on is lost. -/
def execPacketHop (n : Nat) (s : State) : Out :=
  match tget s.fabric.transit n with
  | none => .next s
  | some p =>
    let s := s.dropTransit n
    match routePort p with
    | some port =>
      if s.portUp port then
        let out := { p with hop := p.hop + 1, entered := if p.isReply then p.entered.dropLast else p.entered }
        .next { s with fabric := { s.fabric with links := tput s.fabric.links n { port := port, channel := p.hop, packet := out } } }
      else .next (if p.isReply then s else s.returnFault p 7 p.hop)
    | none => .next (if p.isReply then s else s.returnFault p 7 p.hop)

/-- A packet on a link has left this package. -/
def State.leaveLink (s : State) (n : Nat) : State := { s with fabric := { s.fabric with links := tdel s.fabric.links n } }

/-- FLIT_RETRY (R411): a flit is retried from the replay buffer; nothing is seen above the link. -/
def execFlitRetry (_port _plane : Nat) (s : State) : Out := .next s

def setBit36 (v : BitVec 36) (p : Nat) (on : Bool) : BitVec 36 :=
  if on then v ||| BitVec.ofNat 36 (2 ^ p) else v &&& ~~~(BitVec.ofNat 36 (2 ^ p))

/-- Plane 0 (A) or 1 (B) of a port goes up or down, and the change is logged; a plane that has been retired stays down
(R415, R447). -/
def State.planeChange (s : State) (port plane : Nat) (up : Bool) : State :=
  let g := s.gliem
  let old := if plane = 0 then g.linka.getLsbD port else g.linkb.getLsbD port
  if 36 ≤ port || old = up || (up && s.retired.contains (.plane port plane)) then s
  else
    let g := if plane = 0 then { g with linka := setBit36 g.linka port up } else { g with linkb := setBit36 g.linkb port up }
    { s with gliem := g }.logEvent 1 (2 * port + plane)

/-- LINK_PLANE_CHANGE (R411, R415, R447). -/
def execLinkPlaneChange (port plane : Nat) (up : Bool) (s : State) : Out := .next (s.planeChange port plane up)

/-! ## Moved pages at the requester (R434) -/

/-- Every requester of an access sends it again, walking the page table afresh. -/
def State.askAgain (s : State) (o : Outstanding) : State :=
  let s := s.dropOutstanding o.ref
  match o.origin with
  | .request tag =>
    match s.req? tag with
    | some q => s.setReq tag q.again
    | none => s
  | .posted core num =>
    match (s.core core).path.find? fun e => e.num = num with
    | some e => s.setPath core { e with target := .fault retrySerial, ref := none }
    | none => s
  | .engine h q _ =>
    let s := s.modProg h q fun p => { p with asked := p.asked.filter fun k => k.2.2 ≠ o.ref }
    s.modChain h q fun p => { p with asked := p.asked.filter fun k => k.2.2 ≠ o.ref }
  | .course ctx peer => s.modCtx ctx fun c => { c with courses := tdel c.courses peer }
  | .fill h g => s.modFill h g fun x => { x with asked := none }
  | .unit ctx => s.modCtx ctx fun c => { c with unitOps := c.unitOps.filter fun u => u.ref ≠ o.ref }
  | _ => s

/-- An element update sent to the old home is sent again by its command. -/
def State.updateAgain (s : State) (h q cmd : Nat) (o : Outstanding) : State :=
  match o.packet.payload with
  | .reduce region seq op _ fd kind neg mag exp =>
    let v : Val := if kind = 1 then .nan false else if kind = 2 then .nan true else if kind = 3 then .inf neg else .fin neg mag exp
    let m : RedMsg :=
      { mdie := 0, ctx := o.packet.ctx, region := region, seq := BitVec.ofNat 16 seq, h := h, back := none, pa := none, fd := fd,
        op := op, val := v, va := o.va, cmdSeq := cmd }
    s.modProg h q fun p => { p with reds := p.reds ++ [(o.va, m)], awaits := p.awaits - 1 }
  | _ => s

/-- MOVED_RESEND (R434): an access answered "moved" goes on once a shoot-down of its page started after the answer is
complete: the page table is walked afresh; when it still names the old peer and frame the access ends with fault 0x42. -/
def execMovedResend (n : Nat) (s : State) : Out :=
  match s.outstanding? n with
  | none => .next s
  | some o =>
    if o.moved ≠ some 2 then .next s
    else
      let same := match s.walk o.packet.ctx o.va with
        | .leaf level e =>
          !s.pteLocal e && ptePeer e = o.peer
            && (payloadLine o.packet.payload).any fun l => (ptePa e + o.va % leafSize level) / 4096 = l / 4096
        | _ => false
      if same then .next (s.endMessage o (.fault 0x42 0))
      else
        match o.origin with
        | .engine h q cmd => .next ((s.updateAgain h q cmd o).askAgain o)
        | _ => .next (s.askAgain o)

end Sys2Proof.Machine
end

