-- ==== Sys2Proof/Machine/Home.lean ====
section
/-! DEFINITION. The home side of the Gliem fabric: the chart (R412, R413, R415), the export table (R429), accesses served and
refused (R430, R431), flows (R426), migration (R432, R433) and the ordered-reduction units (R440–R442). -/

namespace Sys2Proof.Machine

open Sys2Proof

/-! ## The chart (R412, R413) -/

/-- A port entry; none when it is malformed by itself. -/
def portEntryOf (deg p x : Nat) : Option PortEntry :=
  let e : PortEntry := { neigh := bits x 0 11, nport := bits x 11 6, st := bits x 17 2 }
  if bits x 19 13 ≠ 0 || e.st = 3 || (e.st = 0 && x ≠ 0) || (deg ≤ p && e.st ≠ 0) then none else some e

/-- A node's record: none when malformed, its ports when it is present. -/
def nodeOf (deg x : Nat) : Option (Option (List PortEntry)) :=
  match allSome ((List.range 36).map fun p => portEntryOf deg p (bytesAt x (16 + 4 * p) 4)) with
  | none => none
  | some l =>
    if bits x 1 127 ≠ 0 || bytesAt x 160 96 ≠ 0 then none
    else if bit x 0 then some (some l)
    else if l.all fun e => e.st = 0 then some none
    else none

/-- Every up or down entry is matched at its far end. -/
def Chart.matched (c : Chart) : Bool :=
  c.nodes.all fun n => n.2.zipIdx.all fun (e : PortEntry × Nat) =>
    e.1.st = 0 || (match c.port e.1.neigh e.1.nport with
      | some f => f.neigh = n.1 && f.nport = e.2 && f.st = e.1.st
      | none => false)

/-- The chart that stands at an address; none when it is malformed. -/
def State.chartAt (s : State) (a : Nat) : Option Chart :=
  let h := Mem.readN s.hbm a 64
  let nmax := bytesAt h 4 2
  let deg := byteOf h 9
  let recs := (List.range (min nmax 2048)).map fun n => (nodeOf deg (Mem.readN s.hbm (a + 64 + 256 * n) 256)).map fun r => (n, r)
  match allSome recs with
  | none => none
  | some l =>
    let c : Chart :=
      { cgen := BitVec.ofNat 32 (bytesAt h 0 4), nmax := nmax, self := bytesAt h 6 2, deg := deg, mroot := bytesAt h 10 2,
        nodes := l.filterMap fun r => r.2.map fun p => (r.1, p) }
    if 1 ≤ nmax && nmax ≤ 2048 && 1 ≤ deg && deg ≤ 35 && bytesAt h 12 52 = 0 && (tget c.nodes c.self).isSome
        && (tget c.nodes c.mroot).isSome && c.matched then some c
    else none

/-- CHART_INSTALL (R413, R415): the chart is read whole and replaces the copy in force in one cycle, or is refused. -/
def execChartInstall (s : State) : Out :=
  let g := s.gliem
  if !g.cbusy then .next s
  else
    match s.chartAt (bits g.chartbase.toNat 6 46 * 64) with
    | some c => .next { s with chart := some c, gliem := { g with cbusy := false }, root := c.mroot = c.self }
    | none => .next { s with gliem := { g with cbusy := false, cref := true } }

/-! ## The export table (R429) -/

/-- An export entry: none when it is malformed; an entry not in use is no entry. -/
def exportOf (x : Nat) : Option (Option Export) :=
  let flags := byteOf x 20
  let e : Export :=
    { pbase := bytesAt x 0 8, plen := bytesAt x 8 8, srclo := bytesAt x 16 2, srchi := bytesAt x 18 2, w := bit flags 0,
      atom := bit flags 1, ro := bit flags 2, mig := bit flags 3, thrlog := byteOf x 21 }
  if e.pbase % 4096 ≠ 0 || bits e.pbase 52 12 ≠ 0 || e.plen % 4096 ≠ 0 || bits flags 4 4 ≠ 0 || bytesAt x 22 10 ≠ 0
      || (if e.mig then e.thrlog < 4 || 24 < e.thrlog else e.thrlog ≠ 0) then none
  else some (if e.plen = 0 then none else some e)

/-- EXPORT_LOAD (R429): the export table at EXPBASE comes into force, or a malformed one sets EREF. -/
def execExportLoad (s : State) : Out :=
  let g := s.gliem
  if !g.ebusy then .next s
  else
    let x := Mem.readN s.hbm (bits g.expbase.toNat 6 46 * 64) 2048
    match allSome ((List.range 64).map fun i => exportOf (bytesAt x (32 * i) 32)) with
    | some l => .next { s with exports := l.filterMap id, gliem := { g with ebusy := false } }
    | none => .next { s with gliem := { g with ebusy := false, eref := true } }

/-- What a fabric access is, for its check. -/
inductive FabricUse where
  | load (ro : Bool)
  | store
  | atomic
  deriving DecidableEq, Repr

/-- The entry that admits an access. -/
def State.exportFor (s : State) (src pa n : Nat) : Option Export :=
  s.exports.find? fun e => e.pbase ≤ pa && pa + n ≤ e.pbase + e.plen && e.srclo ≤ src && src ≤ e.srchi && pa + n ≤ deviceBase

/-- The REASON for which an access is refused (R430). -/
def State.refusal (s : State) (src hd pa n : Nat) (u : FabricUse) : Option Nat :=
  match s.exportFor src pa n with
  | none => some 1
  | some e =>
    if u = .store && !e.w then some 2
    else if u = .atomic && !e.atom then some 3
    else if hd ≠ 7 && hd ≠ homeDie pa then some 4
    else if u = .load true && !e.ro then some 5
    else none

/-! ## Migration counters (R432) -/

/-- Writes a record to the migration event queue. -/
def State.migrationEvent (s : State) (pa src count : Nat) : State :=
  let g := s.gliem
  let a := bits g.meqbase.toNat 6 46 * 64 + 16 * (g.meqtail.toNat % 1024)
  let v := pa / 4096 * 4096 + src * 2 ^ 64 + count * 2 ^ 96
  { s with hbm := Mem.write s.hbm a v 16, gliem := { g with meqtail := g.meqtail + 1 } }.interrupt 32

/-- Counts an access to a page at an M-die; the least recently used page makes room. -/
def State.countMigration (s : State) (src pa thrlog : Nat) : State :=
  let m := homeMdie pa
  let page := pa / 4096 * 4096
  let mine := s.migCounts.filter fun c => c.mdie = m
  let rest := s.migCounts.filter fun c => c.mdie ≠ m
  let old := mine.find? fun c => c.pa = page
  let others := mine.filter fun c => c.pa ≠ page
  let n := match old with
    | some c => if c.last = src then c.count + 1 else 1
    | none => 1
  let stopped := old.any fun c => c.stopped
  let hit := !stopped && 2 ^ thrlog ≤ n
  let e : MigCount := { mdie := m, pa := page, last := src, count := if stopped then (old.map (·.count)).getD n else n,
                        stopped := stopped || hit }
  let kept := if old.isNone && 4096 ≤ others.length then others.drop 1 else others
  let s := { s with migCounts := rest ++ kept ++ [e] }
  if hit then s.migrationEvent page src n else s

/-! ## Pages that move away (R433) -/

/-- The page of a migration in its copying state. -/
def State.migrating (s : State) (pa : Nat) : Bool :=
  s.gliem.migst = 1 && pa / 4096 = bits s.gliem.migpa.toNat 12 40

/-- Sends bytes of the moving page to its new home under the next page sequence number, on the course word in use. -/
def State.sendPage (s : State) (off : Nat) (b : Option (List Byte)) : State :=
  let g := s.gliem
  let w := if g.migcrs = 0 then g.migcrs0 else g.migcrs1
  let npa := bits g.mignpa.toNat 12 40 * 4096
  let pay : Payload := match b with
    | some b => .pageWrite (npa + off) g.migseq g.migfirst b
    | none => .pageEnd npa g.migseq g.migfirst
  match s.chart with
  | none => { s with gliem := { g with migref := true } }
  | some ch =>
    let (seq, flows) := takeSeq s.fabric.sendSeq 64 g.migpeer (pathOf w)
    let ref := s.fabric.nextRef
    let p : Packet :=
      { course := w, hop := 0, isReply := false, src := ch.self, ctx := 64, flow := pathOf w, seq := seq, hd := 7, ref := ref,
        entered := [], payload := pay }
    let alt := if g.migcrs = 0 then g.migcrs1 else 0
    let o : Outstanding :=
      { ref := ref, origin := .migration g.migfirst alt, peer := g.migpeer, packet := p, sentAt := s.cycle, course := g.migcrs }
    let f := { s.fabric with sendSeq := flows, nextRef := ref + 1, outstanding := s.fabric.outstanding ++ [o] }
    let s := { s with fabric := f, gliem := { g with migseq := g.migseq + 1 } }
    let s := s.addTraffic (homeDie (bits g.migpa.toNat 12 40 * 4096)) 6 (payloadSize pay)
    match ch.courseCause w g.migpeer with
    | none => s.inject p
    | some _ => s.migrateAgain o g.migfirst alt

/-- MIGRATION_START (R433): the page is copied to its new home, under page sequence numbers that go on from the last migration's. -/
def execMigrationStart (s : State) : Out :=
  let g := s.gliem
  if g.migst = 1 then .next s
  else
    let pa := bits g.migpa.toNat 12 40 * 4096
    let s := { s with gliem := { g with migst := 1, migfirst := g.migseq, migcrs := 0, migref := false },
                      moved := s.moved.filter fun m => m.pa ≠ pa }
    .next (s.sendPage 0 (some (Mem.bytes s.hbm pa 4096)))

/-- A message of the migration has not been acknowledged. -/
def State.migrationWaits (s : State) : Bool := s.fabric.outstanding.any fun o =>
  match o.origin with
  | .migration first _ => first = s.gliem.migfirst
  | _ => false

/-- MIGRATION_SWITCH (R433): with the copy and every forward acknowledged the last page sequence is sent and the page is
marked moved; after both courses failed or a refusal the migration fails and the page stays. -/
def execMigrationSwitch (ok : Bool) (s : State) : Out :=
  let g := s.gliem
  let failed := g.migref || g.migcrs = 2
  let pa := bits g.migpa.toNat 12 40 * 4096
  let ended := fun (s : State) st =>
    { s with gliem := { s.gliem with migst := st }, migCounts := s.migCounts.filter fun c => c.pa ≠ pa }
  if g.migst ≠ 1 then .next s
  else if !ok then .next (if failed then ended s 3 else s)
  else if failed || s.migrationWaits then .next s
  else
    let s := s.sendPage 0 none
    let m : Moved := { pa := pa, peer := g.migpeer, npa := bits g.mignpa.toNat 12 40 * 4096 }
    .next (ended { s with moved := s.moved ++ [m] } 2)

/-! ## Serving a request -/

/-- Sends the reply to a request back on its recorded entry ports, and keeps it for copies of the request (R426). -/
def State.reply (s : State) (p : Packet) (pay : Payload) : State :=
  let r : Packet := { p with isReply := true, hop := 0, src := (s.selfPeer).getD 0, payload := pay }
  let g : GivenReply := { ctx := p.ctx, src := p.src, flow := p.flow, seq := p.seq, reply := r, givenAt := s.cycle }
  ({ s with fabric := { s.fabric with replies := s.fabric.replies ++ [g] } }).inject r

/-- Drops the copies of a peer's lines in a range (R431). -/
def State.dropCopies (s : State) (peer lo hi : Nat) : State :=
  { s with peerLines := s.peerLines.filter fun l => !(l.peer = peer && lo < l.pa + 128 && l.pa < hi) }

/-- RO_LINE_REVOKE (R431): the lines of a home and range are dropped. -/
def execRoLineRevoke (peer lo hi : Nat) (s : State) : Out := .next (s.dropCopies peer lo hi)

/-- A write that has come for a frame: its bytes at their home, forwarded while its page moves (R433). -/
def State.homeWrite (s : State) (pa : Nat) (b : List Byte) : State :=
  let n := b.length
  let s := ({ s with hbm := Mem.write s.hbm pa (ofBytes b) n }.clearErrors pa n).noteTag pa n none
  if s.migrating pa then s.sendPage (pa % 4096) (some b) else s

/-- A message of this migration with the next page sequence number. -/
def Inbound.isNext (i : Inbound) (p : Packet) : Bool :=
  match p.payload with
  | .pageWrite _ n first _ => p.src = i.peer && first = i.first && n = i.next
  | _ => false

/-- Applies what has come of a moving page in its sequence; once all of it is applied its page is served here. -/
def State.applyInbound (s : State) (i : Inbound) : Nat → State × Inbound
  | 0 => (s, i)
  | fuel + 1 =>
    match i.held.find? i.isNext with
    | none => (s, i)
    | some p =>
      match p.payload with
      | .pageWrite pa _ _ b =>
        ((s.homeWrite pa b).reply p .ack).applyInbound { i with next := i.next + 1, held := i.held.erase p } fuel
      | _ => (s, i)

/-- The page's state at its new home for a message of a migration: the one it has, or a new one where that migration is newer,
for of one that failed nothing more will come; none for a message of an older one. -/
def State.inboundFor (s : State) (src page first : Nat) : Option Inbound :=
  let fresh : Inbound := { peer := src, pa := page, first := first, next := first }
  match s.fabric.inbound.find? fun i => i.pa = page with
  | none => some fresh
  | some i => if i.peer = src && first < i.first then none else if i.peer = src && i.first = first then some i else some fresh

/-- A message of a page that moves here (R433). -/
def State.pageMessage (s : State) (p : Packet) (pa n first : Nat) (last : Option Nat) : State :=
  let page := pa / 4096 * 4096
  match s.refusal p.src 7 pa (max 1 n) .store, s.inboundFor p.src page first with
  | some r, _ => s.reply p (.refused r)
  | none, none => s.reply p .ack
  | none, some i =>
    let (s, i) := match last with
      | some k => (s.reply p .ack, { i with last := some k })
      | none => s.applyInbound { i with held := i.held ++ [p] } (i.held.length + 1)
    let others := s.fabric.inbound.filter fun i => i.pa ≠ page
    let done := i.last = some i.next
    { s with fabric := { s.fabric with inbound := if done then others else others ++ [i] } }

/-- The page of a request moves here: it waits (R433). -/
def State.awaitsPage (s : State) (pa : Nat) : Bool := s.fabric.inbound.any fun i => i.pa = pa / 4096 * 4096

/-- A check of an access, then the access; moved pages are answered (R434). -/
def State.serveAccess (s : State) (p : Packet) (pa n : Nat) (u : FabricUse) (k : State → State) : State :=
  match s.refusal p.src p.hd pa n u with
  | some r => s.reply p (.refused r)
  | none =>
    match s.moved.find? fun m => m.pa = pa / 4096 * 4096 with
    | some m => s.reply p (.moved m.peer (m.npa + pa % 4096))
    | none =>
      match s.exportFor p.src pa n with
      | some e => k (if e.mig then s.countMigration p.src pa e.thrlog else s)
      | none => k s

/-- A request for a page that moves here waits for the page (R433), unless it is refused or the page has moved on. -/
def State.mustWait (s : State) (p : Packet) : Bool :=
  let waits := fun (pa n : Nat) (u : FabricUse) =>
    s.awaitsPage pa && (s.refusal p.src p.hd pa n u).isNone && !(s.moved.any fun m => m.pa = pa / 4096 * 4096)
  match p.payload with
  | .read pa n ro => waits pa n (.load ro)
  | .write pa b => waits pa b.length .store
  | .atomic _ w _ pa _ _ => waits pa w .atomic
  | .reduce _ _ _ pa fd _ _ _ _ => waits pa ((fdOf fd.toNat).alignWidth) .atomic
  | _ => false

/-- The value that a reduction message carries. -/
def reduceVal (kind : Nat) (neg : Bool) (mag : Nat) (exp : Int) : Val :=
  if kind = 1 then .nan false else if kind = 2 then .nan true else if kind = 3 then .inf neg else .fin neg mag exp

/-- Performs a request in its turn (R428–R434, R441, R269). -/
def State.serveRequest (s : State) (p : Packet) : State :=
  match p.payload with
  | .read pa n ro =>
    s.serveAccess p pa n (.load ro) fun s =>
      if s.lineBad pa n then s.reply p (.refused refusedLine)
      else (s.addTraffic (homeDie pa) 6 n).reply p (.data (Mem.bytes s.hbm pa n) 0)
  | .write pa b =>
    s.serveAccess p pa b.length .store fun s =>
      let s := s.addTraffic (homeDie pa) 7 b.length
      if s.partialBad pa b.length (ones b.length) then s.reply p (.refused refusedLine) else (s.homeWrite pa b).reply p .ack
  | .atomic op w fp pa x cmp =>
    s.serveAccess p pa w .atomic fun s =>
      let s := (s.addTraffic (homeDie pa) 7 w).addTraffic (homeDie pa) 6 w
      if s.lineBad pa w then s.reply p (.refused refusedLine)
      else
        let old := Mem.readN s.hbm pa w
        let (new, fl) := if fp then amoFloat op w old (x.toNat % 2 ^ (8 * w))
          else (amoInt op (8 * w) old (x.toNat % 2 ^ (8 * w)) (cmp.toNat % 2 ^ (8 * w)), 0)
        (s.homeWrite pa (toBytes w new)).reply p (.data (toBytes w old) fl)
  | .pageWrite pa _ first b => (s.addTraffic (homeDie pa) 7 b.length).pageMessage p pa b.length first none
  | .pageEnd pa k first => s.pageMessage p pa 0 first (some k)
  | .revoke lo hi => (s.dropCopies p.src lo hi).reply p .ack
  | .reduce region seq op pa fd kind neg mag exp =>
    s.serveAccess p pa ((fdOf fd.toNat).alignWidth) .atomic fun s =>
      let m : RedMsg :=
        { mdie := homeMdie pa, ctx := p.ctx, region := region, seq := BitVec.ofNat 16 seq, h := 0, back := some p, pa := some pa,
          fd := fd, op := op, val := reduceVal kind neg mag exp }
      let s := s.addTraffic (homeDie pa) 7 (payloadSize p.payload)
      { s with redMsgs := tput s.redMsgs s.nextMsg m, nextMsg := s.nextMsg + 1 }
  | .reduceMark region seq => (s.redMarkers p.ctx region (BitVec.ofNat 16 seq) 0).reply p .ack
  | .collective h rank sender b digest =>
    match execCollectiveDataArrive h { rank := rank, sender := sender + 2 ^ 32 * (1 + p.src) } b digest s with
    | .next s => s.reply p .ack
    | _ => s
  | _ => s

/-! ## Flows (R426) -/

def State.flowNext (s : State) (p : Packet) : Nat :=
  ((s.fabric.recvSeq.find? fun f => f.ctx = p.ctx && f.peer = p.src && f.flow = p.flow).map (·.next)).getD 0

/-- The number of the flow's next message rises by one. -/
def State.flowTaken (s : State) (p : Packet) : State :=
  { s with fabric := { s.fabric with recvSeq := (takeSeq s.fabric.recvSeq p.ctx p.src p.flow).2 } }

/-- Messages of one flow. -/
def sameFlow (p q : Packet) : Bool := p.ctx = q.ctx && p.src = q.src && p.flow = q.flow

/-- Performs the message of a flow that is due and need not wait, then those of that flow that came early. -/
def State.inOrder (s : State) (p : Packet) : Nat → State
  | 0 => s
  | fuel + 1 =>
    let s := (s.flowTaken p).serveRequest p
    match s.fabric.early.find? fun q => sameFlow q p && q.seq = s.flowNext p && !s.mustWait q with
    | some q => ({ s with fabric := { s.fabric with early := s.fabric.early.erase q } }).inOrder q fuel
    | none => s

/-- Messages that waited for a page that has come whole are performed, each with its flow in order. -/
def State.serveEarly (s : State) : Nat → State
  | 0 => s
  | fuel + 1 =>
    match s.fabric.early.find? fun q => q.seq = s.flowNext q && !s.mustWait q with
    | some q =>
      (({ s with fabric := { s.fabric with early := s.fabric.early.erase q } }).inOrder q (s.fabric.early.length + 1)).serveEarly fuel
    | none => s

/-- A request that has reached its destination: in its turn, early, or a copy of one applied already, which gets the reply
that was given (R426). A message that waits for its page holds those of its flow behind it. -/
def State.takeRequest (s : State) (p : Packet) : State :=
  let n := s.flowNext p
  if (p.seq + 2 ^ 32 - n) % 2 ^ 32 < 2 ^ 31 then
    if s.fabric.early.any fun q => sameFlow q p && q.seq = p.seq then s
    else if p.seq = n && !s.mustWait p then
      let s := s.inOrder p (s.fabric.early.length + 1)
      s.serveEarly s.fabric.early.length
    else { s with fabric := { s.fabric with early := s.fabric.early ++ [p] } }
  else
    match s.fabric.replies.find? fun g =>
        g.ctx = p.ctx && g.src = p.src && g.flow = p.flow && g.seq = p.seq && s.cycle ≤ g.givenAt + 2 ^ 21 with
    | some g => s.inject { g.reply with entered := p.entered, ref := p.ref }
    | none => s

/-- PACKET_ARRIVE (R418, R419): a packet has come by the link of a port, which a request records: it is passed on, checked at
its destination, or, a reply at its source, given to its requester. With no chart nothing is accepted (R415). -/
def execPacketArrive (i : Incoming) (s : State) : Out :=
  let p := i.packet
  match s.chart with
  | none => .next s
  | some ch =>
    if p.isReply then
      if !p.entered.isEmpty then .next (s.inject p)
      else
        match p.payload with
        | .courseFault cause hop => .next (s.courseFault p.ref p.course cause hop)
        | _ => .next (s.replyArrives p)
    else
      let p := { p with entered := p.entered ++ [i.port] }
      if p.hop ≤ nhOf p.course then .next (s.inject p)
      else if destOf p.course = ch.self && p.hop = nhOf p.course + 1 then .next (s.takeRequest p)
      else .next (s.returnFault p 8 (nhOf p.course))

/-- DUP_REPLY_EXPIRY (R426): a reply kept for copies goes 2^21 cycles after it was given. -/
def execDupReplyExpiry (n : Nat) (s : State) : Out :=
  match s.fabric.replies[n]? with
  | none => .next s
  | some g =>
    if g.givenAt + 2 ^ 21 < s.cycle then .next { s with fabric := { s.fabric with replies := s.fabric.replies.eraseIdx n } }
    else .next s

/-! ## Ordered reductions (R440–R442) -/

def State.redRegion (s : State) (m : RedMsg) : Option RedRegion :=
  s.redRegions.find? fun r => r.mdie = m.mdie && r.ctx = m.ctx && r.region = m.region

/-- The entry of a message's region, made with EXP 0 when there is room; none while the unit is full (R440). -/
def State.openRegion (s : State) (m : RedMsg) : Option (RedRegion × State) :=
  match s.redRegion m with
  | some r => some (r, s)
  | none =>
    if 256 ≤ (s.redRegions.filter fun r => r.mdie = m.mdie).length then none
    else
      let r : RedRegion := { mdie := m.mdie, ctx := m.ctx, region := m.region, exp := 0 }
      some (r, { s with redRegions := s.redRegions ++ [r] })

def State.dropRed (s : State) (n : Nat) : State := { s with redMsgs := tdel s.redMsgs n }

def State.setRed (s : State) (n : Nat) (m : RedMsg) : State := { s with redMsgs := tput s.redMsgs n m }

/-- Held messages of an M-die. -/
def State.redHeld (s : State) (mdie : Nat) : Nat := (s.redMsgs.filter fun e => e.2.mdie = mdie && e.2.held).length

/-- The new value of an element, and the flags (R264). -/
def RedMsg.apply (m : RedMsg) (old : Nat) : Nat × Nat :=
  let f := if (fdOf m.fd.toNat).kind = 2 then fmtF32 else fmtBf16
  let a := f.value old
  if m.op = 0 then roundOp f .rne [a, m.val] (a.add m.val)
  else if m.val.isSnan then (f.qnan, fNV)
  else fpMinMax f (m.op = 2) old (roundStd f .rne m.val).1

/-- The update is answered to its command, here or at a peer. -/
def State.redAnswer (s : State) (m : RedMsg) (a : Answer) : State :=
  match m.back, a with
  | some p, .value _ _ fl => s.reply p (.data [] fl)
  | some p, .fault c _ => s.reply p (.refused (if c = 0x22 then refusedLine else refusedSeq))
  | none, .value _ _ fl => s.modTeam m.h fun t =>
      let x := t.queue 0
      t.setQueue 0 { x with prog := x.prog.map fun p =>
        if x.headSeq = m.cmdSeq && p.reduces m.region m.seq.toNat then { p with awaits := p.awaits - 1, flags := p.flags ||| fl } else p }
  | none, .fault c r => s.stopCommand m.h 0 m.cmdSeq c r (if c = 0x34 then bits m.va 32 32 else bits m.va 12 32)

/-- Applies an element update at its home. -/
def State.applyUpdate (s : State) (n : Nat) (m : RedMsg) (pa : Nat) : State :=
  let s := s.dropRed n
  let w := kindBytes (fdOf m.fd.toNat).kind
  if s.lineBad pa w then s.redAnswer m (.fault 0x22 0)
  else
    let (v, fl) := m.apply (Mem.readN s.hbm pa w)
    (s.homeWrite pa (toBytes w v)).redAnswer m (.value 0 0 fl)

/-- A message that is too early is held, or refused for this attempt when no shared slot is free (R442). -/
def State.holdRed (s : State) (n : Nat) (m : RedMsg) : State :=
  if m.held then s
  else if s.redHeld m.mdie < Config.redSlots then s.setRed n { m with held := true }
  else s.setRed n { m with refusedAt := some s.cycle }

/-- RED_UPDATE_ARRIVE (R440–R442): an element update at M-die `die` is applied in its SEQ, held, or refused. -/
def execRedUpdateArrive (die n : Nat) (s : State) : Out :=
  match tget s.redMsgs n with
  | none => .next s
  | some m =>
    match m.pa, s.openRegion m with
    | some pa, some (r, s) =>
      if m.mdie ≠ die || m.refusedAt.isSome then .next s
      else
        let d := (m.seq - r.exp).toNat
        let own := m.back.isNone && s.pathTouches (handleCore m.h) pa (kindBytes (fdOf m.fd.toNat).kind)
        if d = 0 then .next (if own then s else s.applyUpdate n m pa)
        else if d < 32768 then .next (s.holdRed n m)
        else .next ((s.dropRed n).redAnswer m (.fault 0x34 0))
    | _, _ => .next s

/-- The region's expected SEQ rises by one; after 0xFFFF the entry is freed. -/
def State.advanceRegion (s : State) (r : RedRegion) : State :=
  if r.exp = 0xFFFF then { s with redRegions := s.redRegions.erase r }
  else { s with redRegions := s.redRegions.map fun x => if x = r then { x with exp := x.exp + 1 } else x }

/-- An update of the same region and SEQ is still at the M-die. -/
def State.updatesLeft (s : State) (m : RedMsg) : Bool :=
  s.redMsgs.any fun e =>
    e.2.mdie = m.mdie && e.2.ctx = m.ctx && e.2.region = m.region && e.2.seq = m.seq && e.2.pa.isSome

/-- RED_MARKER_ARRIVE (R441): a marker in its SEQ raises EXP once every update of the SEQ has been applied. -/
def execRedMarkerArrive (die n : Nat) (s : State) : Out :=
  match tget s.redMsgs n with
  | none => .next s
  | some m =>
    match m.pa, s.openRegion m with
    | none, some (r, s) =>
      if m.mdie ≠ die || m.refusedAt.isSome then .next s
      else
        let d := (m.seq - r.exp).toNat
        if d = 0 then .next (if s.updatesLeft m then s else (s.dropRed n).advanceRegion r)
        else if d < 32768 then .next (s.holdRed n m)
        else .next (s.dropRed n)
    | _, _ => .next s

/-- RED_RETRY (R442): the sender of a refused message tries again. -/
def execRedRetry (die n : Nat) (s : State) : Out :=
  match tget s.redMsgs n with
  | none => .next s
  | some m => .next (if m.mdie = die && m.refusedAt.isSome then s.setRed n { m with refusedAt := none } else s)

end Sys2Proof.Machine
end

