-- ==== Sys2Proof/Machine/Digest.lean ====
section
/-! DEFINITION. SHAKE256 and the page-digest tree (R444, R445). -/

namespace Sys2Proof.Machine

open Sys2Proof

/-! ## SHAKE256 (R445: the function of FIPS 202)

The permutation is written as FIPS 202 defines it, with no table: rotation amounts by the walk over the lanes, round constants
by the shift register. -/

/-- The 25 lanes of the permutation's state; lane (x, y) stands at 5y + x, coordinates modulo 5. -/
abbrev Lanes := Vector (BitVec 64) 25

def Lanes.lane (a : Lanes) (x y : Nat) : BitVec 64 := vget a (y % 5 * 5 + x % 5) 0

/-- The exclusive or of a column. -/
def Lanes.parity (a : Lanes) (x : Nat) : BitVec 64 := (List.range 5).foldl (fun p y => p ^^^ a.lane x y) 0

/-- A state by its lanes. -/
def Lanes.mk (f : Nat → Nat → BitVec 64) : Lanes := Vector.ofFn fun k => f (k.val % 5) (k.val / 5)

/-- The rotation of each lane of a walk from (x, y) on: of its t-th lane by (t + 1)(t + 2)/2, the next being (y, 2x + 3y). -/
def rotationWalk : Nat → Nat → Nat → Nat → List ((Nat × Nat) × Nat)
  | 0, _, _, _ => []
  | n + 1, t, x, y => ((x, y), (t + 1) * (t + 2) / 2 % 64) :: rotationWalk n (t + 1) y ((2 * x + 3 * y) % 5)

/-- The rotation of lane (x, y); that of (0, 0), which the walk from (1, 0) never meets, is 0. -/
def rotationOf (x y : Nat) : Nat := (((rotationWalk 24 0 1 0).find? fun e => e.1 = (x % 5, y % 5)).map (·.2)).getD 0

/-- One step of the shift register of the round constants: x^8 + x^6 + x^5 + x^4 + 1. -/
def constantStep (r : Nat) : Nat := if r < 128 then 2 * r else (2 * r) ^^^ 0x171

/-- A round's constant takes seven bits of the register, bit j at place 2^j − 1; with it the register after them. -/
def constantBits : Nat → Nat → Nat → Nat × Nat
  | 0, r, _ => (0, r)
  | n + 1, r, p =>
    let (v, r') := constantBits n (constantStep r) (2 * p + 1)
    (r % 2 * 2 ^ p + v, r')

/-- Rounds of the permutation, with the register. -/
def rounds : Nat → Nat → Lanes → Lanes
  | 0, _, a => a
  | n + 1, r, a =>
    let mixed := Lanes.mk fun x y => a.lane x y ^^^ a.parity (x + 4) ^^^ (a.parity (x + 1)).rotateLeft 1
    -- lane (x, y) comes from (x + 3y, x), rotated
    let moved := Lanes.mk fun x y => (mixed.lane (x + 3 * y) x).rotateLeft (rotationOf (x + 3 * y) x)
    let rc := constantBits 7 r 0
    rounds n rc.2 (Lanes.mk fun x y =>
      let v := moved.lane x y ^^^ (moved.lane (x + 2) y &&& ~~~(moved.lane (x + 1) y))
      if x = 0 && y = 0 then v ^^^ BitVec.ofNat 64 rc.1 else v)

/-- The permutation of 24 rounds. -/
def permute (a : Lanes) : Lanes := rounds 24 1 a

/-- Bytes of a rate block of SHAKE256. -/
def shakeRate : Nat := 136

def absorb (a : Lanes) (block : List Byte) : Lanes :=
  permute (Lanes.mk fun x y => a.lane x y ^^^ BitVec.ofNat 64 (ofBytes ((block.drop (8 * (5 * y + x))).take 8)))

def absorbAll : Nat → Lanes → List Byte → Lanes
  | 0, a, _ => a
  | n + 1, a, l => absorbAll n (absorb a (l.take shakeRate)) (l.drop shakeRate)

/-- The padded message: 0x1F, zeros, and 0x80 in the last byte of a block. -/
def shakePad (l : List Byte) : List Byte :=
  let z := shakeRate - 1 - l.length % shakeRate
  if z = 0 then l ++ [0x9F] else l ++ [0x1F] ++ List.replicate (z - 1) 0 ++ [0x80]

def squeeze : Nat → Lanes → List Byte
  | 0, _ => []
  | n + 1, a => (a.toList.flatMap fun x => toBytes 8 x.toNat).take shakeRate ++ squeeze n (permute a)

/-- The first n bytes of SHAKE256. -/
def shake256 (l : List Byte) (n : Nat) : List Byte :=
  let p := shakePad l
  (squeeze (ceilDiv n shakeRate) (absorbAll (p.length / shakeRate) (Vector.replicate 25 0) p)).take n

/-! ## Requests (R445) -/

/-- DIGEST_REQUEST (R445): a store of 0 requests a digest; another value, or one that is pending already, discards it. -/
def execDigestRequest (ctx : Nat) (v : Word) (s : State) : Out :=
  if v = 0 then .next (s.modCtx ctx fun c => { c with digest := true }) else .next s

/-! ## The tree -/

/-- The tracked 4 KiB pages of a context, local or at a peer, in ascending virtual address. -/
def State.trackedPages (s : State) (ctx : Nat) : List Nat :=
  ((s.leaves ctx).filter fun e => pteTrk e.2.2).flatMap fun e =>
    (List.range (leafSize e.2.1 / 4096)).map fun i => canon (e.1 + 4096 * i)

/-- The number under which the digest engine's accesses at peers are kept; no source of R396 has it. -/
def digestSrc : Nat := 8

/-- A piece of an access of the digest engine, within a page: no rule names a fault-path source for the engine, so that a fault
ends the access (log entry 53). -/
def State.digestPiece (s : State) (ctx va len : Nat) (write : Option Nat) : UnitRes × State :=
  if !isCanon va then (.fault, s)
  else
    match s.translate ctx 0 va len (if write.isSome then .write else .read) with
    | (.frame pa, s) => s.unitFrame pa len write
    | (.peer p pa hd ro, s) => s.unitPeer ctx digestSrc va len write p pa hd ro
    | (_, s) => (.fault, s)

/-- Reads bytes for the digest engine. -/
def State.digestRead (s : State) (ctx va len : Nat) : UnitRes × State :=
  State.unitPieces (fun s => s.digestPiece ctx) s none (segmentsOf va len) 0 0

/-- Writes bytes for the digest engine. -/
def State.digestWrite (s : State) (ctx va : Nat) (b : List Byte) : UnitRes × State :=
  State.unitPieces (fun s => s.digestPiece ctx) s (some (ofBytes b)) (segmentsOf va b.length) 0 0

/-- A leaf of the tree: the digest of a page's address and bytes. -/
def leafDigest (va v : Nat) : List Byte := shake256 (toBytes 8 va ++ toBytes 4096 v) 16

/-- What reading the tracked pages comes to: their digests, or a page whose bytes have not come, or one that cannot be read. -/
inductive Leaves where
  | ok (l : List (List Byte))
  | later
  | fault

/-- The leaves of the pages from one on, each page read at the M-die that homes it. -/
def State.leafDigests (s : State) (ctx : Nat) : List Nat → Leaves × State
  | [] => (.ok [], s)
  | va :: r =>
    match s.digestRead ctx va 4096 with
    | (.ok v, s) =>
      (match s.leafDigests ctx r with
       | (.ok l, s) => (.ok (leafDigest va v :: l), s)
       | x => x)
    | (.fault, s) => (.fault, s)
    | (_, s) => (.later, s)

/-- The next level: pairs of nodes, a last odd one unchanged. -/
def digestLevel : List (List Byte) → List (List Byte)
  | a :: b :: r => shake256 (a ++ b) 16 :: digestLevel r
  | l => l

/-- The levels above the leaves, up to the root. -/
def digestLevels : Nat → List (List Byte) → List (List Byte)
  | 0, _ => []
  | n + 1, l => if l.length ≤ 1 then [] else digestLevel l ++ digestLevels n (digestLevel l)

/-- The bytes of the digest table. -/
def digestTable (ps : List Nat) (leaves : List (List Byte)) : List Byte :=
  (ps.zip leaves).flatMap (fun e => toBytes 8 e.1 ++ toBytes 8 0 ++ e.2) ++ (digestLevels 32 leaves).flatten

/-- The digest request of a context is done: tasks that it held back may become ready. -/
def State.digestOver (s : State) (ctx : Nat) : State :=
  let s := (s.dropUnitOps ctx digestSrc).modCtx ctx fun c => { c with digest := false, digestPut := none }
  { s with launches := s.launches.map fun (e : Nat × Launch) =>
      if e.2.ctx = ctx then (e.1, { e.2 with afterDigest := false }) else e }

/-- The last write of a digest, to the control block; the digest is done once it is made, or is met by a fault. -/
def State.digestLast (s : State) (ctx va : Nat) (b : List Byte) : State :=
  match s.digestWrite ctx va b with
  | (.ok _, s) => s.digestOver ctx
  | (.fault, s) => s.digestOver ctx
  | (_, s) => s.modCtx ctx fun c => { c with digestPut := some (va, b) }

/-- A digest control block of 64 bytes is malformed (R13, R444). -/
def digestBlockBad (x : Nat) : Bool :=
  bytesAt x 0 8 % 4096 ≠ 0 || bytesAt x 8 4 = 0 || 2 ^ 24 < bytesAt x 8 4 || bits x 161 7 ≠ 0 || bytesAt x 21 43 ≠ 0

/-- The digest by a control block: with more than DGMAX pages, or a malformed block, only DGERR is written; else the tree, then
DGCNT and DGSEQ. A page that cannot be read ends it with nothing written (log entry 53). -/
def State.takeDigest (s : State) (ctx : Nat) (c : Context) (x : Nat) : State :=
  let ps := s.trackedPages ctx
  if digestBlockBad x || bytesAt x 8 4 < ps.length then
    s.digestLast ctx (canon (c.dgcb + 20)) [BitVec.ofNat 8 (byteOf x 20 ||| 1)]
  else
    match s.leafDigests ctx ps with
    | (.later, s) => s
    | (.fault, s) => s.digestOver ctx
    | (.ok l, s) =>
      let s := (s.digestWrite ctx (bytesAt x 0 8) (digestTable ps l)).2
      s.digestLast ctx (canon (c.dgcb + 12))
        (toBytes 4 ps.length ++ toBytes 4 (bytesAt x 16 4 + 1) ++ [BitVec.ofNat 8 (byteOf x 20 &&& 0xFE)])

/-- DIGEST_APPLY (R444, R445): once every earlier launch has completed or failed the digest is taken (R377), each page and the
block itself at a peer where the page table puts it there (R428). -/
def execDigestApply (ctx : Nat) (s : State) : Out :=
  match s.ctx? ctx with
  | none => .next s
  | some c =>
    let earlier := s.launches.any fun e => e.2.ctx = ctx && !e.2.afterDigest && e.2.fate = .running
    if !c.digest || earlier || c.st ≠ .running then .next s
    else
      match c.digestPut with
      | some (va, b) => .next (s.digestLast ctx va b)
      | none =>
        match s.digestRead ctx c.dgcb 64 with
        | (.ok x, s) => .next (s.takeDigest ctx c x)
        | (.fault, s) => .next (s.digestOver ctx)
        | (_, s) => .next s

end Sys2Proof.Machine
end

