-- ==== Sys2Proof/Machine/Errors.lean ====
section
/-! DEFINITION. Error events with the retirement of resources (R446, R447), and the data errors of buffers and memory lines
(R395, R448), each of which is an event of its core or frame. -/

namespace Sys2Proof.Machine

open Sys2Proof

/-! ## Error events (R446, R447) -/

/-- The events of a resource within the last 10 ms. -/
def State.eventsOf (s : State) (r : Resource) : List Nat :=
  (((s.errCounts.find? fun (e : Resource × List Nat) => e.1 = r).map (·.2)).getD []).filter fun c => s.cycle < c + 14000000

/-- The number under which an event-log entry names a resource. -/
def resourceNumber : Resource → Nat
  | .frame pa => 5 * (pa / 4096)
  | .bank core bank => 5 * (32 * core + bank) + 1
  | .core core => 5 * core + 2
  | .plane port plane => 5 * (2 * port + plane) + 3
  | .way die way => 5 * (16 * die + way) + 4

/-- A resource is retired and the event log names it; a frame's retirement is reported to the host complex. -/
def State.retireResource (s : State) (r : Resource) : State :=
  let s := { s with retired := s.retired ++ [r] }.logEvent 2 (resourceNumber r)
  match r with
  | .frame pa => { s with frameReports := s.frameReports ++ [pa] }
  | .way _ _ => s
  | .bank core _ => s.modCore core fun c => { c with retiredBanks := c.retiredBanks + 1 }
  | .core core => s.modCore core fun c => { c with retired := true }
  | .plane port plane => s.planeChange port plane false

/-- Counts an error event of a resource: its fourth within 10 ms retires it, fewer are logged (R446). -/
def State.countError (s : State) (r : Resource) : State :=
  if s.retired.contains r then s
  else
    let l := s.eventsOf r ++ [s.cycle]
    let s := { s with errCounts := (s.errCounts.filter fun (e : Resource × List Nat) => e.1 ≠ r) ++ [(r, l)] }
    if 4 ≤ l.length then s.retireResource r else s.logEvent 3 (resourceNumber r)

/-- ERROR_EVENT (R446, R447): a corrected error of a resource, or a flit of a plane that needed more than one retry. -/
def execErrorEvent (r : Resource) (s : State) : Out := .next (s.countError r)

/-! ## Data errors (R395, R448) -/

/-- The byte of a buffer lies in what a local load read. -/
def LocalRead.covers (r : LocalRead) (off : Nat) : Bool := r.off ≤ off && off < r.off + r.width

/-- BUFFER_DATA_ERROR (R395, R446): a local load in flight that read buffer byte `off` meets an uncorrectable error, an event
of its core: its destination is not written and the data-error fault strikes at its landing time, before the next word. -/
def execBufferDataError (h k off : Nat) (s : State) : Out :=
  match s.team? h with
  | none => .next s
  | some t =>
    let x := t.strand k
    let bad := fun (f : Flight) => f.land ≤ x.time && f.readAt = 0 && f.src.any fun r => r.covers off
    if x.flights.any bad && !t.halted then
      let t' := t.setStrand k { x with flights := x.flights.filter fun f => !bad f }
      .next (((s.setTeam h t').trapHere h k { code := 0x22, reason := 1, info := BitVec.ofNat 64 off }).countError (.core t.core))
    else .next s

/-- MEMORY_LINE_ERROR (R446, R448): an uncorrectable error on a line, an event of its frame, adds an entry to its M-die's
error table, naming the context that first consumed it; with the table full only the overflow count rises, and Binnacle logs
it. -/
def execMemoryLineError (pa ctx : Nat) (s : State) : Out :=
  let m := homeMdie pa
  let line := pa / 128
  if s.errors.any fun e => e.line = line then .next s
  else
    let full := decide (1024 ≤ (s.errors.filter fun e => e.mdie = m && e.tabled).length)
    let s : State := { s with errors := s.errors ++ [{ mdie := m, line := line, ctx := ctx, tabled := !full }] }
    let s := if full then ({ s with errOver := vset s.errOver m (vget s.errOver m 0 + 1) } : State).logEvent 6 pa else s
    .next (s.countError (.frame (pa / 4096 * 4096)))

end Sys2Proof.Machine
end

