-- ==== Sys2Proof/Machine/Management.lean ====
section
/-! DEFINITION. The meridian counter (R436), boot, firmware and reset (R64, R477, R478), Binnacle (R488, R489, R491), the power
gating of cores (R490) and the counter blocks (R306). -/

namespace Sys2Proof.Machine

open Sys2Proof

/-! ## The meridian counter (R436) -/

/-- The count goes on to a value; where it comes to or passes a multiple of 65,536, alignment messages are due (R436). -/
def State.countTo (s : State) (n : Nat) : State :=
  let s' : State := { s with meridian := n }
  if s.meridian / 65536 < n / 65536 then s'.later [.ev .alignMessageSend] else s'

/-- MERIDIAN_TICK (R436): one cycle of the meridian counter: it rises by one every 14 cycles, unless it waits for its
parent. -/
def execMeridianTick (s : State) : Out :=
  if s.merPhase < 13 then .next { s with merPhase := s.merPhase + 1 }
  else if 0 < s.merHold then .next { s with merPhase := 0, merHold := s.merHold - 1 }
  else .next (({ s with merPhase := 0 } : State).countTo (s.meridian + 1))

/-- Nodes reached from a list in one more hop over up ports. -/
def Chart.widen (c : Chart) (l : List Nat) : List Nat :=
  (l ++ l.flatMap fun n => (((tget c.nodes n).getD []).filter fun e => e.st = 1).map fun e => e.neigh).eraseDups

/-- The distance from the meridian root of a node, at most `fuel`. -/
def Chart.distanceFrom (c : Chart) (n : Nat) : Nat → List Nat → Nat → Option Nat
  | 0, l, k => if l.contains n then some k else none
  | fuel + 1, l, k =>
    if l.contains n then some k
    else
      let w := c.widen l
      if w.length = l.length then none else c.distanceFrom n fuel w (k + 1)

def Chart.distance (c : Chart) (n : Nat) : Option Nat := c.distanceFrom n c.nodes.length [c.mroot] 0

/-- A node is nearer to the root than another. -/
def Chart.nearer (c : Chart) (a b : Nat) : Bool :=
  match c.distance a, c.distance b with
  | some x, some y => decide (x < y)
  | some _, none => true
  | _, _ => false

/-- The port of a node's parent: the lowest to an up neighbour nearer to the root, the links being up as `up` says (log
entry 93). -/
def Chart.parentOf (c : Chart) (n : Nat) (up : Nat → Bool) : Option Nat :=
  (List.range 35).find? fun p =>
    match c.port n p with
    | some e => e.st = 1 && up p && c.nearer e.neigh n
    | none => false

/-- The port of this package's parent. -/
def State.parentPort (s : State) (c : Chart) : Option Nat := c.parentOf c.self s.portUp

/-- The neighbour on a port takes its time from this package, as far as the chart shows. -/
def State.isChildPort (s : State) (c : Chart) (p : Nat) : Bool :=
  match c.port c.self p with
  | some e => e.st = 1 && s.portUp p && c.parentOf e.neigh (fun _ => true) = some e.nport
  | none => false

/-- ALIGN_MESSAGE_SEND (R436): the count and the measured link delay go out on the link of each package that takes its time
from this one. -/
def execAlignMessageSend (s : State) : Out :=
  match s.chart with
  | none => .next s
  | some c =>
    let l := ((List.range 35).filter (s.isChildPort c)).map fun p =>
      ({ port := p, count := s.meridian, delay := Config.linkDelay p } : AlignMsg)
    .next { s with fabric := { s.fabric with aligns := l } }

/-- ALIGN_MESSAGE_ARRIVE (R436): the parent's count and the link delay in ticks: a count more than one tick ahead stops
until it is within one, one more than one tick behind jumps forward; ALIGNED is set. -/
def execAlignMessageArrive (port count delay : Nat) (s : State) : Out :=
  match s.chart with
  | none => .next s
  | some c =>
    if s.root || s.parentPort c ≠ some port then .next s
    else
      let p := count + delay
      let s := { s with aligned := true, lastAlign := s.cycle }
      if p + 1 < s.meridian then .next { s with merHold := s.meridian - p - 1 }
      else if s.meridian + 1 < p then .next (({ s with merHold := 0 } : State).countTo p)
      else .next { s with merHold := 0 }

/-- ALIGN_TIMEOUT (R436): no alignment message for 2^20 ticks clears ALIGNED. -/
def execAlignTimeout (s : State) : Out :=
  if s.aligned && s.lastAlign + 14 * 2 ^ 20 ≤ s.cycle then .next { s with aligned := false } else .next s

/-! ## Boot, firmware, reset (R64, R477, R478) -/

/-- The boot ROM accepts an image: it passes its checks, and its security version is not below the fuses' (R477, R478). -/
def State.bootable (s : State) (image : List Byte) : Bool :=
  Config.imageAccepted image && s.binnacle.fuse ≤ Config.imageVersion image

/-- POWER_ON_BOOT (R477, R478): the boot ROM checks the image; one that passes fixes the enable map and releases the host
complex, another leaves Binnacle in its boot ROM. -/
def execPowerOnBoot (image : List Byte) (s : State) : Out :=
  if s.binnacle.stage = .running then .next s
  else if s.bootable image then
    .next { s with binnacle := { s.binnacle with stage := .running, image := image }, enableMap := Config.enableMap image }
  else .next { s with binnacle := { s.binnacle with stage := .rom } }

/-- FIRMWARE_UPDATE (R477, R478): the image is checked and staged for the next reset, or refused, which is logged; in the boot
ROM it is booted (R488). -/
def execFirmwareUpdate (image : List Byte) (s : State) : Out :=
  match s.binnacle.stage with
  | .running =>
    if s.bootable image then
      .next ({ s with binnacle := { s.binnacle with staged := some image } }.logEvent 7 0)
    else .next (s.logEvent 7 1)
  | .rom => if s.bootable image then execPowerOnBoot image s else .next (s.logEvent 7 1)
  | .off => .next s

/-- The package after a reset (R64, R447): HBM keeps its bytes, a staged image is in force, what the outside will still do
stays, and the counter of free values goes on. -/
def State.packageReset (s : State) : State :=
  let b := s.binnacle
  let image := b.staged.getD b.image
  let r : State := { State.reset with
    hbm := s.hbm, inputs := s.inputs, fresh := s.fresh, nextReq := s.nextReq,
    binnacle := { stage := b.stage, image := image, fuse := b.fuse },
    enableMap := if b.staged.isSome then Config.enableMap image else s.enableMap }
  if b.staged.isSome then r.logEvent 7 2 else r

/-- PACKAGE_RESET (R64). -/
def execPackageReset (s : State) : Out := .next s.packageReset

/-! ## Binnacle (R488, R489, R491) -/

/-- What a sample decides (R491), by the package's mean power over 1 ms and its hottest die: a throttle begins above PCAP or at
100 °C and ends below 95% of PCAP with every die below 95 °C; at 110 °C the package is reset. -/
def State.throttle (s : State) (power maxTemp : Nat) : Out :=
  if 110 ≤ maxTemp then .next (s.packageReset.logEvent 5 maxTemp)
  else if !s.binnacle.throttled then
    if s.pkg.pcap < power || 100 ≤ maxTemp then
      .next ({ s with binnacle := { s.binnacle with throttled := true } }.logEvent 5 1)
    else .next s
  else if power * 100 < 95 * s.pkg.pcap && maxTemp < 95 then
    .next ({ s with binnacle := { s.binnacle with throttled := false } }.logEvent 5 0)
  else .next s

/-- BINNACLE_SAMPLE (R488, R491): the temperature of every logic die and stack and the current of every die rail are sampled, and
what they and the package's mean power over 1 ms call for is done. -/
def execBinnacleSample (power : Nat) (sample : DieSample) (s : State) : Out :=
  ({ s with binnacle := { s.binnacle with sample := sample } } : State).throttle power (sample.temps.foldl max 0)

/-- ATTESTATION_REQUEST (R489): the answer to a nonce of 32 bytes in the mailbox. -/
def execAttestationRequest (nonce : List Byte) (s : State) : Out :=
  if s.binnacle.stage ≠ .running || nonce.length ≠ 32 then .next s
  else
    let a := nonce ++ shake256 s.binnacle.image Config.digestLength ++ Config.identityDigest ++ toBytes 76 s.enableMap.toNat
      ++ toBytes 8 s.retired.length
    .next { s with binnacle := { s.binnacle with mailbox := a ++ Config.signature a } }

/-! ## Power gating (R490) -/

/-- CORE_POWER_GATE (R490): a core with no team for 65,536 cycles is gated. -/
def execCorePowerGate (core : Nat) (s : State) : Out :=
  let c := s.core core
  if !c.powerGated && (s.teamsOf core).isEmpty && c.lastBusy + 65536 ≤ s.cycle then
    .next (s.setCore core { c with powerGated := true })
  else .next s

/-- CORE_WAKE (R490): a gated core with a team starts issuing at the first cycle t with t mod 8 = i mod 8. -/
def execCoreWake (core : Nat) (s : State) : Out :=
  let c := s.core core
  if c.powerGated && !(s.teamsOf core).isEmpty && s.cycle % 8 = core % 8 then
    .next (s.setCore core { c with powerGated := false })
  else .next s

/-! ## Counter blocks (R306) -/

def State.modTraffic (s : State) (die : Nat) (f : Traffic → Traffic) : State :=
  { s with traffic := vset s.traffic die (f (vget s.traffic die {})) }

/-- COUNTER_CLEAR (R306). -/
def execCounterClear (die : Nat) (s : State) : Out :=
  .next (s.modTraffic die fun t => { t with ctrs := Vector.replicate 10 0 })

/-- COUNTER_FREEZE (R306). -/
def execCounterFreeze (die : Nat) (on : Bool) (s : State) : Out := .next (s.modTraffic die fun t => { t with frozen := on })

end Sys2Proof.Machine
end

