-- ==== Sys2Proof/Machine/DebugUnit.lean ====
section
/-! DEFINITION. The debug blocks (R484): stopping and releasing teams, and the reads and writes of their spaces. -/

namespace Sys2Proof.Machine

open Sys2Proof

def State.modDebug (s : State) (ctx : Nat) (f : Debug → Debug) : State := s.modCtx ctx fun c => { c with dblk := f c.dblk }

/-- A command is refused with a cause. -/
def State.refuseDebug (s : State) (ctx code : Nat) : State :=
  s.modDebug ctx fun d => { d with err := true, code := code, busy := false }

/-- The selected team of a context. -/
def State.debugTeam (s : State) (ctx : Nat) (d : Debug) : Option Team :=
  if handleCtx d.handle.toNat = ctx then s.team? d.handle.toNat else none

/-- The team is stopped for the debugger (DSTOP): a stop is in force and every live strand has stopped. -/
def Team.isStopped (t : Team) : Bool := t.dbg && t.liveStrands.all fun k => (t.strand k).stopped

/-- Goes on with the selected team of an attached context, or refuses (R484). -/
def State.withDebug (s : State) (ctx : Nat) (k : Context → Team → State) : State :=
  match s.ctx? ctx with
  | none => s
  | some c =>
    if !s.pkg.dbgmask.getLsbD ctx then s.refuseDebug ctx 1
    else
      match s.debugTeam ctx c.dblk with
      | some t => k c t
      | none => s.refuseDebug ctx 2

/-- DEBUG_STOP (R484): the selected team is asked to stop; one with no live strand has stopped at once. -/
def execDebugStop (ctx : Nat) (s : State) : Out :=
  .next (s.withDebug ctx fun _ t =>
    let t' := { t with dbg := true }
    let s := (s.setTeam t.handle t').modDebug ctx fun d =>
      { d with busy := false, stopping := if t'.isStopped then d.stopping else d.stopping ++ [t.handle] }
    if t'.isStopped && !t.isStopped then s.interrupt 34 else s)

/-- Stops every strand of a team; its local stores are performed (R298). -/
def Team.debugStopped (t : Team) : Team :=
  let t := (List.range 5).foldl Team.flushSpills t
  t.liveStrands.foldl (fun t k => t.setStrand k { t.strand k with stopped := true }) t

/-- DEBUG_TEAM_STOPPED (R484, R170): the teams of a context that were asked to stop, or executed `brk`, have stopped where
their stall counts have run out, a halted one once its results have landed (R169); interrupt 34 is raised. -/
def execDebugTeamStopped (ctx : Nat) (s : State) : Out :=
  let hs := s.handlesOf ctx fun t =>
    t.dbg && t.resident && !t.isStopped && t.liveStrands.all fun k => (t.strand k).mayStop && (!t.halted || (t.strand k).flights.isEmpty)
  .next (hs.foldl (fun s h =>
    ((s.modTeam h Team.debugStopped).modDebug ctx fun d => { d with stopping := d.stopping.filter (· ≠ h) }).interrupt 34) s)

/-- DEBUG_RELEASE (R484): the team resumes at the words at which its strands stopped; one that has not stopped is refused. -/
def execDebugRelease (ctx : Nat) (s : State) : Out :=
  .next (s.withDebug ctx fun _ t =>
    if !t.isStopped then s.refuseDebug ctx 3
    else
      let t := (List.range 5).foldl (fun t k => t.setStrand k { t.strand k with stopped := false }) { t with dbg := false }
      (s.setTeam t.handle t).modDebug ctx fun d => { d with busy := false })

/-! ## Spaces -/

/-- Bytes of a space of a team. -/
def spaceSize (t : Team) (space : Nat) : Nat :=
  match space with
  | 0 => 0x10000
  | 1 => 0x100
  | 2 => 0x6400
  | 3 => 0xD20
  | 4 => t.windowSize .wb
  | 5 => t.windowSize .ab
  | 6 => t.windowSize .cb
  | 7 => t.windowSize .sp
  | 8 => t.windowSize .sp / 64
  | 9 => 16 * t.ntiles
  | _ => 64 * 40

/-- The place of a space in a save area. -/
def spaceBase (space strand : Nat) : Nat :=
  match space with
  | 0 => 0x30000
  | 1 => 0x100 + 0x100 * strand
  | 2 => 0x1000 + 0x6400 * strand
  | 3 => 0
  | 4 => 0x40000
  | 5 => 0xC0000
  | 6 => 0x100000
  | 7 => 0x140000
  | 8 => 0x20000
  | _ => 0x1F000

/-- A promotion-log entry as the debugger reads it (R331). -/
def LogEntry.pack (e : LogEntry) : Nat :=
  e.seq.toNat + e.ctx * 2 ^ 32 + e.serial * 2 ^ 38 + (if e.core1 then 2 ^ 54 else 0) + e.prom * 2 ^ 55
    + (if e.valid then 2 ^ 57 else 0)
    + e.summary.toNat * 2 ^ 64

/-- The contents of a save area as the team would be saved now. -/
def State.areaImage (s : State) (t : Team) : Mem :=
  Mem.writePieces (t.regions.foldl (fun m r => Mem.splice m r.1 r.2.1 r.2.2.2) []) 0 (s.areaPieces t)

/-- The bytes of a range of a space: of a team set aside from its area, of another from its state. -/
def State.spaceRead (s : State) (c : Context) (t : Team) (d : Debug) : Mem :=
  let off := d.off.toNat
  if d.space = 10 then
    Mem.slice (((s.logAll.core t.core).log.zipIdx).foldl (fun (m : Mem) e => Mem.write m (40 * e.2) e.1.pack 40) []) off d.len
  else
    let a := spaceBase d.space d.strand + off
    match t.area? with
    | some i => Mem.slice s.hbm (c.area i + a) d.len
    | none => Mem.slice (s.areaImage t) a d.len

/-- The cause for which a read or write of a space is refused, the lowest that applies. -/
def spaceRefusal (t : Team) (d : Debug) (write : Bool) : Option Nat :=
  let off := d.off.toNat
  if d.space ≠ 10 && !(t.isStopped || t.area?.isSome) then some 3
  else if 11 ≤ d.space || (write && (d.space = 2 || d.space = 10)) then some 4
  else if off % 8 ≠ 0 || spaceSize t d.space < off + d.len || (d.space = 3 && off < 0x500 && 0x100 < off + d.len) then some 5
  else if d.len < 8 || 256 < d.len || d.len % 8 ≠ 0 then some 6
  else none

/-- The granules of the allocation that a read of its bytes reaches. -/
def debugGranules (t : Team) (d : Debug) : List Nat :=
  if d.space = 0 && t.resident then
    (List.range t.regsz).filter fun g => d.off.toNat < 4096 * (g + 1) && 4096 * g < d.off.toNat + d.len
  else []

/-- DEBUG_READ (R484): bytes of the selected space reach DDATA; gated granules read 0 and set DGATED (R43). A read that reaches
a drowsy granule stalls until it is awake (R42). -/
def execDebugRead (ctx : Nat) (s : State) : Out :=
  .next (s.withDebug ctx fun c t =>
    let d := c.dblk
    match spaceRefusal t d false with
    | some r => (s.refuseDebug ctx r).modDebug ctx fun d => { d with reading := false }
    | none =>
      let (t, stall) := t.wake s.cycle (debugGranules t d)
      let s := s.setTeam t.handle t
      if stall then s.modDebug ctx fun d => { d with reading := true, busy := true } else
      let gated := d.space = 0 && 4096 * t.regsz < d.off.toNat + d.len
      let old := d.data.filter fun e => d.len ≤ e.1
      let b := s.spaceRead c t d
      let b := if d.space = 0 then b.filter fun e => d.off.toNat + e.1 < 4096 * t.regsz else b
      s.modDebug ctx fun d => { d with data := b ++ old, gated := gated, busy := false, reading := false })

/-! ## Writes -/

/-- The fields of a strand or of the access stream that a debugger writes, by the access types of R45: the trap registers
keep their read-only bits. -/
def Team.writeTrapRegs (t : Team) (k : Nat) (m : Mem) (o : Nat) : Team :=
  let word := fun i => BitVec.ofNat 64 (Mem.readN m (o + 8 * i) 8)
  ((t.storeCr k 0x14 (word 0)).storeCr k 0x15 (word 1)).storeCr k 0x16 (word 2)

/-- A strand record written: PC, trap registers, condition and predicates; the counts, serials and tags keep their
values. -/
def Team.writeRecord (t : Team) (k : Nat) (m : Mem) : Team :=
  let o := 0x100 + 0x100 * k
  let x := t.strand k
  let w := if x.live then loadWait x (Mem.readN m (o + 0x30) 1) (Mem.readN m (o + 0x31) 1) (Mem.readN m (o + 0x32) 2) else x.wait
  let x := { x with pc := BitVec.ofNat 64 (Mem.readN m o 8) &&& 0x00FFFFFFFFFFFFFF, wait := w, preds := loadPreds m (o + 0x90) }
  (t.setStrand k x).writeTrapRegs k m (o + 0x10)

/-- Team state written (DSPACE 3): the control registers as `crw` writes them, FLAGS where the range written holds it (it is
cleared by ones, even those it reads), the others where bytes change; the rest as it stands. -/
def Team.writeHeader (t : Team) (d : Debug) (old new : Mem) : Team :=
  let word := fun o => BitVec.ofNat 64 (Mem.readN new o 8)
  let changed := fun o n => Mem.readN old o n ≠ Mem.readN new o n
  let cr := fun (t : Team) (o n : Nat) => if changed o 8 then t.storeCr 0 n (word o) else t
  let u := t.load new
  let t := { t with slots := u.slots, bars := u.bars, ctrs := u.ctrs, stats := u.stats, binds := u.binds, maps := u.maps,
                    present := u.present, dirty := u.dirty,
                    q0 := t.q0.load new 0, q1 := t.q1.load new 1, q2 := t.q2.load new 2 }
  let acc := t.strands.acc
  let t := t.setStrand 4 { acc with pc := u.strands.acc.pc, preds := u.strands.acc.preds }
  let t := if changed 0x5B0 24 then t.writeTrapRegs 4 new 0x5B0 else t
  let t := if d.off.toNat ≤ 0x20 && 0x20 < d.off.toNat + d.len then t.clearFlags (word 0x20) else t
  let t := [(0x38, 0), (0x40, 1), (0x48, 2), (0x50, 3), (0x18, 4), (0x28, 0x0B)].foldl (fun t p => cr t p.1 p.2) t
  (List.range 16).foldl (fun t k => cr t (0x70 + 8 * k) (0x20 + k)) t

/-- The team with a space's range written; `old` and `new` are its area before and after. Every field of a tile-table entry is
read only (R58), so a write of the tile window changes nothing (R10). -/
def Team.writeSpace (t : Team) (cycle : Nat) (d : Debug) (old new : Mem) : Team :=
  let off := d.off.toNat
  let bytes := Mem.readN d.data 0 d.len
  match d.space with
  | 0 => { (t.wake cycle (debugGranules t d)).1 with regs := Mem.writeN t.regs off bytes (ones (4096 * t.regsz - off)) d.len }
  | 1 => t.writeRecord d.strand new
  | 3 => t.writeHeader d old new
  | 4 => t.writeWindow .wb off bytes (ones d.len) d.len
  | 5 => t.writeWindow .ab off bytes (ones d.len) d.len
  | 6 => t.writeWindow .cb off bytes (ones d.len) d.len
  | 7 => t.writeWindow .sp off bytes (ones d.len) d.len
  | 8 => { t with fe := (t.load new).fe }
  | _ => t

/-- DEBUG_WRITE (R484): DDATA goes to the range of the selected space. -/
def execDebugWrite (ctx : Nat) (s : State) : Out :=
  .next (s.withDebug ctx fun c t =>
    let d := c.dblk
    match spaceRefusal t d true with
    | some r => s.refuseDebug ctx r
    | none =>
      let old := s.areaImage t
      let new := Mem.write old (spaceBase d.space d.strand + d.off.toNat) (Mem.readN d.data 0 d.len) d.len
      (s.setTeam t.handle (t.writeSpace s.cycle d old new)).modDebug ctx fun d => { d with busy := false })

end Sys2Proof.Machine
end

