-- ==== Sys2Proof/Machine/Endpoint.lean ====
section
/-! DEFINITION. The Ultra Ethernet endpoint (R437, R487): send entries, their completions, and packets received. The
transport itself is outside (log entry 9): an event brings each entry's status. -/

namespace Sys2Proof.Machine

open Sys2Proof

def State.qp (s : State) (k : Nat) : UeQp := (tget s.ue k).getD {}

/-- UE_SQ_DOORBELL (R487): SQTAIL takes the value stored. -/
def execUeSqDoorbell (k : Nat) (v : Word) (s : State) : Out := .next { s with ue := tput s.ue k { s.qp k with sqtail := v } }

/-- A send entry's fields. -/
structure SendEntry where
  op : Nat
  mode : Nat
  ports : Nat
  addr : Nat
  len : Nat
  deriving DecidableEq, Repr

/-- The next send entry of a queue pair, as its 64 bytes stand in memory. -/
def State.sendBytes (s : State) (q : UeQp) : Nat := Mem.readN s.hbm (bits q.sqbase.toNat 12 40 * 4096 + 64 * (q.done % 1024)) 64

def sendEntryOf (x : Nat) : SendEntry where
  op := byteOf x 0
  mode := byteOf x 1
  ports := bytesAt x 2 2
  addr := bytesAt x 8 8
  len := bytesAt x 24 4

/-- An entry is malformed: an operation or mode it does not have, a length over the limit, or a byte that is not 0. -/
def sendBad (x : Nat) : Bool :=
  let e := sendEntryOf x
  2 < e.op || 1 < e.mode || 2 ^ 30 < e.len || bytesAt x 32 32 ≠ 0

/-- The oldest entry of a queue pair that has no completion yet. -/
def State.nextSend (s : State) (k : Nat) : Option Nat :=
  let q := s.qp k
  if q.done % 2 ^ 64 = q.sqtail.toNat then none else some (s.sendBytes q)

/-- Writes the completion of the oldest entry: its index, the status and the byte count. -/
def State.complete (s : State) (k status count : Nat) : State :=
  let q := s.qp k
  let a := bits q.cqbase.toNat 12 40 * 4096 + 16 * (q.cqtail.toNat % 1024)
  let v := q.done % 2 ^ 32 + status * 2 ^ 32 + count * 2 ^ 64
  { s with ue := tput s.ue k { q with done := q.done + 1, cqtail := q.cqtail + 1 } }.homeWrite a (toBytes 16 v)

/-- Performs the oldest entry when it has the operation: a malformed one completes with status 3; the bytes sent are counted
at the C-die of their memory. -/
def State.performSend (s : State) (k op status : Nat) (k' : SendEntry → State → State) : State :=
  match s.nextSend k with
  | none => s
  | some x =>
    let e := sendEntryOf x
    if sendBad x then s.complete k 3 0
    else if e.op ≠ op || 3 ≤ status then s
    else if status = 0 then (k' e s).complete k 0 e.len
    else s.complete k status 0

/-- UE_SEND (R487). -/
def execUeSend (k status : Nat) (s : State) : Out :=
  .next (s.performSend k 0 status fun e s => s.addTraffic (homeDie e.addr) 8 e.len)

/-- UE_WRITE (R487). -/
def execUeWrite (k status : Nat) (s : State) : Out :=
  .next (s.performSend k 1 status fun e s => s.addTraffic (homeDie e.addr) 8 e.len)

/-- Bytes from outside stored in memory, and forwarded where their page is being copied to its new home (R433). -/
def State.storeOutside (s : State) (pa : Nat) (b : List Byte) : State :=
  if deviceBase < pa + b.length then s else s.homeWrite pa b

/-- UE_READ (R487): the bytes read are stored at the local address. -/
def execUeRead (k status : Nat) (data : List Byte) (s : State) : Out :=
  .next (s.performSend k 2 status fun e s => (s.addTraffic (homeDie e.addr) 9 e.len).storeOutside e.addr (data.take e.len))

/-- UE_COMPLETION_TIMEOUT (R487): the oldest entry, never answered, completes with status 2. -/
def execUeCompletionTimeout (k : Nat) (s : State) : Out :=
  match s.nextSend k with
  | none => .next s
  | some x => .next (s.complete k (if sendBad x then 3 else 2) 0)

/-- UE_PACKET_RECEIVE (R437): a packet of at most 4,096 bytes is stored where the endpoint puts it, and counted. -/
def execUePacketReceive (_port die pa : Nat) (data : List Byte) (s : State) : Out :=
  if 4096 < data.length then .next s else .next ((s.addTraffic die 9 data.length).storeOutside pa data)

end Sys2Proof.Machine
end

