-- ==== Sys2Proof/Machine/Registers.lean ====
section
/-! DEFINITION. Device space as the host cores reach it (R479): what a store to each register does, under its field
access types (R10, R11), and what a read of it returns. -/

namespace Sys2Proof.Machine

open Sys2Proof

/-- Bits hi:lo of a value in place, the rest 0 (R11). -/
def keepBits (v : Word) (lo n : Nat) : Word := BitVec.ofNat 64 (bits v.toNat lo n * 2 ^ lo)

/-- The power cap as stored: the nearer end of 600 to 2,400 W (R481). -/
def capOf (w : Nat) : Nat := max 600 (min 2400 w)

/-! ## Stores -/

/-- The package control block (R481). -/
def State.writePkg (s : State) (off : Nat) (v : Word) : State :=
  let x := v.toNat
  match off with
  | 0x00 => { s with pkg := { s.pkg with ctxtbase := keepBits v 13 39 } }
  | 0x08 =>
    if bits x 8 2 = 1 then s.later [.ev (.contextCreate (bits x 0 6))]
    else if bits x 8 2 = 2 then s.later [.ev (.contextDestroy (bits x 0 6))]
    else s
  | 0x18 => if bit x 1 then { s with pkg := { s.pkg with crefd := false } } else s
  | 0x20 => { s with pkg := { s.pkg with dbgmask := v } }
  | 0x30 => { s with pkg := { s.pkg with pcap := capOf (bits x 0 12) } }
  | _ => s

/-- The counter block of a C-die (R306): CLR before FRZ changes nothing else. -/
def State.writeCounters (s : State) (die off : Nat) (v : Word) : State :=
  if off = 0x50 then
    s.later ((if v.getLsbD 1 then [.ev (.counterClear die)] else []) ++ [.ev (.counterFreeze die (v.getLsbD 0))])
  else s

/-- The Gliem control block (R414). -/
def State.writeGliem (s : State) (off : Nat) (v : Word) : State :=
  let g := s.gliem
  let x := v.toNat
  match off with
  | 0x00 => { s with gliem := { g with chartbase := keepBits v 6 46 } }
  | 0x08 =>
    let g := if bit x 2 then { g with cref := false } else g
    if !bit x 0 then { s with gliem := g }
    else if g.cbusy then { s with gliem := { g with cref := true } }
    else { s with gliem := { g with cbusy := true } }
  | 0x20 => { s with gliem := { g with expbase := keepBits v 6 46 } }
  | 0x28 =>
    let g := if bit x 2 then { g with eref := false } else g
    { s with gliem := { g with ebusy := g.ebusy || bit x 0 } }
  | 0x38 => { s with gliem := { g with migpa := keepBits v 12 40 } }
  | 0x40 => { s with gliem := { g with migpeer := bits x 0 11 } }
  | 0x48 => { s with gliem := { g with mignpa := keepBits v 12 40 } }
  | 0x50 => { s with gliem := { g with migcrs0 := v } }
  | 0x58 => { s with gliem := { g with migcrs1 := v } }
  | 0x60 => if bit x 0 then s.later [.ev .migrationStart] else s
  | 0x68 => { s with gliem := { g with meqbase := keepBits v 6 46 } }
  | _ => s

/-- The control block of a context (R402). Of a context that does not exist the registers are kept, a CMD is refused, and
no shoot-down starts. -/
def State.writeCtxRegs (s : State) (c off : Nat) (v : Word) : State :=
  let r := s.ctxRegs c
  let x := v.toNat
  let live := (s.ctx? c).isSome
  match off with
  | 0x00 => s.putRegs c { r with ptroot := keepBits v 12 40 }
  | 0x08 => s.putRegs c { r with fqbase := keepBits v 6 46 }
  | 0x10 => s.putRegs c { r with frbase := keepBits v 12 40 }
  | 0x18 => s.putRegs c { r with savepool := keepBits v 21 31 }
  | 0x20 => s.putRegs c { r with savecnt := bits x 0 16 }
  | 0x28 =>
    let r := if bit x 8 then { r with refused := false } else r
    if bits x 0 2 = 1 || bits x 0 2 = 2 then
      if live then (s.putRegs c r).later [.ev (if bits x 0 2 = 1 then .contextSave c else .contextRestore c)]
      else s.putRegs c { r with refused := true }
    else s.putRegs c r
  | 0x30 => s.putRegs c { r with sdva := keepBits v 12 44 }
  | 0x38 => s.putRegs c { r with sdcnt := v.setWidth 32 }
  | 0x40 =>
    let s := s.putRegs c { r with fabric := bit x 2, sddone := r.sddone && !bit x 3 }
    if bit x 0 && live then s.later [.ev (.shootdownStart c)] else s
  | _ => s

/-- The debug block of a context (R484). A command acts on a context that exists; of another it is refused as naming no
team. -/
def State.writeDebug (s : State) (c off : Nat) (v : Word) : State :=
  let r := s.ctxRegs c
  let d := r.dblk
  let x := v.toNat
  let put := fun d => s.putRegs c { r with dblk := d }
  if 0x100 ≤ off && off < 0x200 then
    put { d with data := Mem.write d.data (off - 0x100) x 8 }
  else
    match off with
    | 0x00 => put { d with handle := v.setWidth 32 }
    | 0x08 =>
      let ev : Option Ev := match bits x 0 3 with
        | 1 => some (.debugStop c)
        | 2 => some (.debugRelease c)
        | 3 => some (.debugRead c)
        | 4 => some (.debugWrite c)
        | _ => none
      match ev with
      | none => s
      | some e =>
        if (s.ctx? c).isSome then (put { d with busy := true }).later [.ev e]
        else put { d with err := true, code := if s.pkg.dbgmask.getLsbD c then 2 else 1 }
    | 0x10 => if bit x 3 then put { d with err := false } else s
    | 0x18 => put { d with space := bits x 0 4 }
    | 0x20 => put { d with strand := bits x 0 2 }
    | 0x28 => put { d with off := v.setWidth 32 }
    | 0x30 => put { d with len := bits x 0 9 }
    | _ => s

/-- A queue pair of the Ultra Ethernet endpoint (R487). -/
def State.writeUe (s : State) (k off : Nat) (v : Word) : State :=
  match off with
  | 0x00 => { s with ue := tput s.ue k { s.qp k with sqbase := keepBits v 12 40 } }
  | 0x08 => { s with ue := tput s.ue k { s.qp k with cqbase := keepBits v 12 40 } }
  | 0x10 => s.later [.ev (.ueSqDoorbell k v)]
  | _ => s

/-- A block of device space holds the offset (R479). -/
def blockHolds (off : Nat) : Bool :=
  off < 0x6000 || (0x8000 ≤ off && off < 0x50000) || (0x100000 ≤ off && off < 0x140000)
    || (0x200000 ≤ off && off < 0x240000) || (0x300000 ≤ off && off < 0x340000) || (0x400000 ≤ off && off < 0x500000)

/-- A store of 8 bytes to device space at an offset from D (R479, R492); one to an offset that no block holds returns an access
fault to the host core. -/
def State.writeDevice (s : State) (off : Nat) (v : Word) : State :=
  let reg := off % 0x1000
  if !blockHolds off then { s with hostFaults := s.hostFaults ++ [deviceBase + off] }
  else if off < 0x1000 then s.writePkg reg v
  else if off < 0x5000 then s.writeCounters (off / 0x1000 - 1) reg v
  else if off < 0x6000 then s.writeGliem reg v
  else if off < 0x100000 then s
  else if off < 0x140000 then s.writeCtxRegs (bits off 12 6) reg v
  else if off < 0x240000 then
    match doorbellEvent (bits off 12 6) reg v with
    | some e => s.later [.ev e]
    | none => s
  else if off < 0x340000 then s.writeDebug (bits off 12 6) reg v
  else s.writeUe (bits off 12 8) reg v

/-- REGISTER_WRITE (R10, R479, R485): a host core stores 8 bytes: to a register of device space, or coherently to HBM. Host
cores run once Binnacle's firmware does (R477). -/
def execRegisterWrite (pa : Nat) (v : Word) (s : State) : Out :=
  if s.binnacle.stage ≠ .running then .next s
  else if pa < deviceBase then .next (s.storeOutside pa (toBytes 8 v.toNat))
  else if (pa - deviceBase) % 8 ≠ 0 then .next s
  else .next (s.writeDevice (pa - deviceBase) v)

/-! ## Reads -/

def flagBit (b : Bool) (n : Nat) : Nat := if b then 2 ^ n else 0

/-- A register of the package control block as it reads (R481). -/
def State.readPkg (s : State) (off : Nat) : Nat :=
  match off with
  | 0x00 => s.pkg.ctxtbase.toNat
  | 0x10 => s.contexts.foldl (fun a e => a ||| 2 ^ e.1) 0
  | 0x18 => flagBit s.pkg.busy.isSome 0 + flagBit s.pkg.crefd 1
  | 0x20 => s.pkg.dbgmask.toNat
  | 0x28 => s.pkg.evtail.toNat % 2 ^ 32
  | 0x30 => s.pkg.pcap
  | _ => 0

/-- A counter, or the FRZ bit (R306). -/
def State.readCounters (s : State) (die off : Nat) : Nat :=
  let t := vget s.traffic die {}
  if off = 0x50 then flagBit t.frozen 0 else (vget t.ctrs (off / 8) 0).toNat

def State.readGliem (s : State) (off : Nat) : Nat :=
  let g := s.gliem
  match off with
  | 0x00 => g.chartbase.toNat
  | 0x08 => flagBit g.cbusy 1 + flagBit g.cref 2 + 2 ^ 32 * ((s.chart.map fun c => c.cgen.toNat).getD 0)
  | 0x10 => g.linka.toNat
  | 0x18 => g.linkb.toNat
  | 0x20 => g.expbase.toNat
  | 0x28 => flagBit g.eref 2
  | 0x30 => flagBit s.aligned 0 + flagBit s.root 1
  | 0x38 => g.migpa.toNat
  | 0x40 => g.migpeer
  | 0x48 => g.mignpa.toNat
  | 0x50 => g.migcrs0.toNat
  | 0x58 => g.migcrs1.toNat
  | 0x60 => g.migst * 2
  | 0x68 => g.meqbase.toNat
  | 0x70 => g.meqtail.toNat
  | _ => 0

def ctxStCode : CtxState → Nat
  | .running => 0
  | .saving => 1
  | .saved => 2
  | .restoring => 3

def State.readCtxRegs (s : State) (c off : Nat) : Nat :=
  let r := s.ctxRegs c
  match off with
  | 0x00 => r.ptroot.toNat
  | 0x08 => r.fqbase.toNat
  | 0x10 => r.frbase.toNat
  | 0x18 => r.savepool.toNat
  | 0x20 => r.savecnt
  | 0x28 => ctxStCode r.st * 16 + flagBit r.refused 8
  | 0x30 => r.sdva.toNat
  | 0x38 => r.sdcnt.toNat
  | 0x40 => flagBit r.sdbusy 1 + flagBit r.fabric 2 + flagBit r.sddone 3
  | _ => 0

def State.readDebug (s : State) (c off : Nat) : Nat :=
  let d := (s.ctxRegs c).dblk
  if 0x100 ≤ off && off < 0x200 then Mem.readN d.data (off - 0x100) 8
  else
    match off with
    | 0x00 => d.handle.toNat
    | 0x10 => flagBit (d.busy || !d.stopping.isEmpty) 0 + flagBit ((s.debugTeam c d).any Team.isStopped) 1 + flagBit d.gated 2
        + flagBit d.err 3 + d.code * 256
    | 0x18 => d.space
    | 0x20 => d.strand
    | 0x28 => d.off.toNat
    | 0x30 => d.len
    | _ => 0

/-- 8 bytes of the event log (R488): entry k mod 1,024 holds the newest event of that place. -/
def State.readEventLog (s : State) (off : Nat) : Nat :=
  match s.binnacle.log.reverse.find? fun e => e.seq.toNat % 1024 = off / 32 with
  | some e =>
    bits (e.seq.toNat + e.mer.toNat * 2 ^ 64 + (e.source % 65536) * 2 ^ 128 + e.code * 2 ^ 144 + (e.data % 2 ^ 96) * 2 ^ 160)
      (64 * (off % 32 / 8)) 64
  | none => 0

/-- 8 bytes of an M-die's error table, or its overflow count (R448, R479). -/
def State.readErrors (s : State) (mdie off : Nat) : Nat :=
  if off = 0x4000 then (vget s.errOver mdie 0).toNat
  else
    match (s.errors.filter fun e => e.mdie = mdie && e.tabled)[off / 16]? with
    | some e => if off % 16 = 0 then 128 * e.line else e.ctx + 128
    | none => 0

/-- 8 bytes of a block of device space as a host core reads them; a read changes nothing. -/
def State.readBlock (s : State) (off : Nat) : Nat :=
  let reg := off % 0x1000
  if off < 0x1000 then s.readPkg reg
  else if off < 0x5000 then s.readCounters (off / 0x1000 - 1) reg
  else if off < 0x6000 then s.readGliem reg
  else if off < 0x10000 then s.readEventLog (off - 0x8000)
  else if off < 0x50000 then s.readErrors (off / 0x8000 - 2) (off % 0x8000)
  else if off < 0x140000 then s.readCtxRegs (bits off 12 6) reg
  else if off < 0x240000 then 0
  else if off < 0x340000 then s.readDebug (bits off 12 6) reg
  else
    let q := s.qp (bits off 12 8)
    match reg with
    | 0x00 => q.sqbase.toNat
    | 0x08 => q.cqbase.toNat
    | 0x10 => q.sqtail.toNat
    | 0x18 => q.cqtail.toNat
    | _ => 0

/-- A host core's read of 8 bytes of device space: an offset that no block holds returns an access fault, `none` (R479). -/
def State.readDevice (s : State) (off : Nat) : Option Nat := if blockHolds off then some (s.readBlock off) else none

end Sys2Proof.Machine
end

