-- ==== Sys2Proof/Machine/Scalar.lean ====
section
/-! DEFINITION. Scalar forms: `nop` (R87), integer register forms (R137–R142), comparisons and predicates (R143–R145),
immediate and address forms (R146–R148). -/

namespace Sys2Proof.Machine

open Sys2Proof

/-- `nop` does nothing but issue (R87). -/
def execNop (r : RegW) (s : State) : Out := issueWord s r.mods (fun _ => {}) fun x => x.done r.mods x.t []

/-- Width in bits of a TYPE, 64 without one; signed types are 1–4 (R85, R138). -/
def typeBits (ty : BitVec 4) : Nat := if ty = 0 then 64 else 8 * typeBytes ty.toNat
def typeSigned (ty : BitVec 4) : Bool := 1 ≤ ty.toNat && ty.toNat ≤ 4

/-- The bytes of a scalar source that a form of the word's type reads (R138). -/
def typeMask (r : RegW) : Nat := ones (typeBits r.ty / 8)

/-- A gated Reg-class word with scalar sources in A, B and C as far as `nsrc` says, and a scalar destination; `f`
gives the 64-bit result and the flags from the three source registers (R137–R140). -/
def scalarWord (r : RegW) (s : State) (nsrc lat : Nat) (f : Nat → Nat → Nat → Nat × Nat) : Out :=
  issueWord s r.mods
    (fun x =>
      let on := x.gate0 r.pred r.pn
      let b := typeMask r
      { opds := opdW 0 r.d 1 on :: (([opdB 1 r.a 1 b, opdB 2 r.b 1 b, opdB 3 r.c 1 b] : List Opd).take nsrc),
        predR := gateReads r.pred, lat := lat, holds := on, off := !on })
    fun x =>
      if x.gate0 r.pred r.pn then
        let (v, fl) := f (x.t.scalar r.a).toNat (x.t.scalar r.b).toNat (x.t.scalar r.c).toNat
        x.done r.mods x.t [x.flyScalar r.d lat v fl]
      else x.done r.mods x.t []

/-- A typed form: sources read at the type's width and sign, the integer result wraps to the width and is extended
(R138). -/
def typedWord (r : RegW) (s : State) (nsrc lat : Nat) (f : Nat → Bool → Int → Int → Int → Int × Nat) : Out :=
  scalarWord r s nsrc lat fun a b c =>
    let w := typeBits r.ty
    let sg := typeSigned r.ty
    let (v, fl) := f w sg (readAs sg w a) (readAs sg w b) (readAs sg w c)
    (extend sg w (ofSigned w v), fl)

/-- A form on bit patterns of the type's width. -/
def patternWord (r : RegW) (s : State) (nsrc : Nat) (f : Nat → Nat → Nat → Nat) : Out :=
  scalarWord r s nsrc 2 fun a b _ =>
    let w := typeBits r.ty
    (extend (typeSigned r.ty) w (f w (a % 2 ^ w) (b % 2 ^ w)), 0)

def execAdd (r : RegW) (s : State) : Out := typedWord r s 2 2 fun _ _ a b _ => (a + b, 0)
def execSub (r : RegW) (s : State) : Out := typedWord r s 2 2 fun _ _ a b _ => (a - b, 0)

/-- Saturating forms set ISAT (R106). -/
def execAdds (r : RegW) (s : State) : Out :=
  typedWord r s 2 2 fun w sg a b _ => ((satInt sg w (a + b)).1, satFlags sg w (a + b))

def execSubs (r : RegW) (s : State) : Out :=
  typedWord r s 2 2 fun w sg a b _ => ((satInt sg w (a - b)).1, satFlags sg w (a - b))

def execMin (r : RegW) (s : State) : Out := typedWord r s 2 2 fun _ _ a b _ => (min a b, 0)
def execMax (r : RegW) (s : State) : Out := typedWord r s 2 2 fun _ _ a b _ => (max a b, 0)
def execAbs (r : RegW) (s : State) : Out := typedWord r s 1 2 fun _ _ a _ _ => (if a < 0 then -a else a, 0)
def execNeg (r : RegW) (s : State) : Out := typedWord r s 1 2 fun _ _ a _ _ => (-a, 0)

def execMul (r : RegW) (s : State) : Out := typedWord r s 2 4 fun _ _ a b _ => (a * b, 0)
def execMulh (r : RegW) (s : State) : Out := typedWord r s 2 4 fun w _ a b _ => ((a * b) / (2 : Int) ^ w, 0)

/-- Quotient rounded toward zero; 0 for a zero divisor, with DZ (R142). -/
def execDiv (r : RegW) (s : State) : Out :=
  typedWord r s 2 12 fun _ _ a b _ => (if b = 0 then 0 else Int.tdiv a b, divFlags b)

/-- Remainder with the sign of A; A for a zero divisor, with DZ (R142). -/
def execRem (r : RegW) (s : State) : Out :=
  typedWord r s 2 12 fun _ _ a b _ => (if b = 0 then a else a - b * Int.tdiv a b, divFlags b)

def execMad (r : RegW) (s : State) : Out := typedWord r s 3 4 fun _ _ a b c => (a * b + c, 0)

def execAnd (r : RegW) (s : State) : Out := scalarWord r s 2 2 fun a b _ => (a &&& b, 0)
def execOr (r : RegW) (s : State) : Out := scalarWord r s 2 2 fun a b _ => (a ||| b, 0)
def execXor (r : RegW) (s : State) : Out := scalarWord r s 2 2 fun a b _ => (a ^^^ b, 0)
def execAndn (r : RegW) (s : State) : Out := scalarWord r s 2 2 fun a b _ => (a &&& (b ^^^ ones 64), 0)
def execNot (r : RegW) (s : State) : Out := scalarWord r s 1 2 fun a _ _ => (a ^^^ ones 64, 0)

/-- Shifts and rotates by B mod w (R141). -/
def shlPat (w a b : Nat) : Nat := (a <<< (b % w)) % 2 ^ w
def shrPat (sg : Bool) (w a b : Nat) : Nat :=
  if sg then ofSigned w (toSigned w a / (2 : Int) ^ (b % w)) else a >>> (b % w)
def rotlPat (w a b : Nat) : Nat := ((a <<< (b % w)) ||| (a >>> (w - b % w))) % 2 ^ w

def execShl (r : RegW) (s : State) : Out := patternWord r s 2 shlPat
def execShr (r : RegW) (s : State) : Out := patternWord r s 2 fun w a b => shrPat (typeSigned r.ty) w a b
def execRotl (r : RegW) (s : State) : Out := patternWord r s 2 rotlPat
def execRotr (r : RegW) (s : State) : Out := patternWord r s 2 fun w a b => rotlPat w a (w - b % w)

/-- Bit counts and reversals of a w-bit pattern (R141). -/
def clzPat (w a : Nat) : Nat := if a = 0 then w else w - 1 - Nat.log2 a
def ctzPat (w a : Nat) : Nat := ((List.range w).find? fun i => bit a i).getD w
def brevPat (w a : Nat) : Nat := (List.range w).foldl (fun acc i => 2 * acc + if bit a i then 1 else 0) 0
def bswapPat (w a : Nat) : Nat := (List.range (w / 8)).foldl (fun acc i => 256 * acc + bits a (8 * i) 8) 0

def execClz (r : RegW) (s : State) : Out := patternWord r s 1 fun w a _ => clzPat w a
def execCtz (r : RegW) (s : State) : Out := patternWord r s 1 fun w a _ => ctzPat w a
def execPopc (r : RegW) (s : State) : Out := patternWord r s 1 fun w a _ => popcount w a
def execBrev (r : RegW) (s : State) : Out := patternWord r s 1 fun w a _ => brevPat w a
def execBswap (r : RegW) (s : State) : Out := patternWord r s 1 fun w a _ => bswapPat w a
def execMov (r : RegW) (s : State) : Out := scalarWord r s 1 2 fun a _ _ => (a, 0)

/-- `sel`: the gate selects A or B and never gates (R139, R141). -/
def execSel (r : RegW) (s : State) : Out :=
  issueWord s r.mods
    (fun _ => { opds := [opdW 0 r.d 1 true, opdR 1 r.a 1, opdR 2 r.b 1], predR := gateReads r.pred, lat := 2, holds := true })
    fun x =>
      let v := if x.gate0 r.pred r.pn then x.t.scalar r.a else x.t.scalar r.b
      x.done r.mods x.t [x.flyScalar r.d 2 v.toNat 0]

/-! Comparisons (R143). -/

/-- A comparison: all 128 bits of the destination predicate. -/
def cmpWord (r : RegW) (s : State) (f : Nat → Int → Int → Bool) : Out :=
  issueWord s r.mods
    (fun x =>
      let on := x.gate0 r.pred r.pn
      let b := typeMask r
      { opds := [opdB 1 r.a 1 b, opdB 2 r.b 1 b], predR := gateReads r.pred, lat := 2, holds := on, off := !on })
    fun x =>
      if x.gate0 r.pred r.pn then
        let w := typeBits r.ty
        let sg := typeSigned r.ty
        let v := f w (readAs sg w (x.t.scalar r.a).toNat) (readAs sg w (x.t.scalar r.b).toNat)
        x.done r.mods x.t [x.flyPred r.d.toNat 2 (if v then ones 128 else 0) (ones 128) 0]
      else x.done r.mods x.t []

def execCmpEq (r : RegW) (s : State) : Out := cmpWord r s fun _ a b => a = b
def execCmpNe (r : RegW) (s : State) : Out := cmpWord r s fun _ a b => a ≠ b
def execCmpLt (r : RegW) (s : State) : Out := cmpWord r s fun _ a b => a < b
def execCmpLe (r : RegW) (s : State) : Out := cmpWord r s fun _ a b => a ≤ b
def execCmpGt (r : RegW) (s : State) : Out := cmpWord r s fun _ a b => b < a
def execCmpGe (r : RegW) (s : State) : Out := cmpWord r s fun _ a b => b ≤ a
def execCmpTst (r : RegW) (s : State) : Out := cmpWord r s fun w a b => ofSigned w a &&& ofSigned w b ≠ 0
def execCmpNtst (r : RegW) (s : State) : Out := cmpWord r s fun w a b => ofSigned w a &&& ofSigned w b = 0

/-! Predicate forms (R144). -/

/-- A form from predicates A and B to a predicate. -/
def predWord (r : RegW) (s : State) (two : Bool) (f : PredBits → PredBits → PredBits) : Out :=
  issueWord s r.mods
    (fun x =>
      let on := x.gate0 r.pred r.pn
      { predR := gateReads r.pred ++ r.a.toNat :: (if two then [r.b.toNat] else []), lat := 2, holds := on, off := !on })
    fun x =>
      if x.gate0 r.pred r.pn then
        let v := f (x.sd.pred r.a.toNat) (x.sd.pred r.b.toNat)
        x.done r.mods x.t [x.flyPred r.d.toNat 2 v.toNat (ones 128) 0]
      else x.done r.mods x.t []

def execPand (r : RegW) (s : State) : Out := predWord r s true fun a b => a &&& b
def execPor (r : RegW) (s : State) : Out := predWord r s true fun a b => a ||| b
def execPxor (r : RegW) (s : State) : Out := predWord r s true fun a b => a ^^^ b
def execPandn (r : RegW) (s : State) : Out := predWord r s true fun a b => a &&& ~~~b
def execPnot (r : RegW) (s : State) : Out := predWord r s false fun a _ => ~~~a
def execPmov (r : RegW) (s : State) : Out := predWord r s false fun a _ => a

/-- Half of a predicate into a scalar. -/
def pgetWord (r : RegW) (s : State) (lo : Nat) : Out :=
  issueWord s r.mods
    (fun x =>
      let on := x.gate0 r.pred r.pn
      { opds := [opdW 0 r.d 1 on], predR := gateReads r.pred ++ [r.a.toNat], lat := 2, holds := on, off := !on })
    fun x =>
      if x.gate0 r.pred r.pn then
        x.done r.mods x.t [x.flyScalar r.d 2 (bits (x.sd.pred r.a.toNat).toNat lo 64) 0]
      else x.done r.mods x.t []

def execPgetLo (r : RegW) (s : State) : Out := pgetWord r s 0
def execPgetHi (r : RegW) (s : State) : Out := pgetWord r s 64

/-- A scalar into half of a predicate; the other half is kept (R144, R145). -/
def psetWord (r : RegW) (s : State) (lo : Nat) : Out :=
  issueWord s r.mods
    (fun x =>
      let on := x.gate0 r.pred r.pn
      { opds := [opdR 1 r.a 1], predR := gateReads r.pred, lat := 2, holds := on, off := !on })
    fun x =>
      if x.gate0 r.pred r.pn then
        x.done r.mods x.t [x.flyPred r.d.toNat 2 ((x.t.scalar r.a).toNat <<< lo) (ones 64 <<< lo) 0]
      else x.done r.mods x.t []

def execPsetLo (r : RegW) (s : State) : Out := psetWord r s 0
def execPsetHi (r : RegW) (s : State) : Out := psetWord r s 64

/-! Immediate and address forms (R146–R148): class Imm is never gated. -/

/-- An Imm-class word; `useA` says whether A is a source, `f` gives the result from A, IMM and this word's address. -/
def immWord (r : ImmW) (s : State) (useA : Bool) (lat : Nat) (f : Nat → Nat → Nat → Nat) : Out :=
  issueWord s r.mods
    (fun _ => { opds := opdW 0 r.d 1 true :: (if useA then [opdR 1 r.a 1] else []), lat := lat, holds := true })
    fun x =>
      x.done r.mods x.t [x.flyScalar r.d lat (f (x.t.scalar r.a).toNat r.imm.toNat x.pc.toNat) 0]

def execAddi (r : ImmW) (s : State) : Out := immWord r s true 2 fun a i _ => a + sxt 32 i
def execAndi (r : ImmW) (s : State) : Out := immWord r s true 2 fun a i _ => a &&& sxt 32 i
def execOri (r : ImmW) (s : State) : Out := immWord r s true 2 fun a i _ => a ||| sxt 32 i
def execXori (r : ImmW) (s : State) : Out := immWord r s true 2 fun a i _ => a ^^^ sxt 32 i
def execShli (r : ImmW) (s : State) : Out := immWord r s true 2 fun a i _ => a <<< (i % 64)
def execShri (r : ImmW) (s : State) : Out := immWord r s true 2 fun a i _ => a >>> (i % 64)
def execSrai (r : ImmW) (s : State) : Out := immWord r s true 2 fun a i _ => shrPat true 64 a (i % 64)
def execMovi (r : ImmW) (s : State) : Out := immWord r s false 2 fun _ i _ => sxt 32 i
def execMovhi (r : ImmW) (s : State) : Out := immWord r s true 2 fun a i _ => i * 2 ^ 32 + a % 2 ^ 32
def execMuli (r : ImmW) (s : State) : Out := immWord r s true 4 fun a i _ => a * sxt 32 i
def execLea (r : ImmW) (s : State) : Out := immWord r s true 2 fun a i _ => canon (a + sxt 32 i)
def execLpc (r : ImmW) (s : State) : Out := immWord r s false 2 fun _ i pc => canon (pc + sxt 32 i)

/-- `leax`: the second source stands in IMM bits 7:0 and is checked after D and A, as position 3 (R147, R148). -/
def execLeax (r : ImmW) (s : State) : Out :=
  let spec2 := r.imm.extractLsb' 0 8
  issueWord s r.mods
    (fun _ => { opds := [opdW 0 r.d 1 true, opdR 1 r.a 1, opdR 3 spec2 1], lat := 2, holds := true })
    fun x =>
      let v := canon ((x.t.scalar r.a).toNat + ((x.t.scalar spec2).toNat <<< bits r.imm.toNat 8 6))
      x.done r.mods x.t [x.flyScalar r.d 2 v 0]

end Sys2Proof.Machine
end

