-- ==== Sys2Proof/Machine/VectorFloat.lean ====
section
/-! DEFINITION. Floating-point vector forms (R189–R193) and conversions between integers and floats (R194–R196). -/

namespace Sys2Proof.Machine

open Sys2Proof

/-- An arithmetic form of OP 0x80–0x82: one rounding for each enabled element, in the opcode's mode (R189, R190). -/
def floatElements (r : RegW) (s : State) (nsrc lat : Nat) (f : Fmt → Mode → Nat → Nat → Nat → Nat × Nat) : Out :=
  let w := elemBytes r.ty
  let srcs := ([(1, r.a), (2, r.b), (3, r.c)] : List (Nat × BitVec 8)).take nsrc
  issueWord s r.mods
    (fun x => { opds := ⟨0, r.d, 1, 0, elemMask w (x.enables r w (128 / w))⟩ :: srcs.map fun p => opdR p.1 p.2 1,
                predR := gateReads r.pred, lat := lat,
                holds := vectorHolds r.d (elemMask w (x.enables r w (128 / w))) })
    fun x => x.withSources (srcs.map fun p => (p.2, 1)) (some r.d) fun x vs =>
      let en := x.enables r w (128 / w)
      let (modes, x) := x.elementModes (r.op.toNat - 0x80) en
      let (v, fl) := packElements w ((en.zip modes).zipIdx.map fun e =>
        (e.1.1, if e.1.1 then
          f (fmtOfType r.ty.toNat) e.1.2 (elem w (vs.getD 0 0) e.2) (elem w (vs.getD 1 0) e.2) (elem w (vs.getD 2 0) e.2)
        else (0, 0)))
      x.doneVector r.mods r.d lat 128 v (elemMask w en) fl

def execVfadd (r : RegW) (s : State) : Out := floatElements r s 2 5 fun f m a b _ => fpAdd f m a b
def execVfsub (r : RegW) (s : State) : Out := floatElements r s 2 5 fun f m a b _ => fpSub f m a b
def execVfmul (r : RegW) (s : State) : Out := floatElements r s 2 5 fun f m a b _ => fpMul f m a b
def execVfma (r : RegW) (s : State) : Out := floatElements r s 3 5 fun f m a b c => fpFma f m false a b c
def execVfnma (r : RegW) (s : State) : Out := floatElements r s 3 5 fun f m a b c => fpFma f m true a b c
def execVfdiv (r : RegW) (s : State) : Out := floatElements r s 2 20 fun f m a b _ => fpDiv f m a b
def execVfsqrt (r : RegW) (s : State) : Out := floatElements r s 1 20 fun f m a _ _ => fpSqrt f m a

/-! OP 0x84 (R191) -/

/-- A form that does not round. -/
def plainFloat (r : RegW) (s : State) (nsrc : Nat) (f : Fmt → Nat → Nat → Nat × Nat) : Out :=
  elementwise r s nsrc (elemBytes r.ty) 5 fun a b _ => f (fmtOfType r.ty.toNat) a b

/-- The canonical quiet NaN for a NaN, with NV for a signalling one; else the element with another sign. -/
def signForm (f : Fmt) (a b : Nat) : Nat × Nat :=
  let x := f.value a
  if x.isNan then (f.qnan, if x.isSnan then fNV else 0) else (b, 0)

def execVfmin (r : RegW) (s : State) : Out := plainFloat r s 2 fun f a b => fpMinMax f false a b
def execVfmax (r : RegW) (s : State) : Out := plainFloat r s 2 fun f a b => fpMinMax f true a b
def execVfabs (r : RegW) (s : State) : Out := plainFloat r s 1 fun f a _ => signForm f a (a % 2 ^ (f.w - 1))
def execVfneg (r : RegW) (s : State) : Out := plainFloat r s 1 fun f a _ => signForm f a (a ^^^ 2 ^ (f.w - 1))

/-! Comparisons (R192) -/

/-- A comparison: `unord` is the answer when an operand is a NaN. -/
def floatCompare (r : RegW) (s : State) (unord : Bool) (f : Ordering → Bool) : Out :=
  let fm := fmtOfType r.ty.toNat
  elementCompare r s 5 fun a b =>
    let x := fm.value a
    let y := fm.value b
    (if x.isNan || y.isNan then unord else f (x.cmp y), if x.isSnan || y.isSnan then fNV else 0)

def execVfcmpEq (r : RegW) (s : State) : Out := floatCompare r s false fun o => o = .eq
def execVfcmpNe (r : RegW) (s : State) : Out := floatCompare r s true fun o => o ≠ .eq
def execVfcmpLt (r : RegW) (s : State) : Out := floatCompare r s false fun o => o = .lt
def execVfcmpLe (r : RegW) (s : State) : Out := floatCompare r s false fun o => o ≠ .gt
def execVfcmpGt (r : RegW) (s : State) : Out := floatCompare r s false fun o => o = .gt
def execVfcmpGe (r : RegW) (s : State) : Out := floatCompare r s false fun o => o ≠ .lt
def execVfcmpUn (r : RegW) (s : State) : Out := floatCompare r s true fun _ => false

/-! Reductions (R193) -/

/-- One level of the fixed tree. -/
def treeLevel (op : Nat → Nat → Nat × Nat) : List Nat → List Nat × Nat
  | a :: b :: r =>
    let (v, fl) := op a b
    let (l, fl2) := treeLevel op r
    (v :: l, fl ||| fl2)
  | l => (l, 0)

/-- The fixed tree over up to 2^k values. -/
def treeReduce (op : Nat → Nat → Nat × Nat) : Nat → List Nat → Nat × Nat
  | 0, l => (l.headD 0, 0)
  | k + 1, l =>
    let (l', fl) := treeLevel op l
    let (v, fl2) := treeReduce op k l'
    (v, fl ||| fl2)

/-- Exact conversion of a standard code to FP32 (R193): the bits of a NaN move with its fraction, so that a signalling
one is still signalling for the tree's operation. -/
def widen32 (f : Fmt) (c : Nat) : Nat :=
  match f.value c with
  | .nan _ => (if bit c (f.w - 1) then 2 ^ 31 else 0) ||| (0xFF <<< 23) ||| (bits c 0 f.mb <<< (23 - f.mb))
  | x => (roundStd fmtF32 .rne x).1

/-- A reduction: disabled elements are replaced by `ident`, and the tree has log2 n levels. -/
def floatReduce (r : RegW) (s : State) (ident : Nat) (op : Nat → Nat → Nat × Nat) : Out :=
  let w := elemBytes r.ty
  vectorToScalar r s [] 9 fun x a =>
    let es := (x.enables r w (128 / w)).zipIdx.map fun e =>
      if e.1 then widen32 (fmtOfType r.ty.toNat) (elem w a e.2) else ident
    treeReduce op (if w = 4 then 5 else 6) es

def execVfredAdd (r : RegW) (s : State) : Out := floatReduce r s 0x80000000 (fpAdd fmtF32 .rne)
def execVfredMin (r : RegW) (s : State) : Out := floatReduce r s fmtF32.qnan (fpMinMax fmtF32 false)
def execVfredMax (r : RegW) (s : State) : Out := floatReduce r s fmtF32.qnan (fpMinMax fmtF32 true)

/-! Conversions (R194–R196) -/

/-- A TYPE code of a floating-point type (R85). -/
def tyIsFloat (ty : Nat) : Bool := 9 ≤ ty

/-- One element from type `src` to type `dst` (R196). -/
def convertElement (src dst : Nat) (mode : Mode) (c : Nat) : Nat × Nat :=
  let sw := 8 * typeBytes src
  let dw := 8 * typeBytes dst
  let sg := fun ty => decide (1 ≤ ty) && decide (ty ≤ 4)
  if tyIsFloat src then
    let x := (fmtOfType src).value c
    if tyIsFloat dst then
      let (v, fl) := roundStd (fmtOfType dst) mode x
      (v, fl ||| (if x.isSnan then fNV else 0))
    else toInt (sg dst) dw mode x
  else
    let k := readAs (sg src) sw c
    if tyIsFloat dst then roundStd (fmtOfType dst) mode (Val.ofInt k) else satInt (sg dst) dw k

/-- `vcvt` (R194–R196): FN is the source type; the wide side is a group, the predicate follows the narrower width. -/
def execVcvt (r : RegW) (s : State) : Out :=
  let ws := typeBytes r.fn.toNat
  let wd := typeBytes r.ty.toNat
  let wm := min ws wd
  let n := 128 / wm
  issueWord s r.mods
    (fun x => { opds := [⟨0, r.d, wd / wm, 0, elemMask wd (x.enables r wm n)⟩, opdR 1 r.a (ws / wm)],
                predR := gateReads r.pred, lat := 5, holds := vectorHolds r.d (elemMask wd (x.enables r wm n)) })
    fun x => x.withSources [(r.a, ws / wm)] (some r.d) fun x vs =>
      let en := x.enables r wm n
      let mode := r.op.toNat - 0x98
      let (modes, x) := x.elementModes mode en
      let (v, fl) := packElements wd ((en.zip modes).zipIdx.map fun e =>
        (e.1.1, if e.1.1 then convertElement r.fn.toNat r.ty.toNat e.1.2 (elem ws (vs.getD 0 0) e.2) else (0, 0)))
      x.doneVector r.mods r.d 5 (n * wd) v (elemMask wd en) fl

end Sys2Proof.Machine
end

