-- ==== Sys2Proof/Machine/VectorInt.lean ====
section
/-! DEFINITION. Integer vector forms (R179–R188): arithmetic, logic, comparisons, moves and lane forms, the cross-strand
shuffle, reductions and trit forms. -/

namespace Sys2Proof.Machine

open Sys2Proof

/-- A typed elementwise form; sources are read as the type's integers (R179). -/
def intElements (r : RegW) (s : State) (nsrc lat : Nat) (f : Nat → Bool → Int → Int → Int → Int × Nat) : Out :=
  let w := 8 * elemBytes r.ty
  let sg := typeSigned r.ty
  elementwise r s nsrc (elemBytes r.ty) lat fun a b c =>
    let (v, fl) := f w sg (readAs sg w a) (readAs sg w b) (readAs sg w c)
    (ofSigned w v, fl)

/-- An elementwise form on bit patterns. -/
def patternElements (r : RegW) (s : State) (nsrc : Nat) (f : Nat → Nat → Nat → Nat) : Out :=
  elementwise r s nsrc (elemBytes r.ty) 3 fun a b _ => (f (8 * elemBytes r.ty) a b, 0)

def execVadd (r : RegW) (s : State) : Out := intElements r s 2 3 fun _ _ a b _ => (a + b, 0)
def execVsub (r : RegW) (s : State) : Out := intElements r s 2 3 fun _ _ a b _ => (a - b, 0)

/-- ISAT when the exact result lies outside the type (R106). -/
def execVadds (r : RegW) (s : State) : Out :=
  intElements r s 2 3 fun w sg a b _ => ((satInt sg w (a + b)).1, satFlags sg w (a + b))

def execVsubs (r : RegW) (s : State) : Out :=
  intElements r s 2 3 fun w sg a b _ => ((satInt sg w (a - b)).1, satFlags sg w (a - b))

def execVmin (r : RegW) (s : State) : Out := intElements r s 2 3 fun _ _ a b _ => (min a b, 0)
def execVmax (r : RegW) (s : State) : Out := intElements r s 2 3 fun _ _ a b _ => (max a b, 0)
def execVabs (r : RegW) (s : State) : Out := intElements r s 1 3 fun _ _ a _ _ => (if a < 0 then -a else a, 0)
def execVneg (r : RegW) (s : State) : Out := intElements r s 1 3 fun _ _ a _ _ => (-a, 0)
def execVmul (r : RegW) (s : State) : Out := intElements r s 2 5 fun _ _ a b _ => (a * b, 0)
def execVmulh (r : RegW) (s : State) : Out := intElements r s 2 5 fun w _ a b _ => ((a * b) / (2 : Int) ^ w, 0)
def execVmad (r : RegW) (s : State) : Out := intElements r s 3 5 fun _ _ a b c => (a * b + c, 0)

/-- Four byte products added to a 32-bit lane, exact before the wrap (R180). -/
def execVdp4 (r : RegW) (s : State) : Out :=
  let sg := typeSigned r.ty
  elementwise r s 3 4 5 fun a b c =>
    let ps := (List.range 4).map fun j => readAs sg 8 (elem 1 a j) * readAs sg 8 (elem 1 b j)
    (ofSigned 32 (readAs sg 32 c + ps.foldl (· + ·) 0), 0)

def execVand (r : RegW) (s : State) : Out := patternElements r s 2 fun _ a b => a &&& b
def execVor (r : RegW) (s : State) : Out := patternElements r s 2 fun _ a b => a ||| b
def execVxor (r : RegW) (s : State) : Out := patternElements r s 2 fun _ a b => a ^^^ b
def execVandn (r : RegW) (s : State) : Out := patternElements r s 2 fun w a b => a &&& (b ^^^ ones w)
def execVnot (r : RegW) (s : State) : Out := patternElements r s 1 fun w a _ => a ^^^ ones w

def execVshl (r : RegW) (s : State) : Out := patternElements r s 2 shlPat
def execVshr (r : RegW) (s : State) : Out := patternElements r s 2 fun w a b => shrPat (typeSigned r.ty) w a b
def execVrotl (r : RegW) (s : State) : Out := patternElements r s 2 rotlPat
def execVrotr (r : RegW) (s : State) : Out := patternElements r s 2 fun w a b => rotlPat w a (w - b % w)
def execVclz (r : RegW) (s : State) : Out := patternElements r s 1 fun w a _ => clzPat w a
def execVctz (r : RegW) (s : State) : Out := patternElements r s 1 fun w a _ => ctzPat w a
def execVpopc (r : RegW) (s : State) : Out := patternElements r s 1 fun w a _ => popcount w a

/-! Comparisons (R181) -/

/-- A comparison of integer elements as the type's values. -/
def intCompare (r : RegW) (s : State) (f : Nat → Int → Int → Bool) : Out :=
  let w := 8 * elemBytes r.ty
  let sg := typeSigned r.ty
  elementCompare r s 3 fun a b => (f w (readAs sg w a) (readAs sg w b), 0)

def execVcmpEq (r : RegW) (s : State) : Out := intCompare r s fun _ a b => a = b
def execVcmpNe (r : RegW) (s : State) : Out := intCompare r s fun _ a b => a ≠ b
def execVcmpLt (r : RegW) (s : State) : Out := intCompare r s fun _ a b => a < b
def execVcmpLe (r : RegW) (s : State) : Out := intCompare r s fun _ a b => a ≤ b
def execVcmpGt (r : RegW) (s : State) : Out := intCompare r s fun _ a b => b < a
def execVcmpGe (r : RegW) (s : State) : Out := intCompare r s fun _ a b => b ≤ a
def execVcmpTst (r : RegW) (s : State) : Out := intCompare r s fun w a b => ofSigned w a &&& ofSigned w b ≠ 0
def execVcmpNtst (r : RegW) (s : State) : Out := intCompare r s fun w a b => ofSigned w a &&& ofSigned w b = 0

/-! Moves and lane forms (R182) -/

def execVmov (r : RegW) (s : State) : Out := elementwise r s 1 1 3 fun a _ _ => (a, 0)

/-- `vsel` writes every element and is never gated (R173, R182). -/
def execVsel (r : RegW) (s : State) : Out :=
  let w := elemBytes r.ty
  issueWord s r.mods
    (fun _ => { opds := [opdW 0 r.d 1 true, opdR 1 r.a 1, opdR 2 r.b 1], predR := gateReads r.pred, lat := 3, holds := true })
    fun x => x.withSources [(r.a, 1), (r.b, 1)] (some r.d) fun x vs =>
      let en := x.enables r w (128 / w)
      let v := ofElems w (en.zipIdx.map fun e => elem w (vs.getD (if e.1 then 0 else 1) 0) e.2)
      x.doneVector r.mods r.d 3 128 v (ones 128) 0

def execVbcast (r : RegW) (s : State) : Out :=
  perElement r s [] [(1, r.a, elemBytes r.ty)] (elemBytes r.ty) 3 fun x _ _ =>
    ((x.t.scalar r.a).toNat % 2 ^ (8 * elemBytes r.ty), 0)

/-- The one element that `vins` may write. -/
def Here.insIndex (x : Here) (r : RegW) : Nat := (x.t.scalar r.b).toNat % (128 / elemBytes r.ty)

/-- `vins`: element B mod n only, when it is enabled; in an entry that it pushes every other byte is 0 (log entry 74). -/
def execVins (r : RegW) (s : State) : Out :=
  let w := elemBytes r.ty
  let en := fun (x : Here) => (x.enables r w (128 / w)).zipIdx.map fun e => e.1 && e.2 = x.insIndex r
  issueWord s r.mods
    (fun x => { opds := [⟨0, r.d, 1, 0, elemMask w (en x)⟩, opdB 1 r.a 1 (ones w), opdR 2 r.b 1],
                predR := gateReads r.pred, lat := 3, holds := vectorHolds r.d (elemMask w (en x)) })
    fun x => x.withSources [] (some r.d) fun x _ =>
      let v := ofElems w ((en x).map fun b => if b then (x.t.scalar r.a).toNat % 2 ^ (8 * w) else 0)
      x.doneVector r.mods r.d 3 128 v (elemMask w (en x)) 0

/-- `vext`: element B mod n, extended by sign for the signed types (R182). -/
def execVext (r : RegW) (s : State) : Out :=
  let w := elemBytes r.ty
  vectorToScalar r s [(2, r.b)] 4 fun x a =>
    (extend (typeSigned r.ty) (8 * w) (elem w a ((x.t.scalar r.b).toNat % (128 / w))), 0)

def execVidx (r : RegW) (s : State) : Out :=
  perElement r s [] [] (elemBytes r.ty) 3 fun _ _ i => (i % 2 ^ (8 * elemBytes r.ty), 0)

def execVperm (r : RegW) (s : State) : Out :=
  let w := elemBytes r.ty
  perElement r s [(1, r.a), (2, r.b)] [] w 4 fun _ vs i =>
    (elem w (vs.getD 0 0) (elem w (vs.getD 1 0) i % (128 / w)), 0)

def execVrot (r : RegW) (s : State) : Out :=
  let w := elemBytes r.ty
  perElement r s [(1, r.a)] [(2, r.b, 8)] w 4 fun x vs i =>
    (elem w (vs.getD 0 0) ((i + (x.t.scalar r.b).toNat) % (128 / w)), 0)

/-- The allocation offset that element i of `vshx` reads (R183). -/
def shuffleOff (b : Nat) (a i : Nat) : Nat :=
  let o := (b + elem 4 a i) % 2 ^ 32
  o - o % 4

/-- `vshx` (R183): the register-gated check, then with SCBEN = 1 and O = 0 the register-pending check of every byte
read, then the gather; drowsy granules hold the strand first (R42). -/
def execVshx (r : RegW) (s : State) : Out :=
  issueWord s r.mods
    (fun x => { opds := [⟨0, r.d, 1, 0, elemMask 4 (x.enables r 4 32)⟩, opdR 1 r.a 1, opdR 2 r.b 1],
                predR := gateReads r.pred, lat := 6, holds := vectorHolds r.d (elemMask 4 (x.enables r 4 32)) })
    fun x => x.withSources [(r.a, 1)] (some r.d) fun y vs =>
      let en := y.enables r 4 32
      let offs := (List.range 32).map fun i => shuffleOff (y.t.scalar r.b).toNat (vs.getD 0 0) i
      let live := ((en.zip offs).filter fun e => e.1).map (·.2)
      match live.find? fun o => y.t.regsz * 4096 < o + 4 with
      | some o => y.trap { code := 0x09, info := BitVec.ofNat 64 o }
      | none =>
        let pend := if y.t.scben && !r.mods.old then y.s.pendingAll y.t else 0
        match (live.flatMap fun o => (List.range 4).map (o + ·)).find? fun o => bit pend o with
        | some o => y.trap { code := 0x08, info := BitVec.ofNat 64 (0x10000 + o) }
        | none =>
          let (t', waking) := y.t.wake y.s.cycle (live.map (· / 4096)).eraseDups
          -- a hold takes no pop: the word issues again from the start
          if waking then
            let (t0, _) := x.t.wake x.s.cycle (live.map (· / 4096)).eraseDups
            (x.withTeam t0).hold .none
          else
            let y := y.withTeam t'
            let v := ofElems 4 ((en.zip offs).map fun e => if e.1 then Mem.readN y.t.regs e.2 4 else 0)
            y.doneVector r.mods r.d 6 128 v (elemMask 4 en) 0

/-! Reductions (R184) -/

/-- The enabled elements of A read as the type's integers. -/
def Here.enabledInts (x : Here) (r : RegW) (a : Nat) : List Int :=
  let w := elemBytes r.ty
  ((x.enables r w (128 / w)).zipIdx.filter fun e => e.1).map fun e => readAs (typeSigned r.ty) (8 * w) (elem w a e.2)

def intReduce (r : RegW) (s : State) (f : Nat → Bool → List Int → Int) : Out :=
  let w := 8 * elemBytes r.ty
  let sg := typeSigned r.ty
  vectorToScalar r s [] 6 fun x a => (ofSigned 64 (f w sg (x.enabledInts r a)), 0)

/-- The ends of a type's range (R105). -/
def typeMin (sg : Bool) (w : Nat) : Int := if sg then -(2 : Int) ^ (w - 1) else 0
def typeMax (sg : Bool) (w : Nat) : Int := if sg then (2 : Int) ^ (w - 1) - 1 else (2 : Int) ^ w - 1

def execVredAdd (r : RegW) (s : State) : Out := intReduce r s fun _ _ l => l.foldl (· + ·) 0
def execVredMin (r : RegW) (s : State) : Out := intReduce r s fun w sg l => l.foldl min (typeMax sg w)
def execVredMax (r : RegW) (s : State) : Out := intReduce r s fun w sg l => l.foldl max (typeMin sg w)

/-! Trits (R185–R188) -/

/-- `Div3k` (R186). -/
def div3k (k b : Nat) : Nat :=
  match k with
  | 0 => b
  | 1 => (b * 171) >>> 9
  | 2 => (b * 57) >>> 9
  | 3 => (b * 19) >>> 9
  | _ => (b * 203) >>> 14

/-- Digit k of a packed-trit byte (R186). -/
def tritDigit (k b : Nat) : Nat :=
  let q := div3k k b
  q - 3 * ((q * 171) >>> 9)

/-- `vtrit` (R186, R187). -/
def execVtrit (r : RegW) (s : State) : Out :=
  issueWord s r.mods
    (fun x => { opds := [⟨0, r.d, 1, 0, elemMask 1 (x.enables r 1 128)⟩, opdR 1 r.a 1],
                predR := gateReads r.pred, lat := 3, holds := vectorHolds r.d (elemMask 1 (x.enables r 1 128)) })
    fun x => x.withSources [(r.a, 1)] (some r.d) fun x vs =>
      let en := x.enables r 1 128
      let es := en.zipIdx.map fun e => (e.1, e.2, elem 1 (vs.getD 0 0) e.2)
      match es.find? fun e => e.1 && 243 ≤ e.2.2 with
      | some e => x.trap { code := 0x04, reason := 0x01, info := BitVec.ofNat 64 (e.2.1 + 256 * e.2.2) }
      | none =>
        let v := ofElems 1 (es.map fun e => if e.1 then (tritDigit r.fn.toNat e.2.2 + 255) % 256 else 0)
        x.doneVector r.mods r.d 3 128 v (elemMask 1 en) 0

/-- `vtacc` (R188): the only step that saturates is the last. -/
def execVtacc (r : RegW) (s : State) : Out :=
  elementwise r s 3 4 5 fun a b c =>
    let t := ((List.range 4).map fun j =>
      let x := toSigned 8 (elem 1 a j)
      let y := toSigned 8 (elem 1 b j)
      if 0 < x then y else if x < 0 then -y else 0).foldl (· + ·) 0
    satInt true 32 (toSigned 32 c + t)

end Sys2Proof.Machine
end

