-- ==== Sys2Proof/Machine/Dispatch.lean ====
section
/-! DEFINITION. One arm per constructor of Instr: each calls the meaning of its instruction. -/

namespace Sys2Proof.Machine

open Sys2Proof

def exec (i : Instr) (s : State) : Host.Outcome State Fault Refusal :=
  match i with
  | .nop r => Sys2Proof.Machine.execNop r s
  | .add r => Sys2Proof.Machine.execAdd r s
  | .sub r => Sys2Proof.Machine.execSub r s
  | .adds r => Sys2Proof.Machine.execAdds r s
  | .subs r => Sys2Proof.Machine.execSubs r s
  | .min r => Sys2Proof.Machine.execMin r s
  | .max r => Sys2Proof.Machine.execMax r s
  | .abs r => Sys2Proof.Machine.execAbs r s
  | .neg r => Sys2Proof.Machine.execNeg r s
  | .mul r => Sys2Proof.Machine.execMul r s
  | .mulh r => Sys2Proof.Machine.execMulh r s
  | .div r => Sys2Proof.Machine.execDiv r s
  | .rem r => Sys2Proof.Machine.execRem r s
  | .mad r => Sys2Proof.Machine.execMad r s
  | .and r => Sys2Proof.Machine.execAnd r s
  | .or r => Sys2Proof.Machine.execOr r s
  | .xor r => Sys2Proof.Machine.execXor r s
  | .andn r => Sys2Proof.Machine.execAndn r s
  | .not r => Sys2Proof.Machine.execNot r s
  | .shl r => Sys2Proof.Machine.execShl r s
  | .shr r => Sys2Proof.Machine.execShr r s
  | .rotl r => Sys2Proof.Machine.execRotl r s
  | .rotr r => Sys2Proof.Machine.execRotr r s
  | .clz r => Sys2Proof.Machine.execClz r s
  | .ctz r => Sys2Proof.Machine.execCtz r s
  | .popc r => Sys2Proof.Machine.execPopc r s
  | .brev r => Sys2Proof.Machine.execBrev r s
  | .bswap r => Sys2Proof.Machine.execBswap r s
  | .mov r => Sys2Proof.Machine.execMov r s
  | .sel r => Sys2Proof.Machine.execSel r s
  | .cmpEq r => Sys2Proof.Machine.execCmpEq r s
  | .cmpNe r => Sys2Proof.Machine.execCmpNe r s
  | .cmpLt r => Sys2Proof.Machine.execCmpLt r s
  | .cmpLe r => Sys2Proof.Machine.execCmpLe r s
  | .cmpGt r => Sys2Proof.Machine.execCmpGt r s
  | .cmpGe r => Sys2Proof.Machine.execCmpGe r s
  | .cmpTst r => Sys2Proof.Machine.execCmpTst r s
  | .cmpNtst r => Sys2Proof.Machine.execCmpNtst r s
  | .pand r => Sys2Proof.Machine.execPand r s
  | .por r => Sys2Proof.Machine.execPor r s
  | .pxor r => Sys2Proof.Machine.execPxor r s
  | .pandn r => Sys2Proof.Machine.execPandn r s
  | .pnot r => Sys2Proof.Machine.execPnot r s
  | .pmov r => Sys2Proof.Machine.execPmov r s
  | .pgetLo r => Sys2Proof.Machine.execPgetLo r s
  | .pgetHi r => Sys2Proof.Machine.execPgetHi r s
  | .psetLo r => Sys2Proof.Machine.execPsetLo r s
  | .psetHi r => Sys2Proof.Machine.execPsetHi r s
  | .addi r => Sys2Proof.Machine.execAddi r s
  | .andi r => Sys2Proof.Machine.execAndi r s
  | .ori r => Sys2Proof.Machine.execOri r s
  | .xori r => Sys2Proof.Machine.execXori r s
  | .shli r => Sys2Proof.Machine.execShli r s
  | .shri r => Sys2Proof.Machine.execShri r s
  | .srai r => Sys2Proof.Machine.execSrai r s
  | .movi r => Sys2Proof.Machine.execMovi r s
  | .movhi r => Sys2Proof.Machine.execMovhi r s
  | .muli r => Sys2Proof.Machine.execMuli r s
  | .lea r => Sys2Proof.Machine.execLea r s
  | .leax r => Sys2Proof.Machine.execLeax r s
  | .lpc r => Sys2Proof.Machine.execLpc r s
  | .b r => Sys2Proof.Machine.execB r s
  | .beq r => Sys2Proof.Machine.execBeq r s
  | .bne r => Sys2Proof.Machine.execBne r s
  | .blt r => Sys2Proof.Machine.execBlt r s
  | .ble r => Sys2Proof.Machine.execBle r s
  | .bgt r => Sys2Proof.Machine.execBgt r s
  | .bge r => Sys2Proof.Machine.execBge r s
  | .bp r => Sys2Proof.Machine.execBp r s
  | .bnp r => Sys2Proof.Machine.execBnp r s
  | .call r => Sys2Proof.Machine.execCall r s
  | .jr r => Sys2Proof.Machine.execJr r s
  | .callr r => Sys2Proof.Machine.execCallr r s
  | .loop r => Sys2Proof.Machine.execLoop r s
  | .waitSig r => Sys2Proof.Machine.execWaitSig r s
  | .waitTile r => Sys2Proof.Machine.execWaitTile r s
  | .waitQ r => Sys2Proof.Machine.execWaitQ r s
  | .waitMer r => Sys2Proof.Machine.execWaitMer r s
  | .yield r => Sys2Proof.Machine.execYield r s
  | .exit r => Sys2Proof.Machine.execExit r s
  | .crr r => Sys2Proof.Machine.execCrr r s
  | .crw r => Sys2Proof.Machine.execCrw r s
  | .crs r => Sys2Proof.Machine.execCrs r s
  | .crc r => Sys2Proof.Machine.execCrc r s
  | .crwi r => Sys2Proof.Machine.execCrwi r s
  | .ctrr r => Sys2Proof.Machine.execCtrr r s
  | .tret r => Sys2Proof.Machine.execTret r s
  | .trap r => Sys2Proof.Machine.execTrap r s
  | .brk r => Sys2Proof.Machine.execBrk r s
  | .vadd r => Sys2Proof.Machine.execVadd r s
  | .vsub r => Sys2Proof.Machine.execVsub r s
  | .vadds r => Sys2Proof.Machine.execVadds r s
  | .vsubs r => Sys2Proof.Machine.execVsubs r s
  | .vmin r => Sys2Proof.Machine.execVmin r s
  | .vmax r => Sys2Proof.Machine.execVmax r s
  | .vabs r => Sys2Proof.Machine.execVabs r s
  | .vneg r => Sys2Proof.Machine.execVneg r s
  | .vmul r => Sys2Proof.Machine.execVmul r s
  | .vmulh r => Sys2Proof.Machine.execVmulh r s
  | .vmad r => Sys2Proof.Machine.execVmad r s
  | .vdp4 r => Sys2Proof.Machine.execVdp4 r s
  | .vand r => Sys2Proof.Machine.execVand r s
  | .vor r => Sys2Proof.Machine.execVor r s
  | .vxor r => Sys2Proof.Machine.execVxor r s
  | .vandn r => Sys2Proof.Machine.execVandn r s
  | .vnot r => Sys2Proof.Machine.execVnot r s
  | .vshl r => Sys2Proof.Machine.execVshl r s
  | .vshr r => Sys2Proof.Machine.execVshr r s
  | .vrotl r => Sys2Proof.Machine.execVrotl r s
  | .vrotr r => Sys2Proof.Machine.execVrotr r s
  | .vclz r => Sys2Proof.Machine.execVclz r s
  | .vctz r => Sys2Proof.Machine.execVctz r s
  | .vpopc r => Sys2Proof.Machine.execVpopc r s
  | .vcmpEq r => Sys2Proof.Machine.execVcmpEq r s
  | .vcmpNe r => Sys2Proof.Machine.execVcmpNe r s
  | .vcmpLt r => Sys2Proof.Machine.execVcmpLt r s
  | .vcmpLe r => Sys2Proof.Machine.execVcmpLe r s
  | .vcmpGt r => Sys2Proof.Machine.execVcmpGt r s
  | .vcmpGe r => Sys2Proof.Machine.execVcmpGe r s
  | .vcmpTst r => Sys2Proof.Machine.execVcmpTst r s
  | .vcmpNtst r => Sys2Proof.Machine.execVcmpNtst r s
  | .vmov r => Sys2Proof.Machine.execVmov r s
  | .vsel r => Sys2Proof.Machine.execVsel r s
  | .vbcast r => Sys2Proof.Machine.execVbcast r s
  | .vins r => Sys2Proof.Machine.execVins r s
  | .vext r => Sys2Proof.Machine.execVext r s
  | .vidx r => Sys2Proof.Machine.execVidx r s
  | .vperm r => Sys2Proof.Machine.execVperm r s
  | .vshx r => Sys2Proof.Machine.execVshx r s
  | .vrot r => Sys2Proof.Machine.execVrot r s
  | .vredAdd r => Sys2Proof.Machine.execVredAdd r s
  | .vredMin r => Sys2Proof.Machine.execVredMin r s
  | .vredMax r => Sys2Proof.Machine.execVredMax r s
  | .vtrit r => Sys2Proof.Machine.execVtrit r s
  | .vtacc r => Sys2Proof.Machine.execVtacc r s
  | .vfadd r => Sys2Proof.Machine.execVfadd r s
  | .vfsub r => Sys2Proof.Machine.execVfsub r s
  | .vfmul r => Sys2Proof.Machine.execVfmul r s
  | .vfma r => Sys2Proof.Machine.execVfma r s
  | .vfnma r => Sys2Proof.Machine.execVfnma r s
  | .vfdiv r => Sys2Proof.Machine.execVfdiv r s
  | .vfsqrt r => Sys2Proof.Machine.execVfsqrt r s
  | .vfmin r => Sys2Proof.Machine.execVfmin r s
  | .vfmax r => Sys2Proof.Machine.execVfmax r s
  | .vfabs r => Sys2Proof.Machine.execVfabs r s
  | .vfneg r => Sys2Proof.Machine.execVfneg r s
  | .vfcmpEq r => Sys2Proof.Machine.execVfcmpEq r s
  | .vfcmpNe r => Sys2Proof.Machine.execVfcmpNe r s
  | .vfcmpLt r => Sys2Proof.Machine.execVfcmpLt r s
  | .vfcmpLe r => Sys2Proof.Machine.execVfcmpLe r s
  | .vfcmpGt r => Sys2Proof.Machine.execVfcmpGt r s
  | .vfcmpGe r => Sys2Proof.Machine.execVfcmpGe r s
  | .vfcmpUn r => Sys2Proof.Machine.execVfcmpUn r s
  | .vfredAdd r => Sys2Proof.Machine.execVfredAdd r s
  | .vfredMin r => Sys2Proof.Machine.execVfredMin r s
  | .vfredMax r => Sys2Proof.Machine.execVfredMax r s
  | .vcvt r => Sys2Proof.Machine.execVcvt r s
  | .vquant r => Sys2Proof.Machine.execVquant r s
  | .vquantStart r => Sys2Proof.Machine.execVquantStart r s
  | .vdequantF32 r => Sys2Proof.Machine.execVdequantF32 r s
  | .vdequantBf16 r => Sys2Proof.Machine.execVdequantBf16 r s
  | .ld r => Sys2Proof.Machine.execLd r s
  | .st r => Sys2Proof.Machine.execSt r s
  | .vld r => Sys2Proof.Machine.execVld r s
  | .vst r => Sys2Proof.Machine.execVst r s
  | .ldwF r => Sys2Proof.Machine.execLdwF r s
  | .ldwFe r => Sys2Proof.Machine.execLdwFe r s
  | .vldwF r => Sys2Proof.Machine.execVldwF r s
  | .vldwFe r => Sys2Proof.Machine.execVldwFe r s
  | .stwEf r => Sys2Proof.Machine.execStwEf r s
  | .stwF r => Sys2Proof.Machine.execStwF r s
  | .vstwEf r => Sys2Proof.Machine.execVstwEf r s
  | .vstwF r => Sys2Proof.Machine.execVstwF r s
  | .feEmpty r => Sys2Proof.Machine.execFeEmpty r s
  | .feFull r => Sys2Proof.Machine.execFeFull r s
  | .feGet r => Sys2Proof.Machine.execFeGet r s
  | .qdrop r => Sys2Proof.Machine.execQdrop r s
  | .qlen r => Sys2Proof.Machine.execQlen r s
  | .qwait r => Sys2Proof.Machine.execQwait r s
  | .fetch r => Sys2Proof.Machine.execFetch r s
  | .fetchF r => Sys2Proof.Machine.execFetchF r s
  | .fetchFe r => Sys2Proof.Machine.execFetchFe r s
  | .drain r => Sys2Proof.Machine.execDrain r s
  | .drainEf r => Sys2Proof.Machine.execDrainEf r s
  | .drainF r => Sys2Proof.Machine.execDrainF r s
  | .pref r => Sys2Proof.Machine.execPref r s
  | .amoAdd r => Sys2Proof.Machine.execAmoAdd r s
  | .amoAnd r => Sys2Proof.Machine.execAmoAnd r s
  | .amoOr r => Sys2Proof.Machine.execAmoOr r s
  | .amoXor r => Sys2Proof.Machine.execAmoXor r s
  | .amoMinS r => Sys2Proof.Machine.execAmoMinS r s
  | .amoMaxS r => Sys2Proof.Machine.execAmoMaxS r s
  | .amoMinN r => Sys2Proof.Machine.execAmoMinN r s
  | .amoMaxN r => Sys2Proof.Machine.execAmoMaxN r s
  | .amoSwap r => Sys2Proof.Machine.execAmoSwap r s
  | .amoCas r => Sys2Proof.Machine.execAmoCas r s
  | .amoFadd r => Sys2Proof.Machine.execAmoFadd r s
  | .amoFmin r => Sys2Proof.Machine.execAmoFmin r s
  | .amoFmax r => Sys2Proof.Machine.execAmoFmax r s
  | .fence r => Sys2Proof.Machine.execFence r s
  | .fenceRel r => Sys2Proof.Machine.execFenceRel r s
  | .fenceAcq r => Sys2Proof.Machine.execFenceAcq r s
  | .rel r => Sys2Proof.Machine.execRel r s
  | .acq r => Sys2Proof.Machine.execAcq r s
  | .acqP r => Sys2Proof.Machine.execAcqP r s
  | .barSync r => Sys2Proof.Machine.execBarSync r s
  | .barArr r => Sys2Proof.Machine.execBarArr r s
  | .barWt r => Sys2Proof.Machine.execBarWt r s
  | .enq r => Sys2Proof.Machine.execEnq r s
  | .qclr r => Sys2Proof.Machine.execQclr r s
  | .sigGet r => Sys2Proof.Machine.execSigGet r s
  | .sigAdd r => Sys2Proof.Machine.execSigAdd r s
  | .sigSet r => Sys2Proof.Machine.execSigSet r s
  | .sigAddR r => Sys2Proof.Machine.execSigAddR r s
  | .cmdNop c => Sys2Proof.Machine.execCmdNop c s
  | .mm c => Sys2Proof.Machine.execMm c s
  | .mmG c => Sys2Proof.Machine.execMmG c s
  | .cpLd c => Sys2Proof.Machine.execCpLd c s
  | .cpSt c => Sys2Proof.Machine.execCpSt c s
  | .cpMv c => Sys2Proof.Machine.execCpMv c s
  | .cpZero c => Sys2Proof.Machine.execCpZero c s
  | .cpRenc c => Sys2Proof.Machine.execCpRenc c s
  | .cpRed c => Sys2Proof.Machine.execCpRed c s
  | .clAred c => Sys2Proof.Machine.execClAred c s
  | .clRsc c => Sys2Proof.Machine.execClRsc c s
  | .clAgat c => Sys2Proof.Machine.execClAgat c s
  | .clPut c => Sys2Proof.Machine.execClPut c s
  | .clPutq c => Sys2Proof.Machine.execClPutq c s
  | .notify c => Sys2Proof.Machine.execNotify c s
  | .qfence c => Sys2Proof.Machine.execQfence c s
  | .chain c => Sys2Proof.Machine.execChain c s
  | .sealRange c => Sys2Proof.Machine.execSealRange c s
  | .resultLands h k => Sys2Proof.Machine.execResultLands h k s
  | .localStorePerform h k => Sys2Proof.Machine.execLocalStorePerform h k s
  | .postedStorePerform core n => Sys2Proof.Machine.execPostedStorePerform core n s
  | .blockEndReply h k => Sys2Proof.Machine.execBlockEndReply h k s
  | .fetchDataArrival h q => Sys2Proof.Machine.execFetchDataArrival h q s
  | .waitConditionMet h k => Sys2Proof.Machine.execWaitConditionMet h k s
  | .headConditionMet h k => Sys2Proof.Machine.execHeadConditionMet h k s
  | .clusterTimeSlice core k => Sys2Proof.Machine.execClusterTimeSlice core k s
  | .asyncEventDelivery h => Sys2Proof.Machine.execAsyncEventDelivery h s
  | .teamRetire h => Sys2Proof.Machine.execTeamRetire h s
  | .launchFail l => Sys2Proof.Machine.execLaunchFail l s
  | .granuleDrowsy h g => Sys2Proof.Machine.execGranuleDrowsy h g s
  | .swap h => Sys2Proof.Machine.execSwap h s
  | .teamRequeue h => Sys2Proof.Machine.execTeamRequeue h s
  | .teamRestore h => Sys2Proof.Machine.execTeamRestore h s
  | .priorityAging core l => Sys2Proof.Machine.execPriorityAging core l s
  | .engineCmdStart h q => Sys2Proof.Machine.execEngineCmdStart h q s
  | .engineCmdComplete h q => Sys2Proof.Machine.execEngineCmdComplete h q s
  | .heldTileReady h t => Sys2Proof.Machine.execHeldTileReady h t s
  | .bankJoin core => Sys2Proof.Machine.execBankJoin core s
  | .fixupReplay h q => Sys2Proof.Machine.execFixupReplay h q s
  | .launchDoorbell ctx q v => Sys2Proof.Machine.execLaunchDoorbell ctx q v s
  | .launchAccept ctx q => Sys2Proof.Machine.execLaunchAccept ctx q s
  | .taskReady l t => Sys2Proof.Machine.execTaskReady l t s
  | .teamDispatch core l => Sys2Proof.Machine.execTeamDispatch core l s
  | .translationWalk ctx va => Sys2Proof.Machine.execTranslationWalk ctx va s
  | .faultReply ctx v => Sys2Proof.Machine.execFaultReply ctx v s
  | .shootdownStart ctx => Sys2Proof.Machine.execShootdownStart ctx s
  | .shootdownDone ctx => Sys2Proof.Machine.execShootdownDone ctx s
  | .contextSave ctx => Sys2Proof.Machine.execContextSave ctx s
  | .contextRestore ctx => Sys2Proof.Machine.execContextRestore ctx s
  | .contextSaveDone ctx => Sys2Proof.Machine.execContextSaveDone ctx s
  | .contextRestoreDone ctx => Sys2Proof.Machine.execContextRestoreDone ctx s
  | .bufferDataError h k off => Sys2Proof.Machine.execBufferDataError h k off s
  | .memoryLineError pa ctx => Sys2Proof.Machine.execMemoryLineError pa ctx s
  | .promotionRequest core n => Sys2Proof.Machine.execPromotionRequest core n s
  | .flushStart core => Sys2Proof.Machine.execFlushStart core s
  | .flushLocalPhaseEnd core => Sys2Proof.Machine.execFlushLocalPhaseEnd core s
  | .flushRemotePhaseEnd core => Sys2Proof.Machine.execFlushRemotePhaseEnd core s
  | .taggedWriteApply die n => Sys2Proof.Machine.execTaggedWriteApply die n s
  | .clockMarkerApply die n => Sys2Proof.Machine.execClockMarkerApply die n s
  | .remoteSpAccess core n => Sys2Proof.Machine.execRemoteSpAccess core n s
  | .sigAddRArrive core n => Sys2Proof.Machine.execSigAddRArrive core n s
  | .granuleFillDone h g => Sys2Proof.Machine.execGranuleFillDone h g s
  | .tileClaim n => Sys2Proof.Machine.execTileClaim n s
  | .claimRestart n => Sys2Proof.Machine.execClaimRestart n s
  | .reencodeTagWrite n => Sys2Proof.Machine.execReencodeTagWrite n s
  | .sextantStepRequest ctx v => Sys2Proof.Machine.execSextantStepRequest ctx v s
  | .sextantStepApply ctx => Sys2Proof.Machine.execSextantStepApply ctx s
  | .redUpdateArrive die n => Sys2Proof.Machine.execRedUpdateArrive die n s
  | .redMarkerArrive die n => Sys2Proof.Machine.execRedMarkerArrive die n s
  | .redRetry die n => Sys2Proof.Machine.execRedRetry die n s
  | .collectiveDataArrive h rank data digest => Sys2Proof.Machine.execCollectiveDataArrive h rank data digest s
  | .packetHop n => Sys2Proof.Machine.execPacketHop n s
  | .packetArrive p => Sys2Proof.Machine.execPacketArrive p s
  | .courseFaultReturn n cause hop => Sys2Proof.Machine.execCourseFaultReturn n cause hop s
  | .requestTimeout n => Sys2Proof.Machine.execRequestTimeout n s
  | .dupReplyExpiry n => Sys2Proof.Machine.execDupReplyExpiry n s
  | .courseTableReread ctx v => Sys2Proof.Machine.execCourseTableReread ctx v s
  | .flitRetry port plane => Sys2Proof.Machine.execFlitRetry port plane s
  | .linkPlaneChange port plane up => Sys2Proof.Machine.execLinkPlaneChange port plane up s
  | .chartInstall => Sys2Proof.Machine.execChartInstall s
  | .exportLoad => Sys2Proof.Machine.execExportLoad s
  | .migrationStart => Sys2Proof.Machine.execMigrationStart s
  | .migrationSwitch ok => Sys2Proof.Machine.execMigrationSwitch ok s
  | .movedResend n => Sys2Proof.Machine.execMovedResend n s
  | .roLineRevoke peer lo hi => Sys2Proof.Machine.execRoLineRevoke peer lo hi s
  | .meridianTick => Sys2Proof.Machine.execMeridianTick s
  | .alignMessageSend => Sys2Proof.Machine.execAlignMessageSend s
  | .alignMessageArrive port count delay => Sys2Proof.Machine.execAlignMessageArrive port count delay s
  | .alignTimeout => Sys2Proof.Machine.execAlignTimeout s
  | .barrierPhaseComplete h b => Sys2Proof.Machine.execBarrierPhaseComplete h b s
  | .digestRequest ctx v => Sys2Proof.Machine.execDigestRequest ctx v s
  | .digestApply ctx => Sys2Proof.Machine.execDigestApply ctx s
  | .errorEvent r => Sys2Proof.Machine.execErrorEvent r s
  | .packageReset => Sys2Proof.Machine.execPackageReset s
  | .powerOnBoot image => Sys2Proof.Machine.execPowerOnBoot image s
  | .firmwareUpdate image => Sys2Proof.Machine.execFirmwareUpdate image s
  | .contextCreate c => Sys2Proof.Machine.execContextCreate c s
  | .contextDestroy c => Sys2Proof.Machine.execContextDestroy c s
  | .contextOpDone => Sys2Proof.Machine.execContextOpDone s
  | .debugStop ctx => Sys2Proof.Machine.execDebugStop ctx s
  | .debugTeamStopped ctx => Sys2Proof.Machine.execDebugTeamStopped ctx s
  | .debugRelease ctx => Sys2Proof.Machine.execDebugRelease ctx s
  | .debugRead ctx => Sys2Proof.Machine.execDebugRead ctx s
  | .debugWrite ctx => Sys2Proof.Machine.execDebugWrite ctx s
  | .ueSqDoorbell k v => Sys2Proof.Machine.execUeSqDoorbell k v s
  | .ueSend k status => Sys2Proof.Machine.execUeSend k status s
  | .ueWrite k status => Sys2Proof.Machine.execUeWrite k status s
  | .ueRead k status data => Sys2Proof.Machine.execUeRead k status data s
  | .uePacketReceive port die pa data => Sys2Proof.Machine.execUePacketReceive port die pa data s
  | .attestationRequest nonce => Sys2Proof.Machine.execAttestationRequest nonce s
  | .binnacleSample power sample => Sys2Proof.Machine.execBinnacleSample power sample s
  | .corePowerGate core => Sys2Proof.Machine.execCorePowerGate core s
  | .coreWake core => Sys2Proof.Machine.execCoreWake core s
  | .counterClear die => Sys2Proof.Machine.execCounterClear die s
  | .counterFreeze die on => Sys2Proof.Machine.execCounterFreeze die on s
  | .registerWrite pa v => Sys2Proof.Machine.execRegisterWrite pa v s
  | .illegalInstruction w reason => Sys2Proof.Machine.execIllegalInstruction w reason s
  | .faultQueueHeadAdvance ctx v => Sys2Proof.Machine.execFaultQueueHeadAdvance ctx v s
  | .ueCompletionTimeout k => Sys2Proof.Machine.execUeCompletionTimeout k s

end Sys2Proof.Machine
end

