-- ==== Sys2Proof/Machine/Events.lean ====
section
/-! DEFINITION. The units' own events, each with the meaning of its constructor of Instr. -/

namespace Sys2Proof.Machine

open Sys2Proof

/-- What a unit's event does. -/
def runEv (e : Ev) (s : State) : Out :=
  match e with
  | .resultLands h k => execResultLands h k s
  | .localStorePerform h k => execLocalStorePerform h k s
  | .postedStorePerform core n => execPostedStorePerform core n s
  | .blockEndReply h k => execBlockEndReply h k s
  | .fetchDataArrival h q => execFetchDataArrival h q s
  | .waitConditionMet h k => execWaitConditionMet h k s
  | .headConditionMet h k => execHeadConditionMet h k s
  | .clusterTimeSlice core k => execClusterTimeSlice core k s
  | .asyncEventDelivery h => execAsyncEventDelivery h s
  | .teamRetire h => execTeamRetire h s
  | .launchFail l => execLaunchFail l s
  | .granuleDrowsy h g => execGranuleDrowsy h g s
  | .swap h => execSwap h s
  | .teamRequeue h => execTeamRequeue h s
  | .teamRestore h => execTeamRestore h s
  | .priorityAging core l => execPriorityAging core l s
  | .engineCmdStart h q => execEngineCmdStart h q s
  | .engineCmdComplete h q => execEngineCmdComplete h q s
  | .heldTileReady h t => execHeldTileReady h t s
  | .bankJoin core => execBankJoin core s
  | .fixupReplay h q => execFixupReplay h q s
  | .launchDoorbell ctx q v => execLaunchDoorbell ctx q v s
  | .launchAccept ctx q => execLaunchAccept ctx q s
  | .taskReady l t => execTaskReady l t s
  | .teamDispatch core l => execTeamDispatch core l s
  | .translationWalk ctx va => execTranslationWalk ctx va s
  | .faultReply ctx v => execFaultReply ctx v s
  | .shootdownStart ctx => execShootdownStart ctx s
  | .shootdownDone ctx => execShootdownDone ctx s
  | .contextSave ctx => execContextSave ctx s
  | .contextRestore ctx => execContextRestore ctx s
  | .contextSaveDone ctx => execContextSaveDone ctx s
  | .contextRestoreDone ctx => execContextRestoreDone ctx s
  | .promotionRequest core n => execPromotionRequest core n s
  | .flushStart core => execFlushStart core s
  | .flushLocalPhaseEnd core => execFlushLocalPhaseEnd core s
  | .flushRemotePhaseEnd core => execFlushRemotePhaseEnd core s
  | .taggedWriteApply core n => execTaggedWriteApply core n s
  | .clockMarkerApply die n => execClockMarkerApply die n s
  | .remoteSpAccess core n => execRemoteSpAccess core n s
  | .sigAddRArrive core n => execSigAddRArrive core n s
  | .granuleFillDone h g => execGranuleFillDone h g s
  | .tileClaim n => execTileClaim n s
  | .claimRestart n => execClaimRestart n s
  | .reencodeTagWrite n => execReencodeTagWrite n s
  | .sextantStepRequest ctx v => execSextantStepRequest ctx v s
  | .sextantStepApply ctx => execSextantStepApply ctx s
  | .redUpdateArrive die n => execRedUpdateArrive die n s
  | .redMarkerArrive die n => execRedMarkerArrive die n s
  | .redRetry die n => execRedRetry die n s
  | .packetHop n => execPacketHop n s
  | .packetLeave n => .next (s.leaveLink n)
  | .courseFaultReturn n cause hop => execCourseFaultReturn n cause hop s
  | .requestTimeout n => execRequestTimeout n s
  | .dupReplyExpiry n => execDupReplyExpiry n s
  | .courseTableReread ctx v => execCourseTableReread ctx v s
  | .bankReply h k => .next (s.bankReply h k)
  | .courseWriteBack ctx peer => .next (s.writeBackCourse ctx peer)
  | .chartInstall => execChartInstall s
  | .exportLoad => execExportLoad s
  | .migrationStart => execMigrationStart s
  | .migrationSwitch ok => execMigrationSwitch ok s
  | .movedResend n => execMovedResend n s
  | .meridianTick => execMeridianTick s
  | .alignMessageSend => execAlignMessageSend s
  | .alignTimeout => execAlignTimeout s
  | .barrierPhaseComplete h b => execBarrierPhaseComplete h b s
  | .digestRequest ctx v => execDigestRequest ctx v s
  | .digestApply ctx => execDigestApply ctx s
  | .contextCreate c => execContextCreate c s
  | .contextDestroy c => execContextDestroy c s
  | .contextOpDone => execContextOpDone s
  | .debugStop ctx => execDebugStop ctx s
  | .debugTeamStopped ctx => execDebugTeamStopped ctx s
  | .debugRelease ctx => execDebugRelease ctx s
  | .debugRead ctx => execDebugRead ctx s
  | .debugWrite ctx => execDebugWrite ctx s
  | .ueSqDoorbell k v => execUeSqDoorbell k v s
  | .corePowerGate core => execCorePowerGate core s
  | .coreWake core => execCoreWake core s
  | .ueCompletionTimeout k => execUeCompletionTimeout k s
  | .collectiveDataArrive h rank data digest => execCollectiveDataArrive h rank data digest s
  | .faultQueueHeadAdvance ctx v => execFaultQueueHeadAdvance ctx v s
  | .counterClear die => execCounterClear die s
  | .counterFreeze die on => execCounterFreeze die on s
  | .packageReset => execPackageReset s

/-- The areas of teams set aside follow what an occurrence changed of them. -/
def mirrored (s0 : State) (o : Out) : Out :=
  match o with
  | .next s => .next (State.mirrorAll s0 s)
  | x => x

end Sys2Proof.Machine
end

