-- ==== Sys2Proof/Machine/Schedule.lean ====
section
/-! DEFINITION. One cycle's end and the next cycle's occurrences in their order (log entry 2): strand time (R71), slots and
full/empty bits at their cycle boundaries (R55, R219), and what every unit has to do. -/

namespace Sys2Proof.Machine

open Sys2Proof

/-! ## The end of a cycle -/

/-- A stream's time goes on in the next cycle whether or not it issues: it counts a stall count, or results land that it, an
exit or a halt waits for (R71, R76, R153, R169). The access stream's counts are in cycles (R82). A debugger stop keeps the
results in flight, but for those of a halted team, which land (R169, R407). -/
def Strand.counts (x : Strand) (k : Nat) (halted : Bool) : Bool :=
  (!x.stopped || halted) && (x.time < x.ready || ((4 ≤ k || x.settle || x.exiting || halted) && !x.flights.isEmpty))

/-- A stream at a cycle boundary: its time advances, or its local stores are performed while it holds (R71, R298). A held
access stream's time advances while results are pending (R82). -/
def Team.endStrand (t : Team) (k : Nat) : Team :=
  let x := t.strand k
  let t :=
    if x.advance || (4 ≤ k && x.counts k t.halted) then t.setStrand k { x with time := x.time + 1 }
    else if x.spills.isEmpty then t else t.flushSpills k
  let x := t.strand k
  t.setStrand k { x with advance := x.counts k t.halted }

/-- Strands that held in the cycle that ends (R71, R307): all live ones of a team set aside. -/
def Team.heldStrands (t : Team) : Nat :=
  if t.halted then 0 else (t.liveStrands.filter fun k => !(t.resident && (t.strand k).advance)).length

/-- A team at a cycle boundary; a queue that had no room for its final `notify` takes it once it has (R273). -/
def Team.endCycle (t : Team) (ready : Bool) : Team :=
  let t := (t.commitSlots.count 0 (if t.slot?.isSome then 1 else 0)).count 12 t.heldStrands
  let t := { t with
    flagNow := 0, feBusy := [], spBusy := [], q0 := t.q0.cleared, q1 := t.q1.cleared, q2 := t.q2.cleared,
    tiles := t.tiles.map fun x => { x with taken := false, was := x.st }, failed := if ready then 0 else t.failed + 1 }
  let t := if t.resident && t.drainOnly then t.takeFinals else t
  if t.resident then (List.range 5).foldl Team.endStrand t else t

/-- A core at a cycle boundary: how long each cluster's strand has run while another team's was eligible (R356), the banks that
are still taken (R212), the sync group that comes next (R357), and whether a team is there (R490). -/
def State.endCore (s : State) (n : Nat) (c : Core) : Core :=
  let busy := s.teams.any fun e => e.2.core = n && e.2.resident
  let cluster := fun (k : Nat) (x : Cluster) =>
    let on := (x.handle.bind s.team?).any fun t => (t.strand k).advance
    let other := (s.teamsOf n).any fun t => some t.handle ≠ x.handle && s.eligible t k
    { x with ran := if on && other then x.ran + 1 else 0, used := false : Cluster }
  { s.pickSync n c with
    clusters := Vector.ofFn fun (k : Fin 4) => cluster k.val (vget c.clusters k.val {}),
    bankUse := c.bankUse.filter fun u => s.cycle < u.cycle,
    lastBusy := if busy then s.cycle else c.lastBusy }

/-- A step that is pending could be applied in this cycle (R377). -/
def State.stepMayRun (s : State) (n : Nat) (c : Context) : Bool :=
  c.sextant.pend.isSome && c.st = .running && c.sextant.wait.serial.isNone
    && !s.launches.any fun e => e.2.ctx = n && !e.2.afterStep && e.2.fate = .running

/-- A context at a cycle boundary: how long its step could be applied (R377). -/
def State.endContext (s : State) (n : Nat) (c : Context) : Context :=
  if s.stepMayRun n c then { c with sextant := { c.sextant with ran := c.sextant.ran + 1 } } else c

/-- A launch at a cycle boundary: the items of one that may not dispatch do not wait for a slot yet (R350, R358). -/
def State.endLaunch (s : State) (l : Launch) : Launch := if s.mayDispatch l then l else { l with openAt := s.cycle + 1 }

/-- Every counter and bit that changes at a cycle boundary. -/
def State.endCycle (s : State) : State :=
  { s with
    cycle := s.cycle + 1,
    cores := s.cores.map fun (e : Nat × Core) => (e.1, s.endCore e.1 e.2),
    contexts := s.contexts.map fun (e : Nat × Context) => (e.1, s.endContext e.1 e.2),
    launches := s.launches.map fun (e : Nat × Launch) => (e.1, s.endLaunch e.2),
    teams := s.teams.map fun (e : Nat × Team) => (e.1, e.2.endCycle (!e.2.resident || s.teamReady e.2)) }

/-! ## The occurrences of a cycle -/

/-- An occurrence that happens in this cycle, or one whose time is not fixed and which may wait. -/
inductive Due where
  | now (o : Occ)
  | free (o : Occ)
  deriving DecidableEq, Repr

def Due.occ : Due → Occ
  | .now o => o
  | .free o => o

/-- Decides which of the occurrences of unfixed time happen in this cycle; the counter of free values goes on. -/
def thin : Nat → List Due → List Occ × Nat
  | n, [] => ([], n)
  | n, .now o :: r => let (l, n) := thin n r; (o :: l, n)
  | n, .free o :: r => let (l, m) := thin (n + 1) r; (if Config.freeHold n then l else o :: l, m)

def nowIf (b : Bool) (e : Ev) : List Due := if b then [.now (.ev e)] else []
def freeIf (b : Bool) (e : Ev) : List Due := if b then [.free (.ev e)] else []

/-- Occurrences bound to come within a number of cycles of `since`: free until then. -/
def State.within (s : State) (b : Bool) (since n : Nat) (e : Ev) : List Due :=
  if !b then [] else if since + n ≤ s.cycle then [.now (.ev e)] else [.free (.ev e)]

/-- Every team with its handle. -/
def State.allTeams (s : State) : List Team := s.teams.map (·.2)

def State.residents (s : State) : List Team := s.allTeams.filter Team.resident

/-- The cores with resident teams. -/
def State.busyCores (s : State) : List Nat := (s.residents.map Team.core).eraseDups

/-! ### Time passing: the meridian counter, landings and local stores -/

def State.dueClock (s : State) : List Due :=
  .now (.ev .meridianTick) :: nowIf s.aligned .alignTimeout

/-- Gated cores with a team wake before the words of their cycle (R490). -/
def State.dueWakes (s : State) : List Due :=
  s.cores.flatMap fun e => nowIf (e.2.powerGated && s.busyCores.contains e.1) (.coreWake e.1)

/-- A core's words may issue in the cycle: it is not gated, or it wakes now (R490). -/
def State.awake (s : State) (core : Nat) : Bool := !(s.core core).powerGated || s.cycle % 8 = core % 8

/-- A stream has results to land, or an exit to end. -/
def Strand.lands (x : Strand) : Bool := x.exiting || x.flights.any fun f => f.land ≤ x.time

def Strand.performs (x : Strand) : Bool :=
  (x.spills.any fun e => e.perform ≤ x.time) || x.flights.any fun f => f.readAt ≠ 0 && f.readAt ≤ x.time

/-- The reply that a stream waits for, or one of the access stream's loads, may come. -/
def State.dueReply (s : State) (t : Team) (k : Nat) : List Due :=
  let waits := match (t.strand k).wait with
    | .reply n => !s.bankReq n
    | _ => false
  freeIf (waits || (k = 4 && !(s.accessReqs t.handle).isEmpty)) (.blockEndReply t.handle k)

/-- A stream's requests at the banks of its own window may be served in its turn of the cycle (R212). -/
def State.dueBank (s : State) (t : Team) (k : Nat) : List Due :=
  freeIf (s.reqs.any fun e => e.2.h = t.handle && e.2.k = k && e.2.atBank) (.bankReply t.handle k)

/-- Landings and replies by ascending strand, so that the higher strand's result stands and every word issued in the cycle sees
them all (R41); then the local stores and reads. -/
def State.dueLandings (s : State) : List Due :=
  (s.residents.flatMap fun t => (List.range 5).flatMap fun k =>
      nowIf (t.strand k).lands (.resultLands t.handle k) ++ s.dueReply t k)
    ++ s.residents.flatMap fun t => (List.range 5).flatMap fun k => nowIf (t.strand k).performs (.localStorePerform t.handle k)

/-! ### Promotion and commands -/

/-- Flushes start and end their local part before the accesses of the cycle (R334). -/
def State.dueFlushes (s : State) : List Due :=
  s.cores.flatMap fun e =>
    match e.2.flush with
    | none => nowIf e.2.nextFlush.isSome (.flushStart e.1)
    | some f => if f.phase = .localPart then s.within true f.began 1023 (.flushLocalPhaseEnd e.1) else []

/-- They end after the strands of the cycle, so that a release that waits for an entry logs in the cycle after (R336). -/
def State.dueFlushEnds (s : State) : List Due :=
  s.cores.flatMap fun e => freeIf (e.2.flush.any fun f => f.phase = .remotePart) (.flushRemotePhaseEnd e.1)

/-- Held sets take effect before commands start (R287, R288). -/
def State.dueHeldSets (s : State) : List Due :=
  s.residents.flatMap fun t => (List.range t.tiles.length).flatMap fun n =>
    nowIf ((t.tile? n).any fun x => x.held && (x.st = .empty || x.st = .ready)) (.heldTileReady t.handle n)

/-- The banks of the cycle, by what started or ended in the cycle before (R360). -/
def State.dueBanks (s : State) : List Due :=
  s.busyCores.flatMap fun c => nowIf ((s.teamsOf c).any fun t => t.bankNeed.isSome || t.banks ≠ 0) (.bankJoin c)

def State.dueStarts (s : State) : List Due :=
  s.residents.flatMap fun t => (List.range 3).flatMap fun q =>
    nowIf (t.mayStart q && !(t.queue q).cmds.isEmpty) (.engineCmdStart t.handle q)

/-! ### Accesses on their way -/

/-- The writes of a core's path, in order. -/
def Core.duePath (c : Core) (n : Nat) : List Due :=
  c.path.flatMap fun e =>
    freeIf true (match e.target, e.tag with
      | .home _, some _ => .taggedWriteApply n e.num
      | _, _ => .postedStorePerform n e.num)

/-- Requests at bank units (R219). -/
def State.dueMessages (s : State) : List Due :=
  s.reqs.flatMap fun e =>
    match e.2.st with
    | .message c => freeIf true (.remoteSpAccess c e.1)
    | _ => []

/-- Promotion requests: those of one cycle by the requesting core (R333). -/
def State.duePromotions (s : State) : List Due :=
  ((s.reqs.filter fun e => e.2.st = .promotion).mergeSort fun a b => handleCore a.2.h ≤ handleCore b.2.h).flatMap fun e =>
    freeIf true (.promotionRequest (handleCore e.2.handle) e.1)

def State.dueAccesses (s : State) : List Due :=
  (s.cores.flatMap fun e => e.2.duePath e.1)
    ++ ((List.range s.markers.length).reverse.flatMap fun n =>
        match s.markers[n]? with
        | some m => freeIf true (.clockMarkerApply m.mdie n)
        | none => [])
    ++ (s.allTeams.flatMap fun t => (List.range 4).flatMap fun q =>
        freeIf (t.nextReserved q).isSome (.fetchDataArrival t.handle q))
    ++ s.cores.flatMap fun e => e.2.msgs.flatMap fun m => freeIf m.slotAdd.isSome (.sigAddRArrive e.1 m.tag)

/-! ### Strands -/

/-- The test of what stream k of a team waits for (R154, R155, R209): its word goes on in the first cycle in which the condition
holds; the news of a barrier's last arrival takes its time. -/
def Team.dueWait (t : Team) (k : Nat) : List Due :=
  match (t.strand k).wait with
  | .reply _ => []
  | .barrier b scope _ => (if scope = 0 then nowIf true else freeIf true) (.barrierPhaseComplete t.handle b)
  | w => if w.isWait || w.isOrdering then nowIf true (.waitConditionMet t.handle k) else nowIf w.isHold (.headConditionMet t.handle k)

/-- Strand k of a core's teams, then the cluster that runs it; while Binnacle throttles, issue may wait (R491). -/
def State.dueCluster (s : State) (core k : Nat) : List Due :=
  ((s.teamsOf core).flatMap fun t => t.dueWait k ++ s.dueBank t k)
    ++ nowIf true (.clusterTimeSlice core k)
    ++ [if s.binnacle.throttled then .free (.cluster core k) else .now (.cluster core k)]

def State.dueStrands (s : State) : List Due :=
  (s.residents.flatMap fun t => nowIf (!t.events.isEmpty) (.asyncEventDelivery t.handle))
    ++ ((s.busyCores.filter s.awake).flatMap fun c => (List.range 4).flatMap fun k => s.dueCluster c k)
    ++ (s.residents.flatMap fun t => t.dueWait 4 ++ s.dueBank t 4 ++
        (if t.strands.acc.live && !t.accStopped && s.awake t.core then [Due.now (.issue t.handle 4)] else []))
    ++ (s.allTeams.filter fun t => !t.resident).flatMap fun t => (List.range 5).flatMap fun k => s.dueReply t k ++ s.dueBank t k

/-! ### Engines, the map unit, granules -/

def State.dueEngines (s : State) : List Due :=
  s.residents.flatMap fun t => (List.range 3).flatMap fun q =>
    let x := t.queue q
    (if x.prog.isSome then [Due.free (.engine t.handle q)] else [])
      ++ freeIf (x.fixups.any fun f => f.refused || f.serial.isNone) (.fixupReplay t.handle q)
      ++ nowIf (x.prog.any fun p => p.phase = .performed) (.engineCmdComplete t.handle q)

def State.dueMapUnit (s : State) : List Due :=
  (s.allTeams.flatMap fun t => t.fills.flatMap fun f => freeIf true (.granuleFillDone t.handle f.granule))
    ++ (s.claims.flatMap fun e =>
        match e.2.st with
        | .start => freeIf true (.tileClaim e.1)
        | .waiting => freeIf true (.claimRestart e.1)
        | .busy _ => freeIf true (.reencodeTagWrite e.1)
        | .coded _ _ => freeIf true (.reencodeTagWrite e.1)
        | .written => freeIf true (.reencodeTagWrite e.1)
        | _ => [])
    ++ s.residents.flatMap fun t => (List.range t.regsz).flatMap fun g =>
        let x := (vget t.grans g {}).seen s.cycle
        nowIf (!x.drowsy && x.touched + 4096 ≤ s.cycle) (.granuleDrowsy t.handle g)

/-! ### Launches, teams, contexts -/

/-- Cores that an accepted launch or a requeued team may have work on. -/
def State.workCores (s : State) : List Nat :=
  ((s.launches.flatMap fun e => if e.2.tasks.any fun t => t.st = .ready then e.2.cores else [])
    ++ (s.allTeams.filter fun t => t.requeued.isSome).map Team.core).eraseDups

def State.dueWork (s : State) (core : Nat) : List Due :=
  match s.nextWork core with
  | some (.team h) => nowIf true (.teamRestore h)
  | some (.item n) => nowIf true (.teamDispatch core n)
  | none => []

/-- The next item of a launch has waited long enough on a core for another priority (R358). -/
def State.ages (s : State) (core n : Nat) : Bool :=
  match s.itemFor core n with
  | some (l, tk, t, _) => decide (l.waitsFrom tk + 65536 * (l.boost core t + 1) ≤ s.cycle) && decide (l.pri + l.boost core t < 3)
  | none => false

def State.dueLaunches (s : State) : List Due :=
  (s.contexts.flatMap fun e => (List.range 16).flatMap fun q =>
      let l := e.2.lq q
      freeIf (e.2.st = .running && (!l.bells.isEmpty || l.packet.isSome || l.head ≠ l.tail)) (.launchAccept e.1 q))
    ++ (s.launches.flatMap fun e => (List.range e.2.tasks.length).flatMap fun t =>
        nowIf (e.2.fate = .running && (e.2.tasks[t]?).any fun k => k.st = .waiting) (.taskReady e.1 t))
    ++ (s.workCores.flatMap fun c =>
        (s.launches.flatMap fun e => nowIf (s.ages c e.1) (.priorityAging c e.1)) ++ s.dueWork c)
    ++ s.launches.flatMap fun e => freeIf (e.2.fate ≠ .running) (.launchFail e.1)

def State.dueTeams (s : State) : List Due :=
  (s.allTeams.flatMap fun t =>
    match t.place with
    | .swapped _ => nowIf (t.requeued.isNone && !t.halted && s.teamReady t) (.teamRequeue t.handle)
    | _ => [])
    ++ (s.busyCores.flatMap fun c =>
        ((s.teamsOf c).flatMap fun t => freeIf (t.saving && (s.ctx? t.ctx).any fun x => x.st ≠ .saving) (.swap t.handle))
          ++ (match s.swapChoice c with
              | some h => nowIf true (.swap h)
              | none => []))
    ++ s.allTeams.flatMap fun t => freeIf t.isOver (.teamRetire t.handle)

def State.dueContexts (s : State) : List Due :=
  (s.contexts.flatMap fun e =>
    let c := e.2
    freeIf (c.st = .saving) (.contextSaveDone e.1) ++ freeIf (c.st = .restoring) (.contextRestoreDone e.1)
      ++ freeIf c.sdbusy (.shootdownDone e.1)
      ++ (if 4094 ≤ c.sextant.ran then nowIf true else freeIf (c.sextant.pend.isSome || !c.sextant.writes.isEmpty))
        (.sextantStepApply e.1)
      ++ (c.courses.flatMap fun x => nowIf (x.2.back.any fun w => w.serial.isNone) (.courseWriteBack e.1 x.1))
      ++ nowIf c.dblk.reading (.debugRead e.1)
      ++ freeIf c.digest (.digestApply e.1)
      ++ nowIf (s.residents.any fun t => t.ctx = e.1 && t.dbg && !t.isStopped) (.debugTeamStopped e.1))
    ++ (match s.pkg.busy with
        | some b => s.within true b.since 4095 .contextOpDone
        | none => [])

/-- Cores that have no team and are not gated (R490). -/
def State.idleCores (s : State) : List Nat :=
  if s.cycle < 65536 then []
  else (List.range 576).filter fun c =>
    let x := s.core c
    !x.powerGated && x.lastBusy + 65536 ≤ s.cycle && !s.residents.any fun t => t.core = c

def State.duePower (s : State) : List Due :=
  s.idleCores.flatMap fun c => nowIf true (.corePowerGate c)

/-! ### The fabric and ordered reductions -/

def State.dueFabric (s : State) : List Due :=
  let f := s.fabric
  (f.transit.flatMap fun e => freeIf true (.packetHop e.1)) ++ (f.links.flatMap fun e => freeIf true (.packetLeave e.1))
    ++ (f.outstanding.flatMap fun o =>
        nowIf (o.moved.isNone && (o.held || o.sentAt + 1048576 ≤ s.cycle)) (.requestTimeout o.ref)
          ++ freeIf (o.moved = some 2) (.movedResend o.ref))
    ++ ((List.range f.replies.length).reverse.flatMap fun n =>
        nowIf ((f.replies[n]?).any fun g => g.givenAt + 2 ^ 21 < s.cycle) (.dupReplyExpiry n))
    ++ freeIf s.gliem.cbusy .chartInstall ++ freeIf s.gliem.ebusy .exportLoad
    ++ (if s.gliem.migst = 1 then
          (if s.gliem.migref || s.gliem.migcrs = 2 then freeIf true (.migrationSwitch false)
           else if s.migrationWaits then [] else freeIf true (.migrationSwitch true))
        else [])

def State.dueReductions (s : State) : List Due :=
  s.redMsgs.flatMap fun e =>
    let m := e.2
    match m.refusedAt with
    | some c => s.within true c 1023 (.redRetry m.mdie e.1)
    | none => freeIf true (if m.pa.isSome then .redUpdateArrive m.mdie e.1 else .redMarkerArrive m.mdie e.1)

/-- The occurrences of the cycle, in order (log entry 2). -/
def State.due (s : State) : List Due :=
  s.dueClock ++ s.dueWakes ++ s.dueBanks ++ s.dueLandings ++ s.dueFlushes ++ s.dueHeldSets ++ s.dueStarts ++ s.dueAccesses ++ s.dueStrands
    ++ s.dueMessages ++ s.duePromotions ++ s.dueFlushEnds ++ s.dueEngines ++ s.dueMapUnit ++ s.dueLaunches ++ s.dueTeams
    ++ s.dueContexts ++ s.duePower ++ s.dueFabric ++ s.dueReductions

/-- What comes from outside in this cycle or before it. -/
def State.takeInputs (s : State) : List Occ × State :=
  let (now, rest) := s.inputs.partition fun i => i.cycle ≤ s.cycle
  (now.map fun i => Occ.event i.event, { s with inputs := rest })

/-- A new cycle: the boundary, with the releases that its local stores complete (R332), then the agenda of the cycle. -/
def State.tick (s : State) : State :=
  let s := State.mirrorAll s s.endCycle.logAll
  let (ins, s) := s.takeInputs
  let (l, n) := thin s.fresh s.due
  { s with agenda := ins ++ l, fresh := n }

end Sys2Proof.Machine
end

