-- ==== Sys2Proof/Machine/Issue.lean ====
section
/-! DEFINITION. What an occurrence of the agenda does: a stream presents its next word (R29, R71, R88), a sync group issues
(R77, R78), a slot cluster runs a team (R356, R357), an engine performs its command, a unit's event, an event from
outside. -/

namespace Sys2Proof.Machine

open Sys2Proof

/-! ## Fetching -/

/-- A fetch that cannot be made yet, for a stream: its word waits on the fault path under a serial (R394, R408), or for a
reply with a tag. -/
def State.fetchWaits (s : State) (h k : Nat) (w : Wait) : State :=
  s.modTeam h fun t =>
    match w, decide (4 ≤ k) with
    | .fetch n, true => { t with accSerial := some n, accVa := canon t.strands.acc.pc.toNat }
    | w, _ => t.setStrand k { t.strand k with wait := w, issued := .held }

/-- An instruction fetch from a peer's page goes out (R428). -/
def State.fetchPeer (s : State) (t : Team) (k p pa hd : Nat) (ro : Bool) : State :=
  let x := t.strand k
  let tag := s.nextReq
  let va := canon x.pc.toNat
  let (r, s) := s.sendPeer t.ctx p hd (dieOf t.core) (.request tag) va (.read pa 8 ro)
  match r with
  | .ref n =>
    let q : Req := { fetchReq x.pc with tag := tag, h := t.handle, k := k, st := .remote n }
    ({ s with nextReq := tag + 1 }.setReq tag q).fetchWaits t.handle k (.reply tag)
  | .wait => s
  | .unreachable c => s.trapHere t.handle k { code := 0x40, reason := c, info := BitVec.ofNat 64 va }

/-- The next word of stream k of a team, or what came of its fetch (R29, R209, R393, R394). -/
def State.fetchWord (s : State) (t : Team) (k : Nat) : Option Word × State :=
  let x := t.strand k
  let va := canon x.pc.toNat
  let here := x.fetched.filter fun e => e.1 = x.pc
  match here with
  | some e => (some (BitVec.ofNat 64 e.2), s)
  | none =>
    let (r, s) := s.resolve t.ctx (dieOf t.core) [] va 8 .fetch { src := if k < 4 then 0 else 1, handle := t.handle }
    match r with
    | .ok (.frame pa) _ =>
      if s.lineBad pa 8 then (none, s.trapHere t.handle k { code := 0x22, info := BitVec.ofNat 64 va })
      else (some (BitVec.ofNat 64 (s.readAt t.core pa 8)), s)
    | .ok (.peer p pa hd ro) _ => (none, s.fetchPeer t k p pa hd ro)
    | .ok _ _ => (none, s)
    | .wait n => (none, s.fetchWaits t.handle k (.fetch n))
    | .full => (none, s)
    | .fault ti => (none, s.trapHere t.handle k ti)
    | .refused ti => (none, s.trapHere t.handle k ti)

/-- Runs a word for stream k of team h: the instruction it decodes to, or the illegal-instruction trap (R88). -/
def State.runWord (s : State) (h k : Nat) (w : Word) : Out :=
  let s := { s with cur := .strand h k }
  match decodeWord (decide (4 ≤ k)) w with
  | .ok i => exec i s
  | .error r => execIllegalInstruction w r s

/-! ## Presenting a word -/

/-- The stream presents a word in this cycle, as far as its own state goes (R71, R72, R153, R169, R484). -/
def Team.presents (t : Team) (k : Nat) : Bool :=
  let x := t.strand k
  x.live && !x.exiting && !x.stopped && x.ready ≤ x.time && (!x.settle || x.flights.isEmpty)
    && (x.wait = .none || x.wait = .sync) && !t.halted && !t.saving && !t.dbg
    && (if k < 4 then t.slot?.isSome else t.resident && !t.accStopped)

/-- S of a word (R69, R77). -/
def wordSync (w : Word) : Bool := !w.getLsbD 63 && (Mods.ofWord w).sync

/-- The word of stream k, run alone, would issue. -/
def Issued.went (i : Issued) (pc : BitVec 64) : Bool :=
  match i with
  | .issued => true
  | .trapped _ p => p ≠ pc
  | _ => false

/-- What a presentation came to, by the state after it; `pc` was the word's address. -/
def State.wentBy (s : State) (h k : Nat) (pc : BitVec 64) : Bool := (s.team? h).any fun t => (t.strand k).issued.went pc

/-- The cluster of strand k passes when its team's strand is no longer eligible and another team's is (R356). -/
def State.passAfter (s : State) (core k : Nat) : State :=
  if s.clusterKeeps core k || (s.passOrder core k).isEmpty then s else s.passCluster core k

/-- A word has issued on the cluster of strand k in this cycle (R356). -/
def State.useCluster (s : State) (core k : Nat) : State :=
  s.modCore core fun c => { c with clusters := vset c.clusters k { vget c.clusters k {} with used := true } }

/-- After a word: its cluster has issued; a word that had come from a peer's page is used up; the cluster passes at a block end
or a hold, and a wait just issued is tested in this cycle (R154). -/
def State.afterWord (s : State) (h k : Nat) (t : Team) : State :=
  let went := s.wentBy h k (t.strand k).pc
  let s := if went && k < 4 then s.useCluster t.core k else s
  let s := if (t.strand k).fetched.isSome && went
    then s.modTeam h fun t => t.setStrand k { t.strand k with fetched := none } else s
  match s.team? h with
  | none => s
  | some u =>
    let s := if k < 4 && !s.eligible u k then s.passAfter t.core k else s
    if (u.strand k).wait.isWait then { s with agenda := .ev (.waitConditionMet h k) :: s.agenda } else s

/-- The posted event that stream k would take instead of issuing (R168). -/
def Team.eventFor (t : Team) (k : Nat) : Option AsyncEvent :=
  if t.eventStrand = some k then t.events.head? else none

/-- The word of stream k is presented: a posted event comes in its place when it would issue (R168). -/
def State.present (s : State) (h k : Nat) (t : Team) (w : Word) : Out :=
  match t.eventFor k with
  | none =>
    match s.runWord h k w with
    | .next s => .next (s.afterWord h k t)
    | o => o
  | some e =>
    match s.runWord h k w with
    | .next s' => .next ((if s'.wentBy h k (t.strand k).pc then s.deliver h k e else s').afterWord h k t)
    | o => o

/-- Every live strand of a team presents a word with S = 1 and its cluster runs the team, with no word of another issued in this
cycle (R77, R356, R357). -/
def State.groupReady (s : State) (t : Team) : Bool :=
  t.syncReady && t.liveStrands.all fun k =>
    let c := vget (s.core t.core).clusters k {}
    t.presents k && c.handle = some t.handle && !c.used

/-- The access stream halts at a word that does nothing in drain-only mode (R156). -/
def State.haltIdle (s : State) (t : Team) : Bool :=
  t.drainOnly &&
    match (s.fetchWord t 4).1 with
    | some w =>
      (match decodeWord true w with
       | .ok i => isFetch i
       | .error _ => false)
    | none => false

/-- The halt of an access stream that stands: it is over at a word that does nothing (R156). -/
def State.endIdleHalt (s : State) (h k : Nat) : State :=
  match s.team? h with
  | none => s
  | some t =>
    if 4 ≤ k && (t.accRefused.isSome || t.accSerial.isSome) && s.haltIdle t then
      s.setTeam h { t with accSerial := none, accRefused := none }
    else s

/-- A request of the access stream that was translated again waits on the fault path: the unit halts (R400). -/
def State.accessFaulted (s : State) (h : Nat) : Bool :=
  s.reqs.any fun e => e.2.h = h && e.2.k = 4 && (match e.2.st with
    | .faultPath _ => true
    | _ => false)

/-- ISSUE: stream k of team h presents its next word, when it may. A strand's word with S = 1 waits for its group. -/
def State.issue (s : State) (h k : Nat) : Out :=
  let s := s.endIdleHalt h k
  match s.team? h with
  | none => .next s
  | some t =>
    match decide (4 ≤ k), t.accRefused, t.accSerial with
    | true, some ti, _ => .next (s.accessTrap h ti)
    | true, none, some _ => .next s
    | _, _, _ =>
      if !t.presents k || (4 ≤ k && s.accessFaulted h) then .next s
      else if (t.strand k).wait = .sync then
        .next (if s.groupReady t then { s with agenda := .group h t.liveStrands :: s.agenda } else s)
      else
        match s.fetchWord t k with
        | (none, s) => .next s
        | (some w, s) =>
          if k < 4 && wordSync w then
            let t := t.setStrand k { t.strand k with wait := .sync }
            let s := s.setTeam h t
            let s := s.modCore t.core (s.pickSync t.core)
            .next (if s.groupReady t then { s with agenda := .group h t.liveStrands :: s.agenda } else s.passAfter t.core k)
          else s.present h k t w

/-! ## Sync groups (R77, R78) -/

/-- A member's presentation: its word may issue. -/
def Team.offer (t : Team) (k : Nat) : Team := t.setStrand k { t.strand k with wait := .none, issued := .idle }

/-- Presents a member's word; a fetch that gives no word leaves it held. -/
def State.tryMember (s : State) (h k : Nat) : State :=
  match s.team? h with
  | none => s
  | some t =>
    let t := t.offer k
    match (s.setTeam h t).fetchWord t k with
    | (none, s) => s
    | (some w, s) =>
      match s.runWord h k w with
      | .next s => s
      | _ => s

/-- A member that traps takes its trap; one that cannot issue holds at its word, its condition its own; the others keep
their words unissued. `trial` is the state after the group's trial. -/
def State.settleMember (trial : State) (h : Nat) (s : State) (k : Nat) : State :=
  match s.team? h, (trial.team? h).map fun t => t.strand k with
  | some t, some x =>
    match x.issued with
    | .trapped ti pc => if pc = (t.strand k).pc then s.trapHere h k ti else s
    | .issued => s
    | _ =>
      -- what a hold starts (a wake, a fill, a fault record) it starts alone; a word that would do more than hold does nothing
      let alone := s.tryMember h k
      let s := match (alone.team? h).map fun t => (t.strand k).issued with
        | some .issued => s
        | some (.trapped _ _) => s
        | _ => alone
      let w := if x.wait = .none then .sync else x.wait
      s.modTeam h fun t => (t.flushSpills k).setStrand k { (t.flushSpills k).strand k with wait := w, issued := .held }
  | _, _ => s

/-- A member's part of a group's trial: the state before it and after it. -/
structure Tried where
  k : Nat
  before : State
  after : State

/-- The members of a group are presented in turn. -/
def State.tryGroup (h : Nat) : List Nat → State → List Tried
  | [], _ => []
  | k :: ks, s =>
    let s' := s.tryMember h k
    { k := k, before := s, after := s' } :: State.tryGroup h ks s'

/-- The places of load queue q that a member popped, counted in the queue as it was before the trial. -/
def Tried.popped (x : Tried) (h q : Nat) (orig : Team) : List Nat :=
  let len := fun (s : State) => ((s.team? h).map fun t => (vget t.lqs q []).length).getD 0
  (List.range (len x.before - len x.after)).map fun i => (vget orig.lqs q []).length - len x.before + i

/-- Entries that a trapping member has popped stay consumed (R176, R187); their locks end. -/
def State.consumePops (s : State) (h : Nat) (x : Tried) (orig : Team) : State :=
  if x.after.wentBy h x.k (orig.strand x.k).pc then s
  else
    match ((x.after.team? h).map fun t => (t.strand x.k).issued : Option Issued), s.team? h with
    | some (.trapped _ _), some t =>
      let gone := fun (q : Nat) => ((vget orig.lqs q []).zipIdx.filter fun e => (x.popped h q orig).contains e.2).map (·.1.tag)
      let all := (List.range 4).flatMap fun q => ((vget t.lqs q []).filter fun e => (gone q).contains e.tag)
      (s.setTeam h { t with lqs := Vector.ofFn fun (q : Fin 4) =>
          (vget t.lqs q.val []).filter fun e => !(gone q.val).contains e.tag }).modCore t.core
        fun c => c.unlock (all.flatMap fun e => e.lines)
    | _, _ => s

/-- A team halted by a member of its group reports the trap registers of every member that trapped with it (R78, R362). -/
def State.settleHalt (s : State) (h : Nat) : State := if (s.team? h).any (·.halted) then s.haltTeam h else s

/-- A sync group issues in full or not at all (R77, R78); a posted event comes in its place (R168). -/
def State.issueGroup (s : State) (h : Nat) (ks : List Nat) : State :=
  match s.team? h with
  | none => s
  | some t =>
    if !s.groupReady t then s
    else
      let l := State.tryGroup h ks s
      let trial := (l.getLast?.map fun x => x.after).getD s
      if ks.all fun k => trial.wentBy h k (t.strand k).pc then
        match ks.findSome? fun k => (t.eventFor k).map fun e => (k, e) with
        | some (k, e) => s.deliver h k e
        -- the lowest strand's wait is served first (R154)
        | none => ks.foldr (fun k s => s.afterWord h k t) trial
      else (ks.foldl (State.settleMember trial h) (l.foldl (fun s x => s.consumePops h x t) s)).settleHalt h

/-! ## Clusters and engines -/

/-- The cluster of strand k of a core keeps its team or passes, and its strand presents its word, unless one has issued there with
its group in this cycle (R356). -/
def State.runCluster (s : State) (core k : Nat) : State :=
  if (vget (s.core core).clusters k {}).used then s else
  let s := s.passAfter core k
  match (vget (s.core core).clusters k {}).handle with
  | some h => if s.clusterKeeps core k then { s with agenda := .issue h k :: s.agenda } else s
  | none => s

/-- The engine of queue q performs its command in progress. -/
def State.performEngine (s : State) (h q : Nat) : Out :=
  match (s.team? h).bind fun t => (t.queue q).prog with
  | none => .next s
  | some p =>
    match decodeCmd p.cmd with
    | some i => exec i { s with cur := .engine h q }
    | none => .next s

/-- An event from outside; a word or a command is none. -/
def isEvent (i : Instr) : Bool :=
  match i with
  | .illegalInstruction _ _ => false
  | i => (encode i).isEmpty

/-- One occurrence. -/
def State.perform (s : State) (o : Occ) : Out :=
  match o with
  | .issue h k => s.issue h k
  | .group h ks => .next (s.issueGroup h ks)
  | .cluster c k => .next (s.runCluster c k)
  | .engine h q => mirrored s (s.performEngine h q)
  | .ev e => mirrored s (runEv e s)
  | .event i => if isEvent i then mirrored s (exec i { s with cur := .none }) else .next s

end Sys2Proof.Machine
end

