-- ==== Sys2Proof/Machine/Loading.lean ====
section
/-! DEFINITION. A program loaded from outside: the smallest context and team that lets the next step fetch a given word (log
entry 3). -/

namespace Sys2Proof.Machine

open Sys2Proof

/-- The virtual and physical address of the loaded word. -/
def loadedAt : Nat := 0x4000

/-- Page tables at 0x1000 to 0x3FFF that map the first GiB onto itself, readable, writable and executable (R387, R388). -/
def loadTables (m : Mem) : Mem :=
  Mem.write (Mem.write (Mem.write m 0x1000 0x2001 8) 0x2000 0x3001 8) 0x3000 0xF 8

/-- Context 0 over those tables. -/
def loadedContext : Context := { ptroot := 0x1000 }

/-- Team 0 of core 0 with strand 0 at the word, its allocation and views at their largest. -/
def loadedTeam : Team where
  handle := 0
  place := .slot 0
  regsz := 16
  vs := 0x400000
  vv := 0x380000
  va := 0x100000
  vm := 0x100000
  accStopped := true
  strands := { s0 := { pc := 0x4000, live := true } }

/-- Where the next step fetches in memory, when it fetches. -/
def State.fetchPlace (s : State) : Option Nat :=
  match s.agenda with
  | .issue h k :: _ =>
    match s.team? h with
    | some t =>
      if !t.presents k || (t.strand k).fetched.isSome then none
      else
        match (s.resolve t.ctx (dieOf t.core) [] (canon (t.strand k).pc.toNat) 8 .fetch { src := 0 }).1 with
        | .ok (.frame pa) _ => some pa
        | _ => none
    | none => none
  | _ => none

/-- Stores the bytes of a word where the next step fetches; a machine whose next step fetches nothing gets context 0 and
team 0 with their page tables first. -/
def State.placeWord (s : State) (nbits w : Nat) : State :=
  let v := w % 2 ^ min nbits 64
  match s.fetchPlace with
  | some pa => { s with hbm := Mem.write s.hbm pa v 8 }
  | none =>
    { s with
      hbm := Mem.write (loadTables s.hbm) loadedAt v 8,
      contexts := tput s.contexts 0 loadedContext,
      teams := tput s.teams 0 loadedTeam,
      cores := tput s.cores 0 { s.core 0 with path := [], powerGated := false },
      errors := [],
      agenda := .issue 0 0 :: s.agenda }

end Sys2Proof.Machine
end

