-- ==== Sys2Proof/Machine/Step.lean ====
section
/-! DEFINITION. The step: the next occurrence of the cycle, or, when none is left, the next cycle (log entry 2). -/

namespace Sys2Proof.Machine

open Sys2Proof

def step (s : State) : Host.Outcome State Fault Refusal :=
  match s.agenda with
  | o :: rest => { s with agenda := rest }.perform o
  | [] => .next s.tick

/-- The state with an instruction's word where the next step fetches (log entry 3). -/
def State.withFetchWord (s : State) (nbits w : Nat) : State := s.placeWord nbits w

end Sys2Proof.Machine
end

