-- ==== Sys2Proof/Laws/Fields.lean ====
section
/-! SUPPORT. The fields of a word are the fields it was packed from, for each format class (R69, R84, R90). -/

namespace Sys2Proof

theorem toNat_app {m n : Nat} (x : BitVec m) (y : BitVec n) : (x ++ y).toNat = x.toNat * 2 ^ n + y.toNat := by
  rw [BitVec.toNat_append, Nat.shiftLeft_eq, ← Nat.shiftLeft_eq, ← Nat.shiftLeft_add_eq_or_of_lt y.isLt]

/-- A field of a word as a number. -/
theorem toNat_field {w : Nat} (x : BitVec w) (i n : Nat) : (x.extractLsb' i n).toNat = x.toNat / 2 ^ i % 2 ^ n := by
  rw [BitVec.extractLsb'_toNat, Nat.shiftRight_eq_div_pow]

theorem getLsbD_eq_iff {w : Nat} (x : BitVec w) (i : Nat) (b : Bool) : x.getLsbD i = b ↔ x.toNat / 2 ^ i % 2 = b.toNat := by
  rw [BitVec.getLsbD, Nat.testBit_eq_decide_div_mod_eq]
  cases b <;> simp

theorem Mods.toNat_bits (m : Mods) :
    m.bits.toNat = ((m.ver.toNat * 2 + m.sync.toNat) * 16 + m.stall.toNat) * 2 + m.old.toNat :=
  (toNat_app _ _).trans (by simp only [toNat_app, BitVec.toNat_ofBool, Bool.toNat_false]; ring)

theorem RegW.toNat_toWord (r : RegW) : r.toWord.toNat =
    r.mods.bits.toNat * 2 ^ 56 + r.op.toNat * 2 ^ 48 + r.d.toNat * 2 ^ 40 + r.a.toNat * 2 ^ 32 + r.b.toNat * 2 ^ 24
      + r.c.toNat * 2 ^ 16 + r.pred.toNat * 2 ^ 13 + r.pn.toNat * 2 ^ 12 + r.ty.toNat * 2 ^ 8 + r.fdn.toNat * 2 ^ 4
      + r.fn.toNat :=
  (toNat_app _ _).trans (by simp only [toNat_app, BitVec.toNat_ofBool]; ring)

theorem RegW.ofWord_toWord (r : RegW) : RegW.ofWord r.toWord = r := by
  have h := r.toNat_toWord
  rw [Mods.toNat_bits] at h
  obtain ⟨⟨ver, sync, stall, old⟩, op, d, a, b, c, pred, pn, ty, fdn, fn⟩ := r
  generalize RegW.toWord _ = w at h
  simp only [RegW.ofWord, Mods.ofWord, opOfWord, RegW.mk.injEq, Mods.mk.injEq, ← BitVec.toNat_inj, toNat_field,
    getLsbD_eq_iff]
  have h0 := ver.toNat_lt; have h1 := sync.toNat_lt; have h2 := old.toNat_lt; have h3 := pn.toNat_lt
  simp only at h
  omega

theorem ImmW.toNat_toWord (r : ImmW) : r.toWord.toNat =
    r.mods.bits.toNat * 2 ^ 56 + r.op.toNat * 2 ^ 48 + r.d.toNat * 2 ^ 40 + r.a.toNat * 2 ^ 32 + r.imm.toNat :=
  (toNat_app _ _).trans (by simp only [toNat_app]; ring)

theorem ImmW.ofWord_toWord (r : ImmW) : ImmW.ofWord r.toWord = r := by
  have h := r.toNat_toWord
  rw [Mods.toNat_bits] at h
  obtain ⟨⟨ver, sync, stall, old⟩, op, d, a, imm⟩ := r
  generalize ImmW.toWord _ = w at h
  simp only [ImmW.ofWord, Mods.ofWord, opOfWord, ImmW.mk.injEq, Mods.mk.injEq, ← BitVec.toNat_inj, toNat_field,
    getLsbD_eq_iff]
  have h0 := ver.toNat_lt; have h1 := sync.toNat_lt; have h2 := old.toNat_lt
  simp only at h
  omega

theorem MemW.toNat_toWord (r : MemW) : r.toWord.toNat =
    r.mods.bits.toNat * 2 ^ 56 + r.op.toNat * 2 ^ 48 + r.d.toNat * 2 ^ 40 + r.base.toNat * 2 ^ 32 + r.space.toNat * 2 ^ 29 + r.scope.toNat * 2 ^ 24
      + r.off.toNat * 2 ^ 8 + r.pred.toNat * 2 ^ 5 + r.pn.toNat * 2 ^ 4 + r.fn.toNat :=
  (toNat_app _ _).trans (by simp only [toNat_app, BitVec.toNat_ofBool]; ring)

theorem MemW.ofWord_toWord (r : MemW) : MemW.ofWord r.toWord = r := by
  have h := r.toNat_toWord
  rw [Mods.toNat_bits] at h
  obtain ⟨⟨ver, sync, stall, old⟩, op, d, base, space, scope, off, pred, pn, fn⟩ := r
  generalize MemW.toWord _ = w at h
  simp only [MemW.ofWord, Mods.ofWord, opOfWord, MemW.mk.injEq, Mods.mk.injEq, ← BitVec.toNat_inj, toNat_field,
    getLsbD_eq_iff]
  have h0 := ver.toNat_lt; have h1 := sync.toNat_lt; have h2 := old.toNat_lt; have h3 := pn.toNat_lt
  simp only at h
  omega

theorem BrW.toNat_toWord (r : BrW) : r.toWord.toNat =
    r.mods.bits.toNat * 2 ^ 56 + r.op.toNat * 2 ^ 48 + r.link.toNat * 2 ^ 40 + r.a.toNat * 2 ^ 32 + r.cc.toNat * 2 ^ 28 + r.fn.toNat * 2 ^ 24
      + r.disp.toNat :=
  (toNat_app _ _).trans (by simp only [toNat_app]; ring)

theorem BrW.ofWord_toWord (r : BrW) : BrW.ofWord r.toWord = r := by
  have h := r.toNat_toWord
  rw [Mods.toNat_bits] at h
  obtain ⟨⟨ver, sync, stall, old⟩, op, link, a, cc, fn, disp⟩ := r
  generalize BrW.toWord _ = w at h
  simp only [BrW.ofWord, Mods.ofWord, opOfWord, BrW.mk.injEq, Mods.mk.injEq, ← BitVec.toNat_inj, toNat_field,
    getLsbD_eq_iff]
  have h0 := ver.toNat_lt; have h1 := sync.toNat_lt; have h2 := old.toNat_lt
  simp only at h
  omega

theorem WtW.toNat_toWord (r : WtW) : r.toWord.toNat =
    r.mods.bits.toNat * 2 ^ 56 + r.op.toNat * 2 ^ 48 + r.a.toNat * 2 ^ 40 + r.fn.toNat * 2 ^ 36 + r.arg.toNat :=
  (toNat_app _ _).trans (by simp only [toNat_app]; ring)

theorem WtW.ofWord_toWord (r : WtW) : WtW.ofWord r.toWord = r := by
  have h := r.toNat_toWord
  rw [Mods.toNat_bits] at h
  obtain ⟨⟨ver, sync, stall, old⟩, op, a, fn, arg⟩ := r
  generalize WtW.toWord _ = w at h
  simp only [WtW.ofWord, Mods.ofWord, opOfWord, WtW.mk.injEq, Mods.mk.injEq, ← BitVec.toNat_inj, toNat_field,
    getLsbD_eq_iff]
  have h0 := ver.toNat_lt; have h1 := sync.toNat_lt; have h2 := old.toNat_lt
  simp only at h
  omega

theorem EngW.toNat_toWord (r : EngW) : r.toWord.toNat =
    r.mods.bits.toNat * 2 ^ 56 + r.op.toNat * 2 ^ 48 + r.a.toNat * 2 ^ 40 + r.q.toNat * 2 ^ 38 + r.rsv.toNat * 2 ^ 4 + r.fn.toNat :=
  (toNat_app _ _).trans (by simp only [toNat_app]; ring)

theorem EngW.ofWord_toWord (r : EngW) : EngW.ofWord r.toWord = r := by
  have h := r.toNat_toWord
  rw [Mods.toNat_bits] at h
  obtain ⟨⟨ver, sync, stall, old⟩, op, a, q, rsv, fn⟩ := r
  generalize EngW.toWord _ = w at h
  simp only [EngW.ofWord, Mods.ofWord, opOfWord, EngW.mk.injEq, Mods.mk.injEq, ← BitVec.toNat_inj, toNat_field,
    getLsbD_eq_iff]
  have h0 := ver.toNat_lt; have h1 := sync.toNat_lt; have h2 := old.toNat_lt
  simp only at h
  omega

theorem SysW.toNat_toWord (r : SysW) : r.toWord.toNat =
    r.mods.bits.toNat * 2 ^ 56 + r.op.toNat * 2 ^ 48 + r.d.toNat * 2 ^ 40 + r.a.toNat * 2 ^ 32 + r.cr.toNat * 2 ^ 24 + r.imm.toNat * 2 ^ 4
      + r.fn.toNat :=
  (toNat_app _ _).trans (by simp only [toNat_app]; ring)

theorem SysW.ofWord_toWord (r : SysW) : SysW.ofWord r.toWord = r := by
  have h := r.toNat_toWord
  rw [Mods.toNat_bits] at h
  obtain ⟨⟨ver, sync, stall, old⟩, op, d, a, cr, imm, fn⟩ := r
  generalize SysW.toWord _ = w at h
  simp only [SysW.ofWord, Mods.ofWord, opOfWord, SysW.mk.injEq, Mods.mk.injEq, ← BitVec.toNat_inj, toNat_field,
    getLsbD_eq_iff]
  have h0 := ver.toNat_lt; have h1 := sync.toNat_lt; have h2 := old.toNat_lt
  simp only at h
  omega

/-- The words of a command, those beyond LEN read as 0. -/
def Cmd.ofList (l : List Word) : Cmd := Cmd.ofWords (l.getD 0 0) (l.getD 1 0) (l.getD 2 0) (l.getD 3 0)

/-- The first word of a command (R90). -/
def Cmd.word0 (c : Cmd) : Word := c.wait ++ (c.signal ++ (c.cmd ++ (c.len ++ c.body)))

theorem Cmd.toNat_word0 (c : Cmd) : c.word0.toNat =
    c.wait.toNat * 2 ^ 56 + c.signal.toNat * 2 ^ 48 + c.cmd.toNat * 2 ^ 40 + c.len.toNat * 2 ^ 38 + c.body.toNat :=
  (toNat_app _ _).trans (by simp only [toNat_app]; ring)

theorem Cmd.ofWords_word0 (c : Cmd) (w1 w2 w3 : Word) : Cmd.ofWords c.word0 w1 w2 w3 =
    { c with w1 := if c.len.toNat ≥ 1 then w1 else 0, w2 := if c.len.toNat ≥ 2 then w2 else 0,
             w3 := if c.len.toNat ≥ 3 then w3 else 0 } := by
  have h := c.toNat_word0
  generalize c.word0 = w at h ⊢
  have h0 : w.extractLsb' 56 8 = c.wait := by rw [← BitVec.toNat_inj, toNat_field]; omega
  have h1 : w.extractLsb' 48 8 = c.signal := by rw [← BitVec.toNat_inj, toNat_field]; omega
  have h2 : w.extractLsb' 40 8 = c.cmd := by rw [← BitVec.toNat_inj, toNat_field]; omega
  have h3 : w.extractLsb' 38 2 = c.len := by rw [← BitVec.toNat_inj, toNat_field]; omega
  have h4 : w.extractLsb' 0 38 = c.body := by rw [← BitVec.toNat_inj, toNat_field]; omega
  simp only [Cmd.ofWords, h0, h1, h2, h3, h4]

theorem len_cases (l : BitVec 2) : l = 0#2 ∨ l = 1#2 ∨ l = 2#2 ∨ l = 3#2 := by
  revert l; decide

theorem Cmd.ofList_words (c : Cmd) (h : c.tidy = true) : Cmd.ofList c.words = c := by
  have hw : c.words = [c.word0, c.w1, c.w2, c.w3].take (c.len.toNat + 1) := rfl
  simp only [Cmd.tidy, Bool.and_eq_true, Bool.or_eq_true, decide_eq_true_eq] at h
  obtain ⟨⟨h1, h2⟩, h3⟩ := h
  have key : Cmd.ofList c.words = Cmd.ofWords c.word0 c.w1 c.w2 c.w3 := by
    rw [hw]
    rcases len_cases c.len with n | n | n | n <;> rw [n] at h1 h2 h3 ⊢ <;>
      simp [Cmd.ofList] at h1 h2 h3 ⊢ <;> simp [*]
  rw [key, Cmd.ofWords_word0]
  rcases len_cases c.len with n | n | n | n <;> rw [n] at h1 h2 h3 ⊢ <;> simp at h1 h2 h3 ⊢ <;> (cases c; simp_all)

end Sys2Proof
end

