-- ==== Sys2Proof/Laws/Roundtrip.lean ====
section
/-! SUPPORT. What decoding the encoding of a well-formed instruction comes to, once for each format class. -/

namespace Sys2Proof

theorem Mods.bits_lt (m : Mods) : m.bits.toNat < 128 := by
  rw [Mods.toNat_bits]
  have h0 := m.ver.toNat_lt; have h1 := m.sync.toNat_lt; have h2 := m.old.toNat_lt
  omega

/-- A word whose opcode and modifiers are those of a well-formed term, and which selects it, decodes to it. -/
theorem decodeWord_of {acc : Bool} {w : Word} {i : Instr} {m : Mods} {op : BitVec 8} (h63 : w.toNat < 2 ^ 63)
    (hm : Mods.ofWord w = m) (ho : opOfWord w = op) (hmo : i.modsOp = some (m, op)) (hwf : i.wf acc = true)
    (hc : (classOf op.toNat).isSome = true) (hsel : selectWord w = some i) : decodeWord acc w = .ok i := by
  have hbit : w.getLsbD 63 = false := by rw [getLsbD_eq_iff]; simp; omega
  simp only [Instr.wf, hmo, Bool.and_eq_true, Bool.not_eq_true', Option.isNone_iff_eq_none] at hwf
  obtain ⟨hs, hr⟩ := hwf
  have hc' : (classOf op.toNat).isNone = false := by
    cases h : classOf op.toNat <;> simp_all
  simp only [decodeWord, hbit, hm, ho, hs, hsel, hr, hc', Bool.false_eq_true, if_false]

theorem firstReason_none {b : Bool} {n : Nat} {l : List (Bool × Nat)} (h : firstReason ((b, n) :: l) = none) :
    b = false ∧ firstReason l = none := by
  cases b <;> simp_all [firstReason]

theorem reg_roundtrip {i : Instr} {r : RegW} {f : RegForm} (hi : i.regForm = some (r, f))
    (ht : ∀ op ∈ f.ops, classOf op = some .reg ∧ op ≠ 0 ∧ ∀ fn ∈ f.fns, (regOf op fn).map (fun k => k r) = some i)
    (acc : Bool) (hwf : i.wf acc = true) : decodeWord acc r.toWord = .ok i := by
  have hr := r.ofWord_toWord
  have hmo : i.modsOp = some (r.mods, r.op) := by simp [Instr.modsOp, hi]
  have hwf' := hwf
  simp only [Instr.wf, hmo, Instr.reason, hi, Bool.and_eq_true, Option.isNone_iff_eq_none, RegW.reason] at hwf'
  have h5 := (firstReason_none hwf'.2).1
  simp only [Bool.or_eq_false_iff, Bool.not_eq_false', Bool.and_eq_true, List.contains_iff_mem] at h5
  obtain ⟨hc, h0, hsel⟩ := ht _ h5.1.1
  have hop : opOfWord r.toWord = r.op := congrArg RegW.op hr
  have hfn : r.toWord.extractLsb' 0 4 = r.fn := congrArg RegW.fn hr
  refine decodeWord_of ?_ (congrArg RegW.mods hr) hop hmo hwf (by simp [hc]) ?_
  · rw [RegW.toNat_toWord]
    have := r.mods.bits_lt; have := r.pn.toNat_lt
    omega
  · simp only [selectWord, hop, hc, hfn, hr, if_neg h0]
    exact hsel _ h5.1.2

theorem mem_roundtrip {i : Instr} {r : MemW} {f : MemForm} (hi : i.memForm = some (r, f)) (hn : i.regForm = none)
    (ht : ∀ p ∈ f.opfns, classOf p.1 = some .mem ∧ (memOf p.1 p.2).map (fun k => k r) = some i)
    (acc : Bool) (hwf : i.wf acc = true) : decodeWord acc r.toWord = .ok i := by
  have hr := r.ofWord_toWord
  have hmo : i.modsOp = some (r.mods, r.op) := by simp [Instr.modsOp, hn, hi]
  have hwf' := hwf
  simp only [Instr.wf, hmo, Instr.reason, hn, hi, Bool.and_eq_true, Option.isNone_iff_eq_none, MemW.reason] at hwf'
  have h5 := (firstReason_none hwf'.2).1
  simp only [Bool.or_eq_false_iff, Bool.not_eq_false', List.contains_iff_mem] at h5
  obtain ⟨hc, hsel⟩ := ht _ h5.1
  have hop : opOfWord r.toWord = r.op := congrArg MemW.op hr
  have hfn : r.toWord.extractLsb' 0 4 = r.fn := congrArg MemW.fn hr
  refine decodeWord_of ?_ (congrArg MemW.mods hr) hop hmo hwf (by simp [hc]) ?_
  · rw [MemW.toNat_toWord]
    have := r.mods.bits_lt; have := r.pn.toNat_lt
    omega
  · simp only at hc hsel
    simp only [selectWord, hop, hc, hfn, hr]
    exact hsel

theorem br_roundtrip {i : Instr} {r : BrW} {f : BrForm} (hi : i.brForm = some (r, f)) (hn : i.regForm = none)
    (hn' : i.memForm = none)
    (ht : classOf f.op = some .br ∧ (brOf f.op f.fn f.cc).map (fun k => k r) = some i)
    (acc : Bool) (hwf : i.wf acc = true) : decodeWord acc r.toWord = .ok i := by
  have hr := r.ofWord_toWord
  have hmo : i.modsOp = some (r.mods, r.op) := by simp [Instr.modsOp, hn, hn', hi]
  have hwf' := hwf
  simp only [Instr.wf, hmo, Instr.reason, hn, hn', hi, Bool.and_eq_true, Option.isNone_iff_eq_none, BrW.reason] at hwf'
  have h5 := firstReason_none hwf'.2
  have h7 := (firstReason_none h5.2).1
  have h5 := h5.1
  simp only [Bool.or_eq_false_iff, decide_eq_false_iff_not, ne_eq, not_not] at h5 h7
  have hop : opOfWord r.toWord = r.op := congrArg BrW.op hr
  have hfn : r.toWord.extractLsb' 24 4 = r.fn := congrArg BrW.fn hr
  have hcc : r.toWord.extractLsb' 28 4 = r.cc := congrArg BrW.cc hr
  refine decodeWord_of ?_ (congrArg BrW.mods hr) hop hmo hwf (by simp [h5.1.1, ht.1]) ?_
  · rw [BrW.toNat_toWord]
    have := r.mods.bits_lt
    omega
  · simp only [selectWord, hop, hfn, hcc, h5.1.1, h5.1.2, h7.1.2, ht.1, hr]
    exact ht.2

theorem imm_roundtrip {i : Instr} {r : ImmW} {op : Nat} {a b c : Bool} (hmo : i.modsOp = some (r.mods, r.op))
    (hre : ∀ acc, i.reason acc = r.reason op a b c)
    (ht : classOf op = some .imm ∧ (immOf op).map (fun k => k r) = some i)
    (acc : Bool) (hwf : i.wf acc = true) : decodeWord acc r.toWord = .ok i := by
  have hr := r.ofWord_toWord
  have hwf' := hwf
  simp only [Instr.wf, hmo, hre, Bool.and_eq_true, Option.isNone_iff_eq_none, ImmW.reason] at hwf'
  have h5 := (firstReason_none hwf'.2).1
  simp only [decide_eq_false_iff_not, ne_eq, not_not] at h5
  have hop : opOfWord r.toWord = r.op := congrArg ImmW.op hr
  refine decodeWord_of ?_ (congrArg ImmW.mods hr) hop hmo hwf (by simp [h5, ht.1]) ?_
  · rw [ImmW.toNat_toWord]
    have := r.mods.bits_lt
    omega
  · simp only [selectWord, hop, h5, ht.1, hr]
    exact ht.2

theorem wt_roundtrip {i : Instr} {r : WtW} {op fn lo hi : Nat} {a : Bool} (hmo : i.modsOp = some (r.mods, r.op))
    (hre : ∀ acc, i.reason acc = r.reason op fn lo hi a)
    (ht : classOf op = some .wt ∧ (wtOf op fn).map (fun k => k r) = some i)
    (acc : Bool) (hwf : i.wf acc = true) : decodeWord acc r.toWord = .ok i := by
  have hr := r.ofWord_toWord
  have hwf' := hwf
  simp only [Instr.wf, hmo, hre, Bool.and_eq_true, Option.isNone_iff_eq_none, WtW.reason] at hwf'
  have h5 := (firstReason_none hwf'.2).1
  simp only [Bool.or_eq_false_iff, decide_eq_false_iff_not, ne_eq, not_not] at h5
  have hop : opOfWord r.toWord = r.op := congrArg WtW.op hr
  have hfn : r.toWord.extractLsb' 36 4 = r.fn := congrArg WtW.fn hr
  refine decodeWord_of ?_ (congrArg WtW.mods hr) hop hmo hwf (by simp [h5.1.1, ht.1]) ?_
  · rw [WtW.toNat_toWord]
    have := r.mods.bits_lt
    omega
  · simp only [selectWord, hop, hfn, h5.1.1, h5.1.2, ht.1, hr]
    exact ht.2

theorem eng_roundtrip {i : Instr} {r : EngW} {fn : Nat} {a : Bool} (hmo : i.modsOp = some (r.mods, r.op))
    (hre : ∀ acc, i.reason acc = r.reason fn a)
    (ht : (engOf 0xF0 fn).map (fun k => k r) = some i)
    (acc : Bool) (hwf : i.wf acc = true) : decodeWord acc r.toWord = .ok i := by
  have hr := r.ofWord_toWord
  have hwf' := hwf
  simp only [Instr.wf, hmo, hre, Bool.and_eq_true, Option.isNone_iff_eq_none, EngW.reason] at hwf'
  have h5 := (firstReason_none hwf'.2).1
  simp only [Bool.or_eq_false_iff, decide_eq_false_iff_not, ne_eq, not_not] at h5
  have hop : opOfWord r.toWord = r.op := congrArg EngW.op hr
  have hfn : r.toWord.extractLsb' 0 4 = r.fn := congrArg EngW.fn hr
  have ho : r.op.toNat = 0xF0 := by rw [h5.1.1]; rfl
  have hc : classOf 0xF0 = some .eng := rfl
  refine decodeWord_of ?_ (congrArg EngW.mods hr) hop hmo hwf (by simp [ho, hc]) ?_
  · rw [EngW.toNat_toWord]
    have := r.mods.bits_lt
    omega
  · simp only [selectWord, hop, hfn, ho, h5.1.2, hc, hr]
    exact ht

theorem sys_roundtrip {i : Instr} {r : SysW} {op fn n : Nat} {a b c d : Bool} (hmo : i.modsOp = some (r.mods, r.op))
    (hre : ∀ acc, i.reason acc = r.reason op fn a b c d n)
    (ht : classOf op = some .sys ∧ (sysOf op fn).map (fun k => k r) = some i)
    (acc : Bool) (hwf : i.wf acc = true) : decodeWord acc r.toWord = .ok i := by
  have hr := r.ofWord_toWord
  have hwf' := hwf
  simp only [Instr.wf, hmo, hre, Bool.and_eq_true, Option.isNone_iff_eq_none, SysW.reason] at hwf'
  have h5 := (firstReason_none hwf'.2).1
  simp only [Bool.or_eq_false_iff, decide_eq_false_iff_not, ne_eq, not_not] at h5
  have hop : opOfWord r.toWord = r.op := congrArg SysW.op hr
  have hfn : r.toWord.extractLsb' 0 4 = r.fn := congrArg SysW.fn hr
  refine decodeWord_of ?_ (congrArg SysW.mods hr) hop hmo hwf (by simp [h5.1, ht.1]) ?_
  · rw [SysW.toNat_toWord]
    have := r.mods.bits_lt
    omega
  · simp only [selectWord, hop, hfn, h5.1, h5.2, ht.1, hr]
    exact ht.2

theorem nop_roundtrip (r : RegW) (acc : Bool) (hwf : (Instr.nop r).wf acc = true) : decodeWord acc r.toWord = .ok (.nop r) := by
  have hr := r.ofWord_toWord
  have hi : (Instr.nop r).regForm = some (r, ⟨[0x00], [0x00], [0], .zero, .zero, .zero, .zero⟩) := rfl
  have hmo : (Instr.nop r).modsOp = some (r.mods, r.op) := rfl
  have hwf' := hwf
  simp only [Instr.wf, hmo, Instr.reason, hi, Bool.and_eq_true, Option.isNone_iff_eq_none, RegW.reason] at hwf'
  have h5 := (firstReason_none hwf'.2).1
  simp only [Bool.or_eq_false_iff, Bool.not_eq_false', Bool.and_eq_true, List.contains_iff_mem, List.mem_singleton] at h5
  have hop : opOfWord r.toWord = r.op := congrArg RegW.op hr
  have hc : classOf 0 = some .reg := rfl
  refine decodeWord_of ?_ (congrArg RegW.mods hr) hop hmo hwf (by simp [h5.1.1, hc]) ?_
  · rw [RegW.toNat_toWord]
    have := r.mods.bits_lt; have := r.pn.toNat_lt
    omega
  · simp [selectWord, hop, h5.1.1, hc, hr]

theorem cmd_roundtrip {i : Instr} {c : Cmd} {code : Nat} {lens : List Nat} (hi : i.cmdForm = some (c, code, lens))
    (hn : i.modsOp = none) (hw : encodeWord? i = none) (ht : (cmdOf code).map (fun k => k c) = some i)
    (acc : Bool) (hwf : i.wf acc = true) : decodeCmd (Cmd.ofList (encode i)) = some i := by
  simp only [Instr.wf, hn, hi, Bool.and_eq_true, decide_eq_true_eq] at hwf
  have he : encode i = c.words := by simp [encode, hw, hi]
  rw [he, Cmd.ofList_words c hwf.2, decodeCmd, hwf.1.1]
  exact ht

end Sys2Proof
end

