-- ==== Sys2Proof/Laws/PerInstr.lean ====
section
/-! SUPPORT. Per instruction: decoding its encoding gives it back (LAWS.json). -/

namespace Sys2Proof.Laws.Roundtrip

open Sys2Proof

/-- For every well-formed term: its word decodes to it in its stream; a command's words are read back as it; an event has no
encoding. -/
def Statement (i : Instr) : Prop :=
  ∀ acc, i.WellFormed acc →
    (∀ w, encodeWord? i = some w → decodeWord acc w = .ok i) ∧
    (∀ c code lens, i.cmdForm = some (c, code, lens) → decodeCmd (Cmd.ofList (encode i)) = some i) ∧
    (encodeWord? i = none → i.cmdForm = none → encode i = [])

theorem of_word {i : Instr} {w : Word} (he : encodeWord? i = some w) (hc : i.cmdForm = none)
    (h : ∀ acc, i.wf acc = true → decodeWord acc w = .ok i) : Statement i := by
  intro acc hwf
  refine ⟨fun v hv => ?_, fun c code lens hx => ?_, fun hx => ?_⟩
  · rw [he] at hv; cases hv; exact h acc hwf
  · rw [hc] at hx; cases hx
  · rw [he] at hx; cases hx

theorem of_cmd {i : Instr} {c : Cmd} {code : Nat} {lens : List Nat} (he : encodeWord? i = none)
    (hi : i.cmdForm = some (c, code, lens)) (hn : i.modsOp = none) (ht : (cmdOf code).map (fun k => k c) = some i) :
    Statement i := by
  intro acc hwf
  refine ⟨fun v hv => ?_, fun _ _ _ _ => cmd_roundtrip hi hn he ht acc hwf, fun _ hx => ?_⟩
  · rw [he] at hv; cases hv
  · rw [hi] at hx; cases hx

theorem of_event {i : Instr} (he : encodeWord? i = none) (hc : i.cmdForm = none) : Statement i := by
  intro acc _
  refine ⟨fun v hv => ?_, fun c code lens hx => ?_, fun _ _ => ?_⟩
  · rw [he] at hv; cases hv
  · rw [hc] at hx; cases hx
  · simp [encode, he, hc]

theorem nop (r : RegW) : Statement (.nop r) :=
  of_word rfl rfl (nop_roundtrip r)

theorem add (r : RegW) : Statement (.add r) :=
  of_word rfl rfl (reg_roundtrip rfl (by simp only [List.forall_mem_singleton]; exact ⟨rfl, by decide, rfl⟩))

theorem sub (r : RegW) : Statement (.sub r) :=
  of_word rfl rfl (reg_roundtrip rfl (by simp only [List.forall_mem_singleton]; exact ⟨rfl, by decide, rfl⟩))

theorem adds (r : RegW) : Statement (.adds r) :=
  of_word rfl rfl (reg_roundtrip rfl (by simp only [List.forall_mem_singleton]; exact ⟨rfl, by decide, rfl⟩))

theorem subs (r : RegW) : Statement (.subs r) :=
  of_word rfl rfl (reg_roundtrip rfl (by simp only [List.forall_mem_singleton]; exact ⟨rfl, by decide, rfl⟩))

theorem min (r : RegW) : Statement (.min r) :=
  of_word rfl rfl (reg_roundtrip rfl (by simp only [List.forall_mem_singleton]; exact ⟨rfl, by decide, rfl⟩))

theorem max (r : RegW) : Statement (.max r) :=
  of_word rfl rfl (reg_roundtrip rfl (by simp only [List.forall_mem_singleton]; exact ⟨rfl, by decide, rfl⟩))

theorem abs (r : RegW) : Statement (.abs r) :=
  of_word rfl rfl (reg_roundtrip rfl (by simp only [List.forall_mem_singleton]; exact ⟨rfl, by decide, rfl⟩))

theorem neg (r : RegW) : Statement (.neg r) :=
  of_word rfl rfl (reg_roundtrip rfl (by simp only [List.forall_mem_singleton]; exact ⟨rfl, by decide, rfl⟩))

theorem mul (r : RegW) : Statement (.mul r) :=
  of_word rfl rfl (reg_roundtrip rfl (by simp only [List.forall_mem_singleton]; exact ⟨rfl, by decide, rfl⟩))

theorem mulh (r : RegW) : Statement (.mulh r) :=
  of_word rfl rfl (reg_roundtrip rfl (by simp only [List.forall_mem_singleton]; exact ⟨rfl, by decide, rfl⟩))

theorem div (r : RegW) : Statement (.div r) :=
  of_word rfl rfl (reg_roundtrip rfl (by simp only [List.forall_mem_singleton]; exact ⟨rfl, by decide, rfl⟩))

theorem rem (r : RegW) : Statement (.rem r) :=
  of_word rfl rfl (reg_roundtrip rfl (by simp only [List.forall_mem_singleton]; exact ⟨rfl, by decide, rfl⟩))

theorem mad (r : RegW) : Statement (.mad r) :=
  of_word rfl rfl (reg_roundtrip rfl (by simp only [List.forall_mem_singleton]; exact ⟨rfl, by decide, rfl⟩))

theorem and (r : RegW) : Statement (.and r) :=
  of_word rfl rfl (reg_roundtrip rfl (by simp only [List.forall_mem_singleton]; exact ⟨rfl, by decide, rfl⟩))

theorem or (r : RegW) : Statement (.or r) :=
  of_word rfl rfl (reg_roundtrip rfl (by simp only [List.forall_mem_singleton]; exact ⟨rfl, by decide, rfl⟩))

theorem xor (r : RegW) : Statement (.xor r) :=
  of_word rfl rfl (reg_roundtrip rfl (by simp only [List.forall_mem_singleton]; exact ⟨rfl, by decide, rfl⟩))

theorem andn (r : RegW) : Statement (.andn r) :=
  of_word rfl rfl (reg_roundtrip rfl (by simp only [List.forall_mem_singleton]; exact ⟨rfl, by decide, rfl⟩))

theorem not (r : RegW) : Statement (.not r) :=
  of_word rfl rfl (reg_roundtrip rfl (by simp only [List.forall_mem_singleton]; exact ⟨rfl, by decide, rfl⟩))

theorem shl (r : RegW) : Statement (.shl r) :=
  of_word rfl rfl (reg_roundtrip rfl (by simp only [List.forall_mem_singleton]; exact ⟨rfl, by decide, rfl⟩))

theorem shr (r : RegW) : Statement (.shr r) :=
  of_word rfl rfl (reg_roundtrip rfl (by simp only [List.forall_mem_singleton]; exact ⟨rfl, by decide, rfl⟩))

theorem rotl (r : RegW) : Statement (.rotl r) :=
  of_word rfl rfl (reg_roundtrip rfl (by simp only [List.forall_mem_singleton]; exact ⟨rfl, by decide, rfl⟩))

theorem rotr (r : RegW) : Statement (.rotr r) :=
  of_word rfl rfl (reg_roundtrip rfl (by simp only [List.forall_mem_singleton]; exact ⟨rfl, by decide, rfl⟩))

theorem clz (r : RegW) : Statement (.clz r) :=
  of_word rfl rfl (reg_roundtrip rfl (by simp only [List.forall_mem_singleton]; exact ⟨rfl, by decide, rfl⟩))

theorem ctz (r : RegW) : Statement (.ctz r) :=
  of_word rfl rfl (reg_roundtrip rfl (by simp only [List.forall_mem_singleton]; exact ⟨rfl, by decide, rfl⟩))

theorem popc (r : RegW) : Statement (.popc r) :=
  of_word rfl rfl (reg_roundtrip rfl (by simp only [List.forall_mem_singleton]; exact ⟨rfl, by decide, rfl⟩))

theorem brev (r : RegW) : Statement (.brev r) :=
  of_word rfl rfl (reg_roundtrip rfl (by simp only [List.forall_mem_singleton]; exact ⟨rfl, by decide, rfl⟩))

theorem bswap (r : RegW) : Statement (.bswap r) :=
  of_word rfl rfl (reg_roundtrip rfl (by simp only [List.forall_mem_singleton]; exact ⟨rfl, by decide, rfl⟩))

theorem mov (r : RegW) : Statement (.mov r) :=
  of_word rfl rfl (reg_roundtrip rfl (by simp only [List.forall_mem_singleton]; exact ⟨rfl, by decide, rfl⟩))

theorem sel (r : RegW) : Statement (.sel r) :=
  of_word rfl rfl (reg_roundtrip rfl (by simp only [List.forall_mem_singleton]; exact ⟨rfl, by decide, rfl⟩))

theorem cmpEq (r : RegW) : Statement (.cmpEq r) :=
  of_word rfl rfl (reg_roundtrip rfl (by simp only [List.forall_mem_singleton]; exact ⟨rfl, by decide, rfl⟩))

theorem cmpNe (r : RegW) : Statement (.cmpNe r) :=
  of_word rfl rfl (reg_roundtrip rfl (by simp only [List.forall_mem_singleton]; exact ⟨rfl, by decide, rfl⟩))

theorem cmpLt (r : RegW) : Statement (.cmpLt r) :=
  of_word rfl rfl (reg_roundtrip rfl (by simp only [List.forall_mem_singleton]; exact ⟨rfl, by decide, rfl⟩))

theorem cmpLe (r : RegW) : Statement (.cmpLe r) :=
  of_word rfl rfl (reg_roundtrip rfl (by simp only [List.forall_mem_singleton]; exact ⟨rfl, by decide, rfl⟩))

theorem cmpGt (r : RegW) : Statement (.cmpGt r) :=
  of_word rfl rfl (reg_roundtrip rfl (by simp only [List.forall_mem_singleton]; exact ⟨rfl, by decide, rfl⟩))

theorem cmpGe (r : RegW) : Statement (.cmpGe r) :=
  of_word rfl rfl (reg_roundtrip rfl (by simp only [List.forall_mem_singleton]; exact ⟨rfl, by decide, rfl⟩))

theorem cmpTst (r : RegW) : Statement (.cmpTst r) :=
  of_word rfl rfl (reg_roundtrip rfl (by simp only [List.forall_mem_singleton]; exact ⟨rfl, by decide, rfl⟩))

theorem cmpNtst (r : RegW) : Statement (.cmpNtst r) :=
  of_word rfl rfl (reg_roundtrip rfl (by simp only [List.forall_mem_singleton]; exact ⟨rfl, by decide, rfl⟩))

theorem pand (r : RegW) : Statement (.pand r) :=
  of_word rfl rfl (reg_roundtrip rfl (by simp only [List.forall_mem_singleton]; exact ⟨rfl, by decide, rfl⟩))

theorem por (r : RegW) : Statement (.por r) :=
  of_word rfl rfl (reg_roundtrip rfl (by simp only [List.forall_mem_singleton]; exact ⟨rfl, by decide, rfl⟩))

theorem pxor (r : RegW) : Statement (.pxor r) :=
  of_word rfl rfl (reg_roundtrip rfl (by simp only [List.forall_mem_singleton]; exact ⟨rfl, by decide, rfl⟩))

theorem pandn (r : RegW) : Statement (.pandn r) :=
  of_word rfl rfl (reg_roundtrip rfl (by simp only [List.forall_mem_singleton]; exact ⟨rfl, by decide, rfl⟩))

theorem pnot (r : RegW) : Statement (.pnot r) :=
  of_word rfl rfl (reg_roundtrip rfl (by simp only [List.forall_mem_singleton]; exact ⟨rfl, by decide, rfl⟩))

theorem pmov (r : RegW) : Statement (.pmov r) :=
  of_word rfl rfl (reg_roundtrip rfl (by simp only [List.forall_mem_singleton]; exact ⟨rfl, by decide, rfl⟩))

theorem pgetLo (r : RegW) : Statement (.pgetLo r) :=
  of_word rfl rfl (reg_roundtrip rfl (by simp only [List.forall_mem_singleton]; exact ⟨rfl, by decide, rfl⟩))

theorem pgetHi (r : RegW) : Statement (.pgetHi r) :=
  of_word rfl rfl (reg_roundtrip rfl (by simp only [List.forall_mem_singleton]; exact ⟨rfl, by decide, rfl⟩))

theorem psetLo (r : RegW) : Statement (.psetLo r) :=
  of_word rfl rfl (reg_roundtrip rfl (by simp only [List.forall_mem_singleton]; exact ⟨rfl, by decide, rfl⟩))

theorem psetHi (r : RegW) : Statement (.psetHi r) :=
  of_word rfl rfl (reg_roundtrip rfl (by simp only [List.forall_mem_singleton]; exact ⟨rfl, by decide, rfl⟩))

theorem addi (r : ImmW) : Statement (.addi r) :=
  of_word rfl rfl (imm_roundtrip rfl (fun _ => rfl) ⟨rfl, rfl⟩)

theorem andi (r : ImmW) : Statement (.andi r) :=
  of_word rfl rfl (imm_roundtrip rfl (fun _ => rfl) ⟨rfl, rfl⟩)

theorem ori (r : ImmW) : Statement (.ori r) :=
  of_word rfl rfl (imm_roundtrip rfl (fun _ => rfl) ⟨rfl, rfl⟩)

theorem xori (r : ImmW) : Statement (.xori r) :=
  of_word rfl rfl (imm_roundtrip rfl (fun _ => rfl) ⟨rfl, rfl⟩)

theorem shli (r : ImmW) : Statement (.shli r) :=
  of_word rfl rfl (imm_roundtrip rfl (fun _ => rfl) ⟨rfl, rfl⟩)

theorem shri (r : ImmW) : Statement (.shri r) :=
  of_word rfl rfl (imm_roundtrip rfl (fun _ => rfl) ⟨rfl, rfl⟩)

theorem srai (r : ImmW) : Statement (.srai r) :=
  of_word rfl rfl (imm_roundtrip rfl (fun _ => rfl) ⟨rfl, rfl⟩)

theorem movi (r : ImmW) : Statement (.movi r) :=
  of_word rfl rfl (imm_roundtrip rfl (fun _ => rfl) ⟨rfl, rfl⟩)

theorem movhi (r : ImmW) : Statement (.movhi r) :=
  of_word rfl rfl (imm_roundtrip rfl (fun _ => rfl) ⟨rfl, rfl⟩)

theorem muli (r : ImmW) : Statement (.muli r) :=
  of_word rfl rfl (imm_roundtrip rfl (fun _ => rfl) ⟨rfl, rfl⟩)

theorem lea (r : ImmW) : Statement (.lea r) :=
  of_word rfl rfl (imm_roundtrip rfl (fun _ => rfl) ⟨rfl, rfl⟩)

theorem leax (r : ImmW) : Statement (.leax r) :=
  of_word rfl rfl (imm_roundtrip rfl (fun _ => rfl) ⟨rfl, rfl⟩)

theorem lpc (r : ImmW) : Statement (.lpc r) :=
  of_word rfl rfl (imm_roundtrip rfl (fun _ => rfl) ⟨rfl, rfl⟩)

theorem b (r : BrW) : Statement (.b r) :=
  of_word rfl rfl (br_roundtrip rfl rfl rfl ⟨rfl, rfl⟩)

theorem beq (r : BrW) : Statement (.beq r) :=
  of_word rfl rfl (br_roundtrip rfl rfl rfl ⟨rfl, rfl⟩)

theorem bne (r : BrW) : Statement (.bne r) :=
  of_word rfl rfl (br_roundtrip rfl rfl rfl ⟨rfl, rfl⟩)

theorem blt (r : BrW) : Statement (.blt r) :=
  of_word rfl rfl (br_roundtrip rfl rfl rfl ⟨rfl, rfl⟩)

theorem ble (r : BrW) : Statement (.ble r) :=
  of_word rfl rfl (br_roundtrip rfl rfl rfl ⟨rfl, rfl⟩)

theorem bgt (r : BrW) : Statement (.bgt r) :=
  of_word rfl rfl (br_roundtrip rfl rfl rfl ⟨rfl, rfl⟩)

theorem bge (r : BrW) : Statement (.bge r) :=
  of_word rfl rfl (br_roundtrip rfl rfl rfl ⟨rfl, rfl⟩)

theorem bp (r : BrW) : Statement (.bp r) :=
  of_word rfl rfl (br_roundtrip rfl rfl rfl ⟨rfl, rfl⟩)

theorem bnp (r : BrW) : Statement (.bnp r) :=
  of_word rfl rfl (br_roundtrip rfl rfl rfl ⟨rfl, rfl⟩)

theorem call (r : BrW) : Statement (.call r) :=
  of_word rfl rfl (br_roundtrip rfl rfl rfl ⟨rfl, rfl⟩)

theorem jr (r : BrW) : Statement (.jr r) :=
  of_word rfl rfl (br_roundtrip rfl rfl rfl ⟨rfl, rfl⟩)

theorem callr (r : BrW) : Statement (.callr r) :=
  of_word rfl rfl (br_roundtrip rfl rfl rfl ⟨rfl, rfl⟩)

theorem loop (r : BrW) : Statement (.loop r) :=
  of_word rfl rfl (br_roundtrip rfl rfl rfl ⟨rfl, rfl⟩)

theorem waitSig (r : WtW) : Statement (.waitSig r) :=
  of_word rfl rfl (wt_roundtrip rfl (fun _ => rfl) ⟨rfl, rfl⟩)

theorem waitTile (r : WtW) : Statement (.waitTile r) :=
  of_word rfl rfl (wt_roundtrip rfl (fun _ => rfl) ⟨rfl, rfl⟩)

theorem waitQ (r : WtW) : Statement (.waitQ r) :=
  of_word rfl rfl (wt_roundtrip rfl (fun _ => rfl) ⟨rfl, rfl⟩)

theorem waitMer (r : WtW) : Statement (.waitMer r) :=
  of_word rfl rfl (wt_roundtrip rfl (fun _ => rfl) ⟨rfl, rfl⟩)

theorem yield (r : WtW) : Statement (.yield r) :=
  of_word rfl rfl (wt_roundtrip rfl (fun _ => rfl) ⟨rfl, rfl⟩)

theorem exit (r : WtW) : Statement (.exit r) :=
  of_word rfl rfl (wt_roundtrip rfl (fun _ => rfl) ⟨rfl, rfl⟩)

theorem crr (r : SysW) : Statement (.crr r) :=
  of_word rfl rfl (sys_roundtrip rfl (fun _ => rfl) ⟨rfl, rfl⟩)

theorem crw (r : SysW) : Statement (.crw r) :=
  of_word rfl rfl (sys_roundtrip rfl (fun _ => rfl) ⟨rfl, rfl⟩)

theorem crs (r : SysW) : Statement (.crs r) :=
  of_word rfl rfl (sys_roundtrip rfl (fun _ => rfl) ⟨rfl, rfl⟩)

theorem crc (r : SysW) : Statement (.crc r) :=
  of_word rfl rfl (sys_roundtrip rfl (fun _ => rfl) ⟨rfl, rfl⟩)

theorem crwi (r : SysW) : Statement (.crwi r) :=
  of_word rfl rfl (sys_roundtrip rfl (fun _ => rfl) ⟨rfl, rfl⟩)

theorem ctrr (r : SysW) : Statement (.ctrr r) :=
  of_word rfl rfl (sys_roundtrip rfl (fun _ => rfl) ⟨rfl, rfl⟩)

theorem tret (r : SysW) : Statement (.tret r) :=
  of_word rfl rfl (sys_roundtrip rfl (fun _ => rfl) ⟨rfl, rfl⟩)

theorem trap (r : SysW) : Statement (.trap r) :=
  of_word rfl rfl (sys_roundtrip rfl (fun _ => rfl) ⟨rfl, rfl⟩)

theorem brk (r : SysW) : Statement (.brk r) :=
  of_word rfl rfl (sys_roundtrip rfl (fun _ => rfl) ⟨rfl, rfl⟩)

theorem vadd (r : RegW) : Statement (.vadd r) :=
  of_word rfl rfl (reg_roundtrip rfl (by simp only [List.forall_mem_singleton]; exact ⟨rfl, by decide, rfl⟩))

theorem vsub (r : RegW) : Statement (.vsub r) :=
  of_word rfl rfl (reg_roundtrip rfl (by simp only [List.forall_mem_singleton]; exact ⟨rfl, by decide, rfl⟩))

theorem vadds (r : RegW) : Statement (.vadds r) :=
  of_word rfl rfl (reg_roundtrip rfl (by simp only [List.forall_mem_singleton]; exact ⟨rfl, by decide, rfl⟩))

theorem vsubs (r : RegW) : Statement (.vsubs r) :=
  of_word rfl rfl (reg_roundtrip rfl (by simp only [List.forall_mem_singleton]; exact ⟨rfl, by decide, rfl⟩))

theorem vmin (r : RegW) : Statement (.vmin r) :=
  of_word rfl rfl (reg_roundtrip rfl (by simp only [List.forall_mem_singleton]; exact ⟨rfl, by decide, rfl⟩))

theorem vmax (r : RegW) : Statement (.vmax r) :=
  of_word rfl rfl (reg_roundtrip rfl (by simp only [List.forall_mem_singleton]; exact ⟨rfl, by decide, rfl⟩))

theorem vabs (r : RegW) : Statement (.vabs r) :=
  of_word rfl rfl (reg_roundtrip rfl (by simp only [List.forall_mem_singleton]; exact ⟨rfl, by decide, rfl⟩))

theorem vneg (r : RegW) : Statement (.vneg r) :=
  of_word rfl rfl (reg_roundtrip rfl (by simp only [List.forall_mem_singleton]; exact ⟨rfl, by decide, rfl⟩))

theorem vmul (r : RegW) : Statement (.vmul r) :=
  of_word rfl rfl (reg_roundtrip rfl (by simp only [List.forall_mem_singleton]; exact ⟨rfl, by decide, rfl⟩))

theorem vmulh (r : RegW) : Statement (.vmulh r) :=
  of_word rfl rfl (reg_roundtrip rfl (by simp only [List.forall_mem_singleton]; exact ⟨rfl, by decide, rfl⟩))

theorem vmad (r : RegW) : Statement (.vmad r) :=
  of_word rfl rfl (reg_roundtrip rfl (by simp only [List.forall_mem_singleton]; exact ⟨rfl, by decide, rfl⟩))

theorem vdp4 (r : RegW) : Statement (.vdp4 r) :=
  of_word rfl rfl (reg_roundtrip rfl (by simp only [List.forall_mem_singleton]; exact ⟨rfl, by decide, rfl⟩))

theorem vand (r : RegW) : Statement (.vand r) :=
  of_word rfl rfl (reg_roundtrip rfl (by simp only [List.forall_mem_singleton]; exact ⟨rfl, by decide, rfl⟩))

theorem vor (r : RegW) : Statement (.vor r) :=
  of_word rfl rfl (reg_roundtrip rfl (by simp only [List.forall_mem_singleton]; exact ⟨rfl, by decide, rfl⟩))

theorem vxor (r : RegW) : Statement (.vxor r) :=
  of_word rfl rfl (reg_roundtrip rfl (by simp only [List.forall_mem_singleton]; exact ⟨rfl, by decide, rfl⟩))

theorem vandn (r : RegW) : Statement (.vandn r) :=
  of_word rfl rfl (reg_roundtrip rfl (by simp only [List.forall_mem_singleton]; exact ⟨rfl, by decide, rfl⟩))

theorem vnot (r : RegW) : Statement (.vnot r) :=
  of_word rfl rfl (reg_roundtrip rfl (by simp only [List.forall_mem_singleton]; exact ⟨rfl, by decide, rfl⟩))

theorem vshl (r : RegW) : Statement (.vshl r) :=
  of_word rfl rfl (reg_roundtrip rfl (by simp only [List.forall_mem_singleton]; exact ⟨rfl, by decide, rfl⟩))

theorem vshr (r : RegW) : Statement (.vshr r) :=
  of_word rfl rfl (reg_roundtrip rfl (by simp only [List.forall_mem_singleton]; exact ⟨rfl, by decide, rfl⟩))

theorem vrotl (r : RegW) : Statement (.vrotl r) :=
  of_word rfl rfl (reg_roundtrip rfl (by simp only [List.forall_mem_singleton]; exact ⟨rfl, by decide, rfl⟩))

theorem vrotr (r : RegW) : Statement (.vrotr r) :=
  of_word rfl rfl (reg_roundtrip rfl (by simp only [List.forall_mem_singleton]; exact ⟨rfl, by decide, rfl⟩))

theorem vclz (r : RegW) : Statement (.vclz r) :=
  of_word rfl rfl (reg_roundtrip rfl (by simp only [List.forall_mem_singleton]; exact ⟨rfl, by decide, rfl⟩))

theorem vctz (r : RegW) : Statement (.vctz r) :=
  of_word rfl rfl (reg_roundtrip rfl (by simp only [List.forall_mem_singleton]; exact ⟨rfl, by decide, rfl⟩))

theorem vpopc (r : RegW) : Statement (.vpopc r) :=
  of_word rfl rfl (reg_roundtrip rfl (by simp only [List.forall_mem_singleton]; exact ⟨rfl, by decide, rfl⟩))

theorem vcmpEq (r : RegW) : Statement (.vcmpEq r) :=
  of_word rfl rfl (reg_roundtrip rfl (by simp only [List.forall_mem_singleton]; exact ⟨rfl, by decide, rfl⟩))

theorem vcmpNe (r : RegW) : Statement (.vcmpNe r) :=
  of_word rfl rfl (reg_roundtrip rfl (by simp only [List.forall_mem_singleton]; exact ⟨rfl, by decide, rfl⟩))

theorem vcmpLt (r : RegW) : Statement (.vcmpLt r) :=
  of_word rfl rfl (reg_roundtrip rfl (by simp only [List.forall_mem_singleton]; exact ⟨rfl, by decide, rfl⟩))

theorem vcmpLe (r : RegW) : Statement (.vcmpLe r) :=
  of_word rfl rfl (reg_roundtrip rfl (by simp only [List.forall_mem_singleton]; exact ⟨rfl, by decide, rfl⟩))

theorem vcmpGt (r : RegW) : Statement (.vcmpGt r) :=
  of_word rfl rfl (reg_roundtrip rfl (by simp only [List.forall_mem_singleton]; exact ⟨rfl, by decide, rfl⟩))

theorem vcmpGe (r : RegW) : Statement (.vcmpGe r) :=
  of_word rfl rfl (reg_roundtrip rfl (by simp only [List.forall_mem_singleton]; exact ⟨rfl, by decide, rfl⟩))

theorem vcmpTst (r : RegW) : Statement (.vcmpTst r) :=
  of_word rfl rfl (reg_roundtrip rfl (by simp only [List.forall_mem_singleton]; exact ⟨rfl, by decide, rfl⟩))

theorem vcmpNtst (r : RegW) : Statement (.vcmpNtst r) :=
  of_word rfl rfl (reg_roundtrip rfl (by simp only [List.forall_mem_singleton]; exact ⟨rfl, by decide, rfl⟩))

theorem vmov (r : RegW) : Statement (.vmov r) :=
  of_word rfl rfl (reg_roundtrip rfl (by simp only [List.forall_mem_singleton]; exact ⟨rfl, by decide, rfl⟩))

theorem vsel (r : RegW) : Statement (.vsel r) :=
  of_word rfl rfl (reg_roundtrip rfl (by simp only [List.forall_mem_singleton]; exact ⟨rfl, by decide, rfl⟩))

theorem vbcast (r : RegW) : Statement (.vbcast r) :=
  of_word rfl rfl (reg_roundtrip rfl (by simp only [List.forall_mem_singleton]; exact ⟨rfl, by decide, rfl⟩))

theorem vins (r : RegW) : Statement (.vins r) :=
  of_word rfl rfl (reg_roundtrip rfl (by simp only [List.forall_mem_singleton]; exact ⟨rfl, by decide, rfl⟩))

theorem vext (r : RegW) : Statement (.vext r) :=
  of_word rfl rfl (reg_roundtrip rfl (by simp only [List.forall_mem_singleton]; exact ⟨rfl, by decide, rfl⟩))

theorem vidx (r : RegW) : Statement (.vidx r) :=
  of_word rfl rfl (reg_roundtrip rfl (by simp only [List.forall_mem_singleton]; exact ⟨rfl, by decide, rfl⟩))

theorem vperm (r : RegW) : Statement (.vperm r) :=
  of_word rfl rfl (reg_roundtrip rfl (by simp only [List.forall_mem_singleton]; exact ⟨rfl, by decide, rfl⟩))

theorem vshx (r : RegW) : Statement (.vshx r) :=
  of_word rfl rfl (reg_roundtrip rfl (by simp only [List.forall_mem_singleton]; exact ⟨rfl, by decide, rfl⟩))

theorem vrot (r : RegW) : Statement (.vrot r) :=
  of_word rfl rfl (reg_roundtrip rfl (by simp only [List.forall_mem_singleton]; exact ⟨rfl, by decide, rfl⟩))

theorem vredAdd (r : RegW) : Statement (.vredAdd r) :=
  of_word rfl rfl (reg_roundtrip rfl (by simp only [List.forall_mem_singleton]; exact ⟨rfl, by decide, rfl⟩))

theorem vredMin (r : RegW) : Statement (.vredMin r) :=
  of_word rfl rfl (reg_roundtrip rfl (by simp only [List.forall_mem_singleton]; exact ⟨rfl, by decide, rfl⟩))

theorem vredMax (r : RegW) : Statement (.vredMax r) :=
  of_word rfl rfl (reg_roundtrip rfl (by simp only [List.forall_mem_singleton]; exact ⟨rfl, by decide, rfl⟩))

theorem vtrit (r : RegW) : Statement (.vtrit r) :=
  of_word rfl rfl (reg_roundtrip rfl (by
    intro op ho; fin_cases ho; all_goals (refine ⟨rfl, by decide, ?_⟩; intro fn hf; fin_cases hf; all_goals rfl)))

theorem vtacc (r : RegW) : Statement (.vtacc r) :=
  of_word rfl rfl (reg_roundtrip rfl (by simp only [List.forall_mem_singleton]; exact ⟨rfl, by decide, rfl⟩))

theorem vfadd (r : RegW) : Statement (.vfadd r) :=
  of_word rfl rfl (reg_roundtrip rfl (by
    intro op ho; fin_cases ho; all_goals (refine ⟨rfl, by decide, ?_⟩; intro fn hf; fin_cases hf; all_goals rfl)))

theorem vfsub (r : RegW) : Statement (.vfsub r) :=
  of_word rfl rfl (reg_roundtrip rfl (by
    intro op ho; fin_cases ho; all_goals (refine ⟨rfl, by decide, ?_⟩; intro fn hf; fin_cases hf; all_goals rfl)))

theorem vfmul (r : RegW) : Statement (.vfmul r) :=
  of_word rfl rfl (reg_roundtrip rfl (by
    intro op ho; fin_cases ho; all_goals (refine ⟨rfl, by decide, ?_⟩; intro fn hf; fin_cases hf; all_goals rfl)))

theorem vfma (r : RegW) : Statement (.vfma r) :=
  of_word rfl rfl (reg_roundtrip rfl (by
    intro op ho; fin_cases ho; all_goals (refine ⟨rfl, by decide, ?_⟩; intro fn hf; fin_cases hf; all_goals rfl)))

theorem vfnma (r : RegW) : Statement (.vfnma r) :=
  of_word rfl rfl (reg_roundtrip rfl (by
    intro op ho; fin_cases ho; all_goals (refine ⟨rfl, by decide, ?_⟩; intro fn hf; fin_cases hf; all_goals rfl)))

theorem vfdiv (r : RegW) : Statement (.vfdiv r) :=
  of_word rfl rfl (reg_roundtrip rfl (by
    intro op ho; fin_cases ho; all_goals (refine ⟨rfl, by decide, ?_⟩; intro fn hf; fin_cases hf; all_goals rfl)))

theorem vfsqrt (r : RegW) : Statement (.vfsqrt r) :=
  of_word rfl rfl (reg_roundtrip rfl (by
    intro op ho; fin_cases ho; all_goals (refine ⟨rfl, by decide, ?_⟩; intro fn hf; fin_cases hf; all_goals rfl)))

theorem vfmin (r : RegW) : Statement (.vfmin r) :=
  of_word rfl rfl (reg_roundtrip rfl (by simp only [List.forall_mem_singleton]; exact ⟨rfl, by decide, rfl⟩))

theorem vfmax (r : RegW) : Statement (.vfmax r) :=
  of_word rfl rfl (reg_roundtrip rfl (by simp only [List.forall_mem_singleton]; exact ⟨rfl, by decide, rfl⟩))

theorem vfabs (r : RegW) : Statement (.vfabs r) :=
  of_word rfl rfl (reg_roundtrip rfl (by simp only [List.forall_mem_singleton]; exact ⟨rfl, by decide, rfl⟩))

theorem vfneg (r : RegW) : Statement (.vfneg r) :=
  of_word rfl rfl (reg_roundtrip rfl (by simp only [List.forall_mem_singleton]; exact ⟨rfl, by decide, rfl⟩))

theorem vfcmpEq (r : RegW) : Statement (.vfcmpEq r) :=
  of_word rfl rfl (reg_roundtrip rfl (by simp only [List.forall_mem_singleton]; exact ⟨rfl, by decide, rfl⟩))

theorem vfcmpNe (r : RegW) : Statement (.vfcmpNe r) :=
  of_word rfl rfl (reg_roundtrip rfl (by simp only [List.forall_mem_singleton]; exact ⟨rfl, by decide, rfl⟩))

theorem vfcmpLt (r : RegW) : Statement (.vfcmpLt r) :=
  of_word rfl rfl (reg_roundtrip rfl (by simp only [List.forall_mem_singleton]; exact ⟨rfl, by decide, rfl⟩))

theorem vfcmpLe (r : RegW) : Statement (.vfcmpLe r) :=
  of_word rfl rfl (reg_roundtrip rfl (by simp only [List.forall_mem_singleton]; exact ⟨rfl, by decide, rfl⟩))

theorem vfcmpGt (r : RegW) : Statement (.vfcmpGt r) :=
  of_word rfl rfl (reg_roundtrip rfl (by simp only [List.forall_mem_singleton]; exact ⟨rfl, by decide, rfl⟩))

theorem vfcmpGe (r : RegW) : Statement (.vfcmpGe r) :=
  of_word rfl rfl (reg_roundtrip rfl (by simp only [List.forall_mem_singleton]; exact ⟨rfl, by decide, rfl⟩))

theorem vfcmpUn (r : RegW) : Statement (.vfcmpUn r) :=
  of_word rfl rfl (reg_roundtrip rfl (by simp only [List.forall_mem_singleton]; exact ⟨rfl, by decide, rfl⟩))

theorem vfredAdd (r : RegW) : Statement (.vfredAdd r) :=
  of_word rfl rfl (reg_roundtrip rfl (by simp only [List.forall_mem_singleton]; exact ⟨rfl, by decide, rfl⟩))

theorem vfredMin (r : RegW) : Statement (.vfredMin r) :=
  of_word rfl rfl (reg_roundtrip rfl (by simp only [List.forall_mem_singleton]; exact ⟨rfl, by decide, rfl⟩))

theorem vfredMax (r : RegW) : Statement (.vfredMax r) :=
  of_word rfl rfl (reg_roundtrip rfl (by simp only [List.forall_mem_singleton]; exact ⟨rfl, by decide, rfl⟩))

theorem vcvt (r : RegW) : Statement (.vcvt r) :=
  of_word rfl rfl (reg_roundtrip rfl (by
    intro op ho; fin_cases ho; all_goals (refine ⟨rfl, by decide, ?_⟩; intro fn hf; fin_cases hf; all_goals rfl)))

theorem vquant (r : RegW) : Statement (.vquant r) :=
  of_word rfl rfl (reg_roundtrip rfl (by
    intro op ho; fin_cases ho; all_goals (refine ⟨rfl, by decide, ?_⟩; intro fn hf; fin_cases hf; all_goals rfl)))

theorem vquantStart (r : RegW) : Statement (.vquantStart r) :=
  of_word rfl rfl (reg_roundtrip rfl (by
    intro op ho; fin_cases ho; all_goals (refine ⟨rfl, by decide, ?_⟩; intro fn hf; fin_cases hf; all_goals rfl)))

theorem vdequantF32 (r : RegW) : Statement (.vdequantF32 r) :=
  of_word rfl rfl (reg_roundtrip rfl (by simp only [List.forall_mem_singleton]; exact ⟨rfl, by decide, rfl⟩))

theorem vdequantBf16 (r : RegW) : Statement (.vdequantBf16 r) :=
  of_word rfl rfl (reg_roundtrip rfl (by simp only [List.forall_mem_singleton]; exact ⟨rfl, by decide, rfl⟩))

theorem ld (r : MemW) : Statement (.ld r) :=
  of_word rfl rfl (mem_roundtrip rfl rfl (by intro p hp; fin_cases hp; all_goals exact ⟨rfl, rfl⟩))

theorem st (r : MemW) : Statement (.st r) :=
  of_word rfl rfl (mem_roundtrip rfl rfl (by intro p hp; fin_cases hp; all_goals exact ⟨rfl, rfl⟩))

theorem vld (r : MemW) : Statement (.vld r) :=
  of_word rfl rfl (mem_roundtrip rfl rfl (by intro p hp; fin_cases hp; all_goals exact ⟨rfl, rfl⟩))

theorem vst (r : MemW) : Statement (.vst r) :=
  of_word rfl rfl (mem_roundtrip rfl rfl (by intro p hp; fin_cases hp; all_goals exact ⟨rfl, rfl⟩))

theorem ldwF (r : MemW) : Statement (.ldwF r) :=
  of_word rfl rfl (mem_roundtrip rfl rfl (by intro p hp; fin_cases hp; all_goals exact ⟨rfl, rfl⟩))

theorem ldwFe (r : MemW) : Statement (.ldwFe r) :=
  of_word rfl rfl (mem_roundtrip rfl rfl (by intro p hp; fin_cases hp; all_goals exact ⟨rfl, rfl⟩))

theorem vldwF (r : MemW) : Statement (.vldwF r) :=
  of_word rfl rfl (mem_roundtrip rfl rfl (by intro p hp; fin_cases hp; all_goals exact ⟨rfl, rfl⟩))

theorem vldwFe (r : MemW) : Statement (.vldwFe r) :=
  of_word rfl rfl (mem_roundtrip rfl rfl (by intro p hp; fin_cases hp; all_goals exact ⟨rfl, rfl⟩))

theorem stwEf (r : MemW) : Statement (.stwEf r) :=
  of_word rfl rfl (mem_roundtrip rfl rfl (by intro p hp; fin_cases hp; all_goals exact ⟨rfl, rfl⟩))

theorem stwF (r : MemW) : Statement (.stwF r) :=
  of_word rfl rfl (mem_roundtrip rfl rfl (by intro p hp; fin_cases hp; all_goals exact ⟨rfl, rfl⟩))

theorem vstwEf (r : MemW) : Statement (.vstwEf r) :=
  of_word rfl rfl (mem_roundtrip rfl rfl (by intro p hp; fin_cases hp; all_goals exact ⟨rfl, rfl⟩))

theorem vstwF (r : MemW) : Statement (.vstwF r) :=
  of_word rfl rfl (mem_roundtrip rfl rfl (by intro p hp; fin_cases hp; all_goals exact ⟨rfl, rfl⟩))

theorem feEmpty (r : MemW) : Statement (.feEmpty r) :=
  of_word rfl rfl (mem_roundtrip rfl rfl (by intro p hp; fin_cases hp; all_goals exact ⟨rfl, rfl⟩))

theorem feFull (r : MemW) : Statement (.feFull r) :=
  of_word rfl rfl (mem_roundtrip rfl rfl (by intro p hp; fin_cases hp; all_goals exact ⟨rfl, rfl⟩))

theorem feGet (r : MemW) : Statement (.feGet r) :=
  of_word rfl rfl (mem_roundtrip rfl rfl (by intro p hp; fin_cases hp; all_goals exact ⟨rfl, rfl⟩))

theorem qdrop (r : MemW) : Statement (.qdrop r) :=
  of_word rfl rfl (mem_roundtrip rfl rfl (by intro p hp; fin_cases hp; all_goals exact ⟨rfl, rfl⟩))

theorem qlen (r : MemW) : Statement (.qlen r) :=
  of_word rfl rfl (mem_roundtrip rfl rfl (by intro p hp; fin_cases hp; all_goals exact ⟨rfl, rfl⟩))

theorem qwait (r : MemW) : Statement (.qwait r) :=
  of_word rfl rfl (mem_roundtrip rfl rfl (by intro p hp; fin_cases hp; all_goals exact ⟨rfl, rfl⟩))

theorem fetch (r : MemW) : Statement (.fetch r) :=
  of_word rfl rfl (mem_roundtrip rfl rfl (by intro p hp; fin_cases hp; all_goals exact ⟨rfl, rfl⟩))

theorem fetchF (r : MemW) : Statement (.fetchF r) :=
  of_word rfl rfl (mem_roundtrip rfl rfl (by intro p hp; fin_cases hp; all_goals exact ⟨rfl, rfl⟩))

theorem fetchFe (r : MemW) : Statement (.fetchFe r) :=
  of_word rfl rfl (mem_roundtrip rfl rfl (by intro p hp; fin_cases hp; all_goals exact ⟨rfl, rfl⟩))

theorem drain (r : MemW) : Statement (.drain r) :=
  of_word rfl rfl (mem_roundtrip rfl rfl (by intro p hp; fin_cases hp; all_goals exact ⟨rfl, rfl⟩))

theorem drainEf (r : MemW) : Statement (.drainEf r) :=
  of_word rfl rfl (mem_roundtrip rfl rfl (by intro p hp; fin_cases hp; all_goals exact ⟨rfl, rfl⟩))

theorem drainF (r : MemW) : Statement (.drainF r) :=
  of_word rfl rfl (mem_roundtrip rfl rfl (by intro p hp; fin_cases hp; all_goals exact ⟨rfl, rfl⟩))

theorem pref (r : MemW) : Statement (.pref r) :=
  of_word rfl rfl (mem_roundtrip rfl rfl (by intro p hp; fin_cases hp; all_goals exact ⟨rfl, rfl⟩))

theorem amoAdd (r : MemW) : Statement (.amoAdd r) :=
  of_word rfl rfl (mem_roundtrip rfl rfl (by intro p hp; fin_cases hp; all_goals exact ⟨rfl, rfl⟩))

theorem amoAnd (r : MemW) : Statement (.amoAnd r) :=
  of_word rfl rfl (mem_roundtrip rfl rfl (by intro p hp; fin_cases hp; all_goals exact ⟨rfl, rfl⟩))

theorem amoOr (r : MemW) : Statement (.amoOr r) :=
  of_word rfl rfl (mem_roundtrip rfl rfl (by intro p hp; fin_cases hp; all_goals exact ⟨rfl, rfl⟩))

theorem amoXor (r : MemW) : Statement (.amoXor r) :=
  of_word rfl rfl (mem_roundtrip rfl rfl (by intro p hp; fin_cases hp; all_goals exact ⟨rfl, rfl⟩))

theorem amoMinS (r : MemW) : Statement (.amoMinS r) :=
  of_word rfl rfl (mem_roundtrip rfl rfl (by intro p hp; fin_cases hp; all_goals exact ⟨rfl, rfl⟩))

theorem amoMaxS (r : MemW) : Statement (.amoMaxS r) :=
  of_word rfl rfl (mem_roundtrip rfl rfl (by intro p hp; fin_cases hp; all_goals exact ⟨rfl, rfl⟩))

theorem amoMinN (r : MemW) : Statement (.amoMinN r) :=
  of_word rfl rfl (mem_roundtrip rfl rfl (by intro p hp; fin_cases hp; all_goals exact ⟨rfl, rfl⟩))

theorem amoMaxN (r : MemW) : Statement (.amoMaxN r) :=
  of_word rfl rfl (mem_roundtrip rfl rfl (by intro p hp; fin_cases hp; all_goals exact ⟨rfl, rfl⟩))

theorem amoSwap (r : MemW) : Statement (.amoSwap r) :=
  of_word rfl rfl (mem_roundtrip rfl rfl (by intro p hp; fin_cases hp; all_goals exact ⟨rfl, rfl⟩))

theorem amoCas (r : MemW) : Statement (.amoCas r) :=
  of_word rfl rfl (mem_roundtrip rfl rfl (by intro p hp; fin_cases hp; all_goals exact ⟨rfl, rfl⟩))

theorem amoFadd (r : MemW) : Statement (.amoFadd r) :=
  of_word rfl rfl (mem_roundtrip rfl rfl (by intro p hp; fin_cases hp; all_goals exact ⟨rfl, rfl⟩))

theorem amoFmin (r : MemW) : Statement (.amoFmin r) :=
  of_word rfl rfl (mem_roundtrip rfl rfl (by intro p hp; fin_cases hp; all_goals exact ⟨rfl, rfl⟩))

theorem amoFmax (r : MemW) : Statement (.amoFmax r) :=
  of_word rfl rfl (mem_roundtrip rfl rfl (by intro p hp; fin_cases hp; all_goals exact ⟨rfl, rfl⟩))

theorem fence (r : MemW) : Statement (.fence r) :=
  of_word rfl rfl (mem_roundtrip rfl rfl (by intro p hp; fin_cases hp; all_goals exact ⟨rfl, rfl⟩))

theorem fenceRel (r : MemW) : Statement (.fenceRel r) :=
  of_word rfl rfl (mem_roundtrip rfl rfl (by intro p hp; fin_cases hp; all_goals exact ⟨rfl, rfl⟩))

theorem fenceAcq (r : MemW) : Statement (.fenceAcq r) :=
  of_word rfl rfl (mem_roundtrip rfl rfl (by intro p hp; fin_cases hp; all_goals exact ⟨rfl, rfl⟩))

theorem rel (r : MemW) : Statement (.rel r) :=
  of_word rfl rfl (mem_roundtrip rfl rfl (by intro p hp; fin_cases hp; all_goals exact ⟨rfl, rfl⟩))

theorem acq (r : MemW) : Statement (.acq r) :=
  of_word rfl rfl (mem_roundtrip rfl rfl (by intro p hp; fin_cases hp; all_goals exact ⟨rfl, rfl⟩))

theorem acqP (r : MemW) : Statement (.acqP r) :=
  of_word rfl rfl (mem_roundtrip rfl rfl (by intro p hp; fin_cases hp; all_goals exact ⟨rfl, rfl⟩))

theorem barSync (r : MemW) : Statement (.barSync r) :=
  of_word rfl rfl (mem_roundtrip rfl rfl (by intro p hp; fin_cases hp; all_goals exact ⟨rfl, rfl⟩))

theorem barArr (r : MemW) : Statement (.barArr r) :=
  of_word rfl rfl (mem_roundtrip rfl rfl (by intro p hp; fin_cases hp; all_goals exact ⟨rfl, rfl⟩))

theorem barWt (r : MemW) : Statement (.barWt r) :=
  of_word rfl rfl (mem_roundtrip rfl rfl (by intro p hp; fin_cases hp; all_goals exact ⟨rfl, rfl⟩))

theorem enq (r : EngW) : Statement (.enq r) :=
  of_word rfl rfl (eng_roundtrip rfl (fun _ => rfl) rfl)

theorem qclr (r : EngW) : Statement (.qclr r) :=
  of_word rfl rfl (eng_roundtrip rfl (fun _ => rfl) rfl)

theorem sigGet (r : RegW) : Statement (.sigGet r) :=
  of_word rfl rfl (reg_roundtrip rfl (by simp only [List.forall_mem_singleton]; exact ⟨rfl, by decide, rfl⟩))

theorem sigAdd (r : RegW) : Statement (.sigAdd r) :=
  of_word rfl rfl (reg_roundtrip rfl (by simp only [List.forall_mem_singleton]; exact ⟨rfl, by decide, rfl⟩))

theorem sigSet (r : RegW) : Statement (.sigSet r) :=
  of_word rfl rfl (reg_roundtrip rfl (by simp only [List.forall_mem_singleton]; exact ⟨rfl, by decide, rfl⟩))

theorem sigAddR (r : RegW) : Statement (.sigAddR r) :=
  of_word rfl rfl (reg_roundtrip rfl (by simp only [List.forall_mem_singleton]; exact ⟨rfl, by decide, rfl⟩))

theorem cmdNop (c : Cmd) : Statement (.cmdNop c) :=
  of_cmd rfl rfl rfl rfl

theorem mm (c : Cmd) : Statement (.mm c) :=
  of_cmd rfl rfl rfl rfl

theorem mmG (c : Cmd) : Statement (.mmG c) :=
  of_cmd rfl rfl rfl rfl

theorem cpLd (c : Cmd) : Statement (.cpLd c) :=
  of_cmd rfl rfl rfl rfl

theorem cpSt (c : Cmd) : Statement (.cpSt c) :=
  of_cmd rfl rfl rfl rfl

theorem cpMv (c : Cmd) : Statement (.cpMv c) :=
  of_cmd rfl rfl rfl rfl

theorem cpZero (c : Cmd) : Statement (.cpZero c) :=
  of_cmd rfl rfl rfl rfl

theorem cpRenc (c : Cmd) : Statement (.cpRenc c) :=
  of_cmd rfl rfl rfl rfl

theorem cpRed (c : Cmd) : Statement (.cpRed c) :=
  of_cmd rfl rfl rfl rfl

theorem clAred (c : Cmd) : Statement (.clAred c) :=
  of_cmd rfl rfl rfl rfl

theorem clRsc (c : Cmd) : Statement (.clRsc c) :=
  of_cmd rfl rfl rfl rfl

theorem clAgat (c : Cmd) : Statement (.clAgat c) :=
  of_cmd rfl rfl rfl rfl

theorem clPut (c : Cmd) : Statement (.clPut c) :=
  of_cmd rfl rfl rfl rfl

theorem clPutq (c : Cmd) : Statement (.clPutq c) :=
  of_cmd rfl rfl rfl rfl

theorem notify (c : Cmd) : Statement (.notify c) :=
  of_cmd rfl rfl rfl rfl

theorem qfence (c : Cmd) : Statement (.qfence c) :=
  of_cmd rfl rfl rfl rfl

theorem chain (c : Cmd) : Statement (.chain c) :=
  of_cmd rfl rfl rfl rfl

theorem sealRange (c : Cmd) : Statement (.sealRange c) :=
  of_cmd rfl rfl rfl rfl

theorem resultLands (h k : Nat) : Statement (.resultLands h k) :=
  of_event rfl rfl

theorem localStorePerform (h k : Nat) : Statement (.localStorePerform h k) :=
  of_event rfl rfl

theorem postedStorePerform (core n : Nat) : Statement (.postedStorePerform core n) :=
  of_event rfl rfl

theorem blockEndReply (h k : Nat) : Statement (.blockEndReply h k) :=
  of_event rfl rfl

theorem fetchDataArrival (h q : Nat) : Statement (.fetchDataArrival h q) :=
  of_event rfl rfl

theorem waitConditionMet (h k : Nat) : Statement (.waitConditionMet h k) :=
  of_event rfl rfl

theorem headConditionMet (h k : Nat) : Statement (.headConditionMet h k) :=
  of_event rfl rfl

theorem clusterTimeSlice (core k : Nat) : Statement (.clusterTimeSlice core k) :=
  of_event rfl rfl

theorem asyncEventDelivery (h : Nat) : Statement (.asyncEventDelivery h) :=
  of_event rfl rfl

theorem teamRetire (h : Nat) : Statement (.teamRetire h) :=
  of_event rfl rfl

theorem launchFail (l : Nat) : Statement (.launchFail l) :=
  of_event rfl rfl

theorem granuleDrowsy (h g : Nat) : Statement (.granuleDrowsy h g) :=
  of_event rfl rfl

theorem swap (h : Nat) : Statement (.swap h) :=
  of_event rfl rfl

theorem teamRequeue (h : Nat) : Statement (.teamRequeue h) :=
  of_event rfl rfl

theorem teamRestore (h : Nat) : Statement (.teamRestore h) :=
  of_event rfl rfl

theorem priorityAging (core l : Nat) : Statement (.priorityAging core l) :=
  of_event rfl rfl

theorem engineCmdStart (h q : Nat) : Statement (.engineCmdStart h q) :=
  of_event rfl rfl

theorem engineCmdComplete (h q : Nat) : Statement (.engineCmdComplete h q) :=
  of_event rfl rfl

theorem heldTileReady (h t : Nat) : Statement (.heldTileReady h t) :=
  of_event rfl rfl

theorem bankJoin (core : Nat) : Statement (.bankJoin core) :=
  of_event rfl rfl

theorem fixupReplay (h q : Nat) : Statement (.fixupReplay h q) :=
  of_event rfl rfl

theorem launchDoorbell (ctx q : Nat) (v : Word) : Statement (.launchDoorbell ctx q v) :=
  of_event rfl rfl

theorem launchAccept (ctx q : Nat) : Statement (.launchAccept ctx q) :=
  of_event rfl rfl

theorem taskReady (l t : Nat) : Statement (.taskReady l t) :=
  of_event rfl rfl

theorem teamDispatch (core l : Nat) : Statement (.teamDispatch core l) :=
  of_event rfl rfl

theorem translationWalk (ctx va : Nat) : Statement (.translationWalk ctx va) :=
  of_event rfl rfl

theorem faultReply (ctx : Nat) (v : Word) : Statement (.faultReply ctx v) :=
  of_event rfl rfl

theorem shootdownStart (ctx : Nat) : Statement (.shootdownStart ctx) :=
  of_event rfl rfl

theorem shootdownDone (ctx : Nat) : Statement (.shootdownDone ctx) :=
  of_event rfl rfl

theorem contextSave (ctx : Nat) : Statement (.contextSave ctx) :=
  of_event rfl rfl

theorem contextRestore (ctx : Nat) : Statement (.contextRestore ctx) :=
  of_event rfl rfl

theorem contextSaveDone (ctx : Nat) : Statement (.contextSaveDone ctx) :=
  of_event rfl rfl

theorem contextRestoreDone (ctx : Nat) : Statement (.contextRestoreDone ctx) :=
  of_event rfl rfl

theorem bufferDataError (h k off : Nat) : Statement (.bufferDataError h k off) :=
  of_event rfl rfl

theorem memoryLineError (pa ctx : Nat) : Statement (.memoryLineError pa ctx) :=
  of_event rfl rfl

theorem promotionRequest (core n : Nat) : Statement (.promotionRequest core n) :=
  of_event rfl rfl

theorem flushStart (core : Nat) : Statement (.flushStart core) :=
  of_event rfl rfl

theorem flushLocalPhaseEnd (core : Nat) : Statement (.flushLocalPhaseEnd core) :=
  of_event rfl rfl

theorem flushRemotePhaseEnd (core : Nat) : Statement (.flushRemotePhaseEnd core) :=
  of_event rfl rfl

theorem taggedWriteApply (die n : Nat) : Statement (.taggedWriteApply die n) :=
  of_event rfl rfl

theorem clockMarkerApply (die n : Nat) : Statement (.clockMarkerApply die n) :=
  of_event rfl rfl

theorem remoteSpAccess (core n : Nat) : Statement (.remoteSpAccess core n) :=
  of_event rfl rfl

theorem sigAddRArrive (core n : Nat) : Statement (.sigAddRArrive core n) :=
  of_event rfl rfl

theorem granuleFillDone (h g : Nat) : Statement (.granuleFillDone h g) :=
  of_event rfl rfl

theorem tileClaim (n : Nat) : Statement (.tileClaim n) :=
  of_event rfl rfl

theorem claimRestart (n : Nat) : Statement (.claimRestart n) :=
  of_event rfl rfl

theorem reencodeTagWrite (n : Nat) : Statement (.reencodeTagWrite n) :=
  of_event rfl rfl

theorem sextantStepRequest (ctx : Nat) (v : Word) : Statement (.sextantStepRequest ctx v) :=
  of_event rfl rfl

theorem sextantStepApply (ctx : Nat) : Statement (.sextantStepApply ctx) :=
  of_event rfl rfl

theorem redUpdateArrive (die n : Nat) : Statement (.redUpdateArrive die n) :=
  of_event rfl rfl

theorem redMarkerArrive (die n : Nat) : Statement (.redMarkerArrive die n) :=
  of_event rfl rfl

theorem redRetry (die n : Nat) : Statement (.redRetry die n) :=
  of_event rfl rfl

theorem collectiveDataArrive (h : Nat) (rank : FromRank) (data : List Byte) (digest : Nat) :
    Statement (.collectiveDataArrive h rank data digest) :=
  of_event rfl rfl

theorem packetHop (n : Nat) : Statement (.packetHop n) :=
  of_event rfl rfl

theorem packetArrive (p : Incoming) : Statement (.packetArrive p) :=
  of_event rfl rfl

theorem courseFaultReturn (n : SentCopy) (cause hop : Nat) : Statement (.courseFaultReturn n cause hop) :=
  of_event rfl rfl

theorem requestTimeout (n : Nat) : Statement (.requestTimeout n) :=
  of_event rfl rfl

theorem dupReplyExpiry (n : Nat) : Statement (.dupReplyExpiry n) :=
  of_event rfl rfl

theorem courseTableReread (ctx : Nat) (v : Word) : Statement (.courseTableReread ctx v) :=
  of_event rfl rfl

theorem flitRetry (port plane : Nat) : Statement (.flitRetry port plane) :=
  of_event rfl rfl

theorem linkPlaneChange (port plane : Nat) (up : Bool) : Statement (.linkPlaneChange port plane up) :=
  of_event rfl rfl

theorem chartInstall : Statement .chartInstall :=
  of_event rfl rfl

theorem exportLoad : Statement .exportLoad :=
  of_event rfl rfl

theorem migrationStart : Statement .migrationStart :=
  of_event rfl rfl

theorem migrationSwitch (ok : Bool) : Statement (.migrationSwitch ok) :=
  of_event rfl rfl

theorem movedResend (n : Nat) : Statement (.movedResend n) :=
  of_event rfl rfl

theorem roLineRevoke (peer lo hi : Nat) : Statement (.roLineRevoke peer lo hi) :=
  of_event rfl rfl

theorem meridianTick : Statement .meridianTick :=
  of_event rfl rfl

theorem alignMessageSend : Statement .alignMessageSend :=
  of_event rfl rfl

theorem alignMessageArrive (port count delay : Nat) : Statement (.alignMessageArrive port count delay) :=
  of_event rfl rfl

theorem alignTimeout : Statement .alignTimeout :=
  of_event rfl rfl

theorem barrierPhaseComplete (h b : Nat) : Statement (.barrierPhaseComplete h b) :=
  of_event rfl rfl

theorem digestRequest (ctx : Nat) (v : Word) : Statement (.digestRequest ctx v) :=
  of_event rfl rfl

theorem digestApply (ctx : Nat) : Statement (.digestApply ctx) :=
  of_event rfl rfl

theorem errorEvent (r : Resource) : Statement (.errorEvent r) :=
  of_event rfl rfl

theorem packageReset : Statement .packageReset :=
  of_event rfl rfl

theorem powerOnBoot (image : List Byte) : Statement (.powerOnBoot image) :=
  of_event rfl rfl

theorem firmwareUpdate (image : List Byte) : Statement (.firmwareUpdate image) :=
  of_event rfl rfl

theorem contextCreate (c : Nat) : Statement (.contextCreate c) :=
  of_event rfl rfl

theorem contextDestroy (c : Nat) : Statement (.contextDestroy c) :=
  of_event rfl rfl

theorem contextOpDone : Statement .contextOpDone :=
  of_event rfl rfl

theorem debugStop (ctx : Nat) : Statement (.debugStop ctx) :=
  of_event rfl rfl

theorem debugTeamStopped (ctx : Nat) : Statement (.debugTeamStopped ctx) :=
  of_event rfl rfl

theorem debugRelease (ctx : Nat) : Statement (.debugRelease ctx) :=
  of_event rfl rfl

theorem debugRead (ctx : Nat) : Statement (.debugRead ctx) :=
  of_event rfl rfl

theorem debugWrite (ctx : Nat) : Statement (.debugWrite ctx) :=
  of_event rfl rfl

theorem ueSqDoorbell (k : Nat) (v : Word) : Statement (.ueSqDoorbell k v) :=
  of_event rfl rfl

theorem ueSend (k : Nat) (status : Nat) : Statement (.ueSend k status) :=
  of_event rfl rfl

theorem ueWrite (k : Nat) (status : Nat) : Statement (.ueWrite k status) :=
  of_event rfl rfl

theorem ueRead (k : Nat) (status : Nat) (data : List Byte) : Statement (.ueRead k status data) :=
  of_event rfl rfl

theorem uePacketReceive (port : Nat) (die : Nat) (pa : Nat) (data : List Byte) : Statement (.uePacketReceive port die pa data) :=
  of_event rfl rfl

theorem attestationRequest (nonce : List Byte) : Statement (.attestationRequest nonce) :=
  of_event rfl rfl

theorem binnacleSample (power : Nat) (sample : DieSample) : Statement (.binnacleSample power sample) :=
  of_event rfl rfl

theorem corePowerGate (core : Nat) : Statement (.corePowerGate core) :=
  of_event rfl rfl

theorem coreWake (core : Nat) : Statement (.coreWake core) :=
  of_event rfl rfl

theorem counterClear (die : Nat) : Statement (.counterClear die) :=
  of_event rfl rfl

theorem counterFreeze (die : Nat) (on : Bool) : Statement (.counterFreeze die on) :=
  of_event rfl rfl

theorem registerWrite (pa : Nat) (v : Word) : Statement (.registerWrite pa v) :=
  of_event rfl rfl

theorem illegalInstruction (w : Word) (reason : BitVec 8) : Statement (.illegalInstruction w reason) :=
  of_event rfl rfl

theorem faultQueueHeadAdvance (ctx : Nat) (v : BitVec 32) : Statement (.faultQueueHeadAdvance ctx v) :=
  of_event rfl rfl

theorem ueCompletionTimeout (k : Nat) : Statement (.ueCompletionTimeout k) :=
  of_event rfl rfl

end Sys2Proof.Laws.Roundtrip
end

