-- ==== Sys2Proof/Safety.lean ====
section
/-! DEFINITION. The terms in which the statements are made: when a word may issue (R89, R42), what its issue leaves and what
it leaves alone (R71–R75), what a hold leaves (R71, R155), what a trap writes (R163–R169), what a word waits for, and what
the step keeps of memory. -/

namespace Sys2Proof.Machine

open Sys2Proof

/-! ## Issue -/

/-- A word's place after the granules its operands touch have been touched (R42). -/
def Here.woken (x : Here) (u : Uses) : Here := x.withTeam (x.t.wake x.s.cycle (x.t.touched u)).1

/-- Stream k of team h may issue a word that uses `u`: the checks of R89 find nothing, no scalar that an access-stream
word reads has a result of the access stream pending (R82), and no granule it touches is drowsy or waking (R42). -/
structure Here.Ready (x : Here) (m : Mods) (u : Uses) : Prop where
  cur : x.s.cur = .strand x.h x.k
  team : x.s.team? x.h = some x.t
  stream : x.k ≤ 4
  checks : x.s.check89 x.t x.k m u = none
  free : 4 ≤ x.k → x.s.interlocked x.t u = false
  awake : (x.t.wake x.s.cycle (x.t.touched u)).2 = false

/-- A strand after a word has issued: the next word's address, the strand time from which it may issue, the results in
flight (R71–R75). -/
def Strand.after (d : Strand) (m : Mods) (npc : BitVec 64) (fl : List Flight) : Strand :=
  { d with
    pc := npc, ready := d.time + spacing m, advance := true, issued := .issued, settle := false, wait := .none,
    flights := d.flights ++ fl }

/-- The team after stream k's word: its strand k is `d`, one word more is counted (R307), and nothing else of it changed;
the other strands stand as they did. -/
structure TeamAfter (t t' : Team) (k : Nat) (d : Strand) : Prop where
  rest : t' = { t with strands := t'.strands, ctrs := t'.ctrs }
  strand : t'.strand k = d
  others : ∀ j, j ≤ 4 → j ≠ k → t'.strand j = t.strand j
  counted : t'.ctrs = vset t.ctrs 1 (vget t.ctrs 1 0 + 1)

/-- The state after a word of y's stream has issued, y being its place with the word's own changes made: team h as
`TeamAfter` says with strand k now `d`, every other team as it was, and nothing outside the team table changed; every
byte of HBM reads as it did in y. -/
structure IssuedAs (y : Here) (s' : State) (d : Strand) : Prop where
  team : ∃ t', s'.team? y.h = some t' ∧ TeamAfter y.t t' y.k d
  others : ∀ g, g ≠ y.h → s'.team? g = y.s.team? g
  rest : s' = { y.s with teams := s'.teams }
  hbm : ∀ a, Mem.get s'.hbm a = Mem.get y.s.hbm a

/-- The word issued with results `fl`, and the next word stands at `npc`. -/
def HasIssued (y : Here) (s' : State) (m : Mods) (npc : BitVec 64) (fl : List Flight) : Prop :=
  IssuedAs y s' (y.sd.after m npc fl)

/-- The word issued, ended its block, and its stream waits on `w` with its results landing first (R153, R209). -/
def WaitsOn (y : Here) (s' : State) (m : Mods) (w : Wait) : Prop :=
  IssuedAs y s' { y.sd.after m (nextPc y.pc) [] with wait := w, settle := true }

/-- The word issued with a request `q`, whose tag is the next one. A strand waits for the reply (R209), and so does the
access stream for an acquire; after any other request the access stream goes on (R82). -/
def Awaits (y : Here) (s' : State) (m : Mods) (q : Req) : Prop :=
  if y.k = 4 ∧ (deedOf q.word).acquire = false then HasIssued (y.request q).2 s' m (nextPc y.pc) []
  else WaitsOn (y.request q).2 s' m (.reply y.s.nextReq)

/-- The word did not issue: strand time stands still, the head condition is `w`, the stream's local stores are performed
(R71, R155, R298), and nothing else of the machine changed. -/
structure HeldOn (y : Here) (s' : State) (w : Wait) : Prop where
  team : ∃ t', s'.team? y.h = some t' ∧
    t' = (y.t.flushSpills y.k).setStrand y.k
      { (y.t.flushSpills y.k).strand y.k with wait := w, advance := false, issued := .held }
  others : ∀ g, g ≠ y.h → s'.team? g = y.s.team? g
  rest : s' = { y.s with teams := s'.teams }

/-! ## Traps -/

/-- The strand that has taken a trap (R163–R165): the trap registers, INH set, and the next word the one at the trap
entry point, no earlier than the next strand time. -/
def Strand.afterTrap (d : Strand) (ent : BitVec 64) (ti : TrapInfo) (pc : BitVec 64) : Strand :=
  { d with
    cause := trapCause ti d.inh, info := ti.info, trappc := trapPcBits pc,
    wait := .none, settle := false, ready := d.time + 1, advance := true, issued := .trapped ti pc, pc := ent }

/-- Strand k of y took a trap with TRAPPC `pc`: its registers as `afterTrap` says, its requests dropped, and nothing else
of the machine changed. -/
structure TrapTaken (y : Here) (s' : State) (ti : TrapInfo) (pc : BitVec 64) : Prop where
  team : ∃ t', s'.team? y.h = some t' ∧ t' = { y.t with strands := t'.strands } ∧
    t'.strand y.k = y.sd.afterTrap y.t.trapEnt ti pc ∧ ∀ j, j ≤ 4 → j ≠ y.k → t'.strand j = y.t.strand j
  others : ∀ g, g ≠ y.h → s'.team? g = y.s.team? g
  reqs : s'.reqs = y.s.reqs.filter fun e => !(e.2.h = y.h && e.2.k = y.k && y.k < 4)
  rest : s' = { y.s with teams := s'.teams, reqs := s'.reqs }

/-- The strand of y can take a trap without halting its team (R165, R169). -/
structure Here.TakesTraps (y : Here) : Prop where
  strand : y.k < 4
  team : y.s.team? y.h = some y.t
  first : y.sd.inh = false
  entry : y.t.trapEnt ≠ 0

/-! ## What words use (R37, R75, R80, R89) -/

/-- A gated scalar word with `nsrc` scalar sources, read at the type's width, and a scalar destination. -/
def Here.scalarUses (x : Here) (r : RegW) (nsrc lat : Nat) : Uses :=
  let b := typeMask r
  { opds := opdW 0 r.d 1 (x.gate0 r.pred r.pn) :: (([opdB 1 r.a 1 b, opdB 2 r.b 1 b, opdB 3 r.c 1 b] : List Opd).take nsrc),
    predR := gateReads r.pred, lat := lat, holds := x.gate0 r.pred r.pn, off := !x.gate0 r.pred r.pn }

/-- A gated word that reads scalars and predicates and writes a predicate. -/
def Here.testUses (x : Here) (r : RegW) (srcs : List Opd) (preds : List Nat) : Uses :=
  { opds := srcs, predR := gateReads r.pred ++ preds, lat := 2, holds := x.gate0 r.pred r.pn, off := !x.gate0 r.pred r.pn }

/-- A word of class Imm. -/
def immUses (r : ImmW) (srcs : List Opd) (lat : Nat) : Uses :=
  { opds := opdW 0 r.d 1 true :: srcs, lat := lat, holds := true }

/-- A word that writes one scalar, or none, from what is no register. -/
def plainUses (opds : List Opd) (lat : Nat) (holds : Bool) : Uses := { opds := opds, lat := lat, holds := holds }

/-- A per-element vector word with elements of w bytes: the bytes written are those of its enabled elements (R172). -/
def Here.elementUses (x : Here) (r : RegW) (w lat : Nat) (srcs : List Opd) : Uses :=
  { opds := ⟨0, r.d, 1, 0, elemMask w (x.enables r w (128 / w))⟩ :: srcs, predR := gateReads r.pred, lat := lat,
    holds := vectorHolds r.d (elemMask w (x.enables r w (128 / w))) }

/-- A whole-word form with a destination of n registers (R173). -/
def Here.wholeUses (x : Here) (r : RegW) (n lat : Nat) (srcs : List Opd) (fd : Option Nat) : Uses :=
  { opds := opdW 0 r.d n (x.gate0 r.pred r.pn) :: srcs, predR := gateReads r.pred, lat := lat,
    holds := x.gate0 r.pred r.pn, fd := fd, narrow := fd.isSome, off := !x.gate0 r.pred r.pn }

/-! ## Forms: what a family of words does when it may issue -/

/-- A scalar form (R137–R141): with the gate on, `f` of the three source registers lands in s[d] after `lat`; with the
gate off the word issues and does nothing. -/
def ScalarForm (c : RegW → Instr) (nsrc lat : Nat) (f : RegW → Nat → Nat → Nat → Nat × Nat) : Prop :=
  ∀ (x : Here) (r : RegW), x.Ready r.mods (x.scalarUses r nsrc lat) →
    ∃ s', exec (c r) x.s = .next s' ∧
      let y := x.woken (x.scalarUses r nsrc lat)
      let v := f r (y.t.scalar r.a).toNat (y.t.scalar r.b).toNat (y.t.scalar r.c).toNat
      HasIssued y s' r.mods (nextPc y.pc) (if y.gate0 r.pred r.pn then [y.flyScalar r.d lat v.1 v.2] else [])

/-- R138: the sources read at the type's width and sign, the exact result wrapped to the width and extended to 64 bits. -/
def typedResult (g : Nat → Bool → Int → Int → Int → Int × Nat) (r : RegW) (a b c : Nat) : Nat × Nat :=
  let w := typeBits r.ty
  let sg := typeSigned r.ty
  let v := g w sg (readAs sg w a) (readAs sg w b) (readAs sg w c)
  (extend sg w (ofSigned w v.1), v.2)

/-- R141: a w-bit pattern of the low w bits of A and B, extended to 64 bits. -/
def patternResult (g : RegW → Nat → Nat → Nat → Nat) (r : RegW) (a b _c : Nat) : Nat × Nat :=
  let w := typeBits r.ty
  (extend (typeSigned r.ty) w (g r w (a % 2 ^ w) (b % 2 ^ w)), 0)

/-- A comparison (R143): all 128 bits of p[d] become the answer after 2. -/
def CompareForm (c : RegW → Instr) (f : Nat → Int → Int → Bool) : Prop :=
  ∀ (x : Here) (r : RegW),
    let u := x.testUses r [opdB 1 r.a 1 (typeMask r), opdB 2 r.b 1 (typeMask r)] []
    x.Ready r.mods u →
    ∃ s', exec (c r) x.s = .next s' ∧
      let y := x.woken u
      let w := typeBits r.ty
      let sg := typeSigned r.ty
      let v := f w (readAs sg w (y.t.scalar r.a).toNat) (readAs sg w (y.t.scalar r.b).toNat)
      HasIssued y s' r.mods (nextPc y.pc)
        (if y.gate0 r.pred r.pn then [y.flyPred r.d.toNat 2 (if v then ones 128 else 0) (ones 128) 0] else [])

/-- A form between predicates (R144). -/
def PredForm (c : RegW → Instr) (two : Bool) (f : PredBits → PredBits → PredBits) : Prop :=
  ∀ (x : Here) (r : RegW),
    let u := x.testUses r [] (r.a.toNat :: (if two then [r.b.toNat] else []))
    x.Ready r.mods u →
    ∃ s', exec (c r) x.s = .next s' ∧
      let y := x.woken u
      HasIssued y s' r.mods (nextPc y.pc)
        (if y.gate0 r.pred r.pn then
          [y.flyPred r.d.toNat 2 (f (y.sd.pred r.a.toNat) (y.sd.pred r.b.toNat)).toNat (ones 128) 0] else [])

/-- An immediate form (R146): `f` of A, IMM and this word's address lands in s[d]. -/
def ImmForm (c : ImmW → Instr) (useA : Bool) (lat : Nat) (f : Nat → Nat → Nat → Nat) : Prop :=
  ∀ (x : Here) (r : ImmW),
    let u := immUses r (if useA then [opdR 1 r.a 1] else []) lat
    x.Ready r.mods u →
    ∃ s', exec (c r) x.s = .next s' ∧
      let y := x.woken u
      HasIssued y s' r.mods (nextPc y.pc)
        [y.flyScalar r.d lat (f (y.t.scalar r.a).toNat r.imm.toNat y.pc.toNat) 0]

/-- A branch whose condition is `taken` (R149): the next word is PC + 8 × DISP or the following one. -/
def BranchForm (c : BrW → Instr) (opds : BrW → List Opd) (preds : BrW → List Nat) (taken : Here → BrW → Bool) : Prop :=
  ∀ (x : Here) (r : BrW),
    let u : Uses := { opds := opds r, predR := preds r, lat := 2 }
    x.Ready r.mods u → x.pc.toNat % 8 = 0 →
    ∃ s', exec (c r) x.s = .next s' ∧
      let y := x.woken u
      HasIssued y s' r.mods (if taken y r then relTarget y.pc r.disp else nextPc y.pc) []

/-- A branch that writes `link` with the address of the next word and goes to `target` (R149); a target that is no
multiple of 8 is the instruction-alignment trap (R70). -/
def JumpForm (c : BrW → Instr) (opds : BrW → List Opd) (writes : Bool) (target : Here → BrW → BitVec 64) : Prop :=
  ∀ (x : Here) (r : BrW),
    let u : Uses := { opds := opds r, lat := 2, holds := writes }
    x.Ready r.mods u →
    let y := x.woken u
    ((target y r).toNat % 8 = 0 → ∃ s', exec (c r) x.s = .next s' ∧
      HasIssued y s' r.mods (target y r) (if writes then [y.flyScalar r.link 2 (nextPc y.pc).toNat 0] else [])) ∧
    ((target y r).toNat % 8 ≠ 0 → y.TakesTraps → ∃ s', exec (c r) x.s = .next s' ∧
      TrapTaken y s' { code := 0x02, info := target y r } y.pc)

/-- A wait (R152–R154): it ends the block, and its condition is `w`. -/
def WaitForm (c : WtW → Instr) (u : WtW → Uses) (w : Here → WtW → Wait) : Prop :=
  ∀ (x : Here) (r : WtW), x.Ready r.mods (u r) →
    ∃ s', exec (c r) x.s = .next s' ∧ WaitsOn (x.woken (u r)) s' r.mods (w (x.woken (u r)) r)

/-- A write of a control register by form FN (R158–R160): `v` reaches it after 3. -/
def CrWriteForm (c : SysW → Instr) (fn : Nat) (useA : Bool) : Prop :=
  ∀ (x : Here) (r : SysW),
    let u := plainUses (if useA then [opdR 1 r.a 1] else []) 3 false
    x.Ready r.mods u →
    ∃ s', exec (c r) x.s = .next s' ∧
      let y := x.woken u
      HasIssued y s' r.mods (nextPc y.pc)
        [{ land := y.sd.time + 3, dest := .creg r.cr.toNat fn, len := 8,
           data := if useA then (y.t.scalar r.a).toNat else r.imm.toNat, mask := 0xFF, flags := 0, src := none, readAt := 0 }]

/-- The registers of R45 that a read can name, but for FD0–FD15, with the value that each gives to a read by stream k: the
fields of TEAMCTL (R48) and BUFW (R51) in their places. -/
def crReads : List (Nat × (State → Team → Nat → Nat)) :=
  [(0x00, fun _ t _ => t.vs.toNat), (0x01, fun _ t _ => t.vv.toNat), (0x02, fun _ t _ => t.va.toNat),
   (0x03, fun _ t _ => t.vm.toNat),
   (0x04, fun _ t _ => t.scben.toNat + 4 * (t.strand 0).live.toNat + 8 * (t.strand 1).live.toNat
     + 16 * (t.strand 2).live.toNat + 32 * (t.strand 3).live.toNat + 64 * (t.pri % 4) + 256 * (t.regsz % 32)),
   (0x05, fun _ t _ => t.flags.toNat), (0x06, fun _ t _ => t.wid.toNat), (0x07, fun _ t _ => t.handle),
   (0x08, fun _ t _ => t.core), (0x09, fun _ _ k => k), (0x0A, fun _ t _ => t.gen.toNat), (0x0B, fun _ t _ => t.lfsr.toNat),
   (0x0C, fun s _ _ => s.cycle), (0x0D, fun s _ _ => s.meridian),
   (0x0E, fun _ t _ => t.wbg % 256 + 0x100 * (t.abg % 256) + 0x10000 * (t.cbg % 256) + 0x1000000 * (t.spg % 256)
     + 0x100000000 * (t.ntiles % 128)),
   (0x14, fun _ t k => (t.strand k).cause.toNat), (0x15, fun _ t k => (t.strand k).info.toNat),
   (0x16, fun _ t k => (t.strand k).trappc.toNat)]

/-- A view register as it is stored (R34, R35): BASE as written, COUNT at most the view's maximum, the rest 0. -/
def viewWritten (count : Nat) (v : Word) : Word := BitVec.ofNat 64 (v.toNat % 2 ^ 16 + min (v.toNat / 2 ^ 16 % 128) count * 2 ^ 16)

/-- The registers that a write can name, but for FLAGS and FD0–FD15, each with its value before and what a value stored in
it leaves (R35, R48, R124, R163, R164). -/
def crWrites : List (Nat × (Team → Nat → Word) × (Team → Nat → Word → Team)) :=
  [(0x00, fun t _ => t.vs, fun t _ v => { t with vs := viewWritten 64 v }),
   (0x01, fun t _ => t.vv, fun t _ v => { t with vv := viewWritten 56 v }),
   (0x02, fun t _ => t.va, fun t _ v => { t with va := viewWritten 16 v }),
   (0x03, fun t _ => t.vm, fun t _ v => { t with vm := viewWritten 16 v }),
   (0x04, fun t _ => BitVec.ofNat 64 t.teamctl, fun t _ v => { t with scben := v.getLsbD 0 }),
   (0x0B, fun t _ => t.lfsr.zeroExtend 64,
     fun t _ v => { t with lfsr := if v.toNat % 2 ^ 32 = 0 then 1 else BitVec.ofNat 32 v.toNat }),
   (0x14, fun t k => (t.strand k).cause, fun t k v => t.setStrand k { t.strand k with
     cause := (v &&& 0x1FFFFFFF) ||| ((t.strand k).cause &&& 0x60000000) }),
   (0x15, fun t k => (t.strand k).info, fun t k v => t.setStrand k { t.strand k with info := v }),
   (0x16, fun t k => (t.strand k).trappc,
     fun t k v => t.setStrand k { t.strand k with trappc := v &&& 0x00FFFFFFFFFFFFF8 })]

/-! ## Vector forms -/

/-- The sources' queues hold the entries to be popped and the destination's queue has room (R31, R176). -/
structure Here.Supplied (y : Here) (srcs : List (BitVec 8)) (d : Option (BitVec 8)) : Prop where
  pops : y.lacking srcs = none
  push : d.bind y.noRoom = none

/-- A vector result issued (R172, R176): in flight to the register group of d when it writes a byte of it (R75), or to a
place reserved now in a store queue, where the bytes not enabled are 0. -/
def VectorIssued (y : Here) (s' : State) (m : Mods) (d : BitVec 8) (lat len v mask fl : Nat) : Prop :=
  match pushOf d with
  | none => HasIssued y s' m (nextPc y.pc)
      (if mask = 0 then [] else
        [{ land := y.sd.time + lat, dest := .reg (y.t.regOff d), len := len, data := v, mask := mask,
           flags := flagBits fl, src := none, readAt := 0 }])
  | some q =>
    let place := vget y.t.pushes q 0 + 1
    let t := { y.t with
      sqs := vset y.t.sqs q (vget y.t.sqs q [] ++ [{ num := place, data := none }]), pushes := vset y.t.pushes q place }
    HasIssued { y with t := t } s' m (nextPc y.pc)
      [{ land := y.sd.time + lat, dest := .push q place, len := len,
         data := ofElems 1 ((List.range len).map fun i => if bit mask i then elem 1 v i else 0), mask := ones len,
         flags := flagBits fl, src := none, readAt := 0 }]

/-- A per-element form (R172): `f` of the source registers gives each enabled element and its flags. A scalar source is
named with the number of its bytes that are read. -/
def ElementForm (c : RegW → Instr) (srcs : RegW → List (Nat × BitVec 8)) (scal : RegW → List (Nat × BitVec 8 × Nat))
    (w : RegW → Nat) (lat : Nat) (f : RegW → Here → List Nat → Nat → Nat × Nat) : Prop :=
  ∀ (x : Here) (r : RegW),
    let so := (srcs r).map (fun p => opdR p.1 p.2 1) ++ (scal r).map fun p => opdB p.1 p.2.1 1 (ones p.2.2)
    let u := x.elementUses r (w r) lat
      ((so.filter fun o => o.pos = 1) ++ (so.filter fun o => o.pos = 2) ++ (so.filter fun o => o.pos = 3))
    let specs := (srcs r).map (·.2)
    x.Ready r.mods u → (x.woken u).Supplied specs (some r.d) →
    ∃ s', exec (c r) x.s = .next s' ∧
      let vs := (x.woken u).sourceValues ((srcs r).map fun p => (p.2, 1))
      let y := (x.woken u).popAll specs
      let en := y.enables r (w r) (128 / w r)
      let p := packElements (w r) (en.zipIdx.map fun e => (e.1, if e.1 then f r y vs e.2 else (0, 0)))
      VectorIssued y s' r.mods r.d lat 128 p.1 (elemMask (w r) en) p.2

/-- The first n of A, B and C with their positions. -/
def firstSources (n : Nat) (r : RegW) : List (Nat × BitVec 8) :=
  (([(1, r.a), (2, r.b), (3, r.c)] : List (Nat × BitVec 8)).take n)

/-- A form on the elements of A, B and C. -/
def LanewiseForm (c : RegW → Instr) (n lat : Nat) (w : RegW → Nat) (f : RegW → Nat → Nat → Nat → Nat × Nat) : Prop :=
  ElementForm c (firstSources n) (fun _ => []) w lat fun r _ vs i =>
    f r (elem (w r) (vs.getD 0 0) i) (elem (w r) (vs.getD 1 0) i) (elem (w r) (vs.getD 2 0) i)

/-- R179: elements read as the type's integers; the exact result wraps to the width. -/
def typedElement (g : Nat → Bool → Int → Int → Int → Int × Nat) (r : RegW) (a b c : Nat) : Nat × Nat :=
  let w := 8 * elemBytes r.ty
  let sg := typeSigned r.ty
  let v := g w sg (readAs sg w a) (readAs sg w b) (readAs sg w c)
  (ofSigned w v.1, v.2)

/-- A comparison of elements (R181, R192): the bits of each enabled element's bytes become the answer. -/
def ElementCompareForm (c : RegW → Instr) (lat : Nat) (f : RegW → Nat → Nat → Bool × Nat) : Prop :=
  ∀ (x : Here) (r : RegW),
    let w := elemBytes r.ty
    let u : Uses := { opds := [opdR 1 r.a 1, opdR 2 r.b 1], predR := gateReads r.pred, lat := lat,
                      holds := decide (elemMask w (x.enables r w (128 / w)) ≠ 0) }
    x.Ready r.mods u → (x.woken u).Supplied [r.a, r.b] none →
    ∃ s', exec (c r) x.s = .next s' ∧
      let vs := (x.woken u).sourceValues [(r.a, 1), (r.b, 1)]
      let y := (x.woken u).popAll [r.a, r.b]
      let en := y.enables r w (128 / w)
      let rs := en.zipIdx.map fun e => (e.1, f r (elem w (vs.getD 0 0) e.2) (elem w (vs.getD 1 0) e.2))
      HasIssued y s' r.mods (nextPc y.pc)
        (if elemMask w en = 0 then [] else
          [y.flyPred r.d.toNat lat (elemMask w (rs.map fun e => e.1 && e.2.1)) (elemMask w en)
            (orAll (rs.map fun e => if e.1 then e.2.2 else 0))])

/-- A whole-word form from a vector register to a scalar (R173, R182, R184, R193); its pop is made with the gate off too
(R176). -/
def ToScalarForm (c : RegW → Instr) (scal : RegW → List (Nat × BitVec 8)) (lat : Nat)
    (f : RegW → Here → Nat → Nat × Nat) : Prop :=
  ∀ (x : Here) (r : RegW),
    let u := x.wholeUses r 1 lat (opdR 1 r.a 1 :: (scal r).map fun p => opdR p.1 p.2 1) none
    x.Ready r.mods u → (x.woken u).Supplied [r.a] none →
    ∃ s', exec (c r) x.s = .next s' ∧
      let vs := (x.woken u).sourceValues [(r.a, 1)]
      let y := (x.woken u).popAll [r.a]
      HasIssued y s' r.mods (nextPc y.pc)
        (if y.gate0 r.pred r.pn then [y.flyScalar r.d lat (f r y (vs.getD 0 0)).1 (f r y (vs.getD 0 0)).2] else [])

/-- A floating-point arithmetic form (R189, R190): one rounding for each enabled element in the opcode's mode. -/
def FloatForm (c : RegW → Instr) (n lat : Nat) (f : Fmt → Mode → Nat → Nat → Nat → Nat × Nat) : Prop :=
  ∀ (x : Here) (r : RegW),
    let w := elemBytes r.ty
    let u := x.elementUses r w lat ((firstSources n r).map fun p => opdR p.1 p.2 1)
    let specs := (firstSources n r).map (·.2)
    x.Ready r.mods u → (x.woken u).Supplied specs (some r.d) →
    ∃ s', exec (c r) x.s = .next s' ∧
      let vs := (x.woken u).sourceValues ((firstSources n r).map fun p => (p.2, 1))
      let z := (x.woken u).popAll specs
      let en := z.enables r w (128 / w)
      let ms := (z.elementModes (r.op.toNat - 0x80) en).1
      let y := (z.elementModes (r.op.toNat - 0x80) en).2
      let p := packElements w ((en.zip ms).zipIdx.map fun e =>
        (e.1.1, if e.1.1 then
          f (fmtOfType r.ty.toNat) e.1.2 (elem w (vs.getD 0 0) e.2) (elem w (vs.getD 1 0) e.2) (elem w (vs.getD 2 0) e.2)
        else (0, 0)))
      VectorIssued y s' r.mods r.d lat 128 p.1 (elemMask w en) p.2

/-- Results that land on a byte of the register allocation, and what each puts there (R74). -/
def Flight.covers (f : Flight) (a : Nat) : Prop :=
  ∃ off, f.dest = .reg off ∧ off ≤ a ∧ a < off + f.len ∧ f.mask.testBit (a - off) = true

/-! ## Memory words -/

/-- R206, R293: the address of an access passes its checks, and the granules of SP that hold bytes it enables are
present. -/
structure Here.Passes (y : Here) (r : MemW) (ea width align mask : Nat) : Prop where
  canonical : r.space = 0 → MemW.remote r = false → isCanon ea = true
  aligned : ea % align = 0
  window : r.space ≠ 0 → MemW.remote r = false → ea + width ≤ y.t.windowSize (bufOfSpace r.space.toNat)
  present : r.space = 1 → MemW.remote r = false → y.t.missing ea width mask = none

/-- R212, R213, R319: a local access may be made in this cycle: what it must follow is performed, and the banks it needs
are free (log entry 75). -/
structure Here.MayAccess (y : Here) (r : MemW) (b : Buf) (ea width mask : Nat) : Prop where
  ready : y.localReady r ea width = true
  banks : y.banksFree r.mods b ea width mask = true

/-- The place after a local access has taken its banks. -/
def Here.banked (y : Here) (m : Mods) (b : Buf) (off len mask : Nat) : Here :=
  { y with s := y.s.modCore y.t.core fun c =>
      { c with bankUse := c.bankUse ++ y.t.bankUses y.s.cycle m.sync b off len mask } }

/-- What a memory word uses: its D operand, its BASE, a latency when its result is in flight at issue. -/
def memUses (r : MemW) (d : List Opd) (gated : Bool) (lat : Nat) (holds : Bool) (scope : Option Nat) : Uses :=
  { opds := d ++ [baseOpd r], predR := if gated then gateReads r.pred else [], lat := lat, holds := holds, scope := scope }

/-- The same of a word that its gate turns on or off as a whole (R207). -/
def gatedUses (r : MemW) (d : List Opd) (lat : Nat) (holds : Bool) (scope : Option Nat) (on : Bool) : Uses :=
  { memUses r d true lat holds scope with off := !on }

/-- The result of a local load in flight: `width` bytes of the window from `off`, read one unit after issue (R208). -/
def Here.loadFlight (y : Here) (r : MemW) (off width len mask lat : Nat) (sx : Bool) : Flight :=
  { land := y.sd.time + lat, dest := .reg (y.t.regOff r.d), len := len, data := 0, mask := mask, flags := 0,
    src := some { buf := bufOfSpace r.space.toNat, off := off, width := width, sx := sx }, readAt := y.sd.time + 1 }

/-- The place after a local store has been put in the strand's spill forwarding table, to be performed 3 units later
(R208, R297); `logs` the scope entries of the releases that are logged when it is performed (R332). -/
def Here.spilled (y : Here) (r : MemW) (off width data mask : Nat) (logs : List Nat := []) : Here :=
  { y with t := y.t.setStrand y.k { y.sd with
      spills := y.sd.spills ++ [{ perform := y.sd.time + 3, buf := bufOfSpace r.space.toNat, off := off, len := width,
                                  data := data, mask := mask, logs := logs }] } }

/-- R70, R204, R206: the first check that the address of an access of `width` bytes fails, and its fault (R205). -/
inductive Here.AddressFault (y : Here) (r : MemW) (ea width align : Nat) : TrapInfo → Prop
  | noncanonical : r.space = 0 → MemW.remote r = false → isCanon ea = false →
      y.AddressFault r ea width align { code := 0x13, info := BitVec.ofNat 64 ea }
  | misaligned : (r.space = 0 → MemW.remote r = false → isCanon ea = true) → ea % align ≠ 0 →
      y.AddressFault r ea width align { code := 0x10, info := BitVec.ofNat 64 ea }
  | outside : r.space ≠ 0 → MemW.remote r = false → ea % align = 0 →
      y.t.windowSize (bufOfSpace r.space.toNat) < ea + width →
      y.AddressFault r ea width align { code := 0x11, reason := r.space.toNat, info := BitVec.ofNat 64 ea }

/-- The word traps with `ti`: a strand's takes its trap (R165); one of the access stream halts the team, with the trap
registers of the lowest-numbered live strand written, SRC 1 (R169). -/
structure Here.TrapsWith (y : Here) (s' : State) (ti : TrapInfo) : Prop where
  strand : y.TakesTraps → TrapTaken y s' ti y.pc
  stream : y.k = 4 → y.s.team? y.h = some y.t → ∃ t', s'.team? y.h = some t' ∧ t'.halted = true ∧ t'.accStopped = true ∧
    (y.t.halted = false →
      (t'.strand y.t.lowest).cause = trapCause { ti with src := 1 } (y.t.strand y.t.lowest).inh ∧
      (t'.strand y.t.lowest).info = ti.info ∧ (t'.strand y.t.lowest).trappc = trapPcBits y.pc)

/-- A word whose access is aligned to `align r` traps when its address fails a check (R204–R206). -/
def AddressTrapForm (c : MemW → Instr) (use : Here → MemW → Uses) (align : MemW → Nat) (ok : Here → MemW → Prop) : Prop :=
  ∀ (x : Here) (r : MemW) (ti : TrapInfo), x.Ready r.mods (use x r) →
    let y := x.woken (use x r)
    ok y r → y.AddressFault r (y.address r) (deedOf (c r)).width (align r) ti →
    ∃ s', exec (c r) x.s = .next s' ∧ y.TrapsWith s' ti

/-- The request of a remote form (R202, R205, R209), which becomes a message to the core of its handle once the writes of
its core numbered below `upto`, its own and those numbered below `acq`, are performed (R229, R322). -/
def remoteReq (i : Instr) (handle ea v mask dest upto acq : Nat) : Req :=
  { Req.of i ea dest with x := v, mask := mask, handle := handle, upto := upto, acq := acq }

/-- R319: no local store that a release fence puts first is left, and for the access stream no earlier access of these bytes
is on its way (R213). -/
structure Here.MayPost (y : Here) (ea width : Nat) : Prop where
  spills : ∀ p ∈ y.sd.spills, p.fenced = false
  stream : 4 ≤ y.k → y.s.accessMeets y.h y.s.nextReq (none, bits ea 0 56, width) = false

/-- R318, R319: nothing of the stream's own keeps a release back: its local stores are performed, and the access stream's
accesses. -/
structure Here.MayRelease (y : Here) : Prop where
  spills : y.sd.spills = []
  stream : y.accessBusy = false

/-- R218, R318, R319: a local full/empty word waits for no local store of its stream: a release for none at all, any other
for none that meets its bytes. -/
def Here.FeFree (y : Here) (d : Deed) (ea : Nat) : Prop :=
  if d.releases = true then y.MayRelease
  else ∀ p ∈ y.sd.spills, p.buf = .sp → ea + d.width ≤ p.off ∨ p.off + p.len ≤ ea

/-- The place after one more remote SP access has been counted (R307). -/
def Here.remoteCounted (y : Here) : Here := y.withTeam (y.t.count 8 1)

/-- R331, R336, R323: a release fence at scope entry sc need not hold: an entry that it writes has room, and the counter of its
die does not lead too far. -/
structure Here.MayFence (y : Here) (sc : Nat) : Prop where
  room : sc ≤ 1 → y.s.logIsFull y.t.core = false
  lead : y.leadHeld (y.s.scopeWide y.t sc) = false

/-- The place after a release fence at scope entry sc (R229, R319, R323, R332). At entries 0 and 1 the strand's later writes
follow its earlier ones, and the promotion log gets an entry: now, or with the last of the strand's local stores that are
still to be performed. At a wider one the strand's later accesses follow what happens before the fence, and its stores
carry the fence's tag. -/
def Here.fenced (y : Here) (sc : Nat) : Here :=
  if sc ≤ 1 then
    let sd := { y.sd.fenceSpills with relOwn := (y.s.core y.t.core).nextNum }
    if y.sd.spills = [] then { y with s := y.s.logRelease y.t sc }.withTeam (y.t.setStrand y.k sd)
    else y.withTeam (y.t.setStrand y.k (sd.logSpill sc))
  else
    let wide := y.s.scopeWide y.t sc
    let z := (y.tagRelease wide).2
    z.withTeam (z.t.setStrand z.k { z.sd.fenceSpills with
      relUpto := (y.s.core y.t.core).nextNum, relAcq := z.sd.acqUpto,
      relTag := if wide then (y.tagRelease wide).1 else z.sd.relTag })

/-! ## Engine commands -/

/-- The engine of queue q is to perform the effect of the command c in progress there (R245, R253). -/
structure Eng.Performs (e : Eng) (c : Cmd) : Prop where
  cur : e.s.cur = .engine e.h e.q
  team : e.s.team? e.h = some e.t
  queue : e.x = e.t.queue e.q
  prog : e.x.prog = some e.p
  cmd : e.p.cmd = c
  started : e.p.phase = .started

/-- The effect of the command has been performed: team h is `t` with the command in progress changed by `f` and marked
performed; every other team is as in b, and nothing outside the team table differs from b. -/
structure Effect (b s' : State) (h q : Nat) (t : Team) (f : Prog → Prog) : Prop where
  team : s'.team? h = some (t.setQueue q { t.queue q with
    prog := (t.queue q).prog.map fun p => { f p with phase := .performed, fetched := [] } })
  others : ∀ g, g ≠ h → s'.team? g = b.team? g
  rest : s' = { b with teams := s'.teams }

/-- The granules of SP that the tiles reach are present (R293). -/
def Eng.TilesPresent (e : Eng) (ns : List Nat) : Prop :=
  ∀ n ∈ ns, ∀ x, e.p.tiles[n]? = some x → e.t.tileMissing x (vget e.p.fds x.fd 0) = none

/-- A command whose effect changes the team to `t` and the command in progress by `f`; its output is then posted (R248). -/
def CommandForm (c : Cmd → Instr) (ok : Eng → Cmd → Prop) (t : Eng → Cmd → Team) (f : Eng → Cmd → Prog → Prog) : Prop :=
  ∀ (e : Eng) (k : Cmd), e.Performs k → ok e k →
    ∃ s1, exec (c k) e.s = .next (s1.drainOut e.h e.q) ∧ Effect e.s s1 e.h e.q (t e k) (f e k)

/-- A release by the command need not wait (R323). -/
def Eng.MayRelease (e : Eng) (sc : Nat) : Prop := e.s.scopeWide e.t sc = true → e.s.leadOk (dieOf e.t.core) = true

/-- The machine after a release at scope entry sc: a wide one is a tagged event (R323). -/
def Eng.released (e : Eng) (sc : Nat) : State := if e.s.scopeWide e.t sc then (e.s.tagPath e.t.core).2 else e.s

/-- The tag of that event. -/
def Eng.releaseTag (e : Eng) (sc : Nat) : Option (Nat × Vector (BitVec 16) 4) :=
  if e.s.scopeWide e.t sc then some (e.s.tagPath e.t.core).1 else none

/-- A command that is performed at a scope changes the command in progress by `f`; its output is then posted (R248, R270). -/
def ScopedCommandForm (c : Cmd → Instr) (ok : Eng → Cmd → Prop) (f : Eng → Cmd → Prog → Prog) : Prop :=
  ∀ (e : Eng) (k : Cmd), e.Performs k → ok e k → e.MayRelease (cmdScope k) →
    ∃ s1, exec (c k) e.s = .next (s1.drainOut e.h e.q) ∧ Effect (e.released (cmdScope k)) s1 e.h e.q e.t (f e k)

/-- Nothing of the command is left to be sent or awaited, no write of the team's queues is in its core's path, and the command
is the one at the head of its queue, of code `code`. -/
structure Eng.Clear (e : Eng) (k : Cmd) (code : BitVec 8) : Prop where
  code : k.cmd = code
  queue : e.q < 3 ∧ e.t.handle = e.h ∧ e.x.chain = none ∧ e.x.fixups = []
  left : e.p.out = [] ∧ e.p.reds = [] ∧ e.p.asked = [] ∧ e.p.awaits = 0 ∧ e.p.work = 0 ∧ e.p.noise = none
  path : ∀ w ∈ (e.s.core e.t.core).path, w.h = e.h → w.k < 5 ∨ 8 ≤ w.k

/-- In s' the command is at its end: ENGINE_CMD_COMPLETE takes it out of its queue, its SIGNAL takes effect on a slot, and a
`notify` with FINAL closes the queue (R93, R247, R273). -/
def Eng.Ends (e : Eng) (k : Cmd) (s' : State) : Prop :=
  ∃ s2 t2, exec (.engineCmdComplete e.h e.q) s' = .next s2 ∧ s2.team? e.h = some t2 ∧
    (t2.queue e.q).prog = none ∧ (t2.queue e.q).cmds = e.x.cmds.drop 1 ∧
    (t2.queue e.q).closed = (e.x.closed || (k.cmd = 0xF0 && flag k 0)) ∧
    t2.slotNow = e.t.slotNow ++ (if 1 ≤ k.signal.toNat ∧ k.signal.toNat < 64 then [.add k.signal.toNat 1] else [])

/-! ## What an event of a unit changes -/

/-- From s to s' only team h changed: it is `t` now. -/
structure TeamIs (s s' : State) (h : Nat) (t : Team) : Prop where
  team : s'.team? h = some t
  others : ∀ g, g ≠ h → s'.team? g = s.team? g
  rest : s' = { s with teams := s'.teams }

/-- From s to s' only core c changed: it is `x` now. -/
structure CoreIs (s s' : State) (c : Nat) (x : Core) : Prop where
  core : s'.core c = x
  others : ∀ d, d ≠ c → s'.core d = s.core d
  rest : s' = { s with cores := s'.cores }

/-- From s to s' only context c changed: it is `x` now. -/
structure CtxIs (s s' : State) (c : Nat) (x : Context) : Prop where
  ctx : s'.ctx? c = some x
  others : ∀ d, d ≠ c → s'.ctx? d = s.ctx? d
  rest : s' = { s with contexts := s'.contexts }

/-- From s to s' only launch n changed: it is `l` now. -/
structure LaunchIs (s s' : State) (n : Nat) (l : Launch) : Prop where
  launch : s'.launch? n = some l
  others : ∀ m, m ≠ n → s'.launch? m = s.launch? m
  rest : s' = { s with launches := s'.launches }

/-- From s to s' only request n changed: it is `q` now. -/
structure ReqIs (s s' : State) (n : Nat) (q : Req) : Prop where
  req : s'.req? n = some q
  others : ∀ m, m ≠ n → s'.req? m = s.req? m
  rest : s' = { s with reqs := s'.reqs }

/-- Of what waits on a fault record, no instruction fetch, fill, write-back, claim, posted write or course read does: what is left
are words of streams, engine commands and units (R394). -/
def State.OnlyWords (s : State) (ctx serial : Nat) : Prop :=
  (∀ e ∈ s.claims, e.2.serial ≠ some serial) ∧
  (∀ e ∈ s.teams, handleCtx e.1 = ctx → (∀ k ≤ 4, (e.2.strand k).wait ≠ .fetch serial) ∧ e.2.wbSerial ≠ some serial ∧
    ∀ f ∈ e.2.fills, f.serial ≠ some serial) ∧
  (∀ e ∈ s.cores, ∀ p ∈ e.2.path, p.target ≠ .fault serial) ∧
  ∀ c, s.ctx? ctx = some c → ∀ e ∈ c.courses, e.2.serial ≠ some serial

/-! ## Memories (R7, R61) -/

/-- The memories of a team stand in their canonical form: registers, typed windows, SP window, full/empty bits. -/
def Team.MemOk (t : Team) : Prop :=
  t.regs.wf = true ∧ t.wb.wf = true ∧ t.ab.wf = true ∧ t.cb.wf = true ∧ t.sp.wf = true ∧ t.fe.wf = true

/-- Every memory of the machine stands in its canonical form. -/
def State.MemOk (s : State) : Prop := s.hbm.wf = true ∧ ∀ e ∈ s.teams, e.2.MemOk

end Sys2Proof.Machine
end

