-- ==== Sys2Proof/Certificates/Slice0/Obligations.lean ====
section
/-! DEFINITION. The statements for the provers. Each docstring names the rules of spec/ that it formalises. In the statements
about a word, `x` is the place of a stream that presents it, `Ready` the conditions of R89 under which it issues (for the
operands the word names), and `y` the same place with the granules it touches marked (R42); `HasIssued` says what the next
state is, and that nothing else changed. -/

open Sys2Proof Sys2Proof.Machine

/-! ## Scalar words -/

/-- R138–R142: the integer register forms. Arithmetic is the exact integer wrapped to the type's width and extended; the
saturating forms clamp and set ISAT; a division by 0 gives 0, a remainder by 0 gives A, and both set DZ; no other form sets
a flag. Bitwise forms and `mov` act on 64 bits; shifts, rotates, counts and reversals on the type's w-bit pattern. `sel`
writes A where bit 0 of its predicate selects it and B otherwise, and its predicate never gates it. -/
def Obligations.ScalarRegisterForms : Prop :=
  (ScalarForm .add 2 2 (typedResult fun _ _ a b _ => (a + b, 0)) ∧
   ScalarForm .sub 2 2 (typedResult fun _ _ a b _ => (a - b, 0)) ∧
   ScalarForm .adds 2 2 (typedResult fun w sg a b _ =>
     (max (typeMin sg w) (min (typeMax sg w) (a + b)), if typeMin sg w ≤ a + b ∧ a + b ≤ typeMax sg w then 0 else fISAT)) ∧
   ScalarForm .subs 2 2 (typedResult fun w sg a b _ =>
     (max (typeMin sg w) (min (typeMax sg w) (a - b)), if typeMin sg w ≤ a - b ∧ a - b ≤ typeMax sg w then 0 else fISAT)) ∧
   ScalarForm .min 2 2 (typedResult fun _ _ a b _ => (if a ≤ b then a else b, 0)) ∧
   ScalarForm .max 2 2 (typedResult fun _ _ a b _ => (if a ≤ b then b else a, 0)) ∧
   ScalarForm .abs 1 2 (typedResult fun _ _ a _ _ => (|a|, 0)) ∧
   ScalarForm .neg 1 2 (typedResult fun _ _ a _ _ => (0 - a, 0)) ∧
   ScalarForm .mul 2 4 (typedResult fun _ _ a b _ => (a * b, 0)) ∧
   ScalarForm .mulh 2 4 (typedResult fun w _ a b _ => ((a * b) / (2 : Int) ^ w, 0)) ∧
   ScalarForm .div 2 12 (typedResult fun _ _ a b _ => if b = 0 then (0, fDZ) else (Int.tdiv a b, 0)) ∧
   ScalarForm .rem 2 12 (typedResult fun _ _ a b _ => if b = 0 then (a, fDZ) else (Int.tmod a b, 0)) ∧
   ScalarForm .mad 3 4 (typedResult fun _ _ a b c => (a * b + c, 0))) ∧
  (ScalarForm .and 2 2 (fun _ a b _ => (a &&& b, 0)) ∧
   ScalarForm .or 2 2 (fun _ a b _ => (a ||| b, 0)) ∧
   ScalarForm .xor 2 2 (fun _ a b _ => (a ^^^ b, 0)) ∧
   ScalarForm .andn 2 2 (fun _ a b _ => (a &&& (b ^^^ (2 ^ 64 - 1)), 0)) ∧
   ScalarForm .not 1 2 (fun _ a _ _ => (a ^^^ (2 ^ 64 - 1), 0)) ∧
   ScalarForm .mov 1 2 (fun _ a _ _ => (a, 0))) ∧
  (∀ (x : Here) (r : RegW),
     let u : Uses :=
       { opds := [opdW 0 r.d 1 true, opdR 1 r.a 1, opdR 2 r.b 1], predR := gateReads r.pred, lat := 2, holds := true }
     x.Ready r.mods u →
     ∃ s', exec (.sel r) x.s = .next s' ∧
       let y := x.woken u
       HasIssued y s' r.mods (nextPc y.pc)
         [y.flyScalar r.d 2 (if y.gate0 r.pred r.pn then (y.t.scalar r.a).toNat else (y.t.scalar r.b).toNat) 0]) ∧
  (ScalarForm .shl 2 2 (patternResult fun _ w a b => a * 2 ^ (b % w) % 2 ^ w) ∧
   ScalarForm .shr 2 2 (patternResult fun r w a b =>
     if typeSigned r.ty then ofSigned w (toSigned w a / (2 : Int) ^ (b % w)) else a / 2 ^ (b % w)) ∧
   ScalarForm .rotl 2 2 (patternResult fun _ w a b => ((a <<< (b % w)) ||| (a >>> (w - b % w))) % 2 ^ w) ∧
   ScalarForm .rotr 2 2 (patternResult fun _ w a b => rotlPat w a (w - b % w)) ∧
   ScalarForm .clz 1 2 (patternResult fun _ w a _ => if a = 0 then w else w - 1 - Nat.log2 a) ∧
   ScalarForm .ctz 1 2 (patternResult fun _ w a _ => ((List.range w).find? fun i => a.testBit i).getD w) ∧
   ScalarForm .popc 1 2 (patternResult fun _ w a _ => ((List.range w).filter fun i => a.testBit i).length) ∧
   ScalarForm .brev 1 2 (patternResult fun _ w a _ => brevPat w a) ∧
   ScalarForm .bswap 1 2 (patternResult fun _ w a _ => bswapPat w a))

/-- R143: comparisons; `tst` and `ntst` compare A AND B with 0. R144, R145: forms between predicates, and between a half of
a predicate and a scalar; the half that `pset` does not name keeps its value (its bits are not enabled in the result). -/
def Obligations.ScalarComparisons : Prop :=
  (CompareForm .cmpEq (fun _ a b => a = b) ∧
   CompareForm .cmpNe (fun _ a b => a ≠ b) ∧
   CompareForm .cmpLt (fun _ a b => a < b) ∧
   CompareForm .cmpLe (fun _ a b => a ≤ b) ∧
   CompareForm .cmpGt (fun _ a b => b < a) ∧
   CompareForm .cmpGe (fun _ a b => b ≤ a) ∧
   CompareForm .cmpTst (fun w a b => ofSigned w a &&& ofSigned w b ≠ 0) ∧
   CompareForm .cmpNtst (fun w a b => ofSigned w a &&& ofSigned w b = 0)) ∧
  (PredForm .pand true (fun a b => a &&& b) ∧
   PredForm .por true (fun a b => a ||| b) ∧
   PredForm .pxor true (fun a b => a ^^^ b) ∧
   PredForm .pandn true (fun a b => a &&& ~~~b) ∧
   PredForm .pnot false (fun a _ => ~~~a) ∧
   PredForm .pmov false (fun a _ => a) ∧
   (∀ e ∈ ([(Instr.pgetLo, 0), (Instr.pgetHi, 64)] : List ((RegW → Instr) × Nat)), ∀ (x : Here) (r : RegW),
     let u : Uses :=
       { opds := [opdW 0 r.d 1 (x.gate0 r.pred r.pn)], predR := gateReads r.pred ++ [r.a.toNat], lat := 2,
         holds := x.gate0 r.pred r.pn, off := !x.gate0 r.pred r.pn }
     x.Ready r.mods u →
     ∃ s', exec (e.1 r) x.s = .next s' ∧
       let y := x.woken u
       HasIssued y s' r.mods (nextPc y.pc)
         (if y.gate0 r.pred r.pn then [y.flyScalar r.d 2 (bits (y.sd.pred r.a.toNat).toNat e.2 64) 0] else [])) ∧
   (∀ e ∈ ([(Instr.psetLo, 0), (Instr.psetHi, 64)] : List ((RegW → Instr) × Nat)), ∀ (x : Here) (r : RegW),
     let u := x.testUses r [opdR 1 r.a 1] []
     x.Ready r.mods u →
     ∃ s', exec (e.1 r) x.s = .next s' ∧
       let y := x.woken u
       HasIssued y s' r.mods (nextPc y.pc)
         (if y.gate0 r.pred r.pn then
           [y.flyPred r.d.toNat 2 ((y.t.scalar r.a).toNat <<< e.2) (ones 64 <<< e.2) 0] else [])))

/-- R146–R148: immediate and address forms; IMM is sign-extended but for shifts and `movhi`, and an address form's result is
canonical. `leax` adds a second scalar, named by IMM bits 7:0, shifted left by bits 13:8. -/
def Obligations.ImmediateWords : Prop :=
  ImmForm .addi true 2 (fun a i _ => a + sxt 32 i) ∧
  ImmForm .andi true 2 (fun a i _ => a &&& sxt 32 i) ∧
  ImmForm .ori true 2 (fun a i _ => a ||| sxt 32 i) ∧
  ImmForm .xori true 2 (fun a i _ => a ^^^ sxt 32 i) ∧
  ImmForm .shli true 2 (fun a i _ => a * 2 ^ (i % 64)) ∧
  ImmForm .shri true 2 (fun a i _ => a / 2 ^ (i % 64)) ∧
  ImmForm .srai true 2 (fun a i _ => ofSigned 64 (toSigned 64 a / (2 : Int) ^ (i % 64 % 64))) ∧
  ImmForm .movi false 2 (fun _ i _ => sxt 32 i) ∧
  ImmForm .movhi true 2 (fun a i _ => i * 2 ^ 32 + a % 2 ^ 32) ∧
  ImmForm .muli true 4 (fun a i _ => a * sxt 32 i) ∧
  ImmForm .lea true 2 (fun a i _ => canon (a + sxt 32 i)) ∧
  ImmForm .lpc false 2 (fun _ i pc => canon (pc + sxt 32 i)) ∧
  (∀ (x : Here) (r : ImmW),
    let second := r.imm.extractLsb' 0 8
    let u := immUses r [opdR 1 r.a 1, opdR 3 second 1] 2
    x.Ready r.mods u →
    ∃ s', exec (.leax r) x.s = .next s' ∧
      let y := x.woken u
      HasIssued y s' r.mods (nextPc y.pc)
        [y.flyScalar r.d 2 (canon ((y.t.scalar r.a).toNat + (y.t.scalar second).toNat * 2 ^ bits r.imm.toNat 8 6)) 0])

/-! ## Control -/

/-- R149: conditional and unconditional branches. A is compared with 0 as a signed number; `bp` and `bnp` read bit 0 of
predicate A. R70, R149, R150: calls and register jumps, and the trap of a target that is not a multiple of 8; `loop` counts
A down and goes on until the new value is 0. -/
def Obligations.Branches : Prop :=
  (BranchForm .b (fun _ => []) (fun _ => []) (fun _ _ => true) ∧
   BranchForm .beq (fun r => [opdR 1 r.a 1]) (fun _ => []) (fun y r => y.t.scalar r.a == 0) ∧
   BranchForm .bne (fun r => [opdR 1 r.a 1]) (fun _ => []) (fun y r => y.t.scalar r.a != 0) ∧
   BranchForm .blt (fun r => [opdR 1 r.a 1]) (fun _ => []) (fun y r => toSigned 64 (y.t.scalar r.a).toNat < 0) ∧
   BranchForm .ble (fun r => [opdR 1 r.a 1]) (fun _ => []) (fun y r => toSigned 64 (y.t.scalar r.a).toNat ≤ 0) ∧
   BranchForm .bgt (fun r => [opdR 1 r.a 1]) (fun _ => []) (fun y r => 0 < toSigned 64 (y.t.scalar r.a).toNat) ∧
   BranchForm .bge (fun r => [opdR 1 r.a 1]) (fun _ => []) (fun y r => 0 ≤ toSigned 64 (y.t.scalar r.a).toNat) ∧
   BranchForm .bp (fun _ => []) (fun r => [r.a.toNat]) (fun y r => (y.sd.pred r.a.toNat).getLsbD 0) ∧
   BranchForm .bnp (fun _ => []) (fun r => [r.a.toNat]) (fun y r => !(y.sd.pred r.a.toNat).getLsbD 0)) ∧
  (JumpForm .call (fun r => [opdW 0 r.link 1 true]) true (fun y r => relTarget y.pc r.disp) ∧
   JumpForm .jr (fun r => [opdR 1 r.a 1]) false (fun y r => y.t.scalar r.a &&& 0x00FFFFFFFFFFFFFF) ∧
   JumpForm .callr (fun r => [opdW 0 r.link 1 true, opdR 1 r.a 1]) true
     (fun y r => y.t.scalar r.a &&& 0x00FFFFFFFFFFFFFF) ∧
   (∀ (x : Here) (r : BrW),
     let u : Uses := { opds := [⟨1, r.a, 1, 0xFF, 0xFF⟩], lat := 2, holds := true }
     x.Ready r.mods u → x.pc.toNat % 8 = 0 →
     ∃ s', exec (.loop r) x.s = .next s' ∧
       let y := x.woken u
       let v := y.t.scalar r.a - 1
       HasIssued y s' r.mods (if v = 0 then nextPc y.pc else relTarget y.pc r.disp) [y.flyScalar r.a 2 v.toNat 0]))

/-- R87, R152–R157: `nop` only issues; a wait issues and ends the block with its condition, `wait.q` with the accept
sequence number of its queue at issue and `wait.mer` with the time in A; `exit` issues and its stream issues no further
word. -/
def Obligations.NopWaitsAndExit : Prop :=
  (∀ (x : Here) (r : RegW), x.Ready r.mods {} →
    ∃ s', exec (.nop r) x.s = .next s' ∧ HasIssued (x.woken {}) s' r.mods (nextPc x.pc) []) ∧
  WaitForm .waitSig (fun _ => {}) (fun _ r => .sig (r.arg.toNat % 64)) ∧
  WaitForm .waitTile (fun r => { tile := some (r.arg.toNat % 64) }) (fun _ r => .tile (r.arg.toNat % 64)) ∧
  WaitForm .waitQ (fun _ => {}) (fun y r => .queue (r.arg.toNat % 4) (y.t.queue (r.arg.toNat % 4)).accept) ∧
  WaitForm .waitMer (fun r => { opds := [opdR 1 r.a 1] }) (fun y r => .mer (y.t.scalar r.a)) ∧
  WaitForm .yield (fun _ => {}) (fun _ _ => .yield) ∧
  (∀ (x : Here) (r : WtW), x.Ready r.mods {} →
    ∃ s', exec (.exit r) x.s = .next s' ∧
      let y := x.woken {}
      IssuedAs y s' { y.sd.after r.mods (nextPc y.pc) [] with exiting := true, settle := true })

/-- R45, R48, R51, R158, R160, R161, R307: a read of a control register, or of a team counter, completes with the register's
value at issue, which lands after 3: each register as the tables of R45, R48 and R51 lay it out, 0 for a counter number from
14 on. R158–R160: a write in each of its forms completes, and reaches the register after 3. R35, R48, R124, R159, R163, R164,
R371: when it lands the register takes its value under the form and its field rules, and nothing else of the machine
changes. -/
def Obligations.ControlRegisterWords : Prop :=
  (∀ e ∈ crReads, ∀ (x : Here) (r : SysW), r.cr.toNat = e.1 →
    let u := plainUses [opdW 0 r.d 1 true] 3 true
    x.Ready r.mods u →
    ∃ s', exec (.crr r) x.s = .next s' ∧
      let y := x.woken u
      HasIssued y s' r.mods (nextPc y.pc) [y.flyScalar r.d 3 (e.2 y.s y.t y.k) 0]) ∧
  (∀ (x : Here) (r : SysW), 0x20 ≤ r.cr.toNat → r.cr.toNat ≤ 0x2F →
    let u := plainUses [opdW 0 r.d 1 true] 3 true
    x.Ready r.mods u →
    ∃ s', exec (.crr r) x.s = .next s' ∧
      let y := x.woken u
      HasIssued y s' r.mods (nextPc y.pc) [y.flyScalar r.d 3 (vget y.t.fds (r.cr.toNat - 0x20) 0).toNat 0]) ∧
  CrWriteForm .crw 1 true ∧ CrWriteForm .crs 2 true ∧ CrWriteForm .crc 3 true ∧ CrWriteForm .crwi 4 false ∧
  (∀ (x : Here) (r : SysW),
    let u := plainUses [opdW 0 r.d 1 true] 3 true
    x.Ready r.mods u →
    ∃ s', exec (.ctrr r) x.s = .next s' ∧
      let y := x.woken u
      let n := r.imm.toNat % 32
      HasIssued y s' r.mods (nextPc y.pc) [y.flyScalar r.d 3 (if n < 14 then (vget y.t.ctrs n 0).toNat else 0) 0]) ∧
  (∀ e ∈ crWrites, ∀ (s : State) (h k fn : Nat) (t : Team) (f : Flight), k ≤ 4 → s.team? h = some t →
    (t.strand k).exiting = false → ((t.strand k).flights.filter fun f => f.land ≤ (t.strand k).time) = [f] →
    f.dest = .creg e.1 fn → f.flags = 0 → 1 ≤ fn → fn ≤ 4 →
    let t0 := t.setStrand k { t.strand k with flights := (t.strand k).flights.filter fun f => (t.strand k).time < f.land }
    let a := BitVec.ofNat 64 f.data
    let old := e.2.1 t k
    ∃ s', exec (.resultLands h k) s = .next s' ∧
      TeamIs s s' h (e.2.2 t0 k (if fn = 2 then old ||| a else if fn = 3 then old &&& ~~~a else a))) ∧
  (∀ (s : State) (h k n fn : Nat) (t : Team) (f : Flight), k ≤ 4 → s.team? h = some t → n < 16 →
    (t.strand k).exiting = false → ((t.strand k).flights.filter fun f => f.land ≤ (t.strand k).time) = [f] →
    f.dest = .creg (0x20 + n) fn → f.flags = 0 → 1 ≤ fn → fn ≤ 4 →
    let t0 := t.setStrand k { t.strand k with flights := (t.strand k).flights.filter fun f => (t.strand k).time < f.land }
    let a := BitVec.ofNat 64 f.data
    let old := vget t.fds n 0
    let v := if fn = 2 then old ||| a else if fn = 3 then old &&& ~~~a else a
    ∃ s', exec (.resultLands h k) s = .next s' ∧
      TeamIs s s' h { t0 with fds := vset t.fds n (v &&& 0x0000FFFF00FFF7FF), binds := vset t.binds n none }) ∧
  (∀ (s : State) (h k fn : Nat) (t : Team) (f : Flight), k ≤ 4 → s.team? h = some t →
    (t.strand k).exiting = false → ((t.strand k).flights.filter fun f => f.land ≤ (t.strand k).time) = [f] →
    f.dest = .creg 0x05 fn → f.flags = 0 →
    ∃ s', exec (.resultLands h k) s = .next s' ∧
      TeamIs s s' h { t.setStrand k
          { t.strand k with flights := (t.strand k).flights.filter fun f => (t.strand k).time < f.land } with
        flags := t.flags &&& (~~~(BitVec.ofNat 64 f.data) ||| t.flagNow) })

/-- R50: sets of FLAGS in one cycle combine by OR, and a bit that a W1C write and a set meet in one cycle reads 1 afterwards,
whichever comes first; a bit that nothing sets in the cycle is cleared exactly by a 1 written to it. -/
def Obligations.FlagSetsAndClears : Prop :=
  (∀ (t : Team) (a b : BitVec 64), ((t.raise a).raise b).flags = t.flags ||| ((a ||| b) &&& 0x3FF)) ∧
  (∀ (t : Team) (a v : BitVec 64) (i : Nat), i < 10 →
    (a.getLsbD i = true →
      ((t.raise a).clearFlags v).flags.getLsbD i = true ∧ ((t.clearFlags v).raise a).flags.getLsbD i = true) ∧
    (a.getLsbD i = false → t.flagNow.getLsbD i = false →
      ((t.raise a).clearFlags v).flags.getLsbD i = (t.flags.getLsbD i && !v.getLsbD i) ∧
      ((t.clearFlags v).raise a).flags.getLsbD i = (t.flags.getLsbD i && !v.getLsbD i)))

/-! ## Traps -/

/-- R88, R162–R165, R170: `trap` and, outside the debugger, `brk` issue and then take their traps with TRAPPC the next word;
a word that is no instruction takes the illegal-instruction trap at its own address, with the word in TRAPINFO. R167: `tret`
in a handler clears INH and goes to TRAPPC; outside one it is the trap-return trap. R169: a trap of a handler, or of a team
with no trap entry point, halts the team with its trap registers written and fails its launch. -/
def Obligations.TrapWords : Prop :=
  ((∀ e ∈ ([(Instr.trap, 0x0A), (Instr.brk, 0x0B)] : List ((SysW → Instr) × Nat)), ∀ (x : Here) (r : SysW),
     x.Ready r.mods {} → x.TakesTraps → (e.2 = 0x0B → x.s.pkg.dbgmask.getLsbD x.t.ctx = false) →
     ∃ s1 t1 s', exec (e.1 r) x.s = .next s' ∧
       HasIssued (x.woken {}) s1 r.mods (nextPc x.pc) [] ∧ s1.team? x.h = some t1 ∧
       TrapTaken ⟨s1, x.h, x.k, t1⟩ s' { code := e.2, info := BitVec.ofNat 64 r.imm.toNat } (nextPc x.pc)) ∧
   (∀ (x : Here) (r : SysW), x.Ready r.mods {} → x.s.pkg.dbgmask.getLsbD x.t.ctx = true →
     ∃ s', exec (.brk r) x.s = .next s' ∧
       let y := x.woken {}
       HasIssued { y with t := { y.t with dbg := true } } s' r.mods (nextPc y.pc) []) ∧
   (∀ (x : Here) (w : Word) (reason : BitVec 8), x.s.cur = .strand x.h x.k → x.TakesTraps →
     ∃ s', exec (.illegalInstruction w reason) x.s = .next s' ∧
       TrapTaken x s' { code := 0x01, reason := reason.toNat, info := w } x.pc)) ∧
  (∀ (x : Here) (r : SysW), x.Ready r.mods {} →
     let y := x.woken {}
     (x.sd.inh = true → ∃ s', exec (.tret r) x.s = .next s' ∧
       IssuedAs y s' ({ y.sd with cause := y.sd.cause &&& ~~~(0x40000000 : BitVec 64) }.after r.mods y.sd.trappc [])) ∧
     (x.TakesTraps → ∃ s', exec (.tret r) x.s = .next s' ∧ TrapTaken y s' { code := 0x0D } y.pc)) ∧
  (∀ (x : Here) (w : Word) (reason : BitVec 8), x.s.cur = .strand x.h x.k → x.k < 4 → x.s.team? x.h = some x.t →
    x.t.halted = false → (x.sd.inh = true ∨ x.t.trapEnt = 0) →
    ∃ s' t', exec (.illegalInstruction w reason) x.s = .next s' ∧ s'.team? x.h = some t' ∧ t'.halted = true ∧
      (t'.strand x.k).cause = trapCause { code := 0x01, reason := reason.toNat, info := w } x.sd.inh ∧
      (t'.strand x.k).info = w ∧ (t'.strand x.k).trappc = trapPcBits x.pc ∧
      ∀ l, x.s.launch? x.t.launch = some l → l.fate = .running →
        ∃ l' regs, s'.launch? x.t.launch = some l' ∧ l'.fate = .failed x.t.handle x.t.task regs)

/-! ## Vector words -/

/-- R172, R179, R180: integer arithmetic on elements; the exact result wraps to the width, the saturating forms clamp and
set ISAT, and `vdp4` adds four byte products to a 32-bit lane. -/
def Obligations.VectorIntegerArithmetic : Prop :=
  let w := fun r : RegW => elemBytes r.ty
  LanewiseForm .vadd 2 3 w (typedElement fun _ _ a b _ => (a + b, 0)) ∧
  LanewiseForm .vsub 2 3 w (typedElement fun _ _ a b _ => (a - b, 0)) ∧
  LanewiseForm .vadds 2 3 w (typedElement fun w sg a b _ =>
    (max (typeMin sg w) (min (typeMax sg w) (a + b)), if typeMin sg w ≤ a + b ∧ a + b ≤ typeMax sg w then 0 else fISAT)) ∧
  LanewiseForm .vsubs 2 3 w (typedElement fun w sg a b _ =>
    (max (typeMin sg w) (min (typeMax sg w) (a - b)), if typeMin sg w ≤ a - b ∧ a - b ≤ typeMax sg w then 0 else fISAT)) ∧
  LanewiseForm .vmin 2 3 w (typedElement fun _ _ a b _ => (if a ≤ b then a else b, 0)) ∧
  LanewiseForm .vmax 2 3 w (typedElement fun _ _ a b _ => (if a ≤ b then b else a, 0)) ∧
  LanewiseForm .vabs 1 3 w (typedElement fun _ _ a _ _ => (|a|, 0)) ∧
  LanewiseForm .vneg 1 3 w (typedElement fun _ _ a _ _ => (0 - a, 0)) ∧
  LanewiseForm .vmul 2 5 w (typedElement fun _ _ a b _ => (a * b, 0)) ∧
  LanewiseForm .vmulh 2 5 w (typedElement fun w _ a b _ => ((a * b) / (2 : Int) ^ w, 0)) ∧
  LanewiseForm .vmad 3 5 w (typedElement fun _ _ a b c => (a * b + c, 0)) ∧
  LanewiseForm .vdp4 3 5 (fun _ => 4) (fun r a b c =>
    let v := fun x j => readAs (typeSigned r.ty) 8 (elem 1 x j)
    (ofSigned 32 (readAs (typeSigned r.ty) 32 c + (v a 0 * v b 0 + v a 1 * v b 1 + v a 2 * v b 2 + v a 3 * v b 3)), 0))

/-- R141, R172, R179, R182: bitwise forms, shifts and counts on the patterns of the elements that R172 enables (R141, R179), and
`vmov`, which copies them (R182). -/
def Obligations.VectorBitwiseAndShifts : Prop :=
  let w := fun r : RegW => elemBytes r.ty
  let b := fun r : RegW => 8 * elemBytes r.ty
  LanewiseForm .vand 2 3 w (fun _ x y _ => (x &&& y, 0)) ∧
  LanewiseForm .vor 2 3 w (fun _ x y _ => (x ||| y, 0)) ∧
  LanewiseForm .vxor 2 3 w (fun _ x y _ => (x ^^^ y, 0)) ∧
  LanewiseForm .vandn 2 3 w (fun r x y _ => (x &&& (y ^^^ (2 ^ b r - 1)), 0)) ∧
  LanewiseForm .vnot 1 3 w (fun r x _ _ => (x ^^^ (2 ^ b r - 1), 0)) ∧
  LanewiseForm .vshl 2 3 w (fun r x y _ => (x * 2 ^ (y % b r) % 2 ^ b r, 0)) ∧
  LanewiseForm .vshr 2 3 w (fun r x y _ =>
    (if typeSigned r.ty then ofSigned (b r) (toSigned (b r) x / (2 : Int) ^ (y % b r)) else x / 2 ^ (y % b r), 0)) ∧
  LanewiseForm .vrotl 2 3 w (fun r x y _ => (((x <<< (y % b r)) ||| (x >>> (b r - y % b r))) % 2 ^ b r, 0)) ∧
  LanewiseForm .vrotr 2 3 w (fun r x y _ => (rotlPat (b r) x (b r - y % b r), 0)) ∧
  LanewiseForm .vclz 1 3 w (fun r x _ _ => (if x = 0 then b r else b r - 1 - Nat.log2 x, 0)) ∧
  LanewiseForm .vctz 1 3 w (fun r x _ _ => (((List.range (b r)).find? fun i => x.testBit i).getD (b r), 0)) ∧
  LanewiseForm .vpopc 1 3 w (fun r x _ _ => (((List.range (b r)).filter fun i => x.testBit i).length, 0)) ∧
  LanewiseForm .vmov 1 3 (fun _ => 1) (fun _ x _ _ => (x, 0))

/-- R181: comparisons of integer elements. -/
def Obligations.VectorComparisons : Prop :=
  let cmp := fun (f : Nat → Int → Int → Bool) (r : RegW) (a b : Nat) =>
    (f (8 * elemBytes r.ty) (readAs (typeSigned r.ty) (8 * elemBytes r.ty) a)
      (readAs (typeSigned r.ty) (8 * elemBytes r.ty) b), 0)
  ElementCompareForm .vcmpEq 3 (cmp fun _ a b => a = b) ∧
  ElementCompareForm .vcmpNe 3 (cmp fun _ a b => a ≠ b) ∧
  ElementCompareForm .vcmpLt 3 (cmp fun _ a b => a < b) ∧
  ElementCompareForm .vcmpLe 3 (cmp fun _ a b => a ≤ b) ∧
  ElementCompareForm .vcmpGt 3 (cmp fun _ a b => b < a) ∧
  ElementCompareForm .vcmpGe 3 (cmp fun _ a b => b ≤ a) ∧
  ElementCompareForm .vcmpTst 3 (cmp fun w a b => ofSigned w a &&& ofSigned w b ≠ 0) ∧
  ElementCompareForm .vcmpNtst 3 (cmp fun w a b => ofSigned w a &&& ofSigned w b = 0)

/-- R173, R182: broadcast, index, permute and rotate write enabled elements; `vext` gives the element that B names to a scalar;
`vins` writes the one element that B names, when it is enabled (pushed to a store queue, the other enabled elements are 0: the
model's choice, log entry 74); `vsel` writes every element, from A where its predicate bit is 1. -/
def Obligations.VectorMovesAndLanes : Prop :=
  let w := fun r : RegW => elemBytes r.ty
  ElementForm .vbcast (fun _ => []) (fun r => [(1, r.a, elemBytes r.ty)]) w 3
    (fun r y _ _ => ((y.t.scalar r.a).toNat % 2 ^ (8 * elemBytes r.ty), 0)) ∧
  ElementForm .vidx (fun _ => []) (fun _ => []) w 3 (fun r _ _ i => (i % 2 ^ (8 * elemBytes r.ty), 0)) ∧
  ElementForm .vperm (fun r => [(1, r.a), (2, r.b)]) (fun _ => []) w 4
    (fun r _ vs i => (elem (w r) (vs.getD 0 0) (elem (w r) (vs.getD 1 0) i % (128 / w r)), 0)) ∧
  ElementForm .vrot (fun r => [(1, r.a)]) (fun r => [(2, r.b, 8)]) w 4
    (fun r y vs i => (elem (w r) (vs.getD 0 0) ((i + (y.t.scalar r.b).toNat) % (128 / w r)), 0)) ∧
  ToScalarForm .vext (fun r => [(2, r.b)]) 4 (fun r y a =>
    (extend (typeSigned r.ty) (8 * w r) (elem (w r) a ((y.t.scalar r.b).toNat % (128 / w r))), 0)) ∧
  (∀ (x : Here) (r : RegW),
    let n := 128 / w r
    let one := (x.enables r (w r) n).zipIdx.map fun e => e.1 && e.2 = (x.t.scalar r.b).toNat % n
    let u : Uses :=
      { opds := [⟨0, r.d, 1, 0, elemMask (w r) one⟩, opdB 1 r.a 1 (ones (w r)), opdR 2 r.b 1], predR := gateReads r.pred,
        lat := 3, holds := vectorHolds r.d (elemMask (w r) one) }
    x.Ready r.mods u → (x.woken u).Supplied [] (some r.d) →
    ∃ s', exec (.vins r) x.s = .next s' ∧
      VectorIssued (x.woken u) s' r.mods r.d 3 128
        (ofElems (w r) (one.map fun b => if b then (x.t.scalar r.a).toNat % 2 ^ (8 * w r) else 0)) (elemMask (w r) one) 0) ∧
  (∀ (x : Here) (r : RegW),
    let u : Uses :=
      { opds := [opdW 0 r.d 1 true, opdR 1 r.a 1, opdR 2 r.b 1], predR := gateReads r.pred, lat := 3, holds := true }
    x.Ready r.mods u → (x.woken u).Supplied [r.a, r.b] (some r.d) →
    ∃ s', exec (.vsel r) x.s = .next s' ∧
      let vs := (x.woken u).sourceValues [(r.a, 1), (r.b, 1)]
      let y := (x.woken u).popAll [r.a, r.b]
      VectorIssued y s' r.mods r.d 3 128
        (ofElems (w r) ((y.enables r (w r) (128 / w r)).zipIdx.map fun e =>
          elem (w r) (vs.getD (if e.1 then 0 else 1) 0) e.2)) (ones 128) 0)

/-- R183: the cross-strand shuffle. Element i comes from the allocation at (B + element i of A) mod 2^32 rounded down to a
word; an enabled element beyond the allocation is the register-gated trap with the first such offset, and with the
scoreboard on a byte on which a result is pending is the register-pending trap with the first such byte. R42: a drowsy
granule that it reads holds the word, which then pops nothing. -/
def Obligations.CrossStrandShuffle : Prop :=
  ∀ (x : Here) (r : RegW),
    let u := x.elementUses r 4 6 [opdR 1 r.a 1, opdR 2 r.b 1]
    x.Ready r.mods u → (x.woken u).Supplied [r.a] (some r.d) →
    let vs := (x.woken u).sourceValues [(r.a, 1)]
    let y := (x.woken u).popAll [r.a]
    let en := y.enables r 4 32
    let offs := (List.range 32).map fun i => shuffleOff (y.t.scalar r.b).toNat (vs.getD 0 0) i
    let live := ((en.zip offs).filter fun e => e.1).map (·.2)
    let gs := (live.map (· / 4096)).eraseDups
    let bytes := live.flatMap fun o => [o, o + 1, o + 2, o + 3]
    let pending := fun o => (y.s.pendingAll y.t).testBit o
    ((live.find? fun o => y.t.regsz * 4096 < o + 4) = none →
      (y.t.scben = true → r.mods.old = false → ∀ o ∈ bytes, pending o = false) →
      ((y.t.wake y.s.cycle gs).2 = false → ∃ s', exec (.vshx r) x.s = .next s' ∧
        VectorIssued (y.withTeam (y.t.wake y.s.cycle gs).1) s' r.mods r.d 6 128
          (ofElems 4 ((en.zip offs).map fun e => if e.1 then Mem.readN y.t.regs e.2 4 else 0)) (elemMask 4 en) 0) ∧
      ((y.t.wake y.s.cycle gs).2 = true → ∃ s', exec (.vshx r) x.s = .next s' ∧
        HeldOn ((x.woken u).withTeam ((x.woken u).t.wake x.s.cycle gs).1) s' .none)) ∧
    (∀ o, (live.find? fun o => y.t.regsz * 4096 < o + 4) = none → y.t.scben = true → r.mods.old = false →
      bytes.find? pending = some o → y.TakesTraps →
      ∃ s', exec (.vshx r) x.s = .next s' ∧ TrapTaken y s' { code := 0x08, info := BitVec.ofNat 64 (0x10000 + o) } y.pc) ∧
    (∀ o, (live.find? fun o => y.t.regsz * 4096 < o + 4) = some o → y.TakesTraps →
      ∃ s', exec (.vshx r) x.s = .next s' ∧ TrapTaken y s' { code := 0x09, info := BitVec.ofNat 64 o } y.pc)

/-- R184, R193: reductions of the enabled elements. An integer one starts from 0 or from the far end of the type's range; a
floating-point one widens to FP32, puts −0 or a NaN in place of disabled elements, and follows the fixed tree; a signalling NaN
keeps its class until its first operation (the model's reading of R193, log entry 22). -/
def Obligations.Reductions : Prop :=
  let ints := fun (y : Here) (r : RegW) (a : Nat) => y.enabledInts r a
  let fl := fun (ident : Nat) (op : Nat → Nat → Nat × Nat) (r : RegW) (y : Here) (a : Nat) =>
    let w := elemBytes r.ty
    treeReduce op (if w = 4 then 5 else 6) ((y.enables r w (128 / w)).zipIdx.map fun e =>
      if e.1 then widen32 (fmtOfType r.ty.toNat) (elem w a e.2) else ident)
  ToScalarForm .vredAdd (fun _ => []) 6 (fun r y a => (ofSigned 64 (ints y r a).sum, 0)) ∧
  ToScalarForm .vredMin (fun _ => []) 6
    (fun r y a => (ofSigned 64 ((ints y r a).foldl min (typeMax (typeSigned r.ty) (8 * elemBytes r.ty))), 0)) ∧
  ToScalarForm .vredMax (fun _ => []) 6
    (fun r y a => (ofSigned 64 ((ints y r a).foldl max (typeMin (typeSigned r.ty) (8 * elemBytes r.ty))), 0)) ∧
  ToScalarForm .vfredAdd (fun _ => []) 9 (fl 0x80000000 (fpAdd fmtF32 .rne)) ∧
  ToScalarForm .vfredMin (fun _ => []) 9 (fl 0x7FC00000 (fpMinMax fmtF32 false)) ∧
  ToScalarForm .vfredMax (fun _ => []) 9 (fl 0x7FC00000 (fpMinMax fmtF32 true))

/-- R185–R188: `vtrit` gives digit FN of each packed byte less 1, and traps at the first enabled byte of 243 or more with
its index and value; `vtacc` adds four trit products to a 32-bit lane and saturates once. -/
def Obligations.TritWords : Prop :=
  (∀ (x : Here) (r : RegW),
    let u := x.elementUses r 1 3 [opdR 1 r.a 1]
    x.Ready r.mods u → (x.woken u).Supplied [r.a] (some r.d) →
    let a := ((x.woken u).sourceValues [(r.a, 1)]).getD 0 0
    let y := (x.woken u).popAll [r.a]
    let en := y.enables r 1 128
    let es := en.zipIdx.map fun e => (e.1, e.2, elem 1 a e.2)
    ((es.find? fun e => e.1 && 243 ≤ e.2.2) = none →
      ∃ s', exec (.vtrit r) x.s = .next s' ∧
        VectorIssued y s' r.mods r.d 3 128
          (ofElems 1 (es.map fun e => if e.1 then (tritDigit r.fn.toNat e.2.2 + 255) % 256 else 0)) (elemMask 1 en) 0) ∧
    (∀ e, (es.find? fun e => e.1 && 243 ≤ e.2.2) = some e → y.TakesTraps →
      ∃ s', exec (.vtrit r) x.s = .next s' ∧
        TrapTaken y s' { code := 0x04, reason := 0x01, info := BitVec.ofNat 64 (e.2.1 + 256 * e.2.2) } y.pc)) ∧
  LanewiseForm .vtacc 3 5 (fun _ => 4) (fun _ a b c =>
    let sgn := fun j => (toSigned 8 (elem 1 a j)).sign * toSigned 8 (elem 1 b j)
    satInt true 32 (toSigned 32 c + (sgn 0 + sgn 1 + sgn 2 + sgn 3)))

/-- R186: the digit that the spec's multiply-and-shift division gives is the base-3 digit, for every packed byte. -/
def Obligations.TritDigitsAreBase3 : Prop :=
  ∀ b < 243, ∀ k < 5, tritDigit k b = b / 3 ^ k % 3

/-- R189–R192: floating-point arithmetic with one rounding in the opcode's mode; minimum, maximum, absolute value and
negation without rounding; comparisons, where a NaN makes all but `ne` and `un` false. -/
def Obligations.VectorFloat : Prop :=
  let w := fun r : RegW => elemBytes r.ty
  let cmp := fun (unord : Bool) (f : Ordering → Bool) (r : RegW) (a b : Nat) =>
    let x := (fmtOfType r.ty.toNat).value a
    let y := (fmtOfType r.ty.toNat).value b
    (if x.isNan || y.isNan then unord else f (x.cmp y), if x.isSnan || y.isSnan then fNV else 0)
  FloatForm .vfadd 2 5 (fun f m a b _ => fpAdd f m a b) ∧
  FloatForm .vfsub 2 5 (fun f m a b _ => fpSub f m a b) ∧
  FloatForm .vfmul 2 5 (fun f m a b _ => fpMul f m a b) ∧
  FloatForm .vfma 3 5 (fun f m a b c => fpFma f m false a b c) ∧
  FloatForm .vfnma 3 5 (fun f m a b c => fpFma f m true a b c) ∧
  FloatForm .vfdiv 2 20 (fun f m a b _ => fpDiv f m a b) ∧
  FloatForm .vfsqrt 1 20 (fun f m a _ _ => fpSqrt f m a) ∧
  LanewiseForm .vfmin 2 5 w (fun r a b _ => fpMinMax (fmtOfType r.ty.toNat) false a b) ∧
  LanewiseForm .vfmax 2 5 w (fun r a b _ => fpMinMax (fmtOfType r.ty.toNat) true a b) ∧
  LanewiseForm .vfabs 1 5 w (fun r a _ _ =>
    signForm (fmtOfType r.ty.toNat) a (a % 2 ^ ((fmtOfType r.ty.toNat).w - 1))) ∧
  LanewiseForm .vfneg 1 5 w (fun r a _ _ =>
    signForm (fmtOfType r.ty.toNat) a (a ^^^ 2 ^ ((fmtOfType r.ty.toNat).w - 1))) ∧
  ElementCompareForm .vfcmpEq 5 (cmp false fun o => o = .eq) ∧
  ElementCompareForm .vfcmpNe 5 (cmp true fun o => o ≠ .eq) ∧
  ElementCompareForm .vfcmpLt 5 (cmp false fun o => o = .lt) ∧
  ElementCompareForm .vfcmpLe 5 (cmp false fun o => o ≠ .gt) ∧
  ElementCompareForm .vfcmpGt 5 (cmp false fun o => o = .gt) ∧
  ElementCompareForm .vfcmpGe 5 (cmp false fun o => o ≠ .lt) ∧
  ElementCompareForm .vfcmpUn 5 (cmp true fun _ => false)

/-- R194–R199: `vcvt` between every two types, with the narrower width's enables; `vquant` of 64 values into blocks by a
descriptor with KIND 1, with the statistics it feeds and the draws it takes (one for each enabled element, none for a NaN block,
and the corners of the narrow formats: the model's readings, log entries 22, 83 and 84); `vdequant` of 64 elements. The
whole-word gate of the last two, when 0, issues the word and does nothing but the pop of `vdequant`. -/
def Obligations.ConversionWords : Prop :=
  (∀ (x : Here) (r : RegW),
    let ws := typeBytes r.fn.toNat
    let wd := typeBytes r.ty.toNat
    let wm := min ws wd
    let n := 128 / wm
    let u : Uses :=
      { opds := [⟨0, r.d, wd / wm, 0, elemMask wd (x.enables r wm n)⟩, opdR 1 r.a (ws / wm)], predR := gateReads r.pred,
        lat := 5, holds := vectorHolds r.d (elemMask wd (x.enables r wm n)) }
    x.Ready r.mods u → (x.woken u).Supplied [r.a] (some r.d) →
    ∃ s', exec (.vcvt r) x.s = .next s' ∧
      let vs := (x.woken u).sourceValues [(r.a, ws / wm)]
      let z := (x.woken u).popAll [r.a]
      let en := z.enables r wm n
      let ms := (z.elementModes (r.op.toNat - 0x98) en).1
      let p := packElements wd ((en.zip ms).zipIdx.map fun e =>
        (e.1.1, if e.1.1 then convertElement r.fn.toNat r.ty.toNat e.1.2 (elem ws (vs.getD 0 0) e.2) else (0, 0)))
      VectorIssued (z.elementModes (r.op.toNat - 0x98) en).2 s' r.mods r.d 5 (n * wd) p.1 (elemMask wd en) p.2) ∧
  (∀ e ∈ ([(Instr.vquant, fun _ => [], fun _ _ => none),
      (Instr.vquantStart, fun r => [(2, r.b)], fun y r => some (min ((y.t.scalar r.b).toNat % 256) 254))] :
      List ((RegW → Instr) × (RegW → List (Nat × BitVec 8)) × (Here → RegW → Option Nat))), ∀ (x : Here) (r : RegW),
    let u := x.wholeUses r 1 12 (opdR 1 r.a 2 :: (e.2.1 r).map fun p => opdR p.1 p.2 1) (some r.fdn.toNat)
    x.Ready r.mods u →
    (x.gate0 r.pred r.pn = false → ∃ s', exec (e.1 r) x.s = .next s' ∧
      HasIssued (x.woken u) s' r.mods (nextPc x.pc) []) ∧
    (x.gate0 r.pred r.pn = true → (x.woken u).Supplied [r.a] (some r.d) → ∃ s', exec (e.1 r) x.s = .next s' ∧
      let vs := (x.woken u).sourceValues [(r.a, 2)]
      let y := (x.woken u).popAll [r.a]
      let d := fdOf (vget y.t.fds r.fdn.toNat 0).toNat
      let size := if d.bs = 0 then 64 else d.block
      let q := quantBlocks d (e.2.2 y r) (r.fn.toNat % 4)
        (chunks size (64 / size) ((elems 4 64 (vs.getD 0 0)).map fmtF32.value)) y.t.lfsr.toNat
      let t := { y.t with lfsr := if r.fn.toNat % 4 = 2 then BitVec.ofNat 32 q.2 else y.t.lfsr }
      VectorIssued (y.withTeam (t.feed r.fdn.toNat d q.1)) s' r.mods r.d 12 128 (d.packBlocks (q.1.map (·.2)))
        (ones 128) (orAll (q.1.map fun b => b.2.flags)))) ∧
  (∀ e ∈ ([(Instr.vdequantF32, fmtF32, 2), (Instr.vdequantBf16, fmtBf16, 1)] : List ((RegW → Instr) × Fmt × Nat)),
    ∀ (x : Here) (r : RegW),
    let on := x.gate0 r.pred r.pn
    let u := x.wholeUses r e.2.2 6 [opdR 1 r.a 1] (some r.fdn.toNat)
    x.Ready r.mods u → (x.woken u).Supplied [r.a] (if on then some r.d else none) →
    ∃ s', exec (e.1 r) x.s = .next s' ∧
      let vs := (x.woken u).sourceValues [(r.a, 1)]
      let y := (x.woken u).popAll [r.a]
      let d := fdOf (vget y.t.fds r.fdn.toNat 0).toNat
      let es := (List.range 64).map fun i => dequantise d (d.unpack (vs.getD 0 0) i).1 (d.unpack (vs.getD 0 0) i).2 e.2.1
      if on then
        VectorIssued y s' r.mods r.d 6 (128 * e.2.2) (ofElems (e.2.1.w / 8) (es.map (·.1))) (ones (128 * e.2.2))
          (orAll (es.map (·.2)))
      else HasIssued y s' r.mods (nextPc y.pc) [])

/-! ## Memory words -/

/-- R208, R214: scalar loads and stores of SPACE 1–4. With the gate off they only issue; a load takes flight with its bytes read
one unit later and lands after 4; a store enters the spill forwarding table. R208, R215: vector loads and stores of SPACE 1–4,
with the bytes that the predicate enables; a load lands after 6, 7 or 9; a store whose source is a queue takes its entry. R212:
each takes the banks that it needs; which they are in which cycle is the model's choice (log entry 75). -/
def Obligations.LocalAccess : Prop :=
  ((∀ (x : Here) (r : MemW), r.space ≠ 0 → MemW.remote r = false →
     let on := x.gate0 r.pred r.pn
     let u := gatedUses r [opdW 0 r.d 1 on] 4 on none on
     let w := (deedOf (.ld r)).width
     let b := bufOfSpace r.space.toNat
     x.Ready r.mods u →
     let y := x.woken u
     let ea := y.address r
     (on = false → ∃ s', exec (.ld r) x.s = .next s' ∧ HasIssued y s' r.mods (nextPc y.pc) []) ∧
     (on = true → y.Passes r ea w w (ones w) → y.MayAccess r b ea w (ones w) →
       ∃ s', exec (.ld r) x.s = .next s' ∧
         HasIssued (y.banked r.mods b ea w (ones w)) s' r.mods (nextPc y.pc)
           [y.loadFlight r ea w 8 0xFF 4 (r.fn.toNat % 8 < 3)])) ∧
   (∀ (x : Here) (r : MemW), r.space ≠ 0 → MemW.remote r = false →
     let on := x.gate0 r.pred r.pn
     let n := 2 ^ (r.fn.toNat % 4)
     let u := gatedUses r [opdB 0 r.d 1 (ones n)] 0 false none on
     let b := bufOfSpace r.space.toNat
     x.Ready r.mods u →
     let y := x.woken u
     let ea := y.address r
     (on = false → ∃ s', exec (.st r) x.s = .next s' ∧ HasIssued y s' r.mods (nextPc y.pc) []) ∧
     (on = true → y.Passes r ea n n (ones n) → y.sd.spills.length < 8 → y.MayAccess r b ea n (ones n) →
       ∃ s', exec (.st r) x.s = .next s' ∧
         HasIssued ((y.banked r.mods b ea n (ones n)).spilled r ea n ((y.t.scalar r.d).toNat % 2 ^ (8 * n)) (ones n))
           s' r.mods (nextPc y.pc) []))) ∧
  ((∀ (x : Here) (r : MemW), r.space ≠ 0 → MemW.remote r = false →
     let n := groupRegs r.fn
     let lat := if n = 1 then 6 else if n = 2 then 7 else 9
     let mask := x.byteMask r (128 * n)
     let u := memUses r [⟨0, r.d, n, 0, mask⟩] true lat (decide (mask ≠ 0)) none
     let b := bufOfSpace r.space.toNat
     x.Ready r.mods u →
     let y := x.woken u
     let ea := y.address r
     y.Passes r ea (128 * n) 8 mask → y.MayAccess r b ea (128 * n) mask →
     ∃ s', exec (.vld r) x.s = .next s' ∧
       HasIssued (y.banked r.mods b ea (128 * n) mask) s' r.mods (nextPc y.pc)
         (if mask = 0 then [] else [y.loadFlight r ea (128 * n) (128 * n) mask lat false])) ∧
   (∀ (x : Here) (r : MemW), r.space ≠ 0 → MemW.remote r = false →
     let n := groupRegs r.fn
     let mask := x.byteMask r (128 * n)
     let u := memUses r [opdB 0 r.d n mask] true 0 false none
     let b := bufOfSpace r.space.toNat
     x.Ready r.mods u →
     let y := x.woken u
     let ea := y.address r
     y.Passes r ea (128 * n) 8 mask → y.lacking [r.d] = none → y.sd.spills.length < 8 →
     y.MayAccess r b ea (128 * n) mask →
     ∃ s', exec (.vst r) x.s = .next s' ∧
       HasIssued (((y.banked r.mods b ea (128 * n) mask).popAll [r.d]).spilled r ea (128 * n)
           ((y.sourceValues [(r.d, n)]).getD 0 0) mask)
         s' r.mods (nextPc y.pc) []))

/-- R209, R216, R400: a load of SPACE g makes a request: a strand waits for its reply, the access stream translates it at issue
and goes on, which is the model's reading (log entry 17). A store of SPACE g enters the core's write path and its stream goes
on. -/
def Obligations.GlobalAccess : Prop :=
  (∀ (x : Here) (r : MemW), r.space = 0 → MemW.remote r = false → x.gate0 r.pred r.pn = true →
    let d := deedOf (.ld r)
    let u := gatedUses r [opdW 0 r.d 1 true] 0 false none true
    x.Ready r.mods u →
    let y := x.woken u
    let ea := y.address r
    let q := { Req.of (.ld r) ea (y.t.regOff r.d) with mask := 0xFF }
    y.Passes r ea d.width d.width (ones d.width) →
    (x.k < 4 → ∃ s', exec (.ld r) x.s = .next s' ∧ Awaits y s' r.mods q) ∧
    (∀ ps s1, x.k = 4 → y.s.spans y.t.ctx (dieOf y.t.core) (y.s.aperturesOf y.t) ea d.width (ones d.width) .read
        { src := 1, handle := y.h } = (.ok ps, s1) →
      ∃ s', exec (.ld r) x.s = .next s' ∧
        Awaits (y.reload s1) s' r.mods { q with locs := some (ps.flatMap fun p => p.runs (ones d.width)) })) ∧
  (∀ (x : Here) (r : MemW), r.space = 0 → MemW.remote r = false →
    let n := groupRegs r.fn
    let mask := x.byteMask r (128 * n)
    let u := memUses r [⟨0, r.d, n, 0, mask⟩] true 0 false none
    x.Ready r.mods u →
    let y := x.woken u
    let ea := y.address r
    let q := { Req.of (.vld r) ea (y.t.regOff r.d) with mask := mask }
    y.Passes r ea (128 * n) 8 mask →
    (x.k < 4 → ∃ s', exec (.vld r) x.s = .next s' ∧ Awaits y s' r.mods q) ∧
    (∀ ps s1, x.k = 4 → y.s.spans y.t.ctx (dieOf y.t.core) (y.s.aperturesOf y.t) ea (128 * n) mask .read
        { src := 1, handle := y.h } = (.ok ps, s1) →
      ∃ s', exec (.vld r) x.s = .next s' ∧
        Awaits (y.reload s1) s' r.mods { q with locs := some (ps.flatMap fun p => p.runs mask) })) ∧
  (∀ (x : Here) (r : MemW) (s1 : State), r.space = 0 → MemW.remote r = false → x.gate0 r.pred r.pn = true →
    let n := 2 ^ (r.fn.toNat % 4)
    let u := gatedUses r [opdB 0 r.d 1 (ones n)] 0 false none true
    x.Ready r.mods u →
    let y := x.woken u
    let ea := y.address r
    y.Passes r ea n n (ones n) → y.MayPost ea n →
    y.s.post y.writer ea n ((y.t.scalar r.d).toNat % 2 ^ (8 * n)) (ones n) (4 ≤ y.k) = .ok s1 →
    ∃ s', exec (.st r) x.s = .next s' ∧ HasIssued (y.reload s1) s' r.mods (nextPc (y.reload s1).pc) []) ∧
  (∀ (x : Here) (r : MemW) (s1 : State), r.space = 0 → MemW.remote r = false →
    let n := groupRegs r.fn
    let mask := x.byteMask r (128 * n)
    let u := memUses r [opdB 0 r.d n mask] true 0 false none
    x.Ready r.mods u →
    let y := x.woken u
    let ea := y.address r
    y.Passes r ea (128 * n) 8 mask → y.lacking [r.d] = none → y.MayPost ea (128 * n) →
    y.s.post y.writer ea (128 * n) ((y.sourceValues [(r.d, n)]).getD 0 0) mask (4 ≤ y.k) = .ok s1 →
    ∃ s', exec (.vst r) x.s = .next s' ∧
      let z := (y.reload s1).popAll [r.d]
      HasIssued z s' r.mods (nextPc z.pc) [])

/-- R202, R205, R209, R307: the remote forms of loads and stores are requests to the bank unit of the target's core; a strand
waits for the reply, and the access is counted; the access stream goes on after its request (the model's reading, log entry 17).
-/
def Obligations.RemoteAccess : Prop :=
  (∀ (x : Here) (r : MemW), MemW.remote r = true → x.gate0 r.pred r.pn = true →
    let w := (deedOf (.ld r)).width
    let u := gatedUses r [opdW 0 r.d 1 true] 0 false none true
    x.Ready r.mods u →
    let y := x.woken u
    let ea := y.address r
    y.Passes r ea w w (ones w) →
    ∃ s', exec (.ld r) x.s = .next s' ∧
      Awaits y.remoteCounted s' r.mods (remoteReq (.ld r) (y.remoteHandle r) ea 0 0xFF (y.t.regOff r.d) 0 0)) ∧
  (∀ (x : Here) (r : MemW), MemW.remote r = true → x.gate0 r.pred r.pn = true →
    let n := 2 ^ (r.fn.toNat % 4)
    let u := gatedUses r [opdB 0 r.d 1 (ones n)] 0 false none true
    x.Ready r.mods u →
    let y := x.woken u
    let ea := y.address r
    y.Passes r ea n n (ones n) →
    ∃ s', exec (.st r) x.s = .next s' ∧
      Awaits y.remoteCounted s' r.mods
        (remoteReq (.st r) (y.remoteHandle r) ea ((y.t.scalar r.d).toNat % 2 ^ (8 * n)) (ones n) 0 0 0)) ∧
  (∀ (x : Here) (r : MemW), MemW.remote r = true →
    let n := groupRegs r.fn
    let mask := x.byteMask r (128 * n)
    let u := memUses r [⟨0, r.d, n, 0, mask⟩] true 0 false none
    x.Ready r.mods u →
    let y := x.woken u
    let ea := y.address r
    y.Passes r ea (128 * n) 8 mask →
    ∃ s', exec (.vld r) x.s = .next s' ∧
      Awaits y.remoteCounted s' r.mods (remoteReq (.vld r) (y.remoteHandle r) ea 0 mask (y.t.regOff r.d) 0 0)) ∧
  (∀ (x : Here) (r : MemW), MemW.remote r = true →
    let n := groupRegs r.fn
    let mask := x.byteMask r (128 * n)
    let u := memUses r [opdB 0 r.d n mask] true 0 false none
    x.Ready r.mods u →
    let z := x.woken u
    let ea := z.address r
    z.Passes r ea (128 * n) 8 mask → z.lacking [r.d] = none →
    ∃ s', exec (.vst r) x.s = .next s' ∧
      Awaits (z.popAll [r.d]).remoteCounted s' r.mods
        (remoteReq (.vst r) (z.remoteHandle r) ea ((z.sourceValues [(r.d, n)]).getD 0 0) mask 0 0 0))

/-- R70, R204, R205, R206: the address checks of loads, stores, full/empty words, atomics, releases, acquires, fetches and
drains. A global address must be canonical; an address that is not a multiple of the access's alignment, which is the width
of a scalar access, atomic, release or acquire and 8 bytes of any other, is the alignment trap with the address in TRAPINFO,
of a remote form too; a local access beyond its window is the buffer-range trap with its SPACE as REASON. A strand takes the
trap at the word; the access stream's halts the team. -/
def Obligations.AddressTraps : Prop :=
  let far := fun r : MemW => decide (r.space ≠ 0) && !MemW.remote r
  let on := fun (y : Here) (r : MemW) => y.gate0 r.pred r.pn = true
  let all := fun (_ : Here) (_ : MemW) => True
  AddressTrapForm .ld (fun _ r => gatedUses r [opdW 0 r.d 1 true] (if far r then 4 else 0) (far r) none true)
    (fun r => (deedOf (.ld r)).width) on ∧
  AddressTrapForm .st (fun _ r => gatedUses r [opdB 0 r.d 1 (ones (deedOf (.st r)).width)] 0 false none true)
    (fun r => (deedOf (.st r)).width) on ∧
  AddressTrapForm .vld
    (fun x r =>
      let n := groupRegs r.fn
      let mask := x.byteMask r (128 * n)
      memUses r [⟨0, r.d, n, 0, mask⟩] true (if far r then (if n = 1 then 6 else if n = 2 then 7 else 9) else 0)
        (far r && decide (mask ≠ 0)) none) (fun _ => 8) all ∧
  AddressTrapForm .vst
    (fun x r => memUses r [opdB 0 r.d (groupRegs r.fn) (x.byteMask r (128 * groupRegs r.fn))] true 0 false none)
    (fun _ => 8) all ∧
  (∀ e ∈ ([(Instr.ldwF, 4), (Instr.ldwFe, 4), (Instr.vldwF, 6), (Instr.vldwFe, 6), (Instr.feGet, 4)] :
      List ((MemW → Instr) × Nat)),
    AddressTrapForm e.1 (fun _ r => gatedUses r [opdW 0 r.d 1 true] e.2 (!MemW.remote r) none true) (fun _ => 8) on) ∧
  (∀ c ∈ ([Instr.stwEf, Instr.stwF, Instr.vstwEf, Instr.vstwF] : List (MemW → Instr)),
    AddressTrapForm c (fun _ r => gatedUses r [opdR 0 r.d 1] 0 false none true) (fun _ => 8) on) ∧
  (∀ c ∈ ([Instr.feEmpty, Instr.feFull] : List (MemW → Instr)),
    AddressTrapForm c (fun _ r => gatedUses r [] 0 false none true) (fun _ => 8) on) ∧
  (∀ c ∈ ([Instr.amoAdd, Instr.amoAnd, Instr.amoOr, Instr.amoXor, Instr.amoMinS, Instr.amoMaxS, Instr.amoMinN,
      Instr.amoMaxN, Instr.amoSwap, Instr.amoCas, Instr.amoFadd, Instr.amoFmin, Instr.amoFmax] : List (MemW → Instr)),
    AddressTrapForm c
      (fun _ r =>
        let d := deedOf (c r)
        gatedUses r [⟨0, r.d, 2, ones d.width <<< 8 ||| (if d.compares then ones d.width else 0), 0xFF⟩] 0 false
          (some r.scope.toNat) true) (fun r => (deedOf (c r)).width) on) ∧
  AddressTrapForm .rel (fun _ r => memUses r [opdB 0 r.d 1 (ones (deedOf (.rel r)).width)] false 0 false (some r.scope.toNat))
    (fun r => (deedOf (.rel r)).width) all ∧
  AddressTrapForm .acq (fun _ r => memUses r [opdW 0 r.d 1 true] false 0 false (some r.scope.toNat))
    (fun r => (deedOf (.acq r)).width) all ∧
  AddressTrapForm .acqP (fun _ r => memUses r [⟨0, r.d, 2, 0xF00, 0xFF⟩] false 0 false (some r.scope.toNat))
    (fun r => (deedOf (.acqP r)).width) all ∧
  (∀ c ∈ ([Instr.fetch, Instr.fetchF, Instr.fetchFe] : List (MemW → Instr)),
    AddressTrapForm c (fun _ r => memUses r [] false 0 false none) (fun _ => 8) fun y _ => y.t.drainOnly = false) ∧
  (∀ c ∈ ([Instr.drain, Instr.drainEf, Instr.drainF] : List (MemW → Instr)),
    AddressTrapForm c (fun _ r => memUses r [] false 0 false none) (fun _ => 8) all)

/-- R217–R219, R328: the full/empty words. With the gate off they only issue. A local one issues in the cycle in which the bank
unit serves it, with the bits it tests as they were at the cycle's start; a remote one is a request, which as a release wider
than the core follows the writes that happen before it, with their tag when it reaches another C-die. The banks of a local one
(log entry 75), what a stream has acquired (log entry 15) and which writes a tag is sent with (log entry 92) are the model's. -/
def Obligations.FullEmptyWords : Prop :=
  ∀ e ∈ ([(Instr.ldwF, true, false, 4), (Instr.ldwFe, true, false, 4), (Instr.vldwF, false, false, 6),
      (Instr.vldwFe, false, false, 6), (Instr.stwEf, true, true, 0), (Instr.stwF, true, true, 0), (Instr.vstwEf, false, true, 0),
      (Instr.vstwF, false, true, 0), (Instr.feEmpty, true, false, 0), (Instr.feFull, true, false, 0),
      (Instr.feGet, true, false, 4)] : List ((MemW → Instr) × Bool × Bool × Nat)), ∀ (x : Here) (r : MemW),
    let i := e.1 r
    let scalarD := e.2.1
    let src := e.2.2.1
    let lat := e.2.2.2
    let d := deedOf i
    let on := x.gate0 r.pred r.pn
    let u := gatedUses r (if src then [opdR 0 r.d 1] else if d.len ≠ 0 then [opdW 0 r.d 1 on] else []) lat
      (on && !MemW.remote r && d.len ≠ 0) none on
    x.Ready r.mods u →
    let y := x.woken u
    let ea := y.address r
    let v := if !src then 0 else if scalarD then (y.t.scalar r.d).toNat else y.t.vector r.d 1
    let dest := if d.len ≠ 0 then y.t.regOff r.d else 0
    (on = false → ∃ s', exec i x.s = .next s' ∧ HasIssued y s' r.mods (nextPc y.pc) []) ∧
    (let h := y.remoteHandle r
     let far := d.releasesFar y.t.core h
     on = true → MemW.remote r = true → y.Passes r ea d.width 8 (ones d.width) → (d.releases = true → y.MayRelease) →
      y.leadHeld far = false →
      ∃ s', exec i x.s = .next s' ∧
        let z := (y.tagRelease far).2
        Awaits z.remoteCounted s' r.mods
          (if d.releases && decide (1 < implicitScope z.t.core (handleCore h))
           then remoteReq i h ea v (ones d.width) dest (z.s.core z.t.core).nextNum z.sd.acqUpto
           else remoteReq i h ea v (ones d.width) dest 0 0)) ∧
    (∀ got fl t1, on = true → MemW.remote r = false → r.space = 1 → y.Passes r ea d.width 8 (ones d.width) →
      y.FeFree d ea → y.MayAccess r .sp ea d.width (ones d.width) → y.t.serve d ea v 0 (ones d.width) = some (got, fl, t1) →
      ∃ s', exec i x.s = .next s' ∧
        HasIssued (((y.banked r.mods .sp ea d.width (ones d.width)).withTeam t1).acquireIf d.acquire ea d.width) s' r.mods
          (nextPc y.pc)
          (if d.len ≠ 0 then
            [{ land := y.sd.time + lat, dest := .reg dest, len := d.len, data := got, mask := ones d.len, flags := 0,
               readAt := 0,
               src := if d.load then some { buf := .sp, off := ea, width := d.width, sx := false } else none }]
          else []))

/-- R217, R219: what the bank unit does for a full/empty access whose words it may change in this cycle: it serves it
exactly when the bits it requires are so, and afterwards those words' bits are what the word makes them. -/
def Obligations.FullEmptyService : Prop :=
  ∀ (t : Team) (d : Deed) (off x cmp mask : Nat) (b : Bool), Mem.wf t.fe = true → t.feBusy = [] → d.set = some b →
    ((t.serve d off x cmp mask).isSome ↔
      ∀ w, d.need = some w → ∀ i < d.width / 8, t.isFull (off / 8 + i) = w) ∧
    ∀ v fl t', t.serve d off x cmp mask = some (v, fl, t') →
      (∀ i < d.width / 8, t'.isFull (off / 8 + i) = b) ∧
      ∀ k, (k < off / 8 ∨ off / 8 + d.width / 8 ≤ k) → t'.isFull k = t.isFull k

/-- R224, R225, R209: an atomic in any space, local, remote or global, is a request that carries the operand and the
comparand; with the gate off it only issues. -/
def Obligations.AtomicWords : Prop :=
  ∀ c ∈ ([Instr.amoAdd, Instr.amoAnd, Instr.amoOr, Instr.amoXor, Instr.amoMinS, Instr.amoMaxS, Instr.amoMinN,
      Instr.amoMaxN, Instr.amoSwap, Instr.amoCas, Instr.amoFadd, Instr.amoFmin, Instr.amoFmax] : List (MemW → Instr)),
    ∀ (x : Here) (r : MemW),
    let on := x.gate0 r.pred r.pn
    let d := deedOf (c r)
    let u := gatedUses r [⟨0, r.d, 2, ones d.width <<< 8 ||| (if d.compares then ones d.width else 0), if on then 0xFF else 0⟩]
      0 false (some r.scope.toNat) on
    x.Ready r.mods u →
    let y := x.woken u
    let ea := y.address r
    let q : Req := { Req.of (c r) ea (y.t.regOff r.d) with
      x := (y.t.scalarAt r.d 1).toNat, cmp := (y.t.scalarAt r.d 0).toNat, mask := 0xFF }
    (on = false → ∃ s', exec (c r) x.s = .next s' ∧ HasIssued y s' r.mods (nextPc y.pc) []) ∧
    (on = true → y.Passes r ea d.width d.width (ones d.width) → ∃ s', exec (c r) x.s = .next s' ∧
      (MemW.remote r = false → Awaits y s' r.mods q) ∧
      (MemW.remote r = true → Awaits y.remoteCounted s' r.mods { q with handle := y.remoteHandle r }))

/-- R225, R226: the atomics at their location, shown for a location in an SP window (the same operation serves every
other one). The location takes the value of the table, computed from the old value m and the operand at the form's width,
where arithmetic wraps; the register's value is m, extended by sign for FN 4 and 5 of width 32 and by zero otherwise; no flag
is set. A floating-point atomic stores the sum with one rounding to nearest even, the smaller or the larger value, at the width
of its format; its reply is m with the flags of that operation. A word of FN 0xA to 0xF, or of FN 3 to 0xF at the
floating-point opcodes, is refused with reason 0x05. -/
def Obligations.AtomicResults : Prop :=
  (∀ e ∈ ([(Instr.amoAdd, 0), (Instr.amoAnd, 1), (Instr.amoOr, 2), (Instr.amoXor, 3), (Instr.amoMinS, 4), (Instr.amoMaxS, 5),
      (Instr.amoMinN, 6), (Instr.amoMaxN, 7), (Instr.amoSwap, 8), (Instr.amoCas, 9)] : List ((MemW → Instr) × Nat)),
    ∀ (t : Team) (r : MemW) (off x cmp mask n : Nat), r.fn.toNat = e.2 → t.sp.wf = true →
    (n = 4 ∧ (r.op = 0xD0 ∨ r.op = 0xD4) ∨ n = 8 ∧ (r.op = 0xD1 ∨ r.op = 0xD5)) →
    let w := 8 * n
    let m := Mem.readN t.sp off n
    let a := x % 2 ^ w
    ∃ t', t.serve (deedOf (e.1 r)) off x cmp mask = some (if n = 4 ∧ (e.2 = 4 ∨ e.2 = 5) then extend true 32 m else m, 0, t') ∧
      let v := Mem.readN t'.sp off n
      v < 2 ^ w ∧ (e.2 = 0 → v = (m + a) % 2 ^ w) ∧ (e.2 = 1 → v = m &&& a) ∧ (e.2 = 2 → v = m ||| a) ∧
      (e.2 = 3 → v = m ^^^ a) ∧ (e.2 = 4 → toSigned w v = min (toSigned w m) (toSigned w a)) ∧
      (e.2 = 5 → toSigned w v = max (toSigned w m) (toSigned w a)) ∧ (e.2 = 6 → v = min m a) ∧ (e.2 = 7 → v = max m a) ∧
      (e.2 = 8 → v = a) ∧ (e.2 = 9 → v = if m = cmp % 2 ^ w then a else m) ∧
      ∀ i, (i < off ∨ off + n ≤ i) → Mem.get t'.sp i = Mem.get t.sp i) ∧
  (∀ w : Word, w.getLsbD 63 = false → (opOfWord w = 0xD0 ∨ opOfWord w = 0xD1) → 10 ≤ (w.extractLsb' 0 4).toNat →
    decodeWord false w = .error 0x05) ∧
  (∀ e ∈ ([(Instr.amoFadd, 0, fun f m a => fpAdd f .rne m a), (Instr.amoFmin, 1, fun f m a => fpMinMax f false m a),
      (Instr.amoFmax, 2, fun f m a => fpMinMax f true m a)] : List ((MemW → Instr) × Nat × (Fmt → Nat → Nat → Nat × Nat))),
    ∀ (t : Team) (r : MemW) (off x cmp mask n : Nat) (f : Fmt), r.fn.toNat = e.2.1 → t.sp.wf = true →
    (n = 4 ∧ (r.op = 0xD2 ∨ r.op = 0xD6) ∧ f = fmtF32 ∨ n = 2 ∧ (r.op = 0xD3 ∨ r.op = 0xD7) ∧ f = fmtBf16) →
    let m := Mem.readN t.sp off n
    let v := e.2.2 f m (x % 2 ^ (8 * n))
    ∃ t', t.serve (deedOf (e.1 r)) off x cmp mask = some (m, v.2, t') ∧ Mem.readN t'.sp off n = v.1 % 2 ^ (8 * n) ∧
      ∀ i, (i < off ∨ off + n ≤ i) → Mem.get t'.sp i = Mem.get t.sp i) ∧
  (∀ w : Word, w.getLsbD 63 = false → (opOfWord w = 0xD2 ∨ opOfWord w = 0xD3) → 3 ≤ (w.extractLsb' 0 4).toNat →
    decodeWord false w = .error 0x05)

/-! ## Synchronisation -/

/-- R229, R230, R319, R322, R323, R332: fences and releases. `fence` waits for the writes now in the core's path, which a scope
that reaches another C-die tags; `fence.rel` at scope entries 0 and 1 writes the promotion log, once the strand's local stores
are performed, at a wider one it puts those writes before the strand's later accesses; `rel` posts its write with its scope
entry, with an entry of the log at entries 0 and 1, or stores it in SP, with that entry once it is performed. R209, R229, R231,
R205: `acq` is a request; `acq.p` asks for a promotion first, and a handle that names no core, or another context, is the
remote-target fault. That a fence waits for every write now in the core's path and what an acquire acquires (log entry 15),
which writes a tag is sent with (log entry 92) and the banks of a release in SP (log entry 75) are the model's. -/
def Obligations.FencesAndAcquires : Prop :=
  ((∀ (x : Here) (r : MemW), x.Ready r.mods { scope := some r.scope.toNat } →
     let y := x.woken { scope := some r.scope.toNat }
     let sc := r.scope.toNat
     let wide := y.s.scopeWide y.t sc
     let z := (y.tagRelease wide).2
     (y.leadHeld wide = false → ∃ s', exec (.fence r) x.s = .next s' ∧
       WaitsOn { z with t := if wide then z.t.setStrand z.k { z.sd with relTag := (y.tagRelease wide).1 } else z.t }
         s' r.mods (.fence sc ((y.s.core y.t.core).nextNum + 1))) ∧
     (∃ s', exec (.fenceAcq r) x.s = .next s' ∧ WaitsOn y s' r.mods (.fence 0 0)) ∧
     (y.MayFence sc → ∃ s', exec (.fenceRel r) x.s = .next s' ∧ HasIssued (y.fenced sc) s' r.mods (nextPc y.pc) [])) ∧
   (∀ (x : Here) (r : MemW) (s1 : State),
     let d := deedOf (.rel r)
     let sc := r.scope.toNat
     let u := memUses r [opdB 0 r.d 1 (ones d.width)] false 0 false (some sc)
     x.Ready r.mods u →
     let y := x.woken u
     let ea := y.address r
     let v := (y.t.scalar r.d).toNat % 2 ^ (8 * d.width)
     let upto := (y.s.core y.t.core).nextNum
     let wide := y.s.scopeWide y.t sc
     let w := y.relWriter sc
     x.k < 4 → MemW.remote r = false → y.Passes r ea d.width d.width (ones d.width) → y.MayFence sc → y.sd.spills = [] →
     (r.space = 0 → y.s.post (if wide then { w with tag := none } else w) ea d.width v (ones d.width) false = .ok s1 →
       ((y.reload s1).s.core (y.reload s1).t.core).nextNum ≠ upto →
       ∃ s', exec (.rel r) x.s = .next s' ∧
         let z := ((y.reload s1).tagRelease wide).2
         HasIssued { z with s := if sc ≤ 1 then z.s.logRelease z.t sc else z.s } s' r.mods (nextPc z.pc) []) ∧
     (r.space = 1 → (2 ≤ sc → y.s.setClear y.t.core y.h y.k upto y.sd.acqUpto = true) →
       y.MayAccess r .sp ea d.width (ones d.width) →
       ∃ s', exec (.rel r) x.s = .next s' ∧
         let z := ((y.banked r.mods .sp ea d.width (ones d.width)).tagRelease wide).2
         HasIssued (z.spilled r ea d.width v (ones d.width) (if sc ≤ 1 then [sc] else [])) s' r.mods (nextPc y.pc) []))) ∧
  ((∀ (x : Here) (r : MemW),
     let d := deedOf (.acq r)
     let u := memUses r [opdW 0 r.d 1 true] false 0 false (some r.scope.toNat)
     x.Ready r.mods u →
     let y := x.woken u
     y.Passes r (y.address r) d.width d.width (ones d.width) → MemW.remote r = false →
     ∃ s', exec (.acq r) x.s = .next s' ∧
       Awaits y s' r.mods { Req.of (.acq r) (y.address r) (y.t.regOff r.d) with mask := 0xFF }) ∧
   (∀ (x : Here) (r : MemW),
     let d := deedOf (.acqP r)
     let u := memUses r [⟨0, r.d, 2, 0xF00, 0xFF⟩] false 0 false (some r.scope.toNat)
     x.Ready r.mods u →
     let y := x.woken u
     let h := (y.t.scalarAt r.d 1).toNat % 2 ^ 32
     y.Passes r (y.address r) d.width d.width (ones d.width) → MemW.remote r = false →
     (handleCore h < 576 → handleCtx h = y.t.ctx → ∃ s', exec (.acqP r) x.s = .next s' ∧
       Awaits y s' r.mods
         { Req.of (.acqP r) (y.address r) (y.t.regOff r.d) with mask := 0xFF, handle := h, st := .promotion }) ∧
     (576 ≤ handleCore h → y.TakesTraps → ∃ s', exec (.acqP r) x.s = .next s' ∧
       TrapTaken y s' { code := 0x12, reason := 0, info := BitVec.ofNat 64 h } y.pc) ∧
     (handleCore h < 576 → handleCtx h ≠ y.t.ctx → y.TakesTraps → ∃ s', exec (.acqP r) x.s = .next s' ∧
       TrapTaken y s' { code := 0x12, reason := 2, info := BitVec.ofNat 64 h } y.pc)))

/-- R232, R233: barriers. An arrival is a release fence at the scope and raises the team's own count; that it is made at issue
and counts for a phase once the writes and local stores before it are performed is the model's reading (log entry 28);
`bar.sync` and `bar.wt` wait for that phase, `bar.arr` does not; a scope that reaches a peer is the barrier-scope fault. -/
def Obligations.BarrierWords : Prop :=
  ∀ (x : Here) (r : MemW), x.Ready r.mods { scope := some r.scope.toNat } →
    let y := x.woken { scope := some r.scope.toNat }
    let b := r.off.toNat % 16
    let sc := r.scope.toNat
    let n := vget y.t.bars b 0
    let z := y.fenced sc
    let a : Arrival := { k := y.k, b := b, scope := sc, upto := if sc ≤ 1 then 0 else (y.s.core y.t.core).nextNum,
                         acq := y.sd.acqUpto, stores := y.sd.spills.foldl (fun n e => max n e.perform) 0 }
    let t := { z.t with
      bars := vset z.t.bars b (n + 1), barScope := vset z.t.barScope b sc, arriving := z.t.arriving ++ [a] }
    (y.s.scopeLevel y.t sc ≠ 2 → y.MayFence sc →
      (∃ s', exec (.barArr r) x.s = .next s' ∧ HasIssued (z.withTeam t) s' r.mods (nextPc y.pc) []) ∧
      (∃ s', exec (.barSync r) x.s = .next s' ∧ WaitsOn (z.withTeam t) s' r.mods (.barrier b sc (n + 1)))) ∧
    (y.s.scopeLevel y.t sc ≠ 2 → ∃ s', exec (.barWt r) x.s = .next s' ∧ WaitsOn y s' r.mods (.barrier b sc n)) ∧
    (y.s.scopeLevel y.t sc = 2 → y.TakesTraps →
      ∀ c ∈ ([Instr.barArr, Instr.barSync, Instr.barWt] : List (MemW → Instr)),
        ∃ s', exec (c r) x.s = .next s' ∧ TrapTaken y s' { code := 0x14, info := BitVec.ofNat 64 sc } y.pc)

/-! ## Queues -/

/-- R31, R157, R176, R220: `qdrop` removes entries, `qlen` counts those a pop could take or all of a store queue (the model's
reading, log entry 24), `qwait` waits for the pushes made so far. A pop of entries that are not there holds, and traps once the
access stream has stopped. -/
def Obligations.QueueWords : Prop :=
  (∀ (x : Here) (r : MemW), x.Ready r.mods {} →
    let y := x.woken {}
    let q := r.d.toNat % 4
    let n := r.off.toNat
    let l := vget y.t.lqs q []
    (n ≤ filled l → ∃ s', exec (.qdrop r) x.s = .next s' ∧
      HasIssued (y.popEntries q n) s' r.mods (nextPc y.pc) []) ∧
    (filled l < n → ¬(y.t.accStopped = true ∧ l.length < n) →
      ∃ s', exec (.qdrop r) x.s = .next s' ∧ HeldOn y s' (.popEmpty q n)) ∧
    (l.length < n → y.t.accStopped = true → y.TakesTraps →
      ∃ s', exec (.qdrop r) x.s = .next s' ∧ TrapTaken y s' { code := 0x0C, info := BitVec.ofNat 64 q } y.pc)) ∧
  (∀ (x : Here) (r : MemW),
    let u := plainUses [opdW 0 r.d 1 true] 2 true
    x.Ready r.mods u →
    ∃ s', exec (.qlen r) x.s = .next s' ∧
      let y := x.woken u
      let q := r.off.toNat
      HasIssued y s' r.mods (nextPc y.pc)
        [y.flyScalar r.d 2 (if q < 4 then filled (vget y.t.lqs q []) else (vget y.t.sqs (q - 4) []).length) 0]) ∧
  (∀ (x : Here) (r : MemW), x.Ready r.mods {} →
    ∃ s', exec (.qwait r) x.s = .next s' ∧
      WaitsOn (x.woken {}) s' r.mods (.drained (r.d.toNat % 2) (vget (x.woken {}).t.pushes (r.d.toNat % 2) 0)))

/-- R156, R221, R222: the access stream's forms. A `fetch` reserves the next entry of its queue, with the bytes of a window at
once and those of global memory or of another team with its request; a full/empty one of the team's own SP takes the data in the
cycle in which it is served, a remote one waits. A `drain` takes the oldest landed entry of its queue and writes all its 128
bytes: to a window, to the core's write path or to its target. `pref` brings the lines of its bytes into the access cache, and
does nothing for an address that is not canonical; with no strand live a `fetch` or `pref` does nothing. Which lines the cache
keeps and what `pref` brings (log entry 26), that `pref` has no alignment check (log entry 27) and the banks (log entry 75) are
the model's. -/
def Obligations.AccessStreamWords : Prop :=
  (∀ c ∈ ([Instr.fetch, Instr.fetchF, Instr.fetchFe, Instr.pref] : List (MemW → Instr)), ∀ (x : Here) (r : MemW),
    let u := memUses r [] false 0 false none
    x.Ready r.mods u → (x.woken u).t.drainOnly = true →
    ∃ s', exec (c r) x.s = .next s' ∧ HasIssued (x.woken u) s' r.mods (nextPc x.pc) []) ∧
  (∀ (x : Here) (r : MemW),
    let u := memUses r [] false 0 false none
    x.Ready r.mods u →
    let y := x.woken u
    let q := r.d.toNat % 4
    let ea := y.address r
    let rq : Req := { Req.of (.fetch r) ea q with mask := ones 128 }
    y.t.drainOnly = false → y.Passes r ea 128 8 (ones 128) → (vget y.t.lqs q []).length < 16 →
    (MemW.remote r = false → r.space ≠ 0 →
      let b := bufOfSpace r.space.toNat
      y.MayAccess r b ea 128 (ones 128) → ∃ s', exec (.fetch r) x.s = .next s' ∧
        let z := y.banked r.mods b ea 128 (ones 128)
        HasIssued { z with
            s := { z.s with nextReq := z.s.nextReq + 1 },
            t := z.t.reserve q z.s.nextReq (some (forwardBytes b ea y.sd.spills (y.t.readWindow b ea 128) 128)) false }
          s' r.mods (nextPc y.pc) []) ∧
    (∀ ps s1, MemW.remote r = false → r.space = 0 →
      y.s.spans y.t.ctx (dieOf y.t.core) (y.s.aperturesOf y.t) ea 128 (ones 128) .read { src := 1, handle := y.h } = (.ok ps, s1) →
      ∃ s', exec (.fetch r) x.s = .next s' ∧
        let z := ((y.reload s1).request { rq with locs := some ps }).2
        HasIssued { z with t := z.t.reserve q s1.nextReq none false } s' r.mods (nextPc z.pc) []) ∧
    (MemW.remote r = true → ∃ s', exec (.fetch r) x.s = .next s' ∧
      let z := (y.remoteCounted.request { rq with handle := y.remoteHandle r }).2
      HasIssued { z with t := z.t.reserve q y.s.nextReq none false } s' r.mods (nextPc y.pc) [])) ∧
  (∀ c ∈ ([Instr.fetchF, Instr.fetchFe] : List (MemW → Instr)), ∀ (x : Here) (r : MemW),
    let u := memUses r [] false 0 false none
    x.Ready r.mods u →
    let y := x.woken u
    let q := r.d.toNat % 4
    let ea := y.address r
    y.t.drainOnly = false → y.Passes r ea 128 8 (ones 128) → (vget y.t.lqs q []).length < 16 →
    (∀ v fl t1, MemW.remote r = false → r.space = 1 → y.FeFree (deedOf (c r)) ea → y.MayAccess r .sp ea 128 (ones 128) →
      y.t.serve (deedOf (c r)) ea 0 0 0 = some (v, fl, t1) →
      ∃ s', exec (c r) x.s = .next s' ∧
        let z := y.banked r.mods .sp ea 128 (ones 128)
        let z := ({ z with s := { z.s with nextReq := z.s.nextReq + 1 } }.withTeam t1).acquireIf true ea 128
        HasIssued { z with t := z.t.reserve q y.s.nextReq (some v) true } s' r.mods (nextPc z.pc) []) ∧
    (MemW.remote r = true → ∃ s', exec (c r) x.s = .next s' ∧
      let z := (y.remoteCounted.request { Req.of (c r) ea q with handle := y.remoteHandle r }).2
      WaitsOn { z with t := z.t.reserve q y.s.nextReq none true } s' r.mods (.reply y.s.nextReq))) ∧
  (∀ (x : Here) (r : MemW) (e : SqEntry) (v : Nat) (rest : List SqEntry),
    let u := memUses r [] false 0 false none
    x.Ready r.mods u →
    let y := x.woken u
    let q := r.d.toNat % 2
    let ea := y.address r
    let h := y.remoteHandle r
    let rq := fun i : Instr => { Req.of i ea 0 with x := v, mask := ones 128, handle := h, place := e.num, cmp := q }
    vget y.t.sqs q [] = e :: rest → e.data = some v → y.Passes r ea 128 8 (ones 128) →
    (MemW.remote r = false → r.space ≠ 0 → y.sd.spills = [] →
      let b := bufOfSpace r.space.toNat
      y.MayAccess r b ea 128 (ones 128) → ∃ s', exec (.drain r) x.s = .next s' ∧
        HasIssued { y.banked r.mods b ea 128 (ones 128) with t := (y.t.writeWindow b ea v (ones 128) 128).takeDrain q }
          s' r.mods (nextPc y.pc) []) ∧
    (∀ s1, MemW.remote r = false → r.space = 0 → y.MayPost ea 128 →
      y.s.post { y.writer with drainOf := some (q, e.num) } ea 128 v (ones 128) (4 ≤ y.k) = .ok s1 →
      ∃ s', exec (.drain r) x.s = .next s' ∧
        HasIssued { y.reload s1 with t := (y.reload s1).t.takeDrain q } s' r.mods (nextPc (y.reload s1).pc) []) ∧
    (MemW.remote r = true → handleCore h < 576 → handleCtx h = y.t.ctx → ∃ s', exec (.drain r) x.s = .next s' ∧
      let z := (y.remoteCounted.request (rq (.drain r))).2
      HasIssued { z with t := z.t.takeDrain q } s' r.mods (nextPc y.pc) []) ∧
    (∀ c ∈ ([Instr.drainEf, Instr.drainF] : List (MemW → Instr)), y.MayRelease →
      (∀ got fl t1, MemW.remote r = false → r.space = 1 → y.MayAccess r .sp ea 128 (ones 128) →
        y.t.serve (deedOf (c r)) ea v 0 (ones 128) = some (got, fl, t1) →
        ∃ s', exec (c r) x.s = .next s' ∧
          let z := (y.banked r.mods .sp ea 128 (ones 128)).withTeam t1
          HasIssued { z with t := t1.takeDrain q } s' r.mods (nextPc z.pc) []) ∧
      (let far := (deedOf (c r)).releasesFar y.t.core h
       MemW.remote r = true → handleCore h < 576 → handleCtx h = y.t.ctx → y.leadHeld far = false →
        ∃ s', exec (c r) x.s = .next s' ∧
          let z0 := (y.remoteCounted.tagRelease far).2
          let z := (z0.request (if 1 < implicitScope z0.t.core (handleCore h)
            then { rq (c r) with upto := (z0.s.core z0.t.core).nextNum, acq := z0.sd.acqUpto } else rq (c r))).2
          WaitsOn { z with t := z.t.takeDrain q } s' r.mods (.reply z0.s.nextReq)))) ∧
  (∀ (x : Here) (r : MemW),
    let u := memUses r [] false 0 false none
    x.Ready r.mods u →
    let y := x.woken u
    let ea := y.address r
    (isCanon ea = false → ∃ s', exec (.pref r) x.s = .next s' ∧ HasIssued y s' r.mods (nextPc x.pc) []) ∧
    (∀ (va pa : Nat) (s1 : State), y.t.drainOnly = false → isCanon ea = true → apertureHit (y.s.aperturesOf y.t) ea 128 = .none →
      y.s.translateAll y.t.ctx (dieOf y.t.core) .read (ones 128) (pagesOf ea 128) = ([(va, 0, 128, .frame pa)], s1) →
      (s1.core y.t.core).cache.length < 511 → s1.team? y.h = some y.t →
      ∃ s' c, exec (.pref r) x.s = .next s' ∧
        HasIssued { y with s := s1.setCore y.t.core { s1.core y.t.core with cache := c } } s' r.mods (nextPc x.pc) [] ∧
        (∀ e ∈ (s1.core y.t.core).cache, e ∈ c) ∧ ∀ l ∈ linesOf pa 128, ∃ e ∈ c, e.peer = none ∧ e.line = l))

/-- R236–R239: `enq` accepts the command of a register group with the accept sequence numbers of all queues, or holds for
room; `qclr` marks a stopped queue to be cleared in the next cycle and does nothing to another. R241–R243: signal slots. A
read gives the slot's value; an add or a set of the team's own slot takes effect in the next cycle; `sig.add.r` sends a
message to the core of its handle. -/
def Obligations.EngineQueueWords : Prop :=
  ((∀ (x : Here) (r : EngW),
     let u : Uses := { opds := [⟨1, r.a, 4, ones (8 * (lenOf (x.t.scalarAt r.a 0) + 1)), 0⟩] }
     x.Ready r.mods u →
     let y := x.woken u
     let q := r.q.toNat
     let e : QCmd := { seq := (y.t.queue q).accept, recs := #v[y.t.q0.accept, y.t.q1.accept, y.t.q2.accept],
                       cmd := y.command r.a }
     ((y.t.queue q).cmds.length < 32 → ∃ s', exec (.enq r) x.s = .next s' ∧
       HasIssued { y with t := y.t.setQueue q { y.t.queue q with
         cmds := (y.t.queue q).cmds ++ [e], accept := (y.t.queue q).accept + 1 } } s' r.mods (nextPc y.pc) []) ∧
     (32 ≤ (y.t.queue q).cmds.length → ∃ s', exec (.enq r) x.s = .next s' ∧ HeldOn y s' (.queueRoom q))) ∧
   (∀ (x : Here) (r : EngW), x.Ready r.mods {} →
     let y := x.woken {}
     let q := y.t.queue r.q.toNat
     ∃ s', exec (.qclr r) x.s = .next s' ∧
       HasIssued { y with t := if q.stopped then y.t.setQueue r.q.toNat { q with clear := true } else y.t }
         s' r.mods (nextPc y.pc) [])) ∧
  ((∀ (x : Here) (r : RegW),
     let on := x.gate0 r.pred r.pn
     let u : Uses := { opds := [opdW 0 r.d 1 on], predR := gateReads r.pred, lat := 2, holds := on, off := !on }
     x.Ready r.mods u →
     ∃ s', exec (.sigGet r) x.s = .next s' ∧
       let y := x.woken u
       HasIssued y s' r.mods (nextPc y.pc)
         (if on then [y.flyScalar r.d 2 (vget y.t.slots (r.c.toNat % 64) 0).toNat 0] else [])) ∧
   (∀ e ∈ ([(Instr.sigAdd, SlotChange.add), (Instr.sigSet, SlotChange.put)] :
       List ((RegW → Instr) × (Nat → Nat → SlotChange))), ∀ (x : Here) (r : RegW),
     let u : Uses := { opds := [opdB 1 r.a 1 0xF], predR := gateReads r.pred, off := !x.gate0 r.pred r.pn }
     x.Ready r.mods u →
     ∃ s', exec (e.1 r) x.s = .next s' ∧
       let y := x.woken u
       let c := e.2 (r.c.toNat % 64) ((y.t.scalar r.a).toNat % 2 ^ 32)
       HasIssued { y with t := if y.gate0 r.pred r.pn then { y.t with slotNext := y.t.slotNext ++ [c] } else y.t }
         s' r.mods (nextPc y.pc) []) ∧
   (∀ (x : Here) (r : RegW),
     let u : Uses := { opds := [opdB 1 r.a 2 0xF0F], predR := gateReads r.pred, off := !x.gate0 r.pred r.pn }
     x.Ready r.mods u →
     let y := x.woken u
     let h := (y.t.scalarAt r.a 1).toNat % 2 ^ 32
     y.gate0 r.pred r.pn = true → handleCore h < 576 → handleCtx h = y.t.ctx →
     ∃ s', exec (.sigAddR r) x.s = .next s' ∧
       let c := y.s.core (handleCore h)
       let msg : SpMsg := { h := y.h, k := y.k, tag := y.s.nextReq, target := h,
                            slotAdd := some (r.c.toNat % 64, (y.t.scalarAt r.a 0).toNat % 2 ^ 32) }
       HasIssued { y with s := { y.s with nextReq := y.s.nextReq + 1 }.setCore (handleCore h) { c with msgs := c.msgs ++ [msg] } }
         s' r.mods (nextPc y.pc) []))

/-! ## Engine commands -/

/-- R94, R272–R274: `nop`, `notify` and `qfence` are performed at once, `qfence` with the tag of its scope and the writes it
waits for; with nothing of theirs left to be sent and no write of their team outstanding they complete next: they leave their
queue, their SIGNAL takes effect, and FINAL of `notify` closes the queue. R275: `chain` puts the commands at its address in its
place: the next start there reads the first of them (here one of LEN 0), and starts it when its words are there; its last one's
completion ends `chain` itself and gives the SIGNAL of `chain`. R276, R314: `seal` sets SEAL in the leaf of every page of its
range that no view holds a part of, and seals every aperture whose view does; when a page may not be sealed the queue stops and
nothing is sealed; a page mapped by one leaf then has SEAL in its entry. A leaf larger than a page is sealed whole, and a page
that holds part of a view by its aperture alone (the model's readings, log entry 32). -/
def Obligations.QueueCommands : Prop :=
  (∀ c ∈ ([(Instr.cmdNop, 0x00), (Instr.notify, 0xF0)] : List ((Cmd → Instr) × BitVec 8)), ∀ (e : Eng) (k : Cmd),
    e.Performs k → e.Clear k c.2 →
    ∃ s', exec (c.1 k) e.s = .next s' ∧ Effect e.s s' e.h e.q e.t (fun p => p) ∧ e.Ends k s') ∧
  (∀ (e : Eng) (k : Cmd), e.Performs k → e.Clear k 0xF1 → e.MayRelease (cmdScope k) →
    ∃ s', exec (.qfence k) e.s = .next s' ∧
      Effect (e.released (cmdScope k)) s' e.h e.q e.t (fun p => { p with upto := (e.s.core e.t.core).nextNum }) ∧ e.Ends k s') ∧
  ((∀ (e : Eng) (c : Cmd), e.Performs c →
     ∃ s', exec (.chain c) e.s = .next s' ∧
       s'.team? e.h = some (e.t.setQueue e.q { e.t.queue e.q with
         prog := none, chain := some { left := fld c 0 16, addr := bits c.w1.toNat 0 56, index := 0 } }) ∧
       (∀ g, g ≠ e.h → s'.team? g = e.s.team? g) ∧ s' = { e.s with teams := s'.teams }) ∧
   (∀ (s s1 : State) (h q pa n : Nat) (t : Team) (x : QCmd) (l : List QCmd) (ch : Chain), q < 3 → s.team? h = some t →
     t.mayStart q = true → (t.queue q).cmds = x :: l → (t.queue q).chain = some ch → ch.cur = none → ch.got = [] →
     ch.asked = [] → (t.queue q).refused = false → (t.queue q).serial = none →
     s.resolve t.ctx (dieOf t.core) (s.aperturesOf t) (canon ch.addr) 8 .read
       { src := 2, handle := h, qseq := qseqOf q (t.queue q).headSeq } = (.ok (.frame pa) n, s1) →
     s1.team? h = some t → n = 8 → s1.lineBad pa 8 = false → bits (s1.readAt t.core pa 8) 38 2 = 0 →
     ∃ s' t', exec (.engineCmdStart h q) s = .next s' ∧ s'.team? h = some t' ∧
       (t'.queue q).chain = some { ch with
         got := [{ va := canon ch.addr, len := 8, data := s1.readAt t.core pa 8 }],
         cur := some (Cmd.ofWords (BitVec.ofNat 64 (s1.readAt t.core pa 8)) 0 0 0) }) ∧
   (∀ (s : State) (h q : Nat) (t : Team) (x : QCmd) (l : List QCmd) (ch : Chain) (c : Cmd), q < 3 → s.team? h = some t →
     t.mayStart q = true → (t.queue q).cmds = x :: l → (t.queue q).chain = some ch → ch.cur = some c →
     ((t.queue q).checked = false → leastFault (s.headFaults t q c) = none) → c.cmd ≠ 0xF2 →
     let t1 := t.setQueue q { t.queue q with checked := true }
     let s1 := s.setTeam h t1
     ((t.queue q).waited = false → t1.waitHolds x c = true) → t1.fenceHolds x c = true →
     t1.tilesFree (tileUse c) = true → leastFault (namedFaults t1 c ++ s1.startFaults t1 c) = none → c.cmd ≠ 0x21 →
     ∃ s' t' p, exec (.engineCmdStart h q) s = .next s' ∧ TeamIs s s' h t' ∧ (t'.queue q).prog = some p ∧ p.cmd = c ∧
       p.phase = .started ∧ (t'.queue q).chain = some ch ∧ (t'.queue q).cmds = x :: l) ∧
   (∀ (s : State) (h q : Nat) (t : Team) (p : Prog) (x : QCmd) (l : List QCmd) (ch : Chain), q < 3 → s.team? h = some t →
     (t.queue q).prog = some p → s.atEnd t q p = true → hasFollowOn p.cmd = false → (t.queue q).cmds = x :: l →
     (t.queue q).chain = some ch → p.cmd.signal = 0 →
     ∃ s' t', exec (.engineCmdComplete h q) s = .next s' ∧ s'.team? h = some t' ∧ (t'.queue q).prog = none ∧
       (ch.left ≤ 1 → (t'.queue q).chain = none ∧ (t'.queue q).cmds = l ∧ t'.slotNow = t.slotNow ++
         (if 1 ≤ x.cmd.signal.toNat ∧ x.cmd.signal.toNat < 64 then [.add x.cmd.signal.toNat 1] else [])) ∧
       (1 < ch.left → (t'.queue q).cmds = x :: l ∧ t'.slotNow = t.slotNow ∧ (t'.queue q).chain =
         some { left := ch.left - 1, addr := ch.addr + 8 * (p.cmd.len.toNat + 1), index := ch.index + 1 }))) ∧
  (∀ (e : Eng) (c : Cmd), e.Performs c →
     let pages := (List.range (c.w2.toNat / 4096)).map fun i => bits c.w1.toNat 0 56 + 4096 * i
     (pages.all (fun va => e.s.sealable e.t va) = true →
       exec (.sealRange c) e.s = .next ((e.performed
         ((pages.flatMap (viewsOf e.aps)).eraseDups.foldl e.sealAperture
           ((pages.filter fun va => (viewsOf e.aps va).isEmpty).foldl (fun s va => s.sealPage e.t.ctx va) e.s)) id).drainOut
         e.h e.q)) ∧
     (∀ i, (pages.findIdx? fun va => !e.s.sealable e.t va) = some i →
       exec (.sealRange c) e.s = .next ((e.s.stopQueue e.h e.q 0x38 0 i none).drainOut e.h e.q)) ∧
     (∀ level a, c.w2 = 4096 → e.s.sealable e.t (bits c.w1.toNat 0 56) = true → viewsOf e.aps (bits c.w1.toNat 0 56) = [] →
       e.p.out = [] → e.s.pteAt e.t.ctx (bits c.w1.toNat 0 56) = some (level, a) →
       (level = 0 → pteCont (Mem.readN e.s.hbm a 8) = false) → e.s.hbm.wf = true →
       ∃ s', exec (.sealRange c) e.s = .next s' ∧
         ∀ b, Mem.get s'.hbm b = if b = a then Mem.get e.s.hbm b ||| 16 else Mem.get e.s.hbm b))

/-- R262, R263: `cp.mv` fills a tile from another one, transposed or not, and `cp.zero` fills one with zero codes under
scale 127, or with zero bytes when its descriptor is not usable. R257, R260, R279: `cp.ld` gathers the bytes of its tensor's
rows until they are there; then it fills its tile, with the elements beyond the tensor's edge empty. R261: `cp.st` writes its
tile's rows over the tensor's, one after another, converted or not, once the last bytes that keep bits of theirs (log
entry 33) are there; without conversion, and with rows that end with a byte, what it writes is the codes of its tile's rows. -/
def Obligations.TileCommands : Prop :=
  (CommandForm .cpMv (fun e c => e.TilesPresent [bits c.w1.toNat 0 6, tileOf c])
     (fun e c => (e.t.fillTile c (e.tile (tileOf c)) (e.tileFd (tileOf c)) (fdOf (e.tileFd (bits c.w1.toNat 0 6)).toNat)
       fun i j =>
         let m := bits c.w1.toNat 0 6
         some ((fdOf (e.tileFd m).toNat).codeAt (e.t.tileRow (e.tile m) (e.tileFd m) (if trOf c then j else i))
           (if trOf c then i else j))).1)
     (fun e c p => { p with flags := p.flags ||| (e.t.fillTile c (e.tile (tileOf c)) (e.tileFd (tileOf c))
       (fdOf (e.tileFd (bits c.w1.toNat 0 6)).toNat)
       fun i j =>
         let m := bits c.w1.toNat 0 6
         some ((fdOf (e.tileFd m).toNat).codeAt (e.t.tileRow (e.tile m) (e.tileFd m) (if trOf c then j else i))
           (if trOf c then i else j))).2 }) ∧
   CommandForm .cpZero (fun e c => e.TilesPresent [tileOf c])
     (fun e c =>
       let x := e.tile (tileOf c)
       let fd := e.tileFd (tileOf c)
       (List.range x.rows).foldl (fun t i =>
         t.setTileRow x fd i (if fdUsable fd.toNat then (fdOf fd.toNat).zeroRow x.cols else 0)) e.t)
     (fun _ _ p => p)) ∧
  (let fill := fun (e : Eng) (c : Cmd) => e.t.fillTile c (e.tile (tileOf c)) (e.tileFd (tileOf c)) (e.gfd c) fun i j =>
     let r := if trOf c then j else i
     let k := if trOf c then i else j
     if r < (e.reach c).1 && k < (e.reach c).2
     then some ((e.gfd c).codeAt (e.p.row (tensorOf c) (e.gfd c) r (e.reach c).2) k) else none
   let need := fun (e : Eng) (c : Cmd) => readSegs e.aps ((List.range (e.reach c).1).flatMap fun r =>
     (tensorOf c).rowRanges (e.gfd c) r (e.reach c).2)
   CommandForm .cpLd (fun e c => e.p.ready (need e c) = true ∧ e.TilesPresent [tileOf c])
     (fun e c => (fill e c).1) (fun e c p => { p with flags := p.flags ||| (fill e c).2 }) ∧
   ∀ (e : Eng) (c : Cmd), e.Performs c → e.p.ready (need e c) = false →
     exec (.cpLd c) e.s = .next ((e.gather (need e c)).drainOut e.h e.q)) ∧
  (CommandForm .cpSt (fun e c => e.p.ready (e.storeNeed c) = true ∧ e.TilesPresent [tileOf c])
     (fun e c => (e.storeRows c).1)
     (fun e c p => { p with out := (e.storeRows c).2.1, flags := p.flags ||| (e.storeRows c).2.2 }) ∧
   (∀ (e : Eng) (c : Cmd), e.Performs c → e.p.ready (e.storeNeed c) = false →
     exec (.cpSt c) e.s = .next ((e.gather (e.storeNeed c)).drainOut e.h e.q)) ∧
   ∀ (e : Eng) (c : Cmd), cvOf c = 0 → ((e.gfd c).kind = 1 → (e.gfd c).bs = 0 → (e.reach c).2 * (e.gfd c).w % 8 = 0) →
     let row := fun r => (e.gfd c).rawRow (e.storedRow c r (e.reach c).2)
     e.storeNeed c = [] ∧
     e.storeRows c = (e.t,
       segsOf e.aps ((List.range (e.reach c).1).flatMap fun r =>
         cutSegs ((tensorOf c).rowVa r) ((e.gfd c).rowBytes (e.reach c).2) (row r).1),
       orAll ((List.range (e.reach c).1).map fun r => (row r).2)))

/-- R264, R265, R382: `cp.red` makes one update for each element that it would store, in order, and sends them; `cp.renc`
claims the tile for the team's generation, and has its effect once the claim has ended. -/
def Obligations.ReduceAndReencode : Prop :=
  (∀ (e : Eng) (c : Cmd), e.Performs c → e.TilesPresent [tileOf c] →
    let gv := vget e.p.fds (gfdOf c) 0
    let src := fdOf (e.tileFd (tileOf c)).toNat
    let ten := tensorOf c
    let els := (List.range (e.reach c).1).flatMap fun r => ((e.storedRow c r (e.reach c).2).zipIdx).map fun p =>
      let v := src.elemValue p.1.1 p.1.2
      let va := canon (ten.addr + r * ten.pitch + p.2 * (fdOf gv.toNat).alignWidth)
      ((va, { mdie := 0, ctx := e.t.ctx, region := bits c.w3.toNat 16 32, seq := BitVec.ofNat 16 c.w3.toNat, h := e.h,
              back := none, pa := none, fd := gv, op := bits c.w3.toNat 48 2, val := v.1, va := va,
              cmdSeq := e.x.headSeq : RedMsg }), v.2)
    ∃ s1, Effect e.s s1 e.h e.q e.t
        (fun p => { p with reds := els.map (·.1), flags := p.flags ||| orAll (els.map (·.2)) }) ∧
      exec (.cpRed c) e.s = .next (match (s1.drainOut e.h e.q).eng? e.h e.q with
        | some e1 => e1.reduceOn
        | none => s1.drainOut e.h e.q)) ∧
  (∀ (e : Eng) (c : Cmd) (n i : Nat), e.Performs c → e.s.claimOf (.renc e.h e.q) = none →
    e.s.rencTile e.t c = some (n, i) →
    exec (.cpRenc c) e.s = .next ((e.s.addClaim
      { by_ := .renc e.h e.q, ctx := e.t.ctx, core := e.t.core, entry := n, tile := i, gen := e.t.gen.toNat }).drainOut e.h e.q)) ∧
  (∀ (e : Eng) (c : Cmd) (k tgen : Nat) (x : Claim), e.Performs c → e.s.claimOf (.renc e.h e.q) = some (k, x) →
    x.st = .ended tgen →
    ∃ s1, exec (.cpRenc c) e.s = .next (s1.drainOut e.h e.q) ∧
      Effect { e.s with claims := tdel e.s.claims k } s1 e.h e.q e.t (fun p => p))

/-- R249–R254: the matrix commands make their products in order, each element of C by the steps of R252 (where two products
share a C tile and ZC is 1 each starts at 0: the model's choice, log entry 79), and then need their cell operations, of which
each joined bank does 1,024 in a cycle, the first of them in that cycle; a command that needs no more than its banks do in it
completes next. -/
def Obligations.MatrixCommands : Prop :=
  ∀ c ∈ ([(Instr.mm, 0x20), (Instr.mmG, 0x21)] : List ((Cmd → Instr) × BitVec 8)),
    (∀ (e : Eng) (k : Cmd), e.Performs k → e.TilesPresent (tileUse k).reads → e.p.out = [] →
      let r := (e.productRows k).foldl (fun (acc : Eng × Nat × Nat) p =>
        let x := acc.1.product k p.1 p.2
        (x.1, acc.2.1 ||| x.2.1, acc.2.2 + x.2.2)) (e, 0, 0)
      ∃ s', exec (c.1 k) e.s = .next s' ∧
        Effect e.s s' e.h e.q r.1.t
          (fun p => { p with flags := p.flags ||| r.2.1, work := r.2.2 - 1024 * e.t.joined }) ∧
        (e.Clear k c.2 → r.2.2 ≤ 1024 * e.t.joined → e.Ends k s')) ∧
    (∀ (s : State) (h q : Nat) (t : Team) (p : Prog), s.cur = .engine h q → s.team? h = some t → (t.queue q).prog = some p →
      p.phase = .performed → p.out = [] →
      ∃ s', exec (c.1 p.cmd) s = .next s' ∧ TeamIs s s' h (t.setQueue q { t.queue q with
        prog := some { p with work := p.work - 1024 * t.joined } }))

/-- R267, R268, R270, R323: `cl.put` copies bytes, `cl.putq` FP32 values through a format, once their source bytes are there;
they are written with the tag of a scope that reaches another C-die. -/
def Obligations.CollectivePuts : Prop :=
  ScopedCommandForm .clPut (fun e c => e.p.ready (readSegs e.aps [(c.w1.toNat, fld c 0 32)]) = true)
    (fun e c p => { p with
      out := segsOf e.aps (cutSegs c.w2.toNat (fld c 0 32) (e.p.bytes c.w1.toNat (fld c 0 32))),
      tag := e.releaseTag (cmdScope c) }) ∧
  ScopedCommandForm .clPutq (fun e c => e.p.ready (readSegs e.aps [(c.w1.toNat, 4 * fld c 0 32)]) = true)
    (fun e c p =>
      let n := fld c 0 32
      let r := wire (some (fdOf c.w3.toNat)) (elems 4 n (e.p.bytes c.w1.toNat (4 * n)))
      { p with
        out := segsOf e.aps (cutSegs c.w2.toNat (4 * n) (ofElems 4 r.1)), flags := p.flags ||| r.2,
        tag := e.releaseTag (cmdScope c) })

/-- R266, R268, R269: a reduction or gather at a rank that has sent its values to every other rank and holds theirs, with equal
digests and lengths: its output is the result that R268 gives, and the data it held is gone. The digest, the FP32 values
exchanged and the FLAGS of the whole tree at every rank (log entry 34), and that data is held by its sender (log entry 80), are
the model's. -/
def Obligations.CollectiveReductions : Prop :=
  ∀ k ∈ ([Instr.clAred, Instr.clRsc, Instr.clAgat] : List (Cmd → Instr)), ∀ (e : Eng) (c : Cmd) (d : ClDesc),
    e.Performs c →
    let n := fld c 0 32
    let lfd := fdOf (vget e.p.fds (fld c 32 4) 0).toNat
    let v := e.p.bytes c.w1.toNat 64
    let tab := e.p.bytes d.table (8 * d.ranks)
    let ranks := (elems 8 d.ranks tab).map rankOf
    let row := e.p.bytes c.w2.toNat (lfd.rowBytes n)
    let own := (List.range n).map fun i => match (lfd.valueAt row i).1 with
      | .nan true => 0x7F800001
      | x => (roundStd fmtF32 .rne x).1
    let digest := Config.collectiveDigest (toBytes 64 (v - bits v 16 8 * 2 ^ 16) ++ toBytes (8 * d.ranks) tab)
    let others := (List.range d.ranks).filter (· ≠ d.mine)
    let vs := (List.range d.ranks).map fun q =>
      match e.s.arrived e.h q ranks with
      | some x => if q = d.mine then own else elems 4 n (ofBytes x.data)
      | none => own
    let r := ClDesc.collect c d n lfd vs
    c.w1.toNat % 64 = 0 → clDescOf v = some d → (c.cmd = 0x41 → n % d.ranks = 0) →
    e.p.ready (readSegs e.aps [(c.w1.toNat, 64)]) = true →
    e.p.ready (readSegs e.aps [(d.table, 8 * d.ranks), (c.w2.toNat, lfd.rowBytes n)]) = true →
    (∀ x ∈ elems 8 d.ranks tab, rankBad e.t.ctx x = false) →
    (∀ q < d.ranks, q ≠ d.mine → e.p.reached.contains q = true ∧
      ∃ x, e.s.arrived e.h q ranks = some x ∧ x.digest = digest ∧ x.data.length = 4 * n) →
    ∃ s1, exec (k c) e.s = .next (s1.drainOut e.h e.q) ∧
      Effect (e.s.takeData e.h ranks others) s1 e.h e.q e.t (fun p => { p with
        out := segsOf e.aps (cutSegs c.w3.toNat (kindBytes lfd.kind * r.1.length) (ofElems (kindBytes lfd.kind) r.1)),
        flags := p.flags ||| r.2.1,
        noise := if c.cmd = 0x40 && bit d.stat 15 && d.op = 0 && (ranks.findIdx? (·.here)).getD 0 = d.mine then
          some (bits d.stat 0 8, noiseOf vs r.2.2) else none,
        reached := [] })

/-! ## Events of streams -/

/-- R42, R44, R73, R74, R76, R176: a result that is due is written: bytes of the register allocation under its mask, whose
granules it touches, predicate bits, or the place reserved in a store queue, with its FLAGS; nothing else of the team changes,
and a result for p0 is discarded. Of several results due at one strand time the later-issued one has each byte and each
predicate bit that they share. An exiting strand with nothing left in flight stops. -/
def Obligations.ResultsLand : Prop :=
  (∀ (s : State) (h k off : Nat) (t : Team) (f : Flight), k ≤ 4 → s.team? h = some t → (t.strand k).exiting = false →
    ((t.strand k).flights.filter fun f => f.land ≤ (t.strand k).time) = [f] → f.dest = .reg off → t.regs.wf = true →
    ∃ s' t', exec (.resultLands h k) s = .next s' ∧ TeamIs s s' h t' ∧
      t' = { t.setStrand k { t.strand k with flights := (t.strand k).flights.filter fun f => (t.strand k).time < f.land } with
        regs := t'.regs, grans := t'.grans, flags := t.flags ||| (f.flags &&& 0x3FF),
        flagNow := t.flagNow ||| (f.flags &&& 0x3FF) } ∧
      (∀ g, (∀ a, off ≤ a → a < off + f.len → f.mask.testBit (a - off) = true → a / 4096 ≠ g) →
        vget t'.grans g {} = vget t.grans g {}) ∧
      ∀ a, Mem.get t'.regs a =
        if off ≤ a ∧ a < off + f.len ∧ f.mask.testBit (a - off) = true then BitVec.ofNat 8 (f.data >>> (8 * (a - off)))
        else Mem.get t.regs a) ∧
  (∀ (s : State) (h k q num : Nat) (t : Team) (f : Flight), k ≤ 4 → s.team? h = some t → (t.strand k).exiting = false →
    ((t.strand k).flights.filter fun f => f.land ≤ (t.strand k).time) = [f] → f.dest = .push q num →
    ∃ s', exec (.resultLands h k) s = .next s' ∧
      TeamIs s s' h { t.setStrand k { t.strand k with
          flights := (t.strand k).flights.filter fun f => (t.strand k).time < f.land } with
        sqs := vset t.sqs q ((vget t.sqs q []).map fun e => if e.num = num then { e with data := some f.data } else e),
        flags := t.flags ||| (f.flags &&& 0x3FF), flagNow := t.flagNow ||| (f.flags &&& 0x3FF) }) ∧
  (∀ (s : State) (h k n : Nat) (t : Team) (f : Flight), k ≤ 4 → 1 ≤ n → n ≤ 7 → s.team? h = some t →
    (t.strand k).exiting = false → ((t.strand k).flights.filter fun f => f.land ≤ (t.strand k).time) = [f] → f.dest = .pred n →
    ∃ s' d, exec (.resultLands h k) s = .next s' ∧
      TeamIs s s' h { t.setStrand k d with
        flags := t.flags ||| (f.flags &&& 0x3FF), flagNow := t.flagNow ||| (f.flags &&& 0x3FF) } ∧
      d = { t.strand k with
        flights := (t.strand k).flights.filter fun f => (t.strand k).time < f.land, preds := d.preds } ∧
      (∀ m, m ≠ n → d.pred m = (t.strand k).pred m) ∧
      ∀ i < 128, (d.pred n).getLsbD i = if f.mask.testBit i then f.data.testBit i else ((t.strand k).pred n).getLsbD i) ∧
  (∀ (s : State) (h k : Nat) (t : Team) (f : Flight), k ≤ 4 → s.team? h = some t → (t.strand k).exiting = false →
    ((t.strand k).flights.filter fun f => f.land ≤ (t.strand k).time) = [f] → f.dest = .pred 0 →
    ∃ s', exec (.resultLands h k) s = .next s' ∧
      TeamIs s s' h { t.setStrand k { t.strand k with
          flights := (t.strand k).flights.filter fun f => (t.strand k).time < f.land } with
        flags := t.flags ||| (f.flags &&& 0x3FF), flagNow := t.flagNow ||| (f.flags &&& 0x3FF) }) ∧
  (∀ (s : State) (h k : Nat) (t : Team) (l : List Flight), k ≤ 4 → s.team? h = some t → (t.strand k).exiting = false →
    ((t.strand k).flights.filter fun f => f.land ≤ (t.strand k).time) = l → (∀ f ∈ l, f.land = (t.strand k).time) →
    (∀ f ∈ l, ∀ n fn, f.dest ≠ .creg n fn) → t.regs.wf = true →
    ∃ s' t', exec (.resultLands h k) s = .next s' ∧ TeamIs s s' h t' ∧
      (∀ a, (∀ f ∈ l, ¬ f.covers a) → Mem.get t'.regs a = Mem.get t.regs a) ∧
      (∀ l1 f l2 off a, l = l1 ++ f :: l2 → f.dest = .reg off → f.covers a → (∀ g ∈ l2, ¬ g.covers a) →
        Mem.get t'.regs a = BitVec.ofNat 8 (f.data >>> (8 * (a - off)))) ∧
      (∀ n i, 1 ≤ n → n ≤ 7 → i < 128 → (∀ f ∈ l, f.dest = .pred n → f.mask.testBit i = false) →
        ((t'.strand k).pred n).getLsbD i = ((t.strand k).pred n).getLsbD i) ∧
      (∀ l1 f l2 n i, l = l1 ++ f :: l2 → f.dest = .pred n → 1 ≤ n → n ≤ 7 → i < 128 → f.mask.testBit i = true →
        (∀ g ∈ l2, g.dest = .pred n → g.mask.testBit i = false) →
        ((t'.strand k).pred n).getLsbD i = f.data.testBit i) ∧
      t'.flags = t.flags ||| (l.foldl (fun x f => x ||| f.flags) 0 &&& 0x3FF)) ∧
  (∀ (s : State) (h k j : Nat) (t : Team), k < 4 → j < 4 → j ≠ k → s.team? h = some t → (t.strand k).exiting = true →
    (t.strand k).live = true → (t.strand j).live = true → (t.strand k).flights = [] →
    ∃ s', exec (.resultLands h k) s = .next s' ∧
      TeamIs s s' h (t.setStrand k { t.strand k with live := false, exiting := false, wait := .none }))

/-- R208: a local store that is due changes the bytes of its buffer that its mask names, and no other byte of any
buffer. R332: with it is logged the release at scope entry 0 or 1 that it is the last store of. -/
def Obligations.LocalStoresPerform : Prop :=
  ∀ (s : State) (h k : Nat) (t : Team) (e : Spill), k ≤ 4 → s.team? h = some t →
    ((t.strand k).spills.filter fun e => e.perform ≤ (t.strand k).time) = [e] →
    (∀ f ∈ (t.strand k).flights, f.src = none) → (t.window e.buf).wf = true → e.logs.length ≤ 1 → t.toLog = [] →
    ∃ s' t', exec (.localStorePerform h k) s = .next s' ∧ s'.team? h = some t' ∧ (∀ g, g ≠ h → s'.team? g = s.team? g) ∧
      s' = { s with teams := s'.teams, cores := s'.cores } ∧
      t' = { t.setStrand k { t.strand k with spills := (t.strand k).spills.filter fun e => (t.strand k).time < e.perform } with
        wb := t'.wb, ab := t'.ab, cb := t'.cb, sp := t'.sp, dirty := t'.dirty, spBusy := t'.spBusy } ∧
      (∀ b, b ≠ e.buf → t'.window b = t.window b) ∧
      (∀ a, Mem.get (t'.window e.buf) a =
        if e.off ≤ a ∧ a < e.off + e.len ∧ e.mask.testBit (a - e.off) = true then BitVec.ofNat 8 (e.data >>> (8 * (a - e.off)))
        else Mem.get (t.window e.buf) a) ∧
      (e.logs = [] → s'.cores = s.cores) ∧
      ∀ sc, e.logs = [sc] →
        (∀ d, d ≠ t.core → s'.core d = s.core d) ∧ (s'.core t.core).relCount = (s.core t.core).relCount + 1 ∧
        ∃ x ∈ (s'.core t.core).log, x.seq = (s.core t.core).relCount + 1 ∧ x.ctx = t.ctx ∧ x.serial = handleSerial t.handle ∧
          x.core1 = decide (sc = 1) ∧ x.prom = 0 ∧ x.upto = (s.core t.core).nextNum ∧ x.valid = true

/-- R57, R154, R155, R168, R218, R233, R294, R318: a wait or a hold whose condition holds ends, and the stream may present its
next word, unless an event posted to its team is taken at the wait instead; `wait.sig` consumes one unit of its slot;
`wait.tile` reads the tile's state at the start of the cycle; a wait for what another agent completed is an acquire, after which
the writes then in the core's path happen before what the stream does (the model's reading, log entry 15). -/
def Obligations.ConditionsMet : Prop :=
  (∀ (s : State) (h k n : Nat) (t : Team), s.team? h = some t → t.resident = true → k < 4 → (t.strand k).wait = .sig n →
    0 < t.available n → t.eventNow k = none →
    ∃ s', exec (.waitConditionMet h k) s = .next s' ∧
      TeamIs s s' h { t.setStrand k { t.strand k with wait := .none, acqUpto := (s.core t.core).nextNum } with
        slotNow := t.slotNow ++ [.dec n] }) ∧
  (∀ (s : State) (h k : Nat) (t : Team) (e : AsyncEvent), s.team? h = some t → t.eventNow k = some e →
    exec (.waitConditionMet h k) s = exec (.asyncEventDelivery h) s) ∧
  (∀ (s : State) (h k : Nat) (t : Team), s.team? h = some t → t.resident = true → k ≤ 4 → t.eventNow k = none →
    (((∃ n x, (t.strand k).wait = .tile n ∧ t.tile? n = some x ∧ x.was = .ready) ∨
        (∃ q seq, (t.strand k).wait = .queue q seq ∧ (t.queue q).uncompleted seq = 0) ∨
        (∃ sc n, (t.strand k).wait = .fence sc n ∧ s.fencePassed t k sc n = true) ∨
        ∃ q n, (t.strand k).wait = .drained q n ∧ s.drainPassed t q n = true) →
      ∃ s', exec (.waitConditionMet h k) s = .next s' ∧
        s'.team? h = some (t.setStrand k { t.strand k with wait := .none, acqUpto := (s.core t.core).nextNum }) ∧
        (∀ g, g ≠ h → s'.team? g = s.team? g) ∧ s' = { s with teams := s'.teams, cores := s'.cores } ∧
        (k < 4 → s'.cores = s.cores)) ∧
    (((∃ a, (t.strand k).wait = .mer a ∧ a.toNat ≤ s.meridian) ∨ (t.strand k).wait = .yield ∨
        ∃ n, (t.strand k).wait = .answered n) →
      ∃ s', exec (.waitConditionMet h k) s = .next s' ∧ TeamIs s s' h (t.setStrand k { t.strand k with wait := .none }))) ∧
  (∀ (s : State) (h k : Nat) (t : Team), s.team? h = some t → t.resident = true →
    ((∃ q n, (t.strand k).wait = .popEmpty q n ∧ (n ≤ filled (vget t.lqs q []) ∨ t.accStopped = true)) ∨
      (∃ q, (t.strand k).wait = .pushFull q ∧ (vget t.sqs q []).length < 16) ∨
      (∃ off n full, (t.strand k).wait = .fe off n full ∧ ((∀ i < n, t.isFull (off / 8 + i) = full) ∨
        (4 ≤ k ∧ t.liveStrands = []))) ∨
      (∃ g, (t.strand k).wait = .granule g ∧ (t.present.contains g = true ∨ t.mapOf g = none)) ∨
      ∃ q, (t.strand k).wait = .queueRoom q ∧ (t.queue q).room = true) →
    ∃ s', exec (.headConditionMet h k) s = .next s' ∧ TeamIs s s' h (t.setStrand k { t.strand k with wait := .none })) ∧
  (∀ (s : State) (h b k sc : Nat) (ph : BitVec 16) (t : Team), s.team? h = some t → t.resident = true → k < 4 →
    (t.strand k).wait = .barrier b sc ph → s.phaseComplete t b sc ph = true →
    let goesOn := fun (x : Strand) => { x with wait := .none, acqUpto := (s.core t.core).nextNum }
    ∃ s' t', exec (.barrierPhaseComplete h b) s = .next s' ∧ TeamIs s s' h t' ∧ t' = { t with strands := t'.strands } ∧
      (t'.strand k) = goesOn (t.strand k) ∧
      ∀ j ≤ 4, t'.strand j = t.strand j ∨
        (t'.strand j = goesOn (t.strand j) ∧ ∃ sc ph, (t.strand j).wait = .barrier b sc ph ∧ s.phaseComplete t b sc ph = true))

/-- R42, R168, R169, R356, R395, R446: an asynchronous event is delivered as a trap to the lowest-numbered live strand whose INH
is 0 when it waits, at the wait's own address, or when it holds for room in a queue that has stopped; a slot cluster passes on
after four cycles; a granule goes drowsy after 4,096 cycles; an uncorrectable error under a local load is the data-error trap
and an event of its core, and the load's destination is not written. -/
def Obligations.StreamInterruptions : Prop :=
  (∀ (s : State) (h k : Nat) (t : Team) (e : AsyncEvent) (es : List AsyncEvent), s.team? h = some t → t.events = e :: es →
    t.eventStrand = some k → t.resident = true → t.halted = false → (t.strand k).exiting = false →
    t.trapEnt ≠ 0 → (t.strand k).wait.takesEvent = true ∨ (∃ q, (t.strand k).wait = .queueRoom q ∧ (t.queue q).stopped = true) →
    ∃ s', exec (.asyncEventDelivery h) s = .next s' ∧
      s'.team? h = some { t.setStrand k ((t.strand k).afterTrap t.trapEnt e.trap
          (if (t.strand k).wait.takesEvent then ((t.strand k).pc - 8) &&& 0x00FFFFFFFFFFFFFF else (t.strand k).pc))
        with events := es } ∧
      (∀ g, g ≠ h → s'.team? g = s.team? g) ∧ s' = { s with teams := s'.teams, reqs := s'.reqs }) ∧
  (∀ (s : State) (core k g : Nat) (t u : Team), k < 4 → (vget (s.core core).clusters k {}).handle = some g →
    s.team? g = some t → t.syncReady = false → 4 ≤ (vget (s.core core).clusters k {}).ran →
    (s.passOrder core k).head? = some u → u.handle ≠ t.handle →
    ∃ s', exec (.clusterTimeSlice core k) s = .next s' ∧
      CoreIs s s' core { s.core core with
        clusters := vset (s.core core).clusters k
          { handle := some u.handle, ran := 0, next := (u.slot?.map (· + 1)).getD (vget (s.core core).clusters k {}).next } }) ∧
  (∀ (s : State) (h g : Nat) (t : Team), s.team? h = some t → t.resident = true → g < t.regsz →
    let x := (vget t.grans g {}).seen s.cycle
    x.drowsy = false → x.touched + 4096 ≤ s.cycle →
    ∃ s', exec (.granuleDrowsy h g) s = .next s' ∧
      TeamIs s s' h { t with grans := vset t.grans g { x with drowsy := true } }) ∧
  (∀ (s : State) (h k off : Nat) (t : Team) (f : Flight) (r : LocalRead), k < 4 → s.team? h = some t → t.halted = false →
    (t.strand k).inh = false → t.trapEnt ≠ 0 → f ∈ (t.strand k).flights → f.land ≤ (t.strand k).time → f.readAt = 0 →
    f.src = some r → r.off ≤ off → off < r.off + r.width →
    ∃ s' d, exec (.bufferDataError h k off) s = .next s' ∧ f ∉ d.flights ∧
      (∀ g ∈ (t.strand k).flights, g.src = none → g ∈ d.flights) ∧
      d = { (t.strand k).afterTrap t.trapEnt { code := 0x22, reason := 1, info := BitVec.ofNat 64 off } (t.strand k).pc with
        flights := d.flights } ∧
      s'.team? h = some (t.setStrand k d) ∧ (∀ g, g ≠ h → s'.team? g = s.team? g) ∧
      s' = { s with
        teams := s'.teams, reqs := s'.reqs, cores := s'.cores, retired := s'.retired, errCounts := s'.errCounts,
        binnacle := s'.binnacle, pkg := s'.pkg, interrupts := s'.interrupts } ∧
      (s.retired.contains (.core t.core) = false → (.core t.core, s.eventsOf (.core t.core) ++ [s.cycle]) ∈ s'.errCounts))

/-! ## Replies, writes at their home, promotion -/

/-- R62, R205, R209, R211, R212, R219, R222, R243, R318: a reply writes its value under its mask, sets its FLAGS and ends its
request, and the stream that waited may go on; one of an acquire is an acquire (what it acquires is log entry 15); data fills
the oldest reserved place of a load queue; a remote form is served on the window that its handle names, when its banks are free
(log entry 75), and faults when there is none or it is too small; an addition reaches its slot, or the sender is told that the
team has retired. -/
def Obligations.RepliesLand : Prop :=
  (∀ (s : State) (h k n v fl : Nat) (t : Team) (q : Req), k ≤ 4 → s.team? h = some t → t.resident = true →
    (t.strand k).wait = .reply n → s.req? n = some q → q.h = h → q.k = k → q.isFetch = false → isFetch q.word = false →
    q.st = .value v fl → t.regs.wf = true →
    ∃ s' t', exec (.blockEndReply h k) s = .next s' ∧ s'.team? h = some t' ∧ (∀ g, g ≠ h → s'.team? g = s.team? g) ∧
      s'.req? n = none ∧ (∀ m, m ≠ n → s'.req? m = s.req? m) ∧
      s' = { s with teams := s'.teams, reqs := s'.reqs, cores := s'.cores } ∧
      (k < 4 ∨ (deedOf q.word).acquire = false → s'.cores = s.cores) ∧
      t' = { t.setStrand k { t.strand k with
          wait := .none, acqUpto := if (deedOf q.word).acquire then (s.core t.core).nextNum else (t.strand k).acqUpto } with
        regs := t'.regs, grans := t'.grans, flags := t.flags ||| (flagBits fl &&& 0x3FF),
        flagNow := t.flagNow ||| (flagBits fl &&& 0x3FF) } ∧
      ∀ a, Mem.get t'.regs a =
        if q.dest ≤ a ∧ a < q.dest + (deedOf q.word).len ∧ q.mask.testBit (a - q.dest) = true
        then BitVec.ofNat 8 (v >>> (8 * (a - q.dest))) else Mem.get t.regs a) ∧
  (∀ (s : State) (h q v fl : Nat) (t : Team) (e : LqEntry) (r : Req), s.team? h = some t → t.resident = true →
    t.nextReserved q = some e → s.req? e.tag = some r → r.h = h → r.isFetch = false → isFetch r.word = true →
    (deedOf r.word).acquire = false → r.st = .value v fl → (t.strand r.k).wait ≠ .reply e.tag →
    ∃ s' t', exec (.fetchDataArrival h q) s = .next s' ∧ s'.team? h = some t' ∧ (∀ g, g ≠ h → s'.team? g = s.team? g) ∧
      s'.req? e.tag = none ∧ (∀ m, m ≠ e.tag → s'.req? m = s.req? m) ∧ s' = { s with teams := s'.teams, reqs := s'.reqs } ∧
      t' = { t with
        lqs := t.lqs.map fun l => l.map fun x => if x.tag = e.tag then { x with data := some v } else x,
        flags := t.flags ||| (flagBits fl &&& 0x3FF), flagNow := t.flagNow ||| (flagBits fl &&& 0x3FF) }) ∧
  (∀ (s : State) (core n v fl : Nat) (q : Req) (t t' : Team), s.req? n = some q → q.st = .message core →
    (∀ r, q.word ≠ .drain r) → s.team? q.handle = some t → q.ea + (deedOf q.word).width ≤ t.windowSize .sp →
    t.missing q.ea (deedOf q.word).width ((deedOf q.word).touchMask q.mask) = none →
    dieOf (handleCore q.h) = dieOf core → (∀ u, s.team? q.h = some u → s.atomicWide u (deedOf q.word) = false) →
    (t.resident = true → s.spBanksFree t q (deedOf q.word) = true) →
    t.serve (deedOf q.word) q.ea q.x q.cmp q.mask = some (v, fl, t') →
    ∃ s', exec (.remoteSpAccess core n) s = .next s' ∧ s'.team? q.handle = some t' ∧
      (∀ g, g ≠ q.handle → s'.team? g = s.team? g) ∧ s'.req? n = some { q with st := .value v fl } ∧
      (∀ m, m ≠ n → s'.req? m = s.req? m) ∧
      s' = { s with teams := s'.teams, reqs := s'.reqs, cores := s'.cores, clocks := s'.clocks, tagOf := s'.tagOf } ∧
      ((deedOf q.word).acquire = false → s'.clocks = s.clocks) ∧ ((deedOf q.word).amo = none → s'.tagOf = s.tagOf) ∧
      ∀ c, ∃ b, s'.core c = { s.core c with bankUse := b }) ∧
  (∀ (s : State) (core n : Nat) (q : Req), s.req? n = some q → q.st = .message core → (∀ r, q.word ≠ .drain r) →
    s.team? q.handle = none →
    ∃ s', exec (.remoteSpAccess core n) s = .next s' ∧
      ReqIs s s' n { q with st := .failed { code := 0x12, reason := 1, info := BitVec.ofNat 64 q.handle } }) ∧
  (∀ (s : State) (core n : Nat) (q : Req) (t : Team), s.req? n = some q → q.st = .message core → (∀ r, q.word ≠ .drain r) →
    s.team? q.handle = some t → t.windowSize .sp < q.ea + (deedOf q.word).width →
    ∃ s', exec (.remoteSpAccess core n) s = .next s' ∧
      ReqIs s s' n { q with st := .failed { code := 0x11, reason := 1, info := BitVec.ofNat 64 q.ea } }) ∧
  (∀ (s : State) (core n slot k : Nat) (m : SpMsg) (t : Team), ((s.core core).msgs.find? fun m => m.tag = n) = some m →
    m.slotAdd = some (slot, k) → s.team? m.target = some t →
    ∃ s', exec (.sigAddRArrive core n) s = .next s' ∧
      s'.team? m.target = some { t with slotNow := t.slotNow ++ [.add slot k] } ∧
      (∀ g, g ≠ m.target → s'.team? g = s.team? g) ∧
      s'.core core = { s.core core with msgs := (s.core core).msgs.filter fun x => x.tag ≠ n } ∧
      s' = { s with teams := s'.teams, cores := s'.cores }) ∧
  (∀ (s : State) (core n slot k : Nat) (m : SpMsg) (t : Team), ((s.core core).msgs.find? fun m => m.tag = n) = some m →
    m.slotAdd = some (slot, k) → s.team? m.target = none → s.team? m.h = some t → t.liveStrands ≠ [] →
    ∃ s', exec (.sigAddRArrive core n) s = .next s' ∧
      s'.team? m.h = some { t with events := t.events ++
        [⟨{ code := 0x12, reason := 1, async := true, info := BitVec.ofNat 64 m.target }, none⟩] })

/-- R216, R323, R448, R492: a posted write that may go changes the bytes of its home that its mask names and leaves the core's
path, and no team but for its counters; a wide release takes a tag of its die's next count, which the writes of the path that
have none are sent with (the model's reading, log entry 92), and markers go to every M-die; a write with a tag is applied once
its clock condition holds; an applied marker advances the M-die's counter; a store to a doorbell word rings it. -/
def Obligations.HomeWrites : Prop :=
  (∀ (s : State) (core n pa : Nat) (e : Posted), ((s.core core).path.find? fun e => e.num = n) = some e →
    s.mayGo core e = true → e.target = .home pa → e.tag = none → s.partialBad pa e.len e.mask = false → s.hbm.wf = true →
    ∃ s', exec (.postedStorePerform core n) s = .next s' ∧
      (∀ a, Mem.get s'.hbm a = if pa ≤ a ∧ a < pa + e.len ∧ e.mask.testBit (a - pa) = true
        then BitVec.ofNat 8 (e.data >>> (8 * (a - pa))) else Mem.get s.hbm a) ∧
      (s'.core core).path = (s.core core).path.filter (fun x => x.num ≠ e.num) ∧
      ∀ g t, s.team? g = some t → ∃ c, s'.team? g = some { t with ctrs := c }) ∧
  (∀ (s : State) (core : Nat), core < 576 →
    let tag := (s.tagPath core).1.2
    let s' := (s.tagPath core).2
    (s.tagPath core).1.1 = dieOf core ∧ vget tag (dieOf core) 0 = vget (s.clock (dieOf core)) (dieOf core) 0 + 1 ∧
      (∀ d, d ≠ dieOf core → vget tag d 0 = vget (s.clock (dieOf core)) d 0) ∧ s'.clock (dieOf core) = tag ∧
      (∀ d, d ≠ dieOf core → s'.clock d = s.clock d) ∧
      s'.markers = s.markers ++ (List.range 8).map (fun m =>
        { mdie := m, src := dieOf core, tag := tag, upto := (s.core core).nextNum + 1 }) ∧
      (s'.core core).path = (s.core core).path.map
        (fun e => if e.tag = none then { e with tag := some (dieOf core, tag) } else e) ∧
      s' = { s with clocks := s'.clocks, markers := s'.markers, cores := s'.cores }) ∧
  (∀ (s : State) (core n pa d : Nat) (e : Posted) (tag : Vector (BitVec 16) 4),
    ((s.core core).path.find? fun e => e.num = n) = some e → s.mayGo core e = true → e.target = .home pa →
    e.tag = some (d, tag) → tagReady (s.appliedAt (homeMdie pa)) d tag false = true → s.partialBad pa e.len e.mask = false →
    s.hbm.wf = true →
    ∃ s', exec (.taggedWriteApply core n) s = .next s' ∧
      (∀ a, Mem.get s'.hbm a = if pa ≤ a ∧ a < pa + e.len ∧ e.mask.testBit (a - pa) = true
        then BitVec.ofNat 8 (e.data >>> (8 * (a - pa))) else Mem.get s.hbm a) ∧
      (s'.core core).path = (s.core core).path.filter (fun x => x.num ≠ e.num) ∧
      ∀ g t, s.team? g = some t → ∃ c, s'.team? g = some { t with ctrs := c }) ∧
  (∀ (s : State) (die n : Nat) (m : Marker), die < 8 → m.src < 4 → s.markers[n]? = some m → m.mdie = die →
    tagReady (s.appliedAt die) m.src m.tag true = true → s.markerBlocked m = false →
    ∃ s', exec (.clockMarkerApply die n) s = .next s' ∧ s'.markers = s.markers.eraseIdx n ∧
      vget (s'.appliedAt die) m.src 0 = vget m.tag m.src 0 ∧
      (∀ d, d ≠ m.src → vget (s'.appliedAt die) d 0 = vget (s.appliedAt die) d 0) ∧
      (∀ m, m ≠ die → s'.appliedAt m = s.appliedAt m) ∧
      s' = { s with markers := s'.markers, applied := s'.applied }) ∧
  (∀ (s : State) (core n off : Nat) (e : Posted) (i : Ev), ((s.core core).path.find? fun e => e.num = n) = some e →
    s.mayGo core e = true → e.target = .doorbell off → e.len = 8 → off % 8 = 0 → e.mask % 256 = 255 →
    doorbellEvent e.ctx off (BitVec.ofNat 64 e.data) = some i →
    ∃ s', exec (.postedStorePerform core n) s = .next s' ∧ s'.agenda = s.agenda ++ [.ev i] ∧
      (s'.core core).path = (s.core core).path.filter (fun x => x.num ≠ e.num) ∧
      s' = { s with cores := s'.cores, agenda := s'.agenda })

/-- R331–R337: a request is answered at once when nothing is left to promote, else it waits with the point of the newest
release, those that its cycle's local stores complete counted; a flush starts once the accesses that the last one stalled are
performed, marks the lines of the entries it covers and tags every write of the path that has no tag; its local phase ends by
clearing the marks; its end promotes the entries, which level 2 frees, and answers the requests it covers, those that wait for a
save only by that save's flush. -/
def Obligations.PromotionEvents : Prop :=
  (∀ (s : State) (core n : Nat) (q : Req),
    let z := s.logAll
    z.req? n = some q → q.st = .promotion → handleCore q.handle = core →
    ((z.core core).requests.any fun r => r.k < 9 && r.tag = n) = false →
    ((z.promotedAtOnce core q = true →
      ∃ s', exec (.promotionRequest core n) s = .next s' ∧ ReqIs z s' n { q with st := .promoted }) ∧
    (z.promotedAtOnce core q = false →
      ∃ s', exec (.promotionRequest core n) s = .next s' ∧ CoreIs z s' core { z.core core with
        requests := (z.core core).requests ++
          [{ h := q.h, k := q.k, tag := n, point := (z.core core).relCount, level := z.requestLevel q }] }))) ∧
  (∀ (s : State) (core level : Nat) (point : BitVec 32), (s.core core).flush = none →
    (s.core core).nextFlush = some (level, point) → s.leadOk (dieOf core) = true →
    (∀ x ∈ (s.core core).owed, s.owedStill core x = false) →
    ∃ s' f, exec (.flushStart core) s = .next s' ∧ (s'.core core).flush = some f ∧ f.level = level ∧ f.point = point ∧
      f.phase = .localPart ∧ f.upto = (s.core core).nextNum ∧
      (∀ e ∈ (s.core core).covered level point, e.summary &&& f.marks = e.summary ∧ e.upto ≤ f.must) ∧
      (s'.core core).path.length = (s.core core).path.length ∧ (∀ e ∈ (s'.core core).path, e.tag ≠ none) ∧
      (s'.core core).owed = [] ∧ s'.hbm = s.hbm ∧ s'.teams = s.teams) ∧
  (∀ (s : State) (core : Nat) (f : Flush), (s.core core).flush = some f → f.phase = .localPart →
    ∃ s', exec (.flushLocalPhaseEnd core) s = .next s' ∧
      CoreIs s s' core { s.core core with flush := some { f with phase := .remotePart, marks := 0 } }) ∧
  (∀ (s : State) (core : Nat) (f : Flush), (s.core core).flush = some f → f.phase = .remotePart →
    (s.core core).flushed f = true →
    ∃ s', exec (.flushRemotePhaseEnd core) s = .next s' ∧ (s'.core core).flush = none ∧
      (s'.core core).log = (s.core core).log.map (fun e =>
        if e.valid = true ∧ seqBefore e.seq f.point = true ∧ e.prom < f.level
        then { e with prom := f.level, valid := decide (f.level < 2) } else e) ∧
      (s'.core core).requests = (s.core core).requests.filter (fun r => !s.answeredNow (s.core core) f r) ∧
      ∀ r ∈ (s.core core).requests, s.answeredNow (s.core core) f r = true →
        (r.k < 9 → ∀ q, s.req? r.tag = some q → s'.req? r.tag = some { q with st := .promoted }) ∧
        (9 ≤ r.k → ∀ t, s.team? r.h = some t → s'.team? r.h = some { t with flushed := .done }))

/-! ## Engine queues and the map unit -/

/-- R96, R246, R247, R253, R274, R279, R280, R287, R360, R491: a command at the head that passes its checks, whose wait holds and
whose tiles are free starts, consuming its WAIT slot; a `qfence` whose WAIT holds consumes it and goes on waiting for the commands
it names; a command at its end leaves its queue, sets its FLAGS and gives back its tiles, those it filled ready and those it
drained empty; a held set takes effect once its tile is still; the only team of a core with a matrix command in progress is
granted every bank that is not retired (while Binnacle throttles, no more than its cap: log entry 10), and of the banks granted one
joins at a time; a retried segment leaves the fix-up list to be performed again, and a refused one stops the queue. -/
def Obligations.EngineEvents : Prop :=
  (∀ (s : State) (h q : Nat) (t : Team) (e : QCmd) (l : List QCmd), q < 3 → s.team? h = some t → (t.queue q).cmds = e :: l →
    t.mayStart q = true → (t.queue q).chain = none →
    ((t.queue q).checked = false → leastFault (s.headFaults t q e.cmd) = none) →
    let t1 := t.setQueue q { t.queue q with checked := true }
    let s1 := s.setTeam h t1
    ((t.queue q).waited = false → t1.waitHolds e e.cmd = true) → t1.fenceHolds e e.cmd = true → e.cmd.cmd ≠ 0x21 →
    t1.tilesFree (tileUse e.cmd) = true → leastFault (namedFaults t1 e.cmd ++ s1.startFaults t1 e.cmd) = none →
    ∃ s' t' p, exec (.engineCmdStart h q) s = .next s' ∧ TeamIs s s' h t' ∧ (t'.queue q).prog = some p ∧ p.cmd = e.cmd ∧
      p.phase = .started ∧ p.fds = t.fds ∧ (t'.queue q).cmds = e :: l ∧ (t'.queue q).waited = false ∧
      t'.slotNow = t.slotNow ++ (if (t.queue q).waited = false ∧ 1 ≤ e.cmd.wait.toNat ∧ e.cmd.wait.toNat < 64
        then [.dec e.cmd.wait.toNat] else []) ∧
      t' = { t with slotNow := t'.slotNow, tiles := t'.tiles, q0 := t'.q0, q1 := t'.q1, q2 := t'.q2 }) ∧
  (∀ (s : State) (h q : Nat) (t : Team) (e : QCmd) (l : List QCmd), q < 3 → s.team? h = some t → (t.queue q).cmds = e :: l →
    t.mayStart q = true → (t.queue q).chain = none →
    ((t.queue q).checked = false → leastFault (s.headFaults t q e.cmd) = none) →
    let t1 := t.setQueue q { t.queue q with checked := true }
    (t.queue q).waited = false → t1.waitHolds e e.cmd = true → t1.fenceHolds e e.cmd = false →
    ∃ s', exec (.engineCmdStart h q) s = .next s' ∧
      TeamIs s s' h { t.setQueue q { t.queue q with waited := true, checked := true } with
        slotNow := t.slotNow ++ (if 1 ≤ e.cmd.wait.toNat ∧ e.cmd.wait.toNat < 64 then [.dec e.cmd.wait.toNat] else []) }) ∧
  (∀ (s : State) (h q : Nat) (t : Team) (p : Prog), q < 3 → s.team? h = some t → (t.queue q).prog = some p →
    s.atEnd t q p = true → hasFollowOn p.cmd = false → (t.queue q).chain = none → p.cmd.cmd ≠ 0xF0 → p.noise = none →
    ∃ s' t', exec (.engineCmdComplete h q) s = .next s' ∧ TeamIs s s' h t' ∧
      t'.queue q = { t.queue q with prog := none, cmds := (t.queue q).cmds.drop 1 } ∧
      (∀ r < 3, r ≠ q → t'.queue r = t.queue r) ∧ t'.flags = t.flags ||| (flagBits p.flags &&& 0x3FF) ∧
      t'.slotNow = t.slotNow ++
        (if 1 ≤ p.cmd.signal.toNat ∧ p.cmd.signal.toNat < 64 then [.add p.cmd.signal.toNat 1] else []) ∧
      (p.cmd.signal.toNat < 64 → ∀ n x, t.tiles[n]? = some x → ∃ y, t'.tiles[n]? = some y ∧
        y.st = (if n ∈ p.draining then .empty else if n ∈ p.filling then .ready else x.st) ∧
        y.readers = x.readers - p.reading.count n) ∧
      t' = { t with
        slotNow := t'.slotNow, tiles := t'.tiles, q0 := t'.q0, q1 := t'.q1, q2 := t'.q2, flags := t'.flags, flagNow := t'.flagNow }) ∧
  (∀ (s : State) (h n : Nat) (t : Team) (x : Tile), s.team? h = some t → t.tiles[n]? = some x → x.held = true →
    (x.st = .empty ∨ x.st = .ready) →
    ∃ s', exec (.heldTileReady h n) s = .next s' ∧
      TeamIs s s' h { t with tiles := t.tiles.set n { x with held := false, st := .ready } }) ∧
  ((∀ (s : State) (core : Nat) (t : Team), s.teamsOf core = [t] → s.team? t.handle = some t →
     let g := if t.bankNeed = none then 0 else max 1 (s.bankPool core)
     ∃ s', exec (.bankJoin core) s = .next s' ∧ TeamIs s s' t.handle { t with
       banks := g, joined := if t.joined < g then t.joined + 1 else g }) ∧
   (∀ (s : State) (core : Nat), ∃ s', exec (.bankJoin core) s = .next s' ∧ s' = { s with teams := s'.teams } ∧
     ∀ h t, s.team? h = some t → ∃ b j, s'.team? h = some { t with banks := b, joined := j } ∧ j ≤ t.joined + 1)) ∧
  (∀ (s : State) (h q : Nat) (t : Team), s.team? h = some t →
    ((∀ f ∈ (t.queue q).fixups, f.refused = false) → ∀ p, (t.queue q).prog = some p →
      ∃ s', exec (.fixupReplay h q) s = .next s' ∧ TeamIs s s' h (t.setQueue q { t.queue q with
        fixups := (t.queue q).fixups.filter fun f => f.serial.isSome,
        prog := some (if p.cmd.cmd = 6 then p else { p with out := p.out ++
          (((t.queue q).fixups.filter fun f => f.serial.isNone).filter fun f => f.write).map fun f => f.seg }) })) ∧
    (∀ f, ((t.queue q).fixups.find? fun f => f.refused) = some f →
      exec (.fixupReplay h q) s = .next (s.stopQueue h q 0x34 0 (bits f.seg.va 32 32) none)))

/-- R293, R307, R382–R384: the fill of an untagged local granule copies the granule's 4,096 bytes, sets every full/empty bit of
it and makes it present; a claim whose tag names its entry, holds an older generation and is not BUSY sets BUSY with its core;
one that finds BUSY waits, and starts again when BUSY is clear; the new tag holds the claim's generation, entry and core, and
waits while its line is under flush. Each counts its bytes for its team, and changes nothing else of any team. -/
def Obligations.MapUnitEvents : Prop :=
  (∀ (s s1 : State) (h g n pa : Nat) (t : Team) (f : Fill) (m : MapEntry), s.team? h = some t →
    (t.fills.find? fun f => f.granule = g) = some f → t.mapOf g = some m → m.tagged = false → f.serial = none → f.got = none →
    s.resolve t.ctx (dieOf t.core) [] (m.granuleVa g) 4096 .read { src := 3, handle := h } = (.ok (.frame pa) n, s1) →
    s1.team? h = some t → s1.lineBad pa 4096 = false → t.sp.wf = true → t.fe.wf = true →
    ∃ s' t', exec (.granuleFillDone h g) s = .next s' ∧ s'.team? h = some t' ∧ (∀ j, j ≠ h → s'.team? j = s1.team? j) ∧
      s' = { s1 with teams := s'.teams, claims := s'.claims, traffic := s'.traffic, fresh := s'.fresh } ∧
      (∀ a, Mem.get t'.sp a = if 4096 * g ≤ a ∧ a < 4096 * g + 4096
        then BitVec.ofNat 8 (s1.readAt t.core pa 4096 >>> (8 * (a - 4096 * g))) else Mem.get t.sp a) ∧
      (∀ w, t'.isFull w = if 512 * g ≤ w ∧ w < 512 * g + 512 then true else t.isFull w) ∧
      t' = { t with
        sp := t'.sp, fe := t'.fe, present := t.present ++ [g], fills := t.fills.filter fun f => f.granule ≠ g, ctrs := t'.ctrs }) ∧
  (∀ (s s1 : State) (n pa : Nat) (c : Claim), tget s.claims n = some c → c.st = .start → c.serial = none →
    s.frames c.ctx (dieOf c.core) .atomic (c.who s) (segmentsOf (c.tagVa s) 8) = (.ok [(pa, 8)], s1) →
    s1.lineBad pa 8 = false → s1.tileAway c.ctx ((c.sx s).tileVa c.tile) (c.sx s).tsize = false →
    s1.stalled c.core pa 8 = false → s1.pathTouches c.core pa 8 = false →
    let tag := Mem.readN s1.hbm pa 8
    bits tag 32 8 = c.entry → bits tag 51 13 = 0 →
    ∃ s', exec (.tileClaim n) s = .next s' ∧ (∀ m, m ≠ n → tget s'.claims m = tget s1.claims m) ∧
      s' = { s1 with hbm := s'.hbm, claims := s'.claims, teams := s'.teams, traffic := s'.traffic, fresh := s'.fresh } ∧
      (∀ h t, s1.team? h = some t → ∃ k, s'.team? h = some { t with ctrs := k }) ∧
      (bit tag 40 = true → tget s'.claims n = some { c with st := .waiting } ∧ s'.hbm = s1.hbm) ∧
      (bit tag 40 = false → (∃ h q, c.by_ = .renc h q) → bits tag 0 32 ≠ 0 → bits tag 0 32 < c.gen →
        ((c.sx s).fdAt (bits tag 0 32)).isSome = true → ((c.sx s).fdAt c.gen).isSome = true →
        tget s'.claims n = some { c with st := .busy (bits tag 0 32), tag := tag, tagPa := pa } ∧
        s'.hbm = Mem.write s1.hbm pa (bits tag 0 40 + 2 ^ 40 + c.core * 2 ^ 41) 8)) ∧
  (∀ (s s1 : State) (n pa : Nat) (c : Claim), tget s.claims n = some c → c.st = .waiting →
    s.translate c.ctx (dieOf c.core) (c.tagVa s) 8 .read = (.frame pa, s1) → bit (Mem.readN s1.hbm pa 8) 40 = false →
    ∃ s', exec (.claimRestart n) s = .next s' ∧ s' = { s1 with claims := tput s1.claims n { c with st := .start } }) ∧
  (∀ (s : State) (n : Nat) (c : Claim), tget s.claims n = some c → c.st = .written → c.serial = none → c.orphan = false →
    s.partialBad c.tagPa 8 (ones 8) = false → s.stalled c.core c.tagPa 8 = false → s.claimReady c c.tagPa = true →
    ∃ s', exec (.reencodeTagWrite n) s = .next s' ∧
      s'.hbm = Mem.write s.hbm c.tagPa (c.gen % 2 ^ 32 + c.entry * 2 ^ 32 + c.core * 2 ^ 41) 8 ∧
      tget s'.claims n = some { c with st := .ended c.gen, mark := none } ∧
      (∀ m, m ≠ n → tget s'.claims m = tget s.claims m) ∧
      s' = { s with hbm := s'.hbm, claims := s'.claims, teams := s'.teams, traffic := s'.traffic, fresh := s'.fresh,
                    tagOf := s'.tagOf } ∧
      ∀ h t, s.team? h = some t → ∃ k, s'.team? h = some { t with ctrs := k }) ∧
  (∀ (s : State) (n : Nat) (c : Claim), tget s.claims n = some c → c.st = .written → c.serial = none →
    s.partialBad c.tagPa 8 (ones 8) = false → s.stalled c.core c.tagPa 8 = true →
    exec (.reencodeTagWrite n) s = .next (s.owe c.core (.claim n)))

/-! ## Launches, teams, contexts -/

/-- R26, R63, R341, R351–R353, R358, R361–R363, R368: a doorbell is recorded while its context is not running, and served when
it runs; a packet read is accepted or refused; a task becomes ready with the context's generation; a dispatch makes the team
that R63 describes and takes the next SERIAL; a team that is over retires and is counted; a failed launch halts its teams, and
an ended one with no record leaves the launch table (the model's reading of a launch's life, log entry 43); a waiting item gains
a priority step. -/
def Obligations.LaunchAndTeamEvents : Prop :=
  (∀ (s : State) (ctx q : Nat) (v : Word) (c : Context), q < 16 → s.ctx? ctx = some c → c.st ≠ .running →
    ∃ s', exec (.launchDoorbell ctx q v) s = .next s' ∧
      CtxIs s s' ctx { c with launchQs := vset c.launchQs q { c.lq q with bells := (c.lq q).bells ++ [v] } }) ∧
  (∀ (s s1 : State) (ctx q x : Nat) (v : Word) (c c1 : Context), q < 16 → s.ctx? ctx = some c → c.st = .running →
    (c.lq q).bells = [] → (c.lq q).wait.serial = none →
    (s.modLq ctx q fun l => { l with bells := [v] }).launchRead ctx q (canon (c.lqtab + 32 * q)) 32 = (.bytes x, s1) →
    s1.ctx? ctx = some c1 → v.toNat < 2 ^ 32 → bit x 71 = true → lqEntryBad x = false →
    (v.toNat + 2 ^ 32 - bytesAt x 12 4) % 2 ^ 32 ≤ 2 ^ bits x 64 4 →
    ∃ s' c', exec (.launchDoorbell ctx q v) s = .next s' ∧ CtxIs s1 s' ctx c' ∧ (c'.lq q).bells = [] ∧
      (c'.lq q).tail = BitVec.ofNat 32 v.toNat ∧ (c'.lq q).head = BitVec.ofNat 32 (bytesAt x 12 4) ∧
      (c'.lq q).base = bytesAt x 0 8 ∧ (c'.lq q).log2n = bits x 64 4) ∧
  (∀ (s s1 : State) (ctx q x : Nat) (c : Context) (tasks : List Task) (scopes : List ScopeEntry) (aps : List Aperture)
    (cores : List Nat), q < 16 → s.ctx? ctx = some c → c.st = .running → (c.lq q).wait.serial = none →
    (c.lq q).packet = some x →
    s.checkLaunch ctx q c x = (.accept tasks scopes aps cores, s1) →
    ∃ s' l, exec (.launchAccept ctx q) s = .next s' ∧ s'.launch? s1.nextLaunch = some l ∧ s'.nextLaunch = s1.nextLaunch + 1 ∧
      l.ctx = ctx ∧ l.queue = q ∧ l.pri = q / 4 ∧ l.fate = .running ∧ l.tasks = tasks ∧ l.scopes = scopes ∧ l.apertures = aps ∧
      l.cores = cores ∧ l.acceptedAt = s1.cycle) ∧
  (∀ (s s1 : State) (ctx q x d : Nat) (c : Context) (t : Option Nat), q < 16 → s.ctx? ctx = some c → c.st = .running →
    (c.lq q).wait.serial = none → (c.lq q).packet = some x →
    s.checkLaunch ctx q c x = (.refuse (d, t), s1) →
    ∃ s' l, exec (.launchAccept ctx q) s = .next s' ∧ s'.launch? s1.nextLaunch = some l ∧ s'.nextLaunch = s1.nextLaunch + 1 ∧
      l.fate = .refused d (t.getD 0xFFFFFFFF)) ∧
  (∀ (s : State) (n t : Nat) (l : Launch) (tk : Task) (c : Context) (shapes : List (Nat × Nat)), s.launch? n = some l →
    l.tasks[t]? = some tk → s.ctx? l.ctx = some c → l.fate = .running → tk.st = .waiting →
    (∀ i ∈ tk.preds, ∃ p, l.tasks[i]? = some p ∧ p.st = .done) → l.afterStep = false → l.afterDigest = false →
    tk.shapesAt c.sextant c.sextant.gen = some shapes →
    (∀ e ∈ (tk.exts.map (extentOf l.dims shapes)).zip l.fws, e.1 ≤ 2 ^ e.2) →
    { tk with extents := tk.exts.map (extentOf l.dims shapes) }.total ≠ 0 →
    ∃ s' l', exec (.taskReady n t) s = .next s' ∧ LaunchIs s s' n l' ∧ l'.tasks.length = l.tasks.length ∧
      (∀ j, j ≠ t → l'.tasks[j]? = l.tasks[j]?) ∧
      l'.tasks[t]? = some { tk with
        st := .ready, gen := c.sextant.gen, extents := tk.exts.map (extentOf l.dims shapes), shapes := shapes,
        readyAt := s.cycle }) ∧
  (∀ (s : State) (core n t i slot tiles : Nat) (l : Launch) (tk : Task) (c : Context), core < 576 →
    s.itemFor core n = some (l, tk, t, i) → roomFor (s.teamsOf core) tk.image.need = some (slot, tiles) →
    s.ctx? l.ctx = some c → l.ctx < 64 → (tget c.serials core).getD 0 < 65536 →
    (∀ k ≤ 4, (BitVec.ofNat 64 (tk.image.ents.getD k 0)).toNat % 8 = 0) → (BitVec.ofNat 64 tk.image.trapEnt).toNat % 8 = 0 →
    let h := mkHandle l.ctx core ((tget c.serials core).getD 0)
    ∃ s' u, exec (.teamDispatch core n) s = .next s' ∧ s'.team? h = some u ∧ (∀ g, g ≠ h → s'.team? g = s.team? g) ∧
      u.handle = h ∧ handleCtx h = l.ctx ∧ handleCore h = core ∧ handleSerial h = (tget c.serials core).getD 0 ∧
      u.place = .slot slot ∧ u.launch = n ∧ u.task = t ∧ u.item = i ∧ u.regs = [] ∧ u.regsz = tk.image.regsz ∧ u.flags = 0 ∧
      u.gen = tk.gen ∧ u.wid = widOf l tk i ∧ u.wb = [] ∧ u.ab = [] ∧ u.cb = [] ∧ u.sp = [] ∧ u.fe = [] ∧ u.halted = false ∧
      (∀ n, vget u.slots n 0 = 0) ∧
      (∀ k ≤ 4, (u.strand k).pc = BitVec.ofNat 64 (tk.image.ents.getD k 0) ∧
        (u.strand k).live = decide (tk.image.ents.getD k 0 ≠ 0) ∧ (u.strand k).flights = [] ∧ (u.strand k).wait = .none ∧
        (u.strand k).cause = 0 ∧ ∀ p, 1 ≤ p → (u.strand k).pred p = 0) ∧
      ∃ c', s'.ctx? l.ctx = some c' ∧ tget c'.serials core = some (((tget c.serials core).getD 0 + 1) % 65536)) ∧
  (∀ (s : State) (h : Nat) (t : Team) (l : Launch) (tk : Task), s.team? h = some t → t.handle = h → t.isOver = true →
    t.halted = false → t.ending = true → t.wbLeft = [] → t.toWriteBack = [] → (t.resident = true → t.flushed = .done) →
    s.writesDone t = true → s.leadOk (dieOf t.core) = true →
    s.launch? t.launch = some l → l.tasks[t.task]? = some tk →
    ∃ s' l' tk', exec (.teamRetire h) s = .next s' ∧ s'.team? h = none ∧ (∀ g, g ≠ h → s'.team? g = s.team? g) ∧
      s'.launch? t.launch = some l' ∧ l'.tasks[t.task]? = some tk' ∧ tk'.retired = tk.retired ++ [t.item] ∧
      (tk.retired.length + 1 = tk.total → tk'.st = .done)) ∧
  (∀ (s : State) (n : Nat) (l : Launch), s.launch? n = some l → l.fate ≠ .running → (∃ e ∈ s.teams, e.2.launch = n) →
    ∃ s', exec (.launchFail n) s = .next s' ∧
      ∀ h t, s.team? h = some t → t.launch = n → t.handle = h → ∃ t', s'.team? h = some t' ∧ t'.halted = true) ∧
  (∀ (s : State) (n : Nat) (l : Launch), s.launch? n = some l → l.fate ≠ .running → (∀ e ∈ s.teams, e.2.launch ≠ n) →
    l.compl = 0 → l.wait.serial = none →
    ∃ s', exec (.launchFail n) s = .next s' ∧ s'.launch? n = none ∧ ∀ m, m ≠ n → s'.launch? m = s.launch? m) ∧
  (∀ (s : State) (core n t i : Nat) (l : Launch) (tk : Task), s.itemFor core n = some (l, tk, t, i) →
    l.waitsFrom tk + 65536 * (l.boost core t + 1) ≤ s.cycle → l.pri + l.boost core t < 3 →
    ∃ s' l', exec (.priorityAging core n) s = .next s' ∧ LaunchIs s s' n l' ∧ l' = { l with boosts := l'.boosts } ∧
      l'.boost core t = l.boost core t + 1 ∧ ∀ c u, (c, u) ≠ (core, t) → l'.boost c u = l.boost c u)

/-- R344: WID is the argument above the fields and the level indices in them, field 0 lowest; each index that fits its field
is read back from it, and the argument from the bits above all of them. A program reads WID as control register 0x06. -/
def Obligations.WorkIdentifierFields : Prop :=
  (∀ (l : Launch) (t : Task) (n : Nat), t.perm.Nodup → (∀ k ∈ t.perm, k < l.fws.length) →
    let i := fun k => (((levelIndices t.perm t.extents n).find? fun e => e.1 = k).map (·.2)).getD 0
    let at_ := fun k => (l.fws.take k).sum
    let w := (widOf l t n).toNat
    w = (l.arg.toNat * 2 ^ l.fws.sum + ((List.range l.fws.length).map fun k => i k * 2 ^ at_ k).sum) % 2 ^ 64 ∧
    (l.fws.sum ≤ 64 → (∀ k < l.fws.length, i k < 2 ^ l.fws.getD k 0) →
      (∀ k < l.fws.length, w / 2 ^ at_ k % 2 ^ l.fws.getD k 0 = i k) ∧
      w / 2 ^ l.fws.sum = l.arg.toNat % 2 ^ (64 - l.fws.sum))) ∧
  ∀ (s : State) (t : Team) (k : Nat), s.readCr t k 0x06 = t.wid

/-- R65–R67, R359, R403–R406, R481–R483: the team that a core swaps stops issuing, and once it is at rest it stands in a save
area; its head condition requeues it, and it comes back from the bytes of its area. A context save stops every resident team, or
is refused where fewer areas are free than teams are resident, and with none left the context is saved; a restore requeues the
saved teams and ends when none is left; a command in another state is refused. A create reads its entry and a destroy needs an
idle context; each is refused otherwise, and the operation's end makes or removes the context: a context made takes over PTROOT
and the state kept for its number (the model's choice, log entry 65), and its flows start again (log entry 55). -/
def Obligations.SwapAndContextEvents : Prop :=
  (∀ (s : State) (h : Nat) (t : Team), s.team? h = some t → t.saving = false → s.swapChoice t.core = some h →
    ∃ s' t', exec (.swap h) s = .next s' ∧ s'.team? h = some t' ∧ (∀ g, g ≠ h → s'.team? g = s.team? g) ∧
      s' = { s with teams := s'.teams, cores := s'.cores } ∧ (s'.core t.core).swapFor = s.swapWork t ∧ t'.saving = true ∧
      t'.regs = t.regs ∧ ∀ k ≤ 4, t'.strand k = { t.strand k with spills := [] }) ∧
  (∀ (s : State) (h i : Nat) (t : Team) (c : Context), s.team? h = some t → t.handle = h → s.ctx? t.ctx = some c →
    c.st = .running → t.saving = true → t.halted = false → t.resident = true → (∀ k ≤ 4, (t.strand k).mayStop = true) →
    (∀ q < 3, (t.queue q).prog = none ∧ (t.queue q).chain = none) → t.flushed = .done → s.freeArea t.ctx = some i →
    ∃ s' t', exec (.swap h) s = .next s' ∧ s'.team? h = some t' ∧ (∀ g, g ≠ h → s'.team? g = s.team? g) ∧
      t'.place = .swapped i ∧ t'.saving = false ∧ t'.regs = t.regs ∧ t'.flags = t.flags ∧ t'.slots = t.slots) ∧
  (∀ (s : State) (h i : Nat) (t : Team), s.team? h = some t → t.place = .swapped i → t.requeued = none → t.halted = false →
    s.teamReady t = true →
    ∃ s', exec (.teamRequeue h) s = .next s' ∧ TeamIs s s' h { t with requeued := some s.cycle }) ∧
  (∀ (s : State) (h i slot tiles : Nat) (t : Team) (c : Context), s.team? h = some t → s.ctx? t.ctx = some c →
    t.area? = some i → s.nextWork t.core = some (.team h) → roomFor (s.teamsOf t.core) t.need = some (slot, tiles) →
    s.areaBad t (Mem.slice s.hbm (c.area i) areaSize) = false →
    ∃ s' t', exec (.teamRestore h) s = .next s' ∧ s'.team? h = some t' ∧ (∀ g, g ≠ h → s'.team? g = s.team? g) ∧
      t' = (t.load (Mem.slice s.hbm (c.area i) areaSize)).back slot tiles s.cycle ∧ t'.requeued = none ∧
      s' = { s with teams := s'.teams, cores := s'.cores }) ∧
  (∀ (s : State) (ctx : Nat) (c : Context), s.ctx? ctx = some c →
    ((c.st = .running ∧ (s.handlesOf ctx Team.resident).length ≤ (s.freeAreas ctx).length) →
      ∃ s', exec (.contextSave ctx) s = .next s' ∧ s'.ctx? ctx = some { c with st := .saving } ∧
        (∀ d, d ≠ ctx → s'.ctx? d = s.ctx? d) ∧ s' = { s with teams := s'.teams, contexts := s'.contexts, cores := s'.cores } ∧
        ∀ h t, s.team? h = some t → t.ctx = ctx → t.resident = true → ∃ t', s'.team? h = some t' ∧ t'.saving = true) ∧
    (c.st = .running → (s.freeAreas ctx).length < (s.handlesOf ctx Team.resident).length →
      ∃ s', exec (.contextSave ctx) s = .next s' ∧ CtxIs s s' ctx { c with refused := true }) ∧
    (c.st ≠ .running → ∃ s', exec (.contextSave ctx) s = .next s' ∧ CtxIs s s' ctx { c with refused := true })) ∧
  (∀ (s : State) (ctx : Nat) (c : Context), s.ctx? ctx = some c → c.st = .saving → s.handlesOf ctx Team.resident = [] →
    ∃ s', exec (.contextSaveDone ctx) s = .next s' ∧ CtxIs s s' ctx { c with st := .saved }) ∧
  (∀ (s : State) (ctx : Nat) (c : Context), s.ctx? ctx = some c →
    (c.st = .saved → c.faults = [] →
      ∃ s', exec (.contextRestore ctx) s = .next s' ∧ s'.ctx? ctx = some { c with st := .restoring } ∧
        s' = { s with teams := s'.teams, contexts := s'.contexts } ∧
        ∀ h t, s.team? h = some t → t.ctx = ctx → t.isSaved = true → s'.team? h = some { t with requeued := some s.cycle }) ∧
    (c.st ≠ .saved → ∃ s', exec (.contextRestore ctx) s = .next s' ∧ CtxIs s s' ctx { c with refused := true })) ∧
  (∀ (s : State) (ctx : Nat) (c : Context), s.ctx? ctx = some c → c.st = .restoring → s.handlesOf ctx Team.isSaved = [] →
    ∃ s', exec (.contextRestoreDone ctx) s = .next s' ∧ CtxIs s s' ctx { c with st := .running }) ∧
  (∀ (s : State) (c : Nat),
    let x := Mem.readN s.hbm (bits s.pkg.ctxtbase.toNat 13 39 * 8192 + 128 * c) 128
    exec (.contextCreate c) s = .next
      (if s.pkg.busy = none ∧ s.ctx? c = none ∧ ctxEntryBad x = false then
        { s with pkg := { s.pkg with busy := some { ctx := c, create := true, entry := x, since := s.cycle } } }
      else { s with pkg := { s.pkg with crefd := true } })) ∧
  (∀ (s : State) (c : Nat) (x : Context), s.ctx? c = some x →
    exec (.contextDestroy c) s = .next
      (if s.pkg.busy = none ∧ (∀ e ∈ s.launches, e.2.ctx = c → e.2.uncompleted = false) ∧
          (∀ e ∈ s.teams, e.2.ctx = c → e.2.area? = none) ∧ x.st = .running
      then { s with pkg := { s.pkg with busy := some { ctx := c, create := false, since := s.cycle } } }
      else { s with pkg := { s.pkg with crefd := true } })) ∧
  (∀ (s : State) (op : CtxOp), s.pkg.busy = some op →
    ∃ s', exec .contextOpDone s = .next s' ∧ s'.pkg = { s.pkg with busy := none } ∧
      (∀ d, d ≠ op.ctx → s'.ctx? d = s.ctx? d) ∧ s'.teams = s.teams ∧ s'.hbm = s.hbm ∧
      (op.create = true → ∃ c, s'.ctx? op.ctx = some c ∧ c.st = (s.ctxRegs op.ctx).st ∧ c.lqtab = bytesAt op.entry 8 8 ∧
        c.scopetab = bytesAt op.entry 16 8 ∧ c.aptab = bytesAt op.entry 24 8 ∧ c.sxtab = bytesAt op.entry 32 8 ∧
        c.sxcb = bytesAt op.entry 40 8 ∧ c.crstab = bytesAt op.entry 48 8 ∧ c.dgcb = bytesAt op.entry 56 8 ∧
        c.ptroot = (s.ctxRegs op.ctx).ptroot ∧ s'.fabric = s.fabric.restart op.ctx) ∧
      (op.create = false → s'.ctx? op.ctx = none ∧ ∀ r ∈ s'.redRegions, r.ctx ≠ op.ctx))

/-! ## Translation, faults, errors, the host -/

/-- R390, R391, R397–R399, R444–R448, R479, R485: a walk keeps the leaf it finds, which is all that a walk by itself does (log
entry 48); a HEAD stored stands in the queue's header; a reply of ACTION 1 is consumed, ends its record and lets the accesses
that waited start again, one of ACTION 2 makes each of them fail with the record's fault, and one that fails the checks only
sets REPERR; a shoot-down drops the cached entries of its range, makes the strands' requests translate again, and completes when
nothing is left that uses one; errors enter the error table or its overflow count, each an event of its frame, and the fourth
event of a resource within 10 ms retires it; a digest request of 0 is pending until its tree, or DGERR, has been written (the
pages of the tree and what a fault does are log entry 53); a host store reaches HBM (below device space: log entry 64), or a
register as its access type says, and one to an offset that no block holds is an access fault. -/
def Obligations.FaultAndHostEvents : Prop :=
  (∀ (s : State) (ctx va level pte : Nat) (c : Context), s.ctx? ctx = some c → s.walk ctx va = .leaf level pte →
    (∀ e ∈ c.tlb, e.die = 0 → e.covers va = true → Walk.leaf e.level e.pte.toNat = .leaf level pte) →
    ∃ s' tlb, exec (.translationWalk ctx va) s = .next s' ∧ s'.ctx? ctx = some { c with tlb := tlb } ∧ (∀ e ∈ c.tlb, e ∈ tlb) ∧
      { die := 0, level := level, base := bits va 0 56 - bits va 0 56 % leafSize level, pte := BitVec.ofNat 64 pte } ∈ tlb ∧
      s' = { s with contexts := s'.contexts }) ∧
  (∀ (s : State) (ctx : Nat) (v : BitVec 32) (c : Context), s.ctx? ctx = some c → c.fqbase ≠ 0 → s.hbm.wf = true →
    ∃ s', exec (.faultQueueHeadAdvance ctx v) s = .next s' ∧ s' = { s with hbm := s'.hbm } ∧
      ∀ a, Mem.get s'.hbm a =
        if bits c.fqbase.toNat 6 46 * 64 + 4 ≤ a ∧ a < bits c.fqbase.toNat 6 46 * 64 + 8
        then BitVec.ofNat 8 (v.toNat >>> (8 * (a - (bits c.fqbase.toNat 6 46 * 64 + 4)))) else Mem.get s.hbm a) ∧
  (∀ (s : State) (ctx : Nat) (v : Word) (c : Context) (f : FaultRec), s.ctx? ctx = some c → c.fqbase ≠ 0 → c.frbase ≠ 0 →
    v.toNat < 4096 → c.st ≠ .saved →
    let a := bits c.frbase.toNat 12 40 * 4096 + 16 * v.toNat
    let x := Mem.readN s.hbm a 16
    (c.faults.find? fun f => f.serial = bits x 0 32) = some f → f.serial % 4096 = v.toNat →
    bits x 40 6 = ctx → bits x 46 82 = 0 → s.hbm.wf = true →
    (bits x 32 8 = 1 →
      ∃ s' c', exec (.faultReply ctx v) s = .next s' ∧ Mem.get s'.hbm (a + 4) = 0 ∧
        s'.ctx? ctx = some c' ∧ c'.faults = c.faults.filter (fun g => g.serial ≠ f.serial) ∧
        (∀ e ∈ c'.tlb, e.covers (f.vpn * 4096) = false) ∧
        (∀ n q t, s.req? n = some q → q.st = .faultPath f.serial → handleCtx q.h = ctx → s.team? q.h = some t → q.k < 4 →
          (∀ e ∈ s.reqs, e.2.h = q.h → e.2.k = q.k → e = (n, q)) →
          s'.req? n = none ∧ ∃ t', s'.team? q.h = some t' ∧ (t'.strand q.k).pc = q.pc ∧ (t'.strand q.k).wait = .none) ∧
        ∀ n q, s.req? n = some q → q.st = .faultPath f.serial → handleCtx q.h = ctx → q.k = 4 →
          (∀ e ∈ s.reqs, e.1 = n → e.2 = q) → s'.req? n = some q.again) ∧
    (bits x 32 8 = 2 → s.OnlyWords ctx f.serial →
      ∃ s' c', exec (.faultReply ctx v) s = .next s' ∧ Mem.get s'.hbm (a + 4) = 0 ∧
        s'.ctx? ctx = some c' ∧ c'.faults = c.faults.filter (fun g => g.serial ≠ f.serial) ∧
        ∀ n q, s.req? n = some q → q.st = .faultPath f.serial → handleCtx q.h = ctx →
          s'.req? n = some { q with st := .failed (f.trap q.ea) })) ∧
  (∀ (s : State) (ctx : Nat) (v : Word) (c : Context), s.ctx? ctx = some c → c.fqbase ≠ 0 → c.frbase ≠ 0 → s.hbm.wf = true →
    let a := bits c.frbase.toNat 12 40 * 4096 + 16 * v.toNat
    let x := Mem.readN s.hbm a 16
    let flags := bits c.fqbase.toNat 6 46 * 64 + 8
    (2 ^ 32 ≤ v.toNat ∨ v.toNat < 4096 ∧ c.st ≠ .saved ∧
      ((∀ f ∈ c.faults, f.serial ≠ bits x 0 32) ∨ bits x 0 32 % 4096 ≠ v.toNat ∨ (bits x 32 8 ≠ 1 ∧ bits x 32 8 ≠ 2) ∨
        bits x 40 6 ≠ ctx ∨ bits x 46 82 ≠ 0)) →
    ∃ s', exec (.faultReply ctx v) s = .next s' ∧ s' = { s with hbm := s'.hbm } ∧
      ∀ b, Mem.get s'.hbm b = if b = flags then Mem.get s.hbm b ||| 1 else Mem.get s.hbm b) ∧
  (∀ (s : State) (ctx : Nat) (c : Context), s.ctx? ctx = some c → c.sdbusy = false →
    ∃ s' c', exec (.shootdownStart ctx) s = .next s' ∧ s'.ctx? ctx = some c' ∧ (∀ d, d ≠ ctx → s'.ctx? d = s.ctx? d) ∧
      c'.sdbusy = true ∧ c'.sdlo = bits c.sdva.toNat 12 44 ∧ c'.sdn = c.sdcnt.toNat ∧
      (∀ e, e ∈ c'.tlb ↔ e ∈ c.tlb ∧ e.inRange c' = false) ∧ c'.sdpeers = (if c.fabric then s.otherPeers else []) ∧
      s' = { s with contexts := s'.contexts, reqs := s'.reqs, fabric := { s.fabric with outstanding := s'.fabric.outstanding } } ∧
      (∀ n q, s.req? n = some q → q.st = .start → handleCtx q.h = ctx → q.k < 4 → q.inShootdown c' 0 = true →
        s'.req? n = some q.again) ∧
      (∀ n q r, s.req? n = some q → q.st = .remote r → handleCtx q.h = ctx → q.k < 4 → q.inShootdown c' 1 = true →
        s'.req? n = some { q with restart := true }) ∧
      ∀ n q, s.req? n = some q → (handleCtx q.h ≠ ctx ∨ 4 ≤ q.k) → s'.req? n = some q) ∧
  (∀ (s : State) (ctx : Nat) (c : Context), s.ctx? ctx = some c → c.sdbusy = true → c.sdpeers = [] → c.sdacks = 0 →
    s.shotClear ctx c = true → (∀ e ∈ s.reqs, e.2.holdsShootdown e.1 ctx c = true → s.behindFault e.2 = false) →
    ∃ s', exec (.shootdownDone ctx) s = .next s' ∧
      s'.ctx? ctx = some { c with sdbusy := false, sddone := true, sdmarks := [] } ∧ (∀ d, d ≠ ctx → s'.ctx? d = s.ctx? d) ∧
      s' = { s with contexts := s'.contexts, fabric := { s.fabric with outstanding := s'.fabric.outstanding } }) ∧
  (∀ (s : State) (pa ctx : Nat), (∀ e ∈ s.errors, e.line ≠ pa / 128) →
    ∃ s', exec (.memoryLineError pa ctx) s = .next s' ∧
      ((s.errors.filter fun e => e.mdie = homeMdie pa && e.tabled).length < 1024 →
        s'.errors = s.errors ++ [{ mdie := homeMdie pa, line := pa / 128, ctx := ctx, tabled := true }] ∧
        s' = { s with errors := s'.errors, retired := s'.retired, errCounts := s'.errCounts, binnacle := s'.binnacle, pkg := s'.pkg,
                      interrupts := s'.interrupts, frameReports := s'.frameReports }) ∧
      (s.retired.contains (.frame (pa / 4096 * 4096)) = false →
        (.frame (pa / 4096 * 4096), s.eventsOf (.frame (pa / 4096 * 4096)) ++ [s.cycle]) ∈ s'.errCounts) ∧
      (1024 ≤ (s.errors.filter fun e => e.mdie = homeMdie pa && e.tabled).length →
        vget s'.errOver (homeMdie pa) 0 = vget s.errOver (homeMdie pa) 0 + 1)) ∧
  (∀ (s : State) (r : Resource), s.retired.contains r = false →
    ∃ s', exec (.errorEvent r) s = .next s' ∧ s'.retired = (if 3 ≤ (s.eventsOf r).length then s.retired ++ [r] else s.retired) ∧
      (r, s.eventsOf r ++ [s.cycle]) ∈ s'.errCounts ∧ s'.hbm = s.hbm ∧ s'.teams = s.teams) ∧
  (∀ (s : State) (ctx : Nat) (v : Word) (c : Context), s.ctx? ctx = some c →
    ∃ s', exec (.digestRequest ctx v) s = .next s' ∧ CtxIs s s' ctx (if v = 0 then { c with digest := true } else c)) ∧
  (∀ (s s1 : State) (ctx x : Nat) (c : Context), s.ctx? ctx = some c → c.digest = true → c.st = .running → c.digestPut = none →
    (∀ e ∈ s.launches, e.2.ctx = ctx → e.2.afterDigest = false → e.2.fate ≠ .running) →
    s.digestRead ctx c.dgcb 64 = (.ok x, s1) →
    let ps := s1.trackedPages ctx
    let bad := bytesAt x 0 8 % 4096 ≠ 0 ∨ bytesAt x 8 4 = 0 ∨ 2 ^ 24 < bytesAt x 8 4 ∨ bits x 161 7 ≠ 0 ∨ bytesAt x 21 43 ≠ 0
    ((bad ∨ bytesAt x 8 4 < ps.length) → ∀ s2 w,
      s1.digestWrite ctx (canon (c.dgcb + 20)) [BitVec.ofNat 8 (byteOf x 20 ||| 1)] = (.ok w, s2) →
      exec (.digestApply ctx) s = .next (s2.digestOver ctx)) ∧
    (¬bad → ps.length ≤ bytesAt x 8 4 → ∀ s2 s3 s4 l u w, s1.leafDigests ctx ps = (.ok l, s2) →
      s2.digestWrite ctx (bytesAt x 0 8) (digestTable ps l) = (.ok u, s3) →
      s3.digestWrite ctx (canon (c.dgcb + 12))
        (toBytes 4 ps.length ++ toBytes 4 (bytesAt x 16 4 + 1) ++ [BitVec.ofNat 8 (byteOf x 20 &&& 0xFE)]) = (.ok w, s4) →
      exec (.digestApply ctx) s = .next (s4.digestOver ctx))) ∧
  (∀ (s : State) (pa : Nat) (v : Word), s.binnacle.stage = .running → pa + 8 ≤ deviceBase → s.hbm.wf = true →
    ∃ s', exec (.registerWrite pa v) s = .next s' ∧
      ∀ a, Mem.get s'.hbm a = if pa ≤ a ∧ a < pa + 8 then BitVec.ofNat 8 (v.toNat >>> (8 * (a - pa))) else Mem.get s.hbm a) ∧
  (∀ (s : State) (v : Word), s.binnacle.stage = .running →
    exec (.registerWrite (deviceBase + 0x20) v) s = .next { s with pkg := { s.pkg with dbgmask := v } } ∧
    exec (.registerWrite (deviceBase + 0x30) v) s =
      .next { s with pkg := { s.pkg with pcap := max 600 (min 2400 (bits v.toNat 0 12)) } }) ∧
  (∀ (s : State) (k : Nat) (v : Word) (c : Context), s.binnacle.stage = .running → k < 64 → s.ctx? k = some c →
    ∃ s', exec (.registerWrite (deviceBase + 0x100000 + 0x1000 * k) v) s = .next s' ∧
      CtxIs s s' k { c with ptroot := BitVec.ofNat 64 (bits v.toNat 12 40 * 2 ^ 12) }) ∧
  (∀ (s : State) (off : Nat) (v : Word), s.binnacle.stage = .running → off % 8 = 0 → blockHolds off = false →
    exec (.registerWrite (deviceBase + off) v) s = .next { s with hostFaults := s.hostFaults ++ [deviceBase + off] })

/-! ## Sextant steps, reductions, collective data -/

/-- R269, R366, R376–R379, R440–R442: a request of 0 to 3 is pending from now when none is (in a saved context too: log entry
53); a step that is due and asks for no reload applies the rules to the unit's own copy; a rule moves CURR by one at most and
never past NR, and a new generation begins exactly when an entry moved. An update in its SEQ changes exactly its element at the
home, and is accepted with every shared slot taken; an early one is held while a shared slot is free, else refused for this
attempt; one of a SEQ that is past is refused with fault 0x34, a marker of one dropped; a marker in its SEQ raises EXP, once the
updates of the SEQ at its M-die are applied (log entry 57), and after 0xFFFF frees the entry; a refused message tries again. A
rank's values are held, by sender, for the collective command of its team (log entry 80). -/
def Obligations.SextantAndReductionEvents : Prop :=
  (∀ (s : State) (ctx : Nat) (v : Word) (c : Context), s.ctx? ctx = some c → c.sextant.writes = [] →
    ∃ s' c', exec (.sextantStepRequest ctx v) s = .next s' ∧ s'.ctx? ctx = some c' ∧ c'.sextant.entries = c.sextant.entries ∧
      c'.sextant.gen = c.sextant.gen ∧ c'.sextant.pend = (if v.toNat < 4 ∧ c.sextant.pend = none
        then some { eval := v.getLsbD 0, reload := v.getLsbD 1 } else c.sextant.pend)) ∧
  (∀ (s : State) (ctx : Nat) (c : Context) (r : StepReq), s.ctx? ctx = some c → c.sextant.writes = [] →
    c.sextant.pend = some r → c.sextant.applied = false → c.st = .running → c.sextant.wait.serial = none → r.reload = false →
    (∀ e ∈ s.launches, e.2.ctx = ctx → e.2.afterStep = false → e.2.fate ≠ .running) →
    exec (.sextantStepApply ctx) s = .next (s.takeStep ctx c r (some c.sextant))) ∧
  (∀ (e : SxEntry) (room : Bool), e.curr ≤ e.nr →
    ((e.turn room).2 = true → (e.turn room).1.curr + 1 = e.curr ∨ (e.turn room).1.curr = e.curr + 1) ∧
    ((e.turn room).2 = false → (e.turn room).1.curr = e.curr) ∧ (e.turn room).1.curr ≤ e.nr ∧
    (room = false → (e.turn room).2 = false)) ∧
  (∀ (x : Sextant) (moved : List Nat), (x.advance moved).gen = if moved = [] then x.gen else x.gen + 1) ∧
  (∀ (s : State) (die n pa : Nat) (m : RedMsg) (r : RedRegion), tget s.redMsgs n = some m → m.pa = some pa → m.mdie = die →
    m.refusedAt = none → m.back = none → s.redRegion m = some r → m.seq = r.exp →
    let w := kindBytes (fdOf m.fd.toNat).kind
    s.pathTouches (handleCore m.h) pa w = false → s.lineBad pa w = false → s.migrating pa = false → s.hbm.wf = true →
    ∃ s', exec (.redUpdateArrive die n) s = .next s' ∧ tget s'.redMsgs n = none ∧ s'.redRegions = s.redRegions ∧
      ∀ a, Mem.get s'.hbm a = if pa ≤ a ∧ a < pa + w
        then BitVec.ofNat 8 ((m.apply (Mem.readN s.hbm pa w)).1 >>> (8 * (a - pa))) else Mem.get s.hbm a) ∧
  (∀ (s : State) (die n pa : Nat) (m : RedMsg) (r : RedRegion), tget s.redMsgs n = some m → m.pa = some pa → m.mdie = die →
    m.refusedAt = none → m.held = false → s.redRegion m = some r → (m.seq - r.exp).toNat ≠ 0 → (m.seq - r.exp).toNat < 32768 →
    ∃ s', exec (.redUpdateArrive die n) s = .next s' ∧
      s' = { s with redMsgs := tput s.redMsgs n (if s.redHeld die < Config.redSlots
        then { m with held := true } else { m with refusedAt := some s.cycle }) }) ∧
  (∀ (s : State) (die n pa : Nat) (m : RedMsg) (r : RedRegion), tget s.redMsgs n = some m → m.pa = some pa → m.mdie = die →
    m.refusedAt = none → s.redRegion m = some r → m.seq = r.exp → Config.redSlots ≤ s.redHeld die →
    ∃ s', exec (.redUpdateArrive die n) s = .next s' ∧ ∀ x, tget s'.redMsgs n = some x → x.refusedAt = none) ∧
  (∀ (s : State) (die n pa : Nat) (m : RedMsg) (r : RedRegion), tget s.redMsgs n = some m → m.pa = some pa → m.mdie = die →
    m.refusedAt = none → s.redRegion m = some r → 32768 ≤ (m.seq - r.exp).toNat →
    (m.back = none → exec (.redUpdateArrive die n) s =
      .next (({ s with redMsgs := tdel s.redMsgs n } : State).stopCommand m.h 0 m.cmdSeq 0x34 0 (bits m.va 32 32))) ∧
    (∀ p, m.back = some p → exec (.redUpdateArrive die n) s =
      .next (({ s with redMsgs := tdel s.redMsgs n } : State).reply p (.refused refusedSeq)))) ∧
  (∀ (s : State) (die n : Nat) (m : RedMsg) (r : RedRegion), tget s.redMsgs n = some m → m.pa = none → m.mdie = die →
    m.refusedAt = none → s.redRegion m = some r → 32768 ≤ (m.seq - r.exp).toNat →
    exec (.redMarkerArrive die n) s = .next { s with redMsgs := tdel s.redMsgs n }) ∧
  (∀ (s : State) (die n : Nat) (m : RedMsg) (r : RedRegion), tget s.redMsgs n = some m → m.pa = none → m.mdie = die →
    m.refusedAt = none → s.redRegion m = some r → m.seq = r.exp → s.updatesLeft m = false →
    ∃ s', exec (.redMarkerArrive die n) s = .next s' ∧ s' = { s with
      redMsgs := tdel s.redMsgs n,
      redRegions := if r.exp = 0xFFFF then s.redRegions.erase r
        else s.redRegions.map fun x => if x = r then { x with exp := x.exp + 1 } else x }) ∧
  (∀ (s : State) (die n : Nat) (m : RedMsg), tget s.redMsgs n = some m → m.mdie = die → m.refusedAt ≠ none →
    exec (.redRetry die n) s = .next { s with redMsgs := tput s.redMsgs n { m with refusedAt := none } }) ∧
  (∀ (s : State) (h rank sender digest : Nat) (data : List Byte) (t : Team), s.team? h = some t → sender < 2 ^ 32 →
    exec (.collectiveDataArrive h { rank := rank, sender := sender } data digest) s = .next
      { s with collectives := s.collectives ++ [{ h := h, rank := rank, sender := sender, data := data, digest := digest }] })

/-! ## The fabric -/

/-- R411–R415, R418, R419, R422, R424–R426, R428–R434: a router passes a packet on, or sends its fault back; a request reaches
its home in the turn of its flow, and a write that an export entry admits changes exactly its bytes there and is acknowledged; a
course fault marks its course and sends the message again, and a timeout is one of cause 9; replies kept for copies expire; a
course entry is read again, once a change of it has been written back; a flit's retry shows nowhere (log entry 63); planes, the
chart and the export table change whole or not at all; a migration copies, switches or fails, and its start takes the page's
moved mark away (the model's reading, log entry 55); an access answered "moved" starts again, or ends with fault 0x42. -/
def Obligations.FabricEvents : Prop :=
  (∀ (s : State) (n port : Nat) (p : Packet), tget s.fabric.transit n = some p → routePort p = some port → s.portUp port = true →
    exec (.packetHop n) s = .next { s with fabric := { s.fabric with
      transit := tdel s.fabric.transit n,
      links := tput s.fabric.links n { port := port, channel := p.hop, packet := { p with
        hop := p.hop + 1, entered := if p.isReply then p.entered.dropLast else p.entered } } } }) ∧
  (∀ (s : State) (n : Nat) (p : Packet), tget s.fabric.transit n = some p → (∀ port, routePort p = some port → s.portUp port = false) →
    (p.isReply = true → exec (.packetHop n) s = .next { s with fabric := { s.fabric with transit := tdel s.fabric.transit n } }) ∧
    (p.isReply = false → p.entered ≠ [] → ∃ s' k, exec (.packetHop n) s = .next s' ∧
      tget s'.fabric.transit k = some { p with isReply := true, hop := 0, payload := .courseFault 7 p.hop })) ∧
  (∀ (s : State) (port : Nat) (p : Packet) (ch : Chart), s.chart = some ch →
    (p.isReply = true → p.entered ≠ [] → ∃ s', exec (.packetArrive { port := port, packet := p }) s = .next s' ∧
      tget s'.fabric.transit s.fabric.nextPkt = some p ∧
      s' = { s with fabric := { s.fabric with transit := s'.fabric.transit, nextPkt := s.fabric.nextPkt + 1 } }) ∧
    (p.isReply = false → p.hop ≤ nhOf p.course → ∃ s', exec (.packetArrive { port := port, packet := p }) s = .next s' ∧
      tget s'.fabric.transit s.fabric.nextPkt = some { p with entered := p.entered ++ [port] } ∧
      s' = { s with fabric := { s.fabric with transit := s'.fabric.transit, nextPkt := s.fabric.nextPkt + 1 } }) ∧
    (p.isReply = false → nhOf p.course < p.hop → (destOf p.course ≠ ch.self ∨ p.hop ≠ nhOf p.course + 1) →
      ∃ s', exec (.packetArrive { port := port, packet := p }) s = .next s' ∧ tget s'.fabric.transit s.fabric.nextPkt = some { p with
        entered := p.entered ++ [port], isReply := true, hop := 0, payload := .courseFault 8 (nhOf p.course) })) ∧
  (∀ (s : State) (port : Nat) (p : Packet), s.chart = none → exec (.packetArrive { port := port, packet := p }) s = .next s) ∧
  (∀ (s : State) (port : Nat) (p : Packet) (ch : Chart) (pa : Nat) (b : List Byte) (x : Export), s.chart = some ch →
    p.isReply = false → p.hop = nhOf p.course + 1 → destOf p.course = ch.self → p.seq = s.flowNext p → p.seq < 2 ^ 32 →
    s.fabric.early = [] → p.payload = .write pa b → s.refusal p.src p.hd pa b.length .store = none →
    (∀ m ∈ s.moved, m.pa ≠ pa / 4096 * 4096) → s.awaitsPage pa = false → s.exportFor p.src pa b.length = some x → x.mig = false →
    s.partialBad pa b.length (ones b.length) = false → s.migrating pa = false → s.hbm.wf = true →
    ∃ s', exec (.packetArrive { port := port, packet := p }) s = .next s' ∧
      (∀ a, Mem.get s'.hbm a = if pa ≤ a ∧ a < pa + b.length then b.getD (a - pa) 0 else Mem.get s.hbm a) ∧
      s'.fabric.replies = s.fabric.replies ++
        [{ ctx := p.ctx, src := p.src, flow := p.flow, seq := p.seq, givenAt := s.cycle,
           reply := { p with entered := p.entered ++ [port], isReply := true, hop := 0, src := ch.self, payload := .ack } }] ∧
      s'.teams = s.teams) ∧
  (∀ (s : State) (n cause hop : Nat) (o : Outstanding), s.outstanding? n = some o →
    ((∀ first alt, o.origin ≠ .migration first alt) → o.held = false → o.moved = none →
      exec (.courseFaultReturn { ref := n, course := o.packet.course } cause hop) s =
        .next ((s.failCourse o.packet.ctx o.peer o.course cause hop).resend o)) ∧
    ((∀ first alt, o.origin ≠ .migration first alt) → (o.held = true ∨ o.moved ≠ none) →
      exec (.courseFaultReturn { ref := n, course := o.packet.course } cause hop) s =
        .next (s.failCourse o.packet.ctx o.peer o.course cause hop)) ∧
    (∀ first alt, o.origin = .migration first alt → o.held = false → o.moved = none →
      exec (.courseFaultReturn { ref := n, course := o.packet.course } cause hop) s = .next (s.migrateAgain o first alt))) ∧
  (∀ (s : State) (n : Nat) (o : Outstanding), s.outstanding? n = some o → o.moved = none → o.held = false →
    o.sentAt + 2 ^ 20 ≤ s.cycle → exec (.requestTimeout n) s = exec (.courseFaultReturn { ref := n, course := o.packet.course } 9 0) s) ∧
  (∀ (s : State) (n : Nat) (o : Outstanding), s.outstanding? n = some o → o.moved = none → o.held = true →
    exec (.requestTimeout n) s = .next (s.resend o)) ∧
  (∀ (s : State) (n : Nat) (o : Outstanding), s.outstanding? n = some o → o.moved = none → o.held = false →
    s.cycle < o.sentAt + 2 ^ 20 → exec (.requestTimeout n) s = .next s) ∧
  (∀ (s : State) (n : Nat) (g : GivenReply), s.fabric.replies[n]? = some g → g.givenAt + 2 ^ 21 < s.cycle →
    exec (.dupReplyExpiry n) s = .next { s with fabric := { s.fabric with replies := s.fabric.replies.eraseIdx n } }) ∧
  (∀ (s s1 : State) (ctx pa n : Nat) (v : Word) (c : Context), v.toNat < 2048 → s.ctx? ctx = some c →
    (∀ e, c.course? v.toNat = some e → e.back = none) →
    (s.setCtx ctx { c with courses := tdel c.courses v.toNat }).resolve ctx 0 [] (c.crstab + 64 * v.toNat) 64 .read { src := 7 }
      = (.ok (.frame pa) n, s1) →
    (∃ c1, s1.ctx? ctx = some c1) → s1.lineBad pa 64 = false →
    ∃ s' c', exec (.courseTableReread ctx v) s = .next s' ∧ s'.ctx? ctx = some c' ∧
      tget c'.courses v.toNat = some (courseEntryOf (Mem.readN s1.hbm pa 64))) ∧
  (∀ (s : State) (ctx : Nat) (v : Word) (c : Context) (e : CourseEntry), v.toNat < 2048 → s.ctx? ctx = some c →
    c.course? v.toNat = some e → e.back ≠ none →
    ∃ s' c', exec (.courseTableReread ctx v) s = .next s' ∧ CtxIs s s' ctx c' ∧
      c'.course? v.toNat = some { e with reread := true }) ∧
  (∀ (s : State) (port plane : Nat), exec (.flitRetry port plane) s = .next s) ∧
  (∀ (s : State) (port : Nat) (up : Bool), port < 36 →
    (s.gliem.linka.getLsbD port ≠ up → (up = true → s.retired.contains (.plane port 0) = false) →
      ∃ s', exec (.linkPlaneChange port 0 up) s = .next s' ∧ s'.gliem = { s.gliem with linka := s'.gliem.linka } ∧
        ∀ i < 36, s'.gliem.linka.getLsbD i = if i = port then up else s.gliem.linka.getLsbD i) ∧
    (s.gliem.linkb.getLsbD port ≠ up → (up = true → s.retired.contains (.plane port 1) = false) →
      ∃ s', exec (.linkPlaneChange port 1 up) s = .next s' ∧ s'.gliem = { s.gliem with linkb := s'.gliem.linkb } ∧
        ∀ i < 36, s'.gliem.linkb.getLsbD i = if i = port then up else s.gliem.linkb.getLsbD i) ∧
    (∀ plane, s.retired.contains (.plane port plane) = true → exec (.linkPlaneChange port plane true) s = .next s)) ∧
  (∀ (s : State), s.gliem.cbusy = true →
    (∀ c, s.chartAt (bits s.gliem.chartbase.toNat 6 46 * 64) = some c → exec .chartInstall s = .next
      { s with chart := some c, gliem := { s.gliem with cbusy := false }, root := decide (c.mroot = c.self) }) ∧
    (s.chartAt (bits s.gliem.chartbase.toNat 6 46 * 64) = none → exec .chartInstall s = .next
      { s with gliem := { s.gliem with cbusy := false, cref := true } })) ∧
  (∀ (s : State), s.gliem.ebusy = true →
    let x := Mem.readN s.hbm (bits s.gliem.expbase.toNat 6 46 * 64) 2048
    ((∃ i < 64, exportOf (bytesAt x (32 * i) 32) = none) → exec .exportLoad s = .next
      { s with gliem := { s.gliem with ebusy := false, eref := true } }) ∧
    ((∀ i < 64, exportOf (bytesAt x (32 * i) 32) ≠ none) → ∃ s', exec .exportLoad s = .next s' ∧
      s' = { s with exports := s'.exports, gliem := { s.gliem with ebusy := false } } ∧
      ∀ e, e ∈ s'.exports ↔ ∃ i < 64, exportOf (bytesAt x (32 * i) 32) = some (some e))) ∧
  (∀ (s : State), s.gliem.migst ≠ 1 →
    ∃ s', exec .migrationStart s = .next s' ∧ s'.gliem.migst = 1 ∧ s'.hbm = s.hbm ∧ s'.teams = s.teams ∧
      s'.gliem.migfirst = s.gliem.migseq ∧ ∀ m ∈ s'.moved, m.pa ≠ bits s.gliem.migpa.toNat 12 40 * 4096) ∧
  (∀ (s : State), s.gliem.migst = 1 →
    ((s.gliem.migref = true ∨ s.gliem.migcrs = 2) →
      ∃ s', exec (.migrationSwitch false) s = .next s' ∧ s'.gliem.migst = 3 ∧ s'.moved = s.moved ∧ s'.hbm = s.hbm) ∧
    (s.gliem.migref = false → s.gliem.migcrs ≠ 2 → s.migrationWaits = false →
      ∃ s', exec (.migrationSwitch true) s = .next s' ∧ s'.gliem.migst = 2 ∧ s'.hbm = s.hbm ∧ s'.moved = s.moved ++
        [{ pa := bits s.gliem.migpa.toNat 12 40 * 4096, peer := s.gliem.migpeer, npa := bits s.gliem.mignpa.toNat 12 40 * 4096 }])) ∧
  (∀ (s : State) (n tag : Nat) (o : Outstanding) (q : Req), s.outstanding? n = some o → o.moved = some 2 →
    o.origin = .request tag → s.req? tag = some q →
    (s.walk o.packet.ctx o.va = .missing →
      ∃ s', exec (.movedResend n) s = .next s' ∧ s'.req? tag = some q.again ∧
        s'.fabric.outstanding = s.fabric.outstanding.filter fun x => x.ref ≠ o.ref) ∧
    (∀ level e l, s.walk o.packet.ctx o.va = .leaf level e → s.pteLocal e = false → ptePeer e = o.peer →
      payloadLine o.packet.payload = some l → (ptePa e + o.va % leafSize level) / 4096 = l / 4096 →
      ∃ s', exec (.movedResend n) s = .next s' ∧
        s'.req? tag = some { q with st := .failed { code := 0x42, reason := 0, info := BitVec.ofNat 64 o.va } } ∧
        s'.fabric.outstanding = s.fabric.outstanding.filter fun x => x.ref ≠ o.ref)) ∧
  (∀ (s : State) (peer lo hi : Nat), ∃ s', exec (.roLineRevoke peer lo hi) s = .next s' ∧
    s' = { s with peerLines := s'.peerLines } ∧
    ∀ l, l ∈ s'.peerLines ↔ l ∈ s.peerLines ∧ ¬(l.peer = peer ∧ lo < l.pa + 128 ∧ l.pa < hi))

/-! ## Management, debugging, the Ultra Ethernet endpoint -/

/-- R64, R306, R436, R477, R478, R489–R491: the meridian counter rises once in 14 cycles unless it waits for its parent; an
alignment message goes out on the link of each package that takes its time from this one (a neighbour is up where its port's
state and the link's planes are, the model's reading, log entry 93), and one that comes stops the counter, moves it forward or
leaves it, compared to within one tick (log entry 58); where the count comes to or passes a multiple of 65,536 messages are due;
boot and update take an image that passes, of a version not below the fuses', and no other; a reset leaves no context and no
team and keeps memory (the model's reading, log entry 59); an answer begins with its nonce; the throttle has its hysteresis; an
idle core is gated and starts in its own phase; a cleared block counts from 0, and a frozen one keeps its counts. -/
def Obligations.ManagementEvents : Prop :=
  (∀ s : State, exec .meridianTick s = .next (if s.merPhase < 13 then { s with merPhase := s.merPhase + 1 }
    else if 0 < s.merHold then { s with merPhase := 0, merHold := s.merHold - 1 }
    else { s with merPhase := 0, meridian := s.meridian + 1,
                  agenda := s.agenda ++ if (s.meridian + 1) % 65536 = 0 then [.ev .alignMessageSend] else [] })) ∧
  (∀ (s : State) (c : Chart), s.chart = some c →
    ∃ s', exec .alignMessageSend s = .next s' ∧ s' = { s with fabric := { s.fabric with aligns := s'.fabric.aligns } } ∧
      ∀ m, m ∈ s'.fabric.aligns ↔
        m.port < 35 ∧ s.isChildPort c m.port = true ∧ m.count = s.meridian ∧ m.delay = Config.linkDelay m.port) ∧
  (∀ (s : State) (c : Chart) (port count delay : Nat), s.chart = some c → s.root = false → s.parentPort c = some port →
    exec (.alignMessageArrive port count delay) s = .next { s with
      aligned := true, lastAlign := s.cycle,
      merHold := if count + delay + 1 < s.meridian then s.meridian - (count + delay) - 1 else 0,
      meridian := if s.meridian + 1 < count + delay then count + delay else s.meridian,
      agenda := s.agenda ++ if s.meridian + 1 < count + delay ∧ s.meridian / 65536 < (count + delay) / 65536
        then [.ev .alignMessageSend] else [] }) ∧
  (∀ s : State, s.aligned = true → s.lastAlign + 14 * 2 ^ 20 ≤ s.cycle →
    exec .alignTimeout s = .next { s with aligned := false }) ∧
  (∀ s : State, ∃ s', exec .packageReset s = .next s' ∧ s'.hbm = s.hbm ∧ s'.teams = [] ∧ s'.contexts = [] ∧ s'.launches = [] ∧
    s'.cores = [] ∧ s'.cycle = 0 ∧ s'.meridian = 0 ∧ s'.pkg.dbgmask = 0 ∧ s'.gliem.migst = 0 ∧ s'.chart = none ∧
    s'.inputs = s.inputs) ∧
  (∀ (s : State) (image : List Byte), s.binnacle.stage ≠ .running →
    exec (.powerOnBoot image) s = .next (if Config.imageAccepted image = true ∧ s.binnacle.fuse ≤ Config.imageVersion image
      then { s with binnacle := { s.binnacle with stage := .running, image := image }, enableMap := Config.enableMap image }
      else { s with binnacle := { s.binnacle with stage := .rom } })) ∧
  (∀ (s : State) (image : List Byte), s.binnacle.stage = .running →
    ∃ s', exec (.firmwareUpdate image) s = .next s' ∧ s'.binnacle.staged =
      (if Config.imageAccepted image = true ∧ s.binnacle.fuse ≤ Config.imageVersion image then some image else s.binnacle.staged) ∧
      s'.binnacle.image = s.binnacle.image ∧ s'.enableMap = s.enableMap ∧ s'.teams = s.teams ∧ s'.hbm = s.hbm) ∧
  (∀ (s : State) (nonce : List Byte), s.binnacle.stage = .running → nonce.length = 32 →
    ∃ s', exec (.attestationRequest nonce) s = .next s' ∧ s'.binnacle.mailbox.take 32 = nonce ∧
      s' = { s with binnacle := { s.binnacle with mailbox := s'.binnacle.mailbox } }) ∧
  (∀ (s : State) (power : Nat) (sample : DieSample),
    let temp := sample.temps.foldl max 0
    (temp < 110 → ∃ s', exec (.binnacleSample power sample) s = .next s' ∧ s'.teams = s.teams ∧ s'.hbm = s.hbm ∧
      s'.binnacle.sample = sample ∧
      s'.binnacle.throttled = (if s.binnacle.throttled then !decide (power * 100 < 95 * s.pkg.pcap ∧ temp < 95)
        else decide (s.pkg.pcap < power ∨ 100 ≤ temp))) ∧
    (110 ≤ temp → ∃ s', exec (.binnacleSample power sample) s = .next s' ∧ s'.teams = [] ∧ s'.contexts = [] ∧ s'.hbm = s.hbm)) ∧
  (∀ (s : State) (core : Nat), (s.core core).powerGated = false → s.teamsOf core = [] →
    (s.core core).lastBusy + 65536 ≤ s.cycle →
    ∃ s', exec (.corePowerGate core) s = .next s' ∧ CoreIs s s' core { s.core core with powerGated := true }) ∧
  (∀ (s : State) (core : Nat), (s.core core).powerGated = true → s.teamsOf core ≠ [] →
    ∃ s', exec (.coreWake core) s = .next s' ∧
      (s'.core core).powerGated = decide (s.cycle % 8 ≠ core % 8) ∧ (∀ d, d ≠ core → s'.core d = s.core d) ∧
      s' = { s with cores := s'.cores }) ∧
  (∀ (s : State) (die : Nat), die < 4 →
    ∃ s', exec (.counterClear die) s = .next s' ∧ (∀ i, vget (vget s'.traffic die {}).ctrs i 0 = 0) ∧
      (vget s'.traffic die {}).frozen = (vget s.traffic die {}).frozen ∧
      (∀ d, d ≠ die → vget s'.traffic d {} = vget s.traffic d {}) ∧ s' = { s with traffic := s'.traffic }) ∧
  (∀ (s : State) (die : Nat) (on : Bool), die < 4 →
    ∃ s', exec (.counterFreeze die on) s = .next s' ∧ (vget s'.traffic die {}).frozen = on ∧
      (vget s'.traffic die {}).ctrs = (vget s.traffic die {}).ctrs ∧
      (∀ d, d ≠ die → vget s'.traffic d {} = vget s.traffic d {}) ∧ s' = { s with traffic := s'.traffic })

/-- R437, R484, R487: the debugger of an attached context stops its team, reads and writes its spaces while it is stopped, and
lets it go on, or refuses the release with cause 3 while it has not stopped; of a context that is not attached each command is
refused with cause 1; the limits of the spaces are log entry 62. A send entry completes in its queue with its status (the
entry's layout is the model's choice, log entry 61), a read stores the bytes that came, an entry never answered completes with
status 2, and a packet received is stored. -/
def Obligations.DebugAndEndpointEvents : Prop :=
  (∀ (s : State) (ctx : Nat) (c : Context) (t : Team), s.ctx? ctx = some c → s.pkg.dbgmask.getLsbD ctx = true →
    s.debugTeam ctx c.dblk = some t →
    ∃ s', exec (.debugStop ctx) s = .next s' ∧ s'.team? t.handle = some { t with dbg := true } ∧
      s'.ctx? ctx = some { c with dblk := { c.dblk with
        busy := false, stopping := if ({ t with dbg := true } : Team).isStopped = true then c.dblk.stopping
          else c.dblk.stopping ++ [t.handle] } } ∧
      s' = { s with teams := s'.teams, contexts := s'.contexts, interrupts := s.interrupts ++
        (if ({ t with dbg := true } : Team).isStopped = true ∧ t.isStopped = false then [34] else []) }) ∧
  (∀ e ∈ ([.debugStop, .debugRelease, .debugRead, .debugWrite] : List (Nat → Instr)), ∀ (s : State) (ctx : Nat) (c : Context),
    s.ctx? ctx = some c → s.pkg.dbgmask.getLsbD ctx = false →
    ∃ s', exec (e ctx) s = .next s' ∧ CtxIs s s' ctx { c with dblk := { c.dblk with err := true, code := 1, busy := false } }) ∧
  (∀ (s : State) (ctx h : Nat) (c : Context) (t : Team), s.team? h = some t → s.ctx? ctx = some c →
    (s.handlesOf ctx fun t => t.dbg && t.resident && !t.isStopped &&
      t.liveStrands.all fun k => (t.strand k).mayStop && (!t.halted || (t.strand k).flights.isEmpty)) = [h] →
    ∃ s' t', exec (.debugTeamStopped ctx) s = .next s' ∧
      s'.ctx? ctx = some { c with dblk := { c.dblk with stopping := c.dblk.stopping.filter (· ≠ h) } } ∧ s'.team? h = some t' ∧ t'.regs = t.regs ∧
      (∀ k ∈ t.liveStrands, t'.strand k = { t.strand k with spills := [], stopped := true }) ∧
      s'.interrupts = s.interrupts ++ [34]) ∧
  (∀ (s : State) (ctx : Nat) (c : Context) (t : Team), s.ctx? ctx = some c → s.pkg.dbgmask.getLsbD ctx = true →
    s.debugTeam ctx c.dblk = some t → t.isStopped = true →
    ∃ s' t', exec (.debugRelease ctx) s = .next s' ∧ s'.team? t.handle = some t' ∧ t'.dbg = false ∧
      (∀ k ≤ 4, t'.strand k = { t.strand k with stopped := false }) ∧ t' = { t with dbg := false, strands := t'.strands } ∧
      s'.ctx? ctx = some { c with dblk := { c.dblk with busy := false } }) ∧
  (∀ (s : State) (ctx : Nat) (c : Context) (t : Team), s.ctx? ctx = some c → s.pkg.dbgmask.getLsbD ctx = true →
    s.debugTeam ctx c.dblk = some t → t.isStopped = false →
    ∃ s', exec (.debugRelease ctx) s = .next s' ∧
      CtxIs s s' ctx { c with dblk := { c.dblk with err := true, code := 3, busy := false } }) ∧
  (∀ (s : State) (ctx : Nat) (c : Context) (t : Team), s.ctx? ctx = some c → s.pkg.dbgmask.getLsbD ctx = true →
    s.debugTeam ctx c.dblk = some t → spaceRefusal t c.dblk false = none →
    let w := t.wake s.cycle (debugGranules t c.dblk)
    let got := (s.setTeam t.handle w.1).spaceRead c w.1 c.dblk
    ∃ s', exec (.debugRead ctx) s = .next s' ∧ s'.team? t.handle = some w.1 ∧ (∀ g, g ≠ t.handle → s'.team? g = s.team? g) ∧
      (∀ d, d ≠ ctx → s'.ctx? d = s.ctx? d) ∧ s' = { s with teams := s'.teams, contexts := s'.contexts } ∧
      s'.ctx? ctx = some { c with dblk :=
        if w.2 = true then { c.dblk with reading := true, busy := true }
        else { c.dblk with
          data := (if c.dblk.space = 0 then got.filter fun e => c.dblk.off.toNat + e.1 < 4096 * t.regsz else got)
            ++ c.dblk.data.filter (fun e => c.dblk.len ≤ e.1),
          gated := decide (c.dblk.space = 0) && decide (4096 * t.regsz < c.dblk.off.toNat + c.dblk.len),
          busy := false, reading := false } }) ∧
  (∀ (s : State) (ctx : Nat) (c : Context) (t : Team), s.ctx? ctx = some c → s.pkg.dbgmask.getLsbD ctx = true →
    s.debugTeam ctx c.dblk = some t → spaceRefusal t c.dblk true = none →
    (c.dblk.space = 0 → t.regs.wf = true → ∃ s' t', exec (.debugWrite ctx) s = .next s' ∧ s'.team? t.handle = some t' ∧
      t' = { (t.wake s.cycle (debugGranules t c.dblk)).1 with regs := t'.regs } ∧
      (∀ a, Mem.get t'.regs a = if c.dblk.off.toNat ≤ a ∧ a < c.dblk.off.toNat + c.dblk.len ∧ a < 4096 * t.regsz
        then BitVec.ofNat 8 (Mem.readN c.dblk.data 0 c.dblk.len >>> (8 * (a - c.dblk.off.toNat))) else Mem.get t.regs a) ∧
      s'.ctx? ctx = some { c with dblk := { c.dblk with busy := false } }) ∧
    (c.dblk.space = 9 → ∃ s', exec (.debugWrite ctx) s = .next s' ∧ s'.team? t.handle = some t ∧
      s'.ctx? ctx = some { c with dblk := { c.dblk with busy := false } })) ∧
  (∀ (s : State) (k : Nat) (v : Word),
    exec (.ueSqDoorbell k v) s = .next { s with ue := tput s.ue k { s.qp k with sqtail := v } }) ∧
  (∀ (s : State) (k x status : Nat), s.nextSend k = some x → sendBad x = false → status < 3 → s.hbm.wf = true →
    let q := s.qp k
    let e := sendEntryOf x
    let a := bits q.cqbase.toNat 12 40 * 4096 + 16 * (q.cqtail.toNat % 1024)
    let done (s' : State) := s'.qp k = { q with done := q.done + 1, cqtail := q.cqtail + 1 } ∧
      Mem.readN s'.hbm a 16 = q.done % 2 ^ 32 + status * 2 ^ 32 + (if status = 0 then e.len else 0) * 2 ^ 64
    (e.op = 0 → ∃ s', exec (.ueSend k status) s = .next s' ∧ done s') ∧
    (e.op = 1 → ∃ s', exec (.ueWrite k status) s = .next s' ∧ done s') ∧
    (e.op = 2 → ∀ data, ∃ s', exec (.ueRead k status data) s = .next s' ∧ done s')) ∧
  (∀ (s : State) (k x : Nat) (data : List Byte), s.nextSend k = some x → sendBad x = false → (sendEntryOf x).op = 2 →
    data.length = (sendEntryOf x).len → (sendEntryOf x).addr + data.length ≤ deviceBase → s.hbm.wf = true →
    let q := s.qp k
    let a := bits q.cqbase.toNat 12 40 * 4096 + 16 * (q.cqtail.toNat % 1024)
    (a + 16 ≤ (sendEntryOf x).addr ∨ (sendEntryOf x).addr + data.length ≤ a) →
    ∃ s', exec (.ueRead k 0 data) s = .next s' ∧ ∀ i < data.length, Mem.get s'.hbm ((sendEntryOf x).addr + i) = data.getD i 0) ∧
  (∀ (s : State) (k x : Nat), s.nextSend k = some x → sendBad x = false → s.hbm.wf = true →
    let q := s.qp k
    ∃ s', exec (.ueCompletionTimeout k) s = .next s' ∧ s'.qp k = { q with done := q.done + 1, cqtail := q.cqtail + 1 } ∧
      Mem.readN s'.hbm (bits q.cqbase.toNat 12 40 * 4096 + 16 * (q.cqtail.toNat % 1024)) 16 = q.done % 2 ^ 32 + 2 * 2 ^ 32) ∧
  (∀ (s : State) (port die pa : Nat) (data : List Byte), data.length ≤ 4096 → pa + data.length ≤ deviceBase → s.hbm.wf = true →
    ∃ s', exec (.uePacketReceive port die pa data) s = .next s' ∧
      ∀ a, Mem.get s'.hbm a = if pa ≤ a ∧ a < pa + data.length then data.getD (a - pa) 0 else Mem.get s.hbm a)

/-! ## The whole machine -/

/-- R69, R84, R86, R90, R94: decoding the encoding of every well-formed word and command gives it back, with every field at
every value that its encoding admits (an event has no encoding, and the statement says nothing of it). -/
def Obligations.RoundTrip : Prop := ∀ i : Instr, Sys2Proof.Laws.Roundtrip.Statement i

/-- R69, R84, R86, R90: words written out from the encoding tables: `add.s32 s3, s1, s2`; `beq s7, −3`; `wait.sig 5`;
`enq` of s16 to queue 0; `fence 0`; the `nop` command with WAIT 0x92 and SIGNAL 0x45; and a word of VER 3, one of VER 2 and one of
opcode 0xFF, which are refused with reasons 0x01, 0x02 and 0x03. -/
def Obligations.SampleWordsDecode : Prop :=
  (∃ r, decodeWord false 0x0210030102000300 = .ok (.add r) ∧ r.mods = ⟨false, false, 1, false⟩ ∧ r.d = 3 ∧ r.a = 1 ∧
    r.b = 2 ∧ r.c = 0 ∧ r.pred = 0 ∧ r.pn = false ∧ r.ty = 3 ∧ r.fdn = 0) ∧
  (∃ r, decodeWord false 0x0040000701FFFFFD = .ok (.beq r) ∧ r.a = 7 ∧ r.disp = -3) ∧
  (∃ r, decodeWord false 0x0048000000000005 = .ok (.waitSig r) ∧ r.arg = 5) ∧
  (∃ r, decodeWord false 0x00F0100000000000 = .ok (.enq r) ∧ r.a = 16 ∧ r.q = 0) ∧
  (∃ r, decodeWord false 0x00E0000000000000 = .ok (.fence r) ∧ r.scope = 0) ∧
  (∃ c, decodeCmd (Cmd.ofWords 0x9245000000000000 0 0 0) = some (.cmdNop c) ∧ c.wait = 0x92 ∧ c.signal = 0x45) ∧
  decodeWord false 0xC210030102000300 = .error 0x01 ∧ decodeWord false 0x8210030102000300 = .error 0x02 ∧
  decodeWord false 0x00FF000000000000 = .error 0x03

/-- R29, R88, R168, R209, R210: a step whose next occurrence is a stream's turn runs the word that stands at its PC: where that
address translates to a local frame the word is its 8 bytes, little-endian, as the core sees them, its own posted stores
included (the model's reading, log entry 20); the instruction it decodes to is executed in that stream, and then a wait just
issued is tested and a word that came from a peer is used up. A step whose next occurrence is an engine's turn executes the
command in progress there. -/
def Obligations.StepRunsDecodedWord : Prop :=
  (∀ (s s1 : State) (h k n pa : Nat) (t : Team) (i : Instr) (rest : List Occ), s.agenda = .issue h k :: rest →
    s.team? h = some t → k ≤ 4 → t.presents k = true → (t.strand k).wait = .none → (t.strand k).fetched = none →
    t.eventFor k = none → (k = 4 → t.accRefused = none ∧ t.accSerial = none ∧ s.accessFaulted h = false) →
    { s with agenda := rest }.resolve t.ctx (dieOf t.core) [] (canon (t.strand k).pc.toNat) 8 .fetch
      { src := if k < 4 then 0 else 1, handle := t.handle } = (.ok (.frame pa) n, s1) →
    s1.lineBad pa 8 = false →
    let w : Word := BitVec.ofNat 64 (s1.readAt t.core pa 8)
    decodeWord (decide (4 ≤ k)) w = .ok i → (k < 4 → wordSync w = false) →
    step s = (match exec i { s1 with cur := .strand h k } with
      | .next s2 => .next (s2.afterWord h k t)
      | o => o)) ∧
  (∀ (s : State) (h q : Nat) (t : Team) (p : Prog) (i : Instr) (rest : List Occ), s.agenda = .engine h q :: rest →
    s.team? h = some t → (t.queue q).prog = some p → decodeCmd p.cmd = some i →
    step s = mirrored { s with agenda := rest } (exec i { s with agenda := rest, cur := .engine h q }))

/-- R64, R306, R323, R331, R414, R481: after reset no context and no team exists, no core has a promotion log entry, CYCLE is 0,
the control blocks and the counters are 0, PCAP is 2,400 and the meridian counter 0. The clocks and applied counters of R323 at
0, no chart in force, and every register of the Gliem block at 0, LINKA and LINKB among them, are stated too: where the spec
gives no reset value that is the model's choice (log entry 6). -/
def Obligations.ResetState : Prop :=
  State.reset.contexts = [] ∧ State.reset.teams = [] ∧ State.reset.launches = [] ∧ State.reset.cycle = 0 ∧
  State.reset.meridian = 0 ∧ State.reset.aligned = false ∧ State.reset.chart = none ∧ State.reset.gliem = {} ∧
  State.reset.pkg.pcap = 2400 ∧ State.reset.pkg.dbgmask = 0 ∧ State.reset.pkg.ctxtbase = 0 ∧ State.reset.pkg.busy = none ∧
  (∀ c, (State.reset.core c).log = [] ∧ (State.reset.core c).path = [] ∧ (State.reset.core c).flush = none ∧
    (State.reset.core c).relCount = 0) ∧
  (∀ d i, vget (vget State.reset.traffic d {}).ctrs i 0 = 0) ∧ State.reset.redRegions = [] ∧
  (∀ d i, vget (State.reset.clock d) i 0 = 0) ∧ (∀ m i, vget (State.reset.appliedAt m) i 0 = 0)

/-- R7, R61, R302: at reset every memory of the machine stands in its canonical form (the form is the model's, log entry 1). -/
def Obligations.ResetMemoryForm : Prop := State.reset.MemOk

/-- R7, R61, R302: every step keeps every memory in its canonical form: HBM, and each team's registers, typed windows, SP window
and full/empty bits (the form is the model's, log entry 1). -/
def Obligations.StepKeepsMemoryForm : Prop := ∀ s s' : State, s.MemOk → step s = .next s' → s'.MemOk
end

