-- ==== Sys2Proof/Laws/State.lean ====
section
/-! SUPPORT. Updates of the state and of a team, field by field: a changed field is the value put there, every other field
stands as it did; and the tables' laws of reading after writing. -/

namespace Sys2Proof.Machine

open Sys2Proof

/-! ## Tables -/

@[simp] theorem tget_tput_same {α : Type} (t : List (Nat × α)) (k : Nat) (v : α) : tget (tput t k v) k = some v := by
  induction t with
  | nil => simp [tput, tget]
  | cons e r ih =>
    obtain ⟨a, b⟩ := e
    simp only [tput]
    split
    · simp [tget]
    · split
      · simp [tget]
      · rename_i h1 h2; simp [tget, h2, ih]

theorem tget_tput_other {α : Type} (t : List (Nat × α)) (k j : Nat) (v : α) (h : j ≠ k) :
    tget (tput t k v) j = tget t j := by
  induction t with
  | nil => simp [tput, tget, Ne.symm h]
  | cons e r ih =>
    obtain ⟨a, b⟩ := e
    simp only [tput]
    split
    · simp [tget, Ne.symm h]
    · split
      · rename_i h2; subst h2; simp [tget, Ne.symm h]
      · simp [tget, ih]

theorem tdel_cons {α : Type} (a : Nat) (b : α) (r : List (Nat × α)) (k : Nat) :
    tdel ((a, b) :: r) k = if a = k then tdel r k else (a, b) :: tdel r k := by
  by_cases h : a = k <;> simp [tdel, h]

theorem tget_tdel_same {α : Type} (t : List (Nat × α)) (k : Nat) : tget (tdel t k) k = none := by
  induction t with
  | nil => rfl
  | cons e r ih =>
    obtain ⟨a, b⟩ := e
    rw [tdel_cons]
    split
    · exact ih
    · rename_i h; simp [tget, h, ih]

theorem tget_tdel_other {α : Type} (t : List (Nat × α)) (k j : Nat) (h : j ≠ k) : tget (tdel t k) j = tget t j := by
  induction t with
  | nil => rfl
  | cons e r ih =>
    obtain ⟨a, b⟩ := e
    rw [tdel_cons]
    split
    · rename_i h2; subst h2; simp [tget, Ne.symm h, ih]
    · simp [tget, ih]

/-! ## Files -/

@[simp] theorem vget_vset_same {α : Type} {n : Nat} (v : Vector α n) (i : Nat) (x d : α) (h : i < n) :
    vget (vset v i x) i d = x := by
  simp [vget, vset, h]

theorem vget_vset_other {α : Type} {n : Nat} (v : Vector α n) (i j : Nat) (x d : α) (h : j ≠ i) :
    vget (vset v i x) j d = vget v j d := by
  by_cases hi : i < n
  · by_cases hj : j < n
    · simp [vget, vset, hi, hj, Vector.getElem_set_ne, Ne.symm h]
    · simp [vget, hj]
  · simp [vset, hi]

/-! ## The state -/

@[simp] theorem State.setTeam_cycle (s : State) (h : Nat) (t : Team) : (s.setTeam h t).cycle = s.cycle := rfl
@[simp] theorem State.setTeam_meridian (s : State) (h : Nat) (t : Team) : (s.setTeam h t).meridian = s.meridian := rfl
@[simp] theorem State.setTeam_merPhase (s : State) (h : Nat) (t : Team) : (s.setTeam h t).merPhase = s.merPhase := rfl
@[simp] theorem State.setTeam_merHold (s : State) (h : Nat) (t : Team) : (s.setTeam h t).merHold = s.merHold := rfl
@[simp] theorem State.setTeam_aligned (s : State) (h : Nat) (t : Team) : (s.setTeam h t).aligned = s.aligned := rfl
@[simp] theorem State.setTeam_root (s : State) (h : Nat) (t : Team) : (s.setTeam h t).root = s.root := rfl
@[simp] theorem State.setTeam_lastAlign (s : State) (h : Nat) (t : Team) : (s.setTeam h t).lastAlign = s.lastAlign := rfl
@[simp] theorem State.setTeam_hbm (s : State) (h : Nat) (t : Team) : (s.setTeam h t).hbm = s.hbm := rfl
@[simp] theorem State.setTeam_pkg (s : State) (h : Nat) (t : Team) : (s.setTeam h t).pkg = s.pkg := rfl
@[simp] theorem State.setTeam_gliem (s : State) (h : Nat) (t : Team) : (s.setTeam h t).gliem = s.gliem := rfl
@[simp] theorem State.setTeam_chart (s : State) (h : Nat) (t : Team) : (s.setTeam h t).chart = s.chart := rfl
@[simp] theorem State.setTeam_exports (s : State) (h : Nat) (t : Team) : (s.setTeam h t).exports = s.exports := rfl
@[simp] theorem State.setTeam_traffic (s : State) (h : Nat) (t : Team) : (s.setTeam h t).traffic = s.traffic := rfl
@[simp] theorem State.setTeam_clocks (s : State) (h : Nat) (t : Team) : (s.setTeam h t).clocks = s.clocks := rfl
@[simp] theorem State.setTeam_applied (s : State) (h : Nat) (t : Team) : (s.setTeam h t).applied = s.applied := rfl
@[simp] theorem State.setTeam_markers (s : State) (h : Nat) (t : Team) : (s.setTeam h t).markers = s.markers := rfl
@[simp] theorem State.setTeam_redRegions (s : State) (h : Nat) (t : Team) : (s.setTeam h t).redRegions = s.redRegions := rfl
@[simp] theorem State.setTeam_redMsgs (s : State) (h : Nat) (t : Team) : (s.setTeam h t).redMsgs = s.redMsgs := rfl
@[simp] theorem State.setTeam_nextMsg (s : State) (h : Nat) (t : Team) : (s.setTeam h t).nextMsg = s.nextMsg := rfl
@[simp] theorem State.setTeam_claims (s : State) (h : Nat) (t : Team) : (s.setTeam h t).claims = s.claims := rfl
@[simp] theorem State.setTeam_collectives (s : State) (h : Nat) (t : Team) : (s.setTeam h t).collectives = s.collectives := rfl
@[simp] theorem State.setTeam_errors (s : State) (h : Nat) (t : Team) : (s.setTeam h t).errors = s.errors := rfl
@[simp] theorem State.setTeam_errOver (s : State) (h : Nat) (t : Team) : (s.setTeam h t).errOver = s.errOver := rfl
@[simp] theorem State.setTeam_peerLines (s : State) (h : Nat) (t : Team) : (s.setTeam h t).peerLines = s.peerLines := rfl
@[simp] theorem State.setTeam_migCounts (s : State) (h : Nat) (t : Team) : (s.setTeam h t).migCounts = s.migCounts := rfl
@[simp] theorem State.setTeam_moved (s : State) (h : Nat) (t : Team) : (s.setTeam h t).moved = s.moved := rfl
@[simp] theorem State.setTeam_fabric (s : State) (h : Nat) (t : Team) : (s.setTeam h t).fabric = s.fabric := rfl
@[simp] theorem State.setTeam_errCounts (s : State) (h : Nat) (t : Team) : (s.setTeam h t).errCounts = s.errCounts := rfl
@[simp] theorem State.setTeam_retired (s : State) (h : Nat) (t : Team) : (s.setTeam h t).retired = s.retired := rfl
@[simp] theorem State.setTeam_interrupts (s : State) (h : Nat) (t : Team) : (s.setTeam h t).interrupts = s.interrupts := rfl
@[simp] theorem State.setTeam_binnacle (s : State) (h : Nat) (t : Team) : (s.setTeam h t).binnacle = s.binnacle := rfl
@[simp] theorem State.setTeam_ue (s : State) (h : Nat) (t : Team) : (s.setTeam h t).ue = s.ue := rfl
@[simp] theorem State.setTeam_enableMap (s : State) (h : Nat) (t : Team) : (s.setTeam h t).enableMap = s.enableMap := rfl
@[simp] theorem State.setTeam_contexts (s : State) (h : Nat) (t : Team) : (s.setTeam h t).contexts = s.contexts := rfl
@[simp] theorem State.setTeam_parked (s : State) (h : Nat) (t : Team) : (s.setTeam h t).parked = s.parked := rfl
@[simp] theorem State.setTeam_cores (s : State) (h : Nat) (t : Team) : (s.setTeam h t).cores = s.cores := rfl
@[simp] theorem State.setTeam_launches (s : State) (h : Nat) (t : Team) : (s.setTeam h t).launches = s.launches := rfl
@[simp] theorem State.setTeam_nextLaunch (s : State) (h : Nat) (t : Team) : (s.setTeam h t).nextLaunch = s.nextLaunch := rfl
@[simp] theorem State.setTeam_reqs (s : State) (h : Nat) (t : Team) : (s.setTeam h t).reqs = s.reqs := rfl
@[simp] theorem State.setTeam_cur (s : State) (h : Nat) (t : Team) : (s.setTeam h t).cur = s.cur := rfl
@[simp] theorem State.setTeam_agenda (s : State) (h : Nat) (t : Team) : (s.setTeam h t).agenda = s.agenda := rfl
@[simp] theorem State.setTeam_inputs (s : State) (h : Nat) (t : Team) : (s.setTeam h t).inputs = s.inputs := rfl
@[simp] theorem State.setTeam_fresh (s : State) (h : Nat) (t : Team) : (s.setTeam h t).fresh = s.fresh := rfl
@[simp] theorem State.setTeam_nextReq (s : State) (h : Nat) (t : Team) : (s.setTeam h t).nextReq = s.nextReq := rfl
@[simp] theorem State.setTeam_tagOf (s : State) (h : Nat) (t : Team) : (s.setTeam h t).tagOf = s.tagOf := rfl
@[simp] theorem State.setTeam_frameReports (s : State) (h : Nat) (t : Team) : (s.setTeam h t).frameReports = s.frameReports := rfl
@[simp] theorem State.setTeam_hostFaults (s : State) (h : Nat) (t : Team) : (s.setTeam h t).hostFaults = s.hostFaults := rfl

@[simp] theorem State.delTeam_cycle (s : State) (h : Nat) : (s.delTeam h).cycle = s.cycle := rfl
@[simp] theorem State.delTeam_meridian (s : State) (h : Nat) : (s.delTeam h).meridian = s.meridian := rfl
@[simp] theorem State.delTeam_merPhase (s : State) (h : Nat) : (s.delTeam h).merPhase = s.merPhase := rfl
@[simp] theorem State.delTeam_merHold (s : State) (h : Nat) : (s.delTeam h).merHold = s.merHold := rfl
@[simp] theorem State.delTeam_aligned (s : State) (h : Nat) : (s.delTeam h).aligned = s.aligned := rfl
@[simp] theorem State.delTeam_root (s : State) (h : Nat) : (s.delTeam h).root = s.root := rfl
@[simp] theorem State.delTeam_lastAlign (s : State) (h : Nat) : (s.delTeam h).lastAlign = s.lastAlign := rfl
@[simp] theorem State.delTeam_hbm (s : State) (h : Nat) : (s.delTeam h).hbm = s.hbm := rfl
@[simp] theorem State.delTeam_pkg (s : State) (h : Nat) : (s.delTeam h).pkg = s.pkg := rfl
@[simp] theorem State.delTeam_gliem (s : State) (h : Nat) : (s.delTeam h).gliem = s.gliem := rfl
@[simp] theorem State.delTeam_chart (s : State) (h : Nat) : (s.delTeam h).chart = s.chart := rfl
@[simp] theorem State.delTeam_exports (s : State) (h : Nat) : (s.delTeam h).exports = s.exports := rfl
@[simp] theorem State.delTeam_traffic (s : State) (h : Nat) : (s.delTeam h).traffic = s.traffic := rfl
@[simp] theorem State.delTeam_clocks (s : State) (h : Nat) : (s.delTeam h).clocks = s.clocks := rfl
@[simp] theorem State.delTeam_applied (s : State) (h : Nat) : (s.delTeam h).applied = s.applied := rfl
@[simp] theorem State.delTeam_markers (s : State) (h : Nat) : (s.delTeam h).markers = s.markers := rfl
@[simp] theorem State.delTeam_redRegions (s : State) (h : Nat) : (s.delTeam h).redRegions = s.redRegions := rfl
@[simp] theorem State.delTeam_redMsgs (s : State) (h : Nat) : (s.delTeam h).redMsgs = s.redMsgs := rfl
@[simp] theorem State.delTeam_nextMsg (s : State) (h : Nat) : (s.delTeam h).nextMsg = s.nextMsg := rfl
@[simp] theorem State.delTeam_claims (s : State) (h : Nat) : (s.delTeam h).claims = s.claims := rfl
@[simp] theorem State.delTeam_collectives (s : State) (h : Nat) : (s.delTeam h).collectives = s.collectives := rfl
@[simp] theorem State.delTeam_errors (s : State) (h : Nat) : (s.delTeam h).errors = s.errors := rfl
@[simp] theorem State.delTeam_errOver (s : State) (h : Nat) : (s.delTeam h).errOver = s.errOver := rfl
@[simp] theorem State.delTeam_peerLines (s : State) (h : Nat) : (s.delTeam h).peerLines = s.peerLines := rfl
@[simp] theorem State.delTeam_migCounts (s : State) (h : Nat) : (s.delTeam h).migCounts = s.migCounts := rfl
@[simp] theorem State.delTeam_moved (s : State) (h : Nat) : (s.delTeam h).moved = s.moved := rfl
@[simp] theorem State.delTeam_fabric (s : State) (h : Nat) : (s.delTeam h).fabric = s.fabric := rfl
@[simp] theorem State.delTeam_errCounts (s : State) (h : Nat) : (s.delTeam h).errCounts = s.errCounts := rfl
@[simp] theorem State.delTeam_retired (s : State) (h : Nat) : (s.delTeam h).retired = s.retired := rfl
@[simp] theorem State.delTeam_interrupts (s : State) (h : Nat) : (s.delTeam h).interrupts = s.interrupts := rfl
@[simp] theorem State.delTeam_binnacle (s : State) (h : Nat) : (s.delTeam h).binnacle = s.binnacle := rfl
@[simp] theorem State.delTeam_ue (s : State) (h : Nat) : (s.delTeam h).ue = s.ue := rfl
@[simp] theorem State.delTeam_enableMap (s : State) (h : Nat) : (s.delTeam h).enableMap = s.enableMap := rfl
@[simp] theorem State.delTeam_contexts (s : State) (h : Nat) : (s.delTeam h).contexts = s.contexts := rfl
@[simp] theorem State.delTeam_parked (s : State) (h : Nat) : (s.delTeam h).parked = s.parked := rfl
@[simp] theorem State.delTeam_cores (s : State) (h : Nat) : (s.delTeam h).cores = s.cores := rfl
@[simp] theorem State.delTeam_launches (s : State) (h : Nat) : (s.delTeam h).launches = s.launches := rfl
@[simp] theorem State.delTeam_nextLaunch (s : State) (h : Nat) : (s.delTeam h).nextLaunch = s.nextLaunch := rfl
@[simp] theorem State.delTeam_reqs (s : State) (h : Nat) : (s.delTeam h).reqs = s.reqs := rfl
@[simp] theorem State.delTeam_cur (s : State) (h : Nat) : (s.delTeam h).cur = s.cur := rfl
@[simp] theorem State.delTeam_agenda (s : State) (h : Nat) : (s.delTeam h).agenda = s.agenda := rfl
@[simp] theorem State.delTeam_inputs (s : State) (h : Nat) : (s.delTeam h).inputs = s.inputs := rfl
@[simp] theorem State.delTeam_fresh (s : State) (h : Nat) : (s.delTeam h).fresh = s.fresh := rfl
@[simp] theorem State.delTeam_nextReq (s : State) (h : Nat) : (s.delTeam h).nextReq = s.nextReq := rfl
@[simp] theorem State.delTeam_tagOf (s : State) (h : Nat) : (s.delTeam h).tagOf = s.tagOf := rfl
@[simp] theorem State.delTeam_frameReports (s : State) (h : Nat) : (s.delTeam h).frameReports = s.frameReports := rfl
@[simp] theorem State.delTeam_hostFaults (s : State) (h : Nat) : (s.delTeam h).hostFaults = s.hostFaults := rfl

@[simp] theorem State.setCore_cycle (s : State) (c : Nat) (x : Core) : (s.setCore c x).cycle = s.cycle := rfl
@[simp] theorem State.setCore_meridian (s : State) (c : Nat) (x : Core) : (s.setCore c x).meridian = s.meridian := rfl
@[simp] theorem State.setCore_merPhase (s : State) (c : Nat) (x : Core) : (s.setCore c x).merPhase = s.merPhase := rfl
@[simp] theorem State.setCore_merHold (s : State) (c : Nat) (x : Core) : (s.setCore c x).merHold = s.merHold := rfl
@[simp] theorem State.setCore_aligned (s : State) (c : Nat) (x : Core) : (s.setCore c x).aligned = s.aligned := rfl
@[simp] theorem State.setCore_root (s : State) (c : Nat) (x : Core) : (s.setCore c x).root = s.root := rfl
@[simp] theorem State.setCore_lastAlign (s : State) (c : Nat) (x : Core) : (s.setCore c x).lastAlign = s.lastAlign := rfl
@[simp] theorem State.setCore_hbm (s : State) (c : Nat) (x : Core) : (s.setCore c x).hbm = s.hbm := rfl
@[simp] theorem State.setCore_pkg (s : State) (c : Nat) (x : Core) : (s.setCore c x).pkg = s.pkg := rfl
@[simp] theorem State.setCore_gliem (s : State) (c : Nat) (x : Core) : (s.setCore c x).gliem = s.gliem := rfl
@[simp] theorem State.setCore_chart (s : State) (c : Nat) (x : Core) : (s.setCore c x).chart = s.chart := rfl
@[simp] theorem State.setCore_exports (s : State) (c : Nat) (x : Core) : (s.setCore c x).exports = s.exports := rfl
@[simp] theorem State.setCore_traffic (s : State) (c : Nat) (x : Core) : (s.setCore c x).traffic = s.traffic := rfl
@[simp] theorem State.setCore_clocks (s : State) (c : Nat) (x : Core) : (s.setCore c x).clocks = s.clocks := rfl
@[simp] theorem State.setCore_applied (s : State) (c : Nat) (x : Core) : (s.setCore c x).applied = s.applied := rfl
@[simp] theorem State.setCore_markers (s : State) (c : Nat) (x : Core) : (s.setCore c x).markers = s.markers := rfl
@[simp] theorem State.setCore_redRegions (s : State) (c : Nat) (x : Core) : (s.setCore c x).redRegions = s.redRegions := rfl
@[simp] theorem State.setCore_redMsgs (s : State) (c : Nat) (x : Core) : (s.setCore c x).redMsgs = s.redMsgs := rfl
@[simp] theorem State.setCore_nextMsg (s : State) (c : Nat) (x : Core) : (s.setCore c x).nextMsg = s.nextMsg := rfl
@[simp] theorem State.setCore_claims (s : State) (c : Nat) (x : Core) : (s.setCore c x).claims = s.claims := rfl
@[simp] theorem State.setCore_collectives (s : State) (c : Nat) (x : Core) : (s.setCore c x).collectives = s.collectives := rfl
@[simp] theorem State.setCore_errors (s : State) (c : Nat) (x : Core) : (s.setCore c x).errors = s.errors := rfl
@[simp] theorem State.setCore_errOver (s : State) (c : Nat) (x : Core) : (s.setCore c x).errOver = s.errOver := rfl
@[simp] theorem State.setCore_peerLines (s : State) (c : Nat) (x : Core) : (s.setCore c x).peerLines = s.peerLines := rfl
@[simp] theorem State.setCore_migCounts (s : State) (c : Nat) (x : Core) : (s.setCore c x).migCounts = s.migCounts := rfl
@[simp] theorem State.setCore_moved (s : State) (c : Nat) (x : Core) : (s.setCore c x).moved = s.moved := rfl
@[simp] theorem State.setCore_fabric (s : State) (c : Nat) (x : Core) : (s.setCore c x).fabric = s.fabric := rfl
@[simp] theorem State.setCore_errCounts (s : State) (c : Nat) (x : Core) : (s.setCore c x).errCounts = s.errCounts := rfl
@[simp] theorem State.setCore_retired (s : State) (c : Nat) (x : Core) : (s.setCore c x).retired = s.retired := rfl
@[simp] theorem State.setCore_interrupts (s : State) (c : Nat) (x : Core) : (s.setCore c x).interrupts = s.interrupts := rfl
@[simp] theorem State.setCore_binnacle (s : State) (c : Nat) (x : Core) : (s.setCore c x).binnacle = s.binnacle := rfl
@[simp] theorem State.setCore_ue (s : State) (c : Nat) (x : Core) : (s.setCore c x).ue = s.ue := rfl
@[simp] theorem State.setCore_enableMap (s : State) (c : Nat) (x : Core) : (s.setCore c x).enableMap = s.enableMap := rfl
@[simp] theorem State.setCore_contexts (s : State) (c : Nat) (x : Core) : (s.setCore c x).contexts = s.contexts := rfl
@[simp] theorem State.setCore_parked (s : State) (c : Nat) (x : Core) : (s.setCore c x).parked = s.parked := rfl
@[simp] theorem State.setCore_teams (s : State) (c : Nat) (x : Core) : (s.setCore c x).teams = s.teams := rfl
@[simp] theorem State.setCore_launches (s : State) (c : Nat) (x : Core) : (s.setCore c x).launches = s.launches := rfl
@[simp] theorem State.setCore_nextLaunch (s : State) (c : Nat) (x : Core) : (s.setCore c x).nextLaunch = s.nextLaunch := rfl
@[simp] theorem State.setCore_reqs (s : State) (c : Nat) (x : Core) : (s.setCore c x).reqs = s.reqs := rfl
@[simp] theorem State.setCore_cur (s : State) (c : Nat) (x : Core) : (s.setCore c x).cur = s.cur := rfl
@[simp] theorem State.setCore_agenda (s : State) (c : Nat) (x : Core) : (s.setCore c x).agenda = s.agenda := rfl
@[simp] theorem State.setCore_inputs (s : State) (c : Nat) (x : Core) : (s.setCore c x).inputs = s.inputs := rfl
@[simp] theorem State.setCore_fresh (s : State) (c : Nat) (x : Core) : (s.setCore c x).fresh = s.fresh := rfl
@[simp] theorem State.setCore_nextReq (s : State) (c : Nat) (x : Core) : (s.setCore c x).nextReq = s.nextReq := rfl
@[simp] theorem State.setCore_tagOf (s : State) (c : Nat) (x : Core) : (s.setCore c x).tagOf = s.tagOf := rfl
@[simp] theorem State.setCore_frameReports (s : State) (c : Nat) (x : Core) : (s.setCore c x).frameReports = s.frameReports := rfl
@[simp] theorem State.setCore_hostFaults (s : State) (c : Nat) (x : Core) : (s.setCore c x).hostFaults = s.hostFaults := rfl

@[simp] theorem State.setCtx_cycle (s : State) (c : Nat) (x : Context) : (s.setCtx c x).cycle = s.cycle := rfl
@[simp] theorem State.setCtx_meridian (s : State) (c : Nat) (x : Context) : (s.setCtx c x).meridian = s.meridian := rfl
@[simp] theorem State.setCtx_merPhase (s : State) (c : Nat) (x : Context) : (s.setCtx c x).merPhase = s.merPhase := rfl
@[simp] theorem State.setCtx_merHold (s : State) (c : Nat) (x : Context) : (s.setCtx c x).merHold = s.merHold := rfl
@[simp] theorem State.setCtx_aligned (s : State) (c : Nat) (x : Context) : (s.setCtx c x).aligned = s.aligned := rfl
@[simp] theorem State.setCtx_root (s : State) (c : Nat) (x : Context) : (s.setCtx c x).root = s.root := rfl
@[simp] theorem State.setCtx_lastAlign (s : State) (c : Nat) (x : Context) : (s.setCtx c x).lastAlign = s.lastAlign := rfl
@[simp] theorem State.setCtx_hbm (s : State) (c : Nat) (x : Context) : (s.setCtx c x).hbm = s.hbm := rfl
@[simp] theorem State.setCtx_pkg (s : State) (c : Nat) (x : Context) : (s.setCtx c x).pkg = s.pkg := rfl
@[simp] theorem State.setCtx_gliem (s : State) (c : Nat) (x : Context) : (s.setCtx c x).gliem = s.gliem := rfl
@[simp] theorem State.setCtx_chart (s : State) (c : Nat) (x : Context) : (s.setCtx c x).chart = s.chart := rfl
@[simp] theorem State.setCtx_exports (s : State) (c : Nat) (x : Context) : (s.setCtx c x).exports = s.exports := rfl
@[simp] theorem State.setCtx_traffic (s : State) (c : Nat) (x : Context) : (s.setCtx c x).traffic = s.traffic := rfl
@[simp] theorem State.setCtx_clocks (s : State) (c : Nat) (x : Context) : (s.setCtx c x).clocks = s.clocks := rfl
@[simp] theorem State.setCtx_applied (s : State) (c : Nat) (x : Context) : (s.setCtx c x).applied = s.applied := rfl
@[simp] theorem State.setCtx_markers (s : State) (c : Nat) (x : Context) : (s.setCtx c x).markers = s.markers := rfl
@[simp] theorem State.setCtx_redRegions (s : State) (c : Nat) (x : Context) : (s.setCtx c x).redRegions = s.redRegions := rfl
@[simp] theorem State.setCtx_redMsgs (s : State) (c : Nat) (x : Context) : (s.setCtx c x).redMsgs = s.redMsgs := rfl
@[simp] theorem State.setCtx_nextMsg (s : State) (c : Nat) (x : Context) : (s.setCtx c x).nextMsg = s.nextMsg := rfl
@[simp] theorem State.setCtx_claims (s : State) (c : Nat) (x : Context) : (s.setCtx c x).claims = s.claims := rfl
@[simp] theorem State.setCtx_collectives (s : State) (c : Nat) (x : Context) : (s.setCtx c x).collectives = s.collectives := rfl
@[simp] theorem State.setCtx_errors (s : State) (c : Nat) (x : Context) : (s.setCtx c x).errors = s.errors := rfl
@[simp] theorem State.setCtx_errOver (s : State) (c : Nat) (x : Context) : (s.setCtx c x).errOver = s.errOver := rfl
@[simp] theorem State.setCtx_peerLines (s : State) (c : Nat) (x : Context) : (s.setCtx c x).peerLines = s.peerLines := rfl
@[simp] theorem State.setCtx_migCounts (s : State) (c : Nat) (x : Context) : (s.setCtx c x).migCounts = s.migCounts := rfl
@[simp] theorem State.setCtx_moved (s : State) (c : Nat) (x : Context) : (s.setCtx c x).moved = s.moved := rfl
@[simp] theorem State.setCtx_fabric (s : State) (c : Nat) (x : Context) : (s.setCtx c x).fabric = s.fabric := rfl
@[simp] theorem State.setCtx_errCounts (s : State) (c : Nat) (x : Context) : (s.setCtx c x).errCounts = s.errCounts := rfl
@[simp] theorem State.setCtx_retired (s : State) (c : Nat) (x : Context) : (s.setCtx c x).retired = s.retired := rfl
@[simp] theorem State.setCtx_interrupts (s : State) (c : Nat) (x : Context) : (s.setCtx c x).interrupts = s.interrupts := rfl
@[simp] theorem State.setCtx_binnacle (s : State) (c : Nat) (x : Context) : (s.setCtx c x).binnacle = s.binnacle := rfl
@[simp] theorem State.setCtx_ue (s : State) (c : Nat) (x : Context) : (s.setCtx c x).ue = s.ue := rfl
@[simp] theorem State.setCtx_enableMap (s : State) (c : Nat) (x : Context) : (s.setCtx c x).enableMap = s.enableMap := rfl
@[simp] theorem State.setCtx_parked (s : State) (c : Nat) (x : Context) : (s.setCtx c x).parked = s.parked := rfl
@[simp] theorem State.setCtx_cores (s : State) (c : Nat) (x : Context) : (s.setCtx c x).cores = s.cores := rfl
@[simp] theorem State.setCtx_teams (s : State) (c : Nat) (x : Context) : (s.setCtx c x).teams = s.teams := rfl
@[simp] theorem State.setCtx_launches (s : State) (c : Nat) (x : Context) : (s.setCtx c x).launches = s.launches := rfl
@[simp] theorem State.setCtx_nextLaunch (s : State) (c : Nat) (x : Context) : (s.setCtx c x).nextLaunch = s.nextLaunch := rfl
@[simp] theorem State.setCtx_reqs (s : State) (c : Nat) (x : Context) : (s.setCtx c x).reqs = s.reqs := rfl
@[simp] theorem State.setCtx_cur (s : State) (c : Nat) (x : Context) : (s.setCtx c x).cur = s.cur := rfl
@[simp] theorem State.setCtx_agenda (s : State) (c : Nat) (x : Context) : (s.setCtx c x).agenda = s.agenda := rfl
@[simp] theorem State.setCtx_inputs (s : State) (c : Nat) (x : Context) : (s.setCtx c x).inputs = s.inputs := rfl
@[simp] theorem State.setCtx_fresh (s : State) (c : Nat) (x : Context) : (s.setCtx c x).fresh = s.fresh := rfl
@[simp] theorem State.setCtx_nextReq (s : State) (c : Nat) (x : Context) : (s.setCtx c x).nextReq = s.nextReq := rfl
@[simp] theorem State.setCtx_tagOf (s : State) (c : Nat) (x : Context) : (s.setCtx c x).tagOf = s.tagOf := rfl
@[simp] theorem State.setCtx_frameReports (s : State) (c : Nat) (x : Context) : (s.setCtx c x).frameReports = s.frameReports := rfl
@[simp] theorem State.setCtx_hostFaults (s : State) (c : Nat) (x : Context) : (s.setCtx c x).hostFaults = s.hostFaults := rfl

@[simp] theorem State.setLaunch_cycle (s : State) (l : Nat) (x : Launch) : (s.setLaunch l x).cycle = s.cycle := rfl
@[simp] theorem State.setLaunch_meridian (s : State) (l : Nat) (x : Launch) : (s.setLaunch l x).meridian = s.meridian := rfl
@[simp] theorem State.setLaunch_merPhase (s : State) (l : Nat) (x : Launch) : (s.setLaunch l x).merPhase = s.merPhase := rfl
@[simp] theorem State.setLaunch_merHold (s : State) (l : Nat) (x : Launch) : (s.setLaunch l x).merHold = s.merHold := rfl
@[simp] theorem State.setLaunch_aligned (s : State) (l : Nat) (x : Launch) : (s.setLaunch l x).aligned = s.aligned := rfl
@[simp] theorem State.setLaunch_root (s : State) (l : Nat) (x : Launch) : (s.setLaunch l x).root = s.root := rfl
@[simp] theorem State.setLaunch_lastAlign (s : State) (l : Nat) (x : Launch) : (s.setLaunch l x).lastAlign = s.lastAlign := rfl
@[simp] theorem State.setLaunch_hbm (s : State) (l : Nat) (x : Launch) : (s.setLaunch l x).hbm = s.hbm := rfl
@[simp] theorem State.setLaunch_pkg (s : State) (l : Nat) (x : Launch) : (s.setLaunch l x).pkg = s.pkg := rfl
@[simp] theorem State.setLaunch_gliem (s : State) (l : Nat) (x : Launch) : (s.setLaunch l x).gliem = s.gliem := rfl
@[simp] theorem State.setLaunch_chart (s : State) (l : Nat) (x : Launch) : (s.setLaunch l x).chart = s.chart := rfl
@[simp] theorem State.setLaunch_exports (s : State) (l : Nat) (x : Launch) : (s.setLaunch l x).exports = s.exports := rfl
@[simp] theorem State.setLaunch_traffic (s : State) (l : Nat) (x : Launch) : (s.setLaunch l x).traffic = s.traffic := rfl
@[simp] theorem State.setLaunch_clocks (s : State) (l : Nat) (x : Launch) : (s.setLaunch l x).clocks = s.clocks := rfl
@[simp] theorem State.setLaunch_applied (s : State) (l : Nat) (x : Launch) : (s.setLaunch l x).applied = s.applied := rfl
@[simp] theorem State.setLaunch_markers (s : State) (l : Nat) (x : Launch) : (s.setLaunch l x).markers = s.markers := rfl
@[simp] theorem State.setLaunch_redRegions (s : State) (l : Nat) (x : Launch) : (s.setLaunch l x).redRegions = s.redRegions := rfl
@[simp] theorem State.setLaunch_redMsgs (s : State) (l : Nat) (x : Launch) : (s.setLaunch l x).redMsgs = s.redMsgs := rfl
@[simp] theorem State.setLaunch_nextMsg (s : State) (l : Nat) (x : Launch) : (s.setLaunch l x).nextMsg = s.nextMsg := rfl
@[simp] theorem State.setLaunch_claims (s : State) (l : Nat) (x : Launch) : (s.setLaunch l x).claims = s.claims := rfl
@[simp] theorem State.setLaunch_collectives (s : State) (l : Nat) (x : Launch) : (s.setLaunch l x).collectives = s.collectives := rfl
@[simp] theorem State.setLaunch_errors (s : State) (l : Nat) (x : Launch) : (s.setLaunch l x).errors = s.errors := rfl
@[simp] theorem State.setLaunch_errOver (s : State) (l : Nat) (x : Launch) : (s.setLaunch l x).errOver = s.errOver := rfl
@[simp] theorem State.setLaunch_peerLines (s : State) (l : Nat) (x : Launch) : (s.setLaunch l x).peerLines = s.peerLines := rfl
@[simp] theorem State.setLaunch_migCounts (s : State) (l : Nat) (x : Launch) : (s.setLaunch l x).migCounts = s.migCounts := rfl
@[simp] theorem State.setLaunch_moved (s : State) (l : Nat) (x : Launch) : (s.setLaunch l x).moved = s.moved := rfl
@[simp] theorem State.setLaunch_fabric (s : State) (l : Nat) (x : Launch) : (s.setLaunch l x).fabric = s.fabric := rfl
@[simp] theorem State.setLaunch_errCounts (s : State) (l : Nat) (x : Launch) : (s.setLaunch l x).errCounts = s.errCounts := rfl
@[simp] theorem State.setLaunch_retired (s : State) (l : Nat) (x : Launch) : (s.setLaunch l x).retired = s.retired := rfl
@[simp] theorem State.setLaunch_interrupts (s : State) (l : Nat) (x : Launch) : (s.setLaunch l x).interrupts = s.interrupts := rfl
@[simp] theorem State.setLaunch_binnacle (s : State) (l : Nat) (x : Launch) : (s.setLaunch l x).binnacle = s.binnacle := rfl
@[simp] theorem State.setLaunch_ue (s : State) (l : Nat) (x : Launch) : (s.setLaunch l x).ue = s.ue := rfl
@[simp] theorem State.setLaunch_enableMap (s : State) (l : Nat) (x : Launch) : (s.setLaunch l x).enableMap = s.enableMap := rfl
@[simp] theorem State.setLaunch_contexts (s : State) (l : Nat) (x : Launch) : (s.setLaunch l x).contexts = s.contexts := rfl
@[simp] theorem State.setLaunch_parked (s : State) (l : Nat) (x : Launch) : (s.setLaunch l x).parked = s.parked := rfl
@[simp] theorem State.setLaunch_cores (s : State) (l : Nat) (x : Launch) : (s.setLaunch l x).cores = s.cores := rfl
@[simp] theorem State.setLaunch_teams (s : State) (l : Nat) (x : Launch) : (s.setLaunch l x).teams = s.teams := rfl
@[simp] theorem State.setLaunch_nextLaunch (s : State) (l : Nat) (x : Launch) : (s.setLaunch l x).nextLaunch = s.nextLaunch := rfl
@[simp] theorem State.setLaunch_reqs (s : State) (l : Nat) (x : Launch) : (s.setLaunch l x).reqs = s.reqs := rfl
@[simp] theorem State.setLaunch_cur (s : State) (l : Nat) (x : Launch) : (s.setLaunch l x).cur = s.cur := rfl
@[simp] theorem State.setLaunch_agenda (s : State) (l : Nat) (x : Launch) : (s.setLaunch l x).agenda = s.agenda := rfl
@[simp] theorem State.setLaunch_inputs (s : State) (l : Nat) (x : Launch) : (s.setLaunch l x).inputs = s.inputs := rfl
@[simp] theorem State.setLaunch_fresh (s : State) (l : Nat) (x : Launch) : (s.setLaunch l x).fresh = s.fresh := rfl
@[simp] theorem State.setLaunch_nextReq (s : State) (l : Nat) (x : Launch) : (s.setLaunch l x).nextReq = s.nextReq := rfl
@[simp] theorem State.setLaunch_tagOf (s : State) (l : Nat) (x : Launch) : (s.setLaunch l x).tagOf = s.tagOf := rfl
@[simp] theorem State.setLaunch_frameReports (s : State) (l : Nat) (x : Launch) : (s.setLaunch l x).frameReports = s.frameReports := rfl
@[simp] theorem State.setLaunch_hostFaults (s : State) (l : Nat) (x : Launch) : (s.setLaunch l x).hostFaults = s.hostFaults := rfl

@[simp] theorem State.setReq_cycle (s : State) (n : Nat) (q : Req) : (s.setReq n q).cycle = s.cycle := rfl
@[simp] theorem State.setReq_meridian (s : State) (n : Nat) (q : Req) : (s.setReq n q).meridian = s.meridian := rfl
@[simp] theorem State.setReq_merPhase (s : State) (n : Nat) (q : Req) : (s.setReq n q).merPhase = s.merPhase := rfl
@[simp] theorem State.setReq_merHold (s : State) (n : Nat) (q : Req) : (s.setReq n q).merHold = s.merHold := rfl
@[simp] theorem State.setReq_aligned (s : State) (n : Nat) (q : Req) : (s.setReq n q).aligned = s.aligned := rfl
@[simp] theorem State.setReq_root (s : State) (n : Nat) (q : Req) : (s.setReq n q).root = s.root := rfl
@[simp] theorem State.setReq_lastAlign (s : State) (n : Nat) (q : Req) : (s.setReq n q).lastAlign = s.lastAlign := rfl
@[simp] theorem State.setReq_hbm (s : State) (n : Nat) (q : Req) : (s.setReq n q).hbm = s.hbm := rfl
@[simp] theorem State.setReq_pkg (s : State) (n : Nat) (q : Req) : (s.setReq n q).pkg = s.pkg := rfl
@[simp] theorem State.setReq_gliem (s : State) (n : Nat) (q : Req) : (s.setReq n q).gliem = s.gliem := rfl
@[simp] theorem State.setReq_chart (s : State) (n : Nat) (q : Req) : (s.setReq n q).chart = s.chart := rfl
@[simp] theorem State.setReq_exports (s : State) (n : Nat) (q : Req) : (s.setReq n q).exports = s.exports := rfl
@[simp] theorem State.setReq_traffic (s : State) (n : Nat) (q : Req) : (s.setReq n q).traffic = s.traffic := rfl
@[simp] theorem State.setReq_clocks (s : State) (n : Nat) (q : Req) : (s.setReq n q).clocks = s.clocks := rfl
@[simp] theorem State.setReq_applied (s : State) (n : Nat) (q : Req) : (s.setReq n q).applied = s.applied := rfl
@[simp] theorem State.setReq_markers (s : State) (n : Nat) (q : Req) : (s.setReq n q).markers = s.markers := rfl
@[simp] theorem State.setReq_redRegions (s : State) (n : Nat) (q : Req) : (s.setReq n q).redRegions = s.redRegions := rfl
@[simp] theorem State.setReq_redMsgs (s : State) (n : Nat) (q : Req) : (s.setReq n q).redMsgs = s.redMsgs := rfl
@[simp] theorem State.setReq_nextMsg (s : State) (n : Nat) (q : Req) : (s.setReq n q).nextMsg = s.nextMsg := rfl
@[simp] theorem State.setReq_claims (s : State) (n : Nat) (q : Req) : (s.setReq n q).claims = s.claims := rfl
@[simp] theorem State.setReq_collectives (s : State) (n : Nat) (q : Req) : (s.setReq n q).collectives = s.collectives := rfl
@[simp] theorem State.setReq_errors (s : State) (n : Nat) (q : Req) : (s.setReq n q).errors = s.errors := rfl
@[simp] theorem State.setReq_errOver (s : State) (n : Nat) (q : Req) : (s.setReq n q).errOver = s.errOver := rfl
@[simp] theorem State.setReq_peerLines (s : State) (n : Nat) (q : Req) : (s.setReq n q).peerLines = s.peerLines := rfl
@[simp] theorem State.setReq_migCounts (s : State) (n : Nat) (q : Req) : (s.setReq n q).migCounts = s.migCounts := rfl
@[simp] theorem State.setReq_moved (s : State) (n : Nat) (q : Req) : (s.setReq n q).moved = s.moved := rfl
@[simp] theorem State.setReq_fabric (s : State) (n : Nat) (q : Req) : (s.setReq n q).fabric = s.fabric := rfl
@[simp] theorem State.setReq_errCounts (s : State) (n : Nat) (q : Req) : (s.setReq n q).errCounts = s.errCounts := rfl
@[simp] theorem State.setReq_retired (s : State) (n : Nat) (q : Req) : (s.setReq n q).retired = s.retired := rfl
@[simp] theorem State.setReq_interrupts (s : State) (n : Nat) (q : Req) : (s.setReq n q).interrupts = s.interrupts := rfl
@[simp] theorem State.setReq_binnacle (s : State) (n : Nat) (q : Req) : (s.setReq n q).binnacle = s.binnacle := rfl
@[simp] theorem State.setReq_ue (s : State) (n : Nat) (q : Req) : (s.setReq n q).ue = s.ue := rfl
@[simp] theorem State.setReq_enableMap (s : State) (n : Nat) (q : Req) : (s.setReq n q).enableMap = s.enableMap := rfl
@[simp] theorem State.setReq_contexts (s : State) (n : Nat) (q : Req) : (s.setReq n q).contexts = s.contexts := rfl
@[simp] theorem State.setReq_parked (s : State) (n : Nat) (q : Req) : (s.setReq n q).parked = s.parked := rfl
@[simp] theorem State.setReq_cores (s : State) (n : Nat) (q : Req) : (s.setReq n q).cores = s.cores := rfl
@[simp] theorem State.setReq_teams (s : State) (n : Nat) (q : Req) : (s.setReq n q).teams = s.teams := rfl
@[simp] theorem State.setReq_launches (s : State) (n : Nat) (q : Req) : (s.setReq n q).launches = s.launches := rfl
@[simp] theorem State.setReq_nextLaunch (s : State) (n : Nat) (q : Req) : (s.setReq n q).nextLaunch = s.nextLaunch := rfl
@[simp] theorem State.setReq_cur (s : State) (n : Nat) (q : Req) : (s.setReq n q).cur = s.cur := rfl
@[simp] theorem State.setReq_agenda (s : State) (n : Nat) (q : Req) : (s.setReq n q).agenda = s.agenda := rfl
@[simp] theorem State.setReq_inputs (s : State) (n : Nat) (q : Req) : (s.setReq n q).inputs = s.inputs := rfl
@[simp] theorem State.setReq_fresh (s : State) (n : Nat) (q : Req) : (s.setReq n q).fresh = s.fresh := rfl
@[simp] theorem State.setReq_nextReq (s : State) (n : Nat) (q : Req) : (s.setReq n q).nextReq = s.nextReq := rfl
@[simp] theorem State.setReq_tagOf (s : State) (n : Nat) (q : Req) : (s.setReq n q).tagOf = s.tagOf := rfl
@[simp] theorem State.setReq_frameReports (s : State) (n : Nat) (q : Req) : (s.setReq n q).frameReports = s.frameReports := rfl
@[simp] theorem State.setReq_hostFaults (s : State) (n : Nat) (q : Req) : (s.setReq n q).hostFaults = s.hostFaults := rfl

@[simp] theorem State.delReq_cycle (s : State) (n : Nat) : (s.delReq n).cycle = s.cycle := rfl
@[simp] theorem State.delReq_meridian (s : State) (n : Nat) : (s.delReq n).meridian = s.meridian := rfl
@[simp] theorem State.delReq_merPhase (s : State) (n : Nat) : (s.delReq n).merPhase = s.merPhase := rfl
@[simp] theorem State.delReq_merHold (s : State) (n : Nat) : (s.delReq n).merHold = s.merHold := rfl
@[simp] theorem State.delReq_aligned (s : State) (n : Nat) : (s.delReq n).aligned = s.aligned := rfl
@[simp] theorem State.delReq_root (s : State) (n : Nat) : (s.delReq n).root = s.root := rfl
@[simp] theorem State.delReq_lastAlign (s : State) (n : Nat) : (s.delReq n).lastAlign = s.lastAlign := rfl
@[simp] theorem State.delReq_hbm (s : State) (n : Nat) : (s.delReq n).hbm = s.hbm := rfl
@[simp] theorem State.delReq_pkg (s : State) (n : Nat) : (s.delReq n).pkg = s.pkg := rfl
@[simp] theorem State.delReq_gliem (s : State) (n : Nat) : (s.delReq n).gliem = s.gliem := rfl
@[simp] theorem State.delReq_chart (s : State) (n : Nat) : (s.delReq n).chart = s.chart := rfl
@[simp] theorem State.delReq_exports (s : State) (n : Nat) : (s.delReq n).exports = s.exports := rfl
@[simp] theorem State.delReq_traffic (s : State) (n : Nat) : (s.delReq n).traffic = s.traffic := rfl
@[simp] theorem State.delReq_clocks (s : State) (n : Nat) : (s.delReq n).clocks = s.clocks := rfl
@[simp] theorem State.delReq_applied (s : State) (n : Nat) : (s.delReq n).applied = s.applied := rfl
@[simp] theorem State.delReq_markers (s : State) (n : Nat) : (s.delReq n).markers = s.markers := rfl
@[simp] theorem State.delReq_redRegions (s : State) (n : Nat) : (s.delReq n).redRegions = s.redRegions := rfl
@[simp] theorem State.delReq_redMsgs (s : State) (n : Nat) : (s.delReq n).redMsgs = s.redMsgs := rfl
@[simp] theorem State.delReq_nextMsg (s : State) (n : Nat) : (s.delReq n).nextMsg = s.nextMsg := rfl
@[simp] theorem State.delReq_claims (s : State) (n : Nat) : (s.delReq n).claims = s.claims := rfl
@[simp] theorem State.delReq_collectives (s : State) (n : Nat) : (s.delReq n).collectives = s.collectives := rfl
@[simp] theorem State.delReq_errors (s : State) (n : Nat) : (s.delReq n).errors = s.errors := rfl
@[simp] theorem State.delReq_errOver (s : State) (n : Nat) : (s.delReq n).errOver = s.errOver := rfl
@[simp] theorem State.delReq_peerLines (s : State) (n : Nat) : (s.delReq n).peerLines = s.peerLines := rfl
@[simp] theorem State.delReq_migCounts (s : State) (n : Nat) : (s.delReq n).migCounts = s.migCounts := rfl
@[simp] theorem State.delReq_moved (s : State) (n : Nat) : (s.delReq n).moved = s.moved := rfl
@[simp] theorem State.delReq_fabric (s : State) (n : Nat) : (s.delReq n).fabric = s.fabric := rfl
@[simp] theorem State.delReq_errCounts (s : State) (n : Nat) : (s.delReq n).errCounts = s.errCounts := rfl
@[simp] theorem State.delReq_retired (s : State) (n : Nat) : (s.delReq n).retired = s.retired := rfl
@[simp] theorem State.delReq_interrupts (s : State) (n : Nat) : (s.delReq n).interrupts = s.interrupts := rfl
@[simp] theorem State.delReq_binnacle (s : State) (n : Nat) : (s.delReq n).binnacle = s.binnacle := rfl
@[simp] theorem State.delReq_ue (s : State) (n : Nat) : (s.delReq n).ue = s.ue := rfl
@[simp] theorem State.delReq_enableMap (s : State) (n : Nat) : (s.delReq n).enableMap = s.enableMap := rfl
@[simp] theorem State.delReq_contexts (s : State) (n : Nat) : (s.delReq n).contexts = s.contexts := rfl
@[simp] theorem State.delReq_parked (s : State) (n : Nat) : (s.delReq n).parked = s.parked := rfl
@[simp] theorem State.delReq_cores (s : State) (n : Nat) : (s.delReq n).cores = s.cores := rfl
@[simp] theorem State.delReq_teams (s : State) (n : Nat) : (s.delReq n).teams = s.teams := rfl
@[simp] theorem State.delReq_launches (s : State) (n : Nat) : (s.delReq n).launches = s.launches := rfl
@[simp] theorem State.delReq_nextLaunch (s : State) (n : Nat) : (s.delReq n).nextLaunch = s.nextLaunch := rfl
@[simp] theorem State.delReq_cur (s : State) (n : Nat) : (s.delReq n).cur = s.cur := rfl
@[simp] theorem State.delReq_agenda (s : State) (n : Nat) : (s.delReq n).agenda = s.agenda := rfl
@[simp] theorem State.delReq_inputs (s : State) (n : Nat) : (s.delReq n).inputs = s.inputs := rfl
@[simp] theorem State.delReq_fresh (s : State) (n : Nat) : (s.delReq n).fresh = s.fresh := rfl
@[simp] theorem State.delReq_nextReq (s : State) (n : Nat) : (s.delReq n).nextReq = s.nextReq := rfl
@[simp] theorem State.delReq_tagOf (s : State) (n : Nat) : (s.delReq n).tagOf = s.tagOf := rfl
@[simp] theorem State.delReq_frameReports (s : State) (n : Nat) : (s.delReq n).frameReports = s.frameReports := rfl
@[simp] theorem State.delReq_hostFaults (s : State) (n : Nat) : (s.delReq n).hostFaults = s.hostFaults := rfl

@[simp] theorem State.later_cycle (s : State) (l : List Occ) : (s.later l).cycle = s.cycle := rfl
@[simp] theorem State.later_meridian (s : State) (l : List Occ) : (s.later l).meridian = s.meridian := rfl
@[simp] theorem State.later_merPhase (s : State) (l : List Occ) : (s.later l).merPhase = s.merPhase := rfl
@[simp] theorem State.later_merHold (s : State) (l : List Occ) : (s.later l).merHold = s.merHold := rfl
@[simp] theorem State.later_aligned (s : State) (l : List Occ) : (s.later l).aligned = s.aligned := rfl
@[simp] theorem State.later_root (s : State) (l : List Occ) : (s.later l).root = s.root := rfl
@[simp] theorem State.later_lastAlign (s : State) (l : List Occ) : (s.later l).lastAlign = s.lastAlign := rfl
@[simp] theorem State.later_hbm (s : State) (l : List Occ) : (s.later l).hbm = s.hbm := rfl
@[simp] theorem State.later_pkg (s : State) (l : List Occ) : (s.later l).pkg = s.pkg := rfl
@[simp] theorem State.later_gliem (s : State) (l : List Occ) : (s.later l).gliem = s.gliem := rfl
@[simp] theorem State.later_chart (s : State) (l : List Occ) : (s.later l).chart = s.chart := rfl
@[simp] theorem State.later_exports (s : State) (l : List Occ) : (s.later l).exports = s.exports := rfl
@[simp] theorem State.later_traffic (s : State) (l : List Occ) : (s.later l).traffic = s.traffic := rfl
@[simp] theorem State.later_clocks (s : State) (l : List Occ) : (s.later l).clocks = s.clocks := rfl
@[simp] theorem State.later_applied (s : State) (l : List Occ) : (s.later l).applied = s.applied := rfl
@[simp] theorem State.later_markers (s : State) (l : List Occ) : (s.later l).markers = s.markers := rfl
@[simp] theorem State.later_redRegions (s : State) (l : List Occ) : (s.later l).redRegions = s.redRegions := rfl
@[simp] theorem State.later_redMsgs (s : State) (l : List Occ) : (s.later l).redMsgs = s.redMsgs := rfl
@[simp] theorem State.later_nextMsg (s : State) (l : List Occ) : (s.later l).nextMsg = s.nextMsg := rfl
@[simp] theorem State.later_claims (s : State) (l : List Occ) : (s.later l).claims = s.claims := rfl
@[simp] theorem State.later_collectives (s : State) (l : List Occ) : (s.later l).collectives = s.collectives := rfl
@[simp] theorem State.later_errors (s : State) (l : List Occ) : (s.later l).errors = s.errors := rfl
@[simp] theorem State.later_errOver (s : State) (l : List Occ) : (s.later l).errOver = s.errOver := rfl
@[simp] theorem State.later_peerLines (s : State) (l : List Occ) : (s.later l).peerLines = s.peerLines := rfl
@[simp] theorem State.later_migCounts (s : State) (l : List Occ) : (s.later l).migCounts = s.migCounts := rfl
@[simp] theorem State.later_moved (s : State) (l : List Occ) : (s.later l).moved = s.moved := rfl
@[simp] theorem State.later_fabric (s : State) (l : List Occ) : (s.later l).fabric = s.fabric := rfl
@[simp] theorem State.later_errCounts (s : State) (l : List Occ) : (s.later l).errCounts = s.errCounts := rfl
@[simp] theorem State.later_retired (s : State) (l : List Occ) : (s.later l).retired = s.retired := rfl
@[simp] theorem State.later_interrupts (s : State) (l : List Occ) : (s.later l).interrupts = s.interrupts := rfl
@[simp] theorem State.later_binnacle (s : State) (l : List Occ) : (s.later l).binnacle = s.binnacle := rfl
@[simp] theorem State.later_ue (s : State) (l : List Occ) : (s.later l).ue = s.ue := rfl
@[simp] theorem State.later_enableMap (s : State) (l : List Occ) : (s.later l).enableMap = s.enableMap := rfl
@[simp] theorem State.later_contexts (s : State) (l : List Occ) : (s.later l).contexts = s.contexts := rfl
@[simp] theorem State.later_parked (s : State) (l : List Occ) : (s.later l).parked = s.parked := rfl
@[simp] theorem State.later_cores (s : State) (l : List Occ) : (s.later l).cores = s.cores := rfl
@[simp] theorem State.later_teams (s : State) (l : List Occ) : (s.later l).teams = s.teams := rfl
@[simp] theorem State.later_launches (s : State) (l : List Occ) : (s.later l).launches = s.launches := rfl
@[simp] theorem State.later_nextLaunch (s : State) (l : List Occ) : (s.later l).nextLaunch = s.nextLaunch := rfl
@[simp] theorem State.later_reqs (s : State) (l : List Occ) : (s.later l).reqs = s.reqs := rfl
@[simp] theorem State.later_cur (s : State) (l : List Occ) : (s.later l).cur = s.cur := rfl
@[simp] theorem State.later_inputs (s : State) (l : List Occ) : (s.later l).inputs = s.inputs := rfl
@[simp] theorem State.later_fresh (s : State) (l : List Occ) : (s.later l).fresh = s.fresh := rfl
@[simp] theorem State.later_nextReq (s : State) (l : List Occ) : (s.later l).nextReq = s.nextReq := rfl
@[simp] theorem State.later_tagOf (s : State) (l : List Occ) : (s.later l).tagOf = s.tagOf := rfl
@[simp] theorem State.later_frameReports (s : State) (l : List Occ) : (s.later l).frameReports = s.frameReports := rfl
@[simp] theorem State.later_hostFaults (s : State) (l : List Occ) : (s.later l).hostFaults = s.hostFaults := rfl

@[simp] theorem State.dropReqs_cycle (s : State) (h k : Nat) : (s.dropReqs h k).cycle = s.cycle := rfl
@[simp] theorem State.dropReqs_meridian (s : State) (h k : Nat) : (s.dropReqs h k).meridian = s.meridian := rfl
@[simp] theorem State.dropReqs_merPhase (s : State) (h k : Nat) : (s.dropReqs h k).merPhase = s.merPhase := rfl
@[simp] theorem State.dropReqs_merHold (s : State) (h k : Nat) : (s.dropReqs h k).merHold = s.merHold := rfl
@[simp] theorem State.dropReqs_aligned (s : State) (h k : Nat) : (s.dropReqs h k).aligned = s.aligned := rfl
@[simp] theorem State.dropReqs_root (s : State) (h k : Nat) : (s.dropReqs h k).root = s.root := rfl
@[simp] theorem State.dropReqs_lastAlign (s : State) (h k : Nat) : (s.dropReqs h k).lastAlign = s.lastAlign := rfl
@[simp] theorem State.dropReqs_hbm (s : State) (h k : Nat) : (s.dropReqs h k).hbm = s.hbm := rfl
@[simp] theorem State.dropReqs_pkg (s : State) (h k : Nat) : (s.dropReqs h k).pkg = s.pkg := rfl
@[simp] theorem State.dropReqs_gliem (s : State) (h k : Nat) : (s.dropReqs h k).gliem = s.gliem := rfl
@[simp] theorem State.dropReqs_chart (s : State) (h k : Nat) : (s.dropReqs h k).chart = s.chart := rfl
@[simp] theorem State.dropReqs_exports (s : State) (h k : Nat) : (s.dropReqs h k).exports = s.exports := rfl
@[simp] theorem State.dropReqs_traffic (s : State) (h k : Nat) : (s.dropReqs h k).traffic = s.traffic := rfl
@[simp] theorem State.dropReqs_clocks (s : State) (h k : Nat) : (s.dropReqs h k).clocks = s.clocks := rfl
@[simp] theorem State.dropReqs_applied (s : State) (h k : Nat) : (s.dropReqs h k).applied = s.applied := rfl
@[simp] theorem State.dropReqs_markers (s : State) (h k : Nat) : (s.dropReqs h k).markers = s.markers := rfl
@[simp] theorem State.dropReqs_redRegions (s : State) (h k : Nat) : (s.dropReqs h k).redRegions = s.redRegions := rfl
@[simp] theorem State.dropReqs_redMsgs (s : State) (h k : Nat) : (s.dropReqs h k).redMsgs = s.redMsgs := rfl
@[simp] theorem State.dropReqs_nextMsg (s : State) (h k : Nat) : (s.dropReqs h k).nextMsg = s.nextMsg := rfl
@[simp] theorem State.dropReqs_claims (s : State) (h k : Nat) : (s.dropReqs h k).claims = s.claims := rfl
@[simp] theorem State.dropReqs_collectives (s : State) (h k : Nat) : (s.dropReqs h k).collectives = s.collectives := rfl
@[simp] theorem State.dropReqs_errors (s : State) (h k : Nat) : (s.dropReqs h k).errors = s.errors := rfl
@[simp] theorem State.dropReqs_errOver (s : State) (h k : Nat) : (s.dropReqs h k).errOver = s.errOver := rfl
@[simp] theorem State.dropReqs_peerLines (s : State) (h k : Nat) : (s.dropReqs h k).peerLines = s.peerLines := rfl
@[simp] theorem State.dropReqs_migCounts (s : State) (h k : Nat) : (s.dropReqs h k).migCounts = s.migCounts := rfl
@[simp] theorem State.dropReqs_moved (s : State) (h k : Nat) : (s.dropReqs h k).moved = s.moved := rfl
@[simp] theorem State.dropReqs_fabric (s : State) (h k : Nat) : (s.dropReqs h k).fabric = s.fabric := rfl
@[simp] theorem State.dropReqs_errCounts (s : State) (h k : Nat) : (s.dropReqs h k).errCounts = s.errCounts := rfl
@[simp] theorem State.dropReqs_retired (s : State) (h k : Nat) : (s.dropReqs h k).retired = s.retired := rfl
@[simp] theorem State.dropReqs_interrupts (s : State) (h k : Nat) : (s.dropReqs h k).interrupts = s.interrupts := rfl
@[simp] theorem State.dropReqs_binnacle (s : State) (h k : Nat) : (s.dropReqs h k).binnacle = s.binnacle := rfl
@[simp] theorem State.dropReqs_ue (s : State) (h k : Nat) : (s.dropReqs h k).ue = s.ue := rfl
@[simp] theorem State.dropReqs_enableMap (s : State) (h k : Nat) : (s.dropReqs h k).enableMap = s.enableMap := rfl
@[simp] theorem State.dropReqs_contexts (s : State) (h k : Nat) : (s.dropReqs h k).contexts = s.contexts := rfl
@[simp] theorem State.dropReqs_parked (s : State) (h k : Nat) : (s.dropReqs h k).parked = s.parked := rfl
@[simp] theorem State.dropReqs_cores (s : State) (h k : Nat) : (s.dropReqs h k).cores = s.cores := rfl
@[simp] theorem State.dropReqs_teams (s : State) (h k : Nat) : (s.dropReqs h k).teams = s.teams := rfl
@[simp] theorem State.dropReqs_launches (s : State) (h k : Nat) : (s.dropReqs h k).launches = s.launches := rfl
@[simp] theorem State.dropReqs_nextLaunch (s : State) (h k : Nat) : (s.dropReqs h k).nextLaunch = s.nextLaunch := rfl
@[simp] theorem State.dropReqs_cur (s : State) (h k : Nat) : (s.dropReqs h k).cur = s.cur := rfl
@[simp] theorem State.dropReqs_agenda (s : State) (h k : Nat) : (s.dropReqs h k).agenda = s.agenda := rfl
@[simp] theorem State.dropReqs_inputs (s : State) (h k : Nat) : (s.dropReqs h k).inputs = s.inputs := rfl
@[simp] theorem State.dropReqs_fresh (s : State) (h k : Nat) : (s.dropReqs h k).fresh = s.fresh := rfl
@[simp] theorem State.dropReqs_nextReq (s : State) (h k : Nat) : (s.dropReqs h k).nextReq = s.nextReq := rfl
@[simp] theorem State.dropReqs_tagOf (s : State) (h k : Nat) : (s.dropReqs h k).tagOf = s.tagOf := rfl
@[simp] theorem State.dropReqs_frameReports (s : State) (h k : Nat) : (s.dropReqs h k).frameReports = s.frameReports := rfl
@[simp] theorem State.dropReqs_hostFaults (s : State) (h k : Nat) : (s.dropReqs h k).hostFaults = s.hostFaults := rfl

@[simp] theorem State.team?_setTeam_same (s : State) (h : Nat) (t : Team) : (s.setTeam h t).team? h = some t :=
  tget_tput_same _ _ _

theorem State.team?_setTeam_other (s : State) (h j : Nat) (t : Team) (hj : j ≠ h) : (s.setTeam h t).team? j = s.team? j :=
  tget_tput_other _ _ _ _ hj

@[simp] theorem State.core_setCore_same (s : State) (c : Nat) (x : Core) : (s.setCore c x).core c = x := by
  simp [State.core, State.setCore]

theorem State.core_setCore_other (s : State) (c d : Nat) (x : Core) (hd : d ≠ c) : (s.setCore c x).core d = s.core d := by
  simp [State.core, State.setCore, tget_tput_other _ _ _ _ hd]

@[simp] theorem State.ctx?_setCtx_same (s : State) (c : Nat) (x : Context) : (s.setCtx c x).ctx? c = some x :=
  tget_tput_same _ _ _

theorem State.ctx?_setCtx_other (s : State) (c d : Nat) (x : Context) (hd : d ≠ c) : (s.setCtx c x).ctx? d = s.ctx? d :=
  tget_tput_other _ _ _ _ hd

@[simp] theorem State.req?_setReq_same (s : State) (n : Nat) (q : Req) : (s.setReq n q).req? n = some q :=
  tget_tput_same _ _ _

@[simp] theorem State.req?_delReq_same (s : State) (n : Nat) : (s.delReq n).req? n = none := tget_tdel_same _ _

@[simp] theorem State.setTeam_core (s : State) (h c : Nat) (t : Team) : (s.setTeam h t).core c = s.core c := rfl
@[simp] theorem State.setTeam_ctx? (s : State) (h c : Nat) (t : Team) : (s.setTeam h t).ctx? c = s.ctx? c := rfl

/-! ## Teams -/

@[simp] theorem Team.setStrand_handle (t : Team) (k : Nat) (x : Strand) : (t.setStrand k x).handle = t.handle := rfl
@[simp] theorem Team.setStrand_place (t : Team) (k : Nat) (x : Strand) : (t.setStrand k x).place = t.place := rfl
@[simp] theorem Team.setStrand_launch (t : Team) (k : Nat) (x : Strand) : (t.setStrand k x).launch = t.launch := rfl
@[simp] theorem Team.setStrand_task (t : Team) (k : Nat) (x : Strand) : (t.setStrand k x).task = t.task := rfl
@[simp] theorem Team.setStrand_item (t : Team) (k : Nat) (x : Strand) : (t.setStrand k x).item = t.item := rfl
@[simp] theorem Team.setStrand_pri (t : Team) (k : Nat) (x : Strand) : (t.setStrand k x).pri = t.pri := rfl
@[simp] theorem Team.setStrand_regs (t : Team) (k : Nat) (x : Strand) : (t.setStrand k x).regs = t.regs := rfl
@[simp] theorem Team.setStrand_regsz (t : Team) (k : Nat) (x : Strand) : (t.setStrand k x).regsz = t.regsz := rfl
@[simp] theorem Team.setStrand_vs (t : Team) (k : Nat) (x : Strand) : (t.setStrand k x).vs = t.vs := rfl
@[simp] theorem Team.setStrand_vv (t : Team) (k : Nat) (x : Strand) : (t.setStrand k x).vv = t.vv := rfl
@[simp] theorem Team.setStrand_va (t : Team) (k : Nat) (x : Strand) : (t.setStrand k x).va = t.va := rfl
@[simp] theorem Team.setStrand_vm (t : Team) (k : Nat) (x : Strand) : (t.setStrand k x).vm = t.vm := rfl
@[simp] theorem Team.setStrand_scben (t : Team) (k : Nat) (x : Strand) : (t.setStrand k x).scben = t.scben := rfl
@[simp] theorem Team.setStrand_flags (t : Team) (k : Nat) (x : Strand) : (t.setStrand k x).flags = t.flags := rfl
@[simp] theorem Team.setStrand_flagNow (t : Team) (k : Nat) (x : Strand) : (t.setStrand k x).flagNow = t.flagNow := rfl
@[simp] theorem Team.setStrand_halted (t : Team) (k : Nat) (x : Strand) : (t.setStrand k x).halted = t.halted := rfl
@[simp] theorem Team.setStrand_dbg (t : Team) (k : Nat) (x : Strand) : (t.setStrand k x).dbg = t.dbg := rfl
@[simp] theorem Team.setStrand_saving (t : Team) (k : Nat) (x : Strand) : (t.setStrand k x).saving = t.saving := rfl
@[simp] theorem Team.setStrand_wid (t : Team) (k : Nat) (x : Strand) : (t.setStrand k x).wid = t.wid := rfl
@[simp] theorem Team.setStrand_gen (t : Team) (k : Nat) (x : Strand) : (t.setStrand k x).gen = t.gen := rfl
@[simp] theorem Team.setStrand_lfsr (t : Team) (k : Nat) (x : Strand) : (t.setStrand k x).lfsr = t.lfsr := rfl
@[simp] theorem Team.setStrand_wbg (t : Team) (k : Nat) (x : Strand) : (t.setStrand k x).wbg = t.wbg := rfl
@[simp] theorem Team.setStrand_abg (t : Team) (k : Nat) (x : Strand) : (t.setStrand k x).abg = t.abg := rfl
@[simp] theorem Team.setStrand_cbg (t : Team) (k : Nat) (x : Strand) : (t.setStrand k x).cbg = t.cbg := rfl
@[simp] theorem Team.setStrand_spg (t : Team) (k : Nat) (x : Strand) : (t.setStrand k x).spg = t.spg := rfl
@[simp] theorem Team.setStrand_ntiles (t : Team) (k : Nat) (x : Strand) : (t.setStrand k x).ntiles = t.ntiles := rfl
@[simp] theorem Team.setStrand_fds (t : Team) (k : Nat) (x : Strand) : (t.setStrand k x).fds = t.fds := rfl
@[simp] theorem Team.setStrand_binds (t : Team) (k : Nat) (x : Strand) : (t.setStrand k x).binds = t.binds := rfl
@[simp] theorem Team.setStrand_stats (t : Team) (k : Nat) (x : Strand) : (t.setStrand k x).stats = t.stats := rfl
@[simp] theorem Team.setStrand_slots (t : Team) (k : Nat) (x : Strand) : (t.setStrand k x).slots = t.slots := rfl
@[simp] theorem Team.setStrand_slotNow (t : Team) (k : Nat) (x : Strand) : (t.setStrand k x).slotNow = t.slotNow := rfl
@[simp] theorem Team.setStrand_slotNext (t : Team) (k : Nat) (x : Strand) : (t.setStrand k x).slotNext = t.slotNext := rfl
@[simp] theorem Team.setStrand_q0 (t : Team) (k : Nat) (x : Strand) : (t.setStrand k x).q0 = t.q0 := rfl
@[simp] theorem Team.setStrand_q1 (t : Team) (k : Nat) (x : Strand) : (t.setStrand k x).q1 = t.q1 := rfl
@[simp] theorem Team.setStrand_q2 (t : Team) (k : Nat) (x : Strand) : (t.setStrand k x).q2 = t.q2 := rfl
@[simp] theorem Team.setStrand_tiles (t : Team) (k : Nat) (x : Strand) : (t.setStrand k x).tiles = t.tiles := rfl
@[simp] theorem Team.setStrand_wb (t : Team) (k : Nat) (x : Strand) : (t.setStrand k x).wb = t.wb := rfl
@[simp] theorem Team.setStrand_ab (t : Team) (k : Nat) (x : Strand) : (t.setStrand k x).ab = t.ab := rfl
@[simp] theorem Team.setStrand_cb (t : Team) (k : Nat) (x : Strand) : (t.setStrand k x).cb = t.cb := rfl
@[simp] theorem Team.setStrand_sp (t : Team) (k : Nat) (x : Strand) : (t.setStrand k x).sp = t.sp := rfl
@[simp] theorem Team.setStrand_fe (t : Team) (k : Nat) (x : Strand) : (t.setStrand k x).fe = t.fe := rfl
@[simp] theorem Team.setStrand_feBusy (t : Team) (k : Nat) (x : Strand) : (t.setStrand k x).feBusy = t.feBusy := rfl
@[simp] theorem Team.setStrand_maps (t : Team) (k : Nat) (x : Strand) : (t.setStrand k x).maps = t.maps := rfl
@[simp] theorem Team.setStrand_present (t : Team) (k : Nat) (x : Strand) : (t.setStrand k x).present = t.present := rfl
@[simp] theorem Team.setStrand_dirty (t : Team) (k : Nat) (x : Strand) : (t.setStrand k x).dirty = t.dirty := rfl
@[simp] theorem Team.setStrand_fills (t : Team) (k : Nat) (x : Strand) : (t.setStrand k x).fills = t.fills := rfl
@[simp] theorem Team.setStrand_bars (t : Team) (k : Nat) (x : Strand) : (t.setStrand k x).bars = t.bars := rfl
@[simp] theorem Team.setStrand_barScope (t : Team) (k : Nat) (x : Strand) : (t.setStrand k x).barScope = t.barScope := rfl
@[simp] theorem Team.setStrand_ctrs (t : Team) (k : Nat) (x : Strand) : (t.setStrand k x).ctrs = t.ctrs := rfl
@[simp] theorem Team.setStrand_events (t : Team) (k : Nat) (x : Strand) : (t.setStrand k x).events = t.events := rfl
@[simp] theorem Team.setStrand_trapEnt (t : Team) (k : Nat) (x : Strand) : (t.setStrand k x).trapEnt = t.trapEnt := rfl
@[simp] theorem Team.setStrand_gb (t : Team) (k : Nat) (x : Strand) : (t.setStrand k x).gb = t.gb := rfl
@[simp] theorem Team.setStrand_lqs (t : Team) (k : Nat) (x : Strand) : (t.setStrand k x).lqs = t.lqs := rfl
@[simp] theorem Team.setStrand_sqs (t : Team) (k : Nat) (x : Strand) : (t.setStrand k x).sqs = t.sqs := rfl
@[simp] theorem Team.setStrand_pushes (t : Team) (k : Nat) (x : Strand) : (t.setStrand k x).pushes = t.pushes := rfl
@[simp] theorem Team.setStrand_accStopped (t : Team) (k : Nat) (x : Strand) : (t.setStrand k x).accStopped = t.accStopped := rfl
@[simp] theorem Team.setStrand_accSerial (t : Team) (k : Nat) (x : Strand) : (t.setStrand k x).accSerial = t.accSerial := rfl
@[simp] theorem Team.setStrand_accVa (t : Team) (k : Nat) (x : Strand) : (t.setStrand k x).accVa = t.accVa := rfl
@[simp] theorem Team.setStrand_accRefused (t : Team) (k : Nat) (x : Strand) : (t.setStrand k x).accRefused = t.accRefused := rfl
@[simp] theorem Team.setStrand_grans (t : Team) (k : Nat) (x : Strand) : (t.setStrand k x).grans = t.grans := rfl
@[simp] theorem Team.setStrand_failed (t : Team) (k : Nat) (x : Strand) : (t.setStrand k x).failed = t.failed := rfl
@[simp] theorem Team.setStrand_requeued (t : Team) (k : Nat) (x : Strand) : (t.setStrand k x).requeued = t.requeued := rfl
@[simp] theorem Team.setStrand_wbFailed (t : Team) (k : Nat) (x : Strand) : (t.setStrand k x).wbFailed = t.wbFailed := rfl
@[simp] theorem Team.setStrand_wbLeft (t : Team) (k : Nat) (x : Strand) : (t.setStrand k x).wbLeft = t.wbLeft := rfl
@[simp] theorem Team.setStrand_wbSerial (t : Team) (k : Nat) (x : Strand) : (t.setStrand k x).wbSerial = t.wbSerial := rfl
@[simp] theorem Team.setStrand_wbPosted (t : Team) (k : Nat) (x : Strand) : (t.setStrand k x).wbPosted = t.wbPosted := rfl
@[simp] theorem Team.setStrand_banks (t : Team) (k : Nat) (x : Strand) : (t.setStrand k x).banks = t.banks := rfl
@[simp] theorem Team.setStrand_joined (t : Team) (k : Nat) (x : Strand) : (t.setStrand k x).joined = t.joined := rfl
@[simp] theorem Team.setStrand_flushed (t : Team) (k : Nat) (x : Strand) : (t.setStrand k x).flushed = t.flushed := rfl
@[simp] theorem Team.setStrand_ending (t : Team) (k : Nat) (x : Strand) : (t.setStrand k x).ending = t.ending := rfl
@[simp] theorem Team.setStrand_tileBase (t : Team) (k : Nat) (x : Strand) : (t.setStrand k x).tileBase = t.tileBase := rfl
@[simp] theorem Team.setStrand_toLog (t : Team) (k : Nat) (x : Strand) : (t.setStrand k x).toLog = t.toLog := rfl
@[simp] theorem Team.setStrand_arriving (t : Team) (k : Nat) (x : Strand) : (t.setStrand k x).arriving = t.arriving := rfl
@[simp] theorem Team.setStrand_spBusy (t : Team) (k : Nat) (x : Strand) : (t.setStrand k x).spBusy = t.spBusy := rfl

@[simp] theorem Team.raise_handle (t : Team) (f : BitVec 64) : (t.raise f).handle = t.handle := rfl
@[simp] theorem Team.raise_place (t : Team) (f : BitVec 64) : (t.raise f).place = t.place := rfl
@[simp] theorem Team.raise_launch (t : Team) (f : BitVec 64) : (t.raise f).launch = t.launch := rfl
@[simp] theorem Team.raise_task (t : Team) (f : BitVec 64) : (t.raise f).task = t.task := rfl
@[simp] theorem Team.raise_item (t : Team) (f : BitVec 64) : (t.raise f).item = t.item := rfl
@[simp] theorem Team.raise_pri (t : Team) (f : BitVec 64) : (t.raise f).pri = t.pri := rfl
@[simp] theorem Team.raise_regs (t : Team) (f : BitVec 64) : (t.raise f).regs = t.regs := rfl
@[simp] theorem Team.raise_regsz (t : Team) (f : BitVec 64) : (t.raise f).regsz = t.regsz := rfl
@[simp] theorem Team.raise_vs (t : Team) (f : BitVec 64) : (t.raise f).vs = t.vs := rfl
@[simp] theorem Team.raise_vv (t : Team) (f : BitVec 64) : (t.raise f).vv = t.vv := rfl
@[simp] theorem Team.raise_va (t : Team) (f : BitVec 64) : (t.raise f).va = t.va := rfl
@[simp] theorem Team.raise_vm (t : Team) (f : BitVec 64) : (t.raise f).vm = t.vm := rfl
@[simp] theorem Team.raise_scben (t : Team) (f : BitVec 64) : (t.raise f).scben = t.scben := rfl
@[simp] theorem Team.raise_halted (t : Team) (f : BitVec 64) : (t.raise f).halted = t.halted := rfl
@[simp] theorem Team.raise_dbg (t : Team) (f : BitVec 64) : (t.raise f).dbg = t.dbg := rfl
@[simp] theorem Team.raise_saving (t : Team) (f : BitVec 64) : (t.raise f).saving = t.saving := rfl
@[simp] theorem Team.raise_wid (t : Team) (f : BitVec 64) : (t.raise f).wid = t.wid := rfl
@[simp] theorem Team.raise_gen (t : Team) (f : BitVec 64) : (t.raise f).gen = t.gen := rfl
@[simp] theorem Team.raise_lfsr (t : Team) (f : BitVec 64) : (t.raise f).lfsr = t.lfsr := rfl
@[simp] theorem Team.raise_wbg (t : Team) (f : BitVec 64) : (t.raise f).wbg = t.wbg := rfl
@[simp] theorem Team.raise_abg (t : Team) (f : BitVec 64) : (t.raise f).abg = t.abg := rfl
@[simp] theorem Team.raise_cbg (t : Team) (f : BitVec 64) : (t.raise f).cbg = t.cbg := rfl
@[simp] theorem Team.raise_spg (t : Team) (f : BitVec 64) : (t.raise f).spg = t.spg := rfl
@[simp] theorem Team.raise_ntiles (t : Team) (f : BitVec 64) : (t.raise f).ntiles = t.ntiles := rfl
@[simp] theorem Team.raise_fds (t : Team) (f : BitVec 64) : (t.raise f).fds = t.fds := rfl
@[simp] theorem Team.raise_binds (t : Team) (f : BitVec 64) : (t.raise f).binds = t.binds := rfl
@[simp] theorem Team.raise_stats (t : Team) (f : BitVec 64) : (t.raise f).stats = t.stats := rfl
@[simp] theorem Team.raise_slots (t : Team) (f : BitVec 64) : (t.raise f).slots = t.slots := rfl
@[simp] theorem Team.raise_slotNow (t : Team) (f : BitVec 64) : (t.raise f).slotNow = t.slotNow := rfl
@[simp] theorem Team.raise_slotNext (t : Team) (f : BitVec 64) : (t.raise f).slotNext = t.slotNext := rfl
@[simp] theorem Team.raise_q0 (t : Team) (f : BitVec 64) : (t.raise f).q0 = t.q0 := rfl
@[simp] theorem Team.raise_q1 (t : Team) (f : BitVec 64) : (t.raise f).q1 = t.q1 := rfl
@[simp] theorem Team.raise_q2 (t : Team) (f : BitVec 64) : (t.raise f).q2 = t.q2 := rfl
@[simp] theorem Team.raise_tiles (t : Team) (f : BitVec 64) : (t.raise f).tiles = t.tiles := rfl
@[simp] theorem Team.raise_wb (t : Team) (f : BitVec 64) : (t.raise f).wb = t.wb := rfl
@[simp] theorem Team.raise_ab (t : Team) (f : BitVec 64) : (t.raise f).ab = t.ab := rfl
@[simp] theorem Team.raise_cb (t : Team) (f : BitVec 64) : (t.raise f).cb = t.cb := rfl
@[simp] theorem Team.raise_sp (t : Team) (f : BitVec 64) : (t.raise f).sp = t.sp := rfl
@[simp] theorem Team.raise_fe (t : Team) (f : BitVec 64) : (t.raise f).fe = t.fe := rfl
@[simp] theorem Team.raise_feBusy (t : Team) (f : BitVec 64) : (t.raise f).feBusy = t.feBusy := rfl
@[simp] theorem Team.raise_maps (t : Team) (f : BitVec 64) : (t.raise f).maps = t.maps := rfl
@[simp] theorem Team.raise_present (t : Team) (f : BitVec 64) : (t.raise f).present = t.present := rfl
@[simp] theorem Team.raise_dirty (t : Team) (f : BitVec 64) : (t.raise f).dirty = t.dirty := rfl
@[simp] theorem Team.raise_fills (t : Team) (f : BitVec 64) : (t.raise f).fills = t.fills := rfl
@[simp] theorem Team.raise_bars (t : Team) (f : BitVec 64) : (t.raise f).bars = t.bars := rfl
@[simp] theorem Team.raise_barScope (t : Team) (f : BitVec 64) : (t.raise f).barScope = t.barScope := rfl
@[simp] theorem Team.raise_ctrs (t : Team) (f : BitVec 64) : (t.raise f).ctrs = t.ctrs := rfl
@[simp] theorem Team.raise_events (t : Team) (f : BitVec 64) : (t.raise f).events = t.events := rfl
@[simp] theorem Team.raise_trapEnt (t : Team) (f : BitVec 64) : (t.raise f).trapEnt = t.trapEnt := rfl
@[simp] theorem Team.raise_gb (t : Team) (f : BitVec 64) : (t.raise f).gb = t.gb := rfl
@[simp] theorem Team.raise_strands (t : Team) (f : BitVec 64) : (t.raise f).strands = t.strands := rfl
@[simp] theorem Team.raise_lqs (t : Team) (f : BitVec 64) : (t.raise f).lqs = t.lqs := rfl
@[simp] theorem Team.raise_sqs (t : Team) (f : BitVec 64) : (t.raise f).sqs = t.sqs := rfl
@[simp] theorem Team.raise_pushes (t : Team) (f : BitVec 64) : (t.raise f).pushes = t.pushes := rfl
@[simp] theorem Team.raise_accStopped (t : Team) (f : BitVec 64) : (t.raise f).accStopped = t.accStopped := rfl
@[simp] theorem Team.raise_accSerial (t : Team) (f : BitVec 64) : (t.raise f).accSerial = t.accSerial := rfl
@[simp] theorem Team.raise_accVa (t : Team) (f : BitVec 64) : (t.raise f).accVa = t.accVa := rfl
@[simp] theorem Team.raise_accRefused (t : Team) (f : BitVec 64) : (t.raise f).accRefused = t.accRefused := rfl
@[simp] theorem Team.raise_grans (t : Team) (f : BitVec 64) : (t.raise f).grans = t.grans := rfl
@[simp] theorem Team.raise_failed (t : Team) (f : BitVec 64) : (t.raise f).failed = t.failed := rfl
@[simp] theorem Team.raise_requeued (t : Team) (f : BitVec 64) : (t.raise f).requeued = t.requeued := rfl
@[simp] theorem Team.raise_wbFailed (t : Team) (f : BitVec 64) : (t.raise f).wbFailed = t.wbFailed := rfl
@[simp] theorem Team.raise_wbLeft (t : Team) (f : BitVec 64) : (t.raise f).wbLeft = t.wbLeft := rfl
@[simp] theorem Team.raise_wbSerial (t : Team) (f : BitVec 64) : (t.raise f).wbSerial = t.wbSerial := rfl
@[simp] theorem Team.raise_wbPosted (t : Team) (f : BitVec 64) : (t.raise f).wbPosted = t.wbPosted := rfl
@[simp] theorem Team.raise_banks (t : Team) (f : BitVec 64) : (t.raise f).banks = t.banks := rfl
@[simp] theorem Team.raise_joined (t : Team) (f : BitVec 64) : (t.raise f).joined = t.joined := rfl
@[simp] theorem Team.raise_flushed (t : Team) (f : BitVec 64) : (t.raise f).flushed = t.flushed := rfl
@[simp] theorem Team.raise_ending (t : Team) (f : BitVec 64) : (t.raise f).ending = t.ending := rfl
@[simp] theorem Team.raise_tileBase (t : Team) (f : BitVec 64) : (t.raise f).tileBase = t.tileBase := rfl
@[simp] theorem Team.raise_toLog (t : Team) (f : BitVec 64) : (t.raise f).toLog = t.toLog := rfl
@[simp] theorem Team.raise_arriving (t : Team) (f : BitVec 64) : (t.raise f).arriving = t.arriving := rfl
@[simp] theorem Team.raise_spBusy (t : Team) (f : BitVec 64) : (t.raise f).spBusy = t.spBusy := rfl

@[simp] theorem Team.slotChange_handle (t : Team) (c : SlotChange) : (t.slotChange c).handle = t.handle := rfl
@[simp] theorem Team.slotChange_place (t : Team) (c : SlotChange) : (t.slotChange c).place = t.place := rfl
@[simp] theorem Team.slotChange_launch (t : Team) (c : SlotChange) : (t.slotChange c).launch = t.launch := rfl
@[simp] theorem Team.slotChange_task (t : Team) (c : SlotChange) : (t.slotChange c).task = t.task := rfl
@[simp] theorem Team.slotChange_item (t : Team) (c : SlotChange) : (t.slotChange c).item = t.item := rfl
@[simp] theorem Team.slotChange_pri (t : Team) (c : SlotChange) : (t.slotChange c).pri = t.pri := rfl
@[simp] theorem Team.slotChange_regs (t : Team) (c : SlotChange) : (t.slotChange c).regs = t.regs := rfl
@[simp] theorem Team.slotChange_regsz (t : Team) (c : SlotChange) : (t.slotChange c).regsz = t.regsz := rfl
@[simp] theorem Team.slotChange_vs (t : Team) (c : SlotChange) : (t.slotChange c).vs = t.vs := rfl
@[simp] theorem Team.slotChange_vv (t : Team) (c : SlotChange) : (t.slotChange c).vv = t.vv := rfl
@[simp] theorem Team.slotChange_va (t : Team) (c : SlotChange) : (t.slotChange c).va = t.va := rfl
@[simp] theorem Team.slotChange_vm (t : Team) (c : SlotChange) : (t.slotChange c).vm = t.vm := rfl
@[simp] theorem Team.slotChange_scben (t : Team) (c : SlotChange) : (t.slotChange c).scben = t.scben := rfl
@[simp] theorem Team.slotChange_flags (t : Team) (c : SlotChange) : (t.slotChange c).flags = t.flags := rfl
@[simp] theorem Team.slotChange_flagNow (t : Team) (c : SlotChange) : (t.slotChange c).flagNow = t.flagNow := rfl
@[simp] theorem Team.slotChange_halted (t : Team) (c : SlotChange) : (t.slotChange c).halted = t.halted := rfl
@[simp] theorem Team.slotChange_dbg (t : Team) (c : SlotChange) : (t.slotChange c).dbg = t.dbg := rfl
@[simp] theorem Team.slotChange_saving (t : Team) (c : SlotChange) : (t.slotChange c).saving = t.saving := rfl
@[simp] theorem Team.slotChange_wid (t : Team) (c : SlotChange) : (t.slotChange c).wid = t.wid := rfl
@[simp] theorem Team.slotChange_gen (t : Team) (c : SlotChange) : (t.slotChange c).gen = t.gen := rfl
@[simp] theorem Team.slotChange_lfsr (t : Team) (c : SlotChange) : (t.slotChange c).lfsr = t.lfsr := rfl
@[simp] theorem Team.slotChange_wbg (t : Team) (c : SlotChange) : (t.slotChange c).wbg = t.wbg := rfl
@[simp] theorem Team.slotChange_abg (t : Team) (c : SlotChange) : (t.slotChange c).abg = t.abg := rfl
@[simp] theorem Team.slotChange_cbg (t : Team) (c : SlotChange) : (t.slotChange c).cbg = t.cbg := rfl
@[simp] theorem Team.slotChange_spg (t : Team) (c : SlotChange) : (t.slotChange c).spg = t.spg := rfl
@[simp] theorem Team.slotChange_ntiles (t : Team) (c : SlotChange) : (t.slotChange c).ntiles = t.ntiles := rfl
@[simp] theorem Team.slotChange_fds (t : Team) (c : SlotChange) : (t.slotChange c).fds = t.fds := rfl
@[simp] theorem Team.slotChange_binds (t : Team) (c : SlotChange) : (t.slotChange c).binds = t.binds := rfl
@[simp] theorem Team.slotChange_stats (t : Team) (c : SlotChange) : (t.slotChange c).stats = t.stats := rfl
@[simp] theorem Team.slotChange_slots (t : Team) (c : SlotChange) : (t.slotChange c).slots = t.slots := rfl
@[simp] theorem Team.slotChange_slotNext (t : Team) (c : SlotChange) : (t.slotChange c).slotNext = t.slotNext := rfl
@[simp] theorem Team.slotChange_q0 (t : Team) (c : SlotChange) : (t.slotChange c).q0 = t.q0 := rfl
@[simp] theorem Team.slotChange_q1 (t : Team) (c : SlotChange) : (t.slotChange c).q1 = t.q1 := rfl
@[simp] theorem Team.slotChange_q2 (t : Team) (c : SlotChange) : (t.slotChange c).q2 = t.q2 := rfl
@[simp] theorem Team.slotChange_tiles (t : Team) (c : SlotChange) : (t.slotChange c).tiles = t.tiles := rfl
@[simp] theorem Team.slotChange_wb (t : Team) (c : SlotChange) : (t.slotChange c).wb = t.wb := rfl
@[simp] theorem Team.slotChange_ab (t : Team) (c : SlotChange) : (t.slotChange c).ab = t.ab := rfl
@[simp] theorem Team.slotChange_cb (t : Team) (c : SlotChange) : (t.slotChange c).cb = t.cb := rfl
@[simp] theorem Team.slotChange_sp (t : Team) (c : SlotChange) : (t.slotChange c).sp = t.sp := rfl
@[simp] theorem Team.slotChange_fe (t : Team) (c : SlotChange) : (t.slotChange c).fe = t.fe := rfl
@[simp] theorem Team.slotChange_feBusy (t : Team) (c : SlotChange) : (t.slotChange c).feBusy = t.feBusy := rfl
@[simp] theorem Team.slotChange_maps (t : Team) (c : SlotChange) : (t.slotChange c).maps = t.maps := rfl
@[simp] theorem Team.slotChange_present (t : Team) (c : SlotChange) : (t.slotChange c).present = t.present := rfl
@[simp] theorem Team.slotChange_dirty (t : Team) (c : SlotChange) : (t.slotChange c).dirty = t.dirty := rfl
@[simp] theorem Team.slotChange_fills (t : Team) (c : SlotChange) : (t.slotChange c).fills = t.fills := rfl
@[simp] theorem Team.slotChange_bars (t : Team) (c : SlotChange) : (t.slotChange c).bars = t.bars := rfl
@[simp] theorem Team.slotChange_barScope (t : Team) (c : SlotChange) : (t.slotChange c).barScope = t.barScope := rfl
@[simp] theorem Team.slotChange_ctrs (t : Team) (c : SlotChange) : (t.slotChange c).ctrs = t.ctrs := rfl
@[simp] theorem Team.slotChange_events (t : Team) (c : SlotChange) : (t.slotChange c).events = t.events := rfl
@[simp] theorem Team.slotChange_trapEnt (t : Team) (c : SlotChange) : (t.slotChange c).trapEnt = t.trapEnt := rfl
@[simp] theorem Team.slotChange_gb (t : Team) (c : SlotChange) : (t.slotChange c).gb = t.gb := rfl
@[simp] theorem Team.slotChange_strands (t : Team) (c : SlotChange) : (t.slotChange c).strands = t.strands := rfl
@[simp] theorem Team.slotChange_lqs (t : Team) (c : SlotChange) : (t.slotChange c).lqs = t.lqs := rfl
@[simp] theorem Team.slotChange_sqs (t : Team) (c : SlotChange) : (t.slotChange c).sqs = t.sqs := rfl
@[simp] theorem Team.slotChange_pushes (t : Team) (c : SlotChange) : (t.slotChange c).pushes = t.pushes := rfl
@[simp] theorem Team.slotChange_accStopped (t : Team) (c : SlotChange) : (t.slotChange c).accStopped = t.accStopped := rfl
@[simp] theorem Team.slotChange_accSerial (t : Team) (c : SlotChange) : (t.slotChange c).accSerial = t.accSerial := rfl
@[simp] theorem Team.slotChange_accVa (t : Team) (c : SlotChange) : (t.slotChange c).accVa = t.accVa := rfl
@[simp] theorem Team.slotChange_accRefused (t : Team) (c : SlotChange) : (t.slotChange c).accRefused = t.accRefused := rfl
@[simp] theorem Team.slotChange_grans (t : Team) (c : SlotChange) : (t.slotChange c).grans = t.grans := rfl
@[simp] theorem Team.slotChange_failed (t : Team) (c : SlotChange) : (t.slotChange c).failed = t.failed := rfl
@[simp] theorem Team.slotChange_requeued (t : Team) (c : SlotChange) : (t.slotChange c).requeued = t.requeued := rfl
@[simp] theorem Team.slotChange_wbFailed (t : Team) (c : SlotChange) : (t.slotChange c).wbFailed = t.wbFailed := rfl
@[simp] theorem Team.slotChange_wbLeft (t : Team) (c : SlotChange) : (t.slotChange c).wbLeft = t.wbLeft := rfl
@[simp] theorem Team.slotChange_wbSerial (t : Team) (c : SlotChange) : (t.slotChange c).wbSerial = t.wbSerial := rfl
@[simp] theorem Team.slotChange_wbPosted (t : Team) (c : SlotChange) : (t.slotChange c).wbPosted = t.wbPosted := rfl
@[simp] theorem Team.slotChange_banks (t : Team) (c : SlotChange) : (t.slotChange c).banks = t.banks := rfl
@[simp] theorem Team.slotChange_joined (t : Team) (c : SlotChange) : (t.slotChange c).joined = t.joined := rfl
@[simp] theorem Team.slotChange_flushed (t : Team) (c : SlotChange) : (t.slotChange c).flushed = t.flushed := rfl
@[simp] theorem Team.slotChange_ending (t : Team) (c : SlotChange) : (t.slotChange c).ending = t.ending := rfl
@[simp] theorem Team.slotChange_tileBase (t : Team) (c : SlotChange) : (t.slotChange c).tileBase = t.tileBase := rfl
@[simp] theorem Team.slotChange_toLog (t : Team) (c : SlotChange) : (t.slotChange c).toLog = t.toLog := rfl
@[simp] theorem Team.slotChange_arriving (t : Team) (c : SlotChange) : (t.slotChange c).arriving = t.arriving := rfl
@[simp] theorem Team.slotChange_spBusy (t : Team) (c : SlotChange) : (t.slotChange c).spBusy = t.spBusy := rfl

@[simp] theorem Team.count_handle (t : Team) (n k : Nat) : (t.count n k).handle = t.handle := rfl
@[simp] theorem Team.count_place (t : Team) (n k : Nat) : (t.count n k).place = t.place := rfl
@[simp] theorem Team.count_launch (t : Team) (n k : Nat) : (t.count n k).launch = t.launch := rfl
@[simp] theorem Team.count_task (t : Team) (n k : Nat) : (t.count n k).task = t.task := rfl
@[simp] theorem Team.count_item (t : Team) (n k : Nat) : (t.count n k).item = t.item := rfl
@[simp] theorem Team.count_pri (t : Team) (n k : Nat) : (t.count n k).pri = t.pri := rfl
@[simp] theorem Team.count_regs (t : Team) (n k : Nat) : (t.count n k).regs = t.regs := rfl
@[simp] theorem Team.count_regsz (t : Team) (n k : Nat) : (t.count n k).regsz = t.regsz := rfl
@[simp] theorem Team.count_vs (t : Team) (n k : Nat) : (t.count n k).vs = t.vs := rfl
@[simp] theorem Team.count_vv (t : Team) (n k : Nat) : (t.count n k).vv = t.vv := rfl
@[simp] theorem Team.count_va (t : Team) (n k : Nat) : (t.count n k).va = t.va := rfl
@[simp] theorem Team.count_vm (t : Team) (n k : Nat) : (t.count n k).vm = t.vm := rfl
@[simp] theorem Team.count_scben (t : Team) (n k : Nat) : (t.count n k).scben = t.scben := rfl
@[simp] theorem Team.count_flags (t : Team) (n k : Nat) : (t.count n k).flags = t.flags := rfl
@[simp] theorem Team.count_flagNow (t : Team) (n k : Nat) : (t.count n k).flagNow = t.flagNow := rfl
@[simp] theorem Team.count_halted (t : Team) (n k : Nat) : (t.count n k).halted = t.halted := rfl
@[simp] theorem Team.count_dbg (t : Team) (n k : Nat) : (t.count n k).dbg = t.dbg := rfl
@[simp] theorem Team.count_saving (t : Team) (n k : Nat) : (t.count n k).saving = t.saving := rfl
@[simp] theorem Team.count_wid (t : Team) (n k : Nat) : (t.count n k).wid = t.wid := rfl
@[simp] theorem Team.count_gen (t : Team) (n k : Nat) : (t.count n k).gen = t.gen := rfl
@[simp] theorem Team.count_lfsr (t : Team) (n k : Nat) : (t.count n k).lfsr = t.lfsr := rfl
@[simp] theorem Team.count_wbg (t : Team) (n k : Nat) : (t.count n k).wbg = t.wbg := rfl
@[simp] theorem Team.count_abg (t : Team) (n k : Nat) : (t.count n k).abg = t.abg := rfl
@[simp] theorem Team.count_cbg (t : Team) (n k : Nat) : (t.count n k).cbg = t.cbg := rfl
@[simp] theorem Team.count_spg (t : Team) (n k : Nat) : (t.count n k).spg = t.spg := rfl
@[simp] theorem Team.count_ntiles (t : Team) (n k : Nat) : (t.count n k).ntiles = t.ntiles := rfl
@[simp] theorem Team.count_fds (t : Team) (n k : Nat) : (t.count n k).fds = t.fds := rfl
@[simp] theorem Team.count_binds (t : Team) (n k : Nat) : (t.count n k).binds = t.binds := rfl
@[simp] theorem Team.count_stats (t : Team) (n k : Nat) : (t.count n k).stats = t.stats := rfl
@[simp] theorem Team.count_slots (t : Team) (n k : Nat) : (t.count n k).slots = t.slots := rfl
@[simp] theorem Team.count_slotNow (t : Team) (n k : Nat) : (t.count n k).slotNow = t.slotNow := rfl
@[simp] theorem Team.count_slotNext (t : Team) (n k : Nat) : (t.count n k).slotNext = t.slotNext := rfl
@[simp] theorem Team.count_q0 (t : Team) (n k : Nat) : (t.count n k).q0 = t.q0 := rfl
@[simp] theorem Team.count_q1 (t : Team) (n k : Nat) : (t.count n k).q1 = t.q1 := rfl
@[simp] theorem Team.count_q2 (t : Team) (n k : Nat) : (t.count n k).q2 = t.q2 := rfl
@[simp] theorem Team.count_tiles (t : Team) (n k : Nat) : (t.count n k).tiles = t.tiles := rfl
@[simp] theorem Team.count_wb (t : Team) (n k : Nat) : (t.count n k).wb = t.wb := rfl
@[simp] theorem Team.count_ab (t : Team) (n k : Nat) : (t.count n k).ab = t.ab := rfl
@[simp] theorem Team.count_cb (t : Team) (n k : Nat) : (t.count n k).cb = t.cb := rfl
@[simp] theorem Team.count_sp (t : Team) (n k : Nat) : (t.count n k).sp = t.sp := rfl
@[simp] theorem Team.count_fe (t : Team) (n k : Nat) : (t.count n k).fe = t.fe := rfl
@[simp] theorem Team.count_feBusy (t : Team) (n k : Nat) : (t.count n k).feBusy = t.feBusy := rfl
@[simp] theorem Team.count_maps (t : Team) (n k : Nat) : (t.count n k).maps = t.maps := rfl
@[simp] theorem Team.count_present (t : Team) (n k : Nat) : (t.count n k).present = t.present := rfl
@[simp] theorem Team.count_dirty (t : Team) (n k : Nat) : (t.count n k).dirty = t.dirty := rfl
@[simp] theorem Team.count_fills (t : Team) (n k : Nat) : (t.count n k).fills = t.fills := rfl
@[simp] theorem Team.count_bars (t : Team) (n k : Nat) : (t.count n k).bars = t.bars := rfl
@[simp] theorem Team.count_barScope (t : Team) (n k : Nat) : (t.count n k).barScope = t.barScope := rfl
@[simp] theorem Team.count_events (t : Team) (n k : Nat) : (t.count n k).events = t.events := rfl
@[simp] theorem Team.count_trapEnt (t : Team) (n k : Nat) : (t.count n k).trapEnt = t.trapEnt := rfl
@[simp] theorem Team.count_gb (t : Team) (n k : Nat) : (t.count n k).gb = t.gb := rfl
@[simp] theorem Team.count_strands (t : Team) (n k : Nat) : (t.count n k).strands = t.strands := rfl
@[simp] theorem Team.count_lqs (t : Team) (n k : Nat) : (t.count n k).lqs = t.lqs := rfl
@[simp] theorem Team.count_sqs (t : Team) (n k : Nat) : (t.count n k).sqs = t.sqs := rfl
@[simp] theorem Team.count_pushes (t : Team) (n k : Nat) : (t.count n k).pushes = t.pushes := rfl
@[simp] theorem Team.count_accStopped (t : Team) (n k : Nat) : (t.count n k).accStopped = t.accStopped := rfl
@[simp] theorem Team.count_accSerial (t : Team) (n k : Nat) : (t.count n k).accSerial = t.accSerial := rfl
@[simp] theorem Team.count_accVa (t : Team) (n k : Nat) : (t.count n k).accVa = t.accVa := rfl
@[simp] theorem Team.count_accRefused (t : Team) (n k : Nat) : (t.count n k).accRefused = t.accRefused := rfl
@[simp] theorem Team.count_grans (t : Team) (n k : Nat) : (t.count n k).grans = t.grans := rfl
@[simp] theorem Team.count_failed (t : Team) (n k : Nat) : (t.count n k).failed = t.failed := rfl
@[simp] theorem Team.count_requeued (t : Team) (n k : Nat) : (t.count n k).requeued = t.requeued := rfl
@[simp] theorem Team.count_wbFailed (t : Team) (n k : Nat) : (t.count n k).wbFailed = t.wbFailed := rfl
@[simp] theorem Team.count_wbLeft (t : Team) (n k : Nat) : (t.count n k).wbLeft = t.wbLeft := rfl
@[simp] theorem Team.count_wbSerial (t : Team) (n k : Nat) : (t.count n k).wbSerial = t.wbSerial := rfl
@[simp] theorem Team.count_wbPosted (t : Team) (n k : Nat) : (t.count n k).wbPosted = t.wbPosted := rfl
@[simp] theorem Team.count_banks (t : Team) (n k : Nat) : (t.count n k).banks = t.banks := rfl
@[simp] theorem Team.count_joined (t : Team) (n k : Nat) : (t.count n k).joined = t.joined := rfl
@[simp] theorem Team.count_flushed (t : Team) (n k : Nat) : (t.count n k).flushed = t.flushed := rfl
@[simp] theorem Team.count_ending (t : Team) (n k : Nat) : (t.count n k).ending = t.ending := rfl
@[simp] theorem Team.count_tileBase (t : Team) (n k : Nat) : (t.count n k).tileBase = t.tileBase := rfl
@[simp] theorem Team.count_toLog (t : Team) (n k : Nat) : (t.count n k).toLog = t.toLog := rfl
@[simp] theorem Team.count_arriving (t : Team) (n k : Nat) : (t.count n k).arriving = t.arriving := rfl
@[simp] theorem Team.count_spBusy (t : Team) (n k : Nat) : (t.count n k).spBusy = t.spBusy := rfl

@[simp] theorem Team.strand_setStrand_same (t : Team) (k : Nat) (x : Strand) (h : k ≤ 4) : (t.setStrand k x).strand k = x := by
  have : k = 0 ∨ k = 1 ∨ k = 2 ∨ k = 3 ∨ k = 4 := by omega
  rcases this with rfl | rfl | rfl | rfl | rfl <;> rfl

theorem Team.strand_setStrand_other (t : Team) (k j : Nat) (x : Strand) (hk : k ≤ 4) (hj : j ≤ 4) (h : j ≠ k) :
    (t.setStrand k x).strand j = t.strand j := by
  have h1 : k = 0 ∨ k = 1 ∨ k = 2 ∨ k = 3 ∨ k = 4 := by omega
  have h2 : j = 0 ∨ j = 1 ∨ j = 2 ∨ j = 3 ∨ j = 4 := by omega
  rcases h1 with rfl | rfl | rfl | rfl | rfl <;> rcases h2 with rfl | rfl | rfl | rfl | rfl <;>
    first | rfl | (exact absurd rfl h)

@[simp] theorem Team.strand_raise (t : Team) (f : BitVec 64) (k : Nat) : (t.raise f).strand k = t.strand k := rfl
@[simp] theorem Team.strand_count (t : Team) (n m k : Nat) : (t.count n m).strand k = t.strand k := rfl

end Sys2Proof.Machine
end

