-- ==== Sys2Proof/Laws/Engine.lean ====
section
/-! SUPPORT. What performing a command comes to, once and for all: a command whose effect is due runs its own part and posts
its output; what `performed` leaves. -/

namespace Sys2Proof.Machine

open Sys2Proof

/-- The engine of a command whose effect is due is the one the machine gives. -/
theorem Eng.Performs.eng {e : Eng} {c : Cmd} (h : e.Performs c) : e.s.eng? e.h e.q = some e := by
  obtain ⟨s, hh, q, t, x, p⟩ := e
  obtain ⟨h1, h2, h3, h4, h5, h6⟩ := h
  dsimp only at h1 h2 h3 h4 h5 h6
  subst h3
  simp [State.eng?, h2, h4]

/-- A command whose effect is due runs its own part, posts its output, and goes on. -/
theorem engineWord_performs {e : Eng} {c : Cmd} {body after : Eng → State} (h : e.Performs c) :
    engineWord e.s c body after =
      (match ((body e).drainOut e.h e.q).eng? e.h e.q with
        | some e' => .next (after e')
        | none => .next ((body e).drainOut e.h e.q)) := by
  unfold engineWord
  simp only [h.cur, h.team, h.eng, h.cmd, h.started, if_true]
  all_goals rfl

/-- The engine that the machine gives stands on that machine. -/
theorem State.eng?_state {s : State} {h q : Nat} {e : Eng} (he : s.eng? h q = some e) : e.s = s := by
  unfold State.eng? at he
  split at he
  · cases he
  · rename_i t ht
    cases hp : (t.queue q).prog with
    | none => simp [hp] at he
    | some p => simp [hp] at he; rw [← he]

/-- A command with nothing to do while it is in progress. -/
theorem engineWord_plain {e : Eng} {c : Cmd} {body : Eng → State} (h : e.Performs c) :
    engineWord e.s c body (fun e => e.s) = .next ((body e).drainOut e.h e.q) := by
  rw [engineWord_performs h]
  cases he : ((body e).drainOut e.h e.q).eng? e.h e.q with
  | none => rfl
  | some e' => simp only []; rw [State.eng?_state he]

/-- `performed` over a machine in which team h is `t` leaves exactly what `Effect` says. -/
theorem Eng.performed_effect {e : Eng} {s b : State} {t : Team} {f : Prog → Prog} (ht : s.team? e.h = some t)
    (ho : ∀ g, g ≠ e.h → s.team? g = b.team? g) (hr : s = { b with teams := s.teams }) :
    Effect b (e.performed s f) e.h e.q t f := by
  have e1 : e.performed s f = s.setTeam e.h (t.setQueue e.q { t.queue e.q with
      prog := (t.queue e.q).prog.map fun p => { f p with phase := .performed, fetched := [] } }) := by
    simp [Eng.performed, State.modProg, State.modTeam, ht]
  rw [e1]
  refine ⟨tget_tput_same _ _ _, fun g hg => (tget_tput_other _ _ _ _ hg).trans (ho g hg), ?_⟩
  rw [hr]; rfl

/-- With its tiles present a command goes on. -/
theorem Eng.withTiles_present {e : Eng} {ns : List Nat} {k : State} (h : e.TilesPresent ns) : e.withTiles ns k = k := by
  unfold Eng.withTiles
  have : (ns.findSome? fun n => (e.p.tiles[n]?).bind fun x => e.t.tileMissing x (vget e.p.fds x.fd 0)) = none := by
    rw [List.findSome?_eq_none_iff]
    intro n hn
    cases hx : e.p.tiles[n]? with
    | none => rfl
    | some x => exact h n hn x hx
  rw [this]

end Sys2Proof.Machine
end

