-- ==== Sys2Proof/Laws/Errors.lean ====
section
/-! SUPPORT. What counting an error event can change (R446), once for every step that counts one. -/

namespace Sys2Proof.Machine

open Sys2Proof

/-- A plane's change shows in the link bits and in the event log alone. -/
theorem State.planeChange_frame (s : State) (port plane : Nat) (up : Bool) :
    ∃ g b p i, s.planeChange port plane up = { s with gliem := g, binnacle := b, pkg := p, interrupts := i } := by
  unfold State.planeChange
  by_cases hp : plane = 0 <;> simp only [hp, if_true, if_false] <;> split <;> exact ⟨_, _, _, _, rfl⟩

/-- Retiring a resource marks it, logs it, and takes it from its core or its port. -/
theorem State.retireResource_frame (s : State) (r : Resource) :
    ∃ c g b p i fr, s.retireResource r =
      { s with retired := s.retired ++ [r], cores := c, gliem := g, binnacle := b, pkg := p, interrupts := i, frameReports := fr } := by
  cases r with
  | plane port plane =>
    obtain ⟨g, b, p, i, h⟩ := State.planeChange_frame
      ({ s with retired := s.retired ++ [Resource.plane port plane] }.logEvent 2 (resourceNumber (.plane port plane))) port plane false
    exact ⟨_, _, _, _, _, _, h⟩
  | _ => exact ⟨_, _, _, _, _, _, rfl⟩

/-- An error event of a resource in use is counted, and nothing but the counts, the retired resources with what they take
along, and the event log changes. -/
theorem State.countError_frame (s : State) (r : Resource) :
    ∃ e l c g b p i fr, s.countError r =
      { s with errCounts := e, retired := l, cores := c, gliem := g, binnacle := b, pkg := p, interrupts := i, frameReports := fr } ∧
      (s.retired.contains r = false → (r, s.eventsOf r ++ [s.cycle]) ∈ e) := by
  unfold State.countError
  split
  · next h => exact ⟨_, _, _, _, _, _, _, _, rfl, fun h' => by rw [h] at h'; cases h'⟩
  · dsimp only
    split
    · obtain ⟨c, g, b, p, i, fr, h⟩ := State.retireResource_frame
        { s with errCounts := (s.errCounts.filter fun (e : Resource × List Nat) => e.1 ≠ r) ++ [(r, s.eventsOf r ++ [s.cycle])] } r
      exact ⟨_, _, _, _, _, _, _, _, h, fun _ => by simp⟩
    · exact ⟨_, _, _, _, _, _, _, _, rfl, fun _ => by simp⟩

end Sys2Proof.Machine
end

