-- ==== Sys2Proof/Laws/Issue.lean ====
section
/-! SUPPORT. What running a word comes to, once and for all: a word that may issue runs its own part on its woken place; what
finishing, waiting, holding and trapping leave. -/

namespace Sys2Proof.Machine

open Sys2Proof

/-- Touching granules changes nothing of the team but them (R42). -/
theorem Team.wake_frame (t : Team) (c : Nat) (gs : List Nat) : ∃ g, (t.wake c gs).1 = { t with grans := g } := by
  unfold Team.wake
  dsimp only
  induction gs generalizing t with
  | nil => exact ⟨t.grans, rfl⟩
  | cons a l ih => exact ih (t.touchGranule c a)

/-- A word that may issue runs its own part on its woken place. -/
theorem issueWord_ready {x : Here} {m : Mods} {u : Uses} {uses : Here → Uses} {body : Here → State} (h : x.Ready m u)
    (hu : uses x = u) : issueWord x.s m uses body = .next (body (x.woken u)) := by
  subst hu
  obtain ⟨s, hh, k, t⟩ := x
  obtain ⟨h1, h2, h3, h4, h5, h6⟩ := h
  dsimp only at h1 h2 h3 h4 h5 h6
  unfold issueWord
  simp only [h1, h2, h4]
  by_cases hk : 4 ≤ k
  · simp [h5 hk, h6, Here.woken]
  · simp [hk, h6, Here.woken]

/-- A word that fails a check of R89 traps with it. -/
theorem issueWord_trap {x : Here} {m : Mods} {uses : Here → Uses} {body : Here → State} {ti : TrapInfo}
    (hc : x.s.cur = .strand x.h x.k) (ht : x.s.team? x.h = some x.t) (h : x.s.check89 x.t x.k m (uses x) = some ti) :
    issueWord x.s m uses body = .next (x.trap ti) := by
  obtain ⟨s, hh, k, t⟩ := x
  dsimp only at hc ht h
  unfold issueWord
  simp only [hc, ht, h]

@[simp] theorem Here.withTeam_team (x : Here) (t : Team) : (x.withTeam t).s.team? (x.withTeam t).h = some (x.withTeam t).t :=
  tget_tput_same _ _ _

/-- The woken place's own team. -/
theorem Here.woken_team (x : Here) (u : Uses) : (x.woken u).s.team? (x.woken u).h = some (x.woken u).t :=
  tget_tput_same _ _ _

/-- Finishing a word leaves exactly what `HasIssued` says. -/
theorem Here.finish_issued {y : Here} (m : Mods) (t : Team) (fl : List Flight) (npc : BitVec 64) (hk : y.k ≤ 4) :
    HasIssued { y with t := t } (y.finish m t fl npc) m npc fl := by
  obtain ⟨s, h, k, t0⟩ := y
  refine ⟨⟨_, tget_tput_same _ _ _, ⟨rfl, ?_, ?_, rfl⟩⟩, fun g hg => tget_tput_other _ _ _ _ hg, rfl, fun _ => rfl⟩
  · exact Team.strand_setStrand_same _ _ _ hk
  · intro j hj hjk
    exact Team.strand_setStrand_other _ _ _ _ hk hj hjk

theorem Here.done_issued {y : Here} (m : Mods) (fl : List Flight) (hk : y.k ≤ 4) :
    HasIssued y (y.done m y.t fl) m (nextPc y.pc) fl := Here.finish_issued m y.t fl _ hk

/-- Waiting leaves exactly what `WaitsOn` says. -/
theorem Here.wait_waits {y : Here} (m : Mods) (w : Wait) (hk : y.k ≤ 4) : WaitsOn y (y.wait m y.t w) m w := by
  obtain ⟨s, h, k, t0⟩ := y
  have e : (Here.done ⟨s, h, k, t0⟩ m t0 []).team? h = some ((t0.setStrand k ((t0.strand k).after m
      (nextPc (t0.strand k).pc) [])).count 1 1) := tget_tput_same _ _ _
  unfold Here.wait
  simp only [e]
  refine ⟨⟨_, tget_tput_same _ _ _, ⟨rfl, ?_, ?_, rfl⟩⟩, ?_, rfl, fun _ => rfl⟩
  · refine (Team.strand_setStrand_same _ _ _ hk).trans ?_
    change { ((t0.setStrand k _).strand k) with wait := w, settle := true } = _
    rw [Team.strand_setStrand_same _ _ _ hk]
    rfl
  · intro j hj hjk
    refine (Team.strand_setStrand_other _ _ _ _ hk hj hjk).trans ?_
    exact Team.strand_setStrand_other _ _ _ _ hk hj hjk
  · intro g hg
    refine (tget_tput_other _ _ _ _ hg).trans ?_
    exact tget_tput_other _ _ _ _ hg

/-- Waiting for a request's reply leaves exactly what `Awaits` says. -/
theorem Here.await_awaits {y : Here} (m : Mods) (q : Req) (hk : y.k ≤ 4) : Awaits y (y.await m q) m q := by
  have e4 : 4 ≤ y.k ↔ y.k = 4 := by omega
  have ek : (y.request q).2.k = y.k := rfl
  unfold Awaits Here.await
  simp only [ek, e4, Bool.and_eq_true, decide_eq_true_eq, Bool.not_eq_true']
  split
  · exact Here.done_issued (y := (y.request q).2) m [] hk
  · exact Here.wait_waits (y := (y.request q).2) m _ hk

/-- A local access that may be made takes its banks and goes on (R212). -/
theorem Here.localAccess_may {y : Here} {r : MemW} {off width mask : Nat} {k : Here → State}
    (hp : r.space = 1 → y.t.missing off width mask = none)
    (h : y.MayAccess r (bufOfSpace r.space.toNat) off width mask) :
    y.localAccess r off width mask k = k (y.banked r.mods (bufOfSpace r.space.toNat) off width mask) := by
  have hf : y.fillHold r off width mask = none := by
    unfold Here.fillHold
    split
    · rfl
    · rename_i h1
      rw [hp (not_not.mp h1)]
      rfl
  unfold Here.localAccess Here.atBanks
  simp only [hf, h.ready, h.banks, if_true]
  rfl

/-- Holding leaves exactly what `HeldOn` says. -/
theorem Here.hold_held {y : Here} (w : Wait) : HeldOn y (y.hold w) w :=
  ⟨⟨_, tget_tput_same _ _ _, rfl⟩, fun _ hg => tget_tput_other _ _ _ _ hg, rfl⟩

/-- A strand's first trap with an entry point leaves exactly what `TrapTaken` says. -/
theorem State.takeTrap_taken {y : Here} (h : y.TakesTraps) (ti : TrapInfo) (pc : BitVec 64) :
    TrapTaken y (y.s.takeTrap y.h y.k ti pc) ti pc := by
  obtain ⟨s, h', k, t⟩ := y
  obtain ⟨hk, ht, hi, he⟩ := h
  dsimp only at hk ht hi he
  change (t.strand k).inh = false at hi
  unfold State.takeTrap
  simp only [ht, hi, he, Bool.false_or, decide_false, Bool.false_eq_true, if_false]
  have hk4 : k ≤ 4 := by omega
  refine ⟨⟨t.setStrand k ((t.strand k).afterTrap t.trapEnt ti pc), ?_, rfl, ?_, ?_⟩, ?_, rfl, rfl⟩
  · simp only [State.team?, State.dropReqs, State.setTeam, tget_tput_same]
    simp [Strand.trapRegs, Strand.afterTrap, hi]
  · exact Team.strand_setStrand_same _ _ _ hk4
  · intro j hj hjk
    exact Team.strand_setStrand_other _ _ _ _ hk4 hj hjk
  · intro g hg
    exact tget_tput_other _ _ _ _ hg

/-- A trapping word of a strand leaves exactly what `TrapTaken` says, with TRAPPC its own address. -/
theorem Here.trap_taken {y : Here} (h : y.TakesTraps) (ti : TrapInfo) : TrapTaken y (y.trap ti) ti y.pc := by
  have e : y.trap ti = y.s.takeTrap y.h y.k ti y.pc := by
    simp [Here.trap, State.trapHere, h.strand, h.team, Here.pc, Here.sd]
  rw [e]
  exact State.takeTrap_taken h ti y.pc

end Sys2Proof.Machine
end

