-- ==== Sys2Proof/Laws/Memory.lean ====
section
/-! SUPPORT. Memories (R7, R61, R63): read after write, and every operation keeps the canonical form. -/

namespace Sys2Proof.Machine

open Sys2Proof

/-! ## The canonical form -/

theorem Mem.wfFrom_mono {lo lo' : Nat} {m : Mem} (h : lo' ≤ lo) (hm : Mem.wfFrom lo m = true) : Mem.wfFrom lo' m = true := by
  cases m with
  | nil => rfl
  | cons e r =>
    obtain ⟨a, b⟩ := e
    simp only [Mem.wfFrom, Bool.and_eq_true, decide_eq_true_eq] at *
    exact ⟨⟨by omega, hm.1.2⟩, hm.2⟩

theorem Mem.wfFrom_set {lo x : Nat} {m : Mem} (v : Byte) (hx : lo ≤ x) (hm : Mem.wfFrom lo m = true) :
    Mem.wfFrom lo (Mem.set m x v) = true := by
  induction m generalizing lo with
  | nil =>
    simp only [Mem.set]
    split
    · rfl
    · simp_all [Mem.wfFrom]
  | cons e r ih =>
    obtain ⟨a, b⟩ := e
    have hm' := hm
    simp only [Mem.wfFrom, Bool.and_eq_true, decide_eq_true_eq] at hm'
    obtain ⟨⟨ha, hb⟩, hr⟩ := hm'
    simp only [Mem.set]
    split
    · split
      · exact hm
      · simp only [Mem.wfFrom, Bool.and_eq_true, decide_eq_true_eq]
        exact ⟨⟨hx, by assumption⟩, ⟨by omega, hb⟩, hr⟩
    · split
      · split
        · exact Mem.wfFrom_mono (by omega) hr
        · subst_vars
          simp only [Mem.wfFrom, Bool.and_eq_true, decide_eq_true_eq]
          exact ⟨⟨hx, by assumption⟩, hr⟩
      · simp only [Mem.wfFrom, Bool.and_eq_true, decide_eq_true_eq]
        exact ⟨⟨ha, hb⟩, ih (by omega) hr⟩

theorem Mem.wf_set {m : Mem} (x : Nat) (v : Byte) (h : m.wf = true) : (Mem.set m x v).wf = true :=
  Mem.wfFrom_set v (Nat.zero_le x) h

theorem Mem.wf_nil : Mem.wf [] = true := rfl

theorem Mem.wf_writeN {m : Mem} (a v mask n : Nat) (h : m.wf = true) : (Mem.writeN m a v mask n).wf = true := by
  induction n generalizing m a v mask with
  | zero => exact h
  | succ n ih =>
    simp only [Mem.writeN]
    split
    · exact ih _ _ _ (Mem.wf_set _ _ h)
    · exact ih _ _ _ h

theorem Mem.wf_write {m : Mem} (a v n : Nat) (h : m.wf = true) : (Mem.write m a v n).wf = true := Mem.wf_writeN _ _ _ _ h

theorem Mem.wf_writeBytes {m : Mem} (a : Nat) (l : List Byte) (h : m.wf = true) : (Mem.writeBytes m a l).wf = true := by
  induction l generalizing m a with
  | nil => exact h
  | cons b r ih => exact ih _ (Mem.wf_set _ _ h)

theorem Mem.wf_writeBits {m : Mem} (base lo n v : Nat) (h : m.wf = true) : (Mem.writeBits m base lo n v).wf = true := by
  simp only [Mem.writeBits]
  exact Mem.wf_write _ _ _ h

theorem Mem.wf_writePieces {m : Mem} (a : Nat) (l : List Piece3) (h : m.wf = true) : (Mem.writePieces m a l).wf = true := by
  simp only [Mem.writePieces]
  induction l generalizing m with
  | nil => exact h
  | cons p r ih => exact ih (Mem.wf_write _ _ _ h)

/-! ## Pieces of memories (R65, R405) -/

theorem Mem.wfFrom_cons {lo a : Nat} {b : Byte} {r : Mem} :
    Mem.wfFrom lo ((a, b) :: r) = true ↔ (lo ≤ a ∧ b ≠ 0) ∧ Mem.wfFrom (a + 1) r = true := by
  simp only [Mem.wfFrom, Bool.and_eq_true, decide_eq_true_eq]

theorem Mem.wfFrom_filter {lo : Nat} {m : Mem} (p : Host.Cell → Bool) (h : Mem.wfFrom lo m = true) :
    Mem.wfFrom lo (m.filter p) = true := by
  induction m generalizing lo with
  | nil => rfl
  | cons e r ih =>
    obtain ⟨a, b⟩ := e
    rw [Mem.wfFrom_cons] at h
    rw [List.filter_cons]
    split
    · exact Mem.wfFrom_cons.2 ⟨h.1, ih h.2⟩
    · exact Mem.wfFrom_mono (by omega) (ih h.2)

/-- Entries of a form that holds from `lo` on lie at `lo` or above. -/
theorem Mem.wfFrom_le {lo : Nat} {m : Mem} (h : Mem.wfFrom lo m = true) : ∀ c ∈ m, lo ≤ c.1 := by
  induction m generalizing lo with
  | nil => simp
  | cons e r ih =>
    obtain ⟨a, b⟩ := e
    rw [Mem.wfFrom_cons] at h
    intro c hc
    rcases List.mem_cons.1 hc with rfl | hc
    · exact h.1.1
    · have := ih h.2 c hc; omega

theorem Mem.wfFrom_raise {lo hi : Nat} {m : Mem} (h : Mem.wfFrom lo m = true) (hm : ∀ c ∈ m, hi ≤ c.1) :
    Mem.wfFrom hi m = true := by
  cases m with
  | nil => rfl
  | cons e r =>
    obtain ⟨a, b⟩ := e
    rw [Mem.wfFrom_cons] at h ⊢
    exact ⟨⟨hm _ List.mem_cons_self, h.1.2⟩, h.2⟩

theorem Mem.wfFrom_up {lo a : Nat} {m : Mem} (h : Mem.wfFrom lo m = true) :
    Mem.wfFrom (a + lo) (m.map fun c => (a + c.1, c.2)) = true := by
  induction m generalizing lo with
  | nil => rfl
  | cons e r ih =>
    obtain ⟨k, b⟩ := e
    rw [Mem.wfFrom_cons] at h
    exact Mem.wfFrom_cons.2 ⟨⟨by omega, h.1.2⟩, by simpa [Nat.add_assoc] using ih h.2⟩

theorem Mem.wfFrom_down {lo a : Nat} {m : Mem} (h : Mem.wfFrom (a + lo) m = true) :
    Mem.wfFrom lo (m.map fun c => (c.1 - a, c.2)) = true := by
  induction m generalizing lo with
  | nil => rfl
  | cons e r ih =>
    obtain ⟨k, b⟩ := e
    rw [Mem.wfFrom_cons] at h
    refine Mem.wfFrom_cons.2 ⟨⟨by show lo ≤ k - a; omega, h.1.2⟩, ih ?_⟩
    have e : a + (k - a + 1) = k + 1 := by omega
    show Mem.wfFrom (a + (k - a + 1)) r = true
    rw [e]; exact h.2

theorem Mem.wfFrom_append {lo hi : Nat} {m w : Mem} (hm : Mem.wfFrom lo m = true) (hlt : ∀ c ∈ m, c.1 < hi)
    (hw : Mem.wfFrom hi w = true) (hle : lo ≤ hi) : Mem.wfFrom lo (m ++ w) = true := by
  induction m generalizing lo with
  | nil => exact Mem.wfFrom_mono hle hw
  | cons e r ih =>
    obtain ⟨a, b⟩ := e
    rw [Mem.wfFrom_cons] at hm
    have ha : a < hi := hlt _ List.mem_cons_self
    exact Mem.wfFrom_cons.2 ⟨hm.1, ih hm.2 (fun c hc => hlt c (List.mem_cons_of_mem _ hc)) (by omega)⟩

theorem Mem.wf_slice {m : Mem} (a n : Nat) (h : m.wf = true) : (Mem.slice m a n).wf = true := by
  apply Mem.wfFrom_down
  apply Mem.wfFrom_raise (Mem.wfFrom_filter _ h)
  intro c hc
  simp only [List.mem_filter, Bool.and_eq_true, decide_eq_true_eq] at hc
  omega

theorem Mem.wf_splice {m w : Mem} (a n : Nat) (h : m.wf = true) (hw : w.wf = true) : (Mem.splice m a n w).wf = true := by
  have h2 : Mem.wfFrom a ((w.filter fun c => c.1 < n).map fun c => (a + c.1, c.2)) = true :=
    Mem.wfFrom_up (lo := 0) (Mem.wfFrom_filter _ hw)
  have h3 : Mem.wfFrom (a + n) (m.filter fun c => a + n ≤ c.1) = true := by
    apply Mem.wfFrom_raise (Mem.wfFrom_filter _ h)
    intro c hc
    simp only [List.mem_filter, decide_eq_true_eq] at hc
    omega
  simp only [Mem.splice, List.append_assoc]
  refine Mem.wfFrom_append (hi := a) (Mem.wfFrom_filter _ h) ?_ (Mem.wfFrom_append h2 ?_ h3 (by omega)) (by omega)
  · intro c hc
    simp only [List.mem_filter, decide_eq_true_eq] at hc
    omega
  · intro c hc
    simp only [List.mem_map, List.mem_filter, decide_eq_true_eq] at hc
    obtain ⟨d, hd, rfl⟩ := hc
    show a + d.1 < a + n
    omega

/-! ## Reads after writes -/

theorem Mem.get_lt {lo x : Nat} {m : Mem} (hm : Mem.wfFrom lo m = true) (hx : x < lo) : Mem.get m x = 0 := by
  cases m with
  | nil => rfl
  | cons e r =>
    obtain ⟨a, b⟩ := e
    simp only [Mem.wfFrom, Bool.and_eq_true, decide_eq_true_eq] at hm
    have h1 : ¬ x = a := by omega
    have h2 : x < a := by omega
    simp [Mem.get, h1, h2]

theorem Mem.get_cons (a : Nat) (b : Byte) (r : Mem) (y : Nat) :
    Mem.get ((a, b) :: r) y = if y = a then b else if y < a then 0 else Mem.get r y := rfl

theorem Mem.get_setFrom {lo : Nat} {m : Mem} (x y : Nat) (v : Byte) (hm : Mem.wfFrom lo m = true) :
    Mem.get (Mem.set m x v) y = if y = x then v else Mem.get m y := by
  induction m generalizing lo with
  | nil =>
    simp only [Mem.set]
    split
    · subst_vars; split <;> rfl
    · rw [Mem.get_cons]
      split
      · rfl
      · split <;> rfl
  | cons e r ih =>
    obtain ⟨a, b⟩ := e
    have hm' := hm
    simp only [Mem.wfFrom, Bool.and_eq_true, decide_eq_true_eq] at hm'
    obtain ⟨⟨ha, hb⟩, hr⟩ := hm'
    simp only [Mem.set]
    by_cases hlt : x < a
    · rw [if_pos hlt]
      by_cases hv : v = 0
      · rw [if_pos hv]
        by_cases h : y = x
        · rw [if_pos h, Mem.get_cons, if_neg (by omega), if_pos (by omega), hv]
        · rw [if_neg h]
      · rw [if_neg hv, Mem.get_cons]
        by_cases h : y = x
        · rw [if_pos h, if_pos h]
        · rw [if_neg h, if_neg h]
          by_cases h2 : y < x
          · rw [if_pos h2, Mem.get_cons, if_neg (by omega), if_pos (by omega)]
          · rw [if_neg h2]
    · rw [if_neg hlt]
      by_cases heq : x = a
      · rw [if_pos heq]
        by_cases hv : v = 0
        · rw [if_pos hv]
          by_cases h : y = x
          · rw [if_pos h, Mem.get_lt hr (by omega), hv]
          · rw [if_neg h, Mem.get_cons, if_neg (by omega)]
            by_cases h2 : y < a
            · rw [if_pos h2, Mem.get_lt hr (by omega)]
            · rw [if_neg h2]
        · rw [if_neg hv, Mem.get_cons, Mem.get_cons]
          by_cases h : y = x
          · rw [if_pos h, if_pos h]
          · subst heq
            by_cases h2 : y < x
            · simp only [if_neg h, if_pos h2]
            · simp only [if_neg h, if_neg h2]
      · rw [if_neg heq, Mem.get_cons, Mem.get_cons, ih hr]
        by_cases h : y = a
        · rw [if_pos h, if_neg (by omega), if_pos h]
        · rw [if_neg h, if_neg h]
          by_cases h2 : y < a
          · rw [if_pos h2, if_neg (by omega), if_pos h2]
          · rw [if_neg h2, if_neg h2]

/-- A read of the byte written gives it; every other byte reads as before. -/
theorem Mem.get_set {m : Mem} (x y : Nat) (v : Byte) (hm : m.wf = true) :
    Mem.get (Mem.set m x v) y = if y = x then v else Mem.get m y := Mem.get_setFrom x y v hm

/-- A byte after a masked write (R216). -/
theorem Mem.get_writeN {m : Mem} (a v mask n y : Nat) (hm : m.wf = true) :
    Mem.get (Mem.writeN m a v mask n) y =
      if a ≤ y ∧ y < a + n ∧ mask.testBit (y - a) = true then BitVec.ofNat 8 (v >>> (8 * (y - a))) else Mem.get m y := by
  induction n generalizing m a v mask with
  | zero => simp [Mem.writeN]; intro h1 h2; omega
  | succ n ih =>
    simp only [Mem.writeN]
    have hodd : (mask % 2 = 1) ↔ mask.testBit 0 = true := by simp [Nat.testBit_zero]
    rw [ih]
    · by_cases hy : y = a
      · subst hy
        simp only [Nat.sub_self, hodd]
        have h1 : ¬ (y + 1 ≤ y) := by omega
        simp only [h1, false_and, if_false, Nat.le_refl, true_and, (by omega : y < y + (n + 1)), Nat.mul_zero,
          Nat.shiftRight_zero]
        split
        · rw [Mem.get_set _ _ _ hm]; simp
        · rfl
      · have hrest : Mem.get (if mask % 2 = 1 then Mem.set m a (BitVec.ofNat 8 v) else m) y = Mem.get m y := by
          split
          · rw [Mem.get_set _ _ _ hm]; simp [hy]
          · rfl
        rw [hrest]
        by_cases hlt : a + 1 ≤ y
        · have e1 : y - a = (y - (a + 1)) + 1 := by omega
          have e2 : (mask >>> 1).testBit (y - (a + 1)) = mask.testBit (y - a) := by
            rw [Nat.testBit_shiftRight, e1, Nat.add_comm]
          have e3 : v >>> 8 >>> (8 * (y - (a + 1))) = v >>> (8 * (y - a)) := by
            rw [← Nat.shiftRight_add, e1]; congr 1; omega
          rw [e2, e3]
          have e4 : (y < a + 1 + n) ↔ (y < a + (n + 1)) := by omega
          simp only [e4, hlt, (by omega : a ≤ y), true_and]
        · rw [if_neg (by omega), if_neg (by omega)]
    · split
      · exact Mem.wf_set _ _ hm
      · exact hm

theorem testBit_ones (n i : Nat) : (ones n).testBit i = decide (i < n) := by
  rw [ones, Nat.testBit_two_pow_sub_one]

/-- A byte after a write of n bytes. -/
theorem Mem.get_write {m : Mem} (a v n y : Nat) (hm : m.wf = true) :
    Mem.get (Mem.write m a v n) y =
      if a ≤ y ∧ y < a + n then BitVec.ofNat 8 (v >>> (8 * (y - a))) else Mem.get m y := by
  rw [Mem.write, Mem.get_writeN _ _ _ _ _ hm]
  by_cases h : a ≤ y ∧ y < a + n
  · have : y - a < n := by omega
    simp [h, testBit_ones, this]
  · rw [if_neg h, if_neg]
    rintro ⟨h1, h2, _⟩
    exact h ⟨h1, h2⟩

/-- A number of n bytes depends on those bytes alone. -/
theorem Mem.readN_congr {m m' : Mem} (a n : Nat) (h : ∀ y, a ≤ y → y < a + n → Mem.get m y = Mem.get m' y) :
    Mem.readN m a n = Mem.readN m' a n := by
  induction n generalizing a with
  | zero => rfl
  | succ n ih =>
    simp only [Mem.readN]
    rw [h a (by omega) (by omega), ih (a + 1) (fun y h1 h2 => h y (by omega) (by omega))]

/-- A read of n bytes just written gives them (R7). -/
theorem Mem.readN_write {m : Mem} (a v n : Nat) (hm : m.wf = true) : Mem.readN (Mem.write m a v n) a n = v % 2 ^ (8 * n) := by
  have key : ∀ k b (m' : Mem) (u : Nat), (∀ y, b ≤ y → y < b + k → Mem.get m' y = BitVec.ofNat 8 (u >>> (8 * (y - b)))) →
      Mem.readN m' b k = u % 2 ^ (8 * k) := by
    intro k
    induction k with
    | zero => intro b m' u _; simp [Mem.readN, Nat.mod_one]
    | succ k ih =>
      intro b m' u h
      simp only [Mem.readN]
      rw [h b (by omega) (by omega), ih (b + 1) m' (u >>> 8)]
      · have e : 2 ^ (8 * (k + 1)) = 256 * 2 ^ (8 * k) := by rw [Nat.mul_add, Nat.pow_add, Nat.mul_comm]
        simp only [Nat.sub_self, Nat.mul_zero, Nat.shiftRight_zero, BitVec.toNat_ofNat, e]
        rw [Nat.shiftRight_eq_div_pow, Nat.mod_mul]
      · intro y h1 h2
        rw [h y (by omega) (by omega), ← Nat.shiftRight_add]
        congr 2
        omega
  apply key
  intro y h1 h2
  rw [Mem.get_write _ _ _ _ hm, if_pos ⟨h1, h2⟩]

end Sys2Proof.Machine
end

