-- ==== Sys2Proof/Laws/Words.lean ====
section
/-! SUPPORT. What each shared shape of a word does, once for all the words of that shape: from "the meaning of the word is this
shared operation" to the form that the statements name. -/

set_option maxRecDepth 8000

namespace Sys2Proof.Machine

open Sys2Proof

/-! ## The one changed entry -/

/-- Storing a team changes that entry of the team table and nothing else. -/
theorem TeamIs.set {s : State} {h : Nat} {t : Team} : TeamIs s (s.setTeam h t) h t :=
  ⟨tget_tput_same _ _ _, fun _ hg => tget_tput_other _ _ _ _ hg, rfl⟩

/-- Two stores of one team. -/
theorem TeamIs.set_set {s : State} {h : Nat} {t u : Team} : TeamIs s ((s.setTeam h u).setTeam h t) h t :=
  ⟨tget_tput_same _ _ _, fun g hg => (tget_tput_other _ _ _ _ hg).trans (tget_tput_other _ _ _ _ hg), rfl⟩

/-- Storing a core. -/
theorem CoreIs.set {s : State} {h : Nat} {t : Core} : CoreIs s (s.setCore h t) h t :=
  ⟨State.core_setCore_same _ _ _, fun _ hg => State.core_setCore_other _ _ _ _ hg, rfl⟩

/-- Storing a context. -/
theorem CtxIs.set {s : State} {h : Nat} {t : Context} : CtxIs s (s.setCtx h t) h t :=
  ⟨tget_tput_same _ _ _, fun _ hg => tget_tput_other _ _ _ _ hg, rfl⟩

/-- Storing a launch. -/
theorem LaunchIs.set {s : State} {h : Nat} {t : Launch} : LaunchIs s (s.setLaunch h t) h t :=
  ⟨tget_tput_same _ _ _, fun _ hg => tget_tput_other _ _ _ _ hg, rfl⟩

/-- Storing a request. -/
theorem ReqIs.set {s : State} {h : Nat} {t : Req} : ReqIs s (s.setReq h t) h t :=
  ⟨tget_tput_same _ _ _, fun _ hg => tget_tput_other _ _ _ _ hg, rfl⟩

/-- The last of two stores of a strand stands. -/
theorem Strands.put_put (ss : Strands) (k : Nat) (x y : Strand) : (ss.put k x).put k y = ss.put k y := by
  match k with
  | 0 | 1 | 2 | 3 => rfl
  | n + 4 => rfl

/-- Storing the strand that is there changes nothing. -/
theorem Strands.put_get (ss : Strands) (k : Nat) : ss.put k (ss.get k) = ss := by
  match k with
  | 0 | 1 | 2 | 3 => rfl
  | n + 4 => rfl

/-- Storing the strand that is there changes nothing. -/
theorem Team.setStrand_self (t : Team) (k : Nat) : t.setStrand k (t.strand k) = t := by
  simp [Team.setStrand, Team.strand, Strands.put_get]

/-- Marking granules dirty changes `dirty` only. -/
theorem Team.touchDirty_frame (t : Team) (off len mask : Nat) : ∃ d, t.touchDirty off len mask = { t with dirty := d } := by
  unfold Team.touchDirty
  dsimp only
  split
  · exact ⟨t.dirty, rfl⟩
  · exact ⟨_, rfl⟩

/-- A window write changes that window, and of a write to SP the dirty bits and the record of the cycle's start. -/
theorem Team.writeWindow_frame (t : Team) (b : Buf) (off v mask n : Nat) :
    ∃ d l, t.writeWindow b off v mask n =
      { t.setWindow b (Mem.writeN (t.window b) off v mask n) with dirty := d, spBusy := l } := by
  unfold Team.writeWindow
  cases b
  · exact ⟨_, _, rfl⟩
  · exact ⟨_, _, rfl⟩
  · exact ⟨_, _, rfl⟩
  · dsimp only
    split
    · rename_i h
      subst h
      exact ⟨_, _, rfl⟩
    · obtain ⟨d, hd⟩ := (t.noteWords off n mask).touchDirty_frame off n mask
      rw [hd]
      exact ⟨_, _, rfl⟩

/-! ## Scalar words -/

/-- A word whose meaning is `scalarWord` has that form. -/
theorem scalarForm_of {c : RegW → Instr} {n lat : Nat} {f : RegW → Nat → Nat → Nat → Nat × Nat}
    (h : ∀ r s, exec (c r) s = scalarWord r s n lat (f r)) : ScalarForm c n lat f := by
  intro x r hr
  refine ⟨_, (h r x.s).trans (issueWord_ready hr rfl), ?_⟩
  dsimp only
  split
  · exact Here.done_issued (y := x.woken _) _ _ hr.stream
  · exact Here.done_issued (y := x.woken _) _ _ hr.stream

/-- A word whose meaning is `cmpWord` has that form. -/
theorem compareForm_of {c : RegW → Instr} {f : Nat → Int → Int → Bool}
    (h : ∀ r s, exec (c r) s = cmpWord r s f) : CompareForm c f := by
  intro x r u hr
  simp only [u, Here.testUses, List.append_nil] at hr ⊢
  refine ⟨_, (h r x.s).trans (issueWord_ready hr rfl), ?_⟩
  dsimp only
  split
  · exact Here.done_issued (y := x.woken _) _ _ hr.stream
  · exact Here.done_issued (y := x.woken _) _ _ hr.stream

/-- A word whose meaning is `predWord` has that form. -/
theorem predForm_of {c : RegW → Instr} {b : Bool} {f : PredBits → PredBits → PredBits}
    (h : ∀ r s, exec (c r) s = predWord r s b f) : PredForm c b f := by
  intro x r u hr
  refine ⟨_, (h r x.s).trans (issueWord_ready hr rfl), ?_⟩
  dsimp only
  split
  · exact Here.done_issued (y := x.woken _) _ _ hr.stream
  · exact Here.done_issued (y := x.woken _) _ _ hr.stream

/-- A word whose meaning is `immWord` has that form. -/
theorem immForm_of {c : ImmW → Instr} {b : Bool} {lat} {f : Nat → Nat → Nat → Nat}
    (h : ∀ r s, exec (c r) s = immWord r s b lat f) : ImmForm c b lat f := by
  intro x r u hr
  refine ⟨_, (h r x.s).trans (issueWord_ready hr rfl), ?_⟩
  exact Here.done_issued (y := x.woken _) _ _ hr.stream

/-- A word whose meaning is a branch has that form. -/
theorem branchForm_of {c : BrW → Instr} {o : BrW → List Opd} {p : BrW → List Nat} {taken : Here → BrW → Bool}
   (h : ∀ r s, exec (c r) s = branchWord r s (o r) (p r) false fun x => (if taken x r then some (relTarget x.pc r.disp) else none, none))
   : BranchForm c o p taken := by
  intro x r u hr hp
  refine ⟨_, (h r x.s).trans (issueWord_ready hr rfl), ?_⟩
  have hpc : (x.woken u).pc = x.pc := by
    obtain ⟨g, hg⟩ := x.t.wake_frame x.s.cycle (x.t.touched u)
    simp only [Here.woken, hg]; rfl
  have al : ∀ d, (relTarget (x.woken u).pc d).toNat % 8 = 0 := by
    intro d
    rw [hpc]
    simp only [relTarget, BitVec.toNat_and, BitVec.toNat_add, BitVec.toNat_ofNat]
    have : BitVec.toNat (0x00FFFFFFFFFFFFFF : BitVec 64) = 2^56-1 := rfl
    rw [this, Nat.and_two_pow_sub_one_eq_mod]
    omega
  dsimp only
  by_cases ht : taken (x.woken u) r = true
  · simp only [ht, if_true]
    rw [if_neg (by simpa using al r.disp)]
    exact Here.finish_issued (y := x.woken _) r.mods (x.woken u).t _ _ hr.stream
  · simp only [ht]
    exact Here.done_issued (y := x.woken _) _ _ hr.stream

/-- A word whose meaning is a jump has that form. -/
theorem jumpForm_of {c : BrW → Instr} {o : BrW → List Opd} {b : Bool} {f : Here → BrW → BitVec 64}
   (h : ∀ r s, exec (c r) s = branchWord r s (o r) [] b fun x => (some (f x r), if b then some (r.link, (nextPc x.pc).toNat) else none))
   : JumpForm c o b f := by
  intro x r u hr y
  have e := (h r x.s).trans (issueWord_ready (u := u) hr (by rfl))
  constructor
  · intro ha
    refine ⟨_, e, ?_⟩
    dsimp only
    rw [if_neg (by simpa using ha)]
    cases b
    · exact Here.finish_issued (y := x.woken _) r.mods (x.woken u).t _ _ hr.stream
    · exact Here.finish_issued (y := x.woken _) r.mods (x.woken u).t _ _ hr.stream
  · intro ha ht
    refine ⟨_, e, ?_⟩
    dsimp only
    rw [if_pos ha]
    exact Here.trap_taken ht _

/-- Waking granules leaves the PC. -/
theorem Here.woken_pc (x : Here) (u : Uses) : (x.woken u).pc = x.pc := by
    obtain ⟨g, hg⟩ := x.t.wake_frame x.s.cycle (x.t.touched u)
    simp only [Here.woken, hg]; rfl

/-- A word whose meaning is a wait has that form. -/
theorem waitForm_of {c : WtW → Instr} {u : WtW → Uses} {w : Here → WtW → Wait}
   (h : ∀ r s, exec (c r) s = issueWord s r.mods (fun _ => u r) fun x => x.wait r.mods x.t (w x r)) : WaitForm c u w := by
  intro x r hr
  exact ⟨_, (h r x.s).trans (issueWord_ready hr rfl), Here.wait_waits (y := x.woken _) _ _ hr.stream⟩

/-- A word whose meaning is `crWriteWord` has that form. -/
theorem crWriteForm_of {c : SysW → Instr} {fn : Nat} {b : Bool} (h : ∀ r s, exec (c r) s = crWriteWord r s fn b) : CrWriteForm c fn b := by
  intro x r u hr
  refine ⟨_, (h r x.s).trans (issueWord_ready hr rfl), Here.done_issued (y := x.woken _) _ _ hr.stream⟩

/-- Wrapping twice is wrapping once. -/
theorem ofSigned_idem (w : Nat) (i : Int) : ofSigned w (ofSigned w i : Int) = ofSigned w i := by
  have h : (0:Int) ≤ i % (2:Int)^w := Int.emod_nonneg _ (by positivity)
  simp [ofSigned, Int.toNat_of_nonneg h]

/-- Waking granules leaves the conditions of a trap. -/
theorem Here.TakesTraps.woken {x : Here} (h : x.TakesTraps) (u : Uses) : (x.woken u).TakesTraps := by
  obtain ⟨g, hg⟩ := x.t.wake_frame x.s.cycle (x.t.touched u)
  obtain ⟨h1, h2, h3, h4⟩ := h
  exact ⟨h1, x.woken_team u, by simp only [Here.woken, hg]; exact h3, by simp only [Here.woken, hg]; exact h4⟩

/-- What a trap after issue leaves. -/
theorem Here.trapAfter_taken {y : Here} (h : y.TakesTraps) (m : Mods) (ti : TrapInfo) :
   ∃ s1 t1, HasIssued y s1 m (nextPc y.pc) [] ∧ s1.team? y.h = some t1 ∧ TrapTaken ⟨s1, y.h, y.k, t1⟩ (y.trapAfter m ti) ti (nextPc y.pc) := by
  have hk := h.strand
  have hi : HasIssued y (y.done m y.t []) m (nextPc y.pc) [] := Here.done_issued _ _ (by omega)
  obtain ⟨t1, ht1, ha⟩ := hi.team
  refine ⟨_, t1, hi, ht1, ?_⟩
  unfold Here.trapAfter
  rw [if_pos hk]
  refine State.takeTrap_taken (y := ⟨y.done m y.t [], y.h, y.k, t1⟩) ⟨hk, ht1, ?_, ?_⟩ ti _
  · simp only [Here.sd]
    rw [ha.strand]; exact h.first
  · simp only; rw [ha.rest]; exact h.entry

/-! ## Vector words -/

/-- A pop leaves the stream. -/
theorem Here.popEntries_k (x : Here) (q n : Nat) : (x.popEntries q n).k = x.k := rfl

/-- A pop leaves the team's handle. -/
theorem Here.popEntries_h (x : Here) (q n : Nat) : (x.popEntries q n).h = x.h := rfl

/-- Pops leave the stream. -/
theorem Here.popAll_k (x : Here) (l) : (x.popAll l).k = x.k := by
  simp [Here.popAll, List.range, List.range.loop]; split <;> split <;> split <;> split <;> rfl

/-- No queue, no pop. -/
theorem Here.popAll_nil (x : Here) : x.popAll [] = x := by
  simp [Here.popAll, List.range, List.range.loop, popCount]

/-- The end of a vector word is its issue. -/
theorem Here.doneVector_issued {y : Here} (m : Mods) (d : BitVec 8) (lat len v mask fl : Nat) (hk : y.k ≤ 4) :
    VectorIssued y (y.doneVector m d lat len v mask fl) m d lat len v mask fl := by
  unfold VectorIssued Here.doneVector Flight.kept
  cases h : pushOf d with
  | none => exact Here.finish_issued _ y.t _ _ hk
  | some q => exact Here.finish_issued _ _ _ _ hk

/-- A word whose sources are supplied reads them and pops its queues. -/
theorem Here.withSources_supplied {y : Here} {srcs : List (BitVec 8 × Nat)} {d : Option (BitVec 8)} {k : Here → List Nat → State}
   {l} (hl : srcs.map (·.1) = l) (h : y.Supplied l d) :
    y.withSources srcs d k = k (y.popAll l) (y.sourceValues srcs) := by
  subst hl
  unfold Here.withSources
  rw [h.pops, h.push]

/-- The same from the word's place before issue. -/
theorem sources_ready {x : Here} {m : Mods} {u : Uses} {uses : Here → Uses} {srcs : List (BitVec 8 × Nat)}
    {d : Option (BitVec 8)} {k : Here → List Nat → State} {l} (hr : x.Ready m u) (hs : (x.woken u).Supplied l d)
    (hu : uses x = u) (hl : srcs.map (·.1) = l) :
    issueWord x.s m uses (fun x => x.withSources srcs d k) = .next (k ((x.woken u).popAll l) ((x.woken u).sourceValues srcs)) :=
  (issueWord_ready hr hu).trans (congrArg _ (Here.withSources_supplied hl hs))

/-- A word whose meaning is `elementWord` has that form. -/
theorem elementForm_of {c : RegW → Instr} {srcs : RegW → List (Nat × BitVec 8)}
    {scal : RegW → List (Nat × BitVec 8 × Nat)} {w : RegW → Nat} {lat : Nat} {f : RegW → Here → List Nat → Nat → Nat × Nat}
   (h : ∀ r s, exec (c r) s = perElement r s (srcs r) (scal r) (w r) lat (f r)) : ElementForm c srcs scal w lat f := by
  intro x r so u specs hr hs
  apply Exists.intro; apply And.intro
  · rw [h]
    exact sources_ready (u := u) (l := specs) hr hs (by rfl) (by simp [specs])
  exact Here.doneVector_issued _ _ _ _ _ _ _ (by rw [Here.popAll_k]; exact hr.stream)

/-- A word whose meaning works lane by lane has that form. -/
theorem lanewiseForm_of {c : RegW → Instr} {n lat : Nat} {w : RegW → Nat} {f : RegW → Nat → Nat → Nat → Nat × Nat}
   (h : ∀ r s, exec (c r) s = elementwise r s n (w r) lat (f r)) : LanewiseForm c n lat w f := 
  elementForm_of h

/-- A word whose meaning is an element comparison has that form. -/
theorem elementCompareForm_of {c : RegW → Instr} {lat : Nat} {f : RegW → Nat → Nat → Bool × Nat}
   (h : ∀ r s, exec (c r) s = elementCompare r s lat (f r)) : ElementCompareForm c lat f := by
  intro x r w u hr hs
  apply Exists.intro; apply And.intro
  · rw [h]
    unfold elementCompare
    exact sources_ready (u := u) (l := [r.a, r.b]) hr hs (by rfl) (by simp)
  unfold Flight.kept
  exact Here.done_issued (y := (x.woken u).popAll _) _ _ (by rw [Here.popAll_k]; exact hr.stream)

/-- A word whose meaning gives a scalar from a vector has that form. -/
theorem toScalarForm_of {c : RegW → Instr} {scal : RegW → List (Nat × BitVec 8)} {lat : Nat}
    {f : RegW → Here → Nat → Nat × Nat} (h : ∀ r s, exec (c r) s = vectorToScalar r s (scal r) lat (f r)) :
   ToScalarForm c scal lat f := by
  intro x r u hr hs
  apply Exists.intro; apply And.intro
  · rw [h]
    exact sources_ready (u := u) (l := [r.a]) hr hs (by rfl) (by simp)
  dsimp only
  split
  · exact Here.done_issued (y := (x.woken u).popAll _) _ _ (by rw [Here.popAll_k]; exact hr.stream)
  · exact Here.done_issued (y := (x.woken u).popAll _) _ _ (by rw [Here.popAll_k]; exact hr.stream)

/-- Drawing rounding modes leaves the stream. -/
theorem Here.elementModes_k (y : Here) (m en) : (y.elementModes m en).2.k = y.k := by
  unfold Here.elementModes
  split <;> rfl

/-- A word whose meaning is a rounded element operation has that form. -/
theorem floatForm_of {c : RegW → Instr} {n lat : Nat} {f : Fmt → Mode → Nat → Nat → Nat → Nat × Nat}
  (h : ∀ r s, exec (c r) s = floatElements r s n lat f) : FloatForm c n lat f := by
  intro x r w u specs hr hs
  apply Exists.intro; apply And.intro
  · rw [h]
    unfold floatElements
    exact sources_ready (u := u) (l := specs) hr hs (by rfl) (by simp [specs, firstSources])
  have hk : ((x.woken u).popAll specs).k ≤ 4 := by rw [Here.popAll_k]; exact hr.stream
  exact Here.doneVector_issued (y := (Here.elementModes _ _ _).2) _ _ _ _ _ _ _ (by rw [Here.elementModes_k]; exact hk)

/-! ## Memory words -/

/-- An access that passes raises no address trap. -/
theorem Here.Passes.no_trap {y : Here} {r : MemW} {ea w a m : Nat} (h : y.Passes r ea w a m) : y.addressTrap r ea w a = none := by
  obtain ⟨h1, h2, h3, h4⟩ := h
  unfold Here.addressTrap
  cases hr : MemW.remote r <;> by_cases hs : r.space = 0 <;> simp_all

/-- A local access that passes and may be made takes its banks and goes on. -/
theorem Here.Passes.access {y : Here} {r : MemW} {ea w a m : Nat} {k : Here → State} (h : y.Passes r ea w a m)
    (hr : MemW.remote r = false) (hm : y.MayAccess r (bufOfSpace r.space.toNat) ea w m) :
    y.localAccess r ea w m k = k (y.banked r.mods (bufOfSpace r.space.toNat) ea w m) :=
  Here.localAccess_may (fun hs => h.present hs hr) hm

/-- Waking granules leaves the gate. -/
theorem Here.woken_gate0 {x : Here} {u : Uses} (p pn) : (x.woken u).gate0 p pn = x.gate0 p pn := by
  obtain ⟨g, hg⟩ := x.t.wake_frame x.s.cycle (x.t.touched u)
  simp only [Here.woken, hg]; rfl

/-- Waking granules leaves the byte mask. -/
theorem Here.woken_byteMask {x : Here} {u : Uses} (r n) : (x.woken u).byteMask r n = x.byteMask r n := by
  obtain ⟨g, hg⟩ := x.t.wake_frame x.s.cycle (x.t.touched u)
  simp only [Here.woken, hg]; rfl

/-- A word whose gate is 0 only issues. -/
theorem Here.done_nothing {x : Here} {m : Mods} {y : Here} (hk : y.k ≤ 4) : HasIssued y (y.done m y.t []) m (nextPc y.pc) [] := Here.done_issued _ _ hk

/-- Unlocking leaves the write path. -/
theorem Core.unlock_path (c : Core) (l) : (c.unlock l).path = c.path := rfl

/-- A pop leaves every write path. -/
theorem Here.popEntries_core (x : Here) (q n c : Nat) : ((x.popEntries q n).s.core c).path = (x.s.core c).path := by
  unfold Here.popEntries
  dsimp only
  split
  · rfl
  · simp only [State.core, State.setTeam, State.setCore]
    by_cases hc : c = x.t.core
    · subst hc; rw [tget_tput_same]; rfl
    · rw [tget_tput_other _ _ _ _ hc]

/-- A pop changes the load queues of the team, and the strand that acquires with it. -/
theorem Here.popEntries_t (x : Here) (q n : Nat) : ∃ l d, (x.popEntries q n).t = { x.t with lqs := l, strands := d } := by
  unfold Here.popEntries
  dsimp only
  split
  · exact ⟨_, _, rfl⟩
  · exact ⟨_, x.t.strands, rfl⟩

/-- Pops change the load queues and what the strand has acquired, and leave every write path. -/
theorem Here.popAll_frame (x : Here) (l) : ∃ z d, (x.popAll l).t = { x.t with lqs := z, strands := d } ∧
    (∀ c, ((x.popAll l).s.core c).path = (x.s.core c).path) := by
  unfold Here.popAll
  generalize List.range 4 = qs
  induction qs generalizing x with
  | nil => exact ⟨x.t.lqs, x.t.strands, rfl, fun _ => rfl⟩
  | cons q qs ih =>
    simp only [List.foldl_cons]
    split
    · exact ih x
    · obtain ⟨z, d, h1, h2⟩ := ih (x.popEntries q (popCount l q))
      obtain ⟨z', d', h3⟩ := x.popEntries_t q (popCount l q)
      exact ⟨z, d, by rw [h1, h3], fun c => by rw [h2, Here.popEntries_core]⟩

/-- A strand's global access is a request. -/
theorem Here.globalAwait_strand {y : Here} {m i ea mask dest} (h : y.k < 4) : y.globalAwait m i ea mask dest = y.await m { Req.of i ea dest with mask := mask } := by
  unfold Here.globalAwait
  rw [if_pos h]

/-- A remote access that its strand's local stores and the clock of its die do not keep back is counted and is a request, after
the release to another C-die has taken its tag. -/
theorem Here.awaitRemote_free {y : Here} {m i handle ea v mask dest}
    (h : (deedOf i).releases = true → y.sd.spills = [] ∧ y.accessBusy = false)
    (hl : y.leadHeld ((deedOf i).releasesFar y.t.core handle) = false) :
    y.awaitRemote m i handle ea v mask dest =
      (let z := (y.tagRelease ((deedOf i).releasesFar y.t.core handle)).2
       let far := (deedOf i).releases && decide (1 < implicitScope z.t.core (handleCore handle))
       z.remoteCounted.await m (if far
        then remoteReq i handle ea v mask dest (z.s.core z.t.core).nextNum z.sd.acqUpto
        else remoteReq i handle ea v mask dest 0 0)) := by
  unfold Here.awaitRemote
  cases hr : (deedOf i).releases
  · simp [hr, hl, remoteReq, Here.remoteCounted, Req.of]
  · obtain ⟨h1, h2⟩ := h hr
    simp only [hr, h1, h2, hl, List.isEmpty_nil, Bool.not_true, Bool.or_false, Bool.and_false, Bool.false_eq_true, if_false,
      Bool.true_and, remoteReq, Here.remoteCounted, Req.of]

end Sys2Proof.Machine
end

