-- ==== Sys2Proof/Tests/Slice0.lean ====
section
/-! SUPPORT. Tests: instruction words written out from the spec's examples decode to the instructions they stand for, ill-formed
terms are refused, and the small machine on which the witnesses of the statements' hypotheses stand. -/

set_option maxRecDepth 8000

namespace Sys2Proof.Tests

open Sys2Proof Sys2Proof.Machine

/-! ## Words of the spec's examples -/

/-- R142: `add.s32 s3, s1, s2 ~1`. -/
theorem test_decode_add : decodeWord false 0x0210030102000300 = .ok (.add ⟨⟨false, false, 1, false⟩, 0x10, 0x03, 0x01, 0x02, 0x00, 0, false, 0x3, 0, 0x0⟩) := rfl

/-- R104: `!^nop ~5`. -/
theorem test_decode_nop : decodeWord false 0x2B00000000000000 = .ok (.nop ⟨⟨false, true, 5, true⟩, 0x00, 0x00, 0x00, 0x00, 0x00, 0, false, 0x0, 0, 0x0⟩) := rfl

/-- R104: `nop ~20`, VER 1 and STALL 10. -/
theorem test_decode_nop_ver1 : decodeWord false 0x5400000000000000 = .ok (.nop ⟨⟨true, false, 10, false⟩, 0x00, 0x00, 0x00, 0x00, 0x00, 0, false, 0x0, 0, 0x0⟩) := rfl

/-- 04, 17: `shl.n64 s8, s8, s7`. -/
theorem test_decode_shl : decodeWord false 0x0013080807000800 = .ok (.shl ⟨⟨false, false, 0, false⟩, 0x13, 0x08, 0x08, 0x07, 0x00, 0, false, 0x8, 0, 0x0⟩) := rfl

/-- 16: `pset.hi p2, s22`. -/
theorem test_decode_psetHi : decodeWord false 0x0017021600000009 = .ok (.psetHi ⟨⟨false, false, 0, false⟩, 0x17, 0x02, 0x16, 0x00, 0x00, 0, false, 0x0, 0, 0x9⟩) := rfl

/-- R151: `beq s7, top` with DISP −3. -/
theorem test_decode_beq : decodeWord false 0x0040000701FFFFFD = .ok (.beq ⟨⟨false, false, 0, false⟩, 0x40, 0, 7, 0, 1, 0xFFFFFD⟩) := rfl

/-- R157: `wait.sig 5`. -/
theorem test_decode_waitSig : decodeWord false 0x0048000000000005 = .ok (.waitSig ⟨⟨false, false, 0, false⟩, 0x48, 0, 0, 5⟩) := rfl

/-- R161: `crr s2, %cycle`. -/
theorem test_decode_crr : decodeWord false 0x000102000C000000 = .ok (.crr ⟨⟨false, false, 0, false⟩, 0x01, 2, 0, 0x0C, 0, 0⟩) := rfl

/-- 15: `vmov v2, lq1`. -/
theorem test_decode_vmov : decodeWord false 0x0056427900000000 = .ok (.vmov ⟨⟨false, false, 0, false⟩, 0x56, 0x42, 0x79, 0x00, 0x00, 0, false, 0x0, 0, 0x0⟩) := rfl

/-- 15: `vperm.s8 v7, v2, v10`. -/
theorem test_decode_vperm : decodeWord false 0x005747424A000100 = .ok (.vperm ⟨⟨false, false, 0, false⟩, 0x57, 0x47, 0x42, 0x4A, 0x00, 0, false, 0x1, 0, 0x0⟩) := rfl

/-- 17: `vcmp.ne.n16 p1, v4, v2`. -/
theorem test_decode_vcmp : decodeWord false 0x0055014442000601 = .ok (.vcmpNe ⟨⟨false, false, 0, false⟩, 0x55, 0x01, 0x44, 0x42, 0x00, 0, false, 0x6, 0, 0x1⟩) := rfl

/-- 17: `vsel.n16 v5, v8, vz if p1`. -/
theorem test_decode_vsel : decodeWord false 0x005645487E002601 = .ok (.vsel ⟨⟨false, false, 0, false⟩, 0x56, 0x45, 0x48, 0x7E, 0x00, 1, false, 0x6, 0, 0x1⟩) := rfl

/-- R188: `vtrit.s8 v4, v2, 3 ~2`. -/
theorem test_decode_vtrit : decodeWord false 0x045C444200000103 = .ok (.vtrit ⟨⟨false, false, 2, false⟩, 0x5C, 0x44, 0x42, 0x00, 0x00, 0, false, 0x1, 0, 0x3⟩) := rfl

/-- R188: `vtacc.s32 v8, v4, v6, v8`. -/
theorem test_decode_vtacc : decodeWord false 0x005C484446480308 = .ok (.vtacc ⟨⟨false, false, 0, false⟩, 0x5C, 0x48, 0x44, 0x46, 0x48, 0, false, 0x3, 0, 0x8⟩) := rfl

/-- 16: `vfsub.f32 v32, v0, v8`. -/
theorem test_decode_vfsub : decodeWord false 0x0080604048000901 = .ok (.vfsub ⟨⟨false, false, 0, false⟩, 0x80, 0x60, 0x40, 0x48, 0x00, 0, false, 0x9, 0, 0x1⟩) := rfl

/-- 16: `vcvt.f16.f32 v48, v16`. -/
theorem test_decode_vcvt : decodeWord false 0x0098705000000B09 = .ok (.vcvt ⟨⟨false, false, 0, false⟩, 0x98, 0x70, 0x50, 0x00, 0x00, 0, false, 0xB, 0, 0x9⟩) := rfl

/-- R206: `ld.n32 s5, g:(s4+16)`. -/
theorem test_decode_ld : decodeWord false 0x00B0050400001006 =
    .ok (.ld ⟨⟨false, false, 0, false⟩, 0xB0, 0x05, 0x04, 0, 0, 0x0010, 0, false, 6⟩) := rfl

/-- 16: `vst ab:(s20+1984), v48 if p2`. -/
theorem test_decode_vst : decodeWord false 0x00B370146007C040 =
    .ok (.vst ⟨⟨false, false, 0, false⟩, 0xB3, 0x70, 0x14, 3, 0, 0x07C0, 2, false, 0⟩) := rfl

/-- 16: `vld v8, cb:(s29+0)`. -/
theorem test_decode_vld : decodeWord false 0x00B2481D80000000 =
    .ok (.vld ⟨⟨false, false, 0, false⟩, 0xB2, 0x48, 0x1D, 4, 0, 0x0000, 0, false, 0⟩) := rfl

/-- 15: `fetch lq1, g:(s17+0)`, a word of the access stream. -/
theorem test_decode_fetch : decodeWord true 0x00C4011100000000 =
    .ok (.fetch ⟨⟨false, false, 0, false⟩, 0xC4, 0x01, 0x11, 0, 0, 0x0000, 0, false, 0⟩) := rfl

/-- 15: `amo.or.n64 s24, g:(s2+48)` at scope 4. -/
theorem test_decode_amoOr : decodeWord false 0x00D1180204003002 =
    .ok (.amoOr ⟨⟨false, false, 0, false⟩, 0xD1, 0x18, 0x02, 0, 4, 0x0030, 0, false, 2⟩) := rfl

/-- 16: `fence sc=core`. -/
theorem test_decode_fence : decodeWord false 0x00E0000001000000 =
    .ok (.fence ⟨⟨false, false, 0, false⟩, 0xE0, 0x00, 0x00, 0, 1, 0x0000, 0, false, 0⟩) := rfl

/-- 17: `rel.n64 g:(s5+0), s10, sc=core`. -/
theorem test_decode_rel : decodeWord false 0x00E10A0501000000 =
    .ok (.rel ⟨⟨false, false, 0, false⟩, 0xE1, 0x0A, 0x05, 0, 1, 0x0000, 0, false, 0⟩) := rfl

/-- R231: `acq.p.n64 s6, g:(s10), sc=die`. -/
theorem test_decode_acqP : decodeWord false 0x00E3060A03000000 =
    .ok (.acqP ⟨⟨false, false, 0, false⟩, 0xE3, 0x06, 0x0A, 0, 3, 0x0000, 0, false, 0⟩) := rfl

/-- 17: `enq 2, s20`. -/
theorem test_decode_enq : decodeWord false 0x00F0148000000000 = .ok (.enq ⟨⟨false, false, 0, false⟩, 0xF0, 0x14, 2, 0, 0⟩) := rfl

/-- 17: `sig.add.r 1, s16`. -/
theorem test_decode_sigAddR : decodeWord false 0x00F5001000010000 = .ok (.sigAddR ⟨⟨false, false, 0, false⟩, 0xF5, 0x00, 0x10, 0x00, 0x01, 0, false, 0x0, 0, 0x0⟩) := rfl

/-- R96: WAIT 0x92, SIGNAL 0x45. -/
theorem test_decode_cmdNop : decodeCmd (Cmd.ofWords 0x9245000000000000 0 0 0) =
    some (.cmdNop ⟨0x92, 0x45, 0x00, 0, 0x0, 0, 0, 0⟩) := rfl

/-- 15: `cp.ld`, word 2 with PITCH 80, ROWSV 20, COLSV 40. -/
theorem test_decode_cpLd : decodeCmd (Cmd.ofWords 0x000101802C000000 0x1000 0x7D00280014000050 0) =
    some (.cpLd ⟨0x00, 0x01, 0x01, 2, 0x2C000000, 0x1000, 0x7D00280014000050, 0⟩) := rfl

/-- 15: `cp.st`, word 2 with PITCH 33, ROWSV 40, COLSV 32. -/
theorem test_decode_cpSt : decodeCmd (Cmd.ofWords 0x0002028010000000 0x2000 0x0000200028000021 0) =
    some (.cpSt ⟨0x00, 0x02, 0x02, 2, 0x10000000, 0x2000, 0x0000200028000021, 0⟩) := rfl

/-- 17: `cp.renc`. -/
theorem test_decode_cpRenc : decodeCmd (Cmd.ofWords 0x0000054000000015 0x3000 0 0) =
    some (.cpRenc ⟨0x00, 0x00, 0x05, 1, 0x15, 0x3000, 0, 0⟩) := rfl

/-- 17: `cl.put`, SCOPE 5 and BYTES 128. -/
theorem test_decode_clPut : decodeCmd (Cmd.ofWords 0x0001488500000080 0x1000 0x2000 0) =
    some (.clPut ⟨0x00, 0x01, 0x48, 2, 0x500000080, 0x1000, 0x2000, 0⟩) := rfl

/-- 16: `mm` of tiles 16, 0 and 32 with WAIT 0x80, SIGNAL 1. -/
theorem test_decode_mm : decodeCmd (Cmd.ofWords 0x800120100202F248 0 0 0) =
    some (.mm ⟨0x80, 0x01, 0x20, 0, 0x100202F248, 0, 0, 0⟩) := rfl

/-- 15, R257: the fields of the worked `cp.ld`: TILE 0, GFD 2, TR 1, CV 2, RND 0, SEED 0; PITCH 80, ROWSV 20, COLSV 40, SCALE
0x7D. -/
theorem test_fields_cpLd :
    let c := Cmd.ofWords 0x000101802C000000 0x1000 0x7D00280014000050 0
    (tileOf c, gfdOf c, trOf c, cvOf c, rndOf c, seedOf c) = (0, 2, true, 2, 0, 0) ∧
      ((tensorOf c).pitch, (tensorOf c).rows, (tensorOf c).cols, scaleOf c) = (80, 20, 40, 0x7D) := by decide

/-- 16, R254: the tiles of the worked `mm`: TA 16, TB 0, TC 32, sixteen products with steps of 1. -/
theorem test_fields_mm :
    let c := Cmd.ofWords 0x800120100202F248 0 0 0
    (productsOf c).head? = some (16, 0, 32) ∧ (productsOf c).length = 16 ∧ (productsOf c)[15]? = some (31, 15, 47) := by decide

/-! ## Words that are no instruction, by the reasons of R88 -/

/-- R69, R88: VER 3 and VER 2. -/
theorem test_refused_ver : decodeWord false 0xC210030102000300 = .error 0x01 ∧ decodeWord false 0x8210030102000300 = .error 0x02 :=
  ⟨rfl, rfl⟩

/-- R86, R88: a reserved major opcode. -/
theorem test_refused_opcode : decodeWord false 0x00FF000000000000 = .error 0x03 := rfl

/-- R86, R88: `fetch` in a strand, and a vector word in the access stream. -/
theorem test_refused_stream : decodeWord false 0x00C4011100000000 = .error 0x04 ∧ decodeWord true 0x0056427900000000 = .error 0x04 :=
  ⟨rfl, rfl⟩

/-- R141: an FN of OP 0x10 that the table does not list. -/
theorem test_refused_fn : decodeWord false 0x0210030102000308 = .error 0x05 := rfl

/-- R138: TYPE 0xD. -/
theorem test_refused_type : decodeWord false 0x0210030102000D00 = .error 0x06 := rfl

/-- R141: a field that `add` does not use. -/
theorem test_refused_reserved : decodeWord false 0x0210030102010300 = .error 0x07 := rfl

/-- R137: a vector register named by `add`. -/
theorem test_refused_view : decodeWord false 0x0210430102000300 = .error 0x08 := rfl

/-- R159: `crs` on FLAGS (0x05), and a control register that does not exist. -/
theorem test_refused_cr : decodeWord false 0x0001000105000002 = .error 0x09 ∧ decodeWord false 0x00010200FF000000 = .error 0x09 :=
  ⟨rfl, rfl⟩

/-! ## Ill-formed terms, one for each check -/

/-- `add.s32 s3, s1, s2`. -/
def reg : RegW := ⟨⟨false, false, 1, false⟩, 0x10, 3, 1, 2, 0, 0, false, 3, 0, 0⟩

theorem test_wf_add : (Instr.add reg).wf false = true ∧ (Instr.add reg).wf true = true := ⟨rfl, rfl⟩
theorem test_ill_op : (Instr.add { reg with op := 0x11 }).wf false = false := rfl
theorem test_ill_fn : (Instr.add { reg with fn := 1 }).wf false = false := rfl
theorem test_ill_type : (Instr.add { reg with ty := 9 }).wf false = false := rfl
theorem test_ill_c : (Instr.add { reg with c := 1 }).wf false = false := rfl
theorem test_ill_fdn : (Instr.add { reg with fdn := 1 }).wf false = false := rfl
theorem test_ill_view : (Instr.add { reg with a := 0x41 }).wf false = false := rfl
theorem test_ill_pred_number : (Instr.cmpEq { reg with op := 0x16, d := 8 }).wf false = false := rfl
theorem test_ill_access_sync : (Instr.add { reg with mods := ⟨false, true, 0, false⟩ }).wf true = false := rfl
theorem test_ill_vector_queue : (Instr.vadd { reg with op := 0x50, d := 0x40, a := 0x7C, b := 0x41 }).wf false = false := rfl
theorem test_ill_slot : (Instr.sigGet { reg with op := 0xF4, a := 0, b := 0, c := 64, ty := 0 }).wf false = false := rfl

/-- The zero fields of a word of class Mem, with D, BASE and SPACE 1 to be named. -/
def mem : MemW := ⟨⟨false, false, 0, false⟩, 0xB0, 1, 2, 1, 0, 0, 0, false, 6⟩

theorem test_wf_ld : (Instr.ld mem).wf false = true := rfl
theorem test_ill_space : (Instr.ld { mem with space := 5 }).wf false = false := rfl
theorem test_ill_scope : (Instr.ld { mem with scope := 1 }).wf false = false := rfl
theorem test_ill_group : (Instr.vld { mem with op := 0xB2, d := 0x78, fn := 2 }).wf false = false := rfl
theorem test_ill_strand_fetch : (Instr.fetch { mem with op := 0xC4, fn := 0 }).wf false = false := rfl
theorem test_ill_shift : (Instr.shli ⟨⟨false, false, 0, false⟩, 0x24, 1, 1, 64⟩).wf false = false := rfl
theorem test_ill_leax : (Instr.leax ⟨⟨false, false, 0, false⟩, 0x31, 1, 1, 0x41⟩).wf false = false := rfl
theorem test_ill_movi : (Instr.movi ⟨⟨false, false, 0, false⟩, 0x27, 1, 1, 0⟩).wf false = false := rfl
theorem test_ill_branch : (Instr.b ⟨⟨false, false, 0, false⟩, 0x40, 0, 1, 0, 0, 1⟩).wf false = false := rfl
theorem test_ill_jump : (Instr.jr ⟨⟨false, false, 0, false⟩, 0x43, 0, 1, 0, 0, 1⟩).wf false = false := rfl
theorem test_ill_waitSig : (Instr.waitSig ⟨⟨false, false, 0, false⟩, 0x48, 0, 0, 0⟩).wf false = false := rfl
theorem test_ill_waitQ : (Instr.waitQ ⟨⟨false, false, 0, false⟩, 0x48, 0, 2, 3⟩).wf false = false := rfl
theorem test_ill_enq : (Instr.enq ⟨⟨false, false, 0, false⟩, 0xF0, 16, 3, 0, 0⟩).wf false = false := rfl
theorem test_ill_enq_reserved : (Instr.enq ⟨⟨false, false, 0, false⟩, 0xF0, 16, 0, 1, 0⟩).wf false = false := rfl
theorem test_ill_crs_flags : (Instr.crs ⟨⟨false, false, 0, false⟩, 1, 0, 1, 5, 0, 2⟩).wf false = false := rfl
theorem test_ill_tret : (Instr.tret ⟨⟨false, false, 0, false⟩, 3, 0, 0, 0, 1, 0⟩).wf false = false := rfl
theorem test_wf_cmdNop : (Instr.cmdNop ⟨0x92, 0x45, 0, 0, 0, 0, 0, 0⟩).wf false = true := rfl
theorem test_ill_cmd_code : (Instr.cmdNop ⟨0, 0, 1, 0, 0, 0, 0, 0⟩).wf false = false := rfl
theorem test_ill_cmd_len : (Instr.cpZero ⟨0, 0, 4, 1, 0, 0, 0, 0⟩).wf false = false := rfl
theorem test_ill_cmd_beyond : (Instr.cmdNop ⟨0, 0, 0, 0, 0, 1, 0, 0⟩).wf false = false := rfl

/-! ## The machine of the witnesses -/

/-- A team with every view at its largest, one granule of each window, a tile entry and a trap entry point. -/
def team : Team := { loadedTeam with wbg := 1, abg := 1, cbg := 1, spg := 1, ntiles := 8, trapEnt := 0x5000, pri := 1 }

/-- A machine with that team as team 0, whose stream k presents a word. -/
def machine (t : Team) (k : Nat) : State :=
  { State.reset with
    hbm := loadTables [], cur := .strand 0 k, teams := [(0, t)], contexts := [(0, loadedContext)] }

/-- The place of stream k. -/
def here (t : Team) (k : Nat) : Here := { s := machine t k, h := 0, k := k, t := t }

/-- The conditions of `Here.Ready` on that machine, as a Bool. -/
def readyB (t : Team) (k : Nat) (m : Mods) (u : Uses) : Bool :=
  decide (k ≤ 4) && ((machine t k).check89 t k m u).isNone && (decide (k < 4) || !(machine t k).interlocked t u) && !(t.wake 0 (t.touched u)).2

theorem ready {t : Team} {k : Nat} {m : Mods} {u : Uses} (h : readyB t k m u = true) : (here t k).Ready m u := by
  simp only [readyB, Bool.and_eq_true, Bool.or_eq_true, decide_eq_true_eq, Bool.not_eq_true', Option.isNone_iff_eq_none] at h
  exact ⟨rfl, rfl, h.1.1.1, h.1.1.2, fun h4 => h.1.2.resolve_left (Nat.not_lt.mpr h4), h.2⟩

/-- The conditions of `Here.TakesTraps`. -/
theorem takes {y : Here} {t : Team} {k : Nat} (e : y = here t k) (h : k < 4 ∧ (t.strand k).inh = false ∧ t.trapEnt ≠ 0) :
    y.TakesTraps := by
  subst e; exact ⟨h.1, rfl, h.2.1, h.2.2⟩

/-- An access that answers with one place. -/
def isFrame (r : Res) (pa n : Nat) : Bool :=
  match r with
  | .ok (.frame p) m => p == pa && m == n
  | _ => false

theorem frame {r : Res × State} {pa n : Nat} (h : isFrame r.1 pa n = true) : r = (.ok (.frame pa) n, r.2) := by
  obtain ⟨x, s⟩ := r
  match x, h with
  | .ok (.frame p) m, h =>
    simp only [isFrame, Bool.and_eq_true, beq_iff_eq] at h
    obtain ⟨rfl, rfl⟩ := h
    rfl

/-! ## One step -/

/-- R142: `add.s32` of 0x7FFFFFFF and 1 wraps to the sign-extended 0x80000000, and `adds.s32` stays at 0x7FFFFFFF with ISAT. -/
theorem test_add_wraps :
    let t := { team with regs := Mem.write (Mem.write [] 8 0x7FFFFFFF 8) 16 1 8 }
    (match execAdd reg (machine t 0) with
      | .next s => (s.team? 0).map fun u => (u.strand 0).flights.map fun f => (f.land, f.data, f.flags)
      | _ => none) = some [(2, 0xFFFFFFFF80000000, 0)] ∧
    (match execAdds { reg with fn := 2 } (machine t 0) with
      | .next s => (s.team? 0).map fun u => (u.strand 0).flights.map fun f => (f.land, f.data, f.flags)
      | _ => none) = some [(2, 0x7FFFFFFF, 0x80)] := by decide

/-- R150: `callr s1, s1` goes to the old s1 and links the next word. -/
theorem test_callr_old_value :
    let t := { team with regs := Mem.write [] 8 0x4100 8 }
    (match execCallr ⟨⟨false, false, 0, false⟩, 0x43, 1, 1, 0, 1, 0⟩ (machine t 0) with
      | .next s => (s.team? 0).map fun u => ((u.strand 0).pc, (u.strand 0).flights.map fun f => f.data)
      | _ => none) = some (0x4100, [0x4008]) := by decide

/-- R165: an unassigned word at 0x4000 goes to the trap entry point with CODE 1, its reason, INH, the word and its address. -/
theorem test_illegal_trap :
    (match execIllegalInstruction 0x00FF000000000000 3 (machine team 0) with
      | .next s => (s.team? 0).map fun u => ((u.strand 0).pc, (u.strand 0).cause, (u.strand 0).info, (u.strand 0).trappc)
      | _ => none) = some (0x5000, 0x40000301, 0x00FF000000000000, 0x4000) := by decide

/-- A load from reset with a word placed: `movi s1, −1` as the first instruction (log entry 3). -/
theorem test_first_word :
    (match step (State.reset.withFetchWord 64 0x00270100FFFFFFFF) with
      | .next s => (s.team? 0).map fun u => (u.strand 0).flights.map fun f => f.data
      | _ => none) = some [0xFFFFFFFFFFFFFFFF] := by decide

end Sys2Proof.Tests
end

