-- ==== Sys2Proof/Tests/Commands.lean ====
section
/-! SUPPORT. Witnesses: for the statements about engine commands, a concrete engine and command that meet each clause's hypotheses
together. Each theorem is named after its statement. -/

set_option maxRecDepth 8000
set_option exponentiation.threshold 600

namespace Sys2Proof.Tests

open Sys2Proof Sys2Proof.Machine

/-- Tile 0 in CB and tile 1 in WB, two rows of two BF16 elements each. -/
def tiles : List Tile :=
  [{ st := .ready, buf := 2, skew := false, off := 0, rows := 2, cols := 2, fd := 1, gen := 0 },
   { st := .ready, buf := 0, skew := false, off := 0, rows := 2, cols := 2, fd := 1, gen := 0 }]

/-- FD1 is BF16, FD2 an unscaled narrow format of 4 bits. -/
def fds : Vector Word 16 := ((Vector.replicate 16 0).set 1 3).set 2 0x151

/-- A command that stands started with the source bytes `fetched`. -/
def progOf (c : Cmd) (fetched : List Seg) : Prog := { cmd := c, fds := fds, tiles := tiles, fetched := fetched }

def engTeam (q : Nat) (p : Prog) : Team := ({ team with tiles := tiles, fds := fds } : Team).setQueue q { prog := some p }

/-- The engine of queue q of the test team with that command. -/
def eng (q : Nat) (p : Prog) : Eng :=
  { s := { machine (engTeam q p) 0 with cur := .engine 0 q }, h := 0, q := q, t := engTeam q p, x := (engTeam q p).queue q, p := p }

theorem performs (q : Nat) (p : Prog) (hq : q < 3) (h : p.phase = .started) : (eng q p).Performs p.cmd := by
  match q, hq with
  | 0, _ | 1, _ | 2, _ => exact ⟨rfl, rfl, rfl, rfl, rfl, h⟩

theorem present {e : Eng} {ns : List Nat}
    (h : (ns.all fun n => match e.p.tiles[n]? with
      | some x => (e.t.tileMissing x (vget e.p.fds x.fd 0)).isNone
      | none => true) = true) : e.TilesPresent ns := by
  intro n hn x hx
  have := List.all_eq_true.mp h n hn
  rw [hx] at this
  exact Option.isNone_iff_eq_none.mp this

/-- A command with its CMD, body and words 1 to 3. -/
def cmd (code : BitVec 8) (body : BitVec 38) (w1 w2 w3 : Word) : Cmd := ⟨0, 0, code, 0, body, w1, w2, w3⟩

theorem clear {q : Nat} {p : Prog} {code : BitVec 8} (hq : q < 3) (h : p.cmd.cmd = code)
    (hp : p.out = [] ∧ p.reds = [] ∧ p.asked = [] ∧ p.awaits = 0 ∧ p.work = 0 ∧ p.noise = none) :
    (eng q p).Clear p.cmd code := by
  match q, hq with
  | 0, h3 | 1, h3 | 2, h3 => exact ⟨h, ⟨h3, rfl, rfl, rfl⟩, hp, fun w hw => absurd hw List.not_mem_nil⟩

/-- The test team with the word at the head of queue 0, a `chain` of some commands from 0x8000. -/
def chainTeam (left : Nat) (cur : Option Cmd) (prog : Option Prog) : Team :=
  ({ team with tiles := tiles, fds := fds } : Team).setQueue 0
    { cmds := [⟨0, Vector.replicate 3 0, cmd 0xF2 0 0 0 0⟩], prog := prog,
      chain := some { left := left, addr := 0x8000, index := 0, cur := cur } }

/-- `seal` of one page that the tables map, and of one that they do not map; `qfence` at a wide scope. -/
theorem meets_QueueCommands :
    (∀ code ∈ ([0, 0xF0, 0xF1, 0xF2] : List (BitVec 8)),
      (eng 0 (progOf (cmd code 0x400 0 0 0) [])).Performs (cmd code 0x400 0 0 0) ∧
      (eng 0 (progOf (cmd code 0x400 0 0 0) [])).Clear (cmd code 0x400 0 0 0) code) ∧
    ((eng 0 (progOf (cmd 0xF1 0x400 0 0 0) [])).MayRelease (cmdScope (cmd 0xF1 0x400 0 0 0)) ∧
      (eng 0 (progOf (cmd 0xF1 0x400 0 0 0) [])).s.scopeWide team (cmdScope (cmd 0xF1 0x400 0 0 0)) = true) ∧
    (let t := chainTeam 2 none none
     let s := machine t 0
     ∃ x l ch pa n s1, s.team? 0 = some t ∧ t.mayStart 0 = true ∧ (t.queue 0).cmds = x :: l ∧ (t.queue 0).chain = some ch ∧
       ch.cur = none ∧ ch.got = [] ∧ ch.asked = [] ∧ (t.queue 0).refused = false ∧ (t.queue 0).serial = none ∧
       s.resolve t.ctx (dieOf t.core) (s.aperturesOf t) (canon ch.addr) 8 .read
         { src := 2, handle := 0, qseq := qseqOf 0 (t.queue 0).headSeq } = (.ok (.frame pa) n, s1) ∧
       s1.team? 0 = some t ∧ n = 8 ∧ s1.lineBad pa 8 = false ∧ bits (s1.readAt t.core pa 8) 38 2 = 0) ∧
    (let c := cmd 0 0 0 0 0
     let t := chainTeam 2 (some c) none
     let s := machine t 0
     let t1 := t.setQueue 0 { t.queue 0 with checked := true }
     ∃ x l ch, s.team? 0 = some t ∧ t.mayStart 0 = true ∧ (t.queue 0).cmds = x :: l ∧ (t.queue 0).chain = some ch ∧
       ch.cur = some c ∧ ((t.queue 0).checked = false → leastFault (s.headFaults t 0 c) = none) ∧ c.cmd ≠ 0xF2 ∧
       ((t.queue 0).waited = false → t1.waitHolds x c = true) ∧ t1.fenceHolds x c = true ∧ t1.tilesFree (tileUse c) = true ∧
       leastFault (namedFaults t1 c ++ (s.setTeam 0 t1).startFaults t1 c) = none ∧ c.cmd ≠ 0x21) ∧
    (∀ left ∈ [1, 2],
      let p := { progOf (cmd 0 0 0 0 0) [] with phase := .performed }
      let t := chainTeam left none (some p)
      let s := machine t 0
      ∃ x l ch, s.team? 0 = some t ∧ (t.queue 0).prog = some p ∧ s.atEnd t 0 p = true ∧ hasFollowOn p.cmd = false ∧
        (t.queue 0).cmds = x :: l ∧ (t.queue 0).chain = some ch ∧ p.cmd.signal = 0 ∧ ch.left = left) ∧
    (∀ p ∈ ([(0x8000, none), (0x40000000, some 0)] : List (Word × Option Nat)),
      let c := cmd 0xF3 0 p.1 4096 0
      let e := eng 0 (progOf c [])
      let pages := (List.range (c.w2.toNat / 4096)).map fun i => bits c.w1.toNat 0 56 + 4096 * i
      e.Performs c ∧ (pages.all (fun va => e.s.sealable e.t va) = p.2.isNone) ∧
        (pages.findIdx? fun va => !e.s.sealable e.t va) = p.2) ∧
    (let c := cmd 0xF3 0 0x8000 4096 0
     let e := eng 0 (progOf c [])
     ∃ level a, c.w2 = 4096 ∧ e.s.sealable e.t (bits c.w1.toNat 0 56) = true ∧ viewsOf e.aps (bits c.w1.toNat 0 56) = [] ∧
       e.p.out = [] ∧ e.s.pteAt e.t.ctx (bits c.w1.toNat 0 56) = some (level, a) ∧
       (level = 0 → pteCont (Mem.readN e.s.hbm a 8) = false) ∧ e.s.hbm.wf = true) := by
  refine ⟨fun code hc => ⟨performs 0 _ (by decide) rfl, clear (by decide) rfl ⟨rfl, rfl, rfl, rfl, rfl, rfl⟩⟩, ⟨?_, by decide⟩,
    ⟨_, _, _, 0x8000, 8, _, rfl, rfl, rfl, rfl, rfl, rfl, rfl, rfl, rfl, frame (by decide +kernel), by decide +kernel, rfl,
      by decide +kernel, by decide +kernel⟩,
    ⟨_, _, _, rfl, rfl, rfl, rfl, rfl, by decide +kernel, by decide, by decide +kernel, by decide +kernel, by decide +kernel,
      by decide +kernel, by decide⟩,
    fun left hl => ⟨_, _, _, rfl, rfl, by revert left; decide +kernel, by decide, rfl, rfl, rfl, rfl⟩,
    fun p hp => ⟨performs 0 _ (by decide) rfl, ?_, ?_⟩,
    ⟨2, 0x3000, by decide, by decide +kernel, by decide +kernel, rfl, by decide +kernel, by decide, by decide +kernel⟩⟩
  · intro _; decide +kernel
  all_goals (revert p; decide +kernel)

/-- A copy's command: TILE 0, GFD 1, a tensor of two rows of two at 0x8000 with PITCH 4. -/
def copy (code : BitVec 8) : Cmd := cmd code 0x10000000 0x8000 0x0000020002000004 0

/-- A store of tile 0 through FD2 as codes of its format: one element of 4 bits in each row, so the last byte keeps bits. -/
def narrow : Cmd := cmd 0x02 0x22000000 0x8000 0x0000010002000004 0

theorem meets_TileCommands :
    (let c := cmd 0x03 0x0 1 0 0
     (eng 0 (progOf c [])).Performs c ∧ (eng 0 (progOf c [])).TilesPresent [bits c.w1.toNat 0 6, tileOf c]) ∧
    (∀ p ∈ ([([{ va := 0x8000, len := 8, mask := ones 8 }], true), ([], false)] : List (List Seg × Bool)),
      let c := copy 0x01
      let e := eng 0 (progOf c p.1)
      let need := readSegs e.aps ((List.range (e.reach c).1).flatMap fun r =>
        (tensorOf c).rowRanges (e.gfd c) r (e.reach c).2)
      e.Performs c ∧ trOf c = false ∧ need.length = 1 ∧ e.p.ready need = p.2 ∧ e.TilesPresent [tileOf c]) ∧
    (let c := copy 0x02
     let e := eng 0 (progOf c [])
     e.Performs c ∧ cvOf c = 0 ∧ (e.gfd c).kind ≠ 1 ∧ e.p.ready (e.storeNeed c) = true ∧ e.TilesPresent [tileOf c]) ∧
    (∀ p ∈ ([([{ va := 0x8000, len := 5, mask := 0b10001 }], true), ([], false)] : List (List Seg × Bool)),
      let e := eng 0 (progOf narrow p.1)
      e.Performs narrow ∧ (e.storeNeed narrow).length = 1 ∧ e.p.ready (e.storeNeed narrow) = p.2 ∧
        e.TilesPresent [tileOf narrow]) := by
  refine ⟨⟨performs 0 _ (by decide) rfl, present (by decide +kernel)⟩,
    fun p hp => ⟨performs 0 _ (by decide) rfl, by decide, ?_, ?_, present ?_⟩,
    ⟨performs 0 _ (by decide) rfl, by decide, by decide +kernel, by decide +kernel, present (by decide +kernel)⟩,
    fun p hp => ⟨performs 0 _ (by decide) rfl, ?_, ?_, present ?_⟩⟩
  all_goals (revert p; decide +kernel)

/-- A re-encoding of tile 1 of Sextant entry 0, whose pool of two tiles of 4 KiB starts at 0x8000. -/
def renc : Cmd := cmd 0x05 0 0x9000 0 0
def rencEng (cl : List (Nat × Claim)) : Eng :=
  let e := eng 0 (progOf renc [])
  { e with s := { e.s with
      claims := cl,
      contexts := [(0, { loadedContext with sextant := { entries := [(0, { mode := 1, rbase := 0x8000, rtiles := 2 })] } })] } }

theorem meets_ReduceAndReencode :
    ((eng 0 (progOf (copy 0x06) [])).Performs (copy 0x06) ∧ (eng 0 (progOf (copy 0x06) [])).TilesPresent [tileOf (copy 0x06)]) ∧
    (let e := rencEng []
     e.Performs renc ∧ e.s.claimOf (.renc e.h e.q) = none ∧ e.s.rencTile e.t renc = some (0, 1)) ∧
    (let x : Claim := { by_ := .renc 0 0, ctx := 0, core := 0, entry := 0, tile := 1, gen := 1, st := .ended 1 }
     let e := rencEng [(7, x)]
     e.Performs renc ∧ e.s.claimOf (.renc e.h e.q) = some (7, x) ∧ x.st = .ended 1) :=
  ⟨⟨performs 0 _ (by decide) rfl, present (by decide +kernel)⟩, ⟨⟨rfl, rfl, rfl, rfl, rfl, rfl⟩, by decide, by decide +kernel⟩,
    ⟨rfl, rfl, rfl, rfl, rfl, rfl⟩, by decide, rfl⟩

/-- One product of tile 0 by tile 1 into tile 0, by two banks. -/
def mat (code : BitVec 8) : Cmd := cmd code 0x04000000 0 0 0
def matEng (code : BitVec 8) (ph : Phase) : Eng :=
  let p := { progOf (mat code) [] with phase := ph }
  let t := { engTeam 1 p with joined := 2 }
  { s := { machine t 0 with cur := .engine 0 1 }, h := 0, q := 1, t := t, x := t.queue 1, p := p }

theorem meets_MatrixCommands :
    (∀ code ∈ ([0x20, 0x21] : List (BitVec 8)),
      let e := matEng code .started
      let k := mat code
      let r := (e.productRows k).foldl (fun (acc : Eng × Nat × Nat) p =>
        let x := acc.1.product k p.1 p.2
        (x.1, acc.2.1 ||| x.2.1, acc.2.2 + x.2.2)) (e, 0, 0)
      e.Performs k ∧ e.TilesPresent (tileUse k).reads ∧ e.p.out = [] ∧ e.Clear k code ∧ r.2.2 ≤ 1024 * e.t.joined) ∧
    (∀ code ∈ ([0x20, 0x21] : List (BitVec 8)),
      let e := matEng code .performed
      e.s.cur = .engine 0 1 ∧ e.s.team? 0 = some e.t ∧ (e.t.queue 1).prog = some e.p ∧ e.p.phase = .performed ∧ e.p.out = []) := by
  refine ⟨fun code hc => ⟨⟨rfl, rfl, rfl, rfl, rfl, rfl⟩, present ?_, rfl,
    ⟨rfl, ⟨(by decide : 1 < 3), rfl, rfl, rfl⟩, ⟨rfl, rfl, rfl, rfl, rfl, rfl⟩, fun w hw => absurd hw List.not_mem_nil⟩, ?_⟩,
    fun code hc => ⟨rfl, rfl, rfl, rfl, rfl⟩⟩
  all_goals (revert code; decide +kernel)

/-- A copy of 8 bytes and of two FP32 values, at scope 4, which reaches other C-dies. -/
def put (code : BitVec 8) (n : BitVec 38) (w3 : Word) : Cmd := cmd code (0x400000000 + n) 0x8000 0x9000 w3
def putEng (c : Cmd) : Eng := eng 2 (progOf c [{ va := 0x8000, len := 8, mask := ones 8 }])

theorem meets_CollectivePuts :
    (let c := put 0x48 8 0
     let e := putEng c
     e.Performs c ∧ e.p.ready (readSegs e.aps [(c.w1.toNat, fld c 0 32)]) = true ∧ e.MayRelease (cmdScope c) ∧
       e.s.scopeWide e.t (cmdScope c) = true) ∧
    (let c := put 0x49 2 0x107391
     let e := putEng c
     e.Performs c ∧ e.p.ready (readSegs e.aps [(c.w1.toNat, 4 * fld c 0 32)]) = true ∧ e.MayRelease (cmdScope c)) :=
  ⟨⟨performs 2 (progOf (put 0x48 8 0) _) (by decide) rfl, by decide +kernel, fun _ => by decide +kernel, by decide +kernel⟩,
    performs 2 (progOf (put 0x49 2 0x107391) _) (by decide) rfl, by decide +kernel, fun _ => by decide +kernel⟩

/-- A reduction of two BF16 values over two ranks, both teams of this package, at rank 0: its descriptor (two ranks, the table at
0x9000), its table and its source values have arrived, and so have rank 1's values. -/
def ared : Cmd := cmd 0x40 0x100000002 0x8000 0xA000 0xB000
def aredDesc : Nat := 0x9000 * 2 ^ 128 + 2 ^ 8
def aredTable : Nat := 2 ^ 43 + 2 ^ 107
def aredProg : Prog :=
  { progOf ared [{ va := 0x8000, len := 64, data := aredDesc, mask := ones 64 }, { va := 0x9000, len := 16, data := aredTable, mask := ones 16 },
      { va := 0xA000, len := 4, mask := ones 4 }]
    with reached := [1] }
def aredDigest : Nat := Config.collectiveDigest (toBytes 64 aredDesc ++ toBytes 16 aredTable)
def aredEng : Eng :=
  let e := eng 2 aredProg
  { e with s := { e.s with collectives := [{ h := 0, rank := 1, sender := 0, data := List.replicate 8 0, digest := aredDigest }] } }

theorem meets_CollectiveReductions :
    let e := aredEng
    let c := ared
    let d : ClDesc := { op := 0, ranks := 2, mine := 0, wfd := none, stat := 0, table := 0x9000 }
    let n := fld c 0 32
    let lfd := fdOf (vget e.p.fds (fld c 32 4) 0).toNat
    let v := e.p.bytes c.w1.toNat 64
    let tab := e.p.bytes d.table (8 * d.ranks)
    let ranks := (elems 8 d.ranks tab).map rankOf
    e.Performs c ∧ c.w1.toNat % 64 = 0 ∧ clDescOf v = some d ∧ (c.cmd = 0x41 → n % d.ranks = 0) ∧
      e.p.ready (readSegs e.aps [(c.w1.toNat, 64)]) = true ∧
      e.p.ready (readSegs e.aps [(d.table, 8 * d.ranks), (c.w2.toNat, lfd.rowBytes n)]) = true ∧
      (∀ x ∈ elems 8 d.ranks tab, rankBad e.t.ctx x = false) ∧
      ∀ q < d.ranks, q ≠ d.mine → e.p.reached.contains q = true ∧
        ∃ x, e.s.arrived e.h q ranks = some x ∧
          x.digest = Config.collectiveDigest (toBytes 64 (v - bits v 16 8 * 2 ^ 16) ++ toBytes (8 * d.ranks) tab) ∧
          x.data.length = 4 * n := by
  refine ⟨⟨rfl, rfl, rfl, rfl, rfl, rfl⟩, by decide, by rfl, by decide, by decide +kernel, by decide +kernel, by decide +kernel, ?_⟩
  intro q hq h0
  match q, hq, h0 with
  | 1, _, _ => exact ⟨by decide, _, rfl, congrArg Config.collectiveDigest (by decide +kernel), by decide⟩

end Sys2Proof.Tests
end

