-- ==== Sys2Proof/Tests/Events.lean ====
section
/-! SUPPORT. Witnesses: for the statements about the events of streams, homes, promotion, engines and the map unit, a concrete
machine that meets each clause's hypotheses together. Each theorem is named after its statement. -/

set_option maxRecDepth 8000
set_option exponentiation.threshold 4200

namespace Sys2Proof.Tests

open Sys2Proof Sys2Proof.Machine

/-- The test machine with team 0 changed. -/
def st (t : Team) : State := machine t 0

/-- The test team with strand 0 changed. -/
def strand0 (f : Strand → Strand) : Team := team.setStrand 0 (f (team.strand 0))

/-- A result due at strand time 2. -/
def due (d : Dest) : Flight := { land := 2, dest := d, len := 8, data := 5, mask := 0xFF, flags := 0x80, src := none, readAt := 0 }

theorem meets_ResultsLand :
    (∀ p ∈ ([(Dest.reg 8, 8), (Dest.reg 8, 8)] : List (Dest × Nat)),
      let t := strand0 fun d => { d with time := 2, flights := [due p.1, { due p.1 with land := 3 }] }
      (st t).team? 0 = some t ∧ (t.strand 0).exiting = false ∧
        ((t.strand 0).flights.filter fun f => f.land ≤ (t.strand 0).time) = [due p.1] ∧ (due p.1).dest = .reg p.2 ∧ t.regs.wf = true) ∧
    (let t := { strand0 (fun d => { d with time := 2, flights := [due (.push 1 4)] }) with
        sqs := Vector.replicate 2 [({ num := 4, data := none } : SqEntry)] }
     (st t).team? 0 = some t ∧ (t.strand 0).exiting = false ∧
       ((t.strand 0).flights.filter fun f => f.land ≤ (t.strand 0).time) = [due (.push 1 4)] ∧ (vget t.sqs 1 []).length = 1) ∧
    (∀ n ∈ [0, 1, 7],
      let t := strand0 fun d => { d with time := 2, flights := [due (.pred n)] }
      (st t).team? 0 = some t ∧ (t.strand 0).exiting = false ∧
        ((t.strand 0).flights.filter fun f => f.land ≤ (t.strand 0).time) = [due (.pred n)]) ∧
    (let l := [due (.reg 8), due (.reg 12), due (.pred 1), due (.pred 0), due (.pred 1)]
     let t := strand0 fun d => { d with time := 2, flights := l }
     (st t).team? 0 = some t ∧ (t.strand 0).exiting = false ∧
       ((t.strand 0).flights.filter fun f => f.land ≤ (t.strand 0).time) = l ∧ (∀ f ∈ l, f.land = (t.strand 0).time) ∧
       (∀ f ∈ l, ∀ n fn, f.dest ≠ .creg n fn) ∧ t.regs.wf = true) ∧
    (let t := (strand0 fun d => { d with exiting := true }).setStrand 1 { live := true }
     (st t).team? 0 = some t ∧ (t.strand 0).exiting = true ∧ (t.strand 0).live = true ∧ (t.strand 1).live = true ∧
       (t.strand 0).flights = []) := by
  refine ⟨fun p hp => ⟨rfl, ?_⟩, ⟨rfl, by decide +kernel⟩, fun n hn => ⟨rfl, ?_⟩,
    ⟨rfl, by decide +kernel, by decide +kernel, by decide +kernel, by simp [due], rfl⟩, rfl, ?_⟩
  · revert p; decide +kernel
  · revert n; decide +kernel
  · decide +kernel

theorem meets_LocalStoresPerform :
    ∀ b ∈ [Buf.wb, .ab, .cb, .sp], ∀ l ∈ [[], [0], [1]],
      let e : Spill := { perform := 3, buf := b, off := 16, len := 8, data := 7, mask := 0xFF, logs := l }
      let t := strand0 fun d => { d with time := 3, spills := [e, { e with perform := 4 }] }
      (st t).team? 0 = some t ∧ ((t.strand 0).spills.filter fun e => e.perform ≤ (t.strand 0).time) = [e] ∧
        (∀ f ∈ (t.strand 0).flights, f.src = none) ∧ (t.window e.buf).wf = true ∧ e.logs.length ≤ 1 ∧ t.toLog = [] := by
  intro b hb l hl
  refine ⟨rfl, ?_⟩
  revert b l; decide +kernel

/-- The test team with a wait of strand 0. -/
def waiting (w : Wait) : Team := strand0 fun d => { d with wait := w }

theorem meets_ConditionsMet :
    (let t := { waiting (.sig 5) with slots := team.slots.set 5 1 }
     (st t).team? 0 = some t ∧ t.resident = true ∧ (t.strand 0).wait = .sig 5 ∧ 0 < t.available 5 ∧ t.eventNow 0 = none) ∧
    (let e : AsyncEvent := { trap := { code := 0x12 }, queue := none }
     let t := { waiting (.sig 5) with events := [e] }
     (st t).team? 0 = some t ∧ t.eventNow 0 = some e) ∧
    (∀ w ∈ [Wait.tile 0, .queue 0 0, .fence 1 0, .drained 0 0, .mer 0, .yield, .answered 3], (waiting w).eventNow 0 = none) ∧
    (let t := { waiting (.tile 0) with
        tiles := [{ st := .filling, was := .ready, buf := 0, skew := false, off := 0, rows := 1, cols := 1, fd := 0, gen := 0 }] }
     (t.strand 0).wait = .tile 0 ∧ ∃ x, t.tile? 0 = some x ∧ x.was = .ready) ∧
    (∀ q ∈ [0, 1, 2], ((waiting (.queue q 0)).queue q).uncompleted 0 = 0) ∧
    (0 : BitVec 64).toNat ≤ (st (waiting (.mer 0))).meridian ∧ ((waiting .yield).strand 0).wait = .yield ∧
    ((waiting (.answered 3)).strand 0).wait = .answered 3 ∧ (st (waiting (.fence 1 0))).fencePassed (waiting (.fence 1 0)) 0 1 0 = true ∧
    (st (waiting (.drained 0 0))).drainPassed (waiting (.drained 0 0)) 0 0 = true ∧
    (let t := { waiting (.popEmpty 0 1) with lqs := Vector.replicate 4 [{ tag := 0, data := some 5, lines := [] }] }
     t.resident = true ∧ 1 ≤ filled (vget t.lqs 0 [])) ∧
    (vget (waiting (.pushFull 1)).sqs 1 []).length < 16 ∧ (∀ i < 16, (waiting (.fe 0 16 false)).isFull (0 / 8 + i) = false) ∧
    (team.setStrand 0 {}).liveStrands = [] ∧
    ({ waiting (.granule 0) with present := [0] } : Team).present.contains 0 = true ∧
    (∀ q ∈ [0, 1, 2], ((waiting (.queueRoom q)).queue q).room = true) ∧
    (let t := { waiting (.barrier 3 1 1) with bars := team.bars.set 3 1, barScope := team.barScope.set 3 1 }
     (st t).team? 0 = some t ∧ t.resident = true ∧ (t.strand 0).wait = .barrier 3 1 1 ∧ (st t).phaseComplete t 3 1 1 = true) := by
  refine ⟨⟨rfl, by decide +kernel⟩, ⟨rfl, by decide +kernel⟩, by decide +kernel, ⟨rfl, _, rfl, rfl⟩, by decide +kernel, by decide +kernel, rfl, rfl, by decide +kernel, by decide +kernel,
    by decide +kernel, by decide +kernel, by decide +kernel, by decide +kernel, by decide, by decide +kernel, rfl, rfl, rfl, by decide +kernel⟩

/-- A second team, of another slot, on the same core, that presents a word on strand 0. -/
def other : Team := { team with handle := 1, place := .slot 1 }

theorem meets_StreamInterruptions :
    (let t := { waiting .yield with events := [{ trap := { code := 0x12 }, queue := none }] }
     (st t).team? 0 = some t ∧ t.eventStrand = some 0 ∧ t.resident = true ∧ t.halted = false ∧ (t.strand 0).exiting = false ∧
       (t.strand 0).wait.takesEvent = true ∧ t.trapEnt ≠ 0) ∧
    (let t := { (waiting (.queueRoom 1)).setQueue 1 { stopped := true } with events := [{ trap := { code := 0x12 }, queue := none }] }
     (st t).team? 0 = some t ∧ t.eventStrand = some 0 ∧ t.resident = true ∧ t.halted = false ∧ (t.strand 0).exiting = false ∧
       (t.strand 0).wait = .queueRoom 1 ∧ (t.queue 1).stopped = true ∧ t.trapEnt ≠ 0) ∧
    (let s := { st team with
        teams := [(0, team), (1, other)], cores := [(0, { clusters := Vector.replicate 4 { handle := some 0, ran := 4, next := 1 } })] }
     (vget (s.core 0).clusters 0 {}).handle = some 0 ∧ s.team? 0 = some team ∧ team.syncReady = false ∧
       4 ≤ (vget (s.core 0).clusters 0 {}).ran ∧ (s.passOrder 0 0).head? = some other ∧ other.handle ≠ team.handle) ∧
    (let s := { st team with cycle := 4096 }
     let x := (vget team.grans 15 {}).seen s.cycle
     s.team? 0 = some team ∧ team.resident = true ∧ 15 < team.regsz ∧ x.drowsy = false ∧ x.touched + 4096 ≤ s.cycle) ∧
    (let f : Flight := { due (.reg 8) with src := some { buf := .sp, off := 8, width := 4, sx := false } }
     let t := strand0 fun d => { d with time := 2, flights := [f] }
     (st t).team? 0 = some t ∧ t.halted = false ∧ (t.strand 0).inh = false ∧ t.trapEnt ≠ 0 ∧ f ∈ (t.strand 0).flights ∧
       f.land ≤ (t.strand 0).time ∧ f.readAt = 0 ∧ (st t).retired.contains (.core t.core) = false) := by
  refine ⟨⟨rfl, by decide +kernel⟩, ⟨rfl, by decide +kernel⟩,
    ⟨by decide +kernel, rfl, by decide +kernel, by decide +kernel, by decide +kernel, by decide⟩, ⟨rfl, by decide +kernel⟩,
    rfl, by decide +kernel⟩

/-! ## Replies, writes at their home, promotion -/

/-- Request 7 of strand 0: a load whose value goes to s1. -/
def req (i : Instr) (rs : ReqState) : Req :=
  { tag := 7, h := 0, k := 0, pc := 0x4000, word := i, ea := 0, x := 0, cmp := 0, handle := 0, mask := 0xFF, dest := 8, st := rs }

/-- The test machine with that request. -/
def withReq (t : Team) (q : Req) : State := { st t with reqs := [(7, q)] }

theorem meets_RepliesLand :
    (let q := req (.ld mem) (.value 5 0)
     let t := waiting (.reply 7)
     let s := withReq t q
     s.team? 0 = some t ∧ t.resident = true ∧ (t.strand 0).wait = .reply 7 ∧ s.req? 7 = some q ∧ q.isFetch = false ∧
       isFetch q.word = false ∧ q.st = .value 5 0 ∧ t.regs.wf = true) ∧
    (let q := { req (.fetch mem) (.value 5 0) with k := 4 }
     let t := { team with lqs := Vector.replicate 4 [{ tag := 7, data := none, lines := [] }] }
     let s := withReq t q
     s.team? 0 = some t ∧ t.resident = true ∧ t.nextReserved 0 = some { tag := 7, data := none, lines := [] } ∧ s.req? 7 = some q ∧
       q.isFetch = false ∧ isFetch q.word = true ∧ (deedOf q.word).acquire = false ∧ q.st = .value 5 0 ∧ (t.strand 4).wait ≠ .reply 7) ∧
    (let q := req (.ld mem) (.message 0)
     let s := withReq team q
     s.req? 7 = some q ∧ q.st = .message 0 ∧ (∀ r, q.word ≠ .drain r) ∧ s.team? q.handle = some team ∧
       q.ea + (deedOf q.word).width ≤ team.windowSize .sp ∧
       team.missing q.ea (deedOf q.word).width ((deedOf q.word).touchMask q.mask) = none ∧
       dieOf (handleCore q.h) = dieOf 0 ∧ (∀ u, s.team? q.h = some u → s.atomicWide u (deedOf q.word) = false) ∧
       (team.resident = true → s.spBanksFree team q (deedOf q.word) = true) ∧
       (team.serve (deedOf q.word) q.ea q.x q.cmp q.mask).isSome = true) ∧
    (let q := { req (.ld mem) (.message 0) with handle := 99 }
     (withReq team q).req? 7 = some q ∧ q.st = .message 0 ∧ (∀ r, q.word ≠ .drain r) ∧ (withReq team q).team? q.handle = none) ∧
    (let q := { req (.ld mem) (.message 0) with ea := 4096 }
     (withReq team q).req? 7 = some q ∧ q.st = .message 0 ∧ (∀ r, q.word ≠ .drain r) ∧ (withReq team q).team? q.handle = some team ∧
       team.windowSize .sp < q.ea + (deedOf q.word).width) ∧
    (∀ g ∈ [0, 99],
      let m : SpMsg := { h := 0, k := 0, tag := 3, target := g, slotAdd := some (9, 1) }
      let s := { st team with cores := [(0, { msgs := [m] })] }
      ((s.core 0).msgs.find? fun m => m.tag = 3) = some m ∧ m.slotAdd = some (9, 1) ∧ (s.team? g).isSome = decide (g = 0) ∧
        s.team? m.h = some team ∧ team.liveStrands ≠ []) := by
  refine ⟨⟨rfl, by decide, rfl, rfl, rfl, rfl, rfl, rfl⟩, ⟨rfl, by decide, by decide +kernel, rfl, rfl, rfl, rfl, rfl, by decide +kernel⟩,
    ⟨rfl, rfl, by simp [req], rfl, by decide +kernel, by decide +kernel, by decide +kernel,
      fun u hu => by cases hu; decide +kernel, fun _ => by decide +kernel, by decide +kernel⟩,
    ⟨rfl, rfl, by simp [req], rfl⟩, ⟨rfl, rfl, by simp [req], rfl, by decide +kernel⟩, fun g hg => ⟨?_, rfl, ?_, rfl, ?_⟩⟩
  all_goals (revert g; decide +kernel)

/-- Write 5 of core 0's path, to the home frame of 0x8000. -/
def write5 : Posted := { num := 5, h := 0, k := 0, ctx := 0, va := 0x8000, len := 8, data := 9, mask := 0xFF, target := .home 0x8000 }

def withPath (e : Posted) : State := { st team with cores := [(0, { path := [e], nextNum := 6 })] }

theorem meets_HomeWrites :
    (let s := withPath write5
     ((s.core 0).path.find? fun e => e.num = 5) = some write5 ∧ s.mayGo 0 write5 = true ∧
       s.partialBad 0x8000 write5.len write5.mask = false ∧ s.hbm.wf = true) ∧
    (0 < 576) ∧
    (let tag : Vector (BitVec 16) 4 := Vector.replicate 4 0
     let e := { write5 with tag := some (0, tag) }
     let s := withPath e
     ((s.core 0).path.find? fun e => e.num = 5) = some e ∧ s.mayGo 0 e = true ∧
       tagReady (s.appliedAt (homeMdie 0x8000)) 0 tag false = true ∧ s.partialBad 0x8000 e.len e.mask = false ∧ s.hbm.wf = true) ∧
    (let m : Marker := { mdie := 7, src := 3, tag := #v[0, 0, 0, 1] }
     let s := { st team with markers := [m] }
     m.src < 4 ∧ m.mdie < 8 ∧ s.markers[0]? = some m ∧ tagReady (s.appliedAt 7) m.src m.tag true = true ∧ s.markerBlocked m = false) ∧
    (let e := { write5 with target := .doorbell 0x100, data := 1 }
     let s := withPath e
     ((s.core 0).path.find? fun e => e.num = 5) = some e ∧ s.mayGo 0 e = true ∧ e.len = 8 ∧ e.mask % 256 = 255 ∧
       (doorbellEvent e.ctx 0x100 (BitVec.ofNat 64 e.data)).isSome = true) := by
  refine ⟨⟨rfl, by decide +kernel⟩, by decide, ⟨rfl, by decide +kernel⟩, by decide +kernel, rfl, by decide +kernel⟩

/-- A log entry of core 0, and the machine with it. -/
def entry1 : LogEntry := { seq := 0, ctx := 0, serial := 0, core1 := false, prom := 0, summary := 1, upto := 0 }
def withLog (c : Core) : State := { st team with cores := [(0, { c with log := [entry1], relCount := 1, nextNum := 6 })] }

theorem meets_PromotionEvents :
    (let q := req (.acqP mem) .promotion
     let s := (withReq team q).logAll
     s.req? 7 = some q ∧ q.st = .promotion ∧ handleCore q.handle = 0 ∧ ((s.core 0).requests.any fun r => r.k < 9 && r.tag = 7) = false ∧
       s.promotedAtOnce 0 q = true ∧
       (let q := { q with word := .acqP { mem with scope := 4 } }
        let s := ({ withLog {} with reqs := [(7, q)] } : State).logAll
        s.req? 7 = some q ∧ ((s.core 0).requests.any fun r => r.k < 9 && r.tag = 7) = false ∧ s.promotedAtOnce 0 q = false)) ∧
    (let s := withLog { requests := [{ h := 0, k := 0, tag := 7, point := 1, level := 1 }] }
     (s.core 0).flush = none ∧ (s.core 0).nextFlush = some (1, 1) ∧ s.leadOk (dieOf 0) = true ∧
       ∀ x ∈ (s.core 0).owed, s.owedStill 0 x = false) ∧
    (∀ l ∈ [1, 2],
      let f : Flush := { level := l, point := 1, phase := .localPart, marks := 1, upto := 6, must := 0, began := 0 }
      (((withLog { flush := some f }).core 0).flush = some f ∧ f.phase = .localPart) ∧
      (((withLog { flush := some { f with phase := .remotePart } }).core 0).flush = some { f with phase := .remotePart } ∧
        ((withLog { flush := some { f with phase := .remotePart } }).core 0).flushed { f with phase := .remotePart } = true)) ∧
    (let f : Flush := { level := 1, point := 1, phase := .remotePart, marks := 1, upto := 6, must := 0, began := 0 }
     let r : PromReq := { h := 0, k := 0, tag := 7, point := 1, level := 1 }
     let s := withLog { flush := some f, requests := [r] }
     r ∈ (s.core 0).requests ∧ s.answeredNow (s.core 0) f r = true) := by
  refine ⟨⟨by rfl, rfl, by decide +kernel, by decide +kernel, by decide +kernel, by rfl, by decide +kernel⟩, by decide +kernel,
    fun l hl => ⟨⟨rfl, rfl⟩, rfl, ?_⟩, by decide +kernel⟩
  revert l; decide +kernel

/-! ## Engine queues and the map unit -/

/-- A `nop` command with WAIT slot 9 and SIGNAL slot 3, at the head of queue q. -/
def nopCmd : Cmd := ⟨9, 3, 0, 0, 0, 0, 0, 0⟩
def nopEntry : QCmd := { seq := 0, recs := Vector.replicate 3 0, cmd := nopCmd }
def nopProg : Prog := { cmd := nopCmd, fds := Vector.replicate 16 0, tiles := [] }

theorem meets_EngineEvents :
    (∀ q < 3,
      let t := { team with slots := team.slots.set 9 1 }.setQueue q { cmds := [nopEntry] }
      let t1 := t.setQueue q { t.queue q with checked := true }
      (st t).team? 0 = some t ∧ (t.queue q).cmds = [nopEntry] ∧ t.mayStart q = true ∧ (t.queue q).chain = none ∧
        ((t.queue q).checked = false → leastFault ((st t).headFaults t q nopCmd) = none) ∧
        ((t.queue q).waited = false → t1.waitHolds nopEntry nopCmd = true) ∧ t1.fenceHolds nopEntry nopCmd = true ∧
        nopCmd.cmd ≠ 0x21 ∧ t1.tilesFree (tileUse nopCmd) = true ∧
        leastFault (namedFaults t1 nopCmd ++ ((st t).setTeam 0 t1).startFaults t1 nopCmd) = none) ∧
    (let c : Cmd := ⟨9, 0, 0xF1, 0, 4, 0, 0, 0⟩
     let e : QCmd := { seq := 0, recs := Vector.replicate 3 1, cmd := c }
     let t := ({ team with slots := team.slots.set 9 1 }.setQueue 0 { cmds := [e] }).setQueue 2 { accept := 1, cmds := [nopEntry] }
     let t1 := t.setQueue 0 { t.queue 0 with checked := true }
     (st t).team? 0 = some t ∧ (t.queue 0).cmds = [e] ∧ t.mayStart 0 = true ∧ (t.queue 0).chain = none ∧
       ((t.queue 0).checked = false → leastFault ((st t).headFaults t 0 c) = none) ∧
       (t.queue 0).waited = false ∧ t1.waitHolds e c = true ∧ t1.fenceHolds e c = false) ∧
    (∀ q < 3,
      let p := { nopProg with phase := .performed }
      let t := team.setQueue q { cmds := [nopEntry], prog := some p }
      (st t).team? 0 = some t ∧ (t.queue q).prog = some p ∧ (st t).atEnd t q p = true ∧ hasFollowOn p.cmd = false ∧
        (t.queue q).chain = none ∧ p.cmd.cmd ≠ 0xF0 ∧ p.noise = none) ∧
    (∀ x ∈ [TileState.empty, .ready],
      let y : Tile := { st := x, buf := 0, skew := false, off := 0, rows := 1, cols := 1, fd := 0, gen := 0, held := true }
      let t := { team with tiles := [y] }
      (st t).team? 0 = some t ∧ t.tiles[0]? = some y ∧ y.held = true ∧ (y.st = .empty ∨ y.st = .ready)) ∧
    ((st team).teamsOf 0 = [team] ∧ (st team).team? team.handle = some team) ∧
    (∀ r ∈ [false, true],
      let f : Fixup := { seg := { va := 0x8000, len := 8 }, seq := 0, write := true, serial := none, refused := r }
      let t := team.setQueue 0 { cmds := [nopEntry], prog := some nopProg, fixups := [f] }
      (st t).team? 0 = some t ∧ (t.queue 0).prog = some nopProg ∧
        ((t.queue 0).fixups.all fun f => !f.refused) = !r ∧
        ((t.queue 0).fixups.find? fun f => f.refused) = if r then some f else none) := by
  refine ⟨fun q hq => ⟨rfl, ?_⟩, ⟨rfl, by decide +kernel⟩, fun q hq => ⟨rfl, ?_⟩, fun x hx => ⟨rfl, rfl, rfl, ?_⟩, ⟨rfl, rfl⟩,
    fun r hr => ⟨rfl, rfl, ?_⟩⟩
  · revert q; decide +kernel
  · revert q; decide +kernel
  · revert x; decide +kernel
  · revert r; decide +kernel

/-- The test team with a map entry over granule 0 of its SP window, at 0x8000, whose fill is in progress. -/
def mapped : Team :=
  { team with maps := [{ wbk := false, tagged := false, sxe := 0, spg0 := 0, ng := 1, va := 0x8000 }], fills := [{ granule := 0 }] }

def isOneFrame (r : Frames) (pa n : Nat) : Bool :=
  match r with
  | .ok [(p, m)] => p == pa && m == n
  | _ => false

theorem oneFrame {r : Frames × State} {pa n : Nat} (h : isOneFrame r.1 pa n = true) : r = (.ok [(pa, n)], r.2) := by
  obtain ⟨x, s⟩ := r
  match x, h with
  | .ok [(p, m)], h =>
    simp only [isOneFrame, Bool.and_eq_true, beq_iff_eq] at h
    obtain ⟨rfl, rfl⟩ := h
    rfl

/-- A claim of tile 0 of Sextant entry 5 for generation 2, by `cp.renc`; the tile's tag, at 0x9000, holds `tag`. -/
def claimOf (x : ClaimState) : Claim := { by_ := .renc 0 0, ctx := 0, core := 0, entry := 5, tile := 0, gen := 2, st := x }
def withClaim (x : ClaimState) (tag : Nat) : State :=
  { st team with
    hbm := Mem.write (loadTables []) 0x9000 tag 8, claims := [(4, claimOf x)],
    contexts := [(0, { loadedContext with sextant := { gen := 2, entries := [(5,
      { mode := 1, tagt := 0x9000, rungs := [3, 0x107391], hists := [{ gfrom := 1, rung := 0 }] })] } })] }

theorem meets_MapUnitEvents :
    (let s := st mapped
     let m : MapEntry := { wbk := false, tagged := false, sxe := 0, spg0 := 0, ng := 1, va := 0x8000 }
     ∃ s1, s.team? 0 = some mapped ∧ (mapped.fills.find? fun f => f.granule = 0) = some { granule := 0 } ∧ mapped.mapOf 0 = some m ∧
       ({ granule := 0 } : Fill).serial = none ∧ ({ granule := 0 } : Fill).got = none ∧
       s.resolve mapped.ctx (dieOf mapped.core) [] (m.granuleVa 0) 4096 .read { src := 3, handle := 0 } = (.ok (.frame 0x8000) 4096, s1) ∧
       m.tagged = false ∧ s1.team? 0 = some mapped ∧ s1.lineBad 0x8000 4096 = false ∧ mapped.sp.wf = true ∧ mapped.fe.wf = true) ∧
    (∀ tag ∈ [5 * 2 ^ 32 + 1, 5 * 2 ^ 32 + 2 ^ 40 + 1],
      let c := claimOf .start
      let s := withClaim .start tag
      ∃ s1, tget s.claims 4 = some c ∧
        s.frames c.ctx (dieOf c.core) .atomic (c.who s) (segmentsOf (c.tagVa s) 8) = (.ok [(0x9000, 8)], s1) ∧
        s1.lineBad 0x9000 8 = false ∧ s1.tileAway c.ctx ((c.sx s).tileVa c.tile) (c.sx s).tsize = false ∧
        c.serial = none ∧ s1.stalled c.core 0x9000 8 = false ∧ s1.pathTouches c.core 0x9000 8 = false ∧ Mem.readN s1.hbm 0x9000 8 = tag ∧ bits tag 32 8 = c.entry ∧ bits tag 51 13 = 0 ∧
        (bit tag 40 = true ∨ bits tag 0 32 ≠ 0 ∧ bits tag 0 32 < c.gen ∧ ((c.sx s).fdAt (bits tag 0 32)).isSome = true ∧
          ((c.sx s).fdAt c.gen).isSome = true)) ∧
    (let c := claimOf .waiting
     let s := withClaim .waiting (5 * 2 ^ 32 + 1)
     tget s.claims 4 = some c ∧ c.st = .waiting ∧ (s.translate c.ctx (dieOf c.core) (c.tagVa s) 8 .read).1 = .frame 0x9000 ∧
       bit (Mem.readN s.hbm 0x9000 8) 40 = false) ∧
    (∀ l ∈ [[], [entry1]],
      let c := { claimOf .written with tagPa := 0x9000 }
      let f : Flush := { level := 1, point := 1, phase := .localPart, marks := 2 ^ 128 - 1, upto := 6, must := 0, began := 0 }
      let s := { withClaim .written (5 * 2 ^ 32 + 2 ^ 40 + 1) with
        claims := [(4, c)], cores := [(0, { log := l, flush := if l = [] then none else some f })] }
      tget s.claims 4 = some c ∧ c.st = .written ∧ c.serial = none ∧ c.orphan = false ∧
        s.partialBad c.tagPa 8 (ones 8) = false ∧ s.stalled c.core c.tagPa 8 = !l.isEmpty ∧ s.claimReady c c.tagPa = true) := by
  refine ⟨⟨_, rfl, by decide, by decide, rfl, rfl, frame (by decide +kernel), rfl, by decide +kernel, by decide +kernel, rfl, rfl⟩, fun tag ht =>
    ⟨_, rfl, oneFrame ?_, ?_, ?_, rfl, ?_, ?_, ?_, ?_, ?_, ?_⟩, ⟨rfl, by rfl, by decide +kernel⟩, fun l hl => ⟨rfl, rfl, rfl, rfl, ?_⟩⟩
  iterate 9 (focus (revert tag; decide +kernel))
  revert l; decide +kernel

end Sys2Proof.Tests
end

