-- ==== Sys2Proof/Tests/System.lean ====
section
/-! SUPPORT. Witnesses: for the statements about launches, teams, contexts, faults, the host, Sextant steps, reductions, the
fabric, management, debugging, the endpoint and the whole machine, a concrete machine that meets each clause's hypotheses
together. Each theorem is named after its statement. -/

set_option maxRecDepth 8000
set_option exponentiation.threshold 4200

namespace Sys2Proof.Tests

open Sys2Proof Sys2Proof.Machine

/-! ## Launches -/

/-- A packet of KIND 2 with one field of width 1 whose task record is at 0x18000, of SCOPE 4 (R343). -/
def packet : Nat := 0x10102 + 0x18000 * 2 ^ 64 + 4 * 2 ^ 288

/-- Page tables at 0x10000 to 0x12FFF that map the first GiB onto itself; launch queue 0's entry at 0x14000 (R340); the task
record at 0x18000, with EXT 0 = 1 (R347); and its team image at 0x1C000, with ENT0 = 0x4000 and REGSZ 1 (R348). -/
def launchMem : Mem :=
  Mem.write (Mem.write (Mem.write (Mem.write (Mem.write (Mem.write (Mem.write [] 0x10000 0x11001 8) 0x11000 0x12001 8) 0x12000 0xF 8)
    0x14000 (0x50000 + 0x84 * 2 ^ 64) 32) 0x18000 (0x1C000 + 2 ^ 64) 64) 0x1C000 0x4000 8) 0x1C040 1 1

def launchCtx (x : Option Nat) : Context :=
  { ptroot := 0x10000, lqtab := 0x14000, scopetab := 0, aptab := 0x4000, launchQs := Vector.replicate 16 { packet := x } }
def launchMachine (x : Option Nat) : State := { st team with hbm := launchMem, contexts := [(0, launchCtx x)] }

def isBytes (r : Rd) (v : Nat) : Bool :=
  match r with
  | .bytes w => w == v
  | _ => false

theorem bytesRead {r : Rd × State} {v : Nat} (h : isBytes r.1 v = true) : r = (.bytes v, r.2) := by
  obtain ⟨x, s⟩ := r
  match x, h with
  | .bytes w, h => simp only [isBytes, beq_iff_eq] at h; subst h; rfl

def isAccept : Verdict → Bool
  | .accept .. => true
  | _ => false

def isRefuse (v : Verdict) (d : Nat) : Bool :=
  match v with
  | .refuse (e, none) => e == d
  | _ => false

theorem accepted {r : Verdict × State} (h : isAccept r.1 = true) : ∃ t c a k s1, r = (.accept t c a k, s1) := by
  obtain ⟨x, s⟩ := r
  match x, h with
  | .accept t c a k, _ => exact ⟨t, c, a, k, s, rfl⟩

theorem refused {r : Verdict × State} {d : Nat} (h : isRefuse r.1 d = true) : r = (.refuse (d, none), r.2) := by
  obtain ⟨x, s⟩ := r
  match x, h with
  | .refuse (e, none), h => simp only [isRefuse, beq_iff_eq] at h; subst h; rfl

/-- The image and the task of that launch, and a launch of one task in a given state. -/
def image : TeamImage where
  ents := [0x4000, 0, 0, 0, 0]
  trapEnt := 0
  views := [0, 0, 0, 0]
  regsz := 1
  wbg := 0
  abg := 0
  cbg := 0
  spg := 0
  ntiles := 0
  binds := []
  tiles := []
def task : Task := { image := image, exts := [1], perm := [0], gb := 32, heights := [], maps := [], preds := [] }
def readyTask : Task := { task with st := .ready, gen := 1, extents := [1] }
def launchOf (t : Task) : Launch :=
  { ctx := 0, queue := 0, index := 0, pri := 0, ovl := false, nf := 1, fws := [1], dims := [0, 0, 0, 0], seed := 0, scope := 4,
    notifyS := 0, notifyH := 0, compl := 0, arg := 0, cores := [0], scopes := [], apertures := [], tasks := [t] }
def withLaunch (l : Launch) : State := { launchMachine none with launches := [(3, l)], nextLaunch := 4 }

/-- A team of that launch that is over. -/
def overTeam : Team :=
  { team with
    launch := 3, ending := true, flushed := .done, accStopped := true, strands := {},
    q0 := { closed := true }, q1 := { closed := true }, q2 := { closed := true } }

theorem meets_LaunchAndTeamEvents :
    (∀ q < 16, let c := { launchCtx none with st := .saved }
      ({ st team with contexts := [(0, c)] } : State).ctx? 0 = some c ∧ c.st ≠ .running ∧ q < 16) ∧
    (let s := launchMachine none
     let x := 0x50000 + 0x84 * 2 ^ 64
     ∃ s1, s.ctx? 0 = some (launchCtx none) ∧ (launchCtx none).st = .running ∧ ((launchCtx none).lq 0).bells = [] ∧
       ((launchCtx none).lq 0).wait.serial = none ∧
       (s.modLq 0 0 fun l => { l with bells := [1] }).launchRead 0 0 (canon ((launchCtx none).lqtab + 32 * 0)) 32 = (.bytes x, s1) ∧
       (∃ c1, s1.ctx? 0 = some c1) ∧ bit x 71 = true ∧ lqEntryBad x = false ∧
       (1 + 2 ^ 32 - bytesAt x 12 4) % 2 ^ 32 ≤ 2 ^ bits x 64 4) ∧
    (let c := launchCtx (some packet)
     let s := launchMachine (some packet)
     s.ctx? 0 = some c ∧ c.st = .running ∧ (c.lq 0).wait.serial = none ∧ (c.lq 0).packet = some packet ∧
       ∃ t e a k s1, s.checkLaunch 0 0 c packet = (.accept t e a k, s1)) ∧
    (let c := launchCtx (some 0)
     let s := launchMachine (some 0)
     s.ctx? 0 = some c ∧ c.st = .running ∧ (c.lq 0).wait.serial = none ∧ (c.lq 0).packet = some 0 ∧
       ∃ s1, s.checkLaunch 0 0 c 0 = (.refuse (1, none), s1)) ∧
    (let l := launchOf task
     let s := withLaunch l
     let c := launchCtx none
     s.launch? 3 = some l ∧ l.tasks[0]? = some task ∧ s.ctx? l.ctx = some c ∧ l.fate = .running ∧ task.st = .waiting ∧
       (∀ i ∈ task.preds, ∃ p, l.tasks[i]? = some p ∧ p.st = .done) ∧ l.afterStep = false ∧ l.afterDigest = false ∧
       task.shapesAt c.sextant c.sextant.gen = some [] ∧
       (∀ e ∈ (task.exts.map (extentOf l.dims [])).zip l.fws, e.1 ≤ 2 ^ e.2) ∧
       { task with extents := task.exts.map (extentOf l.dims []) }.total ≠ 0) ∧
    (let l := launchOf readyTask
     let s := { withLaunch l with teams := [] }
     s.itemFor 0 3 = some (l, readyTask, 0, 0) ∧ roomFor (s.teamsOf 0) readyTask.image.need = some (0, 0) ∧
       s.ctx? l.ctx = some (launchCtx none) ∧ (tget (launchCtx none).serials 0).getD 0 < 65536 ∧
       (∀ k ≤ 4, (BitVec.ofNat 64 (readyTask.image.ents.getD k 0)).toNat % 8 = 0) ∧
       (BitVec.ofNat 64 readyTask.image.trapEnt).toNat % 8 = 0) ∧
    (let l := launchOf readyTask
     let s := { withLaunch l with teams := [(0, overTeam)] }
     s.team? 0 = some overTeam ∧ overTeam.handle = 0 ∧ overTeam.isOver = true ∧ overTeam.halted = false ∧ overTeam.ending = true ∧ overTeam.wbLeft = [] ∧
       overTeam.toWriteBack = [] ∧ overTeam.flushed = .done ∧ s.writesDone overTeam = true ∧ s.leadOk (dieOf overTeam.core) = true ∧ s.launch? overTeam.launch = some l ∧ l.tasks[overTeam.task]? = some readyTask) ∧
    (let l := { launchOf readyTask with fate := .refused 9 0 }
     let s := { withLaunch l with teams := [(0, { team with launch := 3 })] }
     s.launch? 3 = some l ∧ l.fate ≠ .running ∧ (∃ e ∈ s.teams, e.2.launch = 3)) ∧
    (let l := { launchOf readyTask with fate := .refused 9 0 }
     let s := { withLaunch l with teams := [] }
     s.launch? 3 = some l ∧ l.fate ≠ .running ∧ (∀ e ∈ s.teams, e.2.launch ≠ 3) ∧ l.compl = 0 ∧ l.wait.serial = none) ∧
    (let l := launchOf readyTask
     let s := { withLaunch l with cycle := 65536 }
     s.itemFor 0 3 = some (l, readyTask, 0, 0) ∧ l.waitsFrom readyTask + 65536 * (l.boost 0 0 + 1) ≤ s.cycle ∧ l.pri + l.boost 0 0 < 3) := by
  refine ⟨fun q hq => ⟨rfl, by decide, hq⟩,
    ⟨_, rfl, rfl, rfl, rfl, bytesRead (by decide +kernel), Option.isSome_iff_exists.mp (by decide +kernel), by decide +kernel, by decide +kernel, by decide +kernel⟩,
    ⟨rfl, rfl, rfl, rfl, accepted (by decide +kernel)⟩, ⟨rfl, rfl, rfl, rfl, _, refused (d := 1) (by decide +kernel)⟩,
    ⟨rfl, rfl, rfl, rfl, rfl, nofun, rfl, rfl, by decide +kernel, by decide +kernel, by decide +kernel⟩,
    ⟨by decide +kernel, by decide +kernel, rfl, by decide +kernel, by decide +kernel, by decide⟩,
    ⟨rfl, rfl, by decide +kernel, rfl, rfl, rfl, by decide +kernel, rfl, by decide +kernel, by decide +kernel, rfl, rfl⟩,
    ⟨rfl, by decide, _, List.mem_singleton.mpr rfl, rfl⟩, ⟨rfl, by decide, fun _ h => absurd h List.not_mem_nil, rfl, rfl⟩,
    ⟨by decide +kernel, by decide +kernel, by decide +kernel⟩⟩


/-- R344: a work identifier of two fields of width 8. -/
theorem meets_WorkIdentifierFields :
    let l := { launchOf task with fws := [8, 8], arg := 9 }
    let t := { task with perm := [1, 0], extents := [2, 4] }
    let i := fun k => (((levelIndices t.perm t.extents 5).find? fun e => e.1 = k).map (·.2)).getD 0
    t.perm.Nodup ∧ (∀ k ∈ t.perm, k < l.fws.length) ∧ l.fws.sum ≤ 64 ∧ ∀ k < l.fws.length, i k < 2 ^ l.fws.getD k 0 := by
  decide +kernel

/-! ## Swaps and contexts -/

/-- The test machine with two save areas at 0x100000. -/
def saveCtx : Context := { loadedContext with savepool := 0x100000, savecnt := 2 }
def withSave (t : Team) (c : Context) : State := { st t with contexts := [(0, c)] }

/-- A task whose image takes the whole SP window of a core. -/
def bigTask : Task := { readyTask with image := { image with spg := 128 } }

theorem meets_SwapAndContextEvents :
    (let t := { team with failed := 5000 }
     let s := { withSave t saveCtx with launches := [(3, launchOf bigTask)] }
     s.team? 0 = some t ∧ t.saving = false ∧ s.swapChoice t.core = some 0) ∧
    (let t := { team with saving := true, flushed := .done }
     let s := withSave t saveCtx
     s.team? 0 = some t ∧ t.handle = 0 ∧ s.ctx? t.ctx = some saveCtx ∧ saveCtx.st = .running ∧ t.saving = true ∧ t.halted = false ∧
       t.resident = true ∧ (∀ k ≤ 4, (t.strand k).mayStop = true) ∧ (∀ q < 3, (t.queue q).prog = none ∧ (t.queue q).chain = none) ∧
       t.flushed = .done ∧ s.freeArea t.ctx = some 0) ∧
    (let t := { team with place := .swapped 0 }
     let s := withSave t saveCtx
     s.team? 0 = some t ∧ t.place = .swapped 0 ∧ t.requeued = none ∧ t.halted = false ∧ s.teamReady t = true) ∧
    (let t := { team with place := .swapped 0, requeued := some 0 }
     let s := withSave t saveCtx
     s.team? 0 = some t ∧ s.ctx? t.ctx = some saveCtx ∧ t.area? = some 0 ∧ s.nextWork t.core = some (.team 0) ∧
       roomFor (s.teamsOf t.core) t.need = some (0, 0) ∧ s.areaBad t (Mem.slice s.hbm (saveCtx.area 0) areaSize) = false) ∧
    ((let s := withSave team saveCtx
      s.ctx? 0 = some saveCtx ∧ saveCtx.st = .running ∧ (s.handlesOf 0 Team.resident).length ≤ (s.freeAreas 0).length) ∧
     (let c := { saveCtx with savecnt := 0 }
      let s := withSave team c
      s.ctx? 0 = some c ∧ c.st = .running ∧ (s.freeAreas 0).length < (s.handlesOf 0 Team.resident).length) ∧
     (let c := { saveCtx with st := .saved }
      (withSave team c).ctx? 0 = some c ∧ c.st ≠ .running)) ∧
    (let t := { team with place := .saved 0 }
     let c := { saveCtx with st := .saving }
     (withSave t c).ctx? 0 = some c ∧ c.st = .saving ∧ (withSave t c).handlesOf 0 Team.resident = []) ∧
    (let c := { saveCtx with st := .saved }
     (withSave team c).ctx? 0 = some c ∧ c.st = .saved ∧ c.faults = [] ∧
       (withSave team saveCtx).ctx? 0 = some saveCtx ∧ saveCtx.st ≠ .saved) ∧
    (let c := { saveCtx with st := .restoring }
     (withSave team c).ctx? 0 = some c ∧ c.st = .restoring ∧ (withSave team c).handlesOf 0 Team.isSaved = []) ∧
    (withSave team saveCtx).ctx? 0 = some saveCtx ∧
    (∀ b ∈ [true, false],
      let op : CtxOp := { ctx := 0, create := b }
      let s := st team
      ({ s with pkg := { s.pkg with busy := some op } } : State).pkg.busy = some op ∧ op.create = b) := by
  refine ⟨⟨rfl, by decide +kernel⟩, ⟨rfl, rfl, rfl, rfl, rfl, rfl, by decide +kernel, by decide +kernel, by decide +kernel, rfl, by decide +kernel⟩,
    ⟨rfl, rfl, rfl, rfl, by decide +kernel⟩, ⟨rfl, rfl, by decide +kernel, by decide +kernel, by decide +kernel, by decide +kernel⟩,
    ⟨⟨rfl, rfl, by decide +kernel⟩, ⟨rfl, rfl, by decide +kernel⟩, rfl, by decide⟩, ⟨rfl, rfl, by decide +kernel⟩, ⟨rfl, rfl, rfl, rfl, by decide⟩,
    ⟨rfl, rfl, by decide +kernel⟩, rfl, fun b _ => ⟨rfl, rfl⟩⟩

/-! ## Faults and the host -/

/-- The machine of the tests with context 0 changed. -/
def withCtx (c : Context) : State := { st team with contexts := [(0, c)] }

/-- A full error table of M-die 0. -/
def fullErrors : List ErrEntry := (List.range 1024).map fun i => { mdie := 0, line := 4 * i + 4, ctx := 0 }

/-- A reply of ACTION 1 to record 3 of context 0, at 0x50030 (R397). -/
def replyCtx : Context :=
  { loadedContext with
    fqbase := 0x40000, frbase := 0x50000,
    faults := [{ serial := 3, vpn := 8, kind := 0, reason := 0, dies := [0] }] }

def runningState : State := { st team with binnacle := { (st team).binnacle with stage := .running } }

/-- The record of that context, and the machine with its reply entry and a request of stream k that waits on it. -/
def record3 : FaultRec := { serial := 3, vpn := 8, kind := 0, reason := 0, dies := [0] }
def faulted (k : Nat) : Req := { req (.ld mem) (.faultPath 3) with k := k }
def replied (k action : Nat) : State :=
  { withCtx replyCtx with hbm := Mem.write (loadTables []) 0x50030 (3 + action * 2 ^ 32) 16, reqs := [(7, faulted k)] }

/-- A pending digest whose control block is at 0x60000, with DGMAX `n`. -/
def digestCtx : Context := { loadedContext with digest := true, dgcb := 0x60000 }
def digestState (n : Nat) : State := { withCtx digestCtx with hbm := Mem.write (loadTables []) 0x60000 (0x70000 + n * 2 ^ 64) 16 }

def okValue (r : UnitRes) : Nat :=
  match r with
  | .ok v => v
  | _ => 0

theorem unit_is {r : UnitRes × State} {v : Nat} (h : r.1 = .ok v) : r = (.ok v, r.2) := by
  obtain ⟨x, s⟩ := r
  simp only [Prod.mk.injEq, and_true]
  exact h

theorem unit_ok {r : UnitRes × State} (h : r.1 = .ok (okValue r.1)) : r = (.ok (okValue r.1), r.2) := by
  obtain ⟨x, s⟩ := r
  simp only [Prod.mk.injEq, and_true]
  exact h

def leavesOf (r : Leaves) : Option (List (List Byte)) :=
  match r with
  | .ok l => some l
  | _ => none

theorem leaves_ok {r : Leaves × State} {l : List (List Byte)} (h : leavesOf r.1 = some l) : r = (.ok l, r.2) := by
  obtain ⟨x, s⟩ := r
  match x, h with
  | .ok m, h => simp only [leavesOf, Option.some.injEq] at h; subst h; rfl

theorem meets_FaultAndHostEvents :
    (let s := st team
     s.ctx? 0 = some loadedContext ∧ s.walk 0 0x8000 = .leaf 2 0xF ∧
       (∀ e ∈ loadedContext.tlb, e.die = 0 → e.covers 0x8000 = true → Walk.leaf e.level e.pte.toNat = .leaf 2 0xF)) ∧
    ((withCtx replyCtx).ctx? 0 = some replyCtx ∧ replyCtx.fqbase ≠ 0 ∧ (withCtx replyCtx).hbm.wf = true) ∧
    (∀ k ∈ [0, 4], ∀ action ∈ [1, 2],
     let q := faulted k
     let s := replied k action
     let x := Mem.readN s.hbm (bits replyCtx.frbase.toNat 12 40 * 4096 + 16 * 3) 16
     s.ctx? 0 = some replyCtx ∧ replyCtx.frbase ≠ 0 ∧ replyCtx.st ≠ .saved ∧
       (replyCtx.faults.find? fun f => f.serial = bits x 0 32) = some record3 ∧
       3 % 4096 = (3 : Word).toNat ∧ bits x 32 8 = action ∧ bits x 40 6 = 0 ∧ bits x 46 82 = 0 ∧ s.hbm.wf = true ∧ s.req? 7 = some q ∧
       q.st = .faultPath 3 ∧ handleCtx q.h = 0 ∧ s.team? q.h = some team ∧ q.k = k ∧
       (∀ e ∈ s.reqs, e.2.h = q.h → e.2.k = q.k → e = (7, q)) ∧ ∀ e ∈ s.reqs, e.1 = 7 → e.2 = q) ∧
    (replied 0 2).OnlyWords 0 3 ∧
    (∀ e ∈ [((2 ^ 32 : Nat), 1), (3, 0)],
     let s := replied 0 e.2
     let x := Mem.readN s.hbm (bits replyCtx.frbase.toNat 12 40 * 4096 + 16 * e.1) 16
     s.ctx? 0 = some replyCtx ∧ s.hbm.wf = true ∧ (BitVec.ofNat 64 e.1).toNat = e.1 ∧
       (2 ^ 32 ≤ e.1 ∨ e.1 < 4096 ∧ replyCtx.st ≠ .saved ∧ bits x 32 8 ≠ 1 ∧ bits x 32 8 ≠ 2)) ∧
    (let c := { loadedContext with sdva := 0x8000, sdcnt := 1 }
     let c' := { c with sdlo := bits c.sdva.toNat 12 44, sdn := c.sdcnt.toNat }
     let p : Piece := { off := 0, va := 0x8010, len := 8, loc := .frame 0x8010 }
     let q := { req (.ld mem) .start with locs := some [p] }
     let r := { req (.ld mem) (.remote 3) with locs := some [{ p with loc := .peer 5 0x8010 7 false }, p] }
     let s := { withCtx c with reqs := [(7, q), (8, r)] }
     s.ctx? 0 = some c ∧ c.sdbusy = false ∧ s.req? 7 = some q ∧ q.st = .start ∧ handleCtx q.h = 0 ∧ q.k < 4 ∧
       q.inShootdown c' 0 = true ∧ s.req? 8 = some r ∧ r.st = .remote 3 ∧ handleCtx r.h = 0 ∧ r.k < 4 ∧ r.inShootdown c' 1 = true) ∧
    (let c := { loadedContext with sdbusy := true }
     (withCtx c).ctx? 0 = some c ∧ c.sdbusy = true ∧ c.sdpeers = [] ∧ c.sdacks = 0 ∧ (withCtx c).shotClear 0 c = true ∧
       ∀ e ∈ (withCtx c).reqs, e.2.holdsShootdown e.1 0 c = true → (withCtx c).behindFault e.2 = false) ∧
    (∀ l ∈ [[], fullErrors],
      let s := { st team with errors := l }
      (∀ e ∈ s.errors, e.line ≠ 0x80 / 128) ∧ s.retired.contains (.frame (0x80 / 4096 * 4096)) = false ∧
        ((s.errors.filter fun e => e.mdie = homeMdie 0x80 && e.tabled).length < 1024 ∨
          1024 ≤ (s.errors.filter fun e => e.mdie = homeMdie 0x80 && e.tabled).length)) ∧
    (∀ l ∈ [[], [0, 0, 0]],
      let s := { st team with errCounts := [(.core 5, l)] }
      s.retired.contains (.core 5) = false ∧ decide (3 ≤ (s.eventsOf (.core 5)).length) = decide (l ≠ [])) ∧
    (∀ n ∈ [0, 1],
     let s := digestState n
     let x := 0x70000 + n * 2 ^ 64
     s.ctx? 0 = some digestCtx ∧ digestCtx.digest = true ∧ digestCtx.st = .running ∧ digestCtx.digestPut = none ∧
       (∀ e ∈ s.launches, e.2.ctx = 0 → e.2.afterDigest = false → e.2.fate ≠ .running) ∧
       ∃ s1, s.digestRead 0 digestCtx.dgcb 64 = (.ok x, s1) ∧ s1.trackedPages 0 = [] ∧ bytesAt x 8 4 = n ∧
         bytesAt x 0 8 % 4096 = 0 ∧ bits x 161 7 = 0 ∧ bytesAt x 21 43 = 0 ∧
         (∃ s2 w, s1.digestWrite 0 (canon (digestCtx.dgcb + 20)) [BitVec.ofNat 8 (byteOf x 20 ||| 1)] = (.ok w, s2)) ∧
         ∃ s2 s3 s4 l u w, s1.leafDigests 0 [] = (.ok l, s2) ∧ s2.digestWrite 0 (bytesAt x 0 8) (digestTable [] l) = (.ok u, s3) ∧
           s3.digestWrite 0 (canon (digestCtx.dgcb + 12))
             (toBytes 4 0 ++ toBytes 4 (bytesAt x 16 4 + 1) ++ [BitVec.ofNat 8 (byteOf x 20 &&& 0xFE)]) = (.ok w, s4)) ∧
    (runningState.binnacle.stage = .running ∧ 0x8000 + 8 ≤ deviceBase ∧ runningState.hbm.wf = true ∧
      runningState.ctx? 0 = some loadedContext ∧ 0x6000 % 8 = 0 ∧ blockHolds 0x6000 = false) := by
  refine ⟨⟨rfl, by decide +kernel, by decide⟩, ⟨rfl, by decide, rfl⟩, fun k hk a ha => ?_,
    ⟨nofun, ?_, nofun, fun c hc => ?_⟩, fun e he => ?_,
    ⟨rfl, rfl, rfl, rfl, by decide, by decide, by decide +kernel, rfl, rfl, by decide, by decide, by decide +kernel⟩,
    ⟨rfl, rfl, rfl, rfl, by decide +kernel, fun _ h => absurd h List.not_mem_nil⟩, fun l hl => ⟨?_, rfl, Nat.lt_or_ge ..⟩, fun l hl => ⟨rfl, ?_⟩,
    fun n hn => ⟨rfl, rfl, rfl, rfl, fun _ h => absurd h List.not_mem_nil, ?_⟩, rfl, by decide, rfl, rfl, by decide, by decide⟩
  · simp only [List.mem_cons, List.not_mem_nil, or_false] at hk ha
    obtain rfl | rfl := hk <;> obtain rfl | rfl := ha <;>
    exact ⟨rfl, by decide, by decide, by decide +kernel, by decide, by decide +kernel, by decide +kernel, by decide +kernel, by decide +kernel,
      rfl, rfl, by decide, rfl, rfl, fun e he _ _ => List.mem_singleton.mp he, fun e he _ => by rw [List.mem_singleton.mp he]⟩
  · intro e he _
    obtain rfl := List.mem_singleton.mp he
    exact ⟨by decide +kernel, by decide, nofun⟩
  · cases hc; exact nofun
  · revert e; decide +kernel
  · revert l; decide +kernel
  · revert l; decide +kernel
  · simp only [List.mem_cons, List.not_mem_nil, or_false] at hn
    obtain rfl | rfl := hn <;>
    exact ⟨_, unit_is (by decide +kernel), by decide +kernel, by decide +kernel, by decide +kernel, by decide +kernel, by decide +kernel,
      ⟨_, _, unit_ok (by decide +kernel)⟩,
      ⟨_, _, _, _, _, _, leaves_ok (l := []) (by decide +kernel), unit_ok (by decide +kernel), unit_ok (by decide +kernel)⟩⟩

/-! ## Sextant steps and reductions -/

/-- An update of region 1 at SEQ 4 of the FP32 element at 0x8000, and a marker of it. -/
def update : RedMsg :=
  { mdie := 0, ctx := 0, region := 1, seq := 4, h := 0, back := none, pa := some 0x8000, fd := 2, op := 0, val := .fin false 1 0 }
def marker (e : BitVec 16) : RedMsg := { update with pa := none, seq := e }
def refusedUpdate : RedMsg := { update with refusedAt := some 0 }
def region (exp : BitVec 16) : RedRegion := { mdie := 0, ctx := 0, region := 1, exp := exp }
def withRed (m : RedMsg) (exp : BitVec 16) : State := { st team with redMsgs := [(2, m)], redRegions := [region exp] }

/-- A write of package 1, at the end of a course of no further hop to this package. -/
def fabricWrite : Packet :=
  { course := 0, hop := 1, isReply := false, src := 1, ctx := 0, flow := 0, seq := 0, hd := 7, ref := 0, entered := [0],
    payload := .write 0x8000 [5] }

/-- That update with every shared slot of its M-die taken. -/
def crowded : State :=
  { withRed update 4 with redMsgs := (2, update) :: (List.replicate Config.redSlots ()).map fun _ => (3, { update with held := true }) }

theorem crowded_full : Config.redSlots ≤ crowded.redHeld 0 := by
  simp [State.redHeld, crowded, update]

theorem meets_SextantAndReductionEvents :
    ((st team).ctx? 0 = some loadedContext ∧ loadedContext.sextant.writes = []) ∧
    (let r : StepReq := { eval := true, reload := false }
     let c := { loadedContext with sextant := { pend := some r } }
     let s := withCtx c
     s.ctx? 0 = some c ∧ c.sextant.writes = [] ∧ c.sextant.pend = some r ∧ c.sextant.applied = false ∧ c.st = .running ∧
       c.sextant.wait.serial = none ∧ r.reload = false ∧ (∀ e ∈ s.launches, e.2.ctx = 0 → e.2.afterStep = false → e.2.fate ≠ .running)) ∧
    (let e : SxEntry := { nr := 3, curr := 1, hi := 1, last := { n := 1, nz := 1, qerr := 5 } }
     e.curr ≤ e.nr ∧ (e.turn true).2 = true ∧ (e.turn false).2 = false) ∧
    (let s := withRed update 4
     tget s.redMsgs 2 = some update ∧ update.pa = some 0x8000 ∧ update.mdie = 0 ∧ update.refusedAt = none ∧ update.back = none ∧
       s.redRegion update = some (region 4) ∧ update.seq = (region 4).exp ∧
       s.pathTouches (handleCore update.h) 0x8000 (kindBytes (fdOf update.fd.toNat).kind) = false ∧
       s.lineBad 0x8000 (kindBytes (fdOf update.fd.toNat).kind) = false ∧ s.migrating 0x8000 = false ∧ s.hbm.wf = true) ∧
    (let s := withRed update 3
     tget s.redMsgs 2 = some update ∧ update.held = false ∧ s.redRegion update = some (region 3) ∧
       (update.seq - (region 3).exp).toNat ≠ 0 ∧ (update.seq - (region 3).exp).toNat < 32768) ∧
    (let s := crowded
     tget s.redMsgs 2 = some update ∧ s.redRegion update = some (region 4) ∧ update.seq = (region 4).exp ∧
       Config.redSlots ≤ s.redHeld 0) ∧
    (∀ b ∈ [none, some fabricWrite], ∀ pa ∈ [some 0x8000, none],
     let m := { update with back := b, pa := pa }
     let s := withRed m 5
     tget s.redMsgs 2 = some m ∧ m.pa = pa ∧ m.mdie = 0 ∧ m.refusedAt = none ∧ s.redRegion m = some (region 5) ∧
       32768 ≤ (m.seq - (region 5).exp).toNat ∧ m.back = b) ∧
    (let m := marker 4
     let s := withRed m 4
     tget s.redMsgs 2 = some m ∧ m.pa = none ∧ m.mdie = 0 ∧ m.refusedAt = none ∧ s.redRegion m = some (region 4) ∧ m.seq = (region 4).exp ∧
       s.updatesLeft m = false) ∧
    (let m := marker 0xFFFF
     let s := withRed m 0xFFFF
     tget s.redMsgs 2 = some m ∧ m.pa = none ∧ m.mdie = 0 ∧ m.refusedAt = none ∧ s.redRegion m = some (region 0xFFFF) ∧ m.seq = (region 0xFFFF).exp ∧
       s.updatesLeft m = false) ∧
    (tget (withRed refusedUpdate 4).redMsgs 2 = some refusedUpdate ∧ refusedUpdate.mdie = 0 ∧ refusedUpdate.refusedAt.isSome = true) ∧
    ((st team).team? 0 = some team ∧ 2 ^ 32 - 1 < 2 ^ 32) := by
  refine ⟨by decide +kernel, by decide +kernel, by decide +kernel, by decide +kernel, by decide +kernel, ⟨rfl, rfl, rfl, crowded_full⟩,
    by decide +kernel, by decide +kernel, by decide +kernel, by decide +kernel, rfl, by decide⟩

/-! ## The fabric -/

/-- The chart of two packages, 0 (this one) and 1 (the root), joined at port 0. -/
def chart2 : Chart :=
  { cgen := 1, nmax := 2, self := 0, deg := 1, mroot := 1, nodes := [(0, [⟨1, 0, 1⟩]), (1, [⟨0, 0, 1⟩])] }

def page8 : Export := { pbase := 0x8000, plen := 0x1000, srclo := 0, srchi := 9, w := true, atom := false, ro := false, mig := false, thrlog := 0 }
def withTransit (p : Packet) : State := { st team with fabric := { transit := [(6, p)] } }

/-- A read sent to package 5 for request 7, and the machine with it; at 2^30 stands a leaf of package 5. -/
def sent : Outstanding :=
  { ref := 3, origin := .request 7, peer := 5, packet := { fabricWrite with payload := .read 0x8000 8 false }, sentAt := 0, course := 0,
    va := 2 ^ 40 }
def withSent (o : Outstanding) : State :=
  { withReq team (req (.ld mem) (.remote 3)) with
    hbm := Mem.write (loadTables []) 0x3008 (0xE87 + 5 * 2 ^ 52) 8, fabric := { outstanding := [o] } }

/-- A chart of one package at 0x40000 (R412). -/
def chartMem : Mem := Mem.write (Mem.write [] 0x40000 (1 + 2 ^ 32 + 2 ^ 72) 16) 0x40040 1 1

theorem meets_FabricEvents :
    (∀ r ∈ [true, false],
      let p := { fabricWrite with isReply := r, course := BitVec.ofNat 64 (2 ^ 24) }
      let s := { withTransit p with gliem := { linka := 1 } }
      tget s.fabric.transit 6 = some p ∧ routePort p = some 0 ∧ s.portUp 0 = true) ∧
    (∀ r ∈ [true, false],
      let p := { fabricWrite with isReply := r, course := BitVec.ofNat 64 (2 ^ 24) }
      let s := withTransit p
      tget s.fabric.transit 6 = some p ∧ (routePort p = some 0 ∧ s.portUp 0 = false) ∧ p.isReply = r ∧ p.entered ≠ []) ∧
    (let s := { st team with chart := some chart2 }
     s.chart = some chart2 ∧
       (let p := { fabricWrite with isReply := true }
        p.isReply = true ∧ p.entered ≠ []) ∧
       (let p := { fabricWrite with course := BitVec.ofNat 64 (2 ^ 24) }
        p.isReply = false ∧ p.hop ≤ nhOf p.course) ∧
       (let p := { fabricWrite with hop := 2 }
        p.isReply = false ∧ nhOf p.course < p.hop ∧ (destOf p.course ≠ chart2.self ∨ p.hop ≠ nhOf p.course + 1))) ∧
    ((st team).chart = none) ∧
    (let p := fabricWrite
     let s := { st team with chart := some chart2, exports := [page8] }
     s.chart = some chart2 ∧ p.isReply = false ∧ p.hop = nhOf p.course + 1 ∧ destOf p.course = chart2.self ∧ p.seq = s.flowNext p ∧
       p.seq < 2 ^ 32 ∧ s.fabric.early = [] ∧ p.payload = .write 0x8000 [5] ∧
       s.refusal p.src p.hd 0x8000 1 .store = none ∧ (∀ m ∈ s.moved, m.pa ≠ 0x8000 / 4096 * 4096) ∧ s.awaitsPage 0x8000 = false ∧
       s.exportFor p.src 0x8000 1 = some page8 ∧ page8.mig = false ∧ s.partialBad 0x8000 1 (ones 1) = false ∧
       s.migrating 0x8000 = false ∧ s.hbm.wf = true) ∧
    (∀ o ∈ [sent, { sent with held := true }, { sent with moved := some 0 }, { sent with origin := .migration 0 0 }],
      (withSent o).outstanding? 3 = some o) ∧
    ((∀ first alt, sent.origin ≠ .migration first alt) ∧ sent.held = false ∧ sent.moved = none) ∧
    (∀ c ∈ [0, 2 ^ 20],
      let s := { withSent sent with cycle := c }
      s.outstanding? 3 = some sent ∧ sent.moved = none ∧ sent.held = false ∧ decide (sent.sentAt + 2 ^ 20 ≤ s.cycle) = decide (c ≠ 0)) ∧
    (let g : GivenReply := { ctx := 0, src := 1, flow := 0, seq := 0, reply := fabricWrite, givenAt := 0 }
     let s := { st team with cycle := 2 ^ 22, fabric := { replies := [g] } }
     s.fabric.replies[0]? = some g ∧ g.givenAt + 2 ^ 21 < s.cycle) ∧
    (let c := { loadedContext with crstab := 0x8000 }
     let s := withCtx c
     ∃ s1, (5 : Word).toNat < 2048 ∧ s.ctx? 0 = some c ∧ (∀ e, c.course? 5 = some e → e.back = none) ∧
       (s.setCtx 0 { c with courses := tdel c.courses 5 }).resolve 0 0 [] (c.crstab + 64 * 5) 64 .read { src := 7 }
         = (.ok (.frame 0x8140) 64, s1) ∧ (∃ c1, s1.ctx? 0 = some c1) ∧ s1.lineBad 0x8140 64 = false) ∧
    (let e : CourseEntry := { CourseEntry.blank with back := some {} }
     let c := { loadedContext with courses := [(5, e)] }
     (5 : Word).toNat < 2048 ∧ (withCtx c).ctx? 0 = some c ∧ c.course? 5 = some e ∧ e.back ≠ none) ∧
    ((st team).gliem.linka.getLsbD 35 ≠ true ∧ (st team).gliem.linkb.getLsbD 0 ≠ true ∧
      (st team).retired.contains (.plane 35 0) = false ∧ (st team).retired.contains (.plane 0 1) = false ∧
      ({ st team with retired := [.plane 3 1] } : State).retired.contains (.plane 3 1) = true) ∧
    (∀ b ∈ [true, false],
      let s := { st team with
        hbm := if b then chartMem else [], gliem := { cbusy := true, chartbase := 0x40000 } }
      s.gliem.cbusy = true ∧ (s.chartAt (bits s.gliem.chartbase.toNat 6 46 * 64)).isSome = b) ∧
    (∀ e ∈ [(Mem.write (Mem.write [] 0x40000 0x8000 8) 0x40008 0x1000 8, 0x8000 + 0x1000 * 2 ^ 64, true),
        (Mem.write [] 0x40016 1 1, 2 ^ 176, false)],
      let s := { st team with hbm := e.1, gliem := { ebusy := true, expbase := 0x40000 } }
      s.gliem.ebusy = true ∧ Mem.readN s.hbm (bits s.gliem.expbase.toNat 6 46 * 64) 2048 = e.2.1 ∧
        ((List.range 64).all fun i => (exportOf (bytesAt e.2.1 (32 * i) 32)).isSome) = e.2.2) ∧
    ((st team).gliem.migst ≠ 1) ∧
    (∀ r ∈ [true, false],
      let s := { st team with gliem := { migst := 1, migref := r } }
      s.gliem.migst = 1 ∧ (s.gliem.migref = true ∨ (s.gliem.migref = false ∧ s.gliem.migcrs ≠ 2 ∧ s.migrationWaits = false))) ∧
    (let o := { sent with moved := some 2 }
     let s := withSent o
     s.outstanding? 3 = some o ∧ o.moved = some 2 ∧ o.origin = .request 7 ∧ s.req? 7 = some (req (.ld mem) (.remote 3)) ∧
       s.walk o.packet.ctx o.va = .missing) ∧
    (let o := { sent with moved := some 2, va := 2 ^ 30 + 0x8000 }
     let s := withSent o
     let e := 0xE87 + 5 * 2 ^ 52
     s.outstanding? 3 = some o ∧ o.moved = some 2 ∧ o.origin = .request 7 ∧ s.req? 7 = some (req (.ld mem) (.remote 3)) ∧
       s.walk o.packet.ctx o.va = .leaf 2 e ∧ s.pteLocal e = false ∧ ptePeer e = o.peer ∧
       ∃ l, payloadLine o.packet.payload = some l ∧ (ptePa e + o.va % leafSize 2) / 4096 = l / 4096) := by
  refine ⟨by decide +kernel, by decide +kernel, ⟨rfl, by decide +kernel⟩, rfl, ⟨rfl, rfl, by decide +kernel⟩, fun o ho => ?_, ⟨nofun, rfl, rfl⟩,
    fun c hc => ⟨rfl, rfl, rfl, ?_⟩, ⟨rfl, by decide⟩,
    ⟨_, by decide, rfl, nofun, frame (by decide +kernel), Option.isSome_iff_exists.mp (by decide +kernel), by decide +kernel⟩,
    ⟨by decide, rfl, rfl, nofun⟩, by decide +kernel, ?_, ?_, by decide, ?_,
    ⟨rfl, rfl, rfl, rfl, by decide +kernel⟩, ⟨rfl, rfl, rfl, rfl, by decide +kernel, by decide, by decide, _, rfl, by decide⟩⟩
  · revert o; decide +kernel
  · revert c; decide +kernel
  all_goals decide +kernel

/-! ## Management, debugging, the endpoint -/

theorem meets_ManagementEvents :
    (let s := { st team with chart := some chart2, gliem := { linka := 1 } }
     s.chart = some chart2 ∧ s.root = false ∧ s.parentPort chart2 = some 0) ∧
    (let s := { st team with aligned := true, cycle := 14 * 2 ^ 20 }
     s.aligned = true ∧ s.lastAlign + 14 * 2 ^ 20 ≤ s.cycle) ∧
    (∀ d ∈ [60, 109, 110], let sample : DieSample := { temps := [d, 40], currents := [] }
      sample.temps.foldl max 0 = d) ∧
    (st team).binnacle.stage ≠ .running ∧ runningState.binnacle.stage = .running ∧ (List.replicate 32 (0 : Byte)).length = 32 ∧
    (let s := { st team with teams := [], cycle := 65536 }
     (s.core 5).powerGated = false ∧ s.teamsOf 5 = [] ∧ (s.core 5).lastBusy + 65536 ≤ s.cycle) ∧
    (let s := { st team with cores := [(0, { powerGated := true })] }
     (s.core 0).powerGated = true ∧ s.teamsOf 0 ≠ []) := by
  refine ⟨⟨rfl, rfl, by decide +kernel⟩, ⟨rfl, by decide⟩, by decide, by decide, rfl, rfl, by decide +kernel, rfl, ?_⟩
  exact List.ne_nil_of_length_pos (by decide +kernel)

/-- The test machine with a debugger attached to context 0, team 0 selected. -/
def debugged (t : Team) (d : Debug) : State :=
  { st t with pkg := { (st t).pkg with dbgmask := 1 }, contexts := [(0, { loadedContext with dblk := d })] }
def halted : Team := strand0 fun d => { d with stopped := true }

/-- Queue pair 0 of the endpoint with one entry at 0x40000: `op`, address 0x8000, 8 bytes. -/
def endpoint (op : Nat) : State :=
  { st team with
    hbm := Mem.write (loadTables []) 0x40000 (op + 0x8000 * 2 ^ 64 + 8 * 2 ^ 192) 64,
    ue := [(0, { sqbase := 0x40000, cqbase := 0x50000, sqtail := 1 })] }

theorem meets_DebugAndEndpointEvents :
    (let d : Debug := { handle := 0 }
     let t := { halted with dbg := true }
     let s := debugged t d
     s.ctx? 0 = some { loadedContext with dblk := d } ∧ s.pkg.dbgmask.getLsbD 0 = true ∧ s.debugTeam 0 d = some t ∧ t.isStopped = true) ∧
    (let d : Debug := { handle := 0 }
     let t := { team with dbg := true }
     let s := debugged t d
     s.ctx? 0 = some { loadedContext with dblk := d } ∧ s.pkg.dbgmask.getLsbD 0 = true ∧ s.debugTeam 0 d = some t ∧
       t.isStopped = false) ∧
    ((st team).ctx? 0 = some loadedContext ∧ (st team).pkg.dbgmask.getLsbD 0 = false) ∧
    (let t := { team with dbg := true }
     let s := st t
     s.team? 0 = some t ∧ s.ctx? 0 = some loadedContext ∧
       (s.handlesOf 0 fun t => t.dbg && t.resident && !t.isStopped &&
         t.liveStrands.all fun k => (t.strand k).mayStop && (!t.halted || (t.strand k).flights.isEmpty)) = [0]) ∧
    (∀ d ∈ [({ handle := 0, space := 1, len := 8 } : Debug), { handle := 0, space := 0, off := 16, len := 8 }],
      let t := { halted with dbg := true }
      let s := debugged t d
      s.debugTeam 0 d = some t ∧ spaceRefusal t d false = none ∧ spaceRefusal t d true = none ∧ t.regs.wf = true) ∧
    (∀ drowsy ∈ [false, true],
      let d : Debug := { handle := 0, space := 0, off := 16, len := 8 }
      let t := { halted with dbg := true, grans := halted.grans.set 0 { drowsy := drowsy } }
      (debugged t d).debugTeam 0 d = some t ∧ spaceRefusal t d false = none ∧
        (t.wake (debugged t d).cycle (debugGranules t d)).2 = drowsy) ∧
    (let d : Debug := { handle := 0, space := 9, len := 8 }
     let t := { halted with dbg := true }
     (debugged t d).debugTeam 0 d = some t ∧ spaceRefusal t d true = none) ∧
    (∀ op ∈ [0, 1, 2],
      ∃ x, (endpoint op).nextSend 0 = some x ∧ sendBad x = false ∧ (sendEntryOf x).op = op ∧ (endpoint op).hbm.wf = true ∧
        (List.replicate 8 (0 : Byte)).length = (sendEntryOf x).len ∧ (sendEntryOf x).addr + 8 ≤ deviceBase ∧
        (sendEntryOf x).addr + 8 ≤ bits ((endpoint op).qp 0).cqbase.toNat 12 40 * 4096 + 16 * (((endpoint op).qp 0).cqtail.toNat % 1024)) ∧
    ((List.replicate 8 (0 : Byte)).length ≤ 4096 ∧ 0x8000 + (List.replicate 8 (0 : Byte)).length ≤ deviceBase) := by
  refine ⟨⟨rfl, by decide, rfl, by decide +kernel⟩, ⟨rfl, by decide, rfl, by decide +kernel⟩, ⟨rfl, by decide⟩, ⟨rfl, rfl, by decide +kernel⟩, fun d hd => ?_, fun b hb => ?_, by decide +kernel, fun op ho =>
    ⟨op + 0x8000 * 2 ^ 64 + 8 * 2 ^ 192, ?_⟩, by decide +kernel⟩
  · revert d; decide +kernel
  · revert b; decide +kernel
  · revert op; decide +kernel

/-! ## The whole machine -/

/-- The loaded machine's next occurrence is strand 0's turn, at a word that decodes; and one whose next occurrence is an
engine's turn. -/
theorem meets_StepRunsDecodedWord :
    (let s := State.reset.withFetchWord 64 0x0210030102000300
     let s0 := { s with agenda := [] }
     let w : Word := 0x0210030102000300
     ∃ s1 i, s.agenda = [.issue 0 0] ∧ s.team? 0 = some loadedTeam ∧ loadedTeam.presents 0 = true ∧ (loadedTeam.strand 0).wait = .none ∧
       (loadedTeam.strand 0).fetched = none ∧ loadedTeam.eventFor 0 = none ∧
       s0.resolve loadedTeam.ctx (dieOf loadedTeam.core) [] (canon (loadedTeam.strand 0).pc.toNat) 8 .fetch { src := 0, handle := 0 }
         = (.ok (.frame 0x4000) 8, s1) ∧
       s1.lineBad 0x4000 8 = false ∧ BitVec.ofNat 64 (s1.readAt loadedTeam.core 0x4000 8) = w ∧ decodeWord false w = .ok i ∧
       wordSync w = false) ∧
    (let t := team.setQueue 0 { cmds := [nopEntry], prog := some nopProg }
     let s := { st t with agenda := [.engine 0 0] }
     s.agenda = [.engine 0 0] ∧ s.team? 0 = some t ∧ (t.queue 0).prog = some nopProg ∧ (decodeCmd nopProg.cmd).isSome = true) :=
  ⟨⟨_, _, by rfl, by rfl, by decide +kernel, rfl, rfl, by decide +kernel, frame (by decide +kernel), by decide +kernel, by decide +kernel,
    by rfl, by decide +kernel⟩, rfl, rfl, rfl, by decide +kernel⟩

/-- A well-formed word with an encoding, and a well-formed command. -/
theorem meets_RoundTrip :
    (Instr.add reg).wf false = true ∧ encodeWord? (.add reg) = some 0x0210030102000300 ∧
      (decodeCmd nopCmd).isSome = true := by
  decide +kernel

/-- At reset every memory is in its canonical form, and so is every memory of the machine with a word placed. -/
theorem meets_StepKeepsMemoryForm :
    State.reset.MemOk ∧ (State.reset.withFetchWord 64 0x0210030102000300).MemOk := by
  refine ⟨⟨rfl, fun e h => absurd h List.not_mem_nil⟩, by rfl, fun e he => ?_⟩
  obtain rfl := List.mem_singleton.mp he
  show Team.MemOk loadedTeam
  unfold Team.MemOk
  decide +kernel

end Sys2Proof.Tests
end

