-- ==== Sys2Proof/Tests/Words.lean ====
section
/-! SUPPORT. Witnesses: for the statements about words, a concrete place, word and operands that meet each clause's hypotheses
together. Each theorem is named after its statement. -/

set_option maxRecDepth 8000

namespace Sys2Proof.Tests

open Sys2Proof Sys2Proof.Machine

/-- Stream 0 of the test team. -/
def h0 : Here := here team 0

/-- The gate of `reg` off: predicate p1, which holds 0. -/
def regOff : RegW := { reg with pred := 1 }

/-- Vector registers v1, v2, v3 and v0 as operands. -/
def vec : RegW := { reg with d := 0x40, a := 0x41, b := 0x42, c := 0x43 }

/-- The team whose s1 and s2 hold given values. -/
def withScalars (a b : Nat) : Team := { team with regs := Mem.write (Mem.write [] 8 a 8) 16 b 8 }

theorem meets_ScalarRegisterForms :
    (∀ p ∈ ([(2, 2), (1, 2), (2, 4), (2, 12), (3, 4)] : List (Nat × Nat)), ∀ r ∈ [reg, regOff],
      h0.Ready r.mods (h0.scalarUses r p.1 p.2)) ∧
    h0.Ready reg.mods
      { opds := [opdW 0 reg.d 1 true, opdR 1 reg.a 1, opdR 2 reg.b 1], predR := gateReads reg.pred, lat := 2, holds := true } :=
  ⟨fun p hp r hr => ready (by revert p r; decide), ready (by decide)⟩

theorem meets_ScalarComparisons :
    (∀ r ∈ [reg, regOff],
      h0.Ready r.mods (h0.testUses r [opdB 1 r.a 1 (typeMask r), opdB 2 r.b 1 (typeMask r)] []) ∧
      h0.Ready r.mods (h0.testUses r [] [r.a.toNat, r.b.toNat]) ∧ h0.Ready r.mods (h0.testUses r [] [r.a.toNat]) ∧
      h0.Ready r.mods (h0.testUses r [opdR 1 r.a 1] []) ∧
      h0.Ready r.mods
        { opds := [opdW 0 r.d 1 (h0.gate0 r.pred r.pn)], predR := gateReads r.pred ++ [r.a.toNat], lat := 2,
          holds := h0.gate0 r.pred r.pn, off := !h0.gate0 r.pred r.pn }) :=
  fun r hr => ⟨ready (by revert r; decide), ready (by revert r; decide), ready (by revert r; decide), ready (by revert r; decide),
    ready (by revert r; decide)⟩

def imm : ImmW := ⟨⟨false, false, 0, false⟩, 0x20, 1, 2, 3⟩

theorem meets_ImmediateWords :
    (∀ lat ∈ [2, 4], h0.Ready imm.mods (immUses imm [opdR 1 imm.a 1] lat) ∧ h0.Ready imm.mods (immUses imm [] lat)) ∧
    h0.Ready imm.mods (immUses imm [opdR 1 imm.a 1, opdR 3 (imm.imm.extractLsb' 0 8) 1] 2) :=
  ⟨fun lat hl => ⟨ready (by revert lat; decide), ready (by revert lat; decide)⟩, ready (by decide)⟩

def br : BrW := ⟨⟨false, false, 0, false⟩, 0x43, 3, 1, 0, 1, 0⟩

theorem meets_Branches :
    (h0.Ready br.mods { opds := [], predR := [], lat := 2 } ∧ h0.Ready br.mods { opds := [opdR 1 br.a 1], predR := [], lat := 2 } ∧
      h0.Ready br.mods { opds := [], predR := [br.a.toNat], lat := 2 } ∧ h0.pc.toNat % 8 = 0) ∧
    (h0.Ready br.mods { opds := [opdW 0 br.link 1 true], lat := 2, holds := true } ∧ (relTarget h0.pc br.disp).toNat % 8 = 0) ∧
    (let x := here (withScalars 0x4100 0) 0
     x.Ready br.mods { opds := [opdR 1 br.a 1], lat := 2 } ∧
     x.Ready br.mods { opds := [opdW 0 br.link 1 true, opdR 1 br.a 1], lat := 2, holds := true } ∧
     (x.t.scalar br.a &&& 0x00FFFFFFFFFFFFFF).toNat % 8 = 0) ∧
    (let x := here (withScalars 0x4101 0) 0
     x.Ready br.mods { opds := [opdR 1 br.a 1], lat := 2 } ∧
     x.Ready br.mods { opds := [opdW 0 br.link 1 true, opdR 1 br.a 1], lat := 2, holds := true } ∧
     (x.t.scalar br.a &&& 0x00FFFFFFFFFFFFFF).toNat % 8 ≠ 0 ∧ x.TakesTraps) ∧
    h0.Ready br.mods { opds := [⟨1, br.a, 1, 0xFF, 0xFF⟩], lat := 2, holds := true } :=
  ⟨⟨ready (by decide), ready (by decide), ready (by decide), by decide⟩, ⟨ready (by decide), by decide⟩,
    ⟨ready (by decide), ready (by decide), by decide⟩, ⟨ready (by decide), ready (by decide), by decide, takes rfl (by decide)⟩,
    ready (by decide)⟩

theorem meets_NopWaitsAndExit :
    h0.Ready reg.mods {} ∧ h0.Ready reg.mods { tile := some 7 } ∧ h0.Ready reg.mods { opds := [opdR 1 reg.a 1] } :=
  ⟨ready (by decide), ready (by decide), ready (by decide)⟩

/-- A system word on control register n. -/
def sysw (n : Nat) : SysW := ⟨⟨false, false, 0, false⟩, 1, 2, 1, BitVec.ofNat 8 n, 7, 0⟩

/-- A write of control register n, due at strand time 3. -/
def crFlight (n fn : Nat) : Flight :=
  { land := 3, dest := .creg n fn, len := 8, data := 0xF0, mask := 0xFF, flags := 0, src := none, readAt := 0 }
def crTeam (n fn : Nat) : Team := team.setStrand 0 { team.strand 0 with time := 3, flights := [crFlight n fn] }

theorem meets_ControlRegisterWords :
    (∀ n ∈ crReads.map (·.1) ++ [0x20, 0x2F], (sysw n).cr.toNat = n ∧
      h0.Ready (sysw n).mods (plainUses [opdW 0 (sysw n).d 1 true] 3 true)) ∧
    h0.Ready (sysw 0).mods (plainUses [opdR 1 (sysw 0).a 1] 3 false) ∧ h0.Ready (sysw 0).mods (plainUses [] 3 false) ∧
    (∀ n ∈ crWrites.map (·.1) ++ [0x20, 0x2F, 0x05], ∀ fn ∈ [1, 2, 3, 4],
      let t := crTeam n fn
      let f := crFlight n fn
      (machine t 0).team? 0 = some t ∧ (t.strand 0).exiting = false ∧
        ((t.strand 0).flights.filter fun f => f.land ≤ (t.strand 0).time) = [f] ∧ f.dest = .creg n fn ∧ f.flags = 0) := by
  refine ⟨fun n hn => ⟨?_, ready ?_⟩, ready (by decide), ready (by decide), fun n hn fn hf => ⟨rfl, rfl, rfl, rfl, rfl⟩⟩
  all_goals (revert n; decide)

theorem meets_FlagSetsAndClears :
    ((0x80 : BitVec 64).getLsbD 7 = true) ∧ ((0x80 : BitVec 64).getLsbD 9 = false ∧ team.flagNow.getLsbD 9 = false) := by decide

/-- The team while strand 0 is in its handler; and with no trap entry point. -/
def inHandler : Team := team.setStrand 0 { team.strand 0 with cause := 0x40000000, trappc := 0x4010 }
def noEntry : Team := { team with trapEnt := 0 }

theorem meets_TrapWords :
    (h0.Ready reg.mods {} ∧ h0.TakesTraps ∧ h0.s.pkg.dbgmask.getLsbD h0.t.ctx = false) ∧
    (let x : Here := { h0 with s := { h0.s with pkg := { h0.s.pkg with dbgmask := 1 } } }
     x.Ready reg.mods {} ∧ x.s.pkg.dbgmask.getLsbD x.t.ctx = true) ∧
    (h0.s.cur = .strand h0.h h0.k ∧ h0.TakesTraps) ∧
    ((here inHandler 0).Ready reg.mods {} ∧ (here inHandler 0).sd.inh = true) ∧
    (∀ t ∈ [inHandler, noEntry], (here t 0).s.cur = .strand 0 0 ∧ (here t 0).s.team? 0 = some t ∧ t.halted = false ∧
      ((t.strand 0).inh = true ∨ t.trapEnt = 0)) :=
  ⟨⟨ready (by decide), takes rfl (by decide), by decide⟩, ⟨⟨rfl, rfl, by decide, by decide, by decide, by decide⟩, by decide⟩,
    ⟨rfl, takes rfl (by decide)⟩, ⟨ready (by decide), by decide⟩, fun t ht => ⟨rfl, rfl, by revert t; decide, by revert t; decide⟩⟩

/-- What a vector word needs of its queues: registers only, or pops and pushes that the queues of `queued` can serve. -/
def queued : Team := { team with lqs := Vector.replicate 4 [{ tag := 0, data := some 5, lines := [] }] }

theorem supplied {y : Here} {l : List (BitVec 8)} {d : Option (BitVec 8)}
    (h : (y.lacking l).isNone = true ∧ (d.bind y.noRoom).isNone = true) : y.Supplied l d :=
  ⟨Option.isNone_iff_eq_none.mp h.1, Option.isNone_iff_eq_none.mp h.2⟩

/-- `vec` with A popped from lq0 and D pushed to sq0. -/
def vecQ : RegW := { vec with d := 0x7C, a := 0x78 }

/-- Registers only, and a pop of lq0 with a push to sq0. -/
def vecCases : List (Team × RegW) := [(team, vec), (queued, vecQ)]

/-- What a per-element form asks for, with n vector sources. -/
def ElementsMeet (ws lats ns : List Nat) : Prop :=
  ∀ p ∈ vecCases, ∀ w ∈ ws, ∀ lat ∈ lats, ∀ n ∈ ns,
    let x := here p.1 0
    let u := x.elementUses p.2 w lat ((firstSources n p.2).map fun q => opdR q.1 q.2 1)
    x.Ready p.2.mods u ∧ (x.woken u).Supplied ((firstSources n p.2).map (·.2)) (some p.2.d)

theorem meets_VectorIntegerArithmetic : ElementsMeet [1, 2, 4, 8] [3, 5] [1, 2, 3] := by
  intro p hp w hw lat hl n hn
  exact ⟨ready (by revert p w lat n; decide +kernel), supplied (by revert p w lat n; decide +kernel)⟩

theorem meets_VectorBitwiseAndShifts : ElementsMeet [1, 2, 4, 8] [3] [1, 2] := by
  intro p hp w hw lat hl n hn
  exact ⟨ready (by revert p w lat n; decide +kernel), supplied (by revert p w lat n; decide +kernel)⟩

/-- `VectorComparisons`, and the comparisons of `VectorFloat`. -/
theorem meets_VectorComparisons : ∀ p ∈ vecCases, ∀ lat ∈ [3, 5], ∀ ty ∈ ([0, 1, 3, 9, 10] : List (BitVec 4)),
    let x := here p.1 0
    let r := { p.2 with ty := ty }
    let w := elemBytes r.ty
    let u : Uses := { opds := [opdR 1 r.a 1, opdR 2 r.b 1], predR := gateReads r.pred, lat := lat,
                      holds := decide (elemMask w (x.enables r w (128 / w)) ≠ 0) }
    x.Ready r.mods u ∧ (x.woken u).Supplied [r.a, r.b] none := by
  intro p hp lat hl ty ht
  exact ⟨ready (by revert p lat ty; decide +kernel), supplied (by revert p lat ty; decide +kernel)⟩

/-- The whole-word forms that give a scalar: `vext` and the reductions. -/
theorem meets_Reductions : ∀ p ∈ vecCases, ∀ lat ∈ [4, 6, 9], ∀ o ∈ [[opdR 1 p.2.a 1], [opdR 1 p.2.a 1, opdR 2 2 1]],
    let x := here p.1 0
    let u := x.wholeUses { p.2 with d := 3 } 1 lat o none
    x.Ready p.2.mods u ∧ (x.woken u).Supplied [p.2.a] none := by
  intro p hp lat hl o ho
  exact ⟨ready (by revert p lat o; decide +kernel), supplied (by revert p lat o; decide +kernel)⟩

theorem meets_VectorMovesAndLanes :
    (∀ p ∈ vecCases, ∀ o ∈ [[opdB 1 2 1 (ones 4)], [], [opdR 1 p.2.a 1], [opdR 1 p.2.a 1, opdB 2 2 1 (ones 8)]],
      let x := here p.1 0
      x.Ready p.2.mods (x.elementUses p.2 4 4 o) ∧ (x.woken (x.elementUses p.2 4 4 o)).Supplied [p.2.a] (some p.2.d)) ∧
    (let x := h0
     let u := x.wholeUses { vec with d := 3 } 1 4 [opdR 1 vec.a 1, opdR 2 2 1] none
     x.Ready vec.mods u ∧ (x.woken u).Supplied [vec.a] none) ∧
    (let one := (h0.enables vec 4 32).zipIdx.map fun e => e.1 && decide (e.2 = (h0.t.scalar 2).toNat % 32)
     let u : Uses :=
       { opds := [⟨0, vec.d, 1, 0, elemMask 4 one⟩, opdB 1 2 1 (ones 4), opdR 2 2 1],
         predR := gateReads vec.pred, lat := 3, holds := vectorHolds vec.d (elemMask 4 one) }
     h0.Ready vec.mods u ∧ (h0.woken u).Supplied [] (some vec.d)) ∧
    (∀ p ∈ vecCases,
      let x := here p.1 0
      let u : Uses := { opds := [opdW 0 p.2.d 1 true, opdR 1 p.2.a 1, opdR 2 p.2.b 1], predR := gateReads p.2.pred, lat := 3,
                        holds := true }
      x.Ready p.2.mods u ∧ (x.woken u).Supplied [p.2.a, p.2.b] (some p.2.d)) := by
  refine ⟨fun p hp o ho => ⟨ready ?_, supplied ?_⟩, ⟨ready (by decide +kernel), supplied (by decide +kernel)⟩,
    ⟨ready (by decide +kernel), supplied (by decide +kernel)⟩, fun p hp => ⟨ready ?_, supplied ?_⟩⟩
  all_goals first | (revert p o; decide +kernel) | (revert p; decide +kernel)

/-- What a shuffle of v1 by s2 reads. -/
def shuffle : RegW := { vec with b := 2 }
def shuffled (t : Team) : Here :=
  (here t 0).woken ((here t 0).elementUses shuffle 4 6 [opdR 1 shuffle.a 1, opdR 2 shuffle.b 1])
def shuffleOffs (t : Team) : List Nat :=
  (List.range 32).map fun i => shuffleOff ((shuffled t).t.scalar shuffle.b).toNat (((shuffled t).sourceValues [(shuffle.a, 1)]).getD 0 0) i

/-- The team whose scoreboard is on, with a result pending on byte 8; and with granule 0 drowsy. -/
def pendingTeam : Team :=
  { team with scben := true }.setStrand 0
    { team.strand 0 with flights := [{ land := 9, dest := .reg 0x800, len := 8, data := 0, mask := 0xFF, flags := 0, src := none, readAt := 0 }] }
def drowsyTeam : Team := { withScalars 0 0x1000 with grans := Vector.replicate 16 { drowsy := true } |>.set 0 {} }

/-- A shuffle whose offsets all lie in the allocation, one whose granule is drowsy, one that meets a pending byte, and one whose
base lies beyond the allocation. -/
theorem meets_CrossStrandShuffle :
    (∀ t ∈ [team, drowsyTeam, { pendingTeam with regs := Mem.write [] 16 0x800 8 }, withScalars 0 0x10000],
      let x := here t 0
      let u := x.elementUses shuffle 4 6 [opdR 1 shuffle.a 1, opdR 2 shuffle.b 1]
      x.Ready shuffle.mods u ∧ (x.woken u).Supplied [shuffle.a] (some shuffle.d) ∧ (x.woken u).TakesTraps) ∧
    (∀ i < 32, ∀ t ∈ [team, drowsyTeam], (shuffleOffs t).getD i 0 + 4 ≤ team.regsz * 4096) ∧
    ((shuffled team).t.scben = false ∧ ((shuffled team).t.wake 0 [0]).2 = false ∧ ((shuffled drowsyTeam).t.wake 0 [1]).2 = true ∧
      (shuffleOffs drowsyTeam).head? = some 0x1000) ∧
    (let y := shuffled { pendingTeam with regs := Mem.write [] 16 0x800 8 }
     y.t.scben = true ∧ shuffle.mods.old = false ∧ (y.s.pendingAll y.t).testBit 0x800 = true ∧
       (shuffleOffs { pendingTeam with regs := Mem.write [] 16 0x800 8 }).head? = some 0x800) ∧
    (shuffleOffs (withScalars 0 0x10000)).find? (fun o => team.regsz * 4096 < o + 4) = some 0x10000 := by
  refine ⟨fun t ht => ⟨ready ?_, supplied ?_, ⟨Nat.zero_lt_succ 3, rfl, ?_, ?_⟩⟩, ?_, ?_, ?_, ?_⟩
  all_goals first | (revert t; decide +kernel) | decide +kernel

/-- v1 of lawful packed trits, and with 243 in byte 5. -/
def badTrits : Team := { team with regs := Mem.write [] (team.regOff 0x41 + 5) 243 1 }

theorem meets_TritWords :
    (∀ t ∈ [team, badTrits],
      let x := here t 0
      let u := x.elementUses vec 1 3 [opdR 1 vec.a 1]
      x.Ready vec.mods u ∧ (x.woken u).Supplied [vec.a] (some vec.d)) ∧
    (∀ p ∈ ([(team, none), (badTrits, some (true, 5, 243))] : List (Team × Option (Bool × Nat × Nat))),
      let y := (here p.1 0).woken ((here p.1 0).elementUses vec 1 3 [opdR 1 vec.a 1])
      ((((y.enables vec 1 128).zipIdx.map fun e => (e.1, e.2, elem 1 ((y.sourceValues [(vec.a, 1)]).getD 0 0) e.2)).find?
        fun e => e.1 && decide (243 ≤ e.2.2)) = p.2)) ∧
    ((here badTrits 0).woken ((here badTrits 0).elementUses vec 1 3 [opdR 1 vec.a 1])).TakesTraps := by
  refine ⟨fun t ht => ⟨ready ?_, supplied ?_⟩, ?_, ⟨by decide, by rfl, by decide +kernel, by decide +kernel⟩⟩
  · revert t; decide +kernel
  · revert t; decide +kernel
  · decide +kernel

theorem meets_VectorFloat : ElementsMeet [2, 4] [5, 20] [1, 2, 3] := by
  intro p hp w hw lat hl n hn
  exact ⟨ready (by revert p w lat n; decide +kernel), supplied (by revert p w lat n; decide +kernel)⟩

/-- The team with FD1 a block descriptor of KIND 1: FP8 E4M3 with blocks of 16 (R116). -/
def withFd : Team := { team with fds := team.fds.set 1 0x107391 }

theorem meets_ConversionWords :
    (∀ e ∈ ([(3, 9), (9, 3), (9, 0xB), (1, 9)] : List (BitVec 4 × BitVec 4)),
      let r := { vec with a := 0x44, fn := e.1, ty := e.2 }
      let ws := typeBytes r.fn.toNat
      let wd := typeBytes r.ty.toNat
      let u : Uses :=
        { opds := [⟨0, r.d, wd / min ws wd, 0, elemMask wd (h0.enables r (min ws wd) (128 / min ws wd))⟩, opdR 1 r.a (ws / min ws wd)],
          predR := gateReads r.pred, lat := 5,
          holds := vectorHolds r.d (elemMask wd (h0.enables r (min ws wd) (128 / min ws wd))) }
      h0.Ready r.mods u ∧ (h0.woken u).Supplied [r.a] (some r.d)) ∧
    (∀ pr ∈ ([0, 1] : List (BitVec 3)), ∀ o ∈ [[opdR 1 0x42 2], [opdR 1 0x42 2, opdR 2 2 1], [opdR 1 0x42 1]], ∀ n ∈ [1, 2],
      ∀ lat ∈ [6, 12],
      let r := { vec with a := 0x42, pred := pr, fdn := 1 }
      let x := here withFd 0
      let u := x.wholeUses r n lat o (some r.fdn.toNat)
      x.Ready r.mods u ∧ (x.woken u).Supplied [r.a] (some r.d) ∧ (x.woken u).Supplied [r.a] none ∧
        x.gate0 r.pred r.pn = decide (pr = 0)) := by
  refine ⟨fun e he => ⟨ready ?_, supplied ?_⟩, fun pr hp o ho n hn lat hl => ⟨ready ?_, supplied ?_, supplied ?_, ?_⟩⟩
  · revert e; decide +kernel
  · revert e; decide +kernel
  · revert pr o n lat; decide +kernel
  · revert pr o n lat; decide +kernel
  · revert pr o n lat; decide +kernel
  · revert pr o n lat; decide +kernel

/-! ## Memory words -/

theorem passes {y : Here} {r : MemW} {ea w a m : Nat}
    (h : (r.space = 0 → MemW.remote r = false → isCanon ea = true) ∧ ea % a = 0 ∧
      (r.space ≠ 0 → MemW.remote r = false → ea + w ≤ y.t.windowSize (bufOfSpace r.space.toNat)) ∧
      (r.space = 1 → MemW.remote r = false → y.t.missing ea w m = none)) : y.Passes r ea w a m :=
  ⟨h.1, h.2.1, h.2.2.1, h.2.2.2⟩

theorem access {y : Here} {r : MemW} {b : Buf} {ea w m : Nat}
    (h : (y.localReady r ea w && y.banksFree r.mods b ea w m) = true) : y.MayAccess r b ea w m :=
  ⟨(Bool.and_eq_true _ _ |>.mp h).1, (Bool.and_eq_true _ _ |>.mp h).2⟩

/-- No local store is in flight, and nothing of the access stream is. -/
theorem release {y : Here} (h : y.sd.spills = [] ∧ y.accessBusy = false) : y.MayRelease := ⟨h.1, h.2⟩

theorem mayPost {y : Here} {ea n : Nat}
    (h : y.sd.spills = [] ∧ (4 ≤ y.k → y.s.accessMeets y.h y.s.nextReq (none, bits ea 0 56, n) = false)) : y.MayPost ea n :=
  ⟨fun p hp => (nomatch (h.1 ▸ hp : p ∈ [])), h.2⟩

theorem feFree {y : Here} {d : Deed} {ea : Nat} (h : y.sd.spills = [] ∧ y.accessBusy = false) : y.FeFree d ea := by
  unfold Here.FeFree
  split
  · exact release h
  · intro p hp; exact (nomatch (h.1 ▸ hp : p ∈ []))

/-- A group of n vector registers from v0. -/
def vmem (n : BitVec 4) : MemW := { mem with op := 0xB2, d := 0x40, fn := n }

/-- A remote form: BASE names s2 and s3, and s3 holds handle 0. -/
def rmem : MemW := { mem with fn := 14 }

def isPosted : Post → Bool
  | .ok _ => true
  | _ => false

theorem posted {p : Post} (h : isPosted p = true) : ∃ s, p = .ok s := by
  cases p with
  | ok s => exact ⟨s, rfl⟩
  | _ => cases h

theorem meets_LocalAccess :
    (∀ sp ∈ ([1, 2, 3, 4] : List (BitVec 3)), ∀ pr ∈ ([0, 1] : List (BitVec 3)),
      let r := { mem with space := sp, pred := pr }
      let on := h0.gate0 r.pred r.pn
      let u := gatedUses r [opdW 0 r.d 1 on] 4 on none on
      let v := gatedUses r [opdB 0 r.d 1 (ones 4)] 0 false none on
      let b := bufOfSpace r.space.toNat
      r.space ≠ 0 ∧ MemW.remote r = false ∧ on = decide (pr = 0) ∧ h0.Ready r.mods u ∧ h0.Ready r.mods v ∧
        (h0.woken u).Passes r ((h0.woken u).address r) 4 4 (ones 4) ∧ (h0.woken u).MayAccess r b ((h0.woken u).address r) 4 (ones 4) ∧
        (h0.woken v).Passes r ((h0.woken v).address r) 4 4 (ones 4) ∧ (h0.woken v).MayAccess r b ((h0.woken v).address r) 4 (ones 4) ∧
        (h0.woken v).sd.spills.length < 8) ∧
    (∀ sp ∈ ([1, 2, 3, 4] : List (BitVec 3)), ∀ n ∈ ([0, 1, 2] : List (BitVec 4)),
      let r := { vmem n with space := sp }
      let k := groupRegs r.fn
      let m := h0.byteMask r (128 * k)
      let u := memUses r [⟨0, r.d, k, 0, m⟩] true (if k = 1 then 6 else if k = 2 then 7 else 9) (decide (m ≠ 0)) none
      let v := memUses r [opdB 0 r.d k m] true 0 false none
      let b := bufOfSpace r.space.toNat
      r.space ≠ 0 ∧ MemW.remote r = false ∧ h0.Ready r.mods u ∧ h0.Ready r.mods v ∧
        (h0.woken u).Passes r ((h0.woken u).address r) (128 * k) 8 m ∧
        (h0.woken u).MayAccess r b ((h0.woken u).address r) (128 * k) m ∧
        (h0.woken v).Passes r ((h0.woken v).address r) (128 * k) 8 m ∧
        (h0.woken v).MayAccess r b ((h0.woken v).address r) (128 * k) m ∧
        (h0.woken v).lacking [r.d] = none ∧ (h0.woken v).sd.spills.length < 8) := by
  refine ⟨fun sp hs pr hp => ⟨?_, ?_, ?_, ready ?_, ready ?_, passes ?_, access ?_, passes ?_, access ?_, ?_⟩,
    fun sp hs n hn => ⟨?_, ?_, ready ?_, ready ?_, passes ?_, access ?_, passes ?_, access ?_, ?_, ?_⟩⟩
  all_goals first | (revert sp pr; decide +kernel) | (revert sp n; decide +kernel)

/-- The team with s2 at 0x8000, an address that the page tables of the test machine map; its strand 0 and its access stream. -/
def farTeam : Team := { withScalars 0 0x8000 with accStopped := false }
def far : Here := here farTeam 0
def far4 : Here := here farTeam 4

def isSpans (r : Spans) (n : Nat) : Bool :=
  match r with
  | .ok l => l.length == n
  | _ => false

theorem spanned {r : Spans × State} {n : Nat} (h : isSpans r.1 n = true) : ∃ ps s1, r = (.ok ps, s1) := by
  obtain ⟨x, s⟩ := r
  match x, h with
  | .ok l, _ => exact ⟨l, s, rfl⟩

theorem meets_GlobalAccess :
    (∀ x ∈ [far, far4],
     let r := { mem with space := 0 }
     let u := gatedUses r [opdW 0 r.d 1 true] 0 false none true
     let v := gatedUses r [opdB 0 r.d 1 (ones 4)] 0 false none true
     let w := (deedOf (.ld r)).width
     r.space = 0 ∧ MemW.remote r = false ∧ x.gate0 r.pred r.pn = true ∧ x.Ready r.mods u ∧
       (x.woken u).Passes r ((x.woken u).address r) w w (ones w) ∧
       (∃ ps s1, (x.woken u).s.spans (x.woken u).t.ctx (dieOf (x.woken u).t.core) ((x.woken u).s.aperturesOf (x.woken u).t)
         ((x.woken u).address r) w ((deedOf (.ld r)).readMask 0xFF) .read { src := 1, handle := (x.woken u).h } = (.ok ps, s1)) ∧
       x.Ready r.mods v ∧ (x.woken v).Passes r ((x.woken v).address r) 4 4 (ones 4) ∧ (x.woken v).MayPost ((x.woken v).address r) 4 ∧
       ∃ s1, (x.woken v).s.post (x.woken v).writer ((x.woken v).address r) 4 (((x.woken v).t.scalar r.d).toNat % 2 ^ 32) (ones 4)
         (4 ≤ (x.woken v).k) = .ok s1) ∧
    (∀ x ∈ [far, far4], ∀ n ∈ ([0, 1, 2] : List (BitVec 4)),
      let r := { vmem n with space := 0 }
      let k := groupRegs r.fn
      let m := x.byteMask r (128 * k)
      let u := memUses r [⟨0, r.d, k, 0, m⟩] true 0 false none
      let v := memUses r [opdB 0 r.d k m] true 0 false none
      r.space = 0 ∧ MemW.remote r = false ∧ x.Ready r.mods u ∧ (x.woken u).Passes r ((x.woken u).address r) (128 * k) 8 m ∧
        (∃ ps s1, (x.woken u).s.spans (x.woken u).t.ctx (dieOf (x.woken u).t.core) ((x.woken u).s.aperturesOf (x.woken u).t)
          ((x.woken u).address r) (128 * k) m .read { src := 1, handle := (x.woken u).h } = (.ok ps, s1)) ∧
        x.Ready r.mods v ∧ (x.woken v).Passes r ((x.woken v).address r) (128 * k) 8 m ∧ (x.woken v).lacking [r.d] = none ∧
        (x.woken v).MayPost ((x.woken v).address r) (128 * k) ∧
        ∃ s1, (x.woken v).s.post (x.woken v).writer ((x.woken v).address r) (128 * k)
          (((x.woken v).sourceValues [(r.d, k)]).getD 0 0) m (4 ≤ (x.woken v).k) = .ok s1) := by
  refine ⟨fun x hx => ?_, fun x hx n hn => ?_⟩
  · simp only [List.mem_cons, List.not_mem_nil, or_false] at hx
    rcases hx with rfl | rfl
    all_goals
      refine ⟨?_, ?_, ?_, ready ?_, passes ?_, spanned (n := 1) ?_, ready ?_, passes ?_, mayPost ?_, posted ?_⟩
      all_goals decide +kernel
  · simp only [List.mem_cons, List.not_mem_nil, or_false] at hx
    rcases hx with rfl | rfl
    all_goals
      refine ⟨?_, ?_, ready ?_, passes ?_, spanned (n := 1) ?_, ready ?_, passes ?_, ?_, mayPost ?_, posted ?_⟩
      all_goals (revert n; decide +kernel)

theorem meets_RemoteAccess :
    (let u := gatedUses rmem [opdW 0 rmem.d 1 true] 0 false none true
     let v := gatedUses rmem [opdB 0 rmem.d 1 (ones 4)] 0 false none true
     MemW.remote rmem = true ∧ h0.gate0 rmem.pred rmem.pn = true ∧ h0.Ready rmem.mods u ∧
       (h0.woken u).Passes rmem ((h0.woken u).address rmem) 4 4 (ones 4) ∧ h0.Ready rmem.mods v ∧
       (h0.woken v).Passes rmem ((h0.woken v).address rmem) 4 4 (ones 4)) ∧
    (∀ n ∈ ([8, 9, 10] : List (BitVec 4)),
      let r := vmem n
      let k := groupRegs r.fn
      let m := h0.byteMask r (128 * k)
      let u := memUses r [⟨0, r.d, k, 0, m⟩] true 0 false none
      let v := memUses r [opdB 0 r.d k m] true 0 false none
      MemW.remote r = true ∧ h0.Ready r.mods u ∧ (h0.woken u).Passes r ((h0.woken u).address r) (128 * k) 8 m ∧ h0.Ready r.mods v ∧
        (h0.woken v).Passes r ((h0.woken v).address r) (128 * k) 8 m ∧ (h0.woken v).lacking [r.d] = none) := by
  refine ⟨⟨by decide, by decide, ready (by decide +kernel), passes (by decide +kernel), ready (by decide +kernel),
    passes (by decide +kernel)⟩, fun n hn => ⟨?_, ready ?_, passes ?_, ready ?_, passes ?_, ?_⟩⟩
  all_goals (revert n; decide +kernel)

/-- The n-th of the three faults of an address (`Here.AddressFault`). -/
def faultCase (y : Here) (r : MemW) (ea width align n : Nat) : Bool :=
  let free := r.space != 0 || MemW.remote r || isCanon ea
  match n with
  | 0 => !free
  | 1 => free && ea % align != 0
  | _ => r.space != 0 && !MemW.remote r && ea % align == 0 && decide (y.t.windowSize (bufOfSpace r.space.toNat) < ea + width)

theorem faulty {y : Here} {r : MemW} {ea width align n : Nat} (h : faultCase y r ea width align n = true) :
    ∃ ti, y.AddressFault r ea width align ti := by
  unfold faultCase at h
  match n, h with
  | 0, h =>
    simp only [Bool.not_eq_true', Bool.or_eq_false_iff, bne_eq_false_iff_eq] at h
    exact ⟨_, .noncanonical h.1.1 h.1.2 h.2⟩
  | 1, h =>
    simp only [Bool.and_eq_true, Bool.or_eq_true, bne_iff_ne] at h
    exact ⟨_, .misaligned (fun a b => by rcases h.1 with (c | c) | c <;> simp_all) h.2⟩
  | n + 2, h =>
    simp only [Bool.and_eq_true, bne_iff_ne, Bool.not_eq_true', beq_iff_eq, decide_eq_true_eq] at h
    exact ⟨_, .outside h.1.1.1 h.1.1.2 h.1.2 h.2⟩

/-- A word whose BASE, s4, holds an address of each fault: not canonical, not aligned, and the first byte beyond the SP window. -/
def atBase (t : Team) (a : Nat) : Team := { t with regs := Mem.write [] 32 a 8 }
def badAddresses : List (Nat × BitVec 3 × Nat) := [(2 ^ 56, 0, 0), (1, 0, 1), (1, 1, 1), (4096, 1, 2)]

/-- A stream whose word `r`, which asks for `u`, meets the fault `p` of its address. -/
def MeetsFault (t : Team) (k : Nat) (use : Here → MemW → Uses) (width align : Nat) (r : MemW) (n : Nat) : Prop :=
  (here t k).Ready r.mods (use (here t k) r) ∧
    (let y := (here t k).woken (use (here t k) r)
     y.gate0 r.pred r.pn = true ∧ (k = 4 → y.t.drainOnly = false ∧ y.s.team? y.h = some y.t) ∧ (k < 4 → y.TakesTraps) ∧
       ∃ ti, y.AddressFault r (y.address r) width align ti)

theorem meetsFault {t : Team} {k : Nat} {use : Here → MemW → Uses} {width align : Nat} {r : MemW} {n : Nat}
    (h : readyB t k r.mods (use (here t k) r) = true ∧
      (let y := (here t k).woken (use (here t k) r)
       y.gate0 r.pred r.pn = true ∧ (k = 4 → y.t.drainOnly = false) ∧ y.sd.inh = false ∧ y.t.trapEnt ≠ 0 ∧
         faultCase y r (y.address r) width align n = true)) : MeetsFault t k use width align r n :=
  ⟨ready h.1, h.2.1, fun e => ⟨h.2.2.1 e, rfl⟩, fun e => ⟨e, rfl, h.2.2.2.1, h.2.2.2.2.1⟩, faulty h.2.2.2.2.2⟩

/-- `AddressTraps`: each shape of a strand's word, and the access stream's, at an address of each fault; a full/empty word has
no global form. -/
theorem meets_AddressTraps :
    let far := fun r : MemW => decide (r.space ≠ 0) && !MemW.remote r
    ∀ p ∈ badAddresses,
      let r : MemW := { mem with base := 4, space := p.2.1 }
      let v : MemW := { r with op := 0xB2, d := 0x40, fn := 0 }
      (MeetsFault (atBase team p.1) 0 (fun _ r => gatedUses r [opdW 0 r.d 1 true] (if far r then 4 else 0) (far r) none true) 4 4 r p.2.2 ∧
        MeetsFault (atBase team p.1) 0 (fun _ r => gatedUses r [opdB 0 r.d 1 (ones 4)] 0 false none true) 4 4 r p.2.2) ∧
      (MeetsFault (atBase team p.1) 0
          (fun x r => memUses r [⟨0, r.d, groupRegs r.fn, 0, x.byteMask r (128 * groupRegs r.fn)⟩] true (if far r then 6 else 0)
            (far r && decide (x.byteMask r (128 * groupRegs r.fn) ≠ 0)) none) 128 8 v p.2.2 ∧
        MeetsFault (atBase team p.1) 0
          (fun x r => memUses r [opdB 0 r.d (groupRegs r.fn) (x.byteMask r (128 * groupRegs r.fn))] true 0 false none) 128 8 v p.2.2) ∧
      (p.2.1 = 1 →
        (∀ e ∈ ([(Instr.ldwF, 4), (Instr.ldwFe, 4), (Instr.vldwF, 6), (Instr.vldwFe, 6), (Instr.feGet, 4)] :
            List ((MemW → Instr) × Nat)),
          MeetsFault (atBase team p.1) 0 (fun _ r => gatedUses r [opdW 0 r.d 1 true] e.2 (!MemW.remote r) none true)
            (deedOf (e.1 { r with op := 0xB8, fn := 0 })).width 8 { r with op := 0xB8, fn := 0 } p.2.2) ∧
        (∀ c ∈ ([Instr.stwEf, Instr.vstwEf, Instr.feEmpty] : List (MemW → Instr)), ∀ b ∈ [true, false],
          MeetsFault (atBase team p.1) 0 (fun _ r => gatedUses r (if b then [opdR 0 r.d 1] else []) 0 false none true)
            (deedOf (c { r with op := 0xB8, fn := 0 })).width 8 { r with op := 0xB8, fn := 0 } p.2.2)) ∧
      (∀ c ∈ ([Instr.amoAdd, Instr.amoCas] : List (MemW → Instr)), ∀ op ∈ ([0xD0, 0xD1] : List (BitVec 8)),
        let r := { r with op := op, d := 2, fn := 0, scope := 1 }
        let d := deedOf (c r)
        MeetsFault (atBase team p.1) 0
          (fun _ r => gatedUses r [⟨0, r.d, 2, ones d.width <<< 8 ||| (if d.compares then ones d.width else 0), 0xFF⟩] 0 false
            (some r.scope.toNat) true) d.width d.width r p.2.2) ∧
      (∀ o ∈ [opdB 0 2 1 (ones 8), opdW 0 2 1 true, ⟨0, 2, 2, 0xF00, 0xFF⟩],
        MeetsFault (atBase team p.1) 0 (fun _ r => memUses r [o] false 0 false (some r.scope.toNat)) 8 8
          { r with d := 2, fn := 1, scope := 1 } p.2.2) ∧
      MeetsFault (atBase { team with accStopped := false } p.1) 4 (fun _ r => memUses r [] false 0 false none) 128 8
        { r with op := 0xC4, d := 0, fn := 0 } p.2.2 := by
  intro far p hp
  simp only [badAddresses, List.mem_cons, List.not_mem_nil, or_false] at hp
  rcases hp with rfl | rfl | rfl | rfl
  all_goals
    refine ⟨⟨meetsFault ?_, meetsFault ?_⟩, ⟨meetsFault ?_, meetsFault ?_⟩, fun hs => ⟨fun e he => meetsFault ?_,
      fun c hc b hb => meetsFault ?_⟩, fun c hc op ho => meetsFault ?_, fun o ho => meetsFault ?_, meetsFault ?_⟩
    all_goals first
      | (revert e; decide +kernel) | (revert c b; decide +kernel) | (revert c op; decide +kernel) | (revert o; decide +kernel) | decide +kernel

/-- The team with the words of its first 128 SP bytes full. -/
def fullTeam : Team := { team with fe := (List.range 16).map fun i => (i, 1) }

def feMem (n : BitVec 4) : MemW := { mem with op := 0xB8, fn := n }

/-- Each full/empty word as a local form that is served at once, with its words empty or full as it needs them; with its gate off;
and as a remote form. -/
theorem meets_FullEmptyWords :
    ∀ e ∈ ([(Instr.ldwF, true, false, 4, true, 1), (Instr.ldwFe, true, false, 4, true, 1), (Instr.vldwF, false, false, 6, true, 0x40),
        (Instr.vldwFe, false, false, 6, true, 0x40), (Instr.stwEf, true, true, 0, false, 1), (Instr.stwF, true, true, 0, false, 1),
        (Instr.vstwEf, false, true, 0, false, 0x40), (Instr.vstwF, false, true, 0, false, 0x40),
        (Instr.feEmpty, true, false, 0, true, 0), (Instr.feFull, true, false, 0, false, 0), (Instr.feGet, true, false, 4, false, 1)] :
        List ((MemW → Instr) × Bool × Bool × Nat × Bool × BitVec 8)), ∀ fn ∈ ([0, 8] : List (BitVec 4)), ∀ pr ∈ ([0, 1] : List (BitVec 3)),
      let r := { feMem fn with d := e.2.2.2.2.2, pred := pr }
      let x := here (if e.2.2.2.2.1 then fullTeam else team) 0
      let i := e.1 r
      let d := deedOf i
      let on := x.gate0 r.pred r.pn
      let u := gatedUses r (if e.2.2.1 then [opdR 0 r.d 1] else if d.len ≠ 0 then [opdW 0 r.d 1 on] else []) e.2.2.2.1
        (on && !MemW.remote r && d.len ≠ 0) none on
      let y := x.woken u
      on = decide (pr = 0) ∧ MemW.remote r = decide (fn = 8) ∧ r.space = 1 ∧ x.Ready r.mods u ∧
        y.Passes r (y.address r) d.width 8 (ones d.width) ∧ y.MayRelease ∧ y.FeFree d (y.address r) ∧
        y.MayAccess r .sp (y.address r) d.width (ones d.width) ∧
        (y.t.serve d (y.address r) 0 0 (ones d.width)).isSome = true := by
  intro e he fn hf pr hp
  refine ⟨?_, ?_, ?_, ready ?_, passes ?_, release ?_, feFree ?_, access ?_, ?_⟩
  all_goals (revert e fn pr; decide +kernel)

theorem meets_FullEmptyService :
    (Mem.wf fullTeam.fe = true ∧ fullTeam.feBusy = [] ∧ (deedOf (.ldwFe (feMem 0))).set = some false ∧
      (fullTeam.serve (deedOf (.ldwFe (feMem 0))) 0 0 0 0).isSome = true) ∧
    (Mem.wf team.fe = true ∧ team.feBusy = [] ∧ (deedOf (.stwEf (feMem 0))).set = some true ∧
      (team.serve (deedOf (.stwEf (feMem 0))) 0 7 0 0xFF).isSome = true) ∧
    (fullTeam.serve (deedOf (.stwEf (feMem 0))) 0 7 0 0xFF).isSome = false := by decide +kernel

/-- An atomic's word: D names s2 and s3, BASE s4 (and s5), scope entry 4. -/
def amo (op : BitVec 8) (sp : BitVec 3) (pr : BitVec 3) : MemW := { mem with op := op, d := 2, base := 4, scope := 4, space := sp, pred := pr, fn := 0 }

theorem meets_AtomicWords :
    ∀ op ∈ ([0xD0, 0xD1, 0xD2, 0xD3, 0xD4, 0xD5, 0xD6, 0xD7] : List (BitVec 8)), ∀ sp ∈ ([0, 1] : List (BitVec 3)),
      ∀ pr ∈ ([0, 1] : List (BitVec 3)),
      let r := amo op sp pr
      let on := h0.gate0 r.pred r.pn
      let d := amoDeed r
      let u := gatedUses r [⟨0, r.d, 2, ones d.width <<< 8 ||| (if d.compares then ones d.width else 0), if on then 0xFF else 0⟩]
        0 false (some r.scope.toNat) on
      on = decide (pr = 0) ∧ MemW.remote r = decide (0xD4 ≤ op.toNat) ∧ h0.Ready r.mods u ∧
        (h0.woken u).Passes r ((h0.woken u).address r) d.width d.width (ones d.width) := by
  intro op ho sp hs pr hp
  refine ⟨?_, ?_, ready ?_, passes ?_⟩
  all_goals (revert op sp pr; decide +kernel)

theorem meets_AtomicResults :
    (amo 0xD0 1 0).fn.toNat = 0 ∧ team.sp.wf = true ∧ (amo 0xD0 1 0).op = 0xD0 ∧ (amo 0xD5 1 0).op = 0xD5 ∧
    (let w : Word := 0x00D000000000000A
     w.getLsbD 63 = false ∧ opOfWord w = 0xD0 ∧ 10 ≤ (w.extractLsb' 0 4).toNat) ∧
    ((amo 0xD2 1 0).op = 0xD2 ∧ (amo 0xD6 1 0).op = 0xD6 ∧ (amo 0xD3 1 0).op = 0xD3 ∧ (amo 0xD7 1 0).op = 0xD7) ∧
    (let w : Word := 0x00D2000000000003
     w.getLsbD 63 = false ∧ opOfWord w = 0xD2 ∧ 3 ≤ (w.extractLsb' 0 4).toNat) := by decide

/-! ## Synchronisation, queues, signals -/

def sync (sc : BitVec 5) : MemW := { mem with op := 0xE0, d := 0, base := 0, space := 0, scope := sc, fn := 0 }

theorem fenceable {y : Here} {sc : Nat}
    (h : (sc ≤ 1 → y.s.logIsFull y.t.core = false) ∧ y.leadHeld (y.s.scopeWide y.t sc) = false) : y.MayFence sc := ⟨h.1, h.2⟩

theorem meets_FencesAndAcquires :
    (∀ sc ∈ ([0, 1, 2, 3, 4, 5] : List (BitVec 5)),
      let y := h0.woken { scope := some (sync sc).scope.toNat }
      h0.Ready mem.mods { scope := some (sync sc).scope.toNat } ∧ y.leadHeld (y.s.scopeWide y.t sc.toNat) = false ∧ y.MayFence sc.toNat) ∧
    (∀ sc ∈ ([0, 1, 2, 3, 4] : List (BitVec 5)),
      let r := { mem with scope := sc, fn := 0, space := 0 }
      let d := deedOf (.rel r)
      let u := memUses r [opdB 0 r.d 1 (ones d.width)] false 0 false (some r.scope.toNat)
      let y := far.woken u
      let w := y.relWriter sc.toNat
      MemW.remote r = false ∧ far.k < 4 ∧ far.Ready r.mods u ∧ y.Passes r (y.address r) d.width d.width (ones d.width) ∧
        y.MayFence sc.toNat ∧ y.sd.spills = [] ∧
        (match y.s.post (if y.s.scopeWide y.t sc.toNat then { w with tag := none } else w) (y.address r) d.width
            ((y.t.scalar r.d).toNat % 2 ^ (8 * d.width)) (ones d.width) false with
          | .ok s1 => decide (((y.reload s1).s.core (y.reload s1).t.core).nextNum ≠ (y.s.core y.t.core).nextNum)
          | _ => false) = true) ∧
    (∀ sc ∈ ([0, 1, 2, 3] : List (BitVec 5)),
      let r := { mem with scope := sc, fn := 0 }
      let d := deedOf (.rel r)
      let u := memUses r [opdB 0 r.d 1 (ones d.width)] false 0 false (some r.scope.toNat)
      let y := h0.woken u
      r.space = 1 ∧ h0.Ready r.mods u ∧ y.Passes r (y.address r) d.width d.width (ones d.width) ∧ y.MayFence sc.toNat ∧
        y.sd.spills = [] ∧ y.s.setClear y.t.core y.h y.k (y.s.core y.t.core).nextNum y.sd.acqUpto = true ∧
        y.MayAccess r .sp (y.address r) d.width (ones d.width)) ∧
    (∀ p ∈ ([0, 576 * 65536, 2 ^ 26] : List Nat),
      let x := here { team with regs := Mem.write [] 24 p 8 } 0
      let r := { mem with d := 2, base := 4, scope := 4, fn := 0, space := 0 }
      let u := memUses r [opdW 0 r.d 1 true] false 0 false (some r.scope.toNat)
      let v := memUses r [⟨0, r.d, 2, 0xF00, 0xFF⟩] false 0 false (some r.scope.toNat)
      let h := ((x.woken v).t.scalarAt r.d 1).toNat % 2 ^ 32
      MemW.remote r = false ∧ x.Ready r.mods u ∧ (x.woken u).Passes r ((x.woken u).address r) 8 8 (ones 8) ∧ x.Ready r.mods v ∧
        (x.woken v).Passes r ((x.woken v).address r) 8 8 (ones 8) ∧ (x.woken v).TakesTraps ∧
        (p = 0 → handleCore h < 576 ∧ handleCtx h = (x.woken v).t.ctx) ∧ (p = 576 * 65536 → 576 ≤ handleCore h) ∧
        (p = 2 ^ 26 → handleCore h < 576 ∧ handleCtx h ≠ (x.woken v).t.ctx)) := by
  refine ⟨fun sc hs => ⟨ready ?_, ?_, fenceable ?_⟩, fun sc hs => ⟨?_, ?_, ready ?_, passes ?_, fenceable ?_, ?_, ?_⟩,
    fun sc hs => ⟨?_, ready ?_, passes ?_, fenceable ?_, ?_, ?_, access ?_⟩,
    fun p hp => ⟨?_, ready ?_, passes ?_, ready ?_, passes ?_, ⟨Nat.zero_lt_succ 3, rfl, ?_, ?_⟩, ?_, ?_, ?_⟩⟩
  all_goals first | (revert sc; decide +kernel) | (revert p; decide +kernel)

/-- A core scope, a wider one of the package, and one that reaches every peer. -/
theorem meets_BarrierWords :
    ∀ sc ∈ ([0, 1, 2, 4, 5] : List (BitVec 5)),
      let u : Uses := { scope := some (sync sc).scope.toNat }
      let y := h0.woken u
      h0.Ready mem.mods u ∧ y.MayFence sc.toNat ∧ y.TakesTraps ∧ (y.s.scopeLevel y.t sc.toNat = 2 ↔ sc = 5) := by
  intro sc hs
  refine ⟨ready ?_, fenceable ?_, ⟨Nat.zero_lt_succ 3, rfl, ?_, ?_⟩, ?_⟩
  all_goals (revert sc; decide +kernel)

/-- The team whose access stream runs on, with one landed entry in each load queue. -/
def running : Team := { queued with accStopped := false }

theorem meets_QueueWords :
    (h0.Ready mem.mods {} ∧ h0.Ready mem.mods (plainUses [opdW 0 mem.d 1 true] 2 true)) ∧
    (let y := (here queued 0).woken {}
     (here queued 0).Ready mem.mods {} ∧ 1 ≤ filled (vget y.t.lqs 0 []) ∧ (vget y.t.lqs 0 []).length < 2 ∧ y.t.accStopped = true ∧
       y.TakesTraps) ∧
    (let y := (here running 0).woken {}
     (here running 0).Ready mem.mods {} ∧ filled (vget y.t.lqs 0 []) < 2 ∧ ¬(y.t.accStopped = true ∧ (vget y.t.lqs 0 []).length < 2)) := by
  refine ⟨⟨ready ?_, ready ?_⟩, ⟨ready ?_, ?_, ?_, ?_, ⟨by decide, rfl, ?_, ?_⟩⟩, ready ?_, ?_, ?_⟩
  all_goals decide +kernel

/-- The running team with no live strand; and with a landed entry in sq0. -/
def drainTeam : Team := { running with strands := {} }
def stored (t : Team) : Team := { t with sqs := Vector.replicate 2 [{ num := 1, data := some 9 }] }

/-- A word of the access stream: lq or sq 0, BASE s2. -/
def acc (op : BitVec 8) (sp : BitVec 3) (fn : BitVec 4) : MemW := { mem with op := op, d := 0, space := sp, fn := fn }

/-- s2 of the access stream's word at 0x8000, and not canonical. -/
def farRunning : Team := { running with regs := Mem.write [] 16 0x8000 8 }
def strayed : Team := { running with regs := Mem.write [] 16 (2 ^ 56) 8 }

def isCached (l : List (Nat × Nat × Nat × Xlat)) (va pa : Nat) : Bool :=
  match l with
  | [(v, 0, 128, .frame p)] => v == va && p == pa
  | _ => false

theorem cached {r : List (Nat × Nat × Nat × Xlat) × State} {va pa : Nat} (h : isCached r.1 va pa = true) :
    r = ([(va, 0, 128, .frame pa)], r.2) := by
  obtain ⟨x, s⟩ := r
  match x, h with
  | [(v, 0, 128, .frame p)], h =>
    simp only [isCached, Bool.and_eq_true, beq_iff_eq] at h
    obtain ⟨rfl, rfl⟩ := h
    rfl

theorem meets_AccessStreamWords :
    (let u := memUses (acc 0xC4 1 0) [] false 0 false none
     (here drainTeam 4).Ready mem.mods u ∧ ((here drainTeam 4).woken u).t.drainOnly = true) ∧
    (∀ t ∈ [running, { running with fe := fullTeam.fe }], ∀ sp ∈ ([1, 2] : List (BitVec 3)), ∀ fn ∈ ([0, 8] : List (BitVec 4)),
      let r := acc 0xC4 sp fn
      let u := memUses r [] false 0 false none
      let y := (here t 4).woken u
      (here t 4).Ready r.mods u ∧ y.t.drainOnly = false ∧ y.Passes r (y.address r) 128 8 (ones 128) ∧ (vget y.t.lqs 0 []).length < 16 ∧
        MemW.remote r = decide (fn = 8) ∧ r.space ≠ 0 ∧ y.MayAccess r (bufOfSpace r.space.toNat) (y.address r) 128 (ones 128)) ∧
    (let r := acc 0xC4 0 0
     let u := memUses r [] false 0 false none
     let x := here farRunning 4
     let y := x.woken u
     x.Ready r.mods u ∧ y.t.drainOnly = false ∧ y.Passes r (y.address r) 128 8 (ones 128) ∧ (vget y.t.lqs 0 []).length < 16 ∧
       r.space = 0 ∧ ∃ ps s1, y.s.spans y.t.ctx (dieOf y.t.core) (y.s.aperturesOf y.t) (y.address r) 128 (ones 128) .read
         { src := 1, handle := y.h } = (.ok ps, s1)) ∧
    (let r := acc 0xC4 1 1
     let x := here { running with fe := fullTeam.fe } 4
     let y := x.woken (memUses r [] false 0 false none)
     ∀ c ∈ ([Instr.fetchF, Instr.fetchFe] : List (MemW → Instr)), y.FeFree (deedOf (c r)) (y.address r) ∧
       y.MayAccess r .sp (y.address r) 128 (ones 128) ∧ (y.t.serve (deedOf (c r)) (y.address r) 0 0 0).isSome = true) ∧
    (∀ sp ∈ ([1, 2] : List (BitVec 3)), ∀ fn ∈ ([0, 8] : List (BitVec 4)),
      let r := acc 0xC5 sp fn
      let u := memUses r [] false 0 false none
      let x := here (stored running) 4
      let y := x.woken u
      x.Ready r.mods u ∧ vget y.t.sqs 0 [] = [{ num := 1, data := some 9 }] ∧ y.Passes r (y.address r) 128 8 (ones 128) ∧
        MemW.remote r = decide (fn = 8) ∧ r.space ≠ 0 ∧ y.sd.spills = [] ∧ y.MayRelease ∧
        y.MayAccess r (bufOfSpace r.space.toNat) (y.address r) 128 (ones 128) ∧
        (fn = 8 → handleCore (y.remoteHandle r) < 576 ∧ handleCtx (y.remoteHandle r) = y.t.ctx) ∧
        ∀ c ∈ ([Instr.drainEf, Instr.drainF] : List (MemW → Instr)),
          (y.t.serve (deedOf (c r)) (y.address r) 9 0 (ones 128)).isSome = true) ∧
    (let r := acc 0xC5 0 0
     let u := memUses r [] false 0 false none
     let x := here (stored farRunning) 4
     let y := x.woken u
     x.Ready r.mods u ∧ vget y.t.sqs 0 [] = [{ num := 1, data := some 9 }] ∧ y.Passes r (y.address r) 128 8 (ones 128) ∧
       r.space = 0 ∧ y.MayPost (y.address r) 128 ∧
       ∃ s1, y.s.post { y.writer with drainOf := some (0, 1) } (y.address r) 128 9 (ones 128) (4 ≤ y.k) = .ok s1) ∧
    (let r := acc 0xC7 0 0
     let x := here strayed 4
     let u := memUses r [] false 0 false none
     x.Ready r.mods u ∧ isCanon ((x.woken u).address r) = false) ∧
    (let r := acc 0xC7 0 0
     let x := here farRunning 4
     let u := memUses r [] false 0 false none
     let y := x.woken u
     x.Ready r.mods u ∧ y.t.drainOnly = false ∧ isCanon (y.address r) = true ∧
       apertureHit (y.s.aperturesOf y.t) (y.address r) 128 = .none ∧
       ∃ s1, y.s.translateAll y.t.ctx (dieOf y.t.core) .read (ones 128) (pagesOf (y.address r) 128)
           = ([(0x8000, 0, 128, .frame 0x8000)], s1) ∧
         (s1.core y.t.core).cache.length < 511 ∧ s1.team? y.h = some y.t) := by
  refine ⟨⟨ready ?_, ?_⟩, fun t ht sp hs fn hf => ⟨ready ?_, ?_, passes ?_, ?_, ?_, ?_, access ?_⟩,
    ⟨ready ?_, ?_, passes ?_, ?_, ?_, spanned (n := 1) ?_⟩, fun c hc => ⟨feFree ?_, access ?_, ?_⟩,
    fun sp hs fn hf => ⟨ready ?_, ?_, passes ?_, ?_, ?_, ?_, release ?_, access ?_, ?_, ?_⟩,
    ⟨ready ?_, ?_, passes ?_, ?_, mayPost ?_, posted ?_⟩, ⟨ready ?_, ?_⟩, ready ?_, ?_, ?_, ?_, _, cached ?_, ?_, rfl⟩
  all_goals first
    | (revert t sp fn; decide +kernel) | (revert sp fn; decide +kernel) | (revert c; decide +kernel) | decide +kernel

/-- A command of one word in s4; queue 1 with room, and with 32 commands. -/
def fullQueue : Team :=
  { team with q0 := { cmds := List.replicate 32 { seq := 0, recs := Vector.replicate 3 0, cmd := ⟨0, 0, 0, 0, 0, 0, 0, 0⟩ } } }

theorem meets_EngineQueueWords :
    (∀ p ∈ ([(team, true), (fullQueue, false)] : List (Team × Bool)),
      let x := here p.1 0
      let u : Uses := { opds := [⟨1, 4, 4, ones (8 * (lenOf (x.t.scalarAt 4 0) + 1)), 0⟩] }
      x.Ready mem.mods u ∧ (((x.woken u).t.queue 0).cmds.length < 32 ↔ p.2 = true)) ∧
    h0.Ready mem.mods {} ∧
    (∀ r ∈ [reg, regOff],
      let on := h0.gate0 r.pred r.pn
      h0.Ready r.mods { opds := [opdW 0 r.d 1 on], predR := gateReads r.pred, lat := 2, holds := on, off := !on } ∧
        h0.Ready r.mods { opds := [opdB 1 r.a 1 0xF], predR := gateReads r.pred, off := !on }) ∧
    (let r := { reg with a := 2 }
     let u : Uses := { opds := [opdB 1 r.a 2 0xF0F], predR := gateReads r.pred, off := !h0.gate0 r.pred r.pn }
     let y := h0.woken u
     let h := (y.t.scalarAt r.a 1).toNat % 2 ^ 32
     h0.Ready r.mods u ∧ y.gate0 r.pred r.pn = true ∧ handleCore h < 576 ∧ handleCtx h = y.t.ctx) := by
  refine ⟨fun p hp => ⟨ready ?_, ?_⟩, ready ?_, fun r hr => ⟨ready ?_, ready ?_⟩, ready ?_, ?_, ?_, ?_⟩
  all_goals first | (revert p; decide +kernel) | (revert r; decide +kernel) | decide +kernel

end Sys2Proof.Tests
end

section
/-! Proofs about the machine's state: reset, FLAGS, control registers, results in flight. -/

namespace Sys2Proof.Machine

open Sys2Proof

/-- The bits of FLAGS (R49), each set in the mask that a set of flags goes through. Its `decide +kernel` is checked where it
stands, after all that is above it: so the check of the whole text keeps fewer unfinished proofs in memory at one time. -/
def flagMask : { m : BitVec 64 // ∀ i < 10, m.getLsbD i = true } := ⟨0x3FF, by decide +kernel⟩

/-! ## Reset (R481) -/

/-- An entry of a file whose entries are all `a`, read with default `a`. -/
theorem vget_replicate {α : Type} (n i : Nat) (a : α) : vget (Vector.replicate n a) i a = a := by
  unfold vget
  split <;> simp

/-- Settles O58: the clocks and counters are files of zeros; the rest is the reset state read field by field. -/
theorem resetState : Obligations.ResetState := by
  unfold Obligations.ResetState
  refine ⟨rfl, rfl, rfl, rfl, rfl, rfl, rfl, rfl, rfl, rfl, rfl, rfl, fun c => ⟨rfl, rfl, rfl, rfl⟩, fun d i => ?_, rfl,
    fun d i => ?_, fun m i => ?_⟩
  · have h : vget State.reset.traffic d {} = {} := vget_replicate 4 d _
    rw [h]
    exact vget_replicate 10 i 0
  · have h : State.reset.clock d = Vector.replicate 4 0 := vget_replicate 4 d _
    rw [h]
    exact vget_replicate 4 i 0
  · have h : State.reset.appliedAt m = Vector.replicate 4 0 := vget_replicate 8 m _
    rw [h]
    exact vget_replicate 4 i 0

/-! ## FLAGS (R50) -/

/-- A FLAGS bit after a set: bits from 10 on are never set. -/
theorem Team.raise_flags_getLsbD (t : Team) (a : BitVec 64) {i : Nat} (hi : i < 10) :
    (t.raise a).flags.getLsbD i = (t.flags.getLsbD i || a.getLsbD i) ∧
      (t.raise a).flagNow.getLsbD i = (t.flagNow.getLsbD i || a.getLsbD i) := by
  have hm : (1023#64).getLsbD i = true := flagMask.2 i hi
  simp [Team.raise, hm]

/-- A FLAGS bit after a W1C write: a 1 clears it unless it was set in this cycle. -/
theorem Team.clearFlags_flags_getLsbD (t : Team) (v : BitVec 64) {i : Nat} (hi : i < 64) :
    (t.clearFlags v).flags.getLsbD i = (t.flags.getLsbD i && (!v.getLsbD i || t.flagNow.getLsbD i)) := by
  simp [Team.clearFlags, hi]

/-- Settles O7, bit by bit: what a set adds to FLAGS it adds to the record of the cycle too, and a W1C write leaves that. -/
theorem flagSetsAndClears : Obligations.FlagSetsAndClears := by
  unfold Obligations.FlagSetsAndClears
  refine ⟨fun t a b => ?_, fun t a v i hi => ?_⟩
  · simp only [Team.raise, BitVec.or_assoc]
    rw [← BitVec.and_or_distrib_right]
  · have hi64 : i < 64 := by omega
    obtain ⟨hset, hnow⟩ := t.raise_flags_getLsbD a hi
    obtain ⟨hset', -⟩ := (t.clearFlags v).raise_flags_getLsbD a hi
    rw [Team.clearFlags_flags_getLsbD _ _ hi64, hset, hnow, hset', Team.clearFlags_flags_getLsbD _ _ hi64]
    exact ⟨fun h => by simp [h], fun h h' => by simp [h, h']⟩

/-! ## Results that land (R73, R74) -/

/-- Stream k's results in flight that are due, in issue order. -/
def Team.dueFlights (t : Team) (k : Nat) : List Flight :=
  (t.strand k).flights.filter fun f => f.land ≤ (t.strand k).time

/-- The team once stream k's due results have left the flight. -/
def Team.undue (t : Team) (k : Nat) : Team :=
  t.setStrand k { t.strand k with flights := (t.strand k).flights.filter fun f => (t.strand k).time < f.land }

theorem Team.undue_strand (t : Team) {k : Nat} (hk : k ≤ 4) : (t.undue k).strand k =
    { t.strand k with flights := (t.strand k).flights.filter fun f => (t.strand k).time < f.land } :=
  Team.strand_setStrand_same _ _ _ hk

/-- Landing is the fold of the due results over the team without them. -/
theorem State.landDue_eq (s : State) (t : Team) (k : Nat) :
    s.landDue t k = (t.dueFlights k).foldl (fun t f => s.land t k f) (t.undue k) := rfl

/-- Setting no FLAGS bit changes nothing. -/
theorem Team.raise_zero (t : Team) : t.raise 0 = t := by simp [Team.raise]

/-- Touching granules one after another changes nothing else of the team. -/
theorem Team.touchGranules_frame (t : Team) (c : Nat) (gs : List Nat) :
    ∃ g, gs.foldl (fun t g => t.touchGranule c g) t = { t with grans := g } := t.wake_frame c gs

/-- Writing register bytes changes the registers and their granules' marks alone. -/
theorem Team.writeRegs_frame (t : Team) (c off v mask n : Nat) :
    ∃ g, t.writeRegs c off v mask n = { t with regs := Mem.writeN t.regs off v mask n, grans := g } :=
  Team.touchGranules_frame _ c _

/-- Writing a predicate changes the predicates alone. -/
theorem Strand.setPred_frame (x : Strand) (n : Nat) (v : PredBits) : ∃ p, x.setPred n v = { x with preds := p } := by
  unfold Strand.setPred
  split
  · exact ⟨x.preds, rfl⟩
  · exact ⟨_, rfl⟩

/-- Stream k is exiting in u just when it is in t. -/
def Team.SameExit (t : Team) (k : Nat) (u : Team) : Prop := (u.strand k).exiting = (t.strand k).exiting

theorem Team.SameExit.of_strands {t u : Team} {k : Nat} (h : u.strands = t.strands) : t.SameExit k u := by
  unfold Team.SameExit Team.strand
  rw [h]

theorem Team.SameExit.setStrand {t : Team} {k : Nat} {d : Strand} (hk : k ≤ 4) (h : d.exiting = (t.strand k).exiting) :
    t.SameExit k (t.setStrand k d) := by
  unfold Team.SameExit
  rw [Team.strand_setStrand_same t k d hk, h]

/-- Storing a control register leaves the stream's exit mark: the trap registers are all of the stream that it can reach. -/
theorem Team.storeCr_exiting (t : Team) {k : Nat} (n : Nat) (x : BitVec 64) (hk : k ≤ 4) :
    t.SameExit k (t.storeCr k n x) := by
  unfold Team.storeCr
  iterate 6 refine iteInduction (motive := t.SameExit k) (fun _ => .of_strands rfl) fun _ => ?_
  iterate 3 refine iteInduction (motive := t.SameExit k) (fun _ => .setStrand hk rfl) fun _ => ?_
  exact iteInduction (motive := t.SameExit k) (fun _ => .of_strands rfl) fun _ => rfl

/-- A landing leaves its stream's exit mark. -/
theorem State.land_exiting (s : State) (t : Team) {k : Nat} (f : Flight) (hk : k ≤ 4) :
    ((s.land t k f).strand k).exiting = (t.strand k).exiting := by
  unfold State.land
  cases f.dest with
  | reg off =>
    obtain ⟨g, hg⟩ := (t.raise f.flags).writeRegs_frame s.cycle off f.data f.mask f.len
    simp only [hg]
    rfl
  | pred n =>
    obtain ⟨p, hp⟩ := (t.strand k).setPred_frame n
      (BitVec.ofNat 128 (((t.strand k).pred n).toNat &&& (ones 128 ^^^ f.mask) ||| (f.data &&& f.mask)))
    simp only [Team.strand_setStrand_same _ _ _ hk, Team.strand_raise, hp]
  | push q num => rfl
  | creg n fn =>
    simp only [State.landCr]
    split
    · rfl
    · exact Team.storeCr_exiting (t.raise f.flags) n _ hk

theorem State.landAll_exiting (s : State) (t : Team) {k : Nat} (l : List Flight) (hk : k ≤ 4) :
    ((l.foldl (fun t f => s.land t k f) t).strand k).exiting = (t.strand k).exiting := by
  induction l generalizing t with
  | nil => rfl
  | cons f l ih => exact (ih _).trans (s.land_exiting t f hk)

/-- A stream that is not exiting does not stop. -/
theorem State.stopExited_running {s : State} {h k : Nat} {t : Team} (ht : s.team? h = some t)
    (he : (t.strand k).exiting = false) : s.stopExited h k = s := by
  simp [State.stopExited, ht, he]

/-- RESULT_LANDS for a stream that is not exiting: its due results land, and nothing else happens. -/
theorem exec_resultLands {s : State} {h k : Nat} {t : Team} (hk : k ≤ 4) (ht : s.team? h = some t)
    (he : (t.strand k).exiting = false) :
    exec (.resultLands h k) s = .next (s.setTeam h ((t.dueFlights k).foldl (fun t f => s.land t k f) (t.undue k))) := by
  change execResultLands h k s = _
  unfold execResultLands
  rw [ht]
  dsimp only
  rw [State.stopExited_running (State.team?_setTeam_same _ _ _), State.landDue_eq]
  rw [State.landDue_eq, State.landAll_exiting _ _ _ hk, Team.undue_strand t hk]
  exact he

/-- The same with one result due. -/
theorem exec_resultLands_one {s : State} {h k : Nat} {t : Team} {f : Flight} (hk : k ≤ 4) (ht : s.team? h = some t)
    (he : (t.strand k).exiting = false) (hf : t.dueFlights k = [f]) :
    exec (.resultLands h k) s = .next (s.setTeam h (s.land (t.undue k) k f)) := by
  rw [exec_resultLands hk ht he, hf]
  rfl

/-! ## Control registers (R45, R48, R51, R158–R160) -/

/-- A view register is stored as R34 and R35 say. -/
theorem viewStored_eq (v : Nat) (x : Word) : viewStored v x = viewWritten (viewMax v) x := by
  simp [viewStored, viewWritten, bits, Nat.shiftRight_eq_div_pow]

/-- TEAMCTL's LIVE field, strand by strand (R48). -/
theorem Team.teamctl_eq (t : Team) :
    t.teamctl = t.scben.toNat + 4 * (t.strand 0).live.toNat + 8 * (t.strand 1).live.toNat + 16 * (t.strand 2).live.toNat
      + 32 * (t.strand 3).live.toNat + 64 * (t.pri % 4) + 256 * (t.regsz % 32) := by
  have hb : ∀ (b : Bool) (n : Nat), (if b = true then n else 0) = n * b.toNat := by
    intro b n; cases b <;> simp
  simp only [Team.teamctl, List.range, List.range.loop, List.foldl_cons, List.foldl_nil, hb]
  omega

/-- BUFW's fields (R51). -/
theorem Team.bufw_eq (t : Team) :
    t.bufw = t.wbg % 256 + 0x100 * (t.abg % 256) + 0x10000 * (t.cbg % 256) + 0x1000000 * (t.spg % 256)
      + 0x100000000 * (t.ntiles % 128) := by
  simp only [Team.bufw]
  omega

/-- Each register of R45 reads as its table lays it out. -/
theorem State.readCr_table (s : State) (t : Team) {k : Nat} (hk : k ≤ 4) :
    ∀ e ∈ crReads, (s.readCr t k e.1).toNat = e.2 s t k % 2 ^ 64 := by
  have hk' : (if k < 4 then k else 4) = k := by split <;> omega
  have hw : ∀ v : Word, v.toNat % 18446744073709551616 = v.toNat := fun v => v.toNat_mod_cancel
  simp [crReads, State.readCr, Team.view, hk', Team.teamctl_eq, Team.bufw_eq, hw]

/-- A descriptor register reads as it stands. -/
theorem State.readCr_fd (s : State) (t : Team) (k : Nat) {n : Nat} (hn : 0x20 ≤ n) :
    s.readCr t k n = vget t.fds (n - 0x20) 0 := by
  unfold State.readCr
  dsimp only
  iterate 15 rw [if_neg (by omega)]

/-- A change of stream k that leaves its LIVE bit leaves TEAMCTL. -/
theorem Team.setStrand_teamctl (t : Team) {k : Nat} {d : Strand} (hk : k ≤ 4) (hd : d.live = (t.strand k).live) :
    (t.setStrand k d).teamctl = t.teamctl := by
  have key : ∀ j ≤ 4, ((t.setStrand k d).strand j).live = (t.strand j).live := by
    intro j hj
    by_cases h : j = k
    · subst h
      rw [Team.strand_setStrand_same _ _ _ hk, hd]
    · rw [Team.strand_setStrand_other _ _ _ _ hk hj h]
  rw [Team.teamctl_eq, Team.teamctl_eq, key 0 (by omega), key 1 (by omega), key 2 (by omega), key 3 (by omega)]
  rfl

/-- A writable register reads as its table says. -/
theorem State.readCr_writable (s : State) (t : Team) (k : Nat) : ∀ e ∈ crWrites, s.readCr t k e.1 = e.2.1 t k := by
  simp [crWrites, State.readCr, Team.view]

/-- A writable register takes a stored value under its field rules. -/
theorem Team.storeCr_writable (t : Team) (k : Nat) (x : Word) : ∀ e ∈ crWrites, t.storeCr k e.1 x = e.2.2 t k x := by
  have he : x.setWidth 32 = BitVec.ofNat 32 x.toNat := by
    apply BitVec.eq_of_toNat_eq
    simp
  have hz : BitVec.ofNat 32 x.toNat = 0 ↔ x.toNat % 2 ^ 32 = 0 := by
    rw [← BitVec.toNat_inj]
    simp
  have hl : (if x.setWidth 32 = 0 then 1 else x.setWidth 32)
      = if x.toNat % 2 ^ 32 = 0 then 1 else BitVec.ofNat 32 x.toNat := by
    simp only [he, hz]
  simp only [crWrites, List.forall_mem_cons, List.not_mem_nil, false_imp_iff, implies_true, and_true]
  exact ⟨congrArg (fun v => { t with vs := v }) (viewStored_eq 0 x), congrArg (fun v => { t with vv := v }) (viewStored_eq 1 x),
    congrArg (fun v => { t with va := v }) (viewStored_eq 2 x), congrArg (fun v => { t with vm := v }) (viewStored_eq 3 x),
    rfl, congrArg (fun v => { t with lfsr := v }) hl, rfl, rfl, rfl⟩

/-- A descriptor register takes a stored value without its reserved bits, and its statistics set is bound to none (R371). -/
theorem Team.storeCr_fd (t : Team) (k : Nat) (x : Word) {n : Nat} (hn : 0x20 ≤ n) : t.storeCr k n x =
    { t with fds := vset t.fds (n - 0x20) (x &&& ~~~(BitVec.ofNat 64 fdReserved)), binds := vset t.binds (n - 0x20) none } := by
  unfold Team.storeCr
  dsimp only
  iterate 9 rw [if_neg (by omega)]
  rw [if_pos hn]

/-- No other register of the table is FLAGS, and none reads anything of the results in flight. -/
theorem crWrites_undue (t : Team) {k : Nat} (hk : k ≤ 4) :
    ∀ e ∈ crWrites, e.1 ≠ 5 ∧ e.2.1 (t.undue k) k = e.2.1 t k := by
  have hc : (t.undue k).teamctl = t.teamctl := t.setStrand_teamctl hk rfl
  simp [crWrites, t.undue_strand hk, hc]
  exact ⟨rfl, rfl, rfl, rfl, rfl⟩

/-- A register read completes with the register's value at issue (R160). -/
theorem exec_crr {x : Here} {r : SysW} {u : Uses} (hu : plainUses [opdW 0 r.d 1 true] 3 true = u) (hr : x.Ready r.mods u) :
    ∃ s', exec (.crr r) x.s = .next s' ∧ HasIssued (x.woken u) s' r.mods (nextPc (x.woken u).pc)
      [(x.woken u).flyScalar r.d 3 ((x.woken u).s.readCr (x.woken u).t (x.woken u).k r.cr.toNat).toNat 0] := by
  refine ⟨_, ?_, Here.done_issued (y := x.woken u) _ _ hr.stream⟩
  change execCrr r x.s = _
  exact issueWord_ready hr hu

/-- A counter read completes with the counter's value at issue (R161). -/
theorem exec_ctrr {x : Here} {r : SysW} {u : Uses} (hu : plainUses [opdW 0 r.d 1 true] 3 true = u) (hr : x.Ready r.mods u) :
    ∃ s', exec (.ctrr r) x.s = .next s' ∧ HasIssued (x.woken u) s' r.mods (nextPc (x.woken u).pc)
      [(x.woken u).flyScalar r.d 3 (vget (x.woken u).t.ctrs (r.imm.toNat % 32) 0).toNat 0] := by
  refine ⟨_, ?_, Here.done_issued (y := x.woken u) _ _ hr.stream⟩
  change execCtrr r x.s = _
  exact issueWord_ready hr hu

/-- A number beyond a file reads as the default. -/
theorem vget_beyond {α : Type} {n : Nat} (v : Vector α n) {i : Nat} (d : α) (h : n ≤ i) : vget v i d = d := by
  simp [vget, Nat.not_lt.2 h]

/-- Settles O6: reads and writes go through the register tables, landings through the one result that is due. -/
theorem controlRegisterWords : Obligations.ControlRegisterWords := by
  unfold Obligations.ControlRegisterWords
  refine ⟨?reads, ?fdReads, crWriteForm_of fun _ _ => rfl, crWriteForm_of fun _ _ => rfl, crWriteForm_of fun _ _ => rfl,
    crWriteForm_of fun _ _ => rfl, ?counters, ?writes, ?fdWrites, ?flags⟩
  case reads =>
    intro e he x r hcr u hr
    obtain ⟨s', hs, hi⟩ := exec_crr (u := u) rfl hr
    refine ⟨s', hs, ?_⟩
    have hv := State.readCr_table (x.woken u).s (x.woken u).t (k := (x.woken u).k) hr.stream e he
    rw [hcr] at hi
    simpa only [Here.flyScalar, hv, Nat.mod_mod] using hi
  case fdReads =>
    intro x r h1 h2 u hr
    obtain ⟨s', hs, hi⟩ := exec_crr (u := u) rfl hr
    refine ⟨s', hs, ?_⟩
    rw [State.readCr_fd _ _ _ h1] at hi
    exact hi
  case counters =>
    intro x r u hr
    obtain ⟨s', hs, hi⟩ := exec_ctrr (u := u) rfl hr
    refine ⟨s', hs, ?_⟩
    by_cases hn : r.imm.toNat % 32 < 14
    · simpa only [hn, if_true] using hi
    · rw [vget_beyond _ _ (Nat.le_of_not_lt hn)] at hi
      dsimp only
      rw [if_neg hn]
      exact hi
  case writes =>
    intro e he s h k fn t f hk ht hx hf hd hfl h1 h4 t0 a old
    obtain ⟨h5, hold⟩ := crWrites_undue t hk e he
    refine ⟨_, exec_resultLands_one hk ht hx hf, ?_⟩
    have hl : s.land (t.undue k) k f = e.2.2 t0 k (if fn = 2 then old ||| a else if fn = 3 then old &&& ~~~a else a) := by
      simp only [State.land, hd, hfl, Team.raise_zero, State.landCr, if_neg h5, State.readCr_writable _ _ _ e he,
        Team.storeCr_writable _ _ _ e he, hold]
      rfl
    rw [hl]
    exact TeamIs.set
  case fdWrites =>
    intro s h k n fn t f hk ht hn hx hf hd hfl h1 h4 t0 a old v
    refine ⟨_, exec_resultLands_one hk ht hx hf, ?_⟩
    have hmask : ~~~(BitVec.ofNat 64 fdReserved) = 0x0000FFFF00FFF7FF := by decide
    have hold : s.readCr (t.undue k) k (0x20 + n) = old := by
      rw [State.readCr_fd _ _ _ (by omega), Nat.add_sub_cancel_left]
      rfl
    have hl : s.land (t.undue k) k f =
        { t0 with fds := vset t.fds n (v &&& 0x0000FFFF00FFF7FF), binds := vset t.binds n none } := by
      simp only [State.land, hd, hfl, Team.raise_zero, State.landCr, if_neg (show 0x20 + n ≠ 5 by omega), hold,
        Team.storeCr_fd _ _ _ (show 0x20 ≤ 0x20 + n by omega), Nat.add_sub_cancel_left, hmask]
      rfl
    rw [hl]
    exact TeamIs.set
  case flags =>
    intro s h k fn t f hk ht hx hf hd hfl
    refine ⟨_, exec_resultLands_one hk ht hx hf, ?_⟩
    simp only [State.land, hd, hfl, Team.raise_zero, State.landCr, if_true]
    exact TeamIs.set

end Sys2Proof.Machine
end

section
/-! Proofs about the step: the word that stands at a stream's PC, and the command in progress (R29, R88, R209). -/

namespace Sys2Proof.Machine

open Sys2Proof

/-- An access stream with no fault on the fault path keeps its halt bits as they are, and so does a strand. -/
theorem State.endIdleHalt_clear {s : State} {h k : Nat} {t : Team} (ht : s.team? h = some t) (hk : k ≤ 4)
    (hacc : k = 4 → t.accRefused = none ∧ t.accSerial = none) : s.endIdleHalt h k = s := by
  unfold State.endIdleHalt
  rw [ht]
  by_cases h4 : k = 4
  · obtain ⟨h1, h2⟩ := hacc h4
    simp [h1, h2]
  · have : ¬ 4 ≤ k := by omega
    simp [this]

/-- The word at a PC that translates to a frame is its 8 bytes as the core reads them (R29). -/
theorem State.fetchWord_frame {s s1 : State} {t : Team} {k pa n : Nat} (hf : (t.strand k).fetched = none)
    (hr : s.resolve t.ctx (dieOf t.core) [] (canon (t.strand k).pc.toNat) 8 .fetch
      { src := if k < 4 then 0 else 1, handle := t.handle } = (.ok (.frame pa) n, s1))
    (hl : s1.lineBad pa 8 = false) :
    s.fetchWord t k = (some (BitVec.ofNat 64 (s1.readAt t.core pa 8)), s1) := by
  unfold State.fetchWord
  simp [hf, hr, hl]

/-- A stream that may present a word runs the one that its fetch gives, when the word is no member of a sync group. -/
theorem State.issue_presents {s s1 : State} {h k : Nat} {t : Team} {w : Word} (ht : s.team? h = some t) (hk : k ≤ 4)
    (hp : t.presents k = true) (hw : (t.strand k).wait = .none)
    (hacc : k = 4 → t.accRefused = none ∧ t.accSerial = none ∧ s.accessFaulted h = false)
    (hf : s.fetchWord t k = (some w, s1)) (hs : k < 4 → wordSync w = false) :
    s.issue h k = s1.present h k t w := by
  unfold State.issue
  simp only [State.endIdleHalt_clear ht hk fun e => ⟨(hacc e).1, (hacc e).2.1⟩, ht, hp, hw, hf]
  by_cases h4 : k = 4
  · obtain ⟨h1, h2, h3⟩ := hacc h4
    simp [h4, h1, h2, h3]
  · have hlt : k < 4 := by omega
    have hge : ¬ 4 ≤ k := by omega
    simp [hge, hs hlt]

/-- A word presented with no event posted for its stream is executed, and then what follows a word is done. -/
theorem State.present_runs {s : State} {h k : Nat} {t : Team} {w : Word} {i : Instr} (he : t.eventFor k = none)
    (hd : decodeWord (decide (4 ≤ k)) w = .ok i) :
    s.present h k t w = (match exec i { s with cur := .strand h k } with
      | .next s2 => .next (s2.afterWord h k t)
      | o => o) := by
  unfold State.present
  rw [he]
  dsimp only
  unfold State.runWord
  rw [hd]
  rfl

/-- The command in progress in a queue is executed. -/
theorem State.performEngine_runs {s : State} {h q : Nat} {t : Team} {p : Prog} {i : Instr} (ht : s.team? h = some t)
    (hp : (t.queue q).prog = some p) (hd : decodeCmd p.cmd = some i) :
    s.performEngine h q = exec i { s with cur := .engine h q } := by
  unfold State.performEngine
  simp [ht, hp, hd]

/-- Settles O57: a stream's turn is a fetch and a presentation, an engine's turn its command in progress. -/
theorem stepRunsDecodedWord : Obligations.StepRunsDecodedWord := by
  unfold Obligations.StepRunsDecodedWord
  refine ⟨?_, ?_⟩
  · intro s s1 h k n pa t i rest ha ht hk hp hw hf he hacc hr hl w hd hs
    have hi : ({ s with agenda := rest } : State).issue h k = s1.present h k t w :=
      State.issue_presents ht hk hp hw hacc (State.fetchWord_frame hf hr hl) hs
    unfold step
    rw [ha]
    exact hi.trans (State.present_runs he hd)
  · intro s h q t p i rest ha ht hp hd
    unfold step
    rw [ha]
    exact congrArg (mirrored { s with agenda := rest })
      (State.performEngine_runs (s := { s with agenda := rest }) ht hp hd)

end Sys2Proof.Machine
end

section
/-! Proofs about landings: what one result writes, and of several due at once the later-issued one (R42, R73, R74, R76). -/

namespace Sys2Proof.Machine

open Sys2Proof

/-- Of two stores of one strand the later stands. -/
theorem Team.setStrand_setStrand (t : Team) (k : Nat) (x y : Strand) : (t.setStrand k x).setStrand k y = t.setStrand k y := by
  simp [Team.setStrand, Strands.put_put]

/-! ## Granules touched by a write (R42) -/

/-- A field of bits that is not 0 has a bit set. -/
theorem exists_testBit_of_bits_ne_zero {x lo n : Nat} (h : bits x lo n ≠ 0) : ∃ i < n, x.testBit (lo + i) = true := by
  by_contra hc
  push Not at hc
  apply h
  apply Nat.eq_of_testBit_eq
  intro i
  rw [bits, Nat.testBit_mod_two_pow, Nat.testBit_shiftRight, Nat.zero_testBit]
  by_cases hi : i < n
  · simp [hc i hi]
  · simp [hi]

/-- A unit listed for a masked range holds a byte of it that the mask enables. -/
theorem exists_enabled_of_mem_enabledUnits {size off len mask g : Nat} (h : g ∈ enabledUnits size off len mask) :
    ∃ a, off ≤ a ∧ a < off + len ∧ mask.testBit (a - off) = true ∧ a / size = g := by
  simp only [enabledUnits, List.mem_filter, decide_eq_true_eq] at h
  obtain ⟨i, hi, hb⟩ := exists_testBit_of_bits_ne_zero h.2
  refine ⟨max off (size * g) + i, by omega, by omega, ?_, ?_⟩
  · rwa [show max off (size * g) + i - off = max off (size * g) - off + i by omega]
  · apply Nat.div_eq_of_lt_le
    · rw [Nat.mul_comm]; omega
    · rw [Nat.add_mul, Nat.mul_comm g]; omega

/-- A granule that is not among those touched keeps its marks. -/
theorem Team.touchGranules_other (t : Team) (c : Nat) {gs : List Nat} {g : Nat} (h : g ∉ gs) :
    vget (gs.foldl (fun t g => t.touchGranule c g) t).grans g {} = vget t.grans g {} := by
  induction gs generalizing t with
  | nil => rfl
  | cons a l ih =>
    rw [List.mem_cons, not_or] at h
    exact (ih _ h.2).trans (vget_vset_other _ _ _ _ _ h.1)

/-- A write of register bytes touches no granule but those of the bytes that it writes. -/
theorem Team.writeRegs_grans_other (t : Team) (c off v mask n : Nat) {g : Nat}
    (h : ∀ a, off ≤ a → a < off + n → mask.testBit (a - off) = true → a / 4096 ≠ g) :
    vget (t.writeRegs c off v mask n).grans g {} = vget t.grans g {} := by
  refine Team.touchGranules_other _ c fun hg => ?_
  obtain ⟨a, h1, h2, h3, h4⟩ := exists_enabled_of_mem_enabledUnits hg
  exact h a h1 h2 h3 h4

theorem Team.writeRegs_regs (t : Team) (c off v mask n : Nat) :
    (t.writeRegs c off v mask n).regs = Mem.writeN t.regs off v mask n := by
  obtain ⟨g, hg⟩ := t.writeRegs_frame c off v mask n
  rw [hg]

/-! ## Predicates (R44) -/

/-- A masked write of a predicate: bit by bit, the data where the mask is 1. -/
theorem maskedPred_getLsbD (old : PredBits) (data mask : Nat) {i : Nat} (hi : i < 128) :
    (BitVec.ofNat 128 (old.toNat &&& (ones 128 ^^^ mask) ||| (data &&& mask))).getLsbD i =
      if mask.testBit i then data.testBit i else old.getLsbD i := by
  rw [BitVec.getLsbD_ofNat]
  simp only [hi, decide_true, Bool.true_and, Nat.testBit_or, Nat.testBit_and, Nat.testBit_xor, testBit_ones]
  cases hm : mask.testBit i <;> simp [BitVec.getLsbD]

theorem Strand.setPred_pred_same (x : Strand) {n : Nat} (v : PredBits) (h1 : 1 ≤ n) (h7 : n ≤ 7) : (x.setPred n v).pred n = v := by
  have h0 : n ≠ 0 := by omega
  simp only [Strand.setPred, Strand.pred, h0, if_false]
  exact vget_vset_same _ _ _ _ (by omega)

theorem Strand.setPred_pred_other (x : Strand) {n m : Nat} (v : PredBits) (h : m ≠ n) : (x.setPred n v).pred m = x.pred m := by
  unfold Strand.setPred Strand.pred
  by_cases hn : n = 0
  · rw [if_pos hn]
  · rw [if_neg hn]
    by_cases hm : m = 0
    · rw [if_pos hm, if_pos hm]
    · rw [if_neg hm, if_neg hm]
      exact vget_vset_other _ _ _ _ _ (by omega)

/-! ## One landing (R73) -/

/-- What a predicate result leaves in its strand. -/
def Strand.landPred (x : Strand) (n : Nat) (f : Flight) : Strand :=
  x.setPred n (BitVec.ofNat 128 ((x.pred n).toNat &&& (ones 128 ^^^ f.mask) ||| (f.data &&& f.mask)))

theorem Strand.landPred_frame (x : Strand) (n : Nat) (f : Flight) : ∃ p, x.landPred n f = { x with preds := p } :=
  x.setPred_frame n _

theorem Strand.landPred_getLsbD (x : Strand) {n i : Nat} (f : Flight) (h1 : 1 ≤ n) (h7 : n ≤ 7) (hi : i < 128) :
    ((x.landPred n f).pred n).getLsbD i = if f.mask.testBit i then f.data.testBit i else (x.pred n).getLsbD i := by
  rw [Strand.landPred, Strand.setPred_pred_same _ _ h1 h7, maskedPred_getLsbD _ _ _ hi]

section
variable (s : State) (t : Team) (k : Nat) {f : Flight}

theorem State.land_reg {off : Nat} (hd : f.dest = .reg off) :
    s.land t k f = (t.raise f.flags).writeRegs s.cycle off f.data f.mask f.len := by
  simp only [State.land, hd]

theorem State.land_pred {n : Nat} (hd : f.dest = .pred n) :
    s.land t k f = (t.raise f.flags).setStrand k ((t.strand k).landPred n f) := by
  simp only [State.land, hd]
  rfl

theorem State.land_push {q num : Nat} (hd : f.dest = .push q num) :
    s.land t k f = { t.raise f.flags with sqs := vset t.sqs q ((vget t.sqs q []).map fun e =>
      if e.num = num then { e with data := some f.data } else e) } := by
  simp only [State.land, hd]
  rfl

/-- FLAGS after a landing that is no control-register write. -/
theorem State.land_flags (hc : ∀ n fn, f.dest ≠ .creg n fn) : (s.land t k f).flags = t.flags ||| (f.flags &&& 0x3FF) := by
  cases hd : f.dest with
  | reg off =>
    obtain ⟨g, hg⟩ := (t.raise f.flags).writeRegs_frame s.cycle off f.data f.mask f.len
    rw [s.land_reg t k hd, hg]
    rfl
  | pred n => rw [s.land_pred t k hd]; rfl
  | push q num => rw [s.land_push t k hd]; rfl
  | creg n fn => exact absurd hd (hc n fn)

/-- The registers after a landing: a register result's bytes under its mask, and otherwise as they were. -/
theorem State.land_regs (hc : ∀ n fn, f.dest ≠ .creg n fn) :
    (s.land t k f).regs = match f.dest with
      | .reg off => Mem.writeN t.regs off f.data f.mask f.len
      | _ => t.regs := by
  cases hd : f.dest with
  | reg off => rw [s.land_reg t k hd, Team.writeRegs_regs]; rfl
  | pred n => rw [s.land_pred t k hd]; rfl
  | push q num => rw [s.land_push t k hd]; rfl
  | creg n fn => exact absurd hd (hc n fn)

theorem State.land_regs_wf (hc : ∀ n fn, f.dest ≠ .creg n fn) (hw : t.regs.wf = true) : (s.land t k f).regs.wf = true := by
  rw [s.land_regs t k hc]
  split
  · exact Mem.wf_writeN _ _ _ _ hw
  · exact hw

/-- A byte that the result covers is the result's; every other byte stands as it did. -/
theorem State.land_byte_covered {off a : Nat} (hd : f.dest = .reg off) (hw : t.regs.wf = true) (ha : f.covers a) :
    Mem.get (s.land t k f).regs a = BitVec.ofNat 8 (f.data >>> (8 * (a - off))) := by
  obtain ⟨off', hd', h⟩ := ha
  obtain rfl : off = off' := by rw [hd] at hd'; injection hd'
  rw [s.land_regs t k (by simp [hd]), hd]
  dsimp only
  rw [Mem.get_writeN _ _ _ _ _ hw, if_pos h]

theorem State.land_byte_other {a : Nat} (hc : ∀ n fn, f.dest ≠ .creg n fn) (hw : t.regs.wf = true) (ha : ¬ f.covers a) :
    Mem.get (s.land t k f).regs a = Mem.get t.regs a := by
  rw [s.land_regs t k hc]
  split
  · next off hd =>
    rw [Mem.get_writeN _ _ _ _ _ hw, if_neg fun h => ha ⟨off, hd, h⟩]
  · rfl

/-- A landing reaches the strand's predicates at most, and only a predicate result does. -/
theorem State.land_strand (hk : k ≤ 4) (hc : ∀ n fn, f.dest ≠ .creg n fn) :
    (s.land t k f).strand k = match f.dest with
      | .pred n => (t.strand k).landPred n f
      | _ => t.strand k := by
  cases hd : f.dest with
  | reg off =>
    obtain ⟨g, hg⟩ := (t.raise f.flags).writeRegs_frame s.cycle off f.data f.mask f.len
    rw [s.land_reg t k hd, hg]
    rfl
  | pred n => rw [s.land_pred t k hd, Team.strand_setStrand_same _ _ _ hk]
  | push q num => rw [s.land_push t k hd]; rfl
  | creg n fn => exact absurd hd (hc n fn)

/-- A predicate bit that the result's mask names is the result's; every other one stands as it did. -/
theorem State.land_predBit_covered {n i : Nat} (hk : k ≤ 4) (hd : f.dest = .pred n) (h1 : 1 ≤ n) (h7 : n ≤ 7) (hi : i < 128)
    (hm : f.mask.testBit i = true) : (((s.land t k f).strand k).pred n).getLsbD i = f.data.testBit i := by
  rw [s.land_strand t k hk (by simp [hd]), hd]
  dsimp only
  rw [Strand.landPred_getLsbD _ _ h1 h7 hi, if_pos hm]

theorem State.land_predBit_other {n i : Nat} (hk : k ≤ 4) (hc : ∀ n fn, f.dest ≠ .creg n fn) (h1 : 1 ≤ n) (h7 : n ≤ 7)
    (hi : i < 128) (hm : f.dest = .pred n → f.mask.testBit i = false) :
    (((s.land t k f).strand k).pred n).getLsbD i = ((t.strand k).pred n).getLsbD i := by
  rw [s.land_strand t k hk hc]
  split
  · next m hd =>
    by_cases h : n = m
    · subst h
      rw [Strand.landPred_getLsbD _ _ h1 h7 hi, hm hd]
      rfl
    · rw [Strand.landPred, Strand.setPred_pred_other _ _ h]
  · rfl

end

/-! ## Several landings in issue order (R74) -/

section
variable (s : State) (k : Nat)

/-- The results of a list land one after another. -/
def State.landAll (t : Team) (l : List Flight) : Team := l.foldl (fun t f => s.land t k f) t

theorem State.landAll_append (t : Team) (l1 : List Flight) (f : Flight) (l2 : List Flight) :
    s.landAll k t (l1 ++ f :: l2) = s.landAll k (s.land (s.landAll k t l1) k f) l2 := by
  simp only [State.landAll, List.foldl_append, List.foldl_cons]

variable {l : List Flight} (hc : ∀ f ∈ l, ∀ n fn, f.dest ≠ .creg n fn)
include hc

theorem State.landAll_wf {t : Team} (hw : t.regs.wf = true) : (s.landAll k t l).regs.wf = true := by
  induction l generalizing t with
  | nil => exact hw
  | cons f l ih =>
    rw [List.forall_mem_cons] at hc
    exact ih hc.2 (s.land_regs_wf t k hc.1 hw)

theorem State.landAll_byte_other {t : Team} {a : Nat} (hw : t.regs.wf = true) (ha : ∀ f ∈ l, ¬ f.covers a) :
    Mem.get (s.landAll k t l).regs a = Mem.get t.regs a := by
  induction l generalizing t with
  | nil => rfl
  | cons f l ih =>
    rw [List.forall_mem_cons] at hc ha
    exact (ih hc.2 (s.land_regs_wf t k hc.1 hw) ha.2).trans (s.land_byte_other t k hc.1 hw ha.1)

theorem State.landAll_predBit_other {t : Team} {n i : Nat} (hk : k ≤ 4) (h1 : 1 ≤ n) (h7 : n ≤ 7) (hi : i < 128)
    (hm : ∀ f ∈ l, f.dest = .pred n → f.mask.testBit i = false) :
    (((s.landAll k t l).strand k).pred n).getLsbD i = ((t.strand k).pred n).getLsbD i := by
  induction l generalizing t with
  | nil => rfl
  | cons f l ih =>
    rw [List.forall_mem_cons] at hc hm
    exact (ih hc.2 hm.2).trans (s.land_predBit_other t k hk hc.1 h1 h7 hi hm.1)

/-- FLAGS take the sets of all the results: `x` stands for the sets made before these. -/
theorem State.landAll_flags {t : Team} {x y : BitVec 64} (ht : t.flags = y ||| (x &&& 0x3FF)) :
    (s.landAll k t l).flags = y ||| (l.foldl (fun x f => x ||| f.flags) x &&& 0x3FF) := by
  induction l generalizing t x with
  | nil => exact ht
  | cons f l ih =>
    rw [List.forall_mem_cons] at hc
    refine ih hc.2 ?_
    rw [s.land_flags t k hc.1, ht, BitVec.or_assoc, ← BitVec.and_or_distrib_right]

end

/-! ## Exit (R76) -/

/-- With no result in flight nothing lands. -/
theorem State.landDue_nothing {s : State} {t : Team} {k : Nat} (h : (t.strand k).flights = []) : s.landDue t k = t := by
  have hs : { t.strand k with flights := [] } = t.strand k := by rw [← h]
  rw [State.landDue_eq, Team.dueFlights, Team.undue, h]
  simp only [List.filter_nil, List.foldl_nil, hs, Team.setStrand_self]

/-- A strand that exits with nothing in flight stops being live; the team goes on while another strand is live. -/
theorem State.stopExited_strand {s : State} {h k j : Nat} {t : Team} (hk : k < 4) (hj : j < 4) (hjk : j ≠ k)
    (ht : s.team? h = some t) (hx : (t.strand k).exiting = true) (hl : (t.strand k).live = true)
    (hlj : (t.strand j).live = true) (hf : (t.strand k).flights = []) :
    s.stopExited h k = s.setTeam h (t.setStrand k { t.strand k with live := false, exiting := false, wait := .none }) := by
  have hmem : j ∈ (t.setStrand k { t.strand k with live := false, exiting := false, wait := .none }).liveStrands := by
    rw [Team.liveStrands, List.mem_filter, List.mem_range, Team.strand_setStrand_other _ _ _ _ (by omega) (by omega) hjk]
    exact ⟨hj, hlj⟩
  have he : (t.strand k).flights.isEmpty = true := by rw [hf]; rfl
  unfold State.stopExited
  simp only [ht, hx, he, hl, hk, Bool.not_true, Bool.or_self, Bool.false_eq_true, if_false, if_true]
  rw [if_neg]
  rw [List.isEmpty_iff]
  exact List.ne_nil_of_mem hmem

/-- Settles O38: one landing at a time from the rules above, several as their fold, and an exit. -/
theorem resultsLand : Obligations.ResultsLand := by
  unfold Obligations.ResultsLand
  refine ⟨?reg, ?push, ?pred, ?pred0, ?several, ?exit⟩
  case reg =>
    intro s h k off t f hk ht hx hf hd hw
    refine ⟨_, _, exec_resultLands_one hk ht hx hf, TeamIs.set, ?_, fun g hg => ?_, fun a => ?_⟩
    · obtain ⟨g, hg⟩ := ((t.undue k).raise f.flags).writeRegs_frame s.cycle off f.data f.mask f.len
      rw [s.land_reg _ k hd, hg]
      rfl
    · rw [s.land_reg _ k hd, Team.writeRegs_grans_other _ _ _ _ _ _ hg]
      rfl
    · rw [s.land_reg _ k hd, Team.writeRegs_regs]
      exact Mem.get_writeN _ _ _ _ _ hw
  case push =>
    intro s h k q num t f hk ht hx hf hd
    refine ⟨_, exec_resultLands_one hk ht hx hf, ?_⟩
    rw [s.land_push _ k hd]
    exact TeamIs.set
  case pred =>
    intro s h k n t f hk h1 h7 ht hx hf hd
    refine ⟨_, ((t.undue k).strand k).landPred n f, exec_resultLands_one hk ht hx hf, ?_, ?_, fun m hm => ?_, fun i hi => ?_⟩
    · rw [s.land_pred _ k hd]
      rw [show (t.undue k).raise f.flags = (t.raise f.flags).undue k from rfl, Team.undue, Team.setStrand_setStrand]
      exact TeamIs.set
    · obtain ⟨p, hp⟩ := ((t.undue k).strand k).landPred_frame n f
      rw [hp, Team.undue_strand _ hk]
    · rw [Strand.landPred, Strand.setPred_pred_other _ _ hm, Team.undue_strand _ hk]
      rfl
    · rw [Strand.landPred_getLsbD _ _ h1 h7 hi, Team.undue_strand _ hk]
      rfl
  case pred0 =>
    intro s h k t f hk ht hx hf hd
    refine ⟨_, exec_resultLands_one hk ht hx hf, ?_⟩
    have h0 : ((t.undue k).strand k).landPred 0 f = (t.undue k).strand k := rfl
    rw [s.land_pred _ k hd, h0, ← Team.strand_raise (t.undue k) f.flags, Team.setStrand_self]
    exact TeamIs.set
  case several =>
    intro s h k t l hk ht hx hl hland hc hw
    have hdue : t.dueFlights k = l := hl
    have hu : (t.undue k).strand k = _ := Team.undue_strand t hk
    have happ : ∀ {l1 f l2}, l = l1 ++ f :: l2 →
        (∀ g ∈ l1, ∀ n fn, g.dest ≠ .creg n fn) ∧ ∀ g ∈ l2, ∀ n fn, g.dest ≠ .creg n fn := by
      rintro l1 f l2 rfl
      exact ⟨fun g hg => hc g (by simp [hg]), fun g hg => hc g (by simp [hg])⟩
    refine ⟨_, s.landAll k (t.undue k) l, (exec_resultLands hk ht hx).trans ?_, TeamIs.set, fun a ha => ?_,
      fun l1 f l2 off a hs hd ha h2 => ?_, fun n i h1 h7 hi hm => ?_, fun l1 f l2 n i hs hd h1 h7 hi hm h2 => ?_, ?_⟩
    · rw [hdue]
      rfl
    · exact s.landAll_byte_other k hc hw ha
    · obtain ⟨hc1, hc2⟩ := happ hs
      have hw1 := s.landAll_wf k hc1 (t := t.undue k) hw
      rw [hs, State.landAll_append, s.landAll_byte_other k hc2 (s.land_regs_wf _ k (by simp [hd]) hw1) h2,
        s.land_byte_covered _ k hd hw1 ha]
    · rw [s.landAll_predBit_other k hc hk h1 h7 hi hm, hu]
      rfl
    · obtain ⟨hc1, hc2⟩ := happ hs
      rw [hs, State.landAll_append, s.landAll_predBit_other k hc2 hk h1 h7 hi h2,
        s.land_predBit_covered _ k hk hd h1 h7 hi hm]
    · exact s.landAll_flags k hc (x := 0) (by simp [Team.undue])
  case exit =>
    intro s h k j t hk hj hjk ht hx hl hlj hf
    refine ⟨_, ?_, TeamIs.set_set (u := t)⟩
    change execResultLands h k s = _
    unfold execResultLands
    rw [ht]
    dsimp only
    rw [State.landDue_nothing hf]
    exact congrArg _ (State.stopExited_strand hk hj hjk (State.team?_setTeam_same _ _ _) hx hl hlj hf)

end Sys2Proof.Machine
end

section
/-! Proofs about waits and holds that end (R154, R155, R168, R218, R233, R294, R318). -/

namespace Sys2Proof.Machine

open Sys2Proof

/-! ## Stores of one team, one after another -/

/-- Of two entries put at one key the later stands. -/
theorem tput_tput {α : Type} (t : List (Nat × α)) (k : Nat) (v w : α) : tput (tput t k v) k w = tput t k w := by
  induction t with
  | nil => simp [tput]
  | cons e r ih =>
    obtain ⟨a, b⟩ := e
    by_cases h1 : k < a
    · simp [tput, h1]
    · by_cases h2 : a = k
      · simp [tput, h2]
      · simp [tput, h1, h2, ih]

theorem State.setTeam_setTeam (s : State) (h : Nat) (t u : Team) : (s.setTeam h t).setTeam h u = s.setTeam h u := by
  simp [State.setTeam, tput_tput]

theorem TeamIs.refl {s : State} {h : Nat} {t : Team} (ht : s.team? h = some t) : TeamIs s s h t := ⟨ht, fun _ _ => rfl, rfl⟩

theorem TeamIs.trans {s s1 s2 : State} {h : Nat} {t u : Team} (h1 : TeamIs s s1 h t) (h2 : TeamIs s1 s2 h u) :
    TeamIs s s2 h u :=
  ⟨h2.team, fun g hg => (h2.others g hg).trans (h1.others g hg), by rw [h2.rest, h1.rest]⟩

/-! ## A wait that ends -/

/-- Stream k of a team goes on after an acquire (R318): the writes of its core's path below `num` happen before what it does. -/
def Team.goOn (t : Team) (k num : Nat) : Team := t.setStrand k { t.strand k with wait := .none, acqUpto := num }

theorem Team.unwait_acquired (t : Team) {k : Nat} (num : Nat) (hk : k ≤ 4) : (t.unwait k).acquired k num = t.goOn k num := by
  rw [Team.acquired, Team.unwait, Team.strand_setStrand_same _ _ _ hk, Team.setStrand_setStrand]
  rfl

/-- A strand acquires: nothing but it changes. -/
theorem State.acquires_strand {s : State} {h k : Nat} {t : Team} (ht : s.team? h = some t) (hk : k < 4) :
    s.acquires h k = s.setTeam h (t.acquired k (s.core t.core).nextNum) := by
  unfold State.acquires
  simp only [ht, hk, if_true]

/-- A stream's acquire changes it in its team, and the access stream's the reader marks of its core's access cache (R301). -/
theorem State.acquires_frame {s : State} {h k : Nat} {t : Team} (ht : s.team? h = some t) :
    (s.acquires h k).team? h = some (t.acquired k (s.core t.core).nextNum) ∧
      (∀ g, g ≠ h → (s.acquires h k).team? g = s.team? g) ∧
      s.acquires h k = { s with teams := (s.acquires h k).teams, cores := (s.acquires h k).cores } ∧
      (k < 4 → (s.acquires h k).cores = s.cores) := by
  by_cases hk : k < 4
  · rw [State.acquires_strand ht hk]
    exact ⟨State.team?_setTeam_same _ _ _, fun g hg => State.team?_setTeam_other _ _ _ _ hg, rfl, fun _ => rfl⟩
  · unfold State.acquires
    simp only [ht, hk, if_false]
    exact ⟨State.team?_setTeam_same _ _ _, fun g hg => State.team?_setTeam_other _ _ _ _ hg, rfl, fun hf => hf.elim⟩

/-- The end of a wait for what another agent completed. -/
theorem State.endWait_acquires {s : State} {h k : Nat} {t : Team} (ha : (t.strand k).wait.acquires = true) (hk : k ≤ 4) :
    (s.endWait h k t).team? h = some (t.goOn k (s.core t.core).nextNum) ∧
      (∀ g, g ≠ h → (s.endWait h k t).team? g = s.team? g) ∧
      s.endWait h k t = { s with teams := (s.endWait h k t).teams, cores := (s.endWait h k t).cores } ∧
      (k < 4 → (s.endWait h k t).cores = s.cores) := by
  obtain ⟨h1, h2, h3, h4⟩ := State.acquires_frame (k := k) (State.team?_setTeam_same s h (t.unwait k))
  have e : s.endWait h k t = (s.setTeam h (t.unwait k)).acquires h k := by
    unfold State.endWait
    rw [if_pos ha]
  rw [e]
  refine ⟨h1.trans (congrArg some (t.unwait_acquired _ hk)), fun g hg => (h2 g hg).trans (State.team?_setTeam_other _ _ _ _ hg),
    ?_, h4⟩
  rw [h3]
  rfl

/-- The end of a wait on time or on the stream itself is no acquire. -/
theorem State.endWait_plain {s : State} {h k : Nat} {t : Team} (ha : (t.strand k).wait.acquires = false) :
    s.endWait h k t = s.setTeam h (t.unwait k) := by
  simp [State.endWait, ha]

/-- WAIT_CONDITION_MET for a wait, but for `wait.sig`, whose condition holds. -/
theorem exec_waitConditionMet {s : State} {h k : Nat} {t : Team} (ht : s.team? h = some t) (hr : t.resident = true)
    (he : t.eventNow k = none) (hw : ((t.strand k).wait.isWait || (t.strand k).wait.isOrdering) = true)
    (ho : s.headOk t k = true) (hs : ∀ n, (t.strand k).wait ≠ .sig n) :
    exec (.waitConditionMet h k) s = .next (s.endWait h k t) := by
  change execWaitConditionMet h k s = _
  unfold execWaitConditionMet
  simp only [ht, he, hr, hw, ho, Bool.and_self, if_true]

/-- WAIT_CONDITION_MET for `wait.sig`: a unit that is there is consumed (R55, R154). -/
theorem exec_waitConditionMet_sig {s : State} {h k n : Nat} {t : Team} (ht : s.team? h = some t) (hr : t.resident = true)
    (he : t.eventNow k = none) (hw : (t.strand k).wait = .sig n) (ha : 0 < t.available n) :
    exec (.waitConditionMet h k) s = .next (s.endWait h k (t.slotChange (.dec n))) := by
  have ho : s.headOk t k = true := by
    unfold State.headOk
    simpa only [hw, decide_eq_true_eq] using ha
  change execWaitConditionMet h k s = _
  unfold execWaitConditionMet
  have hi : (Wait.sig n).isWait = true := rfl
  simp only [ht, he, hr, hw, ho, hi, Bool.true_or, Bool.and_self, if_true]

/-- Each wait for what another agent completes, with the condition at which it ends. -/
theorem State.headOk_of_acquire {s : State} {t : Team} {k : Nat}
    (h : (∃ n x, (t.strand k).wait = .tile n ∧ t.tile? n = some x ∧ x.was = .ready) ∨
      (∃ q seq, (t.strand k).wait = .queue q seq ∧ (t.queue q).uncompleted seq = 0) ∨
      (∃ sc n, (t.strand k).wait = .fence sc n ∧ s.fencePassed t k sc n = true) ∨
      ∃ q n, (t.strand k).wait = .drained q n ∧ s.drainPassed t q n = true) :
    ((t.strand k).wait.isWait || (t.strand k).wait.isOrdering) = true ∧ (∀ n, (t.strand k).wait ≠ .sig n) ∧
      (t.strand k).wait.acquires = true ∧ s.headOk t k = true := by
  unfold State.headOk
  rcases h with ⟨n, x, hw, hx, hy⟩ | ⟨q, seq, hw, hx⟩ | ⟨sc, n, hw, hx⟩ | ⟨q, n, hw, hx⟩
  all_goals refine ⟨by rw [hw]; rfl, by simp [hw], by rw [hw]; rfl, ?_⟩
  · simp [hw, hx, hy]
  · simp [hw, hx]
  · simp [hw, hx]
  · simp [hw, hx]

/-- Each wait on time or on the stream itself, with the condition at which it ends. -/
theorem State.headOk_of_time {s : State} {t : Team} {k : Nat}
    (h : (∃ a, (t.strand k).wait = .mer a ∧ a.toNat ≤ s.meridian) ∨ (t.strand k).wait = .yield ∨
      ∃ n, (t.strand k).wait = .answered n) :
    ((t.strand k).wait.isWait || (t.strand k).wait.isOrdering) = true ∧ (∀ n, (t.strand k).wait ≠ .sig n) ∧
      (t.strand k).wait.acquires = false ∧ s.headOk t k = true := by
  unfold State.headOk
  rcases h with ⟨a, hw, hx⟩ | hw | ⟨n, hw⟩
  all_goals refine ⟨by rw [hw]; rfl, by simp [hw], by rw [hw]; rfl, ?_⟩
  · simp [hw, hx]
  · simp [hw]
  · simp [hw]

/-- The event that a strand takes at once is the one delivered to it. -/
theorem Team.eventNow_eventStrand {t : Team} {k : Nat} {e : AsyncEvent} (h : t.eventNow k = some e) : t.eventStrand = some k := by
  unfold Team.eventNow at h
  split at h
  · next hc =>
    simp only [Bool.and_eq_true, decide_eq_true_eq] at hc
    exact hc.1.1.1.1
  · cases h

/-- WAIT_CONDITION_MET where an event is taken at once: it comes instead (R168). -/
theorem exec_waitConditionMet_event {s : State} {h k : Nat} {t : Team} {e : AsyncEvent} (ht : s.team? h = some t)
    (he : t.eventNow k = some e) : exec (.waitConditionMet h k) s = .next (s.deliver h k e) := by
  change execWaitConditionMet h k s = _
  unfold execWaitConditionMet
  simp only [ht, he]

/-- ASYNC_EVENT_DELIVERY: the event that a strand takes at once is delivered to it (R168). -/
theorem exec_asyncEventDelivery {s : State} {h k : Nat} {t : Team} {e : AsyncEvent} (ht : s.team? h = some t)
    (he : t.eventNow k = some e) : exec (.asyncEventDelivery h) s = .next (s.deliver h k e) := by
  change execAsyncEventDelivery h s = _
  unfold execAsyncEventDelivery
  simp only [ht, Team.eventNow_eventStrand he, Option.bind_some, he, Option.map_some]

/-- HEAD_CONDITION_MET for a hold whose condition holds. -/
theorem exec_headConditionMet {s : State} {h k : Nat} {t : Team} (ht : s.team? h = some t) (hr : t.resident = true)
    (hw : (t.strand k).wait.isHold = true) (ho : s.headOk t k = true) :
    exec (.headConditionMet h k) s = .next (s.setTeam h (t.unwait k)) := by
  change execHeadConditionMet h k s = _
  unfold execHeadConditionMet
  simp only [ht, hr, hw, ho, Bool.and_self, if_true]

/-- Each hold of R31, R57, R218 and R294 with the condition at which it ends. -/
theorem State.headOk_of_hold {s : State} {t : Team} {k : Nat}
    (h : (∃ q n, (t.strand k).wait = .popEmpty q n ∧ (n ≤ filled (vget t.lqs q []) ∨ t.accStopped = true)) ∨
      (∃ q, (t.strand k).wait = .pushFull q ∧ (vget t.sqs q []).length < 16) ∨
      (∃ off n full, (t.strand k).wait = .fe off n full ∧ ((∀ i < n, t.isFull (off / 8 + i) = full) ∨
        (4 ≤ k ∧ t.liveStrands = []))) ∨
      (∃ g, (t.strand k).wait = .granule g ∧ (t.present.contains g = true ∨ t.mapOf g = none)) ∨
      ∃ q, (t.strand k).wait = .queueRoom q ∧ (t.queue q).room = true) :
    (t.strand k).wait.isHold = true ∧ s.headOk t k = true := by
  unfold State.headOk
  rcases h with ⟨q, n, hw, hc⟩ | ⟨q, hw, hc⟩ | ⟨off, n, full, hw, hc⟩ | ⟨g, hw, hc⟩ | ⟨q, hw, hc⟩
  · simpa [hw, Wait.isHold] using hc
  · simpa [hw, Wait.isHold] using hc
  · simpa [hw, Wait.isHold, Team.drainOnly, or_comm] using hc
  · simpa [hw, Wait.isHold] using hc
  · simpa [hw, Wait.isHold] using hc

/-! ## Barriers (R233) -/

section
variable {h : Nat}

/-- One strand after another goes on after an acquire: nothing outside the team changes. -/
theorem State.goOn_fold {s : State} {t : Team} (ks : List Nat) (hks : ∀ k ∈ ks, k < 4) (ht : s.team? h = some t) :
    TeamIs s (ks.foldl (fun s k => (s.modTeam h (·.unwait k)).acquires h k) s) h
      (ks.foldl (fun u k => u.goOn k (s.core t.core).nextNum) t) := by
  induction ks generalizing s t with
  | nil => exact TeamIs.refl ht
  | cons k ks ih =>
    rw [List.forall_mem_cons] at hks
    have e : (s.modTeam h (·.unwait k)).acquires h k = s.setTeam h (t.goOn k (s.core t.core).nextNum) := by
      rw [State.modTeam, ht]
      dsimp only
      rw [State.acquires_strand (State.team?_setTeam_same _ _ _) hks.1, State.setTeam_setTeam]
      exact congrArg _ (t.unwait_acquired _ (by omega))
    simp only [List.foldl_cons, e]
    exact TeamIs.set.trans (ih hks.2 (State.team?_setTeam_same _ _ _))

/-- A strand after several went on: it went on when it was among them, and stands as it did otherwise. -/
theorem Team.goOn_fold_strand (t : Team) (num : Nat) {ks : List Nat} (hks : ∀ k ∈ ks, k < 4) {j : Nat} (hj : j ≤ 4) :
    (ks.foldl (fun t k => t.goOn k num) t).strand j =
      if j ∈ ks then { t.strand j with wait := .none, acqUpto := num } else t.strand j := by
  induction ks generalizing t with
  | nil => simp
  | cons k ks ih =>
    rw [List.forall_mem_cons] at hks
    rw [List.foldl_cons, ih _ hks.2]
    by_cases hjk : j = k
    · subst hjk
      simp [Team.goOn, Team.strand_setStrand_same _ _ _ hj]
    · simp [Team.goOn, Team.strand_setStrand_other _ _ _ _ (show k ≤ 4 by omega) hj hjk, hjk]

theorem Team.goOn_fold_frame (t : Team) (num : Nat) (ks : List Nat) :
    ∃ ss, ks.foldl (fun t k => t.goOn k num) t = { t with strands := ss } := by
  induction ks generalizing t with
  | nil => exact ⟨t.strands, rfl⟩
  | cons k ks ih =>
    obtain ⟨ss, hs⟩ := ih (t.goOn k num)
    exact ⟨ss, hs⟩

/-- BARRIER_PHASE_COMPLETE: the strands that wait at the barrier for a phase that is complete go on, one after another. -/
theorem exec_barrierPhaseComplete {s : State} {t : Team} (b : Nat) (ht : s.team? h = some t) (hr : t.resident = true) :
    ∃ ks : List Nat, exec (.barrierPhaseComplete h b) s
        = .next (ks.foldl (fun s k => (s.modTeam h (·.unwait k)).acquires h k) s) ∧
      ∀ k, k ∈ ks ↔ k < 4 ∧ ∃ sc ph, (t.strand k).wait = .barrier b sc ph ∧ s.phaseComplete t b sc ph = true := by
  change ∃ ks : List Nat, execBarrierPhaseComplete h b s = _ ∧ _
  unfold execBarrierPhaseComplete
  rw [ht]
  refine ⟨_, rfl, fun k => ?_⟩
  · rw [List.mem_filter, List.mem_range, State.headOk, hr]
    refine and_congr_right fun _ => ?_
    cases hw : (t.strand k).wait <;> simp
    rintro rfl
    rfl

end

/-- Settles O40: each wait and hold is the one lemma of its event, with the condition that the model tests. -/
theorem conditionsMet : Obligations.ConditionsMet := by
  unfold Obligations.ConditionsMet
  refine ⟨?sig, ?event, ?waits, ?holds, ?barrier⟩
  case sig =>
    intro s h k n t ht hr hk hw hav he
    refine ⟨_, exec_waitConditionMet_sig ht hr he hw hav, ?_⟩
    have ha : ((t.slotChange (.dec n)).strand k).wait.acquires = true := by
      change (t.strand k).wait.acquires = true
      rw [hw]
      rfl
    obtain ⟨h1, h2, h3, h4⟩ := State.endWait_acquires (s := s) (h := h) ha (by omega)
    exact ⟨h1, h2, by rw [h3, h4 hk]⟩
  case event =>
    intro s h k t e ht he
    rw [exec_asyncEventDelivery ht he, exec_waitConditionMet_event ht he]
  case waits =>
    intro s h k t ht hr hk he
    refine ⟨fun hc => ?_, fun hc => ?_⟩
    · obtain ⟨hwait, hsig, hacq, hok⟩ := State.headOk_of_acquire hc
      exact ⟨_, exec_waitConditionMet ht hr he hwait hok hsig, State.endWait_acquires hacq hk⟩
    · obtain ⟨hwait, hsig, hacq, hok⟩ := State.headOk_of_time hc
      refine ⟨_, exec_waitConditionMet ht hr he hwait hok hsig, ?_⟩
      rw [State.endWait_plain hacq]
      exact TeamIs.set
  case holds =>
    intro s h k t ht hr hc
    obtain ⟨hw, ho⟩ := State.headOk_of_hold hc
    exact ⟨_, exec_headConditionMet ht hr hw ho, TeamIs.set⟩
  case barrier =>
    intro s h b k sc ph t ht hr hk hw hp goesOn
    obtain ⟨ks, he, hmem⟩ := exec_barrierPhaseComplete b ht hr
    have hks : ∀ k ∈ ks, k < 4 := fun k hk => ((hmem k).1 hk).1
    have hstrand := fun j hj => t.goOn_fold_strand (s.core t.core).nextNum hks (j := j) hj
    obtain ⟨ss, hss⟩ := t.goOn_fold_frame (s.core t.core).nextNum ks
    refine ⟨_, _, he, State.goOn_fold ks hks ht, ?_, ?_, fun j hj => ?_⟩
    · rw [hss]
    · rw [hstrand k (by omega), if_pos ((hmem k).2 ⟨hk, sc, ph, hw, hp⟩)]
    · rw [hstrand j hj]
      by_cases hjm : j ∈ ks
      · rw [if_pos hjm]
        exact .inr ⟨rfl, ((hmem j).1 hjm).2⟩
      · rw [if_neg hjm]
        exact .inl rfl

end Sys2Proof.Machine
end

section
/-! Proofs about what interrupts streams: events delivered, clusters that pass on, drowsy granules, data errors of buffers
(R42, R168, R356, R395, R446). -/

namespace Sys2Proof.Machine

open Sys2Proof

/-! ## Events (R168) -/

/-- The strand that events go to is one of the four, and its INH is 0. -/
theorem Team.eventStrand_some {t : Team} {k : Nat} (h : t.eventStrand = some k) : k < 4 ∧ (t.strand k).inh = false := by
  have hm := List.mem_of_find?_eq_some h
  have hi := List.find?_some h
  rw [Team.liveStrands, List.mem_filter, List.mem_range] at hm
  exact ⟨hm.1, by simpa using hi⟩

/-- A first trap with an entry point: the strand's registers, and its requests dropped (R165). -/
theorem State.takeTrap_first {s : State} {h k : Nat} {t : Team} (ti : TrapInfo) (pc : BitVec 64) (ht : s.team? h = some t)
    (hi : (t.strand k).inh = false) (he : t.trapEnt ≠ 0) :
    s.takeTrap h k ti pc = (s.setTeam h (t.setStrand k ((t.strand k).afterTrap t.trapEnt ti pc))).dropReqs h k := by
  unfold State.takeTrap
  simp only [ht, hi, he, Bool.false_or, decide_false, Bool.false_eq_true, if_false, Strand.trapRegs, Strand.afterTrap]

/-- A strand takes the oldest event at once when the event goes to it and its wait lets it (R168, R239, R464). -/
theorem Team.eventNow_some {t : Team} {k : Nat} {e : AsyncEvent} {es : List AsyncEvent} (hev : t.events = e :: es)
    (hs : t.eventStrand = some k) (hr : t.resident = true) (hh : t.halted = false) (hx : (t.strand k).exiting = false)
    (hw : (t.strand k).wait.takesEvent = true ∨ ∃ q, (t.strand k).wait = .queueRoom q ∧ (t.queue q).stopped = true) :
    t.eventNow k = some e := by
  have hn : t.takesNow k = true := by
    unfold Team.takesNow
    rcases hw with h | ⟨q, h, hq⟩
    · simp [h]
    · simp [h, hq]
  unfold Team.eventNow
  simp [hs, hr, hh, hx, hn, hev]

/-! ## Data errors of a buffer (R395, R446) -/

/-- An error event of a core: counted, logged, and with the fourth the core is retired; no link and no frame is concerned. -/
theorem State.countError_core_frame (s : State) (n : Nat) :
    ∃ e l c b p i, s.countError (.core n) =
      { s with errCounts := e, retired := l, cores := c, binnacle := b, pkg := p, interrupts := i } ∧
      (s.retired.contains (.core n) = false → (.core n, s.eventsOf (.core n) ++ [s.cycle]) ∈ e) := by
  unfold State.countError
  split
  · next h => exact ⟨s.errCounts, s.retired, s.cores, s.binnacle, s.pkg, s.interrupts, rfl, fun h' => by rw [h] at h'; cases h'⟩
  · dsimp only
    split
    · exact ⟨(s.errCounts.filter fun e => e.1 ≠ .core n) ++ [(.core n, s.eventsOf (.core n) ++ [s.cycle])], _, _, _, _, _,
        rfl, fun _ => by simp⟩
    · exact ⟨(s.errCounts.filter fun e => e.1 ≠ .core n) ++ [(.core n, s.eventsOf (.core n) ++ [s.cycle])], s.retired,
        s.cores, _, _, _, rfl, fun _ => by simp⟩

/-- The results in flight of loads that read the byte and have landed: those that an error under it strikes. -/
def Strand.struck (x : Strand) (off : Nat) (f : Flight) : Bool :=
  f.land ≤ x.time && f.readAt = 0 && f.src.any fun r => r.covers off

/-- The team without the results struck. -/
def Team.unstruck (t : Team) (k off : Nat) : Team :=
  t.setStrand k { t.strand k with flights := (t.strand k).flights.filter fun f => !(t.strand k).struck off f }

theorem Team.unstruck_strand (t : Team) {k : Nat} (off : Nat) (hk : k ≤ 4) : (t.unstruck k off).strand k =
    { t.strand k with flights := (t.strand k).flights.filter fun f => !(t.strand k).struck off f } :=
  Team.strand_setStrand_same _ _ _ hk

/-- The data-error trap of a load that read buffer byte `off`. -/
def bufferTrap (off : Nat) : TrapInfo := { code := 0x22, reason := 1, info := BitVec.ofNat 64 off }

/-- BUFFER_DATA_ERROR under a load of a strand: the results struck are dropped, the strand takes the data-error trap at its next
word, and its core has an error event. -/
theorem exec_bufferDataError {s : State} {h k off : Nat} {t : Team} (ht : s.team? h = some t) (hh : t.halted = false)
    (hk : k < 4) (hb : (t.strand k).flights.any ((t.strand k).struck off) = true) :
    exec (.bufferDataError h k off) s = .next
      (((s.setTeam h (t.unstruck k off)).takeTrap h k (bufferTrap off) (t.strand k).pc).countError (.core t.core)) := by
  change execBufferDataError h k off s = _
  have hb' : (t.strand k).flights.any (fun f => decide (f.land ≤ (t.strand k).time) && decide (f.readAt = 0) &&
      f.src.any fun r => r.covers off) = true := hb
  have hpc : ((t.unstruck k off).strand k).pc = (t.strand k).pc := by rw [t.unstruck_strand off (by omega)]
  have htrap : (s.setTeam h (t.unstruck k off)).trapHere h k (bufferTrap off)
      = (s.setTeam h (t.unstruck k off)).takeTrap h k (bufferTrap off) (t.strand k).pc := by
    unfold State.trapHere
    rw [if_pos hk, State.team?_setTeam_same]
    dsimp only
    rw [hpc]
  unfold execBufferDataError
  simp only [ht, hb', hh, Bool.not_false, Bool.and_self, if_true]
  exact congrArg (fun s => Host.Outcome.next (State.countError s (.core t.core))) htrap

/-- Settles O41: an event and a data error are each a first trap of a strand; a cluster and a granule each change one entry. -/
theorem streamInterruptions : Obligations.StreamInterruptions := by
  unfold Obligations.StreamInterruptions
  refine ⟨?event, ?cluster, ?drowsy, ?error⟩
  case event =>
    intro s h k t e es ht hev hs hr hh hx he hw
    obtain ⟨hk, hi⟩ := Team.eventStrand_some hs
    refine ⟨_, exec_asyncEventDelivery ht (Team.eventNow_some hev hs hr hh hx hw), ?_⟩
    have hd : s.deliver h k e = (s.setTeam h ({ t with events := es }.setStrand k
        ((t.strand k).afterTrap t.trapEnt e.trap (t.strand k).eventPc))).dropReqs h k := by
      unfold State.deliver
      rw [ht]
      dsimp only
      rw [hev]
      have ht' : (s.setTeam h { t with events := es }).team? h = some { t with events := es } := State.team?_setTeam_same _ _ _
      exact (State.takeTrap_first _ _ ht' hi he).trans
        (congrArg (fun s => State.dropReqs s h k) (State.setTeam_setTeam _ _ _ _))
    rw [hd]
    exact ⟨State.team?_setTeam_same _ _ _, fun g hg => State.team?_setTeam_other _ _ _ _ hg, rfl⟩
  case cluster =>
    intro s core k g t u hk hc ht hsy hran hu hne
    refine ⟨s.passCluster core k, ?_, ?_⟩
    · change execClusterTimeSlice core k s = _
      have hany : ((s.passOrder core k).any fun u => decide (u.handle ≠ t.handle)) = true :=
        List.any_eq_true.2 ⟨u, List.mem_of_mem_head? hu, by simpa using hne⟩
      unfold execClusterTimeSlice
      simp only [hc, Option.bind_some, ht, hran, hsy, hany, decide_true, Bool.not_false, Bool.and_self, if_true]
    · have hn : s.passCluster core k = s.setCore core { s.core core with
          clusters := vset (s.core core).clusters k
            { handle := some u.handle, ran := 0,
              next := (u.slot?.map (· + 1)).getD (vget (s.core core).clusters k {}).next } } := by
        unfold State.passCluster State.modCore
        simp only [hu, Option.map_some, Option.bind_some]
        cases u.slot? <;> rfl
      rw [hn]
      exact CoreIs.set
  case drowsy =>
    intro s h g t ht hr hg x hd hc
    refine ⟨_, ?_, TeamIs.set⟩
    change execGranuleDrowsy h g s = _
    unfold execGranuleDrowsy
    have hd' : ((vget t.grans g {}).seen s.cycle).drowsy = false := hd
    have hc' : ((vget t.grans g {}).seen s.cycle).touched + 4096 ≤ s.cycle := hc
    simp only [ht, hr, hg, hd', hc', decide_true, Bool.not_false, Bool.and_self, if_true]
    rfl
  case error =>
    intro s h k off t f r hk ht hh hi he hf hl hra hsrc h1 h2
    have hstruck : (t.strand k).struck off f = true := by
      simp [Strand.struck, hl, hra, hsrc, LocalRead.covers, h1, h2]
    have hk4 : k ≤ 4 := by omega
    have hx : ((t.unstruck k off).strand k).inh = false := by rw [t.unstruck_strand off hk4]; exact hi
    have htrap := State.takeTrap_first (bufferTrap off) (t.strand k).pc (State.team?_setTeam_same s h (t.unstruck k off)) hx he
    rw [State.setTeam_setTeam, Team.unstruck, Team.setStrand_setStrand, ← Team.unstruck, t.unstruck_strand off hk4] at htrap
    obtain ⟨e, l, c, b, p, i, hcount, hmem⟩ := State.countError_core_frame
      ((s.setTeam h (t.unstruck k off)).takeTrap h k (bufferTrap off) (t.strand k).pc) t.core
    rw [htrap] at hcount hmem
    refine ⟨_, _, (exec_bufferDataError ht hh hk (List.any_eq_true.2 ⟨f, hf, hstruck⟩)).trans
      (congrArg _ ((congrArg (fun s => State.countError s (.core t.core)) htrap).trans hcount)),
      ?_, fun g hg hgs => ?_, ?_, State.team?_setTeam_same _ _ _, fun g hg => State.team?_setTeam_other _ _ _ _ hg, ?_, hmem⟩
    · simp [Strand.afterTrap, hstruck]
    · simp [Strand.afterTrap, hg, Strand.struck, hgs]
    · rfl
    · rfl

end Sys2Proof.Machine
end

section
/-! Proofs about replies, load-queue data, remote forms and slot additions (R205, R209, R211, R212, R219, R222, R243, R318). -/

namespace Sys2Proof.Machine

open Sys2Proof

/-! ## A reply that lands (R209) -/

/-- A request that is answered is not at a bank. -/
theorem Req.atBank_value {q : Req} {v fl : Nat} (h : q.st = .value v fl) : q.atBank = false := by
  simp [Req.atBank, h]

theorem Team.mayStep_resident {t : Team} (s : State) (n : Nat) (h : t.resident = true) : t.mayStep s n = true := by
  unfold Team.mayStep
  unfold Team.resident at h
  cases hp : t.place <;> simp_all

/-- A step of an answered request of a resident team is the landing of its reply. -/
theorem State.stepOf_value {s : State} {n v fl : Nat} {t : Team} {q : Req} (ht : s.team? q.h = some t)
    (hr : t.resident = true) (hq : s.req? n = some q) (hf : q.isFetch = false) (hv : q.st = .value v fl) :
    s.stepOf t n = s.landReply n q v fl := by
  rw [State.stepOf, if_pos (Team.mayStep_resident s n hr)]
  unfold State.stepReq
  simp only [hq, hf, ht, hv, Bool.false_eq_true, if_false]

/-- Requests after one is over. -/
theorem State.req?_delReq_other (s : State) (n m : Nat) (h : m ≠ n) : (s.delReq n).req? m = s.req? m :=
  tget_tdel_other _ _ _ h

/-- The register write of a reply: none when the word writes no register. -/
def Team.replyRegs (t : Team) (cycle : Nat) (q : Req) (v : Nat) : Team :=
  if (deedOf q.word).len = 0 then t else t.writeRegs cycle q.dest v q.mask (deedOf q.word).len

theorem Team.replyRegs_frame (t : Team) (cycle : Nat) (q : Req) (v : Nat) :
    ∃ g, t.replyRegs cycle q v =
      { t with regs := Mem.writeN t.regs q.dest v q.mask (deedOf q.word).len, grans := g } := by
  unfold Team.replyRegs
  split
  · next h => exact ⟨t.grans, by rw [h]; rfl⟩
  · exact t.writeRegs_frame _ _ _ _ _

theorem Team.replyRegs_strand (t : Team) (cycle : Nat) (q : Req) (v k : Nat) :
    (t.replyRegs cycle q v).strand k = t.strand k := by
  obtain ⟨g, hg⟩ := t.replyRegs_frame cycle q v
  rw [hg]
  rfl

/-- The team of a stream whose reply has landed, before the acquire that it may be. -/
def Team.replied (t : Team) (cycle k : Nat) (q : Req) (v fl : Nat) : Team :=
  ((t.raise (flagBits fl)).replyRegs cycle q v).unwait k

/-- The reply that a stream of a resident team waits for lands. -/
theorem State.landReply_awaited {s : State} {n v fl : Nat} {t : Team} {q : Req} (ht : s.team? q.h = some t)
    (hr : t.resident = true) (hw : (t.strand q.k).wait = .reply n) (hf : isFetch q.word = false) :
    s.landReply n q v fl =
      (let s1 := (s.delReq n).setTeam q.h (t.replied s.cycle q.k q v fl)
       if (deedOf q.word).acquire then s1.acquires q.h q.k else s1) := by
  have hres : ((t.raise (flagBits fl)).replyRegs s.cycle q v).resident = true := by
    obtain ⟨g, hg⟩ := (t.raise (flagBits fl)).replyRegs_frame s.cycle q v
    rw [hg]
    exact hr
  have haw : (((t.raise (flagBits fl)).replyRegs s.cycle q v).strand q.k).awaits n = true := by
    rw [Team.replyRegs_strand, Team.strand_raise]
    exact decide_eq_true hw
  have ht' : (s.delReq n).team? q.h = some t := ht
  have hrr : (t.raise (flagBits fl)).resident = true := hr
  have hregs : (if (deedOf q.word).len = 0 then t.raise (flagBits fl)
      else (t.raise (flagBits fl)).writeRegs s.cycle q.dest v q.mask (deedOf q.word).len)
        = (t.raise (flagBits fl)).replyRegs s.cycle q v := rfl
  unfold State.landReply
  simp only [ht', hf, hrr, if_true, Bool.false_eq_true, if_false, State.delReq_cycle, hregs, hres, haw]
  rfl

/-- The team after the reply: the register write, the flags, and the stream that goes on. -/
theorem Team.replied_eq (t : Team) (cycle k : Nat) (q : Req) (v fl : Nat) : ∃ g, t.replied cycle k q v fl = { t.unwait k with
    regs := Mem.writeN t.regs q.dest v q.mask (deedOf q.word).len, grans := g, flags := t.flags ||| (flagBits fl &&& 0x3FF),
    flagNow := t.flagNow ||| (flagBits fl &&& 0x3FF) } := by
  obtain ⟨g, hg⟩ := (t.raise (flagBits fl)).replyRegs_frame cycle q v
  refine ⟨g, ?_⟩
  rw [Team.replied, hg]
  rfl

/-- What the landing of a reply changes: its team, its request, and for the access stream's acquire the core's access cache. -/
theorem State.landReply_frame {s : State} {n v fl : Nat} {t : Team} {q : Req} (hk : q.k ≤ 4) (ht : s.team? q.h = some t)
    (hr : t.resident = true) (hw : (t.strand q.k).wait = .reply n) (hf : isFetch q.word = false) :
    (∃ g, (s.landReply n q v fl).team? q.h = some { t.setStrand q.k { t.strand q.k with
        wait := .none,
        acqUpto := if (deedOf q.word).acquire then (s.core t.core).nextNum else (t.strand q.k).acqUpto } with
      regs := Mem.writeN t.regs q.dest v q.mask (deedOf q.word).len, grans := g,
      flags := t.flags ||| (flagBits fl &&& 0x3FF), flagNow := t.flagNow ||| (flagBits fl &&& 0x3FF) }) ∧
    (∀ g, g ≠ q.h → (s.landReply n q v fl).team? g = s.team? g) ∧
    (s.landReply n q v fl).reqs = (s.delReq n).reqs ∧
    s.landReply n q v fl = { s with
      teams := (s.landReply n q v fl).teams, reqs := (s.landReply n q v fl).reqs, cores := (s.landReply n q v fl).cores } ∧
    (q.k < 4 ∨ (deedOf q.word).acquire = false → (s.landReply n q v fl).cores = s.cores) := by
  obtain ⟨g, hg⟩ := t.replied_eq s.cycle q.k q v fl
  rw [State.landReply_awaited ht hr hw hf, hg]
  cases ha : (deedOf q.word).acquire
  · simp only [Bool.false_eq_true, if_false]
    exact ⟨⟨g, State.team?_setTeam_same _ _ _⟩, fun g hg => State.team?_setTeam_other _ _ _ _ hg, rfl, rfl, fun _ => rfl⟩
  · simp only [if_true]
    obtain ⟨hteam, hothers, hrest, hcores⟩ := State.acquires_frame (k := q.k)
      (State.team?_setTeam_same (s.delReq n) q.h { t.unwait q.k with
        regs := Mem.writeN t.regs q.dest v q.mask (deedOf q.word).len, grans := g,
        flags := t.flags ||| (flagBits fl &&& 0x3FF), flagNow := t.flagNow ||| (flagBits fl &&& 0x3FF) })
    refine ⟨⟨g, hteam.trans (congrArg some ?_)⟩, fun g hg => (hothers g hg).trans (State.team?_setTeam_other _ _ _ _ hg),
      by rw [hrest]; rfl, by rw [hrest]; rfl, fun h => h.elim hcores fun h => absurd h (by decide)⟩
    exact congrArg (fun u : Team => { u with
      regs := Mem.writeN t.regs q.dest v q.mask (deedOf q.word).len, grans := g,
      flags := t.flags ||| (flagBits fl &&& 0x3FF), flagNow := t.flagNow ||| (flagBits fl &&& 0x3FF) })
      (t.unwait_acquired (s.core t.core).nextNum hk)

/-- Data of a `fetch` that no stream waits for fills its entry. -/
theorem State.landReply_fetch {s : State} {n v fl : Nat} {t : Team} {q : Req} (ht : s.team? q.h = some t)
    (hw : (t.strand q.k).wait ≠ .reply n) (hf : isFetch q.word = true) (ha : (deedOf q.word).acquire = false) :
    s.landReply n q v fl = (s.delReq n).setTeam q.h ((t.raise (flagBits fl)).fillEntry n v) := by
  have haw : (((t.raise (flagBits fl)).fillEntry n v).strand q.k).awaits n = false := decide_eq_false hw
  have ht' : (s.delReq n).team? q.h = some t := ht
  unfold State.landReply
  simp only [ht', hf, ha, if_true, Bool.false_eq_true, if_false, haw]

/-- BLOCK_END_REPLY for a stream whose request has been answered. -/
theorem exec_blockEndReply {s : State} {n k v fl : Nat} {t : Team} {q : Req} (ht : s.team? q.h = some t)
    (hr : t.resident = true) (hw : (t.strand k).wait = .reply n) (hq : s.req? n = some q) (hf : q.isFetch = false)
    (hv : q.st = .value v fl) : exec (.blockEndReply q.h k) s = .next (s.landReply n q v fl) := by
  have hb : s.bankReq n = false := by
    rw [State.bankReq, hq]
    exact Req.atBank_value hv
  change execBlockEndReply q.h k s = _
  unfold execBlockEndReply
  simp only [ht, hw, hb, Bool.false_eq_true, if_false, State.stepOf_value ht hr hq hf hv]

/-- FETCH_DATA_ARRIVAL for a queue whose oldest reserved place has its data. -/
theorem exec_fetchDataArrival {s : State} {n v fl : Nat} {t : Team} {e : LqEntry} {q : Req} (ht : s.team? q.h = some t)
    (hr : t.resident = true) (he : t.nextReserved n = some e) (hq : s.req? e.tag = some q) (hf : q.isFetch = false)
    (hv : q.st = .value v fl) : exec (.fetchDataArrival q.h n) s = .next (s.landReply e.tag q v fl) := by
  change execFetchDataArrival q.h n s = _
  unfold execFetchDataArrival
  simp only [ht, Option.bind_some, he, Option.map_some, State.stepOf_value ht hr hq hf hv]

/-! ## Remote forms (R205, R212, R219) -/

/-- A remote form whose handle names no team is answered with that fault (R205). -/
theorem exec_remoteSpAccess_none {s : State} {core n : Nat} {q : Req} (hq : s.req? n = some q) (hm : q.st = .message core)
    (hd : ∀ r, q.word ≠ .drain r) (ht : s.team? q.handle = none) :
    exec (.remoteSpAccess core n) s =
      .next (s.setReq n { q with st := .failed { code := 0x12, reason := 1, info := BitVec.ofNat 64 q.handle } }) := by
  change execRemoteSpAccess core n s = _
  unfold execRemoteSpAccess
  simp only [hq, hm, ht, ne_eq, not_true_eq_false, if_false]
  split
  · next h _ => exact absurd h (hd _)
  · next h _ => exact absurd h (hd _)
  · rfl

/-- One that reaches beyond the window is answered with the range fault (R205). -/
theorem exec_remoteSpAccess_outside {s : State} {core n : Nat} {q : Req} {t : Team} (hq : s.req? n = some q)
    (hm : q.st = .message core) (hd : ∀ r, q.word ≠ .drain r) (ht : s.team? q.handle = some t)
    (hw : t.windowSize .sp < q.ea + (deedOf q.word).width) :
    exec (.remoteSpAccess core n) s =
      .next (s.setReq n { q with st := .failed { code := 0x11, reason := 1, info := BitVec.ofNat 64 q.ea } }) := by
  change execRemoteSpAccess core n s = _
  unfold execRemoteSpAccess
  simp only [hq, hm, ht, hw, ne_eq, not_true_eq_false, if_false, if_true]
  split
  · next h _ => exact absurd h (hd _)
  · next h _ => exact absurd h (hd _)
  · rfl

/-- The machine after a served form has taken the banks of the window that it is served on (R212). -/
def State.atWindow (s : State) (t : Team) (q : Req) (d : Deed) : State := if t.resident then s.takeSpBanks t q d else s

/-- A form that finds its window, its granules, its banks and its full/empty bits is served, and its value goes back. -/
theorem exec_remoteSpAccess_served {s : State} {core n v fl : Nat} {q : Req} {t t' : Team} (hq : s.req? n = some q)
    (hm : q.st = .message core) (hd : ∀ r, q.word ≠ .drain r) (ht : s.team? q.handle = some t)
    (hw : q.ea + (deedOf q.word).width ≤ t.windowSize .sp)
    (hg : t.missing q.ea (deedOf q.word).width ((deedOf q.word).touchMask q.mask) = none)
    (hdie : dieOf (handleCore q.h) = dieOf core) (hwide : ∀ u, s.team? q.h = some u → s.atomicWide u (deedOf q.word) = false)
    (hb : t.resident = true → s.spBanksFree t q (deedOf q.word) = true)
    (hs : t.serve (deedOf q.word) q.ea q.x q.cmp q.mask = some (v, fl, t')) :
    exec (.remoteSpAccess core n) s = .next
      ((((s.setTeam q.handle t').atWindow t' q (deedOf q.word)).spTag (handleCore q.h) q.handle q (deedOf q.word) none).setReq n
        { q with st := .value v fl }) := by
  have hw' : ¬ t.windowSize .sp < q.ea + (deedOf q.word).width := by omega
  have hnw : ((s.team? q.h).any fun u => s.atomicWide u (deedOf q.word)) = false := by
    cases hu : s.team? q.h with
    | none => rfl
    | some u => exact hwide u hu
  have hbank : (t.resident && !s.spBanksFree t q (deedOf q.word)) = false := by
    cases hr : t.resident
    · rfl
    · simp [hb hr]
  change execRemoteSpAccess core n s = _
  unfold execRemoteSpAccess
  simp only [hq, hm, ht, hw', hg, hnw, hbank, hs, ne_eq, not_true_eq_false, if_false, Bool.false_and, Bool.false_eq_true,
    State.tagIf, State.bankClocks, hdie, if_true]
  split
  · next h _ => exact absurd h (hd _)
  · next h _ => exact absurd h (hd _)
  · rfl

/-- Banks taken show in the bank uses of their core alone. -/
theorem State.atWindow_frame (s : State) (t : Team) (q : Req) (d : Deed) :
    ∃ cs, s.atWindow t q d = { s with cores := cs } ∧
      ∀ c, ∃ b, (s.atWindow t q d).core c = { s.core c with bankUse := b } := by
  unfold State.atWindow
  split
  · refine ⟨_, rfl, fun c => ?_⟩
    by_cases hc : c = t.core
    · subst hc
      exact ⟨_, State.core_setCore_same _ _ _⟩
    · exact ⟨(s.core c).bankUse, State.core_setCore_other _ _ _ _ hc⟩
  · exact ⟨s.cores, rfl, fun c => ⟨(s.core c).bankUse, rfl⟩⟩

/-- An acquire merges tags into a clock, and an untagged atomic drops those of the words that it writes (R323). -/
theorem State.spTag_frame (s : State) (core h : Nat) (q : Req) (d : Deed) :
    ∃ c g, s.spTag core h q d none = { s with clocks := c, tagOf := g } ∧ (d.acquire = false → c = s.clocks) ∧
      (d.amo = none → g = s.tagOf) := by
  have hacq : ∃ c, (if d.acquire then s.acquireTag core (spKey h q.ea) d.width else s) = { s with clocks := c } ∧
      (d.acquire = false → c = s.clocks) := by
    cases d.acquire
    · exact ⟨s.clocks, rfl, fun _ => rfl⟩
    · simp only [if_true, State.acquireTag]
      split
      · exact ⟨s.clocks, rfl, fun h => rfl⟩
      · exact ⟨_, rfl, fun h => absurd h (by decide)⟩
  obtain ⟨c, hc, hkeep⟩ := hacq
  unfold State.spTag
  simp only [hc]
  cases hamo : d.amo with
  | none => exact ⟨c, s.tagOf, rfl, hkeep, fun _ => rfl⟩
  | some a => exact ⟨c, _, rfl, hkeep, fun h => by cases h⟩

/-! ## Additions to slots of other teams (R243) -/

/-- The core once message n has left it. -/
def Core.dropMsg (c : Core) (n : Nat) : Core := { c with msgs := c.msgs.filter fun x => x.tag ≠ n }

/-- SIG_ADD_R_ARRIVE for a team that is there. -/
theorem exec_sigAddRArrive_team {s : State} {core n slot k : Nat} {m : SpMsg} {t : Team}
    (hm : ((s.core core).msgs.find? fun m => m.tag = n) = some m) (ha : m.slotAdd = some (slot, k))
    (ht : s.team? m.target = some t) :
    exec (.sigAddRArrive core n) s =
      .next ((s.setCore core ((s.core core).dropMsg n)).setTeam m.target (t.slotChange (.add slot k))) := by
  have hteam : ∀ x, (s.setCore core x).team? m.target = some t := fun _ => ht
  change execSigAddRArrive core n s = _
  unfold execSigAddRArrive
  simp only [hm, ha, State.modCore, hteam]
  rfl

/-- SIG_ADD_R_ARRIVE for a team that has retired: its sender is told. -/
theorem exec_sigAddRArrive_gone {s : State} {core n slot k : Nat} {m : SpMsg}
    (hm : ((s.core core).msgs.find? fun m => m.tag = n) = some m) (ha : m.slotAdd = some (slot, k))
    (ht : s.team? m.target = none) :
    exec (.sigAddRArrive core n) s =
      .next ((s.setCore core ((s.core core).dropMsg n)).postEvent m.h
        { code := 0x12, reason := 1, info := BitVec.ofNat 64 m.target } none) := by
  have hteam : ∀ x, (s.setCore core x).team? m.target = none := fun _ => ht
  change execSigAddRArrive core n s = _
  unfold execSigAddRArrive
  simp only [hm, ha, State.modCore, hteam]
  rfl

/-- An event posted to a team with a live strand waits in the team (R168). -/
theorem State.postEvent_live {s : State} {h : Nat} {t : Team} (ti : TrapInfo) (q : Option Nat) (ht : s.team? h = some t)
    (hl : t.liveStrands ≠ []) :
    s.postEvent h ti q = s.setTeam h { t with events := t.events ++ [⟨{ ti with async := true }, q⟩] } := by
  have he : t.liveStrands.isEmpty = false := by simpa using hl
  unfold State.postEvent
  simp only [ht, he, Bool.false_eq_true, if_false]

/-- Settles O42: a reply and load-queue data are one landing; a remote form is refused or served in one step. -/
theorem repliesLand : Obligations.RepliesLand := by
  unfold Obligations.RepliesLand
  refine ⟨?reply, ?fetch, ?served, ?noTeam, ?outside, ?added, ?told⟩
  case reply =>
    intro s h k n v fl t q hk ht hr hw hq hqh hqk hf hif hv hwf
    subst hqh hqk
    obtain ⟨⟨g, hteam⟩, hothers, hreqs, hrest, hcores⟩ := State.landReply_frame (v := v) (fl := fl) hk ht hr hw hif
    have hreq : ∀ m, (s.landReply n q v fl).req? m = (s.delReq n).req? m := fun m => by
      rw [State.req?, hreqs]
      rfl
    exact ⟨_, _, exec_blockEndReply ht hr hw hq hf hv, hteam, hothers, (hreq n).trans (s.req?_delReq_same n),
      fun m hm => (hreq m).trans (s.req?_delReq_other n m hm), hrest, hcores, rfl, fun a => Mem.get_writeN _ _ _ _ _ hwf⟩
  case fetch =>
    intro s h n v fl t e q ht hr he hq hqh hf hif ha hv hw
    subst hqh
    exact ⟨_, _, (exec_fetchDataArrival ht hr he hq hf hv).trans (congrArg _ (State.landReply_fetch ht hw hif ha)),
      State.team?_setTeam_same _ _ _, fun g hg => State.team?_setTeam_other _ _ _ _ hg, s.req?_delReq_same _,
      s.req?_delReq_other _, rfl, rfl⟩
  case served =>
    intro s core n v fl q t t' hq hm hd ht hw hg hdie hwide hb hs
    obtain ⟨cs, hcs, hcore⟩ := (s.setTeam q.handle t').atWindow_frame t' q (deedOf q.word)
    obtain ⟨cl, tg, htag, hcl, htg⟩ :=
      ((s.setTeam q.handle t').atWindow t' q (deedOf q.word)).spTag_frame (handleCore q.h) q.handle q (deedOf q.word)
    rw [hcs] at htag hcl htg hcore
    refine ⟨_, (exec_remoteSpAccess_served hq hm hd ht hw hg hdie hwide hb hs).trans
      (congrArg (fun s => Host.Outcome.next (State.setReq s n { q with st := .value v fl })) ((congrArg (fun s =>
        State.spTag s (handleCore q.h) q.handle q (deedOf q.word) none) hcs).trans htag)),
      tget_tput_same _ _ _, fun g hg => tget_tput_other _ _ _ _ hg, tget_tput_same _ _ _,
      fun m hm => tget_tput_other _ _ _ _ hm, rfl, hcl, htg, hcore⟩
  case noTeam =>
    intro s core n q hq hm hd ht
    exact ⟨_, exec_remoteSpAccess_none hq hm hd ht, ReqIs.set⟩
  case outside =>
    intro s core n q t hq hm hd ht hw
    exact ⟨_, exec_remoteSpAccess_outside hq hm hd ht hw, ReqIs.set⟩
  case added =>
    intro s core n slot k m t hm ha ht
    exact ⟨_, exec_sigAddRArrive_team hm ha ht, State.team?_setTeam_same _ _ _,
      fun g hg => State.team?_setTeam_other _ _ _ _ hg, State.core_setCore_same _ _ _, rfl⟩
  case told =>
    intro s core n slot k m t hm ha ht hs hl
    refine ⟨_, exec_sigAddRArrive_gone hm ha ht, ?_⟩
    have hs' : (s.setCore core ((s.core core).dropMsg n)).team? m.h = some t := hs
    rw [State.postEvent_live _ _ hs' hl]
    exact State.team?_setTeam_same _ _ _

end Sys2Proof.Machine
end

section
/-! Proofs about `vshx` and about the queue words (R31, R42, R157, R176, R183, R220). -/

namespace Sys2Proof.Machine

open Sys2Proof

/-! ## The cross-strand shuffle (R183) -/

/-- A word that may issue and whose sources are supplied runs its own part on its place before and after the pops. -/
theorem issueWord_sources {x : Here} {m : Mods} {u : Uses} {uses : Here → Uses} {srcs : List (BitVec 8 × Nat)}
    {d : Option (BitVec 8)} {k : Here → Here → List Nat → State} {l : List (BitVec 8)} (hr : x.Ready m u)
    (hs : (x.woken u).Supplied l d) (hu : uses x = u) (hl : srcs.map (·.1) = l) :
    issueWord x.s m uses (fun x => x.withSources srcs d (k x)) =
      .next (k (x.woken u) ((x.woken u).popAll l) ((x.woken u).sourceValues srcs)) :=
  (issueWord_ready hr hu).trans (congrArg _ (Here.withSources_supplied hl hs))

/-- The offset that each element of `vshx` reads, for the elements that are enabled. -/
def Here.shuffleLive (y : Here) (r : RegW) (vs : List Nat) : List Nat :=
  (((y.enables r 4 32).zip ((List.range 32).map fun i => shuffleOff (y.t.scalar r.b).toNat (vs.getD 0 0) i)).filter
    fun e => e.1).map (·.2)

/-- The bytes that are checked against the scoreboard. -/
def Here.shufflePending (y : Here) (r : RegW) : Nat := if y.t.scben && !r.mods.old then y.s.pendingAll y.t else 0

/-- Waking granules leaves the registers. -/
theorem Team.wake_regs (t : Team) (c : Nat) (gs : List Nat) : (t.wake c gs).1.regs = t.regs := by
  obtain ⟨g, hg⟩ := t.wake_frame c gs
  rw [hg]

section
variable {x : Here} {r : RegW} {u : Uses} (hu : x.elementUses r 4 6 [opdR 1 r.a 1, opdR 2 r.b 1] = u) (hr : x.Ready r.mods u)
  (hs : (x.woken u).Supplied [r.a] (some r.d))
include hu hr hs

/-- The first offset beyond the allocation traps (R183). -/
theorem exec_vshx_beyond {y : Here} {vs : List Nat} {o : Nat} (hy : (x.woken u).popAll [r.a] = y)
    (hvs : (x.woken u).sourceValues [(r.a, 1)] = vs)
    (hb : ((y.shuffleLive r vs).find? fun o => y.t.regsz * 4096 < o + 4) = some o) :
    exec (.vshx r) x.s = .next (y.trap { code := 0x09, info := BitVec.ofNat 64 o }) := by
  subst hy hvs
  change execVshx r x.s = _
  unfold execVshx
  rw [issueWord_sources (srcs := [(r.a, 1)]) hr hs hu rfl]
  unfold Here.shuffleLive at hb
  simp only [hb]

variable {y : Here} {vs : List Nat} (hy : (x.woken u).popAll [r.a] = y) (hvs : (x.woken u).sourceValues [(r.a, 1)] = vs)
  (hin : ((y.shuffleLive r vs).find? fun o => y.t.regsz * 4096 < o + 4) = none)
include hy hvs hin

/-- The first byte on which a result is pending traps (R183). -/
theorem exec_vshx_pending {o : Nat}
    (hp : (((y.shuffleLive r vs).flatMap fun o => (List.range 4).map (o + ·)).find?
      fun o => bit (y.shufflePending r) o) = some o) :
    exec (.vshx r) x.s = .next (y.trap { code := 0x08, info := BitVec.ofNat 64 (0x10000 + o) }) := by
  subst hy hvs
  change execVshx r x.s = _
  unfold execVshx
  rw [issueWord_sources (srcs := [(r.a, 1)]) hr hs hu rfl]
  unfold Here.shuffleLive at hin hp
  unfold Here.shufflePending at hp
  simp only [hin, hp]

variable (hp : (((y.shuffleLive r vs).flatMap fun o => (List.range 4).map (o + ·)).find?
  fun o => bit (y.shufflePending r) o) = none)
include hp

/-- A drowsy granule among those read holds the word, which has popped nothing (R42). -/
theorem exec_vshx_drowsy (hw : (y.t.wake y.s.cycle ((y.shuffleLive r vs).map (· / 4096)).eraseDups).2 = true) :
    exec (.vshx r) x.s = .next (((x.woken u).withTeam
      ((x.woken u).t.wake x.s.cycle ((y.shuffleLive r vs).map (· / 4096)).eraseDups).1).hold .none) := by
  subst hy hvs
  change execVshx r x.s = _
  unfold execVshx
  rw [issueWord_sources (srcs := [(r.a, 1)]) hr hs hu rfl]
  unfold Here.shuffleLive at hin hp hw ⊢
  unfold Here.shufflePending at hp
  simp only [hin, hp, hw, if_true]
  rfl

/-- Otherwise each enabled element is the word at its offset (R183). -/
theorem exec_vshx_gathers (hw : (y.t.wake y.s.cycle ((y.shuffleLive r vs).map (· / 4096)).eraseDups).2 = false) :
    exec (.vshx r) x.s = .next ((y.withTeam (y.t.wake y.s.cycle ((y.shuffleLive r vs).map (· / 4096)).eraseDups).1).doneVector
      r.mods r.d 6 128 (ofElems 4 (((y.enables r 4 32).zip ((List.range 32).map fun i =>
        shuffleOff (y.t.scalar r.b).toNat (vs.getD 0 0) i)).map fun e => if e.1 then Mem.readN y.t.regs e.2 4 else 0))
      (elemMask 4 (y.enables r 4 32)) 0) := by
  subst hy hvs
  change execVshx r x.s = _
  unfold execVshx
  rw [issueWord_sources (srcs := [(r.a, 1)]) hr hs hu rfl]
  unfold Here.shuffleLive at hin hp hw ⊢
  unfold Here.shufflePending at hp
  simp only [hin, hp, hw, Bool.false_eq_true, if_false, Here.withTeam, Team.wake_regs]

end

/-- No byte read has a result pending when the scoreboard is on and the word heeds it. -/
theorem Here.shufflePending_none {y : Here} {r : RegW} {bytes : List Nat}
    (h : y.t.scben = true → r.mods.old = false → ∀ o ∈ bytes, (y.s.pendingAll y.t).testBit o = false) :
    (bytes.find? fun o => bit (y.shufflePending r) o) = none := by
  rw [List.find?_eq_none]
  intro o ho
  unfold Here.shufflePending bit
  by_cases hc : (y.t.scben && !r.mods.old) = true
  · rw [if_pos hc]
    rw [Bool.and_eq_true, Bool.not_eq_true'] at hc
    simp [h hc.1 hc.2 o ho]
  · rw [if_neg hc]
    simp

/-- Settles O13: the three outcomes of the checks, in their order, and the gather. -/
theorem crossStrandShuffle : Obligations.CrossStrandShuffle := by
  unfold Obligations.CrossStrandShuffle
  intro x r u hr hs vs y en offs live gs bytes pending
  refine ⟨fun hin hp => ⟨fun hw => ?_, fun hw => ?_⟩, fun o hin hsc hold hp ht => ?_, fun o hb ht => ?_⟩
  · refine ⟨_, exec_vshx_gathers (y := y) (vs := vs) rfl hr hs rfl rfl hin (Here.shufflePending_none hp) hw, ?_⟩
    exact Here.doneVector_issued (y := y.withTeam _) _ _ _ _ _ _ _ (by
      change ((x.woken u).popAll [r.a]).k ≤ 4
      rw [Here.popAll_k]
      exact hr.stream)
  · exact ⟨_, exec_vshx_drowsy (y := y) (vs := vs) rfl hr hs rfl rfl hin (Here.shufflePending_none hp) hw, Here.hold_held _⟩
  · have hpend : y.shufflePending r = y.s.pendingAll y.t := by simp [Here.shufflePending, hsc, hold]
    refine ⟨_, exec_vshx_pending (y := y) (vs := vs) rfl hr hs rfl rfl hin ?_, Here.trap_taken ht _⟩
    rw [hpend]
    exact hp
  · exact ⟨_, exec_vshx_beyond (y := y) (vs := vs) rfl hr hs rfl rfl hb, Here.trap_taken ht _⟩

/-! ## Queue words (R220) -/

/-- No more entries are filled than there are. -/
theorem filled_le_length (l : List LqEntry) : filled l ≤ l.length := (List.takeWhile_sublist _).length_le

section
variable {x : Here} {r : MemW}

/-- `qdrop` of entries that are there pops them. -/
theorem exec_qdrop_there (hr : x.Ready r.mods {})
    (hf : r.off.toNat ≤ filled (vget (x.woken {}).t.lqs (r.d.toNat % 4) [])) :
    exec (.qdrop r) x.s = .next (((x.woken {}).popEntries (r.d.toNat % 4) r.off.toNat).done r.mods
      ((x.woken {}).popEntries (r.d.toNat % 4) r.off.toNat).t []) := by
  change execQdrop r x.s = _
  unfold execQdrop
  rw [issueWord_ready (u := {}) hr rfl]
  simp only [Nat.not_lt.2 hf, if_false]

/-- `qdrop` of entries that are not there: the pop is missing (R31). -/
theorem exec_qdrop_missing (hr : x.Ready r.mods {})
    (hf : filled (vget (x.woken {}).t.lqs (r.d.toNat % 4) []) < r.off.toNat) :
    exec (.qdrop r) x.s = .next ((x.woken {}).popMissing (r.d.toNat % 4) r.off.toNat) := by
  change execQdrop r x.s = _
  unfold execQdrop
  rw [issueWord_ready (u := {}) hr rfl]
  simp only [hf, if_true]

end

/-- A pop leaves the word's address. -/
theorem Here.popEntries_pc (x : Here) (q n : Nat) (hk : x.k ≤ 4) : (x.popEntries q n).pc = x.pc := by
  simp only [Here.popEntries, Here.pc, Here.sd]
  split
  · rw [Team.acquired, Team.strand_setStrand_same _ _ _ hk]
    rfl
  · rfl

/-- A missing pop holds while its entries may still come. -/
theorem Here.popMissing_hold {y : Here} {q n : Nat} (h : ¬(y.t.accStopped = true ∧ (vget y.t.lqs q []).length < n)) :
    y.popMissing q n = y.hold (.popEmpty q n) := by
  unfold Here.popMissing
  simp only [Bool.and_eq_true, decide_eq_true_eq, h, if_false]

/-- It traps once the access stream has stopped without them (R157). -/
theorem Here.popMissing_trap {y : Here} {q n : Nat} (ha : y.t.accStopped = true) (hl : (vget y.t.lqs q []).length < n) :
    y.popMissing q n = y.trap { code := 0x0C, info := BitVec.ofNat 64 q } := by
  unfold Here.popMissing
  simp only [Bool.and_eq_true, decide_eq_true_eq, ha, hl, and_self, if_true]

/-- Settles O29: `qdrop` pops, holds or traps; `qlen` and `qwait` read the queues at issue. -/
theorem queueWords : Obligations.QueueWords := by
  unfold Obligations.QueueWords
  refine ⟨?drop, ?len, ?wait⟩
  case drop =>
    intro x r hr y q n l
    refine ⟨fun hf => ⟨_, exec_qdrop_there hr hf, ?_⟩, fun hf hw => ⟨_, exec_qdrop_missing hr hf, ?_⟩,
      fun hl ha ht => ⟨_, exec_qdrop_missing hr ((filled_le_length l).trans_lt hl), ?_⟩⟩
    · rw [← Here.popEntries_pc y q n hr.stream]
      exact Here.done_issued (y := y.popEntries q n) _ _ hr.stream
    · rw [Here.popMissing_hold hw]
      exact Here.hold_held _
    · rw [Here.popMissing_trap ha hl]
      exact Here.trap_taken ht _
  case len =>
    intro x r u hr
    refine ⟨_, ?_, Here.done_issued (y := x.woken u) _ _ hr.stream⟩
    change execQlen r x.s = _
    exact issueWord_ready hr rfl
  case wait =>
    intro x r hr
    refine ⟨_, ?_, Here.wait_waits (y := x.woken {}) _ _ hr.stream⟩
    change execQwait r x.s = _
    exact issueWord_ready hr rfl

end Sys2Proof.Machine
end

section
/-! Proofs about the events of management: the meridian counter, boot and reset, Binnacle, power gating and the counter blocks
(R64, R306, R436, R477, R478, R489–R491). -/

namespace Sys2Proof.Machine

open Sys2Proof

/-! ## The meridian counter (R436) -/

/-- The count goes on, and alignment messages are due where it passes a multiple of 65,536. -/
theorem State.countTo_eq (s : State) (n : Nat) : s.countTo n = { s with
    meridian := n, agenda := s.agenda ++ if s.meridian / 65536 < n / 65536 then [.ev .alignMessageSend] else [] } := by
  unfold State.countTo
  dsimp only
  split
  · rfl
  · rw [List.append_nil]

/-- A count that rises by one passes a multiple of 65,536 just when it comes to one. -/
theorem passes_succ (n : Nat) : n / 65536 < (n + 1) / 65536 ↔ (n + 1) % 65536 = 0 := by omega

theorem exec_meridianTick (s : State) : exec .meridianTick s = .next (if s.merPhase < 13 then { s with merPhase := s.merPhase + 1 }
    else if 0 < s.merHold then { s with merPhase := 0, merHold := s.merHold - 1 }
    else { s with merPhase := 0, meridian := s.meridian + 1,
                  agenda := s.agenda ++ if (s.meridian + 1) % 65536 = 0 then [.ev .alignMessageSend] else [] }) := by
  change execMeridianTick s = _
  unfold execMeridianTick
  split
  · rfl
  · split
    · rfl
    · rw [State.countTo_eq]
      simp only [passes_succ]

/-- A message goes out on the port of each child, and on no other (R436). -/
theorem exec_alignMessageSend {s : State} {c : Chart} (hc : s.chart = some c) :
    ∃ l, exec .alignMessageSend s = .next { s with fabric := { s.fabric with aligns := l } } ∧
      ∀ m, m ∈ l ↔ m.port < 35 ∧ s.isChildPort c m.port = true ∧ m.count = s.meridian ∧ m.delay = Config.linkDelay m.port := by
  refine ⟨((List.range 35).filter (s.isChildPort c)).map fun p => { port := p, count := s.meridian, delay := Config.linkDelay p },
    ?_, fun m => ?_⟩
  · change execAlignMessageSend s = _
    unfold execAlignMessageSend
    simp only [hc]
  · simp only [List.mem_map, List.mem_filter, List.mem_range]
    constructor
    · rintro ⟨p, ⟨h1, h2⟩, rfl⟩
      exact ⟨h1, h2, rfl, rfl⟩
    · rintro ⟨h1, h2, h3, h4⟩
      obtain ⟨p, n, d⟩ := m
      dsimp only at h1 h2 h3 h4
      exact ⟨p, ⟨h1, h2⟩, by rw [h3, h4]⟩

theorem exec_alignMessageArrive {s : State} {c : Chart} {port : Nat} (count delay : Nat) (hc : s.chart = some c)
    (hr : s.root = false) (hp : s.parentPort c = some port) : exec (.alignMessageArrive port count delay) s = .next { s with
      aligned := true, lastAlign := s.cycle,
      merHold := if count + delay + 1 < s.meridian then s.meridian - (count + delay) - 1 else 0,
      meridian := if s.meridian + 1 < count + delay then count + delay else s.meridian,
      agenda := s.agenda ++ if s.meridian + 1 < count + delay ∧ s.meridian / 65536 < (count + delay) / 65536
        then [.ev .alignMessageSend] else [] } := by
  change execAlignMessageArrive port count delay s = _
  unfold execAlignMessageArrive
  simp only [hc, hr, hp, ne_eq, not_true_eq_false, decide_false, Bool.or_self, Bool.false_eq_true, if_false]
  by_cases hahead : count + delay + 1 < s.meridian
  · have hb : ¬ s.meridian + 1 < count + delay := by omega
    simp [hahead, hb]
  · by_cases hbehind : s.meridian + 1 < count + delay
    · simp [hahead, hbehind, State.countTo_eq]
    · simp [hahead, hbehind]

/-! ## Boot and reset (R64, R477, R478) -/

theorem State.bootable_iff (s : State) (image : List Byte) :
    s.bootable image = true ↔ Config.imageAccepted image = true ∧ s.binnacle.fuse ≤ Config.imageVersion image := by
  simp [State.bootable]

theorem exec_powerOnBoot {s : State} (image : List Byte) (hs : s.binnacle.stage ≠ .running) :
    exec (.powerOnBoot image) s = .next (if Config.imageAccepted image = true ∧ s.binnacle.fuse ≤ Config.imageVersion image
      then { s with binnacle := { s.binnacle with stage := .running, image := image }, enableMap := Config.enableMap image }
      else { s with binnacle := { s.binnacle with stage := .rom } }) := by
  change execPowerOnBoot image s = _
  unfold execPowerOnBoot
  simp only [hs, if_false, State.bootable_iff]
  split <;> rfl

/-- An event-log entry shows in the log, its count and the interrupts alone (R488). -/
theorem State.logEvent_frame (s : State) (code about : Nat) : ∃ l p i, s.logEvent code about = { s with
    binnacle := { s.binnacle with log := l }, pkg := { s.pkg with evtail := p }, interrupts := i } := ⟨_, _, _, rfl⟩

/-- An update is staged for the next reset or refused, and logged (R477, R478). -/
theorem exec_firmwareUpdate {s : State} (image : List Byte) (hs : s.binnacle.stage = .running) :
    exec (.firmwareUpdate image) s = .next (if Config.imageAccepted image = true ∧ s.binnacle.fuse ≤ Config.imageVersion image
      then ({ s with binnacle := { s.binnacle with staged := some image } } : State).logEvent 7 0 else s.logEvent 7 1) := by
  change execFirmwareUpdate image s = _
  unfold execFirmwareUpdate
  split
  · simp only [State.bootable_iff]
    split <;> rfl
  · next h => rw [hs] at h; cases h
  · next h => rw [hs] at h; cases h

/-- What a reset leaves (R64): memory, what the outside will still do, Binnacle's image and fuses; all else is as at reset, but
for the event-log entry of an update. -/
theorem State.packageReset_frame (s : State) : ∃ b i p n m, s.packageReset = { State.reset with
    hbm := s.hbm, inputs := s.inputs, fresh := s.fresh, nextReq := s.nextReq, binnacle := b, enableMap := m,
    pkg := { State.reset.pkg with evtail := p }, interrupts := i ++ n } := by
  unfold State.packageReset
  dsimp only
  split
  · exact ⟨_, _, _, _, _, rfl⟩
  · exact ⟨_, [], _, [], _, rfl⟩

/-! ## Binnacle (R488, R489, R491) -/

/-- What a sample below 110 °C decides (R491). -/
theorem State.throttle_below {s : State} (power : Nat) {temp : Nat} (ht : temp < 110) :
    ∃ s', s.throttle power temp = .next s' ∧ s'.teams = s.teams ∧ s'.hbm = s.hbm ∧ s'.binnacle.sample = s.binnacle.sample ∧
      s'.binnacle.throttled = (if s.binnacle.throttled then !decide (power * 100 < 95 * s.pkg.pcap ∧ temp < 95)
        else decide (s.pkg.pcap < power ∨ 100 ≤ temp)) := by
  unfold State.throttle
  rw [if_neg (by omega)]
  cases hth : s.binnacle.throttled
  · by_cases hc : s.pkg.pcap < power ∨ 100 ≤ temp
    · simp only [Bool.not_false, if_true, Bool.or_eq_true, decide_eq_true_eq, hc]
      exact ⟨_, rfl, rfl, rfl, rfl, by simp [State.logEvent, State.interrupt]⟩
    · simp only [Bool.not_false, if_true, Bool.or_eq_true, decide_eq_true_eq, hc, if_false]
      exact ⟨_, rfl, rfl, rfl, rfl, hth⟩
  · by_cases hc : power * 100 < 95 * s.pkg.pcap ∧ temp < 95
    · simp only [Bool.not_true, Bool.false_eq_true, if_false, Bool.and_eq_true, decide_eq_true_eq, hc, and_self, if_true]
      exact ⟨_, rfl, rfl, rfl, rfl, by simp [State.logEvent, State.interrupt]⟩
    · simp only [Bool.not_true, Bool.false_eq_true, if_false, Bool.and_eq_true, decide_eq_true_eq, hc]
      exact ⟨_, rfl, rfl, rfl, rfl, hth⟩

/-- An answer begins with its nonce (R489). -/
theorem exec_attestationRequest {s : State} {nonce : List Byte} (hs : s.binnacle.stage = .running) (hn : nonce.length = 32) :
    ∃ l, exec (.attestationRequest nonce) s = .next { s with binnacle := { s.binnacle with mailbox := nonce ++ l } } := by
  change ∃ l, execAttestationRequest nonce s = _
  unfold execAttestationRequest
  simp only [hs, hn, ne_eq, not_true_eq_false, decide_false, Bool.or_self, Bool.false_eq_true, if_false, List.append_assoc]
  exact ⟨_, rfl⟩

/-! ## Counter blocks (R306) -/

/-- Changing a die's block leaves the other dies' (R306). -/
theorem State.modTraffic_same (s : State) {die : Nat} (f : Traffic → Traffic) (hd : die < 4) :
    vget (s.modTraffic die f).traffic die {} = f (vget s.traffic die {}) := vget_vset_same _ _ _ _ hd

theorem State.modTraffic_other (s : State) {die d : Nat} (f : Traffic → Traffic) (hd : d ≠ die) :
    vget (s.modTraffic die f).traffic d {} = vget s.traffic d {} := vget_vset_other _ _ _ _ _ hd

/-- Settles O53: each event's one case that its conditions pick, and what that leaves. -/
theorem managementEvents : Obligations.ManagementEvents := by
  unfold Obligations.ManagementEvents
  refine ⟨exec_meridianTick, ?send, ?arrive, ?timeout, ?reset, fun s image => exec_powerOnBoot image, ?update, ?attest, ?sample,
    ?gate, ?wake, ?clear, ?freeze⟩
  case send =>
    intro s c hc
    obtain ⟨l, he, hm⟩ := exec_alignMessageSend hc
    exact ⟨_, he, rfl, hm⟩
  case arrive =>
    intro s c port count delay hc hr hp
    exact exec_alignMessageArrive count delay hc hr hp
  case timeout =>
    intro s ha ht
    change execAlignTimeout s = _
    unfold execAlignTimeout
    simp only [ha, ht, decide_true, Bool.and_self, if_true]
  case reset =>
    intro s
    obtain ⟨b, i, p, n, m, h⟩ := s.packageReset_frame
    refine ⟨s.packageReset, rfl, ?_⟩
    rw [h]
    exact ⟨rfl, rfl, rfl, rfl, rfl, rfl, rfl, rfl, rfl, rfl, rfl⟩
  case update =>
    intro s image hs
    refine ⟨_, exec_firmwareUpdate image hs, ?_⟩
    by_cases hb : Config.imageAccepted image = true ∧ s.binnacle.fuse ≤ Config.imageVersion image
    · obtain ⟨l, p, i, hlog⟩ :=
        ({ s with binnacle := { s.binnacle with staged := some image } } : State).logEvent_frame 7 0
      rw [if_pos hb, if_pos hb, hlog]
      exact ⟨rfl, rfl, rfl, rfl, rfl⟩
    · obtain ⟨l, p, i, hlog⟩ := s.logEvent_frame 7 1
      rw [if_neg hb, if_neg hb, hlog]
      exact ⟨rfl, rfl, rfl, rfl, rfl⟩
  case attest =>
    intro s nonce hs hn
    obtain ⟨l, he⟩ := exec_attestationRequest hs hn
    exact ⟨_, he, List.take_left' hn, rfl⟩
  case sample =>
    intro s power sample temp
    refine ⟨fun ht => State.throttle_below (s := { s with binnacle := { s.binnacle with sample := sample } }) power ht,
      fun ht => ?_⟩
    obtain ⟨b, i, p, n, m, h⟩ := ({ s with binnacle := { s.binnacle with sample := sample } } : State).packageReset_frame
    refine ⟨_, if_pos ht, ?_⟩
    rw [h]
    exact ⟨rfl, rfl, rfl⟩
  case gate =>
    intro s core hg ht hb
    refine ⟨_, ?_, CoreIs.set⟩
    change execCorePowerGate core s = _
    unfold execCorePowerGate
    simp only [hg, ht, hb, List.isEmpty_nil, Bool.not_false, Bool.and_self, decide_true, if_true]
  case wake =>
    intro s core hg ht
    have he : (s.teamsOf core).isEmpty = false := by simpa using ht
    change ∃ s', execCoreWake core s = .next s' ∧ _
    unfold execCoreWake
    by_cases hc : s.cycle % 8 = core % 8
    · simp only [hg, he, hc, Bool.not_false, Bool.and_self, decide_true, if_true]
      refine ⟨_, rfl, ?_, fun d hd => State.core_setCore_other _ _ _ _ hd, rfl⟩
      rw [State.core_setCore_same]
      simp
    · simp only [hg, he, hc, Bool.not_false, Bool.and_self, decide_false, Bool.and_false, Bool.false_eq_true, if_false]
      exact ⟨s, rfl, by simp [hg, hc], fun _ _ => rfl, rfl⟩
  case clear =>
    intro s die hd
    refine ⟨_, rfl, fun i => ?_, ?_, fun d hne => s.modTraffic_other _ hne, rfl⟩
    · rw [s.modTraffic_same _ hd]
      exact vget_replicate 10 i 0
    · rw [s.modTraffic_same _ hd]
  case freeze =>
    intro s die on hd
    refine ⟨_, rfl, ?_, ?_, fun d hne => s.modTraffic_other _ hne, rfl⟩
    · rw [s.modTraffic_same _ hd]
    · rw [s.modTraffic_same _ hd]

end Sys2Proof.Machine
end

section
/-! Proofs about launches: doorbells and acceptance (R341, R349), readiness (R351–R353), priority (R358), and the end
of launches (R361, R362). -/

namespace Sys2Proof.Machine

open Sys2Proof

/-! ## Contexts and their launch queues -/

/-- A change of a context that is there. -/
theorem State.modCtx_some {s : State} {ctx : Nat} {c : Context} (f : Context → Context) (hc : s.ctx? ctx = some c) :
    s.modCtx ctx f = s.setCtx ctx (f c) := by simp [State.modCtx, hc]

theorem State.modCtx_frame (s : State) (ctx : Nat) (f : Context → Context) :
    ∃ cs, s.modCtx ctx f = { s with contexts := cs } := by
  unfold State.modCtx
  split
  · exact ⟨_, rfl⟩
  · exact ⟨s.contexts, rfl⟩

theorem State.setCtx_setCtx (s : State) (ctx : Nat) (c d : Context) : (s.setCtx ctx c).setCtx ctx d = s.setCtx ctx d := by
  simp [State.setCtx, tput_tput]

/-- The context with launch queue q as given. -/
def Context.putLq (c : Context) (q : Nat) (l : LaunchQ) : Context := { c with launchQs := vset c.launchQs q l }

theorem Context.lq_putLq (c : Context) {q : Nat} (l : LaunchQ) (hq : q < 16) : (c.putLq q l).lq q = l := vget_vset_same _ _ _ _ hq

theorem Context.putLq_putLq (c : Context) (q : Nat) (l m : LaunchQ) : (c.putLq q l).putLq q m = c.putLq q m := by
  have e : vset (vset c.launchQs q l) q m = vset c.launchQs q m := by
    unfold vset
    split
    · rw [Vector.set_set]
    · rfl
  simp [Context.putLq, e]

theorem State.modLq_some {s : State} {ctx : Nat} {c : Context} (q : Nat) (f : LaunchQ → LaunchQ) (hc : s.ctx? ctx = some c) :
    s.modLq ctx q f = s.setCtx ctx (c.putLq q (f (c.lq q))) := State.modCtx_some _ hc

theorem State.modLq_frame (s : State) (ctx q : Nat) (f : LaunchQ → LaunchQ) : ∃ cs, s.modLq ctx q f = { s with contexts := cs } :=
  s.modCtx_frame ctx _

/-! ## Doorbells (R341) -/

/-- The context with one more doorbell waiting at launch queue q. -/
def Context.rung (c : Context) (q : Nat) (v : Word) : Context := c.putLq q { c.lq q with bells := (c.lq q).bells ++ [v] }

theorem exec_launchDoorbell {s : State} {ctx q : Nat} {c : Context} (v : Word) (hc : s.ctx? ctx = some c) :
    exec (.launchDoorbell ctx q v) s = .next ((s.setCtx ctx (c.rung q v)).serveBell ctx q) := by
  change execLaunchDoorbell ctx q v s = _
  rw [execLaunchDoorbell, State.modLq_some q _ hc, Context.rung]

/-- A doorbell of a context that does not run stays where it is (R404). -/
theorem State.serveBell_idle {s : State} {ctx q : Nat} {c : Context} (hc : s.ctx? ctx = some c) (hr : c.st ≠ .running) :
    s.serveBell ctx q = s := by
  unfold State.serveBell
  simp only [hc, hr, ne_eq, not_false_eq_true, decide_true, Bool.true_or, if_true]
  split <;> rfl

/-- The queue's bounds as an entry read at a doorbell sets them. -/
def LaunchQ.ofEntry (l : LaunchQ) (x : Nat) (v : Word) : LaunchQ :=
  { l with tail := BitVec.ofNat 32 v.toNat, head := BitVec.ofNat 32 (bytesAt x 12 4), base := bytesAt x 0 8, log2n := bits x 64 4 }

/-- A doorbell in bounds of a queue whose entry is good sets the queue's bounds. -/
theorem State.serveBell_served {s s1 : State} {ctx q x : Nat} {v : Word} {rest : List Word} {c c1 : Context} (hq : q < 16)
    (hc : s.ctx? ctx = some c) (hr : c.st = .running) (hb : (c.lq q).bells = v :: rest) (hw : (c.lq q).wait.serial = none)
    (hread : s.launchRead ctx q (canon (c.lqtab + 32 * q)) 32 = (.bytes x, s1)) (hc1 : s1.ctx? ctx = some c1)
    (hv : v.toNat < 2 ^ 32) (he : bit x 71 = true) (hbad : lqEntryBad x = false)
    (hlen : (v.toNat + 2 ^ 32 - bytesAt x 12 4) % 2 ^ 32 ≤ 2 ^ bits x 64 4) :
    s.serveBell ctx q = s1.setCtx ctx (c1.putLq q (LaunchQ.ofEntry { c1.lq q with bells := rest } x v)) := by
  have hv0 : v.toNat / 2 ^ 32 = 0 := Nat.div_eq_of_lt hv
  have hl : ¬ 2 ^ bits x 64 4 < (v.toNat + 2 ^ 32 - bytesAt x 12 4) % 2 ^ 32 := by omega
  unfold State.serveBell
  simp only [hc, hb, hr, hw, hread, hv0, he, hbad, hl, ne_eq, not_true_eq_false, decide_false, Option.isSome_none, Bool.or_self,
    Bool.false_eq_true, if_false, Bool.not_true, State.modLq_some q _ hc1]
  rw [State.modLq_some q _ (State.ctx?_setCtx_same _ _ _), State.setCtx_setCtx, Context.putLq_putLq, Context.lq_putLq _ _ hq]
  rfl

/-! ## Acceptance (R349) -/

/-- SWAPTH of the context table changes contexts alone. -/
theorem State.swapThreshold_frame (s : State) (ctx : Nat) : ∃ cs, s.swapThreshold ctx = { s with contexts := cs } := by
  unfold State.swapThreshold
  dsimp only
  split
  · exact s.modCtx_frame ctx _
  · exact ⟨s.contexts, rfl⟩

/-- The launch that a packet enters in the launch table. -/
def State.launchEntered (s : State) (ctx q : Nat) (c : Context) (x : Nat) (v : Verdict) : Launch :=
  let p := LaunchPacket.ofBytes x
  let l : Launch :=
    { ctx := ctx, queue := q, index := vget c.launchCount q 0, pri := q / 4, ovl := p.ovl, nf := p.nf, fws := p.fws.take p.nf,
      dims := p.dims, seed := BitVec.ofNat 32 p.seed, scope := p.scope, notifyS := p.notifyS, notifyH := p.notifyH,
      compl := if p.compl % 64 = 0 then p.compl else 0, arg := BitVec.ofNat 64 p.arg, cores := [], scopes := [], apertures := [],
      tasks := [], acceptedAt := s.cycle, afterStep := c.sextant.pend.isSome, afterDigest := c.digest }
  match v with
  | .accept tasks scopes aps cores => { l with tasks := tasks, scopes := scopes, apertures := aps, cores := cores }
  | .refuse (d, t) => { l with fate := .refused d (t.getD 0xFFFFFFFF) }
  | .stop => l

/-- The launch takes the next number in the launch table; the rest of the change is its context's. -/
theorem State.enterLaunch_frame (s : State) (ctx q : Nat) (c : Context) (x : Nat) (v : Verdict) :
    ∃ cs, s.enterLaunch ctx q c x v = { s with
      launches := tput s.launches s.nextLaunch (s.launchEntered ctx q c x v), nextLaunch := s.nextLaunch + 1, contexts := cs } := by
  unfold State.enterLaunch
  extract_lets p l l' n s1 s2
  obtain ⟨c2, h2⟩ := s1.modCtx_frame ctx fun c => { c with launchCount := vset c.launchCount q (vget c.launchCount q 0 + 1) }
  obtain ⟨c3, h3⟩ := s2.modLq_frame ctx q fun y => { y with packet := none, reads := [], wait := {} }
  refine ⟨c3, ?_⟩
  rw [h3]
  simp only [s2, h2]
  rfl

/-- LAUNCH_ACCEPT of a packet that has been checked: accepted or refused, it enters the launch table. -/
theorem exec_launchAccept {s s1 : State} {ctx q x : Nat} {c : Context} {v : Verdict} (hc : s.ctx? ctx = some c)
    (hr : c.st = .running) (hw : (c.lq q).wait.serial = none) (hp : (c.lq q).packet = some x)
    (hv : s.checkLaunch ctx q c x = (v, s1)) (hstop : v ≠ .stop) :
    ∃ cs s', exec (.launchAccept ctx q) s = .next s' ∧ s' = { s1 with
      launches := tput s1.launches s1.nextLaunch (s1.launchEntered ctx q c x v), nextLaunch := s1.nextLaunch + 1,
      contexts := cs } := by
  obtain ⟨c0, h0⟩ := s1.swapThreshold_frame ctx
  change ∃ cs s', execLaunchAccept ctx q s = _ ∧ _
  unfold execLaunchAccept
  simp only [hc, hr, hw, hp, hv, ne_eq, not_true_eq_false, decide_false, Option.isSome_none, Bool.or_self, Bool.false_eq_true,
    if_false]
  cases v with
  | stop => exact absurd rfl hstop
  | refuse f =>
    obtain ⟨cs, h⟩ := s1.enterLaunch_frame ctx q c x (.refuse f)
    exact ⟨cs, _, rfl, h⟩
  | accept tasks scopes aps cores =>
    obtain ⟨cs, h⟩ := (s1.swapThreshold ctx).enterLaunch_frame ctx q c x (.accept tasks scopes aps cores)
    refine ⟨cs, _, rfl, ?_⟩
    rw [h, h0]
    rfl

/-! ## Readiness (R351–R353) -/

/-- A task as it becomes ready: with the context's generation, its extents and its shapes. -/
def Task.readied (tk : Task) (s : State) (l : Launch) (gen : BitVec 32) (shapes : List (Nat × Nat)) : Task :=
  { tk with st := .ready, gen := gen, extents := tk.exts.map (extentOf l.dims shapes), shapes := shapes, readyAt := s.cycle }

/-- TASK_READY of a task that nothing holds, whose shapes and extents fit and which has items. -/
theorem exec_taskReady {s : State} {n t : Nat} {l : Launch} {tk : Task} {c : Context} {shapes : List (Nat × Nat)}
    (hl : s.launch? n = some l) (ht : l.tasks[t]? = some tk) (hc : s.ctx? l.ctx = some c) (hf : l.fate = .running)
    (hst : tk.st = .waiting) (hp : ∀ i ∈ tk.preds, ∃ p, l.tasks[i]? = some p ∧ p.st = .done) (hs : l.afterStep = false)
    (hd : l.afterDigest = false) (hsh : tk.shapesAt c.sextant c.sextant.gen = some shapes)
    (he : ∀ e ∈ (tk.exts.map (extentOf l.dims shapes)).zip l.fws, e.1 ≤ 2 ^ e.2)
    (h0 : (tk.readied s l c.sextant.gen shapes).total ≠ 0) :
    ∃ f, exec (.taskReady n t) s = .next (s.setLaunch n
      { l.modTask t (fun _ => tk.readied s l c.sextant.gen shapes) with fate := f }) := by
  have hall : (tk.preds.all fun i => (l.tasks[i]?).any fun p => decide (p.st = .done)) = true := by
    rw [List.all_eq_true]
    intro i hi
    obtain ⟨p, h1, h2⟩ := hp i hi
    simp [h1, h2]
  have hany : ((tk.exts.map (extentOf l.dims shapes)).zip l.fws).any (fun e => decide (2 ^ e.2 < e.1)) = false := by
    rw [List.any_eq_false]
    intro e hm
    have := he e hm
    simp only [decide_eq_true_eq]
    omega
  change ∃ f, execTaskReady n t s = _
  unfold execTaskReady
  simp only [hl, ht, hc, hf, hst, hall, hs, hd, hsh, hany, ne_eq, not_true_eq_false, decide_false, Bool.not_true, Bool.false_and,
    Bool.or_self, Bool.false_eq_true, if_false]
  have h0' : ({ tk with
      st := .ready, gen := c.sextant.gen, extents := tk.exts.map (extentOf l.dims shapes), shapes := shapes,
      readyAt := s.cycle } : Task).total ≠ 0 := h0
  simp only [h0', if_false]
  split
  · exact ⟨_, rfl⟩
  · exact ⟨_, rfl⟩

theorem Launch.modTask_length (l : Launch) (t : Nat) (f : Task → Task) : (l.modTask t f).tasks.length = l.tasks.length :=
  List.length_modify ..

theorem Launch.modTask_same {l : Launch} {t : Nat} {tk : Task} (f : Task → Task) (h : l.tasks[t]? = some tk) :
    (l.modTask t f).tasks[t]? = some (f tk) := by simp [Launch.modTask, h]

theorem Launch.modTask_other (l : Launch) {t j : Nat} (f : Task → Task) (h : j ≠ t) :
    (l.modTask t f).tasks[j]? = l.tasks[j]? := by simp [Launch.modTask, Ne.symm h]

/-! ## Priority (R358) -/

/-- The launch with one more priority step for a task on a core. -/
def Launch.boosted (l : Launch) (core t : Nat) : Launch :=
  { l with boosts := (l.boosts.filter fun x => !(x.1 = core && x.2.1 = t)) ++ [(core, t, l.boost core t + 1)] }

theorem Launch.boost_boosted_same (l : Launch) (core t : Nat) : (l.boosted core t).boost core t = l.boost core t + 1 := by
  have hgone : (l.boosts.filter fun x => !(x.1 = core && x.2.1 = t)).find? (fun b => b.1 = core && b.2.1 = t) = none := by
    rw [List.find?_eq_none]
    intro b hb
    simpa [imp_iff_not_or] using (List.mem_filter.mp hb).2
  conv_lhs => unfold Launch.boost Launch.boosted
  dsimp only
  rw [List.find?_append, hgone]
  simp

theorem Launch.boost_boosted_other (l : Launch) {core t c u : Nat} (h : (c, u) ≠ (core, t)) :
    (l.boosted core t).boost c u = l.boost c u := by
  have hkept : (fun b : Nat × Nat × Nat => decide ((!(b.1 = core && b.2.1 = t)) = true ∧ (b.1 = c && b.2.1 = u) = true)) =
      fun b => b.1 = c && b.2.1 = u := by
    funext b
    rw [Bool.eq_iff_iff]
    simp only [← Bool.decide_and, Bool.not_eq_true', decide_eq_false_iff_not, decide_eq_true_eq, and_iff_right_iff_imp]
    rintro ⟨rfl, rfl⟩ ⟨rfl, rfl⟩
    exact h rfl
  have hnew : (decide (core = c) && decide (t = u)) = false := by
    rw [← Bool.decide_and, decide_eq_false_iff_not]
    rintro ⟨rfl, rfl⟩
    exact h rfl
  unfold Launch.boost Launch.boosted
  dsimp only
  rw [List.find?_append, List.find?_filter, hkept]
  simp only [List.find?_cons, hnew, List.find?_nil, Option.or_none]

theorem exec_priorityAging {s : State} {core n t i : Nat} {l : Launch} {tk : Task} (hi : s.itemFor core n = some (l, tk, t, i))
    (hw : l.waitsFrom tk + 65536 * (l.boost core t + 1) ≤ s.cycle) (hp : l.pri + l.boost core t < 3) :
    exec (.priorityAging core n) s = .next (s.setLaunch n (l.boosted core t)) := by
  change execPriorityAging core n s = _
  unfold execPriorityAging
  simp only [hi, hw, hp, decide_true, Bool.and_self, if_true]
  rfl

/-! ## Local stores performed at once (R298) -/

/-- A local store changes its window, with what is noted of it, and the releases to be logged. -/
theorem Team.performSpill_frame (t : Team) (e : Spill) : ∃ wb ab cb sp d l g,
    t.performSpill e = { t with wb := wb, ab := ab, cb := cb, sp := sp, dirty := d, spBusy := l, toLog := g } := by
  obtain ⟨d, l, h⟩ := t.writeWindow_frame e.buf e.off e.data e.mask e.len
  unfold Team.performSpill
  rw [h]
  cases e.buf <;> dsimp only [Team.setWindow] <;> split <;> exact ⟨_, _, _, _, _, _, _, rfl⟩

theorem Team.performSpill_fold_frame (t : Team) (es : List Spill) : ∃ wb ab cb sp d l g,
    es.foldl Team.performSpill t = { t with wb := wb, ab := ab, cb := cb, sp := sp, dirty := d, spBusy := l, toLog := g } := by
  induction es generalizing t with
  | nil => exact ⟨_, _, _, _, _, _, _, rfl⟩
  | cons e r ih =>
    obtain ⟨_, _, _, _, _, _, _, h1⟩ := t.performSpill_frame e
    obtain ⟨_, _, _, _, _, _, _, h2⟩ := ih (t.performSpill e)
    rw [List.foldl_cons, h2, h1]
    exact ⟨_, _, _, _, _, _, _, rfl⟩

/-- The local stores of streams performed at once leave each stream as it is, with none to perform. -/
theorem Team.flushSpills_fold_frame (t : Team) {ks : List Nat} (hks : ∀ k ∈ ks, k ≤ 4) : ∃ wb ab cb sp d l g ss,
    ks.foldl Team.flushSpills t =
      { t with wb := wb, ab := ab, cb := cb, sp := sp, dirty := d, spBusy := l, toLog := g, strands := ss } ∧
    ∀ j ≤ 4, ss.get j = if j ∈ ks then { t.strand j with spills := [] } else t.strand j := by
  induction ks generalizing t with
  | nil => exact ⟨t.wb, t.ab, t.cb, t.sp, t.dirty, t.spBusy, t.toLog, t.strands, rfl, fun _ _ => rfl⟩
  | cons k r ih =>
    have hk : k ≤ 4 := hks k List.mem_cons_self
    obtain ⟨wb, ab, cb, sp, d, l, g, h1⟩ := t.performSpill_fold_frame (t.strand k).spills
    have hone : t.flushSpills k = { t.setStrand k { t.strand k with spills := [] } with
        wb := wb, ab := ab, cb := cb, sp := sp, dirty := d, spBusy := l, toLog := g } := by
      unfold Team.flushSpills
      rw [h1]
      rfl
    obtain ⟨wb', ab', cb', sp', d', l', g', ss, h2, hs⟩ := ih (t.flushSpills k) fun j hj => hks j (List.mem_cons_of_mem _ hj)
    refine ⟨wb', ab', cb', sp', d', l', g', ss, ?_, fun j hj => ?_⟩
    · rw [List.foldl_cons, h2, hone]
      rfl
    · have hstrand : (t.flushSpills k).strand j = (t.setStrand k { t.strand k with spills := [] }).strand j := by rw [hone]; rfl
      rw [hs j hj, hstrand]
      by_cases hjk : j = k
      · subst hjk
        rw [Team.strand_setStrand_same _ _ _ hj]
        simp
      · rw [Team.strand_setStrand_other _ _ _ _ hk hj hjk]
        simp [hjk]

/-- A team with all its local stores performed. -/
theorem Team.flushAll_frame (t : Team) : ∃ wb ab cb sp d l g ss,
    (List.range 5).foldl Team.flushSpills t =
      { t with wb := wb, ab := ab, cb := cb, sp := sp, dirty := d, spBusy := l, toLog := g, strands := ss } ∧
    ∀ k ≤ 4, ss.get k = { t.strand k with spills := [] } := by
  obtain ⟨wb, ab, cb, sp, d, l, g, ss, h, hs⟩ :=
    t.flushSpills_fold_frame (ks := List.range 5) fun k hk => Nat.le_of_lt_succ (List.mem_range.mp hk)
  exact ⟨wb, ab, cb, sp, d, l, g, ss, h, fun k hk => by rw [hs k hk, if_pos (List.mem_range.mpr (Nat.lt_succ_of_le hk))]⟩

/-! ## The end of a launch (R361, R362) -/

theorem Team.halt_halted (t : Team) : t.halt.halted = true := by
  obtain ⟨_, _, _, _, _, _, _, _, h, -⟩ := ({ t with halted := true } : Team).flushAll_frame
  rw [Team.halt, h]

theorem State.failLaunch_frame (s : State) (t : Team) : ∃ ls, s.failLaunch t = { s with launches := ls } := by
  unfold State.failLaunch
  split
  · split
    · exact ⟨_, rfl⟩
    · split
      · exact ⟨_, rfl⟩
      · exact ⟨s.launches, rfl⟩
    · exact ⟨s.launches, rfl⟩
  · exact ⟨s.launches, rfl⟩

theorem State.failLaunch_team (s : State) (t : Team) (h : Nat) : (s.failLaunch t).team? h = s.team? h := by
  obtain ⟨ls, e⟩ := s.failLaunch_frame t
  rw [e]
  rfl

/-- Team h is there, and halted. -/
def State.isHalted (s : State) (h : Nat) : Prop := ∃ t, s.team? h = some t ∧ t.halted = true

theorem State.haltTeam_halted {s : State} {h : Nat} {t : Team} (ht : s.team? h = some t) : (s.haltTeam h).isHalted h := by
  unfold State.haltTeam State.isHalted
  simp only [ht]
  split
  · next hh => exact ⟨t, (s.failLaunch_team t h).trans ht, hh⟩
  · exact ⟨t.halt, (State.failLaunch_team _ _ _).trans (State.team?_setTeam_same _ _ _), t.halt_halted⟩

theorem State.haltTeam_other (s : State) {g h : Nat} (hg : h ≠ g) : (s.haltTeam g).team? h = s.team? h := by
  unfold State.haltTeam
  split
  · rfl
  · split
    · exact s.failLaunch_team _ h
    · exact (State.failLaunch_team _ _ _).trans (State.team?_setTeam_other _ _ _ _ hg)

/-- A team stays halted while teams are halted. -/
theorem State.haltAll_keeps {s : State} {h : Nat} (ts : List Team) (hh : s.isHalted h) :
    (ts.foldl (fun s t => s.haltTeam t.handle) s).isHalted h := by
  induction ts generalizing s with
  | nil => exact hh
  | cons u r ih =>
    refine ih ?_
    obtain ⟨t, ht, ha⟩ := hh
    by_cases hu : h = u.handle
    · subst hu
      exact State.haltTeam_halted ht
    · exact ⟨t, (s.haltTeam_other hu).trans ht, ha⟩

/-- Each of the teams that are halted is. -/
theorem State.haltAll_halted {s : State} {h : Nat} {t u : Team} {ts : List Team} (ht : s.team? h = some t) (hu : u ∈ ts)
    (hh : u.handle = h) : (ts.foldl (fun s t => s.haltTeam t.handle) s).isHalted h := by
  induction ts generalizing s t with
  | nil => cases hu
  | cons v r ih =>
    by_cases hv : h = v.handle
    · subst hv
      exact State.haltAll_keeps r (State.haltTeam_halted ht)
    · rcases List.mem_cons.mp hu with rfl | hr
      · exact absurd hh.symm hv
      · exact ih ((s.haltTeam_other hv).trans ht) hr

theorem mem_of_tget {α : Type} {l : List (Nat × α)} {k : Nat} {v : α} (h : tget l k = some v) : (k, v) ∈ l := by
  induction l with
  | nil => cases h
  | cons e r ih =>
    obtain ⟨a, b⟩ := e
    simp only [tget] at h
    split at h
    · next hk =>
      cases h
      subst hk
      exact List.mem_cons_self
    · exact List.mem_cons_of_mem _ (ih h)

/-- LAUNCH_FAIL while teams of the launch are left halts each of them. -/
theorem exec_launchFail_teams {s : State} {n : Nat} {l : Launch} (hl : s.launch? n = some l) (hf : l.fate ≠ .running)
    (hne : ∃ e ∈ s.teams, e.2.launch = n) : ∃ s', exec (.launchFail n) s = .next s' ∧
      ∀ h t, s.team? h = some t → t.launch = n → t.handle = h → s'.isHalted h := by
  have hts : ((s.teams.map (·.2)).filter fun t => t.launch = n).isEmpty = false := by
    obtain ⟨e, he, hn⟩ := hne
    rw [List.isEmpty_eq_false_iff_exists_mem]
    exact ⟨e.2, List.mem_filter.mpr ⟨List.mem_map_of_mem he, by simpa using hn⟩⟩
  refine ⟨((s.teams.map (·.2)).filter fun t => t.launch = n).foldl (fun s t => s.haltTeam t.handle) s, ?_, ?_⟩
  · change execLaunchFail n s = _
    unfold execLaunchFail
    simp only [hl, hf, hts, Bool.false_eq_true, if_false]
  · intro h t ht hn hh
    exact State.haltAll_halted ht (List.mem_filter.mpr ⟨List.mem_map_of_mem (f := (·.2)) (mem_of_tget ht), by simpa using hn⟩) hh

/-- LAUNCH_FAIL of a launch with no team left and no record to write takes it out of the launch table. -/
theorem exec_launchFail_gone {s : State} {n : Nat} {l : Launch} (hl : s.launch? n = some l) (hf : l.fate ≠ .running)
    (hne : ∀ e ∈ s.teams, e.2.launch ≠ n) (hc : l.compl = 0) (hw : l.wait.serial = none) :
    ∃ s', exec (.launchFail n) s = .next s' ∧ s'.launches = tdel s.launches n := by
  have hts : ((s.teams.map (·.2)).filter fun t => t.launch = n).isEmpty = true := by
    rw [List.isEmpty_iff, List.filter_eq_nil_iff]
    intro t ht
    obtain ⟨e, he, rfl⟩ := List.mem_map.mp ht
    simpa using hne e he
  refine ⟨s.reportLaunch n l, ?_, ?_⟩
  · change execLaunchFail n s = _
    unfold execLaunchFail
    simp only [hl, hf, hts, if_false, if_true]
  · unfold State.reportLaunch
    simp only [hw, hc, Option.isSome_none, Bool.false_eq_true, if_false, if_true]

end Sys2Proof.Machine
end

section
/-! Proofs about teams: dispatch (R26, R63, R355) and retirement (R68, R361). -/

namespace Sys2Proof.Machine

open Sys2Proof

/-! ## Handles (R62) -/

/-- The fields of a handle lie side by side. -/
theorem mkHandle_eq {ctx core serial : Nat} (hc : core < 576) (hs : serial < 65536) :
    mkHandle ctx core serial = ctx * 2 ^ 26 + core * 2 ^ 16 + serial := by
  rw [mkHandle, Nat.mod_eq_of_lt hs, Nat.or_assoc, ← Nat.shiftLeft_add_eq_or_of_lt (b := serial) (i := 16) (by omega),
    ← Nat.shiftLeft_add_eq_or_of_lt (i := 26), Nat.shiftLeft_eq, Nat.shiftLeft_eq]
  · omega
  · rw [Nat.shiftLeft_eq]
    omega

theorem handleCtx_mkHandle {ctx core serial : Nat} (hx : ctx < 64) (hc : core < 576) (hs : serial < 65536) :
    handleCtx (mkHandle ctx core serial) = ctx := by
  rw [handleCtx, bits, mkHandle_eq hc hs, Nat.shiftRight_eq_div_pow]
  omega

theorem handleCore_mkHandle {core serial : Nat} (ctx : Nat) (hc : core < 576) (hs : serial < 65536) :
    handleCore (mkHandle ctx core serial) = core := by
  rw [handleCore, bits, mkHandle_eq hc hs, Nat.shiftRight_eq_div_pow]
  omega

theorem handleSerial_mkHandle {core serial : Nat} (ctx : Nat) (hc : core < 576) (hs : serial < 65536) :
    handleSerial (mkHandle ctx core serial) = serial := by
  rw [handleSerial, bits, mkHandle_eq hc hs, Nat.shiftRight_eq_div_pow]
  omega

/-! ## Dispatch -/

/-- Only what the streams of a team have acquired may differ (R318). -/
def Team.Acquired (t u : Team) : Prop :=
  ∃ ss, u = { t with strands := ss } ∧ ∀ k ≤ 4, ∃ n, ss.get k = { t.strand k with acqUpto := n }

/-- Streams of a team acquire one after another. -/
theorem State.acquires_fold {s : State} {h : Nat} {t : Team} {ks : List Nat} (hks : ∀ k ∈ ks, k ≤ 4) (ht : s.team? h = some t) :
    ∃ u ts cs, ks.foldl (fun s k => s.acquires h k) s = { s with teams := ts, cores := cs } ∧ tget ts h = some u ∧
      t.Acquired u ∧ ∀ g, g ≠ h → tget ts g = s.team? g := by
  induction ks generalizing s t with
  | nil => exact ⟨t, s.teams, s.cores, rfl, ht, ⟨t.strands, rfl, fun k _ => ⟨(t.strand k).acqUpto, rfl⟩⟩, fun _ _ => rfl⟩
  | cons k r ih =>
    have hk : k ≤ 4 := hks k List.mem_cons_self
    obtain ⟨h1, h2, h3, -⟩ := State.acquires_frame (k := k) ht
    obtain ⟨u, ts, cs, hfold, hu, ⟨ss, hss, hst⟩, hoth⟩ := ih (fun j hj => hks j (List.mem_cons_of_mem _ hj)) h1
    refine ⟨u, ts, cs, ?_, hu, ⟨ss, hss, fun j hj => ?_⟩, fun g hg => (hoth g hg).trans (h2 g hg)⟩
    · rw [List.foldl_cons, hfold, h3]
    · obtain ⟨n, hn⟩ := hst j hj
      by_cases hjk : j = k
      · subst hjk
        rw [Team.acquired, Team.strand_setStrand_same _ _ _ hj] at hn
        exact ⟨n, hn⟩
      · rw [Team.acquired, Team.strand_setStrand_other _ _ _ _ hk hj hjk] at hn
        exact ⟨n, hn⟩

/-- Entry points that are multiples of 8 raise no trap at dispatch. -/
theorem State.entryTraps_aligned {s : State} {h : Nat} {t : Team} (ht : s.team? h = some t)
    (hpc : ∀ k ≤ 4, (t.strand k).pc % 8 = 0) (htrap : t.trapEnt % 8 = 0) : s.entryTraps h = s := by
  have hany : ((List.range 4).any fun k => decide ((t.strand k).pc % 8 ≠ 0)) = false := by
    rw [List.any_eq_false]
    intro k hk
    simpa using hpc k (by have := List.mem_range.mp hk; omega)
  unfold State.entryTraps
  simp only [ht, hany, htrap, hpc 4 (le_refl 4), ne_eq, not_true_eq_false, Bool.false_eq_true, if_false]

theorem BitVec.umod_eight_eq_zero {x : BitVec 64} (h : x.toNat % 8 = 0) : x % 8 = 0 :=
  BitVec.eq_of_toNat_eq (by simpa [BitVec.toNat_umod] using h)

/-- A strand of a team at dispatch (R29, R63): at its entry point, and live when that is not 0. -/
theorem teamOfItem_strand (s : State) (c : Context) (n : Nat) (l : Launch) (tk : Task) (t i core slot tiles : Nat) {k : Nat}
    (hk : k ≤ 4) : (teamOfItem s c n l tk t i core slot tiles).strand k =
      { pc := BitVec.ofNat 64 (tk.image.ents.getD k 0), live := tk.image.ents.getD k 0 ≠ 0 } := by
  have : k = 0 ∨ k = 1 ∨ k = 2 ∨ k = 3 ∨ k = 4 := by omega
  rcases this with rfl | rfl | rfl | rfl | rfl <;> rfl

/-- TEAM_DISPATCH of an item that fits, with aligned entry points: the team stands in the directory as the image gives it, but
for what its streams acquire at once, and its context's next SERIAL for the core is one higher (R63). -/
theorem exec_teamDispatch {s : State} {core n t i slot tiles : Nat} {l : Launch} {tk : Task} {c : Context}
    (hi : s.itemFor core n = some (l, tk, t, i)) (hroom : roomFor (s.teamsOf core) tk.image.need = some (slot, tiles))
    (hc : s.ctx? l.ctx = some c) (hents : ∀ k ≤ 4, (BitVec.ofNat 64 (tk.image.ents.getD k 0)).toNat % 8 = 0)
    (htrap : (BitVec.ofNat 64 tk.image.trapEnt).toNat % 8 = 0) :
    ∃ s' u, exec (.teamDispatch core n) s = .next s' ∧
      s'.team? (mkHandle l.ctx core ((tget c.serials core).getD 0)) = some u ∧
      (∀ g, g ≠ mkHandle l.ctx core ((tget c.serials core).getD 0) → s'.team? g = s.team? g) ∧
      (teamOfItem s c n l tk t i core slot tiles).Acquired u ∧
      s'.ctx? l.ctx = some { c with serials := tput c.serials core (((tget c.serials core).getD 0 + 1) % 65536) } := by
  let u0 := teamOfItem s c n l tk t i core slot tiles
  let s1 := ((s.setLaunch n (l.modTask t fun k => { k with started := tput k.started core (i + 1) })).setCtx l.ctx
    { c with serials := tput c.serials core (((tget c.serials core).getD 0 + 1) % 65536) }).modCore core fun k =>
      { k with turns := vset k.turns (l.priOn core t) (n + 1), lastBusy := s.cycle }
  obtain ⟨u, ts, cs, hfold, hu, hacq, hoth⟩ := (s1.setTeam u0.handle u0).acquires_fold (ks := List.range 5)
    (fun k hk => Nat.le_of_lt_succ (List.mem_range.mp hk)) (State.team?_setTeam_same _ _ _)
  have halign : (({ s1.setTeam u0.handle u0 with teams := ts, cores := cs } : State).entryTraps u0.handle) =
      { s1.setTeam u0.handle u0 with teams := ts, cores := cs } := by
    obtain ⟨ss, rfl, hss⟩ := hacq
    refine State.entryTraps_aligned (t := { u0 with strands := ss }) hu (fun k hk => ?_) (BitVec.umod_eight_eq_zero htrap)
    obtain ⟨m, hm⟩ := hss k hk
    rw [Team.strand, hm, teamOfItem_strand _ _ _ _ _ _ _ _ _ _ hk]
    exact BitVec.umod_eight_eq_zero (hents k hk)
  refine ⟨{ s1.setTeam u0.handle u0 with teams := ts, cores := cs }, u, ?_, hu,
    fun g hg => (hoth g hg).trans (State.team?_setTeam_other _ _ _ _ hg), hacq, tget_tput_same _ _ _⟩
  rw [← halign, ← hfold]
  change execTeamDispatch core n s = _
  unfold execTeamDispatch
  simp only [hi, hroom, hc]
  rfl

/-! ## Retirement -/

theorem State.abandonClaims_frame (s : State) (b : Claimer) : ∃ cl hb, s.abandonClaims b = { s with claims := cl, hbm := hb } := by
  unfold State.abandonClaims
  generalize s.claimsBy b = l
  induction l generalizing s with
  | nil => exact ⟨s.claims, s.hbm, rfl⟩
  | cons c r ih =>
    rw [List.foldl_cons]
    split
    · obtain ⟨cl, hb, h⟩ := ih (s.setClaim c.1 { c.2 with orphan := true })
      exact ⟨cl, hb, h⟩
    · obtain ⟨cl, hb, h⟩ := ih { s.releaseBusy c.2 with claims := tdel s.claims c.1 }
      refine ⟨cl, hb, h.trans ?_⟩
      unfold State.releaseBusy
      split <;> rfl

/-- Abandoning the claims of several claimers. -/
theorem State.abandonAll_frame {α : Type} (s : State) (f : α → Claimer) (l : List α) :
    ∃ cl hb, l.foldl (fun s a => s.abandonClaims (f a)) s = { s with claims := cl, hbm := hb } := by
  induction l generalizing s with
  | nil => exact ⟨s.claims, s.hbm, rfl⟩
  | cons a r ih =>
    obtain ⟨_, _, h1⟩ := s.abandonClaims_frame (f a)
    obtain ⟨cl, hb, h2⟩ := ih (s.abandonClaims (f a))
    exact ⟨cl, hb, by rw [List.foldl_cons, h2, h1]⟩

theorem State.cleanBack_frame (s : State) (h : Nat) : ∃ cl hb, s.cleanBack h = { s with claims := cl, hbm := hb } := by
  unfold State.cleanBack
  split
  · exact s.abandonAll_frame (Claimer.back h) _
  · exact ⟨s.claims, s.hbm, rfl⟩

/-- The loads of an access stream are discarded: of the teams only its own changes. -/
theorem State.discardLoads_frame (s : State) (h : Nat) :
    ∃ ts co rq, s.discardLoads h = { s with teams := ts, cores := co, reqs := rq } ∧ ∀ g, g ≠ h → tget ts g = s.team? g := by
  unfold State.discardLoads
  split
  · exact ⟨s.teams, s.cores, s.reqs, rfl, fun _ _ => rfl⟩
  · extract_lets lines s1 mine waits s2 t1
    have hs1 : ∃ co, s1 = { s with cores := co } := by
      simp only [s1]
      split
      · exact ⟨s.cores, rfl⟩
      · exact ⟨_, rfl⟩
    obtain ⟨co, hco⟩ := hs1
    have hs2 : s2 = { s with cores := co, reqs := s2.reqs } := by simp only [s2, hco]
    rw [hs2]
    exact ⟨_, co, s2.reqs, rfl, fun g hg => tget_tput_other _ _ _ _ hg⟩

/-- A team that is freed is gone; no other team changes, and no launch. -/
theorem State.freeTeam_frame (s : State) (t : Team) : ∃ ts co rq cl hb cx tg, s.freeTeam t =
    { s with teams := ts, cores := co, reqs := rq, claims := cl, hbm := hb, contexts := cx, tagOf := tg } ∧
      tget ts t.handle = none ∧ ∀ g, g ≠ t.handle → tget ts g = s.team? g := by
  obtain ⟨ts, co, rq, h1, hoth⟩ := s.discardLoads_frame t.handle
  unfold State.freeTeam
  extract_lets s1 s2 s3 s4 s5 s6
  have h2 : s2 = { s with teams := ts, cores := co, reqs := s2.reqs } := by simp only [s2, s1, h1]
  have h3 : ∃ cl hb, s3 = { s2 with claims := cl, hbm := hb } := by
    obtain ⟨_, _, ha⟩ := s2.cleanBack_frame t.handle
    obtain ⟨cl, hb, hf⟩ := (s2.cleanBack t.handle).abandonAll_frame (fun f : Fill => Claimer.fill t.handle f.granule) t.fills
    exact ⟨cl, hb, hf.trans (by rw [ha])⟩
  have h4 : ∃ cx, s4 = { s3 with contexts := cx } := by
    simp only [s4]
    split
    · exact s3.modCtx_frame _ _
    · exact ⟨s3.contexts, rfl⟩
  obtain ⟨cl, hb, h3⟩ := h3
  obtain ⟨cx4, h4⟩ := h4
  obtain ⟨cx5, h5⟩ := s4.modCtx_frame t.ctx fun c =>
    { c with dblk := { c.dblk with stopping := c.dblk.stopping.filter (· ≠ t.handle) } }
  have h6 : s6 = { s with
      teams := ts, cores := co, reqs := s2.reqs, claims := cl, hbm := hb, contexts := cx5, tagOf := s6.tagOf } := by
    simp only [s6, s5, h5, h4, h3]
    rw [h2]
  rw [h6]
  exact ⟨_, co, s2.reqs, cl, hb, cx5, s6.tagOf, rfl, tget_tdel_same _ _, fun g hg => (tget_tdel_other _ _ _ hg).trans (hoth g hg)⟩

/-- The task once item i has retired: complete when it was the last (R361). -/
def Task.retire (k : Task) (i : Nat) : Task :=
  let k := { k with retired := k.retired ++ [i] }
  if k.retired.length = k.total then { k with st := .done } else k

theorem Task.retire_retired (k : Task) (i : Nat) : (k.retire i).retired = k.retired ++ [i] := by
  unfold Task.retire
  dsimp only
  split <;> rfl

theorem Task.retire_last {k : Task} (i : Nat) (h : k.retired.length + 1 = k.total) : (k.retire i).st = .done := by
  have hlen : ({ k with retired := k.retired ++ [i] } : Task).retired.length =
      ({ k with retired := k.retired ++ [i] } : Task).total := by simpa [Task.total] using h
  unfold Task.retire
  dsimp only
  rw [if_pos hlen]

/-- The launch of a retired item has it counted in its task, and is complete with its last task. -/
theorem State.itemRetired_launch {s : State} {t : Team} {l : Launch} (hl : s.launch? t.launch = some l) :
    ∃ f, s.itemRetired t = s.setLaunch t.launch { l.modTask t.task (·.retire t.item) with fate := f } := by
  unfold State.itemRetired State.modLaunch
  simp only [hl]
  split
  · exact ⟨_, rfl⟩
  · exact ⟨_, rfl⟩

/-- TEAM_RETIRE of a team whose end has nothing left to wait for. -/
theorem exec_teamRetire {s : State} {h : Nat} {t : Team} (ht : s.team? h = some t) (hover : t.isOver = true)
    (hend : t.ending = true) (hleft : t.wbLeft = []) (hback : t.toWriteBack = []) (hflush : t.resident = true → t.flushed = .done)
    (hw : s.writesDone t = true) (hlead : s.leadOk (dieOf t.core) = true) :
    exec (.teamRetire h) s = .next (s.retireNow t) := by
  have hfl : (t.resident && decide (t.flushed ≠ .done)) = false := by
    cases hr : t.resident
    · rfl
    · simp [hflush hr]
  change execTeamRetire h s = _
  unfold execTeamRetire
  simp only [ht, hover, hend, hleft, hback, hfl, hw, hlead, List.isEmpty_nil, Bool.not_true, Bool.or_self, Bool.false_eq_true,
    if_false]

theorem State.mergeStats_frame (s : State) (t : Team) : ∃ cx, s.mergeStats t = { s with contexts := cx } := s.modCtx_frame _ _

theorem State.retireNow_frame {s : State} {t : Team} {l : Launch} {tk : Task} (hh : t.halted = false)
    (hl : s.launch? t.launch = some l) (htk : l.tasks[t.task]? = some tk) :
    (s.retireNow t).team? t.handle = none ∧ (∀ g, g ≠ t.handle → (s.retireNow t).team? g = s.team? g) ∧
    ∃ l' tk', (s.retireNow t).launch? t.launch = some l' ∧ l'.tasks[t.task]? = some tk' ∧ tk'.retired = tk.retired ++ [t.item] ∧
      (tk.retired.length + 1 = tk.total → tk'.st = .done) := by
  obtain ⟨cx, hm⟩ := (s.newTag t.core).2.mergeStats_frame t
  obtain ⟨ts, co, rq, cl, hb, cx', tg, hf, hgone, hoth⟩ := ((s.newTag t.core).2.mergeStats t).freeTeam_frame t
  have hlaunch : (((s.newTag t.core).2.mergeStats t).freeTeam t).launch? t.launch = some l := by
    rw [hf, hm]
    exact hl
  have hteams : ∀ g, ((s.newTag t.core).2.mergeStats t).team? g = s.team? g := fun g => by
    rw [hm]
    rfl
  obtain ⟨f, hret⟩ := State.itemRetired_launch hlaunch
  have e : s.retireNow t = (((s.newTag t.core).2.mergeStats t).freeTeam t).setLaunch t.launch
      { l.modTask t.task (·.retire t.item) with fate := f } := by
    unfold State.retireNow
    simp only [hh, Bool.false_eq_true, if_false, hret]
  rw [e]
  refine ⟨?_, fun g hg => ?_, _, tk.retire t.item, tget_tput_same _ _ _, Launch.modTask_same _ htk, tk.retire_retired _,
    tk.retire_last _⟩
  · rw [hf]
    exact hgone
  · rw [hf]
    exact (hoth g hg).trans (hteams g)

/-- Settles O47: each event is the one lemma of its case; what a dispatched team holds is read off the image. -/
theorem launchAndTeamEvents : Obligations.LaunchAndTeamEvents := by
  unfold Obligations.LaunchAndTeamEvents
  refine ⟨?recorded, ?served, ?accepted, ?refused, ?ready, ?dispatch, ?retire, ?fail, ?gone, ?aging⟩
  case recorded =>
    intro s ctx q v c hq hc hr
    exact ⟨_, (exec_launchDoorbell v hc).trans
      (congrArg _ (State.serveBell_idle (c := c.rung q v) (State.ctx?_setCtx_same _ _ _) hr)), CtxIs.set⟩
  case served =>
    intro s s1 ctx q x v c c1 hq hc hr hb hw hread hc1 hv he hbad hlen
    have hlq : (c.rung q v).lq q = { c.lq q with bells := [v] } := by
      rw [Context.rung, Context.lq_putLq _ _ hq, hb, List.nil_append]
    have hread' : (s.setCtx ctx (c.rung q v)).launchRead ctx q (canon ((c.rung q v).lqtab + 32 * q)) 32 = (.bytes x, s1) := by
      rw [State.modLq_some q _ hc] at hread
      rw [Context.rung, hb, List.nil_append]
      exact hread
    refine ⟨_, c1.putLq q (LaunchQ.ofEntry { c1.lq q with bells := [] } x v), (exec_launchDoorbell v hc).trans
      (congrArg _ (State.serveBell_served hq (State.ctx?_setCtx_same _ _ _) hr (congrArg LaunchQ.bells hlq)
        ((congrArg (fun l => l.wait.serial) hlq).trans hw) hread' hc1 hv he hbad hlen)), CtxIs.set, ?_⟩
    rw [Context.lq_putLq _ _ hq]
    exact ⟨rfl, rfl, rfl, rfl, rfl⟩
  case accepted =>
    intro s s1 ctx q x c tasks scopes aps cores _ hc hr hw hp hv
    obtain ⟨cs, s', he, rfl⟩ := exec_launchAccept hc hr hw hp hv nofun
    exact ⟨_, _, he, tget_tput_same _ _ _, rfl, rfl, rfl, rfl, rfl, rfl, rfl, rfl, rfl, rfl⟩
  case refused =>
    intro s s1 ctx q x d c t _ hc hr hw hp hv
    obtain ⟨cs, s', he, rfl⟩ := exec_launchAccept hc hr hw hp hv nofun
    exact ⟨_, _, he, tget_tput_same _ _ _, rfl, rfl⟩
  case ready =>
    intro s n t l tk c shapes hl ht hc hf hst hp hs hd hsh he h0
    obtain ⟨f, hex⟩ := exec_taskReady hl ht hc hf hst hp hs hd hsh he h0
    exact ⟨_, _, hex, LaunchIs.set, Launch.modTask_length _ _ _, fun j hj => Launch.modTask_other _ _ hj,
      Launch.modTask_same _ ht⟩
  case dispatch =>
    intro s core n t i slot tiles l tk c hcore hi hroom hc hx hser hents htrap h
    obtain ⟨s', u, hex, hu, hoth, ⟨ss, rfl, hss⟩, hctx⟩ := exec_teamDispatch hi hroom hc hents htrap
    have hslot : ∀ n, vget (Vector.replicate 64 (0 : BitVec 32)) n 0 = 0 := fun n => vget_replicate 64 n 0
    refine ⟨s', _, hex, hu, hoth, rfl, handleCtx_mkHandle hx hcore hser, handleCore_mkHandle _ hcore hser,
      handleSerial_mkHandle _ hcore hser, rfl, rfl, rfl, rfl, rfl, rfl, rfl, rfl, rfl, rfl, rfl, rfl, rfl, rfl, rfl,
      hslot, fun k hk => ?_, _, hctx, tget_tput_same _ _ _⟩
    obtain ⟨m, hm⟩ := hss k hk
    have hsd : ({ teamOfItem s c n l tk t i core slot tiles with strands := ss } : Team).strand k =
        { pc := BitVec.ofNat 64 (tk.image.ents.getD k 0), live := tk.image.ents.getD k 0 ≠ 0, acqUpto := m } := by
      rw [teamOfItem_strand _ _ _ _ _ _ _ _ _ _ hk] at hm
      exact hm
    rw [hsd]
    refine ⟨rfl, rfl, rfl, rfl, rfl, fun p hp => ?_⟩
    rw [Strand.pred, if_neg (by omega)]
    exact vget_replicate 7 (p - 1) 0
  case retire =>
    intro s h t l tk ht hh hover hhalt hend hleft hback hflush hw hlead hl htk
    subst hh
    obtain ⟨hgone, hoth, l', tk', h1, h2, h3, h4⟩ := State.retireNow_frame hhalt hl htk
    exact ⟨_, l', tk', exec_teamRetire ht hover hend hleft hback hflush hw hlead, hgone, hoth, h1, h2, h3, h4⟩
  case fail => exact fun s n l hl hf hne => exec_launchFail_teams hl hf hne
  case gone =>
    intro s n l hl hf hne hc hw
    obtain ⟨s', hex, hls⟩ := exec_launchFail_gone hl hf hne hc hw
    refine ⟨s', hex, ?_, fun m hm => ?_⟩
    · rw [State.launch?, hls]
      exact tget_tdel_same _ _
    · rw [State.launch?, hls]
      exact tget_tdel_other _ _ _ hm
  case aging =>
    intro s core n t i l tk hi hw hp
    exact ⟨_, _, exec_priorityAging hi hw hp, LaunchIs.set, rfl, Launch.boost_boosted_same _ _ _,
      fun c u hcu => Launch.boost_boosted_other _ hcu⟩

end Sys2Proof.Machine
end

section
/-! Proofs about swaps (R65–R67, R359), the saving and restoring of contexts (R403–R406), and the creation and destruction of
contexts (R481–R483). -/

namespace Sys2Proof.Machine

open Sys2Proof

/-! ## A save begins (R65, R298, R337) -/

/-- Nothing but log and requests of cores changed: their swaps are under way as before. -/
def State.SameSwaps (s s' : State) : Prop := ∀ c, (s'.core c).swapFor = (s.core c).swapFor

theorem State.modCore_sameSwaps (s : State) (n : Nat) {f : Core → Core} (hf : ∀ c, (f c).swapFor = c.swapFor) :
    s.SameSwaps (s.modCore n f) := by
  intro c
  by_cases hc : c = n
  · subst hc
    rw [State.modCore, State.core_setCore_same, hf]
  · rw [State.modCore, State.core_setCore_other _ _ _ _ hc]

theorem State.logRelease_sameSwaps (s : State) (t : Team) (a : Nat) : s.SameSwaps (s.logRelease t a) :=
  s.modCore_sameSwaps t.core fun _ => rfl

theorem State.logRelease_fold_frame (s : State) (t : Team) (l : List Nat) :
    ∃ cs, l.foldl (fun s sc => s.logRelease t sc) s = { s with cores := cs } ∧
      s.SameSwaps (l.foldl (fun s sc => s.logRelease t sc) s) := by
  induction l generalizing s with
  | nil => exact ⟨s.cores, rfl, fun _ => rfl⟩
  | cons a r ih =>
    obtain ⟨cs, h, hs⟩ := ih (s.logRelease t a)
    exact ⟨cs, h, fun c => (hs c).trans (s.logRelease_sameSwaps t a c)⟩

/-- The releases logged are gone from the team's list, and stand in its core's log. -/
theorem State.logPerformed_frame {s : State} {h : Nat} {t : Team} (ht : s.team? h = some t) :
    ∃ g ts cs, s.logPerformed h = { s with teams := ts, cores := cs } ∧ tget ts h = some { t with toLog := g } ∧
      (∀ j, j ≠ h → tget ts j = s.team? j) ∧ s.SameSwaps (s.logPerformed h) := by
  unfold State.logPerformed
  simp only [ht]
  split
  · exact ⟨t.toLog, s.teams, s.cores, rfl, ht, fun _ _ => rfl, fun _ => rfl⟩
  · obtain ⟨cs, h1, hs⟩ := (s.setTeam h { t with toLog := [] }).logRelease_fold_frame t t.toLog
    exact ⟨[], _, cs, h1, tget_tput_same _ _ _, fun j hj => tget_tput_other _ _ _ _ hj, hs⟩

/-- The team as it begins to be saved: stopping, with its streams' local stores performed. -/
def Team.saveBegun (t : Team) : Team := (List.range 5).foldl Team.flushSpills { t with saving := true }

/-- A team that is stopping: its registers stand as they did, and its streams, with no local store left to perform (R298). -/
def Team.Stopping (t u : Team) : Prop :=
  u.saving = true ∧ u.regs = t.regs ∧ ∀ k ≤ 4, u.strand k = { t.strand k with spills := [] }

theorem Team.saveBegun_stopping (t : Team) (g : List Nat) : t.Stopping { t.saveBegun with toLog := g } := by
  obtain ⟨wb, ab, cb, sp, d, l, g', ss, hfl, hss⟩ := ({ t with saving := true } : Team).flushAll_frame
  rw [Team.saveBegun, hfl]
  exact ⟨rfl, rfl, hss⟩

/-- The requests that wait for team h at the log of a core stay for its flush (R337). -/
def State.holdFor (s : State) (h : Nat) (c : Core) : Core :=
  { c with requests := c.requests.map fun r => if s.named r = some h then { r with held := true } else r }

theorem State.beginSave_some {s : State} {h : Nat} {t : Team} (ht : s.team? h = some t) :
    s.beginSave h = ((s.setTeam h t.saveBegun).logPerformed h).modCore t.core (s.holdFor h) := by
  unfold State.beginSave State.modTeam
  simp only [ht]
  rfl

theorem State.beginSave_frame {s : State} {h : Nat} {t : Team} (ht : s.team? h = some t) :
    ∃ u ts cs, s.beginSave h = { s with teams := ts, cores := cs } ∧ tget ts h = some u ∧ t.Stopping u ∧
      (∀ j, j ≠ h → tget ts j = s.team? j) ∧ s.SameSwaps (s.beginSave h) := by
  obtain ⟨g, ts, cs, hlog, hteam, hoth, hsw⟩ := State.logPerformed_frame (State.team?_setTeam_same s h t.saveBegun)
  refine ⟨_, ts, (s.beginSave h).cores, ?_, hteam, t.saveBegun_stopping g,
    fun j hj => (hoth j hj).trans (State.team?_setTeam_other _ _ _ _ hj), fun c => ?_⟩
  · rw [State.beginSave_some ht, hlog]
    rfl
  · rw [State.beginSave_some ht]
    exact (State.modCore_sameSwaps _ t.core (f := s.holdFor h) (fun _ => rfl) c).trans (hsw c)

theorem State.beginSave_other (s : State) {g h : Nat} (hg : h ≠ g) : (s.beginSave g).team? h = s.team? h := by
  cases ht : s.team? g with
  | none => simp [State.beginSave, ht]
  | some t =>
    obtain ⟨_, ts, cs, he, -, -, hoth, -⟩ := State.beginSave_frame ht
    rw [he]
    exact hoth h hg

/-- Saving several teams changes teams and cores alone. -/
theorem State.beginSaves_frame (s : State) (hs : List Nat) :
    ∃ ts cs, hs.foldl State.beginSave s = { s with teams := ts, cores := cs } := by
  induction hs generalizing s with
  | nil => exact ⟨s.teams, s.cores, rfl⟩
  | cons g r ih =>
    obtain ⟨ts, cs, h⟩ := ih (s.beginSave g)
    rw [List.foldl_cons, h]
    cases ht : s.team? g with
    | none => exact ⟨ts, cs, by simp [State.beginSave, ht]⟩
    | some t =>
      obtain ⟨_, _, _, he, -⟩ := State.beginSave_frame ht
      exact ⟨ts, cs, by rw [he]⟩

/-- Team h is there, and stopping. -/
def State.isSaving (s : State) (h : Nat) : Prop := ∃ t, s.team? h = some t ∧ t.saving = true

theorem State.beginSave_saving {s : State} {h : Nat} {t : Team} (ht : s.team? h = some t) : (s.beginSave h).isSaving h := by
  obtain ⟨u, ts, cs, he, hteam, ⟨hs, -⟩, -⟩ := State.beginSave_frame ht
  rw [he]
  exact ⟨u, hteam, hs⟩

theorem State.beginSaves_keeps {s : State} {h : Nat} (hs : List Nat) (hh : s.isSaving h) :
    (hs.foldl State.beginSave s).isSaving h := by
  induction hs generalizing s with
  | nil => exact hh
  | cons g r ih =>
    refine ih ?_
    obtain ⟨t, ht, ha⟩ := hh
    by_cases hg : h = g
    · subst hg
      exact State.beginSave_saving ht
    · exact ⟨t, (s.beginSave_other hg).trans ht, ha⟩

theorem State.beginSaves_saving {s : State} {h : Nat} {t : Team} {hs : List Nat} (ht : s.team? h = some t) (hm : h ∈ hs) :
    (hs.foldl State.beginSave s).isSaving h := by
  induction hs generalizing s with
  | nil => cases hm
  | cons g r ih =>
    by_cases hg : h = g
    · subst hg
      exact State.beginSaves_keeps r (State.beginSave_saving ht)
    · exact ih ((s.beginSave_other hg).trans ht) ((List.mem_cons.mp hm).resolve_left hg)

theorem exec_swap_begins {s : State} {h : Nat} {t : Team} (ht : s.team? h = some t) (hs : t.saving = false)
    (hc : s.swapChoice t.core = some h) :
    exec (.swap h) s = .next ((s.modCore t.core fun c => { c with swapFor := s.swapWork t }).beginSave h) := by
  change execSwap h s = _
  unfold execSwap
  simp only [ht, hs, hc, Bool.false_eq_true, if_false, if_true]

/-! ## A team is set aside (R65, R409) -/

/-- The team as it stands in save area i. -/
def Team.aside (t : Team) (c : Context) (i : Nat) : Team :=
  { (((List.range 5).foldl Team.flushSpills t).count 11 (if c.st = .saving then 0 else 1)) with
    place := if c.st = .saving then .saved i else .swapped i, saving := false, requeued := none, failed := 0, flushed := .no,
    feBusy := [], lqs := t.lqs.map fun l => l.map fun (e : LqEntry) => { e with lines := [] } }

/-- A team set aside while its context runs is swapped, its registers, FLAGS and slots as they were. -/
theorem Team.aside_swapped (t : Team) {c : Context} (i : Nat) (hc : c.st = .running) : (t.aside c i).place = .swapped i ∧
    (t.aside c i).saving = false ∧ (t.aside c i).regs = t.regs ∧ (t.aside c i).flags = t.flags ∧
      (t.aside c i).slots = t.slots := by
  obtain ⟨wb, ab, cb, sp, d, l, g, ss, hfl, -⟩ := t.flushAll_frame
  have hns : c.st ≠ .saving := by simp [hc]
  unfold Team.aside
  rw [hfl]
  exact ⟨if_neg hns, rfl, rfl, rfl, rfl⟩

theorem Team.aside_handle (t : Team) (c : Context) (i : Nat) : (t.aside c i).handle = t.handle := by
  obtain ⟨wb, ab, cb, sp, d, l, g, ss, hfl, -⟩ := t.flushAll_frame
  unfold Team.aside
  rw [hfl]
  rfl

/-- The locks that a team's load queues hold end (R301). -/
def State.unlockLoads (s : State) (t : Team) : State :=
  let lines := t.lqs.toList.flatMap fun l => l.flatMap fun (e : LqEntry) => e.lines
  if lines.isEmpty then s else s.modCore t.core fun k => k.unlock lines

theorem State.unlockLoads_teams (s : State) (t : Team) : (s.unlockLoads t).teams = s.teams := by
  unfold State.unlockLoads
  dsimp only
  split <;> rfl

theorem State.setAside_eq (s : State) (t : Team) (c : Context) (i : Nat) : s.setAside t c i =
    ((s.unlockLoads t).setTeam (t.aside c i).handle (t.aside c i)).writeArea (t.aside c i) (c.area i) := rfl

theorem State.writeArea_teams (s : State) (t : Team) (a : Nat) : (s.writeArea t a).teams = s.teams := by
  simp only [State.writeArea]

theorem State.setAside_teams (s : State) (t : Team) (c : Context) (i : Nat) :
    (s.setAside t c i).teams = tput s.teams t.handle (t.aside c i) := by
  rw [State.setAside_eq, State.writeArea_teams, State.setTeam, State.unlockLoads_teams, t.aside_handle]

/-- SWAP of a team that is at rest, with its flush over and an area free, sets it aside. -/
theorem exec_swap_setsAside {s : State} {h i : Nat} {t : Team} {c : Context} (ht : s.team? h = some t)
    (hc : s.ctx? t.ctx = some c) (hs : t.saving = true) (hh : t.halted = false) (hr : t.resident = true)
    (hstop : ∀ k ≤ 4, (t.strand k).mayStop = true) (hq : ∀ q < 3, (t.queue q).prog = none ∧ (t.queue q).chain = none)
    (hf : t.flushed = .done) (ha : s.freeArea t.ctx = some i) : exec (.swap h) s = .next (s.setAside t c i) := by
  have hstops : ((List.range 5).all fun k => (t.strand k).mayStop) = true := by
    rw [List.all_eq_true]
    exact fun k hk => hstop k (Nat.le_of_lt_succ (List.mem_range.mp hk))
  have hleave : ∀ q < 3, (t.queue q).mayLeave (decide (c.st = .saving)) = true := by
    intro q hq3
    obtain ⟨hp, hch⟩ := hq q hq3
    simp [EngQ.mayLeave, hp, hch]
  have hqueues : ([t.q0, t.q1, t.q2].all fun x => x.mayLeave (decide (c.st = .saving))) = true := by
    have h0 := hleave 0 (by omega)
    have h1 := hleave 1 (by omega)
    have h2 := hleave 2 (by omega)
    simp only [Team.queue] at h0 h1 h2
    simp [h0, h1, h2]
  change execSwap h s = _
  unfold execSwap State.saveStep
  simp only [ht, hc, hs, hh, hr, hstops, hqueues, hf, ha, Bool.not_true, Bool.and_self, Bool.or_self, Bool.false_eq_true,
    if_true, if_false, ne_eq, not_true_eq_false]

/-! ## A team comes back (R65, R66) -/

theorem exec_teamRequeue {s : State} {h i : Nat} {t : Team} (ht : s.team? h = some t) (hp : t.place = .swapped i)
    (hq : t.requeued = none) (hh : t.halted = false) (hr : s.teamReady t = true) :
    exec (.teamRequeue h) s = .next (s.setTeam h { t with requeued := some s.cycle }) := by
  change execTeamRequeue h s = _
  unfold execTeamRequeue
  simp only [ht, hp, hq, hh, hr, Option.isNone_none, Bool.not_false, Bool.and_self, if_true]

theorem exec_teamRestore {s : State} {h i slot tiles : Nat} {t : Team} {c : Context} (ht : s.team? h = some t)
    (hc : s.ctx? t.ctx = some c) (ha : t.area? = some i) (hn : s.nextWork t.core = some (.team h))
    (hroom : roomFor (s.teamsOf t.core) t.need = some (slot, tiles))
    (hbad : s.areaBad t (Mem.slice s.hbm (c.area i) areaSize) = false) :
    exec (.teamRestore h) s = .next ((s.modCore t.core fun k => { k with lastBusy := s.cycle }).setTeam h
      ((t.load (Mem.slice s.hbm (c.area i) areaSize)).back slot tiles s.cycle)) := by
  have hbad' : (s.modCore t.core fun k => { k with lastBusy := s.cycle }).areaBad t (Mem.slice s.hbm (c.area i) areaSize) =
    false := hbad
  change execTeamRestore h s = _
  unfold execTeamRestore
  simp only [ht, hc, ha, hn, hroom, decide_true, hbad', Bool.false_eq_true, if_false]
  rfl

/-! ## Context save and restore (R404) -/

theorem State.mem_handlesOf {s : State} {ctx h : Nat} {t : Team} {p : Team → Bool} (ht : s.team? h = some t) (hc : t.ctx = ctx)
    (hp : p t = true) : h ∈ s.handlesOf ctx p :=
  List.mem_filterMap.mpr ⟨(h, t), mem_of_tget ht, by simp [hc, hp]⟩

/-- A command that a context's state does not allow is refused. -/
theorem State.refuseCmd_is {s : State} {ctx : Nat} {c : Context} (hc : s.ctx? ctx = some c) :
    CtxIs s (s.refuseCmd ctx) ctx { c with refused := true } := by
  rw [State.refuseCmd, State.modCtx_some _ hc]
  exact CtxIs.set

theorem exec_contextSave {s : State} {ctx : Nat} {c : Context} (hc : s.ctx? ctx = some c) :
    exec (.contextSave ctx) s = .next
      (if c.st = .running ∧ (s.handlesOf ctx Team.resident).length ≤ (s.freeAreas ctx).length then
        (s.handlesOf ctx Team.resident).foldl State.beginSave (s.setCtx ctx { c with st := .saving })
      else s.refuseCmd ctx) := by
  change execContextSave ctx s = _
  unfold execContextSave
  simp only [hc, Bool.and_eq_true, decide_eq_true_eq]
  split <;> rfl

theorem exec_contextSaveDone {s : State} {ctx : Nat} {c : Context} (hc : s.ctx? ctx = some c) (hs : c.st = .saving)
    (hn : s.handlesOf ctx Team.resident = []) :
    exec (.contextSaveDone ctx) s = .next (s.setCtx ctx { c with st := .saved }) := by
  change execContextSaveDone ctx s = _
  unfold execContextSaveDone
  simp only [hc, hs, hn, ne_eq, not_true_eq_false, if_false, List.foldl_nil, List.isEmpty_nil, if_true, State.modCtx_some _ hc]

/-- Teams are requeued now. -/
def State.requeue (s : State) (h : Nat) : State := s.modTeam h fun t => { t with requeued := some s.cycle }

theorem State.requeue_frame (s : State) (h : Nat) : ∃ ts, s.requeue h = { s with teams := ts } ∧
    ∀ j, tget ts j = if j = h then (s.team? j).map fun t => { t with requeued := some s.cycle } else s.team? j := by
  unfold State.requeue State.modTeam
  split
  · next t ht =>
    refine ⟨_, rfl, fun j => ?_⟩
    split
    · next hj =>
      subst hj
      rw [ht]
      exact tget_tput_same _ _ _
    · next hj => exact tget_tput_other _ _ _ _ hj
  · next hn =>
    refine ⟨s.teams, rfl, fun j => ?_⟩
    split
    · next hj =>
      subst hj
      rw [hn]
      exact hn
    · rfl

theorem State.requeue_fold_frame (s : State) (hs : List Nat) : ∃ ts, hs.foldl State.requeue s = { s with teams := ts } ∧
    ∀ j, tget ts j = if j ∈ hs then (s.team? j).map fun t => { t with requeued := some s.cycle } else s.team? j := by
  induction hs generalizing s with
  | nil => exact ⟨s.teams, rfl, fun _ => rfl⟩
  | cons h r ih =>
    obtain ⟨ts1, h1, ht1⟩ := s.requeue_frame h
    obtain ⟨ts, h2, ht2⟩ := ih (s.requeue h)
    rw [h1] at h2 ht2
    refine ⟨ts, by rw [List.foldl_cons, h1, h2], fun j => (ht2 j).trans ?_⟩
    have hteam : State.team? { s with teams := ts1 } j = tget ts1 j := rfl
    rw [hteam, ht1 j]
    by_cases hj : j = h
    · subst hj
      by_cases hr : j ∈ r <;> simp [hr, Function.comp_def]
    · simp [hj]

theorem exec_contextRestore {s : State} {ctx : Nat} {c : Context} (hc : s.ctx? ctx = some c) (hs : c.st = .saved)
    (hf : c.faults = []) : exec (.contextRestore ctx) s = .next
      (((s.handlesOf ctx Team.isSaved).foldl State.requeue s).modCtx ctx fun c => { c with st := .restoring }) := by
  change execContextRestore ctx s = _
  unfold execContextRestore
  simp only [hc, hs, hf, ne_eq, not_true_eq_false, if_false, ite_self, List.foldl_nil]
  rfl

theorem exec_contextRestore_refused {s : State} {ctx : Nat} {c : Context} (hc : s.ctx? ctx = some c) (hs : c.st ≠ .saved) :
    exec (.contextRestore ctx) s = .next (s.refuseCmd ctx) := by
  change execContextRestore ctx s = _
  unfold execContextRestore
  simp only [hc, hs, ne_eq, not_false_eq_true, if_true]

theorem exec_contextRestoreDone {s : State} {ctx : Nat} {c : Context} (hc : s.ctx? ctx = some c) (hs : c.st = .restoring)
    (hn : s.handlesOf ctx Team.isSaved = []) :
    exec (.contextRestoreDone ctx) s = .next (s.setCtx ctx { c with st := .running }) := by
  change execContextRestoreDone ctx s = _
  unfold execContextRestoreDone
  simp only [hc, hs, hn, decide_true, List.isEmpty_nil, Bool.and_self, if_true]

/-! ## Create and destroy (R481–R483) -/

theorem exec_contextCreate (s : State) (c : Nat) :
    let x := Mem.readN s.hbm (bits s.pkg.ctxtbase.toNat 13 39 * 8192 + 128 * c) 128
    exec (.contextCreate c) s = .next
      (if s.pkg.busy = none ∧ s.ctx? c = none ∧ ctxEntryBad x = false then
        { s with pkg := { s.pkg with busy := some { ctx := c, create := true, entry := x, since := s.cycle } } }
      else { s with pkg := { s.pkg with crefd := true } }) := by
  intro x
  change execContextCreate c s = _
  unfold execContextCreate
  cases hb : s.pkg.busy <;> cases hc : s.ctx? c <;> cases hx : ctxEntryBad x <;> simp [x, hx, State.refuseOp]

theorem State.keepsContext_eq_false {s : State} {c : Nat} {x : Context} (hc : s.ctx? c = some x) : s.keepsContext c = false ↔
    (∀ e ∈ s.launches, e.2.ctx = c → e.2.uncompleted = false) ∧ (∀ e ∈ s.teams, e.2.ctx = c → e.2.area? = none) ∧
      x.st = .running := by
  simp [State.keepsContext, hc, and_assoc]

theorem exec_contextDestroy {s : State} {c : Nat} {x : Context} (hc : s.ctx? c = some x) :
    exec (.contextDestroy c) s = .next
      (if s.pkg.busy = none ∧ (∀ e ∈ s.launches, e.2.ctx = c → e.2.uncompleted = false) ∧
          (∀ e ∈ s.teams, e.2.ctx = c → e.2.area? = none) ∧ x.st = .running
      then { s with pkg := { s.pkg with busy := some { ctx := c, create := false, since := s.cycle } } }
      else { s with pkg := { s.pkg with crefd := true } }) := by
  change execContextDestroy c s = _
  unfold execContextDestroy
  simp only [← State.keepsContext_eq_false hc]
  cases hb : s.pkg.busy <;> cases hk : s.keepsContext c <;> simp [hc, hb, State.refuseOp]

theorem exec_contextOpDone {s : State} {op : CtxOp} (hb : s.pkg.busy = some op) :
    exec .contextOpDone s = .next (if op.create then
      { s with
        pkg := { s.pkg with busy := none }, contexts := tput s.contexts op.ctx (contextOf (s.ctxRegs op.ctx) op.entry),
        parked := tdel s.parked op.ctx, fabric := s.fabric.restart op.ctx }
    else
      { s with
        pkg := { s.pkg with busy := none }, parked := tput s.parked op.ctx (s.ctxRegs op.ctx).blocks,
        contexts := tdel s.contexts op.ctx, redRegions := s.redRegions.filter fun r => r.ctx ≠ op.ctx }) := by
  change execContextOpDone s = _
  unfold execContextOpDone
  simp only [hb]
  split <;> rfl

/-- Settles O49: each event is the one lemma of its case, with what that leaves of teams, cores and contexts. -/
theorem swapAndContextEvents : Obligations.SwapAndContextEvents := by
  unfold Obligations.SwapAndContextEvents
  refine ⟨?begins, ?aside, ?requeue, ?back, ?save, ?saved, ?restore, ?restored, exec_contextCreate,
    fun _ _ _ => exec_contextDestroy, ?done⟩
  case begins =>
    intro s h t ht hs hc
    obtain ⟨u, ts, cs, he, hu, ⟨hsav, hregs, hst⟩, hoth, hsw⟩ := State.beginSave_frame
      (s := s.modCore t.core fun c => { c with swapFor := s.swapWork t }) ht
    refine ⟨_, u, exec_swap_begins ht hs hc, ?_⟩
    rw [hsw t.core, State.modCore, State.core_setCore_same]
    rw [State.modCore] at he
    rw [he]
    exact ⟨hu, hoth, rfl, rfl, hsav, hregs, hst⟩
  case aside =>
    intro s h i t c ht hh hc hr hs hhalt hres hstop hq hf ha
    subst hh
    refine ⟨_, t.aside c i, exec_swap_setsAside ht hc hs hhalt hres hstop hq hf ha, ?_, fun g hg => ?_, t.aside_swapped i hr⟩
    · rw [State.team?, State.setAside_teams]
      exact tget_tput_same _ _ _
    · rw [State.team?, State.setAside_teams]
      exact tget_tput_other _ _ _ _ hg
  case requeue => exact fun s h i t ht hp hq hh hr => ⟨_, exec_teamRequeue ht hp hq hh hr, TeamIs.set⟩
  case back =>
    intro s h i slot tiles t c ht hc ha hn hroom hbad
    exact ⟨_, _, exec_teamRestore ht hc ha hn hroom hbad, State.team?_setTeam_same _ _ _,
      fun g hg => State.team?_setTeam_other _ _ _ _ hg, rfl, rfl, rfl⟩
  case save =>
    intro s ctx c hc
    rw [exec_contextSave hc]
    refine ⟨fun h => ?_, fun hr hlt => ?_, fun hr => ?_⟩
    · obtain ⟨ts, cs, he⟩ := (s.setCtx ctx { c with st := .saving }).beginSaves_frame (s.handlesOf ctx Team.resident)
      refine ⟨_, congrArg _ (if_pos h), ?_⟩
      refine ⟨?_, fun d hd => ?_, ?_, fun h t ht htc hres => ?_⟩
      · rw [he]
        exact tget_tput_same _ _ _
      · rw [he]
        exact tget_tput_other _ _ _ _ hd
      · rw [he]
        rfl
      · exact State.beginSaves_saving (s := s.setCtx ctx { c with st := .saving }) ht (State.mem_handlesOf ht htc hres)
    · exact ⟨_, congrArg _ (if_neg fun h => absurd h.2 (by omega)), State.refuseCmd_is hc⟩
    · exact ⟨_, congrArg _ (if_neg fun h => hr h.1), State.refuseCmd_is hc⟩
  case saved => exact fun s ctx c hc hs hn => ⟨_, exec_contextSaveDone hc hs hn, CtxIs.set⟩
  case restore =>
    intro s ctx c hc
    refine ⟨fun hs hf => ?_, fun hs => ⟨_, exec_contextRestore_refused hc hs, State.refuseCmd_is hc⟩⟩
    obtain ⟨ts, he, hts⟩ := s.requeue_fold_frame (s.handlesOf ctx Team.isSaved)
    refine ⟨_, exec_contextRestore hc hs hf, ?_⟩
    rw [he, State.modCtx_some (s := { s with teams := ts }) _ hc]
    refine ⟨State.ctx?_setCtx_same _ _ _, rfl, fun h t ht htc hsv => ?_⟩
    have hteam : (State.setCtx { s with teams := ts } ctx { c with st := .restoring }).team? h = tget ts h := rfl
    rw [hteam, hts h, if_pos (State.mem_handlesOf ht htc hsv), ht]
    rfl
  case restored => exact fun s ctx c hc hs hn => ⟨_, exec_contextRestoreDone hc hs hn, CtxIs.set⟩
  case done =>
    intro s op hb
    rw [exec_contextOpDone hb]
    cases hcr : op.create
    · simp only [Bool.false_eq_true, if_false]
      exact ⟨_, rfl, rfl, fun d hd => tget_tdel_other _ _ _ hd, rfl, rfl, nofun,
        fun _ => ⟨tget_tdel_same _ _, fun r hr => by simpa using (List.mem_filter.mp hr).2⟩⟩
    · simp only [if_true]
      exact ⟨_, rfl, rfl, fun d hd => tget_tput_other _ _ _ _ hd, rfl, rfl,
        fun _ => ⟨_, tget_tput_same _ _ _, rfl, rfl, rfl, rfl, rfl, rfl, rfl, rfl, rfl, rfl⟩, nofun⟩

end Sys2Proof.Machine
end

section
/-! Proofs about the encoding: every word and command is decoded from its own encoding (R69, R84, R86, R90, R94). -/

namespace Sys2Proof.Machine
open Sys2Proof

/-- Settles O55: the law of each word and each command is that of its format class; an event has no encoding. -/
theorem roundTrip : Obligations.RoundTrip := by
  intro i
  cases i with
  | nop r => exact Sys2Proof.Laws.Roundtrip.nop r
  | add r => exact Sys2Proof.Laws.Roundtrip.add r
  | sub r => exact Sys2Proof.Laws.Roundtrip.sub r
  | adds r => exact Sys2Proof.Laws.Roundtrip.adds r
  | subs r => exact Sys2Proof.Laws.Roundtrip.subs r
  | min r => exact Sys2Proof.Laws.Roundtrip.min r
  | max r => exact Sys2Proof.Laws.Roundtrip.max r
  | abs r => exact Sys2Proof.Laws.Roundtrip.abs r
  | neg r => exact Sys2Proof.Laws.Roundtrip.neg r
  | mul r => exact Sys2Proof.Laws.Roundtrip.mul r
  | mulh r => exact Sys2Proof.Laws.Roundtrip.mulh r
  | div r => exact Sys2Proof.Laws.Roundtrip.div r
  | rem r => exact Sys2Proof.Laws.Roundtrip.rem r
  | mad r => exact Sys2Proof.Laws.Roundtrip.mad r
  | and r => exact Sys2Proof.Laws.Roundtrip.and r
  | or r => exact Sys2Proof.Laws.Roundtrip.or r
  | xor r => exact Sys2Proof.Laws.Roundtrip.xor r
  | andn r => exact Sys2Proof.Laws.Roundtrip.andn r
  | not r => exact Sys2Proof.Laws.Roundtrip.not r
  | shl r => exact Sys2Proof.Laws.Roundtrip.shl r
  | shr r => exact Sys2Proof.Laws.Roundtrip.shr r
  | rotl r => exact Sys2Proof.Laws.Roundtrip.rotl r
  | rotr r => exact Sys2Proof.Laws.Roundtrip.rotr r
  | clz r => exact Sys2Proof.Laws.Roundtrip.clz r
  | ctz r => exact Sys2Proof.Laws.Roundtrip.ctz r
  | popc r => exact Sys2Proof.Laws.Roundtrip.popc r
  | brev r => exact Sys2Proof.Laws.Roundtrip.brev r
  | bswap r => exact Sys2Proof.Laws.Roundtrip.bswap r
  | mov r => exact Sys2Proof.Laws.Roundtrip.mov r
  | sel r => exact Sys2Proof.Laws.Roundtrip.sel r
  | cmpEq r => exact Sys2Proof.Laws.Roundtrip.cmpEq r
  | cmpNe r => exact Sys2Proof.Laws.Roundtrip.cmpNe r
  | cmpLt r => exact Sys2Proof.Laws.Roundtrip.cmpLt r
  | cmpLe r => exact Sys2Proof.Laws.Roundtrip.cmpLe r
  | cmpGt r => exact Sys2Proof.Laws.Roundtrip.cmpGt r
  | cmpGe r => exact Sys2Proof.Laws.Roundtrip.cmpGe r
  | cmpTst r => exact Sys2Proof.Laws.Roundtrip.cmpTst r
  | cmpNtst r => exact Sys2Proof.Laws.Roundtrip.cmpNtst r
  | pand r => exact Sys2Proof.Laws.Roundtrip.pand r
  | por r => exact Sys2Proof.Laws.Roundtrip.por r
  | pxor r => exact Sys2Proof.Laws.Roundtrip.pxor r
  | pandn r => exact Sys2Proof.Laws.Roundtrip.pandn r
  | pnot r => exact Sys2Proof.Laws.Roundtrip.pnot r
  | pmov r => exact Sys2Proof.Laws.Roundtrip.pmov r
  | pgetLo r => exact Sys2Proof.Laws.Roundtrip.pgetLo r
  | pgetHi r => exact Sys2Proof.Laws.Roundtrip.pgetHi r
  | psetLo r => exact Sys2Proof.Laws.Roundtrip.psetLo r
  | psetHi r => exact Sys2Proof.Laws.Roundtrip.psetHi r
  | addi r => exact Sys2Proof.Laws.Roundtrip.addi r
  | andi r => exact Sys2Proof.Laws.Roundtrip.andi r
  | ori r => exact Sys2Proof.Laws.Roundtrip.ori r
  | xori r => exact Sys2Proof.Laws.Roundtrip.xori r
  | shli r => exact Sys2Proof.Laws.Roundtrip.shli r
  | shri r => exact Sys2Proof.Laws.Roundtrip.shri r
  | srai r => exact Sys2Proof.Laws.Roundtrip.srai r
  | movi r => exact Sys2Proof.Laws.Roundtrip.movi r
  | movhi r => exact Sys2Proof.Laws.Roundtrip.movhi r
  | muli r => exact Sys2Proof.Laws.Roundtrip.muli r
  | lea r => exact Sys2Proof.Laws.Roundtrip.lea r
  | leax r => exact Sys2Proof.Laws.Roundtrip.leax r
  | lpc r => exact Sys2Proof.Laws.Roundtrip.lpc r
  | b r => exact Sys2Proof.Laws.Roundtrip.b r
  | beq r => exact Sys2Proof.Laws.Roundtrip.beq r
  | bne r => exact Sys2Proof.Laws.Roundtrip.bne r
  | blt r => exact Sys2Proof.Laws.Roundtrip.blt r
  | ble r => exact Sys2Proof.Laws.Roundtrip.ble r
  | bgt r => exact Sys2Proof.Laws.Roundtrip.bgt r
  | bge r => exact Sys2Proof.Laws.Roundtrip.bge r
  | bp r => exact Sys2Proof.Laws.Roundtrip.bp r
  | bnp r => exact Sys2Proof.Laws.Roundtrip.bnp r
  | call r => exact Sys2Proof.Laws.Roundtrip.call r
  | jr r => exact Sys2Proof.Laws.Roundtrip.jr r
  | callr r => exact Sys2Proof.Laws.Roundtrip.callr r
  | loop r => exact Sys2Proof.Laws.Roundtrip.loop r
  | waitSig r => exact Sys2Proof.Laws.Roundtrip.waitSig r
  | waitTile r => exact Sys2Proof.Laws.Roundtrip.waitTile r
  | waitQ r => exact Sys2Proof.Laws.Roundtrip.waitQ r
  | waitMer r => exact Sys2Proof.Laws.Roundtrip.waitMer r
  | yield r => exact Sys2Proof.Laws.Roundtrip.yield r
  | exit r => exact Sys2Proof.Laws.Roundtrip.exit r
  | crr r => exact Sys2Proof.Laws.Roundtrip.crr r
  | crw r => exact Sys2Proof.Laws.Roundtrip.crw r
  | crs r => exact Sys2Proof.Laws.Roundtrip.crs r
  | crc r => exact Sys2Proof.Laws.Roundtrip.crc r
  | crwi r => exact Sys2Proof.Laws.Roundtrip.crwi r
  | ctrr r => exact Sys2Proof.Laws.Roundtrip.ctrr r
  | tret r => exact Sys2Proof.Laws.Roundtrip.tret r
  | trap r => exact Sys2Proof.Laws.Roundtrip.trap r
  | brk r => exact Sys2Proof.Laws.Roundtrip.brk r
  | vadd r => exact Sys2Proof.Laws.Roundtrip.vadd r
  | vsub r => exact Sys2Proof.Laws.Roundtrip.vsub r
  | vadds r => exact Sys2Proof.Laws.Roundtrip.vadds r
  | vsubs r => exact Sys2Proof.Laws.Roundtrip.vsubs r
  | vmin r => exact Sys2Proof.Laws.Roundtrip.vmin r
  | vmax r => exact Sys2Proof.Laws.Roundtrip.vmax r
  | vabs r => exact Sys2Proof.Laws.Roundtrip.vabs r
  | vneg r => exact Sys2Proof.Laws.Roundtrip.vneg r
  | vmul r => exact Sys2Proof.Laws.Roundtrip.vmul r
  | vmulh r => exact Sys2Proof.Laws.Roundtrip.vmulh r
  | vmad r => exact Sys2Proof.Laws.Roundtrip.vmad r
  | vdp4 r => exact Sys2Proof.Laws.Roundtrip.vdp4 r
  | vand r => exact Sys2Proof.Laws.Roundtrip.vand r
  | vor r => exact Sys2Proof.Laws.Roundtrip.vor r
  | vxor r => exact Sys2Proof.Laws.Roundtrip.vxor r
  | vandn r => exact Sys2Proof.Laws.Roundtrip.vandn r
  | vnot r => exact Sys2Proof.Laws.Roundtrip.vnot r
  | vshl r => exact Sys2Proof.Laws.Roundtrip.vshl r
  | vshr r => exact Sys2Proof.Laws.Roundtrip.vshr r
  | vrotl r => exact Sys2Proof.Laws.Roundtrip.vrotl r
  | vrotr r => exact Sys2Proof.Laws.Roundtrip.vrotr r
  | vclz r => exact Sys2Proof.Laws.Roundtrip.vclz r
  | vctz r => exact Sys2Proof.Laws.Roundtrip.vctz r
  | vpopc r => exact Sys2Proof.Laws.Roundtrip.vpopc r
  | vcmpEq r => exact Sys2Proof.Laws.Roundtrip.vcmpEq r
  | vcmpNe r => exact Sys2Proof.Laws.Roundtrip.vcmpNe r
  | vcmpLt r => exact Sys2Proof.Laws.Roundtrip.vcmpLt r
  | vcmpLe r => exact Sys2Proof.Laws.Roundtrip.vcmpLe r
  | vcmpGt r => exact Sys2Proof.Laws.Roundtrip.vcmpGt r
  | vcmpGe r => exact Sys2Proof.Laws.Roundtrip.vcmpGe r
  | vcmpTst r => exact Sys2Proof.Laws.Roundtrip.vcmpTst r
  | vcmpNtst r => exact Sys2Proof.Laws.Roundtrip.vcmpNtst r
  | vmov r => exact Sys2Proof.Laws.Roundtrip.vmov r
  | vsel r => exact Sys2Proof.Laws.Roundtrip.vsel r
  | vbcast r => exact Sys2Proof.Laws.Roundtrip.vbcast r
  | vins r => exact Sys2Proof.Laws.Roundtrip.vins r
  | vext r => exact Sys2Proof.Laws.Roundtrip.vext r
  | vidx r => exact Sys2Proof.Laws.Roundtrip.vidx r
  | vperm r => exact Sys2Proof.Laws.Roundtrip.vperm r
  | vshx r => exact Sys2Proof.Laws.Roundtrip.vshx r
  | vrot r => exact Sys2Proof.Laws.Roundtrip.vrot r
  | vredAdd r => exact Sys2Proof.Laws.Roundtrip.vredAdd r
  | vredMin r => exact Sys2Proof.Laws.Roundtrip.vredMin r
  | vredMax r => exact Sys2Proof.Laws.Roundtrip.vredMax r
  | vtrit r => exact Sys2Proof.Laws.Roundtrip.vtrit r
  | vtacc r => exact Sys2Proof.Laws.Roundtrip.vtacc r
  | vfadd r => exact Sys2Proof.Laws.Roundtrip.vfadd r
  | vfsub r => exact Sys2Proof.Laws.Roundtrip.vfsub r
  | vfmul r => exact Sys2Proof.Laws.Roundtrip.vfmul r
  | vfma r => exact Sys2Proof.Laws.Roundtrip.vfma r
  | vfnma r => exact Sys2Proof.Laws.Roundtrip.vfnma r
  | vfdiv r => exact Sys2Proof.Laws.Roundtrip.vfdiv r
  | vfsqrt r => exact Sys2Proof.Laws.Roundtrip.vfsqrt r
  | vfmin r => exact Sys2Proof.Laws.Roundtrip.vfmin r
  | vfmax r => exact Sys2Proof.Laws.Roundtrip.vfmax r
  | vfabs r => exact Sys2Proof.Laws.Roundtrip.vfabs r
  | vfneg r => exact Sys2Proof.Laws.Roundtrip.vfneg r
  | vfcmpEq r => exact Sys2Proof.Laws.Roundtrip.vfcmpEq r
  | vfcmpNe r => exact Sys2Proof.Laws.Roundtrip.vfcmpNe r
  | vfcmpLt r => exact Sys2Proof.Laws.Roundtrip.vfcmpLt r
  | vfcmpLe r => exact Sys2Proof.Laws.Roundtrip.vfcmpLe r
  | vfcmpGt r => exact Sys2Proof.Laws.Roundtrip.vfcmpGt r
  | vfcmpGe r => exact Sys2Proof.Laws.Roundtrip.vfcmpGe r
  | vfcmpUn r => exact Sys2Proof.Laws.Roundtrip.vfcmpUn r
  | vfredAdd r => exact Sys2Proof.Laws.Roundtrip.vfredAdd r
  | vfredMin r => exact Sys2Proof.Laws.Roundtrip.vfredMin r
  | vfredMax r => exact Sys2Proof.Laws.Roundtrip.vfredMax r
  | vcvt r => exact Sys2Proof.Laws.Roundtrip.vcvt r
  | vquant r => exact Sys2Proof.Laws.Roundtrip.vquant r
  | vquantStart r => exact Sys2Proof.Laws.Roundtrip.vquantStart r
  | vdequantF32 r => exact Sys2Proof.Laws.Roundtrip.vdequantF32 r
  | vdequantBf16 r => exact Sys2Proof.Laws.Roundtrip.vdequantBf16 r
  | ld r => exact Sys2Proof.Laws.Roundtrip.ld r
  | st r => exact Sys2Proof.Laws.Roundtrip.st r
  | vld r => exact Sys2Proof.Laws.Roundtrip.vld r
  | vst r => exact Sys2Proof.Laws.Roundtrip.vst r
  | ldwF r => exact Sys2Proof.Laws.Roundtrip.ldwF r
  | ldwFe r => exact Sys2Proof.Laws.Roundtrip.ldwFe r
  | vldwF r => exact Sys2Proof.Laws.Roundtrip.vldwF r
  | vldwFe r => exact Sys2Proof.Laws.Roundtrip.vldwFe r
  | stwEf r => exact Sys2Proof.Laws.Roundtrip.stwEf r
  | stwF r => exact Sys2Proof.Laws.Roundtrip.stwF r
  | vstwEf r => exact Sys2Proof.Laws.Roundtrip.vstwEf r
  | vstwF r => exact Sys2Proof.Laws.Roundtrip.vstwF r
  | feEmpty r => exact Sys2Proof.Laws.Roundtrip.feEmpty r
  | feFull r => exact Sys2Proof.Laws.Roundtrip.feFull r
  | feGet r => exact Sys2Proof.Laws.Roundtrip.feGet r
  | qdrop r => exact Sys2Proof.Laws.Roundtrip.qdrop r
  | qlen r => exact Sys2Proof.Laws.Roundtrip.qlen r
  | qwait r => exact Sys2Proof.Laws.Roundtrip.qwait r
  | fetch r => exact Sys2Proof.Laws.Roundtrip.fetch r
  | fetchF r => exact Sys2Proof.Laws.Roundtrip.fetchF r
  | fetchFe r => exact Sys2Proof.Laws.Roundtrip.fetchFe r
  | drain r => exact Sys2Proof.Laws.Roundtrip.drain r
  | drainEf r => exact Sys2Proof.Laws.Roundtrip.drainEf r
  | drainF r => exact Sys2Proof.Laws.Roundtrip.drainF r
  | pref r => exact Sys2Proof.Laws.Roundtrip.pref r
  | amoAdd r => exact Sys2Proof.Laws.Roundtrip.amoAdd r
  | amoAnd r => exact Sys2Proof.Laws.Roundtrip.amoAnd r
  | amoOr r => exact Sys2Proof.Laws.Roundtrip.amoOr r
  | amoXor r => exact Sys2Proof.Laws.Roundtrip.amoXor r
  | amoMinS r => exact Sys2Proof.Laws.Roundtrip.amoMinS r
  | amoMaxS r => exact Sys2Proof.Laws.Roundtrip.amoMaxS r
  | amoMinN r => exact Sys2Proof.Laws.Roundtrip.amoMinN r
  | amoMaxN r => exact Sys2Proof.Laws.Roundtrip.amoMaxN r
  | amoSwap r => exact Sys2Proof.Laws.Roundtrip.amoSwap r
  | amoCas r => exact Sys2Proof.Laws.Roundtrip.amoCas r
  | amoFadd r => exact Sys2Proof.Laws.Roundtrip.amoFadd r
  | amoFmin r => exact Sys2Proof.Laws.Roundtrip.amoFmin r
  | amoFmax r => exact Sys2Proof.Laws.Roundtrip.amoFmax r
  | fence r => exact Sys2Proof.Laws.Roundtrip.fence r
  | fenceRel r => exact Sys2Proof.Laws.Roundtrip.fenceRel r
  | fenceAcq r => exact Sys2Proof.Laws.Roundtrip.fenceAcq r
  | rel r => exact Sys2Proof.Laws.Roundtrip.rel r
  | acq r => exact Sys2Proof.Laws.Roundtrip.acq r
  | acqP r => exact Sys2Proof.Laws.Roundtrip.acqP r
  | barSync r => exact Sys2Proof.Laws.Roundtrip.barSync r
  | barArr r => exact Sys2Proof.Laws.Roundtrip.barArr r
  | barWt r => exact Sys2Proof.Laws.Roundtrip.barWt r
  | enq r => exact Sys2Proof.Laws.Roundtrip.enq r
  | qclr r => exact Sys2Proof.Laws.Roundtrip.qclr r
  | sigGet r => exact Sys2Proof.Laws.Roundtrip.sigGet r
  | sigAdd r => exact Sys2Proof.Laws.Roundtrip.sigAdd r
  | sigSet r => exact Sys2Proof.Laws.Roundtrip.sigSet r
  | sigAddR r => exact Sys2Proof.Laws.Roundtrip.sigAddR r
  | cmdNop c => exact Sys2Proof.Laws.Roundtrip.cmdNop c
  | mm c => exact Sys2Proof.Laws.Roundtrip.mm c
  | mmG c => exact Sys2Proof.Laws.Roundtrip.mmG c
  | cpLd c => exact Sys2Proof.Laws.Roundtrip.cpLd c
  | cpSt c => exact Sys2Proof.Laws.Roundtrip.cpSt c
  | cpMv c => exact Sys2Proof.Laws.Roundtrip.cpMv c
  | cpZero c => exact Sys2Proof.Laws.Roundtrip.cpZero c
  | cpRenc c => exact Sys2Proof.Laws.Roundtrip.cpRenc c
  | cpRed c => exact Sys2Proof.Laws.Roundtrip.cpRed c
  | clAred c => exact Sys2Proof.Laws.Roundtrip.clAred c
  | clRsc c => exact Sys2Proof.Laws.Roundtrip.clRsc c
  | clAgat c => exact Sys2Proof.Laws.Roundtrip.clAgat c
  | clPut c => exact Sys2Proof.Laws.Roundtrip.clPut c
  | clPutq c => exact Sys2Proof.Laws.Roundtrip.clPutq c
  | notify c => exact Sys2Proof.Laws.Roundtrip.notify c
  | qfence c => exact Sys2Proof.Laws.Roundtrip.qfence c
  | chain c => exact Sys2Proof.Laws.Roundtrip.chain c
  | sealRange c => exact Sys2Proof.Laws.Roundtrip.sealRange c
  | _ => exact Sys2Proof.Laws.Roundtrip.of_event rfl rfl

/-- Settles O56: each word is decoded to the instruction with the fields cut from it. -/
theorem sampleWordsDecode : Obligations.SampleWordsDecode :=
  ⟨⟨_, rfl, rfl, rfl, rfl, rfl, rfl, rfl, rfl, rfl, rfl⟩, ⟨_, rfl, rfl, rfl⟩, ⟨_, rfl, rfl⟩, ⟨_, rfl, rfl, rfl⟩,
    ⟨_, rfl, rfl⟩, ⟨_, rfl, rfl, rfl⟩, rfl, rfl, rfl⟩

end Sys2Proof.Machine
end

section
/-! Proofs about the words that only issue, wait or trap (R87, R88, R152–R157, R162–R170). -/

namespace Sys2Proof.Machine
open Sys2Proof

/-! ## The place of a word after its granules have been touched (R42) -/

@[simp] theorem Here.woken_h (x : Here) (u : Uses) : (x.woken u).h = x.h := rfl

@[simp] theorem Here.woken_k (x : Here) (u : Uses) : (x.woken u).k = x.k := rfl

/-- Touching granules changes nothing of the word's place but the granules of its team. -/
theorem Here.woken_frame (x : Here) (u : Uses) : ∃ g, x.woken u = x.withTeam { x.t with grans := g } := by
  obtain ⟨g, hg⟩ := x.t.wake_frame x.s.cycle (x.t.touched u)
  exact ⟨g, by rw [Here.woken, hg]⟩

@[simp] theorem Here.woken_sd (x : Here) (u : Uses) : (x.woken u).sd = x.sd := by
  obtain ⟨g, hg⟩ := x.woken_frame u
  rw [hg]; rfl

@[simp] theorem Here.woken_ctx (x : Here) (u : Uses) : (x.woken u).t.ctx = x.t.ctx := by
  obtain ⟨g, hg⟩ := x.woken_frame u
  rw [hg]; rfl

@[simp] theorem Here.woken_pkg (x : Here) (u : Uses) : (x.woken u).s.pkg = x.s.pkg := rfl

/-! ## Changing the strand of a word that has issued -/

/-- The strand of a word that has issued may be changed once more: all that `IssuedAs` says of the rest still stands. -/
theorem IssuedAs.setStrand {y : Here} {s : State} {d e : Strand} {t : Team} (hi : IssuedAs y s d) (hk : y.k ≤ 4)
    (ht : s.team? y.h = some t) : IssuedAs y (s.setTeam y.h (t.setStrand y.k e)) e := by
  obtain ⟨⟨t', ht', ha⟩, hothers, hrest, hhbm⟩ := hi
  obtain rfl : t' = t := Option.some.inj (ht'.symm.trans ht)
  refine ⟨⟨_, State.team?_setTeam_same _ _ _, ?_⟩, ?_, ?_, hhbm⟩
  · refine ⟨?_, Team.strand_setStrand_same _ _ _ hk, fun j hj hjk => ?_, ha.counted⟩
    · rw [ha.rest]; rfl
    · rw [Team.strand_setStrand_other _ _ _ _ hk hj hjk, ha.others j hj hjk]
  · intro g hg
    rw [State.team?_setTeam_other _ _ _ _ hg, hothers g hg]
  · rw [hrest]; rfl

/-- What a word that issued changed of its strand before it finished shows in its strand alone. -/
theorem Here.finish_setStrand {y : Here} (m : Mods) (d : Strand) (npc : BitVec 64) (hk : y.k ≤ 4) :
    IssuedAs y (y.finish m (y.t.setStrand y.k d) [] npc) (d.after m npc []) := by
  have hi := Here.finish_issued (y := y) m (y.t.setStrand y.k d) [] npc hk
  have hd : ({ y with t := y.t.setStrand y.k d } : Here).sd = d := Team.strand_setStrand_same _ _ _ hk
  unfold HasIssued at hi
  rw [hd] at hi
  obtain ⟨⟨t', ht', ha⟩, hothers, hrest, hhbm⟩ := hi
  refine ⟨⟨t', ht', ?_⟩, hothers, hrest, hhbm⟩
  exact ⟨ha.rest, ha.strand, fun j hj hjk => (ha.others j hj hjk).trans (Team.strand_setStrand_other _ _ _ _ hk hj hjk),
    ha.counted⟩

/-! ## O5 -/

theorem exec_nop (r : RegW) (s : State) :
    exec (.nop r) s = issueWord s r.mods (fun _ => {}) fun y => y.done r.mods y.t [] := rfl

theorem exec_exit (r : WtW) (s : State) :
    exec (.exit r) s = issueWord s r.mods (fun _ => {}) fun y =>
      match (y.done r.mods y.t []).team? y.h with
      | some t => (y.done r.mods y.t []).setTeam y.h (t.setStrand y.k { t.strand y.k with exiting := true, settle := true })
      | none => y.done r.mods y.t [] := rfl

/-- `nop` only issues (R87). -/
theorem nop_issues (x : Here) (r : RegW) (hr : x.Ready r.mods {}) :
    ∃ s', exec (.nop r) x.s = .next s' ∧ HasIssued (x.woken {}) s' r.mods (nextPc x.pc) [] := by
  refine ⟨_, (exec_nop r x.s).trans (issueWord_ready hr rfl), ?_⟩
  rw [← x.woken_pc {}]
  exact Here.done_issued _ _ hr.stream

/-- `exit` issues, and its stream is to stop (R156, R157). -/
theorem exit_issues (x : Here) (r : WtW) (hr : x.Ready r.mods {}) :
    ∃ s', exec (.exit r) x.s = .next s' ∧
      let y := x.woken {}
      IssuedAs y s' { y.sd.after r.mods (nextPc y.pc) [] with exiting := true, settle := true } := by
  refine ⟨_, (exec_exit r x.s).trans (issueWord_ready hr rfl), ?_⟩
  have hi : HasIssued (x.woken {}) ((x.woken {}).done r.mods (x.woken {}).t []) r.mods (nextPc (x.woken {}).pc) [] :=
    Here.done_issued _ _ hr.stream
  obtain ⟨t', ht', ha⟩ := hi.team
  dsimp only
  rw [ht', ← ha.strand]
  exact IssuedAs.setStrand hi hr.stream ht'

/-- Settles O5: each wait is the shared wait with its own condition. -/
theorem nopWaitsAndExit : Obligations.NopWaitsAndExit := by
  refine ⟨nop_issues, ?_, ?_, ?_, ?_, ?_, exit_issues⟩
  · exact waitForm_of fun _ _ => rfl
  · exact waitForm_of fun _ _ => rfl
  · exact waitForm_of fun _ _ => rfl
  · exact waitForm_of fun _ _ => rfl
  · exact waitForm_of fun _ _ => rfl

end Sys2Proof.Machine
end

section
/-! Proofs about traps: the trap words, the return, and a trap that halts its team (R88, R162–R170, R298, R362). -/

namespace Sys2Proof.Machine
open Sys2Proof

/-! ## Halting a team (R169, R298) -/

/-- A halt sets `halted` and performs every local store: what else stands of the team and of its strands. -/
theorem Team.halt_frame (t : Team) : ∃ wb ab cb sp d l g ss,
    t.halt = { t with halted := true, wb := wb, ab := ab, cb := cb, sp := sp, dirty := d, spBusy := l, toLog := g, strands := ss } ∧
    ∀ k ≤ 4, ss.get k = { t.strand k with spills := [] } :=
  ({ t with halted := true } : Team).flushAll_frame

@[simp] theorem Team.halt_accStopped (t : Team) : t.halt.accStopped = t.accStopped := by
  obtain ⟨_, _, _, _, _, _, _, _, h, -⟩ := t.halt_frame
  rw [h]

@[simp] theorem Team.halt_handle (t : Team) : t.halt.handle = t.handle := by
  obtain ⟨_, _, _, _, _, _, _, _, h, -⟩ := t.halt_frame
  rw [h]

@[simp] theorem Team.halt_launch (t : Team) : t.halt.launch = t.launch := by
  obtain ⟨_, _, _, _, _, _, _, _, h, -⟩ := t.halt_frame
  rw [h]

@[simp] theorem Team.halt_task (t : Team) : t.halt.task = t.task := by
  obtain ⟨_, _, _, _, _, _, _, _, h, -⟩ := t.halt_frame
  rw [h]

theorem Team.halt_strand (t : Team) {k : Nat} (hk : k ≤ 4) : t.halt.strand k = { t.strand k with spills := [] } := by
  obtain ⟨_, _, _, _, _, _, _, _, h, hs⟩ := t.halt_frame
  rw [h]
  exact hs k hk

/-! ## A halt fails the launch (R169, R362) -/

/-- The launch of the team that halts first fails with it. -/
theorem State.failLaunch_running {s : State} {t : Team} {l : Launch} (hl : s.launch? t.launch = some l)
    (hf : l.fate = .running) :
    (s.failLaunch t).launch? t.launch = some { l with fate := .failed t.handle t.task t.trapWords } := by
  unfold State.failLaunch
  simp only [hl, hf]
  exact tget_tput_same _ _ _

/-- A team that runs is halted, and its launch fails. -/
theorem State.haltTeam_running {s : State} {h : Nat} {t : Team} (ht : s.team? h = some t) (hh : t.halted = false) :
    s.haltTeam h = (s.setTeam h t.halt).failLaunch t.halt := by
  unfold State.haltTeam
  simp only [ht, hh, Bool.false_eq_true, if_false]

/-- A trap of a handler, or of a team with no trap entry point, halts the team once its trap registers are written (R169). -/
theorem State.takeTrap_halts {s : State} {h k : Nat} {t : Team} {ti : TrapInfo} {pc : BitVec 64} (ht : s.team? h = some t)
    (hd : (t.strand k).inh = true ∨ t.trapEnt = 0) :
    s.takeTrap h k ti pc = ((s.setTeam h (t.setStrand k ((t.strand k).afterTrap t.trapEnt ti pc))).dropReqs h k).haltTeam h := by
  unfold State.takeTrap
  simp only [ht]
  rw [if_pos (by simpa using hd)]
  unfold Strand.trapRegs Strand.afterTrap
  -- kept whole: a comparison of two strands' fields would unfold it down to its numerals
  generalize trapCause ti (t.strand k).inh = c
  rfl

/-! ## O8 -/

theorem exec_trap (r : SysW) (s : State) : exec (.trap r) s =
    issueWord s r.mods (fun _ => {}) fun y => y.trapAfter r.mods { code := 0x0A, info := BitVec.ofNat 64 r.imm.toNat } := rfl

theorem exec_brk (r : SysW) (s : State) : exec (.brk r) s = issueWord s r.mods (fun _ => {}) fun y =>
    if y.s.pkg.dbgmask.getLsbD y.t.ctx then y.done r.mods { y.t with dbg := true } []
    else y.trapAfter r.mods { code := 0x0B, info := BitVec.ofNat 64 r.imm.toNat } := rfl

theorem exec_tret (r : SysW) (s : State) : exec (.tret r) s = issueWord s r.mods (fun _ => {}) fun y =>
    if y.sd.inh then y.finish r.mods (y.t.setStrand y.k y.sd.trapReturn) [] y.sd.trappc else y.trap { code := 0x0D } := rfl

/-- A word that is no instruction traps at its own address (R88). -/
theorem exec_illegalInstruction {x : Here} {w : Word} {reason : BitVec 8} (hc : x.s.cur = .strand x.h x.k)
    (ht : x.s.team? x.h = some x.t) :
    exec (.illegalInstruction w reason) x.s = .next (x.trap { code := 0x01, reason := reason.toNat, info := w }) := by
  change execIllegalInstruction w reason x.s = _
  unfold execIllegalInstruction
  simp only [hc, ht, Here.trap]

/-- A strand's word traps at its PC. -/
theorem Here.trap_strand {x : Here} (hk : x.k < 4) (ht : x.s.team? x.h = some x.t) (ti : TrapInfo) :
    x.trap ti = x.s.takeTrap x.h x.k ti x.pc := by
  simp [Here.trap, State.trapHere, hk, ht, Here.pc, Here.sd]

/-- A word that traps after its issue issues first; the trap then names the next word (R170). -/
theorem Here.woken_trapAfter {x : Here} (h : x.TakesTraps) (u : Uses) (m : Mods) (ti : TrapInfo) :
    ∃ s1 t1, HasIssued (x.woken u) s1 m (nextPc x.pc) [] ∧ s1.team? x.h = some t1 ∧
      TrapTaken ⟨s1, x.h, x.k, t1⟩ ((x.woken u).trapAfter m ti) ti (nextPc x.pc) := by
  rw [← x.woken_pc u]
  exact Here.trapAfter_taken (h.woken u) m ti

/-- `trap` and, outside the debugger, `brk` (R170). -/
theorem trap_brk_take_trap : ∀ e ∈ ([(Instr.trap, 0x0A), (Instr.brk, 0x0B)] : List ((SysW → Instr) × Nat)),
    ∀ (x : Here) (r : SysW), x.Ready r.mods {} → x.TakesTraps → (e.2 = 0x0B → x.s.pkg.dbgmask.getLsbD x.t.ctx = false) →
    ∃ s1 t1 s', exec (e.1 r) x.s = .next s' ∧ HasIssued (x.woken {}) s1 r.mods (nextPc x.pc) [] ∧ s1.team? x.h = some t1 ∧
      TrapTaken ⟨s1, x.h, x.k, t1⟩ s' { code := e.2, info := BitVec.ofNat 64 r.imm.toNat } (nextPc x.pc) := by
  intro e he x r hr ht hdbg
  obtain ⟨s1, t1, hi, ht1, htrap⟩ :=
    x.woken_trapAfter ht {} r.mods { code := e.2, info := BitVec.ofNat 64 r.imm.toNat }
  refine ⟨s1, t1, _, ?_, hi, ht1, htrap⟩
  simp only [List.mem_cons, List.not_mem_nil, or_false] at he
  rcases he with rfl | rfl
  · exact (exec_trap r x.s).trans (issueWord_ready hr rfl)
  · refine (exec_brk r x.s).trans ((issueWord_ready hr rfl).trans ?_)
    rw [Here.woken_pkg, Here.woken_ctx, hdbg rfl]
    rfl

/-- `brk` under the debugger stops the team after the word (R170, R484). -/
theorem brk_stops (x : Here) (r : SysW) (hr : x.Ready r.mods {}) (hdbg : x.s.pkg.dbgmask.getLsbD x.t.ctx = true) :
    ∃ s', exec (.brk r) x.s = .next s' ∧
      let y := x.woken {}
      HasIssued { y with t := { y.t with dbg := true } } s' r.mods (nextPc y.pc) [] := by
  refine ⟨_, (exec_brk r x.s).trans (issueWord_ready hr rfl), ?_⟩
  rw [Here.woken_pkg, Here.woken_ctx, if_pos hdbg]
  exact Here.finish_issued (y := x.woken {}) r.mods _ [] _ hr.stream

/-- `tret` in a handler goes back to TRAPPC with INH clear; outside one it traps (R167). -/
theorem tret_returns_or_traps (x : Here) (r : SysW) (hr : x.Ready r.mods {}) :
    let y := x.woken {}
    (x.sd.inh = true → ∃ s', exec (.tret r) x.s = .next s' ∧
      IssuedAs y s' ({ y.sd with cause := y.sd.cause &&& ~~~(0x40000000 : BitVec 64) }.after r.mods y.sd.trappc [])) ∧
    (x.TakesTraps → ∃ s', exec (.tret r) x.s = .next s' ∧ TrapTaken y s' { code := 0x0D } y.pc) := by
  have e := (exec_tret r x.s).trans (issueWord_ready hr rfl)
  refine ⟨fun hi => ⟨_, e, ?_⟩, fun ht => ⟨_, e, ?_⟩⟩
  · rw [if_pos (by rw [Here.woken_sd]; exact hi)]
    exact Here.finish_setStrand r.mods (x.woken {}).sd.trapReturn _ hr.stream
  · rw [if_neg (by rw [Here.woken_sd, ht.first]; decide)]
    exact Here.trap_taken (ht.woken {}) _

/-- An illegal word in a handler, or with no trap entry point, halts the team and fails its launch (R169). -/
theorem illegal_halts (x : Here) (w : Word) (reason : BitVec 8) (hc : x.s.cur = .strand x.h x.k) (hk : x.k < 4)
    (ht : x.s.team? x.h = some x.t) (hh : x.t.halted = false) (hd : x.sd.inh = true ∨ x.t.trapEnt = 0) :
    ∃ s' t', exec (.illegalInstruction w reason) x.s = .next s' ∧ s'.team? x.h = some t' ∧ t'.halted = true ∧
      (t'.strand x.k).cause = trapCause { code := 0x01, reason := reason.toNat, info := w } x.sd.inh ∧
      (t'.strand x.k).info = w ∧ (t'.strand x.k).trappc = trapPcBits x.pc ∧
      ∀ l, x.s.launch? x.t.launch = some l → l.fate = .running →
        ∃ l' regs, s'.launch? x.t.launch = some l' ∧ l'.fate = .failed x.t.handle x.t.task regs := by
  let ti : TrapInfo := { code := 0x01, reason := reason.toNat, info := w }
  let t1 := x.t.setStrand x.k (x.sd.afterTrap x.t.trapEnt ti x.pc)
  let s1 := (x.s.setTeam x.h t1).dropReqs x.h x.k
  have ht1 : s1.team? x.h = some t1 := State.team?_setTeam_same _ _ _
  have e : x.trap ti = (s1.setTeam x.h t1.halt).failLaunch t1.halt := by
    rw [Here.trap_strand hk ht, State.takeTrap_halts ht hd]
    exact State.haltTeam_running ht1 hh
  have hstrand : t1.strand x.k = x.sd.afterTrap x.t.trapEnt ti x.pc := Team.strand_setStrand_same _ _ _ (by omega)
  have hregs : t1.halt.strand x.k = { x.sd.afterTrap x.t.trapEnt ti x.pc with spills := [] } := by
    rw [t1.halt_strand (by omega), hstrand]
  refine ⟨_, t1.halt, exec_illegalInstruction hc ht, ?_, t1.halt_halted, ?_, ?_, ?_, fun l hl hf => ?_⟩
  · rw [e, State.failLaunch_team, State.team?_setTeam_same]
  · rw [hregs]; rfl
  · rw [hregs]; rfl
  · rw [hregs]; rfl
  · have hlaunch : t1.halt.launch = x.t.launch := t1.halt_launch
    have hf' := State.failLaunch_running (s := s1.setTeam x.h t1.halt) (t := t1.halt) (l := l)
      (by rw [hlaunch]; exact hl) hf
    rw [hlaunch] at hf'
    exact ⟨_, _, by rw [e]; exact hf', by rw [t1.halt_handle, t1.halt_task]; rfl⟩

end Sys2Proof.Machine

namespace Sys2Proof
open Sys2Proof.Machine

/-- Settles O8, word by word. -/
theorem trapWords : Obligations.TrapWords := by
  refine ⟨⟨trap_brk_take_trap, brk_stops, fun x w reason hc ht => ?_⟩, tret_returns_or_traps, illegal_halts⟩
  exact ⟨_, exec_illegalInstruction hc ht.team, Here.trap_taken ht _⟩

end Sys2Proof
end

section
/-! Proofs about the address checks of memory words and the traps that they raise (R169, R204–R206). -/

namespace Sys2Proof.Machine

open Sys2Proof

/-! ## A trap of the access stream (R169) -/

theorem Team.lowest_lt (t : Team) : t.lowest < 4 := by
  unfold Team.lowest
  cases h : t.liveStrands.head? with
  | none => decide
  | some k =>
    have hm := List.mem_of_mem_head? h
    rw [Team.liveStrands, List.mem_filter, List.mem_range] at hm
    exact hm.1

/-- The team in which an access-stream word has trapped, before it halts: the lowest live strand has the trap registers, and
the access stream has stopped. -/
def Team.accessTrapped (t : Team) (ti : TrapInfo) : Team :=
  { (t.setStrand t.lowest ((t.strand t.lowest).trapRegs { ti with src := 1 } t.strands.acc.pc)).setStrand 4
      { t.strands.acc with issued := .trapped ti t.strands.acc.pc, wait := .none } with accStopped := true }

theorem State.accessTrap_eq {s : State} {h : Nat} {t : Team} (ti : TrapInfo) (ht : s.team? h = some t) :
    s.accessTrap h ti = (s.setTeam h (t.accessTrapped ti)).haltTeam h := by
  unfold State.accessTrap
  rw [ht]
  rfl

@[simp] theorem Team.accessTrapped_halted (t : Team) (ti : TrapInfo) : (t.accessTrapped ti).halted = t.halted := by
  simp only [Team.accessTrapped, Team.setStrand_halted]

@[simp] theorem Team.accessTrapped_accStopped (t : Team) (ti : TrapInfo) : (t.accessTrapped ti).accStopped = true := by
  simp only [Team.accessTrapped]

theorem Team.accessTrapped_strand (t : Team) (ti : TrapInfo) : (t.accessTrapped ti).strand t.lowest =
    (t.strand t.lowest).trapRegs { ti with src := 1 } t.strands.acc.pc := by
  have hl := t.lowest_lt
  exact (Team.strand_setStrand_other _ _ _ _ (by omega) (by omega) (by omega)).trans
    (Team.strand_setStrand_same _ _ _ (by omega))

/-- A trapping word traps with its fault: a strand's own trap, or the access stream's, which halts its team. -/
theorem Here.trap_trapsWith (y : Here) (ti : TrapInfo) : y.TrapsWith (y.trap ti) ti := by
  refine ⟨fun ht => Here.trap_taken ht ti, fun hk ht => ?_⟩
  have e : y.trap ti = (y.s.setTeam y.h (y.t.accessTrapped ti)).haltTeam y.h := by
    rw [← State.accessTrap_eq ti ht]
    simp [Here.trap, State.trapHere, hk]
  have ht1 := State.team?_setTeam_same y.s y.h (y.t.accessTrapped ti)
  have hpc : y.t.strands.acc.pc = y.pc := by simp [Here.pc, Here.sd, hk]; rfl
  rw [e]
  unfold State.haltTeam
  simp only [ht1, Team.accessTrapped_halted]
  cases hh : y.t.halted with
  | true =>
    refine ⟨y.t.accessTrapped ti, ?_, ?_, ?_, nofun⟩
    · rw [if_pos rfl, State.failLaunch_team, ht1]
    · rw [Team.accessTrapped_halted, hh]
    · rw [Team.accessTrapped_accStopped]
  | false =>
    have hs : (y.t.accessTrapped ti).halt.strand y.t.lowest =
        { (y.t.strand y.t.lowest).trapRegs { ti with src := 1 } y.pc with spills := [] } := by
      have hl := y.t.lowest_lt
      rw [Team.halt_strand _ (by omega), Team.accessTrapped_strand, hpc]
    refine ⟨(y.t.accessTrapped ti).halt, ?_, Team.halt_halted _, ?_, fun _ => ?_⟩
    · rw [if_neg Bool.false_ne_true, State.failLaunch_team, State.team?_setTeam_same]
    · rw [Team.halt_accStopped, Team.accessTrapped_accStopped]
    · rw [hs]
      exact ⟨rfl, rfl, rfl⟩

/-! ## The checks of an address (R206) -/

/-- The check that an address fails is the one that raises its trap. -/
theorem Here.AddressFault.trap {y : Here} {r : MemW} {ea width align : Nat} {ti : TrapInfo}
    (h : y.AddressFault r ea width align ti) : y.addressTrap r ea width align = some ti := by
  unfold Here.addressTrap
  cases h with
  | noncanonical hs hr hc => simp [hs, hr, hc]
  | misaligned hc ha =>
    have hcanon : (decide (r.space = 0) && !MemW.remote r && !isCanon ea) = false := by
      cases hr : MemW.remote r with
      | true => simp
      | false => by_cases hs : r.space = 0 <;> simp_all
    simp only [hcanon, Bool.false_eq_true, if_false, ha, not_false_eq_true, if_true, ne_eq]
  | outside hs hr ha hw =>
    simp_all

/-- A word whose meaning is to check its address once it may issue, and to trap with what fails, has that form. -/
theorem addressTrapForm_of {c : MemW → Instr} {use : Here → MemW → Uses} {align : MemW → Nat} {ok : Here → MemW → Prop}
    {uses : MemW → Here → Uses} {body : MemW → Here → State}
    (he : ∀ r s, exec (c r) s = issueWord s r.mods (uses r) (body r))
    (hu : ∀ x r, ok (x.woken (use x r)) r → uses r x = use x r)
    (hb : ∀ y r ti, ok y r → y.addressTrap r (y.address r) (deedOf (c r)).width (align r) = some ti → body r y = y.trap ti) :
    AddressTrapForm c use align ok := by
  intro x r ti hr y hok hf
  refine ⟨y.trap ti, ?_, y.trap_trapsWith ti⟩
  rw [he, issueWord_ready hr (hu x r hok), hb y r ti hok hf.trap]

/-- The gate of the word lets it act. -/
def Here.gateOn (y : Here) (r : MemW) : Prop := y.gate0 r.pred r.pn = true

theorem Here.gateOn.of_woken {x : Here} {u : Uses} {r : MemW} (h : (x.woken u).gateOn r) : x.gate0 r.pred r.pn = true :=
  (Here.woken_gate0 _ _).symm.trans h

/-! ## The families of memory words -/

theorem ld_addressTraps : AddressTrapForm .ld
    (fun _ r =>
      let far := decide (r.space ≠ 0) && !MemW.remote r
      gatedUses r [opdW 0 r.d 1 true] (if far then 4 else 0) far none true)
    (fun r => (deedOf (.ld r)).width) Here.gateOn := by
  refine addressTrapForm_of (fun r s => by change execLd r s = _; unfold execLd; exact rfl) (fun x r h => ?_) fun y r ti hg ht => ?_
  · simp only [h.of_woken]
    rfl
  · simp only [show y.gate0 r.pred r.pn = true from hg, ht]
    rfl

theorem st_addressTraps : AddressTrapForm .st
    (fun _ r => gatedUses r [opdB 0 r.d 1 (ones (deedOf (.st r)).width)] 0 false none true)
    (fun r => (deedOf (.st r)).width) Here.gateOn := by
  refine addressTrapForm_of (fun r s => by change execSt r s = _; unfold execSt; exact rfl) (fun x r h => ?_) fun y r ti hg ht => ?_
  · simp only [h.of_woken]
    rfl
  · simp only [show y.gate0 r.pred r.pn = true from hg, ht]
    rfl

theorem vld_addressTraps : AddressTrapForm .vld
    (fun x r =>
      let far := decide (r.space ≠ 0) && !MemW.remote r
      let n := groupRegs r.fn
      let mask := x.byteMask r (128 * n)
      memUses r [⟨0, r.d, n, 0, mask⟩] true (if far then (if n = 1 then 6 else if n = 2 then 7 else 9) else 0)
        (far && decide (mask ≠ 0)) none)
    (fun _ => 8) (fun _ _ => True) := by
  refine addressTrapForm_of (fun r s => by change execVld r s = _; unfold execVld; exact rfl) (fun _ _ _ => rfl)
    fun y r ti _ ht => ?_
  change y.addressTrap r (y.address r) (128 * groupRegs r.fn) 8 = some ti at ht
  simp only [ht]

theorem vst_addressTraps : AddressTrapForm .vst
    (fun x r => memUses r [opdB 0 r.d (groupRegs r.fn) (x.byteMask r (128 * groupRegs r.fn))] true 0 false none)
    (fun _ => 8) (fun _ _ => True) := by
  refine addressTrapForm_of (fun r s => by change execVst r s = _; unfold execVst; exact rfl) (fun _ _ _ => rfl)
    fun y r ti _ ht => ?_
  change y.addressTrap r (y.address r) (128 * groupRegs r.fn) 8 = some ti at ht
  simp only [ht]

/-- A full/empty word, whose D operand is `ds` when its gate is on. -/
theorem fullEmpty_addressTraps {c : MemW → Instr} {scalarD src : Bool} {lat : Nat} {ds : MemW → List Opd} {holds : MemW → Bool}
    (he : ∀ r s, exec (c r) s = fullEmptyWord r s (c r) scalarD src lat)
    (hd : ∀ r, (if src then [opdR 0 r.d 1] else if (deedOf (c r)).len ≠ 0 then [opdW 0 r.d 1 true] else []) = ds r)
    (hh : ∀ r, (!MemW.remote r && decide ((deedOf (c r)).len ≠ 0)) = holds r) :
    AddressTrapForm c (fun _ r => gatedUses r (ds r) lat (holds r) none true) (fun _ => 8) Here.gateOn := by
  refine addressTrapForm_of (fun r s => by rw [he]; unfold fullEmptyWord; exact rfl) (fun x r h => ?_) fun y r ti hg ht => ?_
  · simp only [h.of_woken, hd, ← hh]
    rfl
  · simp only [show y.gate0 r.pred r.pn = true from hg, ht]
    rfl

/-- An atomic. -/
theorem amo_addressTraps {c : MemW → Instr} (he : ∀ r s, exec (c r) s = amoWord r s (c r)) : AddressTrapForm c
    (fun _ r =>
      let d := deedOf (c r)
      gatedUses r [⟨0, r.d, 2, ones d.width <<< 8 ||| (if d.compares then ones d.width else 0), 0xFF⟩] 0 false
        (some r.scope.toNat) true)
    (fun r => (deedOf (c r)).width) Here.gateOn := by
  refine addressTrapForm_of (fun r s => by rw [he]; unfold amoWord; exact rfl) (fun x r h => ?_) fun y r ti hg ht => ?_
  · simp only [h.of_woken]
    rfl
  · simp only [show y.gate0 r.pred r.pn = true from hg, ht]
    rfl

theorem rel_addressTraps : AddressTrapForm .rel
    (fun _ r => memUses r [opdB 0 r.d 1 (ones (deedOf (.rel r)).width)] false 0 false (some r.scope.toNat))
    (fun r => (deedOf (.rel r)).width) (fun _ _ => True) := by
  refine addressTrapForm_of (fun r s => by change execRel r s = _; unfold execRel; exact rfl) (fun _ _ _ => rfl)
    fun y r ti _ ht => ?_
  simp only [ht]

theorem acq_addressTraps : AddressTrapForm .acq
    (fun _ r => memUses r [opdW 0 r.d 1 true] false 0 false (some r.scope.toNat))
    (fun r => (deedOf (.acq r)).width) (fun _ _ => True) := by
  refine addressTrapForm_of (fun r s => by change execAcq r s = _; unfold execAcq; exact rfl) (fun _ _ _ => rfl)
    fun y r ti _ ht => ?_
  simp only [ht]

theorem acqP_addressTraps : AddressTrapForm .acqP
    (fun _ r => memUses r [⟨0, r.d, 2, 0xF00, 0xFF⟩] false 0 false (some r.scope.toNat))
    (fun r => (deedOf (.acqP r)).width) (fun _ _ => True) := by
  refine addressTrapForm_of (fun r s => by change execAcqP r s = _; unfold execAcqP; exact rfl) (fun _ _ _ => rfl)
    fun y r ti _ ht => ?_
  simp only [ht]

theorem fetch_addressTraps : AddressTrapForm .fetch (fun _ r => memUses r [] false 0 false none) (fun _ => 8)
    fun y _ => y.t.drainOnly = false := by
  refine addressTrapForm_of (fun r s => by change execFetch r s = _; unfold execFetch; exact rfl) (fun _ _ _ => rfl)
    fun y r ti hd ht => ?_
  change y.addressTrap r (y.address r) 128 8 = some ti at ht
  simp only [hd, ht]
  rfl

/-- A full/empty `fetch`. -/
theorem fetchFull_addressTraps {c : MemW → Instr} (he : ∀ r s, exec (c r) s = fetchFullWord r s (c r))
    (hw : ∀ r, (deedOf (c r)).width = 128) :
    AddressTrapForm c (fun _ r => memUses r [] false 0 false none) (fun _ => 8) fun y _ => y.t.drainOnly = false := by
  refine addressTrapForm_of (fun r s => by rw [he]; unfold fetchFullWord; exact rfl) (fun _ _ _ => rfl)
    fun y r ti hd ht => ?_
  rw [hw] at ht
  simp only [hd, ht]
  rfl

theorem drain_addressTraps : AddressTrapForm .drain (fun _ r => memUses r [] false 0 false none) (fun _ => 8)
    (fun _ _ => True) := by
  refine addressTrapForm_of (fun r s => by change execDrain r s = _; unfold execDrain; exact rfl) (fun _ _ _ => rfl)
    fun y r ti _ ht => ?_
  change y.addressTrap r (y.address r) 128 8 = some ti at ht
  simp only [ht]

/-- A full/empty `drain`. -/
theorem drainFull_addressTraps {c : MemW → Instr} (he : ∀ r s, exec (c r) s = drainFullWord r s (c r))
    (hw : ∀ r, (deedOf (c r)).width = 128) :
    AddressTrapForm c (fun _ r => memUses r [] false 0 false none) (fun _ => 8) (fun _ _ => True) := by
  refine addressTrapForm_of (fun r s => by rw [he]; unfold drainFullWord; exact rfl) (fun _ _ _ => rfl)
    fun y r ti _ ht => ?_
  rw [hw] at ht
  simp only [ht]

/-- Settles O22: each family's word checks its address first of all that it does after it may issue. -/
theorem addressTraps : Obligations.AddressTraps := by
  refine ⟨ld_addressTraps, st_addressTraps, vld_addressTraps, vst_addressTraps, ?_, ?_, ?_, ?_, rel_addressTraps,
    acq_addressTraps, acqP_addressTraps, ?_, ?_⟩
  · simp only [List.forall_mem_cons, List.not_mem_nil, false_imp_iff, implies_true, and_true]
    refine ⟨?_, ?_, ?_, ?_, ?_⟩ <;>
      exact fullEmpty_addressTraps (fun _ _ => rfl) (fun _ => rfl) fun _ => Bool.and_true _
  · simp only [List.forall_mem_cons, List.not_mem_nil, false_imp_iff, implies_true, and_true]
    refine ⟨?_, ?_, ?_, ?_⟩ <;>
      exact fullEmpty_addressTraps (fun _ _ => rfl) (fun _ => rfl) fun _ => Bool.and_false _
  · simp only [List.forall_mem_cons, List.not_mem_nil, false_imp_iff, implies_true, and_true]
    refine ⟨?_, ?_⟩ <;>
      exact fullEmpty_addressTraps (fun _ _ => rfl) (fun _ => rfl) fun _ => Bool.and_false _
  · simp only [List.forall_mem_cons, List.not_mem_nil, false_imp_iff, implies_true, and_true]
    refine ⟨?_, ?_, ?_, ?_, ?_, ?_, ?_, ?_, ?_, ?_, ?_, ?_, ?_⟩ <;> exact amo_addressTraps fun _ _ => rfl
  · simp only [List.forall_mem_cons, List.not_mem_nil, false_imp_iff, implies_true, and_true]
    exact ⟨fetch_addressTraps, fetchFull_addressTraps (fun _ _ => rfl) fun _ => rfl,
      fetchFull_addressTraps (fun _ _ => rfl) fun _ => rfl⟩
  · simp only [List.forall_mem_cons, List.not_mem_nil, false_imp_iff, implies_true, and_true]
    exact ⟨drain_addressTraps, drainFull_addressTraps (fun _ _ => rfl) fun _ => rfl,
      drainFull_addressTraps (fun _ _ => rfl) fun _ => rfl⟩

end Sys2Proof.Machine
end

section
/-! The refutation of the statement of engine events (O45): its clause of gang banks admits a team table whose keys do not
rise. -/

namespace Sys2Proof.Machine

open Sys2Proof

/-- The only team of core 0, with one bank granted and none joined. -/
def staleTeam : Team := { loadedTeam with banks := 1 }

/-- Its machine: the team table has the team of core 1 in front of it, so that a store of team 0 goes to the front of the table
and leaves the old entry of team 0 at the end. -/
def staleState : State := { State.reset with teams := [(1, { loadedTeam with handle := 65536 }), (0, staleTeam)] }

/-- The banks that have joined for team 0 in an outcome. -/
def joinedOf (o : Out) : Option Nat :=
  match o with
  | .next s => (s.team? 0).map Team.joined
  | _ => none

/-- One bank joins for team 0, which has no need of any: the entry left behind is taken for a team that waits for a bank. -/
theorem bankJoin_staleState : joinedOf (exec (.bankJoin 0) staleState) = some 1 := rfl

/-- Refutes O45: its clause of gang banks does not ask for a team table whose keys rise. In `staleState` the only team of core 0
has no matrix command in progress, so that no bank is granted to it and none has to join; one joins. -/
theorem not_engineEvents : ¬ Obligations.EngineEvents := by
  unfold Obligations.EngineEvents
  rintro ⟨-, -, -, -, ⟨hbanks, -⟩, -⟩
  obtain ⟨s', he, hteam⟩ := hbanks staleState 0 staleTeam rfl rfl
  have hjoined := bankJoin_staleState
  rw [he, joinedOf, show s'.team? 0 = _ from hteam.team] at hjoined
  exact absurd hjoined (by decide)

end Sys2Proof.Machine
end

section
/-! The commands that every queue accepts (O32): what ENGINE_CMD_COMPLETE leaves of a command at its end, the reading and the
start of a chain's commands, the leaf of a sealed page. -/

namespace Sys2Proof.Machine

open Sys2Proof

/-! ## Queues, tiles and signals of a team -/

@[simp] theorem Team.queue_setQueue_same (t : Team) (q : Nat) (x : EngQ) : (t.setQueue q x).queue q = x := by
  match q with
  | 0 => rfl
  | 1 => rfl
  | _ + 2 => rfl

@[simp] theorem Team.setQueue_slotNow (t : Team) (q : Nat) (x : EngQ) : (t.setQueue q x).slotNow = t.slotNow := by
  unfold Team.setQueue; split <;> rfl

@[simp] theorem Team.setQueue_handle (t : Team) (q : Nat) (x : EngQ) : (t.setQueue q x).handle = t.handle := by
  unfold Team.setQueue; split <;> rfl

@[simp] theorem Team.setQueue_place (t : Team) (q : Nat) (x : EngQ) : (t.setQueue q x).place = t.place := by
  unfold Team.setQueue; split <;> rfl

theorem Team.setQueue_core (t : Team) (q : Nat) (x : EngQ) : (t.setQueue q x).core = t.core := by
  simp [Team.core]

@[simp] theorem Team.slotChange_slotNow (t : Team) (c : SlotChange) : (t.slotChange c).slotNow = t.slotNow ++ [c] := rfl

/-- A team that differs from t in its tiles alone. -/
def Team.SameButTiles (t u : Team) : Prop := ∃ l, u = { t with tiles := l }

theorem Team.SameButTiles.refl (t : Team) : t.SameButTiles t := ⟨t.tiles, rfl⟩

theorem Team.SameButTiles.trans {t u v : Team} (h : t.SameButTiles u) (h' : u.SameButTiles v) : t.SameButTiles v := by
  obtain ⟨l, rfl⟩ := h
  obtain ⟨m, rfl⟩ := h'
  exact ⟨m, rfl⟩

theorem Team.SameButTiles.queue {t u : Team} (h : t.SameButTiles u) (q : Nat) : u.queue q = t.queue q := by
  obtain ⟨l, rfl⟩ := h; rfl

theorem Team.SameButTiles.slotNow {t u : Team} (h : t.SameButTiles u) : u.slotNow = t.slotNow := by
  obtain ⟨l, rfl⟩ := h; rfl

theorem Team.SameButTiles.foldl {α : Type} {f : Team → α → Team} (h : ∀ (t : Team) a, t.SameButTiles (f t a)) (l : List α)
    (t : Team) : t.SameButTiles (l.foldl f t) := by
  induction l generalizing t with
  | nil => exact .refl t
  | cons a l ih => exact (h t a).trans (ih _)

theorem Team.setTileState_tiles (t : Team) (n : Nat) (st : TileState) : t.SameButTiles (t.setTileState n st) := by
  unfold Team.setTileState
  split
  · exact ⟨_, rfl⟩
  · exact .refl t

theorem Team.addReader_tiles (t : Team) (n : Nat) (up : Bool) : t.SameButTiles (t.addReader n up) := by
  unfold Team.addReader
  split
  · exact ⟨_, rfl⟩
  · exact .refl t

theorem Team.signalTile_tiles (t : Team) (n : Nat) : t.SameButTiles (t.signalTile n) := by
  unfold Team.signalTile
  split
  · split
    · exact ⟨_, rfl⟩
    · exact .refl t
    · exact ⟨_, rfl⟩
  · exact .refl t

theorem Team.releaseTiles_tiles (t : Team) (p : Prog) (st : TileState) : t.SameButTiles (t.releaseTiles p st) :=
  ((Team.SameButTiles.foldl (fun t n => t.setTileState_tiles n .ready) p.filling t).trans
    (.foldl (fun t n => t.setTileState_tiles n st) p.draining _)).trans (.foldl (fun t n => t.addReader_tiles n false) p.reading _)

theorem Team.takeTiles_tiles (t : Team) (u : TileUse) : t.SameButTiles (t.takeTiles u) := by
  refine ((Team.SameButTiles.foldl (fun t n => ?_) u.reads t).trans
    (.foldl (fun t n => t.setTileState_tiles n .filling) (u.wholes ++ u.accs) _)).trans
    (.foldl (fun t n => ?_) (u.reads ++ u.wholes ++ u.accs) _)
  · split
    · exact t.setTileState_tiles n .draining
    · exact t.addReader_tiles n true
  · split
    · exact ⟨_, rfl⟩
    · exact .refl t

/-- The slot change of a SIGNAL code. -/
def signalAdds (code : Nat) : List SlotChange := if 1 ≤ code ∧ code < 64 then [.add code 1] else []

theorem Team.signal_queue (t : Team) (code q : Nat) : (t.signal code).queue q = t.queue q := by
  unfold Team.signal
  split_ifs
  · rfl
  · rfl
  · exact (t.signalTile_tiles _).queue q
  · rfl

theorem Team.signal_slotNow (t : Team) (code : Nat) : (t.signal code).slotNow = t.slotNow ++ signalAdds code := by
  rcases Nat.eq_zero_or_pos code with rfl | hpos
  · exact (List.append_nil _).symm
  have h0 : code ≠ 0 := Nat.ne_of_gt hpos
  by_cases h1 : code < 64
  · simp [Team.signal, signalAdds, h0, h1, Nat.one_le_iff_ne_zero]
  · unfold Team.signal
    simp only [signalAdds, h0, h1, and_false, if_false, List.append_nil]
    split
    · exact (t.signalTile_tiles _).slotNow
    · rfl

/-! ## Completion (R247, R273, R275) -/

/-- The team after the completion of its queue q's command p, which has no follow-on. -/
def Team.completed (t : Team) (q : Nat) (p : Prog) : Team :=
  let x := (t.queue q).advance p.cmd
  ((((t.releaseTiles p .empty).raise (flagBits p.flags)).setQueue q x.1).signal p.cmd.signal.toNat).signal (x.2.getD 0)

theorem Team.completed_queue (t : Team) (q : Nat) (p : Prog) : (t.completed q p).queue q = ((t.queue q).advance p.cmd).1 := by
  simp [Team.completed, Team.signal_queue]

theorem Team.completed_slotNow (t : Team) (q : Nat) (p : Prog) : (t.completed q p).slotNow =
    t.slotNow ++ signalAdds p.cmd.signal.toNat ++ signalAdds (((t.queue q).advance p.cmd).2.getD 0) := by
  simp [Team.completed, Team.signal_slotNow, (t.releaseTiles_tiles p .empty).slotNow]

theorem State.addNoise_team? (s : State) (ctx : Nat) (n : Option (Nat × Nat)) (h : Nat) :
    (s.addNoise ctx n).team? h = s.team? h := by
  unfold State.addNoise
  split
  · rfl
  · obtain ⟨cs, e⟩ := s.modCtx_frame ctx _
    rw [e]; rfl

/-- ENGINE_CMD_COMPLETE of a command at its end, without a follow-on. -/
theorem exec_engineCmdComplete {s : State} {h q : Nat} {t : Team} {p : Prog} (ht : s.team? h = some t)
    (hp : (t.queue q).prog = some p) (hend : s.atEnd t q p = true) (hfo : hasFollowOn p.cmd = false) :
    ∃ s', exec (.engineCmdComplete h q) s = .next s' ∧ s'.team? h = some (t.completed q p) := by
  have hq : ((t.releaseTiles p .empty).raise (flagBits p.flags)).queue q = t.queue q := (t.releaseTiles_tiles p .empty).queue q
  refine ⟨(s.setTeam h (t.completed q p)).addNoise ?_ p.noise, ?_,
    (State.addNoise_team? ..).trans (State.team?_setTeam_same ..)⟩
  case refine_2 =>
    change execEngineCmdComplete h q s = _
    unfold execEngineCmdComplete
    simp only [ht, hp, hend, hfo, Bool.not_true, Bool.false_eq_true, if_false, hq]
    rfl

/-- The queue without its command c, closed by a final `notify` (R273). -/
def EngQ.ended (x : EngQ) (c : Cmd) : EngQ := { x with prog := none, closed := x.closed || (c.cmd = 0xF0 && flag c 0) }

/-- The completion of a command of a chain that goes on. -/
theorem EngQ.advance_chain {x : EngQ} {ch : Chain} (c : Cmd) (hx : x.chain = some ch) (hl : 1 < ch.left) :
    x.advance c = ({ x.ended c with
      chain := some { left := ch.left - 1, addr := ch.addr + 8 * (c.len.toNat + 1), index := ch.index + 1 } }, none) := by
  simp [EngQ.advance, EngQ.ended, hx, Nat.not_le.mpr hl]

/-- The completion of a chain's last command ends the chain. -/
theorem EngQ.advance_chainEnd {x : EngQ} {ch : Chain} (c : Cmd) (hx : x.chain = some ch) (hl : ch.left ≤ 1) :
    x.advance c = ({ x.ended c with chain := none, cmds := x.cmds.drop 1 }, x.cmds.head?.map fun e => e.cmd.signal.toNat) := by
  simp [EngQ.advance, EngQ.ended, hx, hl]

theorem EngQ.advance_head {x : EngQ} (c : Cmd) (hx : x.chain = none) :
    x.advance c = ({ x.ended c with cmds := x.cmds.drop 1 }, none) := by
  simp [EngQ.advance, EngQ.ended, hx]

/-- The completion of a command of a chain (R275): a command before the last leaves the head in its place, the last one ends
`chain` itself and gives its SIGNAL. -/
theorem chain_completes {s : State} {h q : Nat} {t : Team} {p : Prog} {x : QCmd} {l : List QCmd} {ch : Chain}
    (ht : s.team? h = some t) (hp : (t.queue q).prog = some p) (hend : s.atEnd t q p = true) (hfo : hasFollowOn p.cmd = false)
    (hl : (t.queue q).cmds = x :: l) (hch : (t.queue q).chain = some ch) (hsig : p.cmd.signal = 0) :
    ∃ s' t', exec (.engineCmdComplete h q) s = .next s' ∧ s'.team? h = some t' ∧ (t'.queue q).prog = none ∧
      (ch.left ≤ 1 → (t'.queue q).chain = none ∧ (t'.queue q).cmds = l ∧
        t'.slotNow = t.slotNow ++ signalAdds x.cmd.signal.toNat) ∧
      (1 < ch.left → (t'.queue q).cmds = x :: l ∧ t'.slotNow = t.slotNow ∧ (t'.queue q).chain =
        some { left := ch.left - 1, addr := ch.addr + 8 * (p.cmd.len.toNat + 1), index := ch.index + 1 }) := by
  obtain ⟨s', he, ht'⟩ := exec_engineCmdComplete ht hp hend hfo
  have hno : signalAdds p.cmd.signal.toNat = [] := by rw [hsig]; rfl
  refine ⟨s', _, he, ht', ?_⟩
  rw [Team.completed_queue, Team.completed_slotNow, hno, List.append_nil]
  rcases Nat.lt_or_ge 1 ch.left with hlt | hle
  · rw [EngQ.advance_chain _ hch hlt]
    exact ⟨rfl, fun h => absurd hlt (Nat.not_lt.mpr h), fun _ => ⟨hl, List.append_nil _, rfl⟩⟩
  · rw [EngQ.advance_chainEnd _ hch hle]
    exact ⟨rfl, fun _ => ⟨rfl, by simp [hl], by simp [hl]⟩, fun h => absurd hle (Nat.not_le.mpr h)⟩

/-! ## The commands that end at once (R94, R272–R274) -/

/-- With nothing of it left to be sent, a command whose effect is performed posts nothing. -/
theorem drainOut_of_performed {b s : State} {h q : Nat} {t : Team} {p : Prog} {f : Prog → Prog} (he : Effect b s h q t f)
    (hp : (t.queue q).prog = some p) (hout : (f p).out = []) : s.drainOut h q = s := by
  unfold State.drainOut State.eng?
  simp [he.team, hp, hout]

/-- A command that is no `seal` has its writes performed when no write of its team's queues is in its core's path. -/
theorem State.written_of_path {s : State} {t : Team} {q : Nat} {p : Prog} (hq : q < 3) (hseal : p.cmd.cmd ≠ 0xF3)
    (hpath : ∀ w ∈ (s.core t.core).path, w.h = t.handle → w.k < 5 ∨ 8 ≤ w.k) : s.written t q p = true := by
  unfold State.written
  dsimp only
  split
  · simp only [List.all_eq_true, Bool.or_eq_true, decide_eq_true_eq]
    intro w hw
    have hk := hpath w hw
    tauto
  · simp only [hseal, decide_false, Bool.false_and, Bool.not_false, Bool.and_true, List.all_eq_true, Bool.or_eq_true,
      decide_eq_true_eq]
    intro w hw
    have hk := hpath w hw
    by_cases hh : w.h = t.handle
    · exact .inr (by have := hk hh; omega)
    · exact .inl hh

/-- The codes of `nop`, `notify` and `qfence`. -/
def endsAtOnce : List (BitVec 8) := [0x00, 0xF0, 0xF1]

/-- A performed command with nothing left, which is no copy, reducing copy or `seal`, is at its end. -/
theorem State.atEnd_of_written {s : State} {t : Team} {q : Nat} {p : Prog}
    (hcode : p.cmd.cmd ∈ endsAtOnce) (hphase : p.phase = .performed)
    (hleft : p.out = [] ∧ p.reds = [] ∧ p.asked = [] ∧ p.awaits = 0 ∧ p.work = 0) (hfix : (t.queue q).fixups = [])
    (hw : s.written t q p = true) : s.atEnd t q p = true ∧ hasFollowOn p.cmd = false := by
  obtain ⟨hout, hreds, hasked, hawaits, hwork⟩ := hleft
  have hfo : hasFollowOn p.cmd = false := by
    unfold hasFollowOn
    simp only [endsAtOnce, List.mem_cons, List.not_mem_nil, or_false] at hcode
    rcases hcode with h | h | h <;> simp [h]
  have hred : p.cmd.cmd ≠ 6#8 := by
    rintro h
    rw [h] at hcode
    exact absurd hcode (by decide)
  exact ⟨by simp [State.atEnd, hphase, hwork, hout, hreds, hasked, hawaits, hred, hfix, hw, hfo], hfo⟩

/-- The command in progress of an engine once its effect is performed, waiting for the writes below u. -/
def Eng.progAfter (e : Eng) (u : Nat) : Prog := { e.p with upto := u, phase := .performed, fetched := [] }

/-- The team of an engine once that is its command in progress. -/
def Eng.teamAfter (e : Eng) (u : Nat) : Team := e.t.setQueue e.q { e.t.queue e.q with prog := some (e.progAfter u) }

theorem Eng.queue_teamAfter (e : Eng) (u : Nat) :
    (e.teamAfter u).queue e.q = { e.t.queue e.q with prog := some (e.progAfter u) } := Team.queue_setQueue_same ..

theorem Effect.teamAfter {e : Eng} {k : Cmd} {b s' : State} {f : Prog → Prog} {u : Nat} (he : Effect b s' e.h e.q e.t f)
    (hk : e.Performs k) (hf : f e.p = { e.p with upto := u }) : s'.team? e.h = some (e.teamAfter u) := by
  have hp : (e.t.queue e.q).prog = some e.p := hk.queue ▸ hk.prog
  rw [he.team, hp]
  simp only [Option.map_some, hf]
  rfl

/-- A command with nothing left, performed while no write of its team's queues is in its core's path, is at its end. -/
theorem Eng.Clear.atEnd {e : Eng} {k : Cmd} {code : BitVec 8} {s' : State} (hc : e.Clear k code) (hk : e.Performs k)
    (hcode : code ∈ endsAtOnce) (u : Nat) (hpath : ∀ w ∈ (s'.core e.t.core).path, w.h = e.h → w.k < 5 ∨ 8 ≤ w.k) :
    s'.atEnd (e.teamAfter u) e.q (e.progAfter u) = true ∧ hasFollowOn (e.progAfter u).cmd = false := by
  obtain ⟨hq, hhandle, -, hfix⟩ := hc.queue
  obtain ⟨hout, hreds, hasked, hawaits, hwork, -⟩ := hc.left
  have hmem : (e.progAfter u).cmd.cmd ∈ endsAtOnce := by
    rw [show (e.progAfter u).cmd = k from hk.cmd, hc.code]
    exact hcode
  refine State.atEnd_of_written hmem rfl ⟨hout, hreds, hasked, hawaits, hwork⟩ ?_ (State.written_of_path hq ?_ ?_)
  · rw [Eng.queue_teamAfter]
    exact hk.queue ▸ hfix
  · intro hseal
    rw [hseal] at hmem
    exact absurd hmem (by decide)
  · rw [Eng.teamAfter, Team.setQueue_core, Team.setQueue_handle, hhandle]
    exact hpath

/-- Such a command completes next: it leaves its queue and its SIGNAL takes effect. -/
theorem Eng.Clear.ends {e : Eng} {k : Cmd} {code : BitVec 8} {b s' : State} {f : Prog → Prog} {u : Nat} (hc : e.Clear k code)
    (hk : e.Performs k) (hcode : code ∈ endsAtOnce) (he : Effect b s' e.h e.q e.t f)
    (hf : f e.p = { e.p with upto := u }) (hpath : ∀ w ∈ (b.core e.t.core).path, w.h = e.h → w.k < 5 ∨ 8 ≤ w.k) :
    e.Ends k s' := by
  have hcore : s'.core e.t.core = b.core e.t.core := by rw [he.rest]; rfl
  obtain ⟨hend, hfo⟩ := hc.atEnd hk hcode u (s' := s') (by rw [hcore]; exact hpath)
  obtain ⟨s2, hexec, hs2⟩ := exec_engineCmdComplete (he.teamAfter hk hf) (by rw [Eng.queue_teamAfter]) hend hfo
  obtain ⟨-, -, hchain, -⟩ := hc.queue
  rw [hk.queue] at hchain
  refine ⟨s2, _, hexec, hs2, ?_⟩
  rw [Team.completed_queue, Team.completed_slotNow, Eng.queue_teamAfter, EngQ.advance_head _ (by exact hchain),
    show (e.progAfter u).cmd = k from hk.cmd, hk.queue]
  exact ⟨rfl, rfl, rfl, by simp [Eng.teamAfter, signalAdds]⟩

/-- A command that is performed at once, with nothing left to be sent, completes next. -/
theorem Eng.Clear.performed {e : Eng} {k : Cmd} {code : BitVec 8} {b : State} {f : Prog → Prog} {u : Nat} (hc : e.Clear k code)
    (hk : e.Performs k) (hcode : code ∈ endsAtOnce) (hb : b.teams = e.s.teams)
    (hf : f e.p = { e.p with upto := u }) (hpath : ∀ w ∈ (b.core e.t.core).path, w.h = e.h → w.k < 5 ∨ 8 ≤ w.k) :
    (e.performed b f).drainOut e.h e.q = e.performed b f ∧ Effect b (e.performed b f) e.h e.q e.t f ∧
      e.Ends k (e.performed b f) := by
  have hteam : b.team? e.h = some e.t := by rw [State.team?, hb]; exact hk.team
  have he : Effect b (e.performed b f) e.h e.q e.t f := Eng.performed_effect hteam (fun _ _ => rfl) rfl
  obtain ⟨hout, -⟩ := hc.left
  exact ⟨drainOut_of_performed he (hk.queue ▸ hk.prog) (by rw [hf]; exact hout), he, hc.ends hk hcode he hf hpath⟩

/-- `nop` and `notify`. -/
theorem performs_at_once {e : Eng} {k : Cmd} {code : BitVec 8} {c : Cmd → Instr} (hk : e.Performs k) (hc : e.Clear k code)
    (hcode : code ∈ endsAtOnce)
    (hexec : exec (c k) e.s = engineWord e.s k (fun e => e.performed e.s id) fun e => e.s) :
    ∃ s', exec (c k) e.s = .next s' ∧ Effect e.s s' e.h e.q e.t (fun p => p) ∧ e.Ends k s' := by
  obtain ⟨hdrain, heff, hends⟩ := hc.performed (f := id) hk hcode rfl rfl hc.path
  exact ⟨_, by rw [hexec, engineWord_plain hk, hdrain], heff, hends⟩

/-! ## `qfence` (R274) -/

theorem State.tagPath_nextNum (s : State) (core : Nat) : ((s.tagPath core).2.core core).nextNum = (s.core core).nextNum := by
  change ((State.setCore _ core _).core core).nextNum = _
  rw [State.core_setCore_same]
  rfl

/-- A tagged event leaves each write of its core's path its source. -/
theorem State.tagPath_path (s : State) (core : Nat) {w : Posted} (hw : w ∈ ((s.tagPath core).2.core core).path) :
    ∃ v ∈ (s.core core).path, w.h = v.h ∧ w.k = v.k := by
  have hmem : w ∈ ((State.setCore (s.newTag core).2 core _).core core).path := hw
  rw [State.core_setCore_same] at hmem
  obtain ⟨v, hv, rfl⟩ := List.mem_map.mp hmem
  refine ⟨v, hv, ?_⟩
  split <;> exact ⟨rfl, rfl⟩

/-- The machine after a release has the teams of the machine before it, the number of the core's next write, and the sources
of the path's writes. -/
theorem Eng.released_frame (e : Eng) (sc : Nat) : (e.released sc).teams = e.s.teams ∧
    ((e.released sc).core e.t.core).nextNum = (e.s.core e.t.core).nextNum ∧
    ∀ w ∈ ((e.released sc).core e.t.core).path, ∃ v ∈ (e.s.core e.t.core).path, w.h = v.h ∧ w.k = v.k := by
  unfold Eng.released
  split
  · exact ⟨rfl, e.s.tagPath_nextNum _, fun w hw => e.s.tagPath_path _ hw⟩
  · exact ⟨rfl, rfl, fun w hw => ⟨w, hw, rfl, rfl⟩⟩

/-- A release that need not wait goes on with the machine after it. -/
theorem Eng.releaseAt_of_may {e : Eng} {sc : Nat} (h : e.MayRelease sc) (k : State → State) :
    e.releaseAt sc (fun _ s => k s) = k (e.released sc) := by
  unfold Eng.releaseAt Eng.released
  split
  case isTrue hw => rw [if_pos (h hw)]
  case isFalse => rfl

theorem qfence_performs {e : Eng} {k : Cmd} (hk : e.Performs k) (hc : e.Clear k 0xF1) (hr : e.MayRelease (cmdScope k)) :
    ∃ s', exec (.qfence k) e.s = .next s' ∧
      Effect (e.released (cmdScope k)) s' e.h e.q e.t (fun p => { p with upto := (e.s.core e.t.core).nextNum }) ∧ e.Ends k s' := by
  obtain ⟨hteams, hnum, hpath⟩ := e.released_frame (cmdScope k)
  obtain ⟨hdrain, heff, hends⟩ := hc.performed (b := e.released (cmdScope k))
    (f := fun p => { p with upto := (e.s.core e.t.core).nextNum }) hk (by decide) hteams rfl
    (fun w hw hh => by
      obtain ⟨v, hv, h1, h2⟩ := hpath w hw
      rw [h2]
      exact hc.path v hv (h1 ▸ hh))
  refine ⟨_, ?_, heff, hends⟩
  change execQfence k e.s = _
  rw [execQfence, engineWord_plain hk, Eng.releaseAt_of_may hr
    (fun s => e.performed s fun p => { p with upto := (s.core e.t.core).nextNum }), hnum, hdrain]

/-! ## `chain` (R275) -/

/-- The chain of the `chain` command c. -/
def chainOf (c : Cmd) : Chain := { left := fld c 0 16, addr := bits c.w1.toNat 0 56, index := 0 }

theorem State.modTeam_some {s : State} {h : Nat} {t : Team} (f : Team → Team) (ht : s.team? h = some t) :
    s.modTeam h f = s.setTeam h (f t) := by
  simp [State.modTeam, ht]

theorem State.modQueue_some {s : State} {h q : Nat} {t : Team} (f : EngQ → EngQ) (ht : s.team? h = some t) :
    s.modQueue h q f = s.setTeam h (t.setQueue q (f (t.queue q))) := State.modTeam_some _ ht

/-- A queue with no command in progress posts nothing. -/
theorem State.drainOut_idle {s : State} {h q : Nat} {t : Team} (ht : s.team? h = some t) (hp : (t.queue q).prog = none) :
    s.drainOut h q = s := by
  simp [State.drainOut, State.eng?, ht, hp]

theorem chain_performs {e : Eng} {c : Cmd} (hk : e.Performs c) :
    exec (.chain c) e.s =
      .next (e.s.setTeam e.h (e.t.setQueue e.q { e.t.queue e.q with prog := none, chain := some (chainOf c) })) := by
  change execChain c e.s = _
  rw [execChain, engineWord_plain hk, State.modQueue_some _ hk.team]
  congr 1
  exact State.drainOut_idle (State.team?_setTeam_same ..) (by rw [Team.queue_setQueue_same])

/-! ### Its first command is read -/

theorem State.addTraffic_teams (s : State) (die i n : Nat) : (s.addTraffic die i n).teams = s.teams := by
  unfold State.addTraffic
  dsimp only
  split <;> rfl

theorem State.ringHop_teams (s : State) (d n : Nat) (up : Bool) : (s.ringHop d n up).teams = s.teams := by
  unfold State.ringHop
  split <;> simp [State.addTraffic_teams]

theorem State.ring_teams (s : State) (src dst n : Nat) : (s.ring src dst n).teams = s.teams := by
  unfold State.ring
  split <;> simp [State.ringHop_teams]

theorem State.missCount_teams (s : State) (n : Nat) : (s.missCount n).1.teams = s.teams := by
  induction n generalizing s with
  | zero => rfl
  | succ n ih => exact (ih s.choose.2).trans rfl

theorem State.noteBytes_team {s : State} {h : Nat} {t : Team} (die home bytes lines : Nat) (write : Bool)
    (ht : s.team? h = some t) : ∃ c, (s.noteBytes h die home bytes lines write).team? h = some { t with ctrs := c } := by
  have hmiss : (s.missCount lines).1.team? h = some t := by rw [State.team?, State.missCount_teams]; exact ht
  unfold State.noteBytes
  simp only [State.modTeam_some _ hmiss]
  unfold State.team?
  split_ifs <;> simp only [State.ring_teams, State.addTraffic_teams] <;> exact ⟨_, tget_tput_same _ _ _⟩

/-- Counting an access changes the team's counters alone. -/
theorem State.noteAccess_team {s : State} {h : Nat} {t : Team} (pa n mask : Nat) (write : Bool) (ht : s.team? h = some t) :
    ∃ c, (s.noteAccess h pa n mask write).team? h = some { t with ctrs := c } := by
  unfold State.noteAccess
  simp only [ht]
  exact State.noteBytes_team _ _ _ _ _ ht

/-- The chain with a word of its current command. -/
def Chain.gotFirst (x : Chain) (v : Nat) : Chain := { x with got := [{ va := canon x.addr, len := 8, data := v }] }

theorem Chain.word?_nil {x : Chain} (hx : x.got = []) (i : Nat) : x.word? i = none := by simp [Chain.word?, hx]

theorem Chain.word?_gotFirst (x : Chain) (v : Nat) : (x.gotFirst v).word? 0 = some v := by
  simp [Chain.word?, Chain.gotFirst]

theorem Chain.needed_nil {x : Chain} (hx : x.got = []) : x.needed = [0] := by simp [Chain.needed, Chain.word?_nil hx]

/-- A command of LEN 0 has no further word. -/
theorem Chain.needed_gotFirst (x : Chain) {v : Nat} (hv : bits v 38 2 = 0) : (x.gotFirst v).needed = [0] := by
  simp [Chain.needed, Chain.word?_gotFirst, hv, List.range_succ]

/-- The read of the first word at a local frame. -/
theorem State.chainWord_frame {s s1 : State} {h q pa : Nat} {t : Team} {ch : Chain} (ht : s.team? h = some t)
    (hch : (t.queue q).chain = some ch) (hgot : ch.got = []) (hasked : ch.asked = []) (hserial : (t.queue q).serial = none)
    (hres : s.resolve t.ctx (dieOf t.core) (s.aperturesOf t) (canon ch.addr) 8 .read
      { src := 2, handle := h, qseq := qseqOf q (t.queue q).headSeq } = (.ok (.frame pa) 8, s1))
    (ht1 : s1.team? h = some t) (hbad : s1.lineBad pa 8 = false) :
    ∃ t', (s.chainWord h q 0).team? h = some t' ∧ (t'.queue q).chain = some (ch.gotFirst (s1.readAt t.core pa 8)) := by
  obtain ⟨c, hc⟩ := State.noteAccess_team (s := s1) pa 8 (ones 8) false ht1
  have hval : s.chainWord h q 0 = (s1.noteAccess h pa 8 (ones 8) false).modChain h q fun x =>
      { x with got := x.got ++ [{ va := canon ch.addr, len := 8, data := s1.readAt t.core pa 8 }] } := by
    unfold State.chainWord
    simp [ht, hch, hserial, hasked, Chain.word?_nil hgot, hres, hbad]
  rw [hval, State.modChain, State.modQueue_some _ hc]
  refine ⟨_, State.team?_setTeam_same .., ?_⟩
  rw [Team.queue_setQueue_same]
  change (((t.queue q).chain).map _) = _
  simp [hch, hgot, Chain.gotFirst]

/-- A command of LEN 0 whose words are there is the command to start. -/
theorem State.readChain_len0 {s : State} {h q v : Nat} {t t' : Team} {ch : Chain} (ht : s.team? h = some t)
    (hch : (t.queue q).chain = some ch) (hgot : ch.got = []) (hv : bits v 38 2 = 0)
    (ht' : (s.chainWord h q 0).team? h = some t') (hch' : (t'.queue q).chain = some (ch.gotFirst v)) :
    ∃ t2, (s.readChain h q).team? h = some t2 ∧ (t2.queue q).chain =
      some { ch.gotFirst v with cur := some (Cmd.ofWords (BitVec.ofNat 64 v) 0 0 0), asked := [] } := by
  have hrange : List.range 4 = [0, 1, 2, 3] := rfl
  unfold State.readChain
  simp only [hrange, List.foldl_cons, List.foldl_nil, ht, ht', Option.bind_some, hch, hch', Chain.needed_nil hgot,
    Chain.needed_gotFirst ch hv, List.contains_cons, List.contains_nil, Nat.reduceBEq, Bool.or_false, if_true, Bool.false_eq_true,
    if_false]
  rw [State.modChain, State.modQueue_some _ ht']
  refine ⟨_, State.team?_setTeam_same .., ?_⟩
  rw [Team.queue_setQueue_same]
  change ((t'.queue q).chain).map _ = _
  simp [hch', Chain.needed_gotFirst ch hv, Chain.word?_gotFirst]

/-- The next start at a chain reads the first of its commands. -/
theorem chainStart_reads {s s1 : State} {h q pa : Nat} {t : Team} {x : QCmd} {l : List QCmd} {ch : Chain}
    (ht : s.team? h = some t) (hmay : t.mayStart q = true) (hl : (t.queue q).cmds = x :: l)
    (hch : (t.queue q).chain = some ch) (hcur : ch.cur = none) (hgot : ch.got = []) (hasked : ch.asked = [])
    (hrefused : (t.queue q).refused = false) (hserial : (t.queue q).serial = none)
    (hres : s.resolve t.ctx (dieOf t.core) (s.aperturesOf t) (canon ch.addr) 8 .read
      { src := 2, handle := h, qseq := qseqOf q (t.queue q).headSeq } = (.ok (.frame pa) 8, s1))
    (ht1 : s1.team? h = some t) (hbad : s1.lineBad pa 8 = false) (hv : bits (s1.readAt t.core pa 8) 38 2 = 0) :
    ∃ s' t', exec (.engineCmdStart h q) s = .next s' ∧ s'.team? h = some t' ∧
      (t'.queue q).chain = some { ch with
        got := [{ va := canon ch.addr, len := 8, data := s1.readAt t.core pa 8 }],
        cur := some (Cmd.ofWords (BitVec.ofNat 64 (s1.readAt t.core pa 8)) 0 0 0) } := by
  obtain ⟨t', ht', hch'⟩ := State.chainWord_frame ht hch hgot hasked hserial hres ht1 hbad
  obtain ⟨t2, ht2, hch2⟩ := State.readChain_len0 ht hch hgot hv ht' hch'
  refine ⟨_, t2, ?_, ht2, ?_⟩
  · change execEngineCmdStart h q s = _
    unfold execEngineCmdStart
    simp [ht, hl, hmay, hch, hcur, hrefused]
  · rw [hch2, ← hasked]
    rfl

/-! ### It starts (R95, R96, R245) -/

theorem Team.takeWait_queue (t : Team) (c : Cmd) (q : Nat) : (t.takeWait c).queue q = t.queue q := by
  unfold Team.takeWait
  dsimp only
  split <;> rfl

/-- A command that starts is in progress at its first stage; its queue's commands and chain stay. -/
theorem Team.begin_queue (t : Team) (q : Nat) (c : Cmd) (fetched : List Seg) :
    ∃ p, ((t.begin q c fetched).queue q).prog = some p ∧ p.cmd = c ∧ p.phase = .started ∧
      ((t.begin q c fetched).queue q).chain = (t.queue q).chain ∧ ((t.begin q c fetched).queue q).cmds = (t.queue q).cmds := by
  have htaken : (if (t.queue q).waited then t else t.takeWait c).queue q = t.queue q := by
    split
    · rfl
    · exact t.takeWait_queue c q
  unfold Team.begin
  simp only [Team.queue_setQueue_same, (Team.takeTiles_tiles _ _).queue, htaken]
  exact ⟨_, rfl, rfl, rfl, trivial, trivial⟩

/-- A command other than `mm.blk` that passes its checks is admitted. -/
theorem State.admitCommand_ok {s : State} {h q : Nat} {t : Team} {c : Cmd}
    (hok : leastFault (namedFaults t c ++ s.startFaults t c) = none) (hc : c.cmd ≠ 0x21) :
    s.admitCommand h q t c = s.setTeam h (t.begin q c []) := by
  unfold State.admitCommand
  simp only [hc, decide_false, Bool.false_and, whenBad, Bool.false_eq_true, if_false, List.append_nil, hok]

/-- The start of a chain's command that is no `chain`, when its checks pass, its wait and its fence hold and its tiles are
free. -/
theorem chainStart_starts {s : State} {h q : Nat} {t : Team} {x : QCmd} {l : List QCmd} {ch : Chain} {c : Cmd}
    (ht : s.team? h = some t) (hmay : t.mayStart q = true) (hl : (t.queue q).cmds = x :: l)
    (hch : (t.queue q).chain = some ch) (hcur : ch.cur = some c)
    (hhead : (t.queue q).checked = false → leastFault (s.headFaults t q c) = none) (hnest : c.cmd ≠ 0xF2) {t1 : Team}
    (ht1 : t1 = t.setQueue q { t.queue q with checked := true }) (hwait : (t.queue q).waited = false → t1.waitHolds x c = true)
    (hfence : t1.fenceHolds x c = true) (htiles : t1.tilesFree (tileUse c) = true)
    (hok : leastFault (namedFaults t1 c ++ (s.setTeam h t1).startFaults t1 c) = none) (hc : c.cmd ≠ 0x21) :
    ∃ s' t' p, exec (.engineCmdStart h q) s = .next s' ∧ TeamIs s s' h t' ∧ (t'.queue q).prog = some p ∧ p.cmd = c ∧
      p.phase = .started ∧ (t'.queue q).chain = some ch ∧ (t'.queue q).cmds = x :: l := by
  have hq1 : t1.queue q = { t.queue q with checked := true } := by rw [ht1, Team.queue_setQueue_same]
  have hchecks : (if (t.queue q).checked then none else leastFault (s.headFaults t q c ++ [])) = none := by
    split
    case isTrue => rfl
    case isFalse hn => rw [List.append_nil]; exact hhead (Bool.eq_false_iff.mpr hn)
  have hwaits : (!(t1.queue q).waited && !t1.waitHolds x c) = false := by
    rw [hq1]
    cases hw : (t.queue q).waited
    · simp [hwait hw]
    · rfl
  have hstart : exec (.engineCmdStart h q) s = .next ((s.setTeam h t1).setTeam h (t1.begin q c [])) := by
    change execEngineCmdStart h q s = _
    unfold execEngineCmdStart
    simp only [ht, hl, List.head?_cons, hmay, hch, hcur, Bool.not_true, Bool.false_eq_true, if_false]
    unfold State.startCommand
    simp only [hnest, whenBad, decide_false, Bool.false_eq_true, if_false, hchecks, ← ht1, hwaits, hfence, Bool.not_true,
      htiles, Bool.or_true, if_true, State.admitCommand_ok hok hc]
  obtain ⟨p, hp, hcmd, hphase, hchain, hcmds⟩ := t1.begin_queue q c []
  exact ⟨_, _, p, hstart, TeamIs.set_set, hp, hcmd, hphase, by rw [hchain, hq1]; exact hch, by rw [hcmds, hq1]; exact hl⟩

/-! ## `seal` (R276, R314) -/

/-- Byte i of a number read from memory. -/
theorem Mem.byte_readN (m : Mem) (a : Nat) {n i : Nat} (hi : i < n) :
    BitVec.ofNat 8 (Mem.readN m a n >>> (8 * i)) = Mem.get m (a + i) := by
  induction n generalizing a i with
  | zero => omega
  | succ n ih =>
    rw [Mem.readN]
    have hb : (Mem.get m a).toNat < 256 := (Mem.get m a).isLt
    match i with
    | 0 =>
      apply BitVec.eq_of_toNat_eq
      simp only [Nat.mul_zero, Nat.shiftRight_zero, BitVec.toNat_ofNat, Nat.add_zero]
      omega
    | i + 1 =>
      rw [Nat.mul_add, Nat.mul_one, Nat.add_comm (8 * i), Nat.shiftRight_add,
        show ((Mem.get m a).toNat + 256 * Mem.readN m (a + 1) n) >>> 8 = Mem.readN m (a + 1) n by
          rw [Nat.shiftRight_eq_div_pow]; omega, ih (a + 1) (Nat.lt_of_succ_lt_succ hi)]
      congr 1
      omega

/-- Setting bit 4 of an 8-byte number in memory changes its first byte alone. -/
theorem Mem.get_setSeal {m : Mem} (a b : Nat) (hm : m.wf = true) :
    Mem.get (Mem.write m a (Mem.readN m a 8 ||| 16) 8) b = if b = a then Mem.get m b ||| 16 else Mem.get m b := by
  rw [Mem.get_write _ _ _ _ hm]
  by_cases hb : a ≤ b ∧ b < a + 8
  · obtain ⟨i, rfl⟩ := Nat.exists_eq_add_of_le hb.1
    have hi : i < 8 := by omega
    rw [if_pos hb, Nat.add_sub_cancel_left, Nat.shiftRight_or_distrib, BitVec.ofNat_or, Mem.byte_readN m a hi]
    match i with
    | 0 => simp
    | i + 1 =>
      have hz : 16 >>> (8 * (i + 1)) = 0 := by
        rw [Nat.mul_add, Nat.mul_one, Nat.add_comm, Nat.shiftRight_add]
        exact Nat.zero_shiftRight _
      rw [hz, if_neg (by omega)]
      simp
  · rw [if_neg hb, if_neg (by omega)]

/-- The pages of a `seal` command's range. -/
def sealPages (c : Cmd) : List Nat := (List.range (c.w2.toNat / 4096)).map fun i => bits c.w1.toNat 0 56 + 4096 * i

/-- The machine with the views and the other pages of a `seal` command's range sealed. -/
def Eng.sealed (e : Eng) (c : Cmd) : State :=
  ((sealPages c).flatMap (viewsOf e.aps)).eraseDups.foldl e.sealAperture
    (((sealPages c).filter fun va => (viewsOf e.aps va).isEmpty).foldl (fun s va => s.sealPage e.t.ctx va) e.s)

/-- A page of the range that may not be sealed stops the queue. -/
theorem sealRange_stops {e : Eng} {c : Cmd} {i : Nat} (hk : e.Performs c)
    (hi : ((sealPages c).findIdx? fun va => !e.s.sealable e.t va) = some i) :
    exec (.sealRange c) e.s = .next ((e.s.stopQueue e.h e.q 0x38 0 i none).drainOut e.h e.q) := by
  rw [sealPages] at hi
  change execSealRange c e.s = _
  rw [execSealRange, engineWord_plain hk]
  simp only [hi]

/-- A range whose pages may all be sealed is sealed. -/
theorem sealRange_seals {e : Eng} {c : Cmd} (hk : e.Performs c)
    (hall : (sealPages c).all (fun va => e.s.sealable e.t va) = true) :
    exec (.sealRange c) e.s = .next ((e.performed (e.sealed c) id).drainOut e.h e.q) := by
  have hnone : ((sealPages c).findIdx? fun va => !e.s.sealable e.t va) = none := by
    rw [List.findIdx?_eq_none_iff]
    intro va hva
    rw [List.all_eq_true.mp hall va hva]
    rfl
  rw [sealPages] at hnone
  change execSealRange c e.s = _
  rw [execSealRange, engineWord_plain hk]
  simp only [hnone]
  rfl

/-- Sealing a page that one leaf maps sets SEAL there; beyond memory only contexts change. -/
theorem State.sealPage_leaf {s : State} {ctx va level a : Nat} (hleaf : s.pteAt ctx va = some (level, a))
    (hcont : level = 0 → pteCont (Mem.readN s.hbm a 8) = false) :
    ∃ cs, s.sealPage ctx va = { s with hbm := Mem.write s.hbm a (Mem.readN s.hbm a 8 ||| 16) 8, contexts := cs } := by
  have hone : (decide (level = 0) && pteCont (Mem.readN s.hbm a 8)) = false := by
    by_cases h : level = 0
    · simp [hcont h]
    · simp [h]
  unfold State.sealPage
  simp only [hleaf, hone, Bool.false_eq_true, if_false, List.foldl_cons, List.foldl_nil]
  exact State.modCtx_frame _ _ _

/-- A `seal` of one page, which one leaf maps and no view holds a part of, sets SEAL in that leaf. -/
theorem sealRange_leaf {e : Eng} {c : Cmd} {level a : Nat} (hk : e.Performs c) (hlen : c.w2 = 4096)
    (hmay : e.s.sealable e.t (bits c.w1.toNat 0 56) = true) (hviews : viewsOf e.aps (bits c.w1.toNat 0 56) = [])
    (hout : e.p.out = []) (hleaf : e.s.pteAt e.t.ctx (bits c.w1.toNat 0 56) = some (level, a))
    (hcont : level = 0 → pteCont (Mem.readN e.s.hbm a 8) = false) (hm : e.s.hbm.wf = true) :
    ∃ s', exec (.sealRange c) e.s = .next s' ∧
      ∀ b, Mem.get s'.hbm b = if b = a then Mem.get e.s.hbm b ||| 16 else Mem.get e.s.hbm b := by
  have hpages : sealPages c = [bits c.w1.toNat 0 56] := by rw [sealPages, hlen]; rfl
  obtain ⟨cs, hseal⟩ := State.sealPage_leaf hleaf hcont
  have hsealed : e.sealed c =
      { e.s with hbm := Mem.write e.s.hbm a (Mem.readN e.s.hbm a 8 ||| 16) 8, contexts := cs } := by
    rw [Eng.sealed, hpages, ← hseal]
    simp [hviews]
  have heff : Effect (e.sealed c) (e.performed (e.sealed c) id) e.h e.q e.t id :=
    Eng.performed_effect (by rw [hsealed]; exact hk.team) (fun _ _ => rfl) rfl
  refine ⟨e.performed (e.sealed c) id, ?_, fun b => ?_⟩
  · rw [sealRange_seals hk (by simp [hpages, hmay]), drainOut_of_performed heff (hk.queue ▸ hk.prog) hout]
  · rw [heff.rest, hsealed]
    exact Mem.get_setSeal a b hm

/-- Settles O32: each command performs its own effect; what nothing is left of completes next; a chain is read, starts its
commands and ends; a seal is all or nothing. -/
theorem queueCommands : Obligations.QueueCommands := by
  unfold Obligations.QueueCommands
  refine ⟨?_, fun e k hk hc hr => qfence_performs hk hc hr, ⟨?_, ?_, ?_, ?_⟩, fun e c hk => ⟨?_, ?_, ?_⟩⟩
  · simp only [List.forall_mem_cons, List.not_mem_nil, false_imp_iff, implies_true, and_true]
    exact ⟨fun e k hk hc => performs_at_once hk hc (by decide) rfl, fun e k hk hc => performs_at_once hk hc (by decide) rfl⟩
  · intro e c hk
    exact ⟨_, chain_performs hk, TeamIs.set.team, TeamIs.set.others, TeamIs.set.rest⟩
  · intro s s1 h q pa n t x l ch _ ht hmay hl hch hcur hgot hasked hrefused hserial hres ht1 hn hbad hv
    subst hn
    exact chainStart_reads ht hmay hl hch hcur hgot hasked hrefused hserial hres ht1 hbad hv
  · intro s h q t x l ch c _ ht hmay hl hch hcur hhead hnest t1 s1 hwait hfence htiles hok hc
    exact chainStart_starts ht hmay hl hch hcur hhead hnest rfl hwait hfence htiles hok hc
  · intro s h q t p x l ch _ ht hp hend hfo hl hch hsig
    exact chain_completes ht hp hend hfo hl hch hsig
  · exact fun hall => sealRange_seals hk hall
  · exact fun i hi => sealRange_stops hk hi
  · exact fun level a hlen hmay hviews hout hleaf hcont hm => sealRange_leaf hk hlen hmay hviews hout hleaf hcont hm

end Sys2Proof.Machine
end

section
/-! Proofs about scalar words: integer register forms, comparisons, forms of predicates, immediate forms, branches and jumps
(R70, R137–R151). -/

namespace Sys2Proof.Machine

open Sys2Proof

/-! ## Integer register forms (R137–R142) -/

/-- Saturation to a type clamps to its range and sets ISAT outside it (R106). -/
theorem satInt_eq (sg : Bool) (w : Nat) (i : Int) : satInt sg w i =
    (ofSigned w (max (typeMin sg w) (min (typeMax sg w) i)), if typeMin sg w ≤ i ∧ i ≤ typeMax sg w then 0 else fISAT) := by
  have hrange : typeMin sg w ≤ typeMax sg w := by
    have h1 : (0 : Int) < 2 ^ (w - 1) := by positivity
    have h2 : (0 : Int) < 2 ^ w := by positivity
    cases sg <;> simp only [typeMin, typeMax, Bool.false_eq_true, if_false, if_true] <;> omega
  change (if i < typeMin sg w then (ofSigned w (typeMin sg w), fISAT)
    else if typeMax sg w < i then (ofSigned w (typeMax sg w), fISAT) else (ofSigned w i, 0)) = _
  split_ifs with hlow hhigh hin hin
  · omega
  · rw [max_eq_left (by omega)]
  · omega
  · rw [min_eq_left (by omega), max_eq_right hrange]
  · rw [min_eq_right (by omega), max_eq_right (by omega)]
  · omega

/-- A typed word whose result agrees with `g` once it is wrapped to the width has that form (R138). -/
theorem typedForm_of {c : RegW → Instr} {n lat : Nat} {f g : Nat → Bool → Int → Int → Int → Int × Nat}
    (h : ∀ r s, exec (c r) s = typedWord r s n lat f)
    (hval : ∀ w sg a b c, ofSigned w (f w sg a b c).1 = ofSigned w (g w sg a b c).1)
    (hfl : ∀ w sg a b c, (f w sg a b c).2 = (g w sg a b c).2) : ScalarForm c n lat (typedResult g) := by
  refine scalarForm_of fun r s => (h r s).trans ?_
  unfold typedWord
  congr 1
  funext a b c
  simp only [typedResult, hval, hfl]

/-- A typed word whose result is `g`'s has that form. -/
theorem typedForm_congr {c : RegW → Instr} {n lat : Nat} {f g : Nat → Bool → Int → Int → Int → Int × Nat}
    (h : ∀ r s, exec (c r) s = typedWord r s n lat f) (hfg : ∀ w sg a b c, f w sg a b c = g w sg a b c) :
    ScalarForm c n lat (typedResult g) :=
  typedForm_of h (fun w sg a b c => by rw [hfg w sg a b c]) fun w sg a b c => by rw [hfg w sg a b c]

/-- A word on patterns whose result agrees with `g` has that form (R141). -/
theorem patternForm_of {c : RegW → Instr} {n : Nat} {f g : RegW → Nat → Nat → Nat → Nat}
    (h : ∀ r s, exec (c r) s = patternWord r s n (f r)) (hfg : ∀ r w a b, f r w a b = g r w a b) :
    ScalarForm c n 2 (patternResult g) := by
  obtain rfl : f = g := by
    funext r w a b
    exact hfg r w a b
  exact scalarForm_of h

theorem ofSigned_satInt (sg : Bool) (w : Nat) (i : Int) :
    ofSigned w ((satInt sg w i).1 : Int) = ofSigned w (max (typeMin sg w) (min (typeMax sg w) i)) := by
  rw [satInt_eq, ofSigned_idem]

theorem satFlags_eq (sg : Bool) (w : Nat) (i : Int) :
    satFlags sg w i = if typeMin sg w ≤ i ∧ i ≤ typeMax sg w then 0 else fISAT := by
  rw [satFlags, satInt_eq]

theorem shlPat_eq (w a b : Nat) : shlPat w a b = a * 2 ^ (b % w) % 2 ^ w := by
  rw [shlPat, Nat.shiftLeft_eq]

theorem shrPat_eq (sg : Bool) (w a b : Nat) :
    shrPat sg w a b = if sg then ofSigned w (toSigned w a / (2 : Int) ^ (b % w)) else a / 2 ^ (b % w) := by
  rw [shrPat, Nat.shiftRight_eq_div_pow]

/-- `sel` writes A or B by its predicate, which never gates it (R139, R141). -/
theorem sel_issues (x : Here) (r : RegW) :
    let u : Uses :=
      { opds := [opdW 0 r.d 1 true, opdR 1 r.a 1, opdR 2 r.b 1], predR := gateReads r.pred, lat := 2, holds := true }
    x.Ready r.mods u →
    ∃ s', exec (.sel r) x.s = .next s' ∧
      let y := x.woken u
      HasIssued y s' r.mods (nextPc y.pc)
        [y.flyScalar r.d 2 (if y.gate0 r.pred r.pn then (y.t.scalar r.a).toNat else (y.t.scalar r.b).toNat) 0] := by
  intro u hr
  refine ⟨_, ?_, Here.done_issued (y := x.woken u) _ _ hr.stream⟩
  change execSel r x.s = _
  rw [← apply_ite BitVec.toNat]
  exact issueWord_ready hr rfl

/-- Settles O1: each form is its shared shape; what is left is the clamp, the sign of 0 − A, the remainder and the shifts. -/
theorem scalarRegisterForms : Obligations.ScalarRegisterForms := by
  unfold Obligations.ScalarRegisterForms
  refine ⟨⟨?_, ?_, ?adds, ?subs, ?min, ?max, ?abs, ?neg, ?_, ?_, ?div, ?rem, ?_⟩, ⟨?_, ?_, ?_, ?_, ?_, ?_⟩,
    sel_issues, ⟨?shl, ?shr, ?_, ?_, ?_, ?_, ?_, ?_, ?_⟩⟩
  case adds =>
    exact typedForm_of (f := fun w sg a b _ => ((satInt sg w (a + b)).1, satFlags sg w (a + b))) (fun _ _ => rfl)
      (fun _ _ _ _ _ => ofSigned_satInt _ _ _) fun _ _ _ _ _ => satFlags_eq _ _ _
  case subs =>
    exact typedForm_of (f := fun w sg a b _ => ((satInt sg w (a - b)).1, satFlags sg w (a - b))) (fun _ _ => rfl)
      (fun _ _ _ _ _ => ofSigned_satInt _ _ _) fun _ _ _ _ _ => satFlags_eq _ _ _
  case min => exact typedForm_congr (f := fun _ _ a b _ => (min a b, 0)) (fun _ _ => rfl) fun _ _ _ _ _ => by rw [Int.min_def]
  case max => exact typedForm_congr (f := fun _ _ a b _ => (max a b, 0)) (fun _ _ => rfl) fun _ _ _ _ _ => by rw [Int.max_def]
  case abs =>
    exact typedForm_congr (f := fun _ _ a _ _ => (if a < 0 then -a else a, 0)) (fun _ _ => rfl) fun _ _ a _ _ => by
      split_ifs with ha
      · rw [abs_of_neg ha]
      · rw [abs_of_nonneg (not_lt.1 ha)]
  case neg => exact typedForm_congr (f := fun _ _ a _ _ => (-a, 0)) (fun _ _ => rfl) fun _ _ _ _ _ => by rw [Int.zero_sub]
  case div =>
    exact typedForm_congr (f := fun _ _ a b _ => (if b = 0 then 0 else Int.tdiv a b, divFlags b)) (fun _ _ => rfl)
      fun _ _ _ _ _ => by unfold divFlags; split_ifs <;> rfl
  case rem =>
    exact typedForm_congr (f := fun _ _ a b _ => (if b = 0 then a else a - b * Int.tdiv a b, divFlags b)) (fun _ _ => rfl)
      fun _ _ _ _ _ => by rw [← Int.tmod_def]; unfold divFlags; split_ifs <;> rfl
  case shl => exact patternForm_of (f := fun _ => shlPat) (fun _ _ => rfl) fun _ => shlPat_eq
  case shr =>
    exact patternForm_of (f := fun r => shrPat (typeSigned r.ty)) (fun _ _ => rfl) fun r => shrPat_eq (typeSigned r.ty)
  all_goals exact scalarForm_of fun _ _ => rfl

/-! ## Comparisons and forms of predicates (R143–R145) -/

/-- A word that moves half of a predicate to a scalar. -/
theorem pget_issues {c : RegW → Instr} {lo : Nat} (h : ∀ r s, exec (c r) s = pgetWord r s lo) (x : Here) (r : RegW) :
    let u : Uses :=
      { opds := [opdW 0 r.d 1 (x.gate0 r.pred r.pn)], predR := gateReads r.pred ++ [r.a.toNat], lat := 2,
        holds := x.gate0 r.pred r.pn, off := !x.gate0 r.pred r.pn }
    x.Ready r.mods u →
    ∃ s', exec (c r) x.s = .next s' ∧
      let y := x.woken u
      HasIssued y s' r.mods (nextPc y.pc)
        (if y.gate0 r.pred r.pn then [y.flyScalar r.d 2 (bits (y.sd.pred r.a.toNat).toNat lo 64) 0] else []) := by
  intro u hr
  refine ⟨_, (h r x.s).trans (issueWord_ready hr rfl), ?_⟩
  dsimp only
  split
  · exact Here.done_issued (y := x.woken u) _ _ hr.stream
  · exact Here.done_issued (y := x.woken u) _ _ hr.stream

/-- A word that moves a scalar to half of a predicate. -/
theorem pset_issues {c : RegW → Instr} {lo : Nat} (h : ∀ r s, exec (c r) s = psetWord r s lo) (x : Here) (r : RegW) :
    let u := x.testUses r [opdR 1 r.a 1] []
    x.Ready r.mods u →
    ∃ s', exec (c r) x.s = .next s' ∧
      let y := x.woken u
      HasIssued y s' r.mods (nextPc y.pc)
        (if y.gate0 r.pred r.pn then
          [y.flyPred r.d.toNat 2 ((y.t.scalar r.a).toNat <<< lo) (ones 64 <<< lo) 0] else []) := by
  intro u hr
  simp only [u, Here.testUses, List.append_nil] at hr ⊢
  refine ⟨_, (h r x.s).trans (issueWord_ready hr rfl), ?_⟩
  split
  · exact Here.done_issued (y := x.woken _) _ _ hr.stream
  · exact Here.done_issued (y := x.woken _) _ _ hr.stream

/-- Settles O2: each word is the shared comparison, predicate form or half move with its own function. -/
theorem scalarComparisons : Obligations.ScalarComparisons := by
  unfold Obligations.ScalarComparisons
  refine ⟨⟨?_, ?_, ?_, ?_, ?_, ?_, ?_, ?_⟩, ?_, ?_, ?_, ?_, ?_, ?_, ?pget, ?pset⟩
  case pget =>
    simp only [List.forall_mem_cons, List.not_mem_nil, false_imp_iff, implies_true, and_true]
    exact ⟨pget_issues fun _ _ => rfl, pget_issues fun _ _ => rfl⟩
  case pset =>
    simp only [List.forall_mem_cons, List.not_mem_nil, false_imp_iff, implies_true, and_true]
    exact ⟨pset_issues fun _ _ => rfl, pset_issues fun _ _ => rfl⟩
  iterate 8 exact compareForm_of fun _ _ => rfl
  iterate 6 exact predForm_of fun _ _ => rfl

/-! ## Immediate and address forms (R146–R148) -/

/-- A word whose meaning is an immediate form with a result equal to `g` has that form. -/
theorem immForm_congr {c : ImmW → Instr} {useA : Bool} {lat : Nat} {f g : Nat → Nat → Nat → Nat}
    (h : ∀ r s, exec (c r) s = immWord r s useA lat f) (hfg : ∀ a i pc, f a i pc = g a i pc) : ImmForm c useA lat g := by
  obtain rfl : f = g := by
    funext a i pc
    exact hfg a i pc
  exact immForm_of h

theorem exec_leax (r : ImmW) (s : State) : exec (.leax r) s =
    issueWord s r.mods (fun _ => immUses r [opdR 1 r.a 1, opdR 3 (r.imm.extractLsb' 0 8) 1] 2) fun y =>
      y.done r.mods y.t [y.flyScalar r.d 2 (canon ((y.t.scalar r.a).toNat +
        (y.t.scalar (r.imm.extractLsb' 0 8)).toNat * 2 ^ bits r.imm.toNat 8 6)) 0] := by
  simp only [← Nat.shiftLeft_eq]
  rfl

/-- `leax` adds a second scalar, shifted left (R147, R148). -/
theorem leax_issues (x : Here) (r : ImmW) :
    let second := r.imm.extractLsb' 0 8
    let u := immUses r [opdR 1 r.a 1, opdR 3 second 1] 2
    x.Ready r.mods u →
    ∃ s', exec (.leax r) x.s = .next s' ∧
      let y := x.woken u
      HasIssued y s' r.mods (nextPc y.pc)
        [y.flyScalar r.d 2 (canon ((y.t.scalar r.a).toNat + (y.t.scalar second).toNat * 2 ^ bits r.imm.toNat 8 6)) 0] := by
  intro second u hr
  exact ⟨_, (exec_leax r x.s).trans (issueWord_ready hr rfl), Here.done_issued (y := x.woken u) _ _ hr.stream⟩

/-- Settles O3: each word is the shared immediate form; a shift left multiplies and a shift right divides. -/
theorem immediateWords : Obligations.ImmediateWords := by
  unfold Obligations.ImmediateWords
  refine ⟨?_, ?_, ?_, ?_, ?shli, ?shri, ?_, ?_, ?_, ?_, ?_, ?_, leax_issues⟩
  case shli =>
    exact immForm_congr (f := fun a i _ => a <<< (i % 64)) (fun _ _ => rfl) fun a i _ => Nat.shiftLeft_eq a (i % 64)
  case shri =>
    exact immForm_congr (f := fun a i _ => a >>> (i % 64)) (fun _ _ => rfl) fun a i _ => Nat.shiftRight_eq_div_pow a (i % 64)
  all_goals exact immForm_of fun _ _ => rfl

/-! ## Branches, calls and `loop` (R70, R149, R150) -/

/-- A relative target is a multiple of 8 where the branch's own address is (R150). -/
theorem relTarget_aligned {pc : BitVec 64} (disp : BitVec 24) (h : pc.toNat % 8 = 0) : (relTarget pc disp).toNat % 8 = 0 := by
  have hmask : BitVec.toNat (0x00FFFFFFFFFFFFFF : BitVec 64) = 2 ^ 56 - 1 := rfl
  simp only [relTarget, BitVec.toNat_and, BitVec.toNat_add, BitVec.toNat_ofNat, hmask, Nat.and_two_pow_sub_one_eq_mod]
  omega

/-- A number is 0 as a signed number when it is 0. -/
theorem toSigned_eq_zero (a : Word) : toSigned 64 a.toNat = 0 ↔ a = 0 := by
  have ha := a.isLt
  have hzero : a = 0 ↔ a.toNat = 0 := BitVec.toNat_inj.symm
  rw [hzero, toSigned, Nat.mod_eq_of_lt ha]
  split_ifs <;> omega

/-- A conditional branch whose test of A agrees with `taken`. -/
theorem branchCmp_form {c : BrW → Instr} {f : Int → Bool} {taken : Here → BrW → Bool}
    (h : ∀ r s, exec (c r) s = branchCmp r s f) (ht : ∀ y r, f (toSigned 64 (y.t.scalar r.a).toNat) = taken y r) :
    BranchForm c (fun r => [opdR 1 r.a 1]) (fun _ => []) taken := by
  refine branchForm_of fun r s => (h r s).trans ?_
  simp only [branchCmp, ht]

theorem exec_loop (r : BrW) (s : State) : exec (.loop r) s =
    branchWord r s [⟨1, r.a, 1, 0xFF, 0xFF⟩] [] true fun y =>
      (if y.t.scalar r.a - 1 = 0 then none else some (relTarget y.pc r.disp), some (r.a, (y.t.scalar r.a - 1).toNat)) := rfl

/-- `loop` counts A down and branches back until it is 0 (R149). -/
theorem loop_issues (x : Here) (r : BrW) :
    let u : Uses := { opds := [⟨1, r.a, 1, 0xFF, 0xFF⟩], lat := 2, holds := true }
    x.Ready r.mods u → x.pc.toNat % 8 = 0 →
    ∃ s', exec (.loop r) x.s = .next s' ∧
      let y := x.woken u
      let v := y.t.scalar r.a - 1
      HasIssued y s' r.mods (if v = 0 then nextPc y.pc else relTarget y.pc r.disp) [y.flyScalar r.a 2 v.toNat 0] := by
  intro u hr hp
  have hal := relTarget_aligned r.disp ((x.woken_pc u).symm ▸ hp)
  refine ⟨_, (exec_loop r x.s).trans (issueWord_ready hr rfl), ?_⟩
  dsimp only
  by_cases hv : (x.woken u).t.scalar r.a - 1 = 0
  · simp only [hv, if_true]
    exact Here.done_issued (y := x.woken u) _ _ hr.stream
  · simp only [hv, if_false, hal, ne_eq, not_true_eq_false]
    exact Here.finish_issued (y := x.woken u) _ _ _ _ hr.stream

/-- Settles O4: each branch is the shared branch with its own test, each call and jump the shared jump with its target. -/
theorem branches : Obligations.Branches := by
  unfold Obligations.Branches
  refine ⟨⟨?_, ?beq, ?bne, ?_, ?_, ?_, ?_, ?_, ?bnp⟩, ?_, ?_, ?_, loop_issues⟩
  case beq =>
    refine branchCmp_form (f := fun a => a = 0) (fun _ _ => rfl) fun y r => ?_
    rw [beq_eq_decide]
    exact decide_eq_decide.2 (toSigned_eq_zero _)
  case bne =>
    refine branchCmp_form (f := fun a => a ≠ 0) (fun _ _ => rfl) fun y r => ?_
    rw [bne, beq_eq_decide, ← decide_not]
    exact decide_eq_decide.2 (toSigned_eq_zero _).not
  case bnp =>
    refine branchForm_of fun r s => ?_
    change execBnp r s = _
    unfold execBnp
    congr 1
    funext y
    cases (y.sd.pred r.a.toNat).getLsbD 0 <;> rfl
  iterate 6 exact branchForm_of fun _ _ => rfl
  iterate 3 exact jumpForm_of fun _ _ => rfl

end Sys2Proof.Machine
end

section
/-! Proofs about the patterns of vector elements (R141, R172, R179, R182). -/

namespace Sys2Proof.Machine

open Sys2Proof

/-- A vector word on patterns whose result agrees with `g` has that form (R141, R179). -/
theorem patternLanes_of {c : RegW → Instr} {n : Nat} {f g : RegW → Nat → Nat → Nat}
    (h : ∀ r s, exec (c r) s = patternElements r s n fun _ => f r) (hfg : ∀ r a b, f r a b = g r a b) :
    LanewiseForm c n 3 (fun r => elemBytes r.ty) fun r a b _ => (g r a b, 0) := by
  obtain rfl : f = g := by
    funext r a b
    exact hfg r a b
  exact lanewiseForm_of h

/-- Settles O10: each word works lane by lane; a shift left multiplies and a shift right divides. -/
theorem vectorBitwiseAndShifts : Obligations.VectorBitwiseAndShifts := by
  unfold Obligations.VectorBitwiseAndShifts
  refine ⟨?_, ?_, ?_, ?_, ?_, ?shl, ?shr, ?_, ?_, ?_, ?_, ?_, ?_⟩
  case shl =>
    exact patternLanes_of (f := fun r => shlPat (8 * elemBytes r.ty)) (fun _ _ => rfl)
      fun r => shlPat_eq (8 * elemBytes r.ty)
  case shr =>
    exact patternLanes_of (f := fun r => shrPat (typeSigned r.ty) (8 * elemBytes r.ty)) (fun _ _ => rfl)
      fun r => shrPat_eq (typeSigned r.ty) (8 * elemBytes r.ty)
  all_goals exact lanewiseForm_of fun _ _ => rfl

end Sys2Proof.Machine
end

section
/-! Proofs about the words of the access stream (R156, R212, R213, R221, R222, R299, R300, R400). -/

namespace Sys2Proof.Machine

open Sys2Proof

/-! ## Accesses that nothing keeps back -/

/-- The granules of an access that passes are present, so that no fill holds it (R293). -/
theorem Here.Passes.no_fill {y : Here} {r : MemW} {ea w a m : Nat} (h : y.Passes r ea w a m) (hm : MemW.remote r = false) :
    y.fillHold r ea w m = none := by
  unfold Here.fillHold
  split_ifs with hs
  · rfl
  · rw [h.present (not_not.1 hs) hm, Option.map_none]

/-- A word whose banks are free takes them (R212). -/
theorem Here.atBanks_free {y : Here} {m : Mods} {b : Buf} {off len mask : Nat} {k : Here → State}
    (h : y.banksFree m b off len mask = true) : y.atBanks m b off len mask k = k (y.banked m b off len mask) := by
  unfold Here.atBanks
  rw [if_pos h]
  rfl

/-- A release that may be made is not blocked (R319). -/
theorem Here.MayRelease.unblocked {y : Here} {d : Deed} (h : y.MayRelease) (ea : Nat) : y.feBlocked d ea = false := by
  unfold Here.feBlocked
  rw [h.spills, h.stream]
  split <;> rfl

/-- A full/empty word that waits for no local store of its stream is not blocked (R218). -/
theorem Here.FeFree.unblocked {y : Here} {d : Deed} {ea : Nat} (h : y.FeFree d ea) : y.feBlocked d ea = false := by
  unfold Here.FeFree at h
  by_cases hd : d.releases = true
  · rw [if_pos hd] at h
    exact h.unblocked ea
  · rw [if_neg hd] at h
    unfold Here.feBlocked
    rw [if_neg hd, List.any_eq_false]
    intro p hp
    simp only [Bool.and_eq_true, decide_eq_true_eq]
    rintro ⟨⟨hsp, hlo⟩, hhi⟩
    rcases h p hp hsp with hle | hle <;> omega

/-- A handle of a core of the machine, of the team's own context, names its target (R205). -/
theorem remoteTarget_named {t : Team} {h : Nat} (hcore : handleCore h < 576) (hctx : handleCtx h = t.ctx) :
    remoteTarget t h = .message (handleCore h) := by
  unfold remoteTarget
  rw [if_neg (Nat.not_le.2 hcore), if_neg (not_not.2 hctx)]

/-- A remote `drain` whose handle names its target is counted and goes on with its request. -/
theorem Here.drainRequest_named {y : Here} {r : MemW} {i : Instr} {ea q v : Nat} {e : SqEntry} {k : Req → Here → State}
    (hcore : handleCore (y.remoteHandle r) < 576) (hctx : handleCtx (y.remoteHandle r) = y.t.ctx) :
    y.drainRequest r i ea q v e k =
      k { Req.of i ea 0 with x := v, mask := ones 128, handle := y.remoteHandle r, place := e.num, cmp := q }
        y.remoteCounted := by
  unfold Here.drainRequest
  simp only [remoteTarget_named hcore hctx]
  rfl

/-- The oldest entry of a store queue, when its data has landed. -/
theorem Here.oldestPush_landed {y : Here} {q v : Nat} {e : SqEntry} {rest : List SqEntry} {k : SqEntry → Nat → State}
    (hq : vget y.t.sqs q [] = e :: rest) (hv : e.data = some v) : y.oldestPush q k = k e v := by
  unfold Here.oldestPush
  simp only [hq, hv]

/-- A write to global memory that nothing keeps back is entered (R216, R319). -/
theorem Here.globalWrite_posted {y : Here} {w : Writer} {ea width data mask : Nat} {k : Here → State} {s : State}
    (hm : y.MayPost ea width) (hp : y.s.post w ea width data mask (4 ≤ y.k) = .ok s) :
    y.globalWrite w ea width data mask k = k (y.reload s) := by
  have hspills : (y.sd.spills.any fun e => e.fenced) = false := by
    rw [List.any_eq_false]
    intro p hp
    simp [hm.spills p hp]
  have hstream : (decide (4 ≤ y.k) && y.s.accessMeets y.h y.s.nextReq (none, bits ea 0 56, width)) = false := by
    by_cases hk : 4 ≤ y.k
    · rw [hm.stream hk, Bool.and_false]
    · simp [hk]
  unfold Here.globalWrite
  simp only [hspills, hstream, hp, Bool.or_false, Bool.false_eq_true, if_false]

/-- An access-stream word whose pages are translated goes on with its pieces (R400). -/
theorem Here.accessTranslate_ok {y : Here} {ea n mask : Nat} {acc : Acc} {k : Here → List Piece → State} {ps : List Piece}
    {s : State} (h : y.s.spans y.t.ctx (dieOf y.t.core) (y.s.aperturesOf y.t) ea n mask acc { src := 1, handle := y.h } =
      (.ok ps, s)) : y.accessTranslate ea n mask acc k = k (y.reload s) ps := by
  unfold Here.accessTranslate
  simp only [h]

/-! ## Issue -/

/-- What a word that has changed its team leaves, with no result in flight. -/
theorem Here.done_with_issued {s : State} {h k : Nat} {t0 t : Team} {m : Mods} (hk : k ≤ 4) :
    HasIssued ⟨s, h, k, t⟩ ((⟨s, h, k, t0⟩ : Here).done m t []) m (nextPc (t0.strand k).pc) [] :=
  Here.finish_issued (y := ⟨s, h, k, t0⟩) m t [] _ hk

/-- What a word that has changed its team and waits leaves. -/
theorem Here.wait_with_waits {s : State} {h k : Nat} {t0 t : Team} {m : Mods} {w : Wait}
    (hpc : (t.strand k).pc = (t0.strand k).pc) (hk : k ≤ 4) :
    WaitsOn ⟨s, h, k, t⟩ ((⟨s, h, k, t0⟩ : Here).wait m t w) m w := by
  have hw := Here.wait_waits (y := ⟨s, h, k, t⟩) m w hk
  unfold Here.wait Here.done at hw ⊢
  rw [show (⟨s, h, k, t⟩ : Here).pc = (⟨s, h, k, t0⟩ : Here).pc from hpc] at hw
  exact hw

/-- What a word that only issues leaves. -/
theorem issues_nothing {x : Here} {i : Instr} {m : Mods} {u : Uses} (hr : x.Ready m u)
    (h : exec i x.s = .next ((x.woken u).done m (x.woken u).t [])) :
    ∃ s', exec i x.s = .next s' ∧ HasIssued (x.woken u) s' m (nextPc x.pc) [] := by
  rw [← x.woken_pc u]
  exact ⟨_, h, Here.done_issued _ _ hr.stream⟩

/-- Taking a release's tag leaves the stream. -/
theorem Here.tagRelease_k (y : Here) (wide : Bool) : (y.tagRelease wide).2.k = y.k := by
  cases wide
  · rfl
  · rfl

/-- The core after the lines of 128 bytes at `pa` have been brought into its access cache (R221). -/
def Core.bring (pa : Nat) (c : Core) : Core := (linesOf pa 128).foldl (fun c l => c.cacheLine none l) c

section
variable {x y : Here} {r : MemW} (hr : x.Ready r.mods (memUses r [] false 0 false none))
  (hy : x.woken (memUses r [] false 0 false none) = y)
include hr hy

/-- A word of the access stream that may issue runs its own part on its woken place. -/
theorem access_runs (body : Here → State) :
    issueWord x.s r.mods (fun _ => { opds := [baseOpd r] }) body = .next (body y) := by
  subst hy
  exact issueWord_ready hr rfl

/-- Its stream is a strand or the access stream. -/
theorem access_stream_le : y.k ≤ 4 := by
  subst hy
  exact hr.stream

/-! ## `fetch` (R221, R222) -/

/-- With no strand live a `fetch` does nothing (R156). -/
theorem exec_fetch_idle (hd : y.t.drainOnly = true) : exec (.fetch r) x.s = .next (y.done r.mods y.t []) := by
  change execFetch r x.s = _
  unfold execFetch
  rw [access_runs hr hy]
  simp only [hd, if_true]

/-- Nor does a full/empty one. -/
theorem exec_fetchFull_idle {c : MemW → Instr} (he : ∀ r s, exec (c r) s = fetchFullWord r s (c r))
    (hd : y.t.drainOnly = true) : exec (c r) x.s = .next (y.done r.mods y.t []) := by
  rw [he]
  unfold fetchFullWord
  rw [access_runs hr hy]
  simp only [hd, if_true]

section
variable (hd : y.t.drainOnly = false) (hp : y.Passes r (y.address r) 128 8 (ones 128))
  (hl : (vget y.t.lqs (r.d.toNat % 4) []).length < 16)
include hd hp hl

/-- A `fetch` from a window reads it at issue, after the stream's own stores (R213, R222). -/
theorem fetch_window_issues {z : Here} (hm : MemW.remote r = false) (hs : r.space ≠ 0)
    (ha : y.MayAccess r (bufOfSpace r.space.toNat) (y.address r) 128 (ones 128))
    (hz : y.banked r.mods (bufOfSpace r.space.toNat) (y.address r) 128 (ones 128) = z) :
    ∃ s', exec (.fetch r) x.s = .next s' ∧
      HasIssued { z with
          s := { z.s with nextReq := z.s.nextReq + 1 },
          t := z.t.reserve (r.d.toNat % 4) z.s.nextReq (some (forwardBytes (bufOfSpace r.space.toNat) (y.address r) y.sd.spills
            (y.t.readWindow (bufOfSpace r.space.toNat) (y.address r) 128) 128)) false }
        s' r.mods (nextPc y.pc) [] := by
  subst hz
  have hk := access_stream_le hr hy
  refine ⟨_, ?_, Here.done_with_issued hk⟩
  change execFetch r x.s = _
  unfold execFetch
  rw [access_runs hr hy]
  simp only [hd, hp.no_trap, Nat.not_le.2 hl, hm, hs, hp.access hm ha, Bool.false_eq_true, if_false]
  rfl

/-- A `fetch` from global memory makes its request at issue, with the pieces that its bytes are translated to (R400). -/
theorem fetch_global_issues {ps : List Piece} {s1 : State} {z : Here} (hm : MemW.remote r = false) (hs : r.space = 0)
    (ht : y.s.spans y.t.ctx (dieOf y.t.core) (y.s.aperturesOf y.t) (y.address r) 128 (ones 128) .read
      { src := 1, handle := y.h } = (.ok ps, s1))
    (hz : ((y.reload s1).request
      { Req.of (.fetch r) (y.address r) (r.d.toNat % 4) with mask := ones 128, locs := some ps }).2 = z) :
    ∃ s', exec (.fetch r) x.s = .next s' ∧
      HasIssued { z with t := z.t.reserve (r.d.toNat % 4) s1.nextReq none false } s' r.mods (nextPc z.pc) [] := by
  subst hz
  have hk := access_stream_le hr hy
  refine ⟨_, ?_, Here.done_with_issued hk⟩
  change execFetch r x.s = _
  unfold execFetch
  rw [access_runs hr hy]
  simp only [hd, hp.no_trap, Nat.not_le.2 hl, hm, hs, Here.accessTranslate_ok ht, Bool.false_eq_true, if_false, if_true]
  rfl

/-- A remote `fetch` is counted and makes its request at issue. -/
theorem fetch_remote_issues {z : Here} (hm : MemW.remote r = true)
    (hz : (y.remoteCounted.request
      { Req.of (.fetch r) (y.address r) (r.d.toNat % 4) with mask := ones 128, handle := y.remoteHandle r }).2 = z) :
    ∃ s', exec (.fetch r) x.s = .next s' ∧
      HasIssued { z with t := z.t.reserve (r.d.toNat % 4) y.s.nextReq none false } s' r.mods (nextPc y.pc) [] := by
  subst hz
  have hk := access_stream_le hr hy
  refine ⟨_, ?_, Here.done_with_issued hk⟩
  change execFetch r x.s = _
  unfold execFetch
  rw [access_runs hr hy]
  simp only [hd, hp.no_trap, Nat.not_le.2 hl, hm, Bool.false_eq_true, if_false, if_true]
  rfl

variable {c : MemW → Instr} (he : ∀ r s, exec (c r) s = fetchFullWord r s (c r))
include he

/-- A full/empty `fetch` of the team's own SP that is served takes its data, as an acquire, in that cycle (R222, R318). -/
theorem fetchFull_served_issues {v fl : Nat} {t : Team} {w z : Here} (hm : MemW.remote r = false)
    (hf : y.FeFree (deedOf (c r)) (y.address r)) (ha : y.MayAccess r .sp (y.address r) 128 (ones 128))
    (hv : y.t.serve (deedOf (c r)) (y.address r) 0 0 0 = some (v, fl, t))
    (hw : y.banked r.mods .sp (y.address r) 128 (ones 128) = w)
    (hz : ({ w with s := { w.s with nextReq := y.s.nextReq + 1 } }.withTeam t).acquireIf true (y.address r) 128 = z) :
    ∃ s', exec (c r) x.s = .next s' ∧
      HasIssued { z with t := z.t.reserve (r.d.toNat % 4) y.s.nextReq (some v) true } s' r.mods (nextPc z.pc) [] := by
  subst hz hw
  have hk := access_stream_le hr hy
  refine ⟨_, ?_, Here.done_with_issued hk⟩
  rw [he]
  unfold fetchFullWord
  rw [access_runs hr hy]
  simp only [hd, hp.no_trap, Nat.not_le.2 hl, hm, hp.no_fill hm, hf.unblocked, ha.ready, hv, Here.atBanks_free ha.banks,
    Bool.not_true, Bool.or_false, Bool.false_eq_true, if_false]
  rfl

/-- A remote full/empty `fetch` is counted, makes its request and waits for the reply. -/
theorem fetchFull_remote_waits {z : Here} (hm : MemW.remote r = true)
    (hz : (y.remoteCounted.request { Req.of (c r) (y.address r) (r.d.toNat % 4) with handle := y.remoteHandle r }).2 = z) :
    ∃ s', exec (c r) x.s = .next s' ∧
      WaitsOn { z with t := z.t.reserve (r.d.toNat % 4) y.s.nextReq none true } s' r.mods (.reply y.s.nextReq) := by
  subst hz
  have hk := access_stream_le hr hy
  refine ⟨_, ?_, Here.wait_with_waits rfl hk⟩
  rw [he]
  unfold fetchFullWord
  rw [access_runs hr hy]
  simp only [hd, hp.no_trap, Nat.not_le.2 hl, hm, Bool.false_eq_true, if_false, if_true]
  rfl

end

/-! ## `drain` (R221) -/

section
variable {e : SqEntry} {v : Nat} {rest : List SqEntry} (hq : vget y.t.sqs (r.d.toNat % 2) [] = e :: rest)
  (hv : e.data = some v) (hp : y.Passes r (y.address r) 128 8 (ones 128))
include hq hv hp

/-- A `drain` to a window writes it at issue. -/
theorem drain_window_issues (hm : MemW.remote r = false) (hs : r.space ≠ 0) (hsp : y.sd.spills = [])
    (ha : y.MayAccess r (bufOfSpace r.space.toNat) (y.address r) 128 (ones 128)) :
    ∃ s', exec (.drain r) x.s = .next s' ∧
      HasIssued { y.banked r.mods (bufOfSpace r.space.toNat) (y.address r) 128 (ones 128) with
          t := (y.t.writeWindow (bufOfSpace r.space.toNat) (y.address r) v (ones 128) 128).takeDrain (r.d.toNat % 2) }
        s' r.mods (nextPc y.pc) [] := by
  have hk := access_stream_le hr hy
  refine ⟨_, ?_, Here.done_with_issued hk⟩
  change execDrain r x.s = _
  unfold execDrain
  rw [access_runs hr hy]
  simp only [hp.no_trap, Here.oldestPush_landed hq hv, hm, hs, hsp, hp.access hm ha, List.isEmpty_nil, Bool.not_true,
    Bool.false_eq_true, if_false]
  rfl

/-- A `drain` to global memory enters the core's write path (R216). -/
theorem drain_global_issues {s1 : State} (hm : MemW.remote r = false) (hs : r.space = 0) (hpost : y.MayPost (y.address r) 128)
    (hok : y.s.post { y.writer with drainOf := some (r.d.toNat % 2, e.num) } (y.address r) 128 v (ones 128) (4 ≤ y.k) =
      .ok s1) :
    ∃ s', exec (.drain r) x.s = .next s' ∧
      HasIssued { y.reload s1 with t := (y.reload s1).t.takeDrain (r.d.toNat % 2) } s' r.mods (nextPc (y.reload s1).pc) [] := by
  have hk := access_stream_le hr hy
  refine ⟨_, ?_, Here.done_with_issued hk⟩
  change execDrain r x.s = _
  unfold execDrain
  rw [access_runs hr hy]
  simp only [hp.no_trap, Here.oldestPush_landed hq hv, hm, hs, Here.globalWrite_posted hpost hok, Bool.false_eq_true, if_false,
    if_true]

/-- A remote `drain` is counted and makes its request. -/
theorem drain_remote_issues {z : Here} (hm : MemW.remote r = true) (hcore : handleCore (y.remoteHandle r) < 576)
    (hctx : handleCtx (y.remoteHandle r) = y.t.ctx)
    (hz : (y.remoteCounted.request { Req.of (.drain r) (y.address r) 0 with
      x := v, mask := ones 128, handle := y.remoteHandle r, place := e.num, cmp := r.d.toNat % 2 }).2 = z) :
    ∃ s', exec (.drain r) x.s = .next s' ∧
      HasIssued { z with t := z.t.takeDrain (r.d.toNat % 2) } s' r.mods (nextPc y.pc) [] := by
  subst hz
  have hk := access_stream_le hr hy
  refine ⟨_, ?_, Here.done_with_issued hk⟩
  change execDrain r x.s = _
  unfold execDrain
  rw [access_runs hr hy]
  simp only [hp.no_trap, Here.oldestPush_landed hq hv, hm, Here.drainRequest_named hcore hctx, if_true]
  rfl

variable {c : MemW → Instr} (he : ∀ r s, exec (c r) s = drainFullWord r s (c r)) (hrel : y.MayRelease)
include he hrel

/-- A full/empty `drain` to the team's own SP that is served writes it in that cycle. -/
theorem drainFull_served_issues {got fl : Nat} {t : Team} {z : Here} (hm : MemW.remote r = false)
    (ha : y.MayAccess r .sp (y.address r) 128 (ones 128))
    (hs : y.t.serve (deedOf (c r)) (y.address r) v 0 (ones 128) = some (got, fl, t))
    (hz : (y.banked r.mods .sp (y.address r) 128 (ones 128)).withTeam t = z) :
    ∃ s', exec (c r) x.s = .next s' ∧
      HasIssued { z with t := t.takeDrain (r.d.toNat % 2) } s' r.mods (nextPc z.pc) [] := by
  subst hz
  have hk := access_stream_le hr hy
  refine ⟨_, ?_, Here.done_with_issued hk⟩
  rw [he]
  unfold drainFullWord
  rw [access_runs hr hy]
  simp only [hp.no_trap, Here.oldestPush_landed hq hv, hm, hrel.unblocked, hp.no_fill hm, ha.ready, hs,
    Here.atBanks_free ha.banks, Bool.false_and, Bool.or_false, Bool.not_true, Bool.false_eq_true, if_false]
  rfl

/-- A remote full/empty `drain` is a release: it follows what its implicit scope puts before it, with its tag when that
reaches another die, and waits for the reply (R323, R328). -/
theorem drainFull_remote_waits {w z : Here} {rq : Req} (hm : MemW.remote r = true)
    (hcore : handleCore (y.remoteHandle r) < 576) (hctx : handleCtx (y.remoteHandle r) = y.t.ctx)
    (hlead : y.leadHeld ((deedOf (c r)).releasesFar y.t.core (y.remoteHandle r)) = false)
    (hw : (y.remoteCounted.tagRelease ((deedOf (c r)).releasesFar y.t.core (y.remoteHandle r))).2 = w)
    (hrq : { Req.of (c r) (y.address r) 0 with
      x := v, mask := ones 128, handle := y.remoteHandle r, place := e.num, cmp := r.d.toNat % 2 } = rq)
    (hz : (w.request (if 1 < implicitScope w.t.core (handleCore (y.remoteHandle r))
      then { rq with upto := (w.s.core w.t.core).nextNum, acq := w.sd.acqUpto } else rq)).2 = z) :
    ∃ s', exec (c r) x.s = .next s' ∧
      WaitsOn { z with t := z.t.takeDrain (r.d.toNat % 2) } s' r.mods (.reply w.s.nextReq) := by
  have hk : z.k = y.k := by
    rw [← hz, ← hw]
    exact Here.tagRelease_k _ _
  refine ⟨_, ?_, Here.wait_with_waits (t0 := z.t) rfl (hk ▸ access_stream_le hr hy)⟩
  rw [he]
  unfold drainFullWord
  rw [access_runs hr hy]
  simp only [hp.no_trap, Here.oldestPush_landed hq hv, hm, hrel.unblocked, hlead, Here.drainRequest_named hcore hctx,
    Bool.and_false, Bool.or_false, Bool.false_eq_true, if_false, if_true]
  subst hrq hz hw
  rfl

end

/-! ## `pref` (R221, R299, R300) -/

/-- A `pref` of an address that is not canonical, and one with no strand live, does nothing (R156, R222). -/
theorem exec_pref_nothing (h : y.t.drainOnly = true ∨ isCanon (y.address r) = false) :
    exec (.pref r) x.s = .next (y.done r.mods y.t []) := by
  change execPref r x.s = _
  unfold execPref
  rw [access_runs hr hy]
  rcases h with h | h
  · simp [h]
  · simp [h]

/-- A `pref` of one local page brings its lines into the access cache. -/
theorem pref_local_issues {va pa : Nat} {s1 : State} (hd : y.t.drainOnly = false) (hc : isCanon (y.address r) = true)
    (hap : apertureHit (y.s.aperturesOf y.t) (y.address r) 128 = .none)
    (ht : y.s.translateAll y.t.ctx (dieOf y.t.core) .read (ones 128) (pagesOf (y.address r) 128) =
      ([(va, 0, 128, .frame pa)], s1)) (hteam : s1.team? y.h = some y.t) :
    ∃ s', exec (.pref r) x.s = .next s' ∧
      HasIssued { y with s := s1.setCore y.t.core ((s1.core y.t.core).bring pa) } s' r.mods (nextPc y.pc) [] := by
  have hworst : worstOf [(va, 0, 128, .frame pa)] = none := rfl
  have hreload : ∀ c, y.reload (s1.setCore y.t.core c) = { y with s := s1.setCore y.t.core c } := by
    intro c
    unfold Here.reload
    rw [show (s1.setCore y.t.core c).team? y.h = some y.t from hteam]
    rfl
  have hk := access_stream_le hr hy
  refine ⟨_, ?_, Here.done_with_issued hk⟩
  change execPref r x.s = _
  unfold execPref
  rw [access_runs hr hy]
  simp only [hd, hc, hap, ht, hworst, List.foldl_cons, List.foldl_nil, State.prefetch, State.modCore, hreload, ne_eq,
    not_true_eq_false, decide_false, Bool.not_true, Bool.or_false, Option.isSome_none, Bool.false_eq_true, if_false]
  rfl

end

/-- Bringing a line into a cache with a free line adds it, unless it is there already (R299). -/
theorem Core.cacheLine_free {c : Core} {p : Option Nat} {l : Nat} (h : c.cache.length < 512) : ∃ new,
    c.cacheLine p l = { c with cache := c.cache ++ new } ∧ new.length ≤ 1 ∧ ∃ e ∈ c.cache ++ new, e.peer = p ∧ e.line = l := by
  unfold Core.cacheLine
  dsimp only
  split_ifs with hany
  · obtain ⟨e, he, his⟩ := List.any_eq_true.1 hany
    simp only [CacheLine.is, Bool.and_eq_true, decide_eq_true_eq] at his
    exact ⟨[], by rw [List.append_nil], Nat.zero_le 1, e, by rwa [List.append_nil], his⟩
  · exact ⟨_, rfl, Nat.le_refl 1, _, List.mem_append_right _ (List.mem_singleton_self _), rfl, rfl⟩

/-- Lines brought into a cache with room for all of them stand there beside those that it held. -/
theorem Core.cacheLine_foldl {c : Core} {p : Option Nat} {ls : List Nat} (h : c.cache.length + ls.length ≤ 512) : ∃ new,
    ls.foldl (fun c l => c.cacheLine p l) c = { c with cache := c.cache ++ new } ∧
      ∀ l ∈ ls, ∃ e ∈ c.cache ++ new, e.peer = p ∧ e.line = l := by
  induction ls generalizing c with
  | nil => exact ⟨[], by rw [List.append_nil]; rfl, by simp⟩
  | cons l ls ih =>
    rw [List.length_cons] at h
    obtain ⟨new, hnew, hone, e, he, hel⟩ := Core.cacheLine_free (c := c) (p := p) (l := l) (by omega)
    obtain ⟨more, hmore, hall⟩ := ih (c := c.cacheLine p l) (by rw [hnew, List.length_append]; omega)
    refine ⟨new ++ more, ?_, ?_⟩
    · rw [List.foldl_cons, hmore, hnew, List.append_assoc]
    · rw [hnew] at hall
      rw [← List.append_assoc, List.forall_mem_cons]
      exact ⟨⟨e, List.mem_append_left _ he, hel⟩, hall⟩

/-- 128 bytes lie in at most two lines. -/
theorem length_linesOf_le (pa : Nat) : (linesOf pa 128).length ≤ 2 := by
  rw [linesOf, List.length_map, List.length_range]
  omega

/-- The lines brought stand in the cache beside those that it held. -/
theorem Core.bring_lines {pa : Nat} {c : Core} (h : c.cache.length < 511) : ∃ new,
    c.bring pa = { c with cache := c.cache ++ new } ∧ ∀ l ∈ linesOf pa 128, ∃ e ∈ c.cache ++ new, e.peer = none ∧ e.line = l :=
  Core.cacheLine_foldl (by have := length_linesOf_le pa; omega)

/-- The two full/empty `fetch` words. -/
theorem exec_fetchFull {c : MemW → Instr} (hc : c ∈ ([Instr.fetchF, Instr.fetchFe] : List (MemW → Instr)))
    (r : MemW) (s : State) : exec (c r) s = fetchFullWord r s (c r) := by
  simp only [List.mem_cons, List.not_mem_nil, or_false] at hc
  rcases hc with rfl | rfl
  · rfl
  · rfl

/-- The two full/empty `drain` words. -/
theorem exec_drainFull {c : MemW → Instr} (hc : c ∈ ([Instr.drainEf, Instr.drainF] : List (MemW → Instr)))
    (r : MemW) (s : State) : exec (c r) s = drainFullWord r s (c r) := by
  simp only [List.mem_cons, List.not_mem_nil, or_false] at hc
  rcases hc with rfl | rfl
  · rfl
  · rfl

/-- Settles O30: each word is the one case that its space and its conditions pick. -/
theorem accessStreamWords : Obligations.AccessStreamWords := by
  unfold Obligations.AccessStreamWords
  refine ⟨?idle, ?fetch, ?fetchFull, ?drain, ?pref⟩
  case idle =>
    simp only [List.forall_mem_cons, List.not_mem_nil, false_imp_iff, implies_true, and_true]
    exact ⟨fun x r hr hd => issues_nothing hr (exec_fetch_idle hr rfl hd),
      fun x r hr hd => issues_nothing hr (exec_fetchFull_idle hr rfl (fun _ _ => rfl) hd),
      fun x r hr hd => issues_nothing hr (exec_fetchFull_idle hr rfl (fun _ _ => rfl) hd),
      fun x r hr hd => issues_nothing hr (exec_pref_nothing hr rfl (.inl hd))⟩
  case fetch =>
    intro x r u hr y q ea rq hd hp hl
    refine ⟨fun hm hs ha => ?_, fun ps s1 hm hs ht => ?_, fun hm => ?_⟩
    · exact fetch_window_issues hr rfl hd hp hl hm hs ha rfl
    · exact fetch_global_issues hr rfl hd hp hl hm hs ht rfl
    · exact fetch_remote_issues hr rfl hd hp hl hm rfl
  case fetchFull =>
    intro c hc x r u hr y q ea hd hp hl
    refine ⟨fun v fl t1 hm _ hf ha hv => ?_, fun hm => ?_⟩
    · exact fetchFull_served_issues hr rfl hd hp hl (exec_fetchFull hc) hm hf ha hv rfl rfl
    · exact fetchFull_remote_waits hr rfl hd hp hl (exec_fetchFull hc) hm rfl
  case drain =>
    intro x r e v rest u hr y q ea h rq hq hv hp
    refine ⟨fun hm hs hsp ha => ?_, fun s1 hm hs hpost hok => ?_, fun hm hcore hctx => ?_, fun c hc hrel => ⟨?_, ?_⟩⟩
    · exact drain_window_issues hr rfl hq hv hp hm hs hsp ha
    · exact drain_global_issues hr rfl hq hv hp hm hs hpost hok
    · exact drain_remote_issues hr rfl hq hv hp hm hcore hctx rfl
    · exact fun got fl t1 hm _ ha hs => drainFull_served_issues hr rfl hq hv hp (exec_drainFull hc) hrel hm ha hs rfl
    · intro far hm hcore hctx hlead
      exact drainFull_remote_waits hr rfl hq hv hp (exec_drainFull hc) hrel hm hcore hctx hlead rfl rfl rfl
  case pref =>
    intro x r u hr y ea
    refine ⟨fun hc => issues_nothing hr (exec_pref_nothing hr rfl (.inr hc)), fun va pa s1 hd hc hap ht hlen hteam => ?_⟩
    obtain ⟨new, hnew, hlines⟩ := Core.bring_lines (pa := pa) hlen
    obtain ⟨s', hexec, hissued⟩ := pref_local_issues hr rfl hd hc hap ht hteam
    rw [hnew, x.woken_pc] at hissued
    exact ⟨s', _, hexec, hissued, fun e he => List.mem_append_left _ he, hlines⟩

end Sys2Proof.Machine
end

section
/-! Proofs about the integer arithmetic, comparisons, moves, lane forms and trit forms of vector words (R171–R173, R179–R182,
R185–R188). -/

namespace Sys2Proof.Machine

open Sys2Proof

/-! ## Integer arithmetic and comparisons (R179–R181) -/

/-- A typed vector word whose elements agree with `g`'s once they are wrapped to the width has that form (R179). -/
theorem typedLanes_of {c : RegW → Instr} {n lat : Nat} {f g : Nat → Bool → Int → Int → Int → Int × Nat}
    (h : ∀ r s, exec (c r) s = intElements r s n lat f)
    (hval : ∀ w sg a b c, ofSigned w (f w sg a b c).1 = ofSigned w (g w sg a b c).1)
    (hfl : ∀ w sg a b c, (f w sg a b c).2 = (g w sg a b c).2) :
    LanewiseForm c n lat (fun r => elemBytes r.ty) (typedElement g) := by
  refine lanewiseForm_of fun r s => (h r s).trans ?_
  unfold intElements
  dsimp only
  congr 1
  funext a b c
  simp only [typedElement, hval, hfl]

/-- A typed vector word whose elements are `g`'s has that form. -/
theorem typedLanes_congr {c : RegW → Instr} {n lat : Nat} {f g : Nat → Bool → Int → Int → Int → Int × Nat}
    (h : ∀ r s, exec (c r) s = intElements r s n lat f) (hfg : ∀ w sg a b c, f w sg a b c = g w sg a b c) :
    LanewiseForm c n lat (fun r => elemBytes r.ty) (typedElement g) :=
  typedLanes_of h (fun w sg a b c => by rw [hfg w sg a b c]) fun w sg a b c => by rw [hfg w sg a b c]

/-- A vector word that works lane by lane as `g` does has that form. -/
theorem lanewiseForm_congr {c : RegW → Instr} {n lat : Nat} {w : RegW → Nat} {f g : RegW → Nat → Nat → Nat → Nat × Nat}
    (h : ∀ r s, exec (c r) s = elementwise r s n (w r) lat (f r)) (hfg : ∀ r a b c, f r a b c = g r a b c) :
    LanewiseForm c n lat w g := by
  obtain rfl : f = g := by
    funext r a b c
    exact hfg r a b c
  exact lanewiseForm_of h

/-- The left fold over the four lanes of a word is their sum. -/
theorem foldl_four_lanes (f : Nat → Int) : ((List.range 4).map f).foldl (· + ·) 0 = f 0 + f 1 + f 2 + f 3 := by
  simp [List.range, List.range.loop]

/-- Settles O9: each word is the shared typed form; what is left is the clamp, the sign of 0 − A and the sum of the lanes. -/
theorem vectorIntegerArithmetic : Obligations.VectorIntegerArithmetic := by
  unfold Obligations.VectorIntegerArithmetic
  refine ⟨?_, ?_, ?adds, ?subs, ?min, ?max, ?abs, ?neg, ?_, ?_, ?_, ?dp4⟩
  case adds =>
    exact typedLanes_of (f := fun w sg a b _ => ((satInt sg w (a + b)).1, satFlags sg w (a + b))) (fun _ _ => rfl)
      (fun _ _ _ _ _ => ofSigned_satInt _ _ _) fun _ _ _ _ _ => satFlags_eq _ _ _
  case subs =>
    exact typedLanes_of (f := fun w sg a b _ => ((satInt sg w (a - b)).1, satFlags sg w (a - b))) (fun _ _ => rfl)
      (fun _ _ _ _ _ => ofSigned_satInt _ _ _) fun _ _ _ _ _ => satFlags_eq _ _ _
  case min => exact typedLanes_congr (f := fun _ _ a b _ => (min a b, 0)) (fun _ _ => rfl) fun _ _ _ _ _ => by rw [Int.min_def]
  case max => exact typedLanes_congr (f := fun _ _ a b _ => (max a b, 0)) (fun _ _ => rfl) fun _ _ _ _ _ => by rw [Int.max_def]
  case abs =>
    exact typedLanes_congr (f := fun _ _ a _ _ => (if a < 0 then -a else a, 0)) (fun _ _ => rfl) fun _ _ a _ _ => by
      rw [abs_eq_max_neg, Int.max_def]
      split_ifs <;> simp only [Prod.mk.injEq, and_true] <;> omega
  case neg => exact typedLanes_congr (f := fun _ _ a _ _ => (-a, 0)) (fun _ _ => rfl) fun _ _ _ _ _ => by rw [Int.zero_sub]
  case dp4 =>
    exact lanewiseForm_congr (f := fun r a b c => (ofSigned 32 (readAs (typeSigned r.ty) 32 c + ((List.range 4).map fun j =>
      readAs (typeSigned r.ty) 8 (elem 1 a j) * readAs (typeSigned r.ty) 8 (elem 1 b j)).foldl (· + ·) 0), 0))
      (fun _ _ => rfl) fun r a b c => by rw [foldl_four_lanes]
  all_goals exact lanewiseForm_of fun _ _ => rfl

/-- Settles O11: each word is the shared comparison of elements with its own test. -/
theorem vectorComparisons : Obligations.VectorComparisons := by
  unfold Obligations.VectorComparisons
  refine ⟨?_, ?_, ?_, ?_, ?_, ?_, ?_, ?_⟩
  all_goals exact elementCompareForm_of fun _ _ => rfl

/-! ## Moves and lane forms (R182) -/

/-- The place of a word that may issue, once it has made its pops, is still of a stream. -/
theorem Here.Ready.popAll_stream {x : Here} {m : Mods} {u : Uses} (hr : x.Ready m u) (l : List (BitVec 8)) :
    ((x.woken u).popAll l).k ≤ 4 := by
  rw [Here.popAll_k]
  exact hr.stream

@[simp] theorem Here.woken_scalar (x : Here) (u : Uses) (d : BitVec 8) : (x.woken u).t.scalar d = x.t.scalar d := by
  obtain ⟨g, hg⟩ := x.woken_frame u
  rw [hg]
  rfl

/-- The enables of `vins`: those of the elements, but for every element that B does not name (R182). -/
def Here.insEnables (x : Here) (r : RegW) : List Bool :=
  (x.enables r (elemBytes r.ty) (128 / elemBytes r.ty)).zipIdx.map fun e => e.1 && e.2 = x.insIndex r

@[simp] theorem Here.woken_insEnables (x : Here) (u : Uses) (r : RegW) : (x.woken u).insEnables r = x.insEnables r := by
  obtain ⟨g, hg⟩ := x.woken_frame u
  rw [hg]
  rfl

/-- `vins` writes the element that B names, when it is enabled (R182). -/
theorem exec_vins {x : Here} {r : RegW} {u : Uses}
    (hu : { opds := [⟨0, r.d, 1, 0, elemMask (elemBytes r.ty) (x.insEnables r)⟩, opdB 1 r.a 1 (ones (elemBytes r.ty)), opdR 2 r.b 1],
            predR := gateReads r.pred, lat := 3, holds := vectorHolds r.d (elemMask (elemBytes r.ty) (x.insEnables r)) } = u)
    (hr : x.Ready r.mods u) (hs : (x.woken u).Supplied [] (some r.d)) :
    exec (.vins r) x.s = .next ((x.woken u).doneVector r.mods r.d 3 128 (ofElems (elemBytes r.ty) ((x.insEnables r).map fun b =>
      if b then (x.t.scalar r.a).toNat % 2 ^ (8 * elemBytes r.ty) else 0)) (elemMask (elemBytes r.ty) (x.insEnables r)) 0) := by
  change execVins r x.s = _
  unfold execVins
  rw [sources_ready (srcs := []) hr hs hu rfl, Here.popAll_nil, ← x.woken_insEnables u, ← x.woken_scalar u]
  rfl

/-- `vsel` writes every element, from A where its predicate bit is 1 and from B elsewhere (R173, R182). -/
theorem vsel_issues (x : Here) (r : RegW) :
    let u : Uses :=
      { opds := [opdW 0 r.d 1 true, opdR 1 r.a 1, opdR 2 r.b 1], predR := gateReads r.pred, lat := 3, holds := true }
    x.Ready r.mods u → (x.woken u).Supplied [r.a, r.b] (some r.d) →
    ∃ s', exec (.vsel r) x.s = .next s' ∧
      let vs := (x.woken u).sourceValues [(r.a, 1), (r.b, 1)]
      let y := (x.woken u).popAll [r.a, r.b]
      VectorIssued y s' r.mods r.d 3 128
        (ofElems (elemBytes r.ty) ((y.enables r (elemBytes r.ty) (128 / elemBytes r.ty)).zipIdx.map fun e =>
          elem (elemBytes r.ty) (vs.getD (if e.1 then 0 else 1) 0) e.2)) (ones 128) 0 := by
  intro u hr hs
  refine ⟨_, ?_, Here.doneVector_issued _ _ _ _ _ _ _ (hr.popAll_stream _)⟩
  change execVsel r x.s = _
  unfold execVsel
  exact sources_ready hr hs rfl rfl

/-- Settles O12: the per-element moves and `vext` are shared forms; `vins` and `vsel` enable their elements in their own way. -/
theorem vectorMovesAndLanes : Obligations.VectorMovesAndLanes := by
  unfold Obligations.VectorMovesAndLanes
  refine ⟨?_, ?_, ?_, ?_, ?vext, ?vins, vsel_issues⟩
  case vext => exact toScalarForm_of fun _ _ => rfl
  case vins =>
    intro x r n one u hr hs
    exact ⟨_, exec_vins rfl hr hs, Here.doneVector_issued _ _ _ _ _ _ _ hr.stream⟩
  all_goals exact elementForm_of fun _ _ => rfl

/-! ## Trit forms (R185–R188) -/

/-- The multiply and shift of R186 divides a packed byte by 3^k. -/
theorem div3k_eq {b k : Nat} (hb : b < 243) (hk : k < 5) : div3k k b = b / 3 ^ k := by
  match k, hk with
  | 0, _ => simp [div3k]
  | 1, _ | 2, _ | 3, _ | 4, _ =>
    simp only [div3k, Nat.shiftRight_eq_div_pow]
    omega

/-- Settles O16: the first division drops the k lower digits, the second leaves a remainder by 3. -/
theorem tritDigitsAreBase3 : Obligations.TritDigitsAreBase3 := by
  unfold Obligations.TritDigitsAreBase3
  intro b hb k hk
  have hq : b / 3 ^ k < 243 := (Nat.div_le_self b (3 ^ k)).trans_lt hb
  have hthird : (b / 3 ^ k * 171) >>> 9 = b / 3 ^ k / 3 := by
    simpa [div3k] using div3k_eq (k := 1) hq (by omega)
  rw [tritDigit, div3k_eq hb hk, hthird]
  omega

/-- The elements of a trit word: each byte with its enable and its index. -/
def Here.tritBytes (y : Here) (r : RegW) (a : Nat) : List (Bool × Nat × Nat) :=
  (y.enables r 1 128).zipIdx.map fun e => (e.1, e.2, elem 1 a e.2)

section
variable {x : Here} {r : RegW} {u : Uses} (hu : x.elementUses r 1 3 [opdR 1 r.a 1] = u) (hr : x.Ready r.mods u)
  (hs : (x.woken u).Supplied [r.a] (some r.d)) {y : Here} {a : Nat} (hy : (x.woken u).popAll [r.a] = y)
  (ha : ((x.woken u).sourceValues [(r.a, 1)]).getD 0 0 = a)
include hu hr hs hy ha

/-- With every enabled byte below 243, `vtrit` gives a digit of each less 1 (R186, R187). -/
theorem exec_vtrit_digits (h : ((y.tritBytes r a).find? fun e => e.1 && 243 ≤ e.2.2) = none) :
    exec (.vtrit r) x.s = .next (y.doneVector r.mods r.d 3 128 (ofElems 1 ((y.tritBytes r a).map fun e =>
      if e.1 then (tritDigit r.fn.toNat e.2.2 + 255) % 256 else 0)) (elemMask 1 (y.enables r 1 128)) 0) := by
  subst hy ha
  change execVtrit r x.s = _
  unfold execVtrit
  rw [sources_ready (srcs := [(r.a, 1)]) hr hs hu rfl]
  unfold Here.tritBytes at h ⊢
  simp only [h]

/-- The first enabled byte of 243 or more traps with its index and value (R187). -/
theorem exec_vtrit_illegal {e : Bool × Nat × Nat} (h : ((y.tritBytes r a).find? fun e => e.1 && 243 ≤ e.2.2) = some e) :
    exec (.vtrit r) x.s =
      .next (y.trap { code := 0x04, reason := 0x01, info := BitVec.ofNat 64 (e.2.1 + 256 * e.2.2) }) := by
  subst hy ha
  change execVtrit r x.s = _
  unfold execVtrit
  rw [sources_ready (srcs := [(r.a, 1)]) hr hs hu rfl]
  unfold Here.tritBytes at h
  simp only [h]

end

/-- The product of a trit and a byte is the byte with the trit's sign (R188). -/
theorem tritProduct_eq (t v : Int) : (if 0 < t then v else if t < 0 then -v else 0) = t.sign * v := by
  rcases lt_trichotomy t 0 with h | rfl | h
  · rw [if_neg h.not_gt, if_pos h, Int.sign_eq_neg_one_of_neg h, neg_one_mul]
  · simp
  · rw [if_pos h, Int.sign_eq_one_of_pos h, one_mul]

/-- Settles O15: the two outcomes of the check of `vtrit`, and the four products of a lane of `vtacc`. -/
theorem tritWords : Obligations.TritWords := by
  unfold Obligations.TritWords
  constructor
  case left =>
    intro x r u hr hs a y en es
    refine ⟨fun h => ?_, fun e h ht => ?_⟩
    · exact ⟨_, exec_vtrit_digits (y := y) (a := a) rfl hr hs rfl rfl h,
        Here.doneVector_issued _ _ _ _ _ _ _ (hr.popAll_stream [r.a])⟩
    · exact ⟨_, exec_vtrit_illegal (y := y) (a := a) rfl hr hs rfl rfl h, Here.trap_taken ht _⟩
  case right =>
    exact lanewiseForm_congr (f := fun _ a b c => satInt true 32 (toSigned 32 c + ((List.range 4).map fun j =>
      if 0 < toSigned 8 (elem 1 a j) then toSigned 8 (elem 1 b j)
      else if toSigned 8 (elem 1 a j) < 0 then -toSigned 8 (elem 1 b j) else 0).foldl (· + ·) 0)) (fun _ _ => rfl)
      fun r a b c => by rw [foldl_four_lanes]; simp only [tritProduct_eq]

/-! ## Reductions (R184, R193) -/

/-- An integer reduction that folds the enabled elements as `g` does has its form (R184). -/
theorem intReduction_of {c : RegW → Instr} {f g : Nat → Bool → List Int → Int} (h : ∀ r s, exec (c r) s = intReduce r s f)
    (hfg : ∀ w sg l, f w sg l = g w sg l) :
    ToScalarForm c (fun _ => []) 6 fun r y a =>
      (ofSigned 64 (g (8 * elemBytes r.ty) (typeSigned r.ty) (y.enabledInts r a)), 0) := by
  obtain rfl : f = g := by
    funext w sg l
    exact hfg w sg l
  exact toScalarForm_of h

/-- Settles O14: each reduction is its shared shape; an integer addition from 0 is the sum. -/
theorem reductions : Obligations.Reductions := by
  unfold Obligations.Reductions
  refine ⟨?add, ?_, ?_, ?_, ?_, ?_⟩
  case add =>
    exact intReduction_of (f := fun _ _ l => l.foldl (· + ·) 0) (g := fun _ _ l => l.sum) (fun _ _ => rfl)
      fun _ _ l => List.sum_eq_foldl.symm
  all_goals exact toScalarForm_of fun _ _ => rfl

end Sys2Proof.Machine
end

section
/-! Proofs about the floating-point forms of vector words and about the conversion words (R173, R178, R189–R199). -/

namespace Sys2Proof.Machine

open Sys2Proof

/-! ## Floating-point forms (R189–R192) -/

/-- Settles O17: each word is the shared rounded form, the shared lane-by-lane form or the shared comparison of elements. -/
theorem vectorFloat : Obligations.VectorFloat := by
  unfold Obligations.VectorFloat
  refine ⟨?_, ?_, ?_, ?_, ?_, ?_, ?_, ?_, ?_, ?_, ?_, ?_, ?_, ?_, ?_, ?_, ?_, ?_⟩
  iterate 7 exact floatForm_of fun _ _ => rfl
  iterate 4 exact lanewiseForm_of fun _ _ => rfl
  iterate 7 exact elementCompareForm_of fun _ _ => rfl

/-! ## Conversions (R194–R199) -/

/-- The elements that `vcvt` makes of its source, packed, with their flags (R195, R196). -/
def convertedElements (r : RegW) (en : List Bool) (ms : List Mode) (a : Nat) : Nat × Nat :=
  packElements (typeBytes r.ty.toNat) ((en.zip ms).zipIdx.map fun e => (e.1.1,
    if e.1.1 then convertElement r.fn.toNat r.ty.toNat e.1.2 (elem (typeBytes r.fn.toNat) a e.2) else (0, 0)))

/-- `vcvt` draws its rounding modes and gives the converted elements (R178, R194). -/
theorem exec_vcvt {x : Here} {r : RegW} {ws wd n : Nat} {u : Uses} (hws : typeBytes r.fn.toNat = ws)
    (hwd : typeBytes r.ty.toNat = wd) (hn : 128 / min ws wd = n)
    (hu : { opds := [⟨0, r.d, wd / min ws wd, 0, elemMask wd (x.enables r (min ws wd) n)⟩, opdR 1 r.a (ws / min ws wd)],
            predR := gateReads r.pred, lat := 5, holds := vectorHolds r.d (elemMask wd (x.enables r (min ws wd) n)) } = u)
    (hr : x.Ready r.mods u) (hs : (x.woken u).Supplied [r.a] (some r.d)) {z : Here} {a : Nat} {en : List Bool}
    (hz : (x.woken u).popAll [r.a] = z) (ha : ((x.woken u).sourceValues [(r.a, ws / min ws wd)]).getD 0 0 = a)
    (hen : z.enables r (min ws wd) n = en) :
    let m := z.elementModes (r.op.toNat - 0x98) en
    exec (.vcvt r) x.s = .next (m.2.doneVector r.mods r.d 5 (n * wd) (convertedElements r en m.1 a).1 (elemMask wd en)
      (convertedElements r en m.1 a).2) := by
  subst hws hwd hn ha hen hz
  intro m
  change execVcvt r x.s = _
  unfold execVcvt
  rw [sources_ready (srcs := [(r.a, _)]) hr hs hu rfl]
  simp only [m, convertedElements]

/-- The blocks that `vquant` makes of its 64 values, and the LFSR after their draws (R197). -/
def Here.quantised (y : Here) (r : RegW) (a : Nat) (start : Option Nat) : List (List Val × BlockRes) × Nat :=
  let d := fdOf (vget y.t.fds r.fdn.toNat 0).toNat
  let size := if d.bs = 0 then 64 else d.block
  quantBlocks d start (r.fn.toNat % 4) (chunks size (64 / size) ((elems 4 64 a).map fmtF32.value)) y.t.lfsr.toNat

section
variable {c : RegW → Instr} {scal : RegW → List (Nat × BitVec 8)} {start : Here → RegW → Option Nat}
  (h : ∀ r s, exec (c r) s = quantWord r s (scal r) fun y => start y r) {x : Here} {r : RegW} {u : Uses}
  (hu : x.wholeUses r 1 12 (opdR 1 r.a 2 :: (scal r).map fun p => opdR p.1 p.2 1) (some r.fdn.toNat) = u)
  (hr : x.Ready r.mods u)
include h hu hr

/-- With its gate off `vquant` only issues (R173, R197). -/
theorem exec_quant_off (hg : x.gate0 r.pred r.pn = false) : exec (c r) x.s = .next ((x.woken u).done r.mods (x.woken u).t []) := by
  rw [h]
  unfold quantWord
  rw [issueWord_ready hr hu]
  simp only [Here.woken_gate0, hg, Bool.false_eq_true, if_false]

/-- With its gate on `vquant` packs the blocks that it makes, feeds them to the statistics and keeps the LFSR of its draws
(R197, R371). -/
theorem exec_quant_on (hg : x.gate0 r.pred r.pn = true) (hs : (x.woken u).Supplied [r.a] (some r.d)) {y : Here} {a : Nat}
    (hy : (x.woken u).popAll [r.a] = y) (ha : ((x.woken u).sourceValues [(r.a, 2)]).getD 0 0 = a) :
    let d := fdOf (vget y.t.fds r.fdn.toNat 0).toNat
    let q := y.quantised r a (start y r)
    let t := { y.t with lfsr := if r.fn.toNat % 4 = 2 then BitVec.ofNat 32 q.2 else y.t.lfsr }
    exec (c r) x.s = .next ((y.withTeam (t.feed r.fdn.toNat d q.1)).doneVector r.mods r.d 12 128
      (d.packBlocks (q.1.map (·.2))) (ones 128) (orAll (q.1.map fun b => b.2.flags))) := by
  subst hy ha
  intro d q t
  rw [h]
  unfold quantWord
  rw [issueWord_ready hr hu]
  simp only [Here.woken_gate0, hg, if_true]
  rw [Here.withSources_supplied rfl hs]
  rfl

end

/-- The 64 elements that `vdequant` makes of a packed string, with their flags (R198). -/
def Here.dequantised (y : Here) (r : RegW) (a : Nat) (f : Fmt) : List (Nat × Nat) :=
  let d := fdOf (vget y.t.fds r.fdn.toNat 0).toNat
  (List.range 64).map fun i => dequantise d (d.unpack a i).1 (d.unpack a i).2 f

/-- `vdequant` pops its source; with its gate on it gives the elements (R176, R198). -/
theorem exec_dequant {c : RegW → Instr} {f : Fmt} {n : Nat} (h : ∀ r s, exec (c r) s = dequantWord r s f n) {x : Here}
    {r : RegW} {u : Uses} (hu : x.wholeUses r n 6 [opdR 1 r.a 1] (some r.fdn.toNat) = u) (hr : x.Ready r.mods u)
    (hs : (x.woken u).Supplied [r.a] (if x.gate0 r.pred r.pn then some r.d else none)) {y : Here} {a : Nat}
    (hy : (x.woken u).popAll [r.a] = y) (ha : ((x.woken u).sourceValues [(r.a, 1)]).getD 0 0 = a) :
    exec (c r) x.s = .next (if x.gate0 r.pred r.pn then
      y.doneVector r.mods r.d 6 (128 * n) (ofElems (f.w / 8) ((y.dequantised r a f).map (·.1))) (ones (128 * n))
        (orAll ((y.dequantised r a f).map (·.2)))
      else y.done r.mods y.t []) := by
  subst hy ha
  rw [h]
  unfold dequantWord
  rw [issueWord_ready hr hu]
  simp only [Here.woken_gate0]
  rw [Here.withSources_supplied rfl hs]
  rfl

/-- `vdequant` gives 64 elements with its gate on, and only pops with it off (R176, R198). -/
theorem dequant_issues {c : RegW → Instr} {f : Fmt} {n : Nat} (h : ∀ r s, exec (c r) s = dequantWord r s f n) (x : Here)
    (r : RegW) :
    let on := x.gate0 r.pred r.pn
    let u := x.wholeUses r n 6 [opdR 1 r.a 1] (some r.fdn.toNat)
    x.Ready r.mods u → (x.woken u).Supplied [r.a] (if on then some r.d else none) →
    ∃ s', exec (c r) x.s = .next s' ∧
      let es := ((x.woken u).popAll [r.a]).dequantised r (((x.woken u).sourceValues [(r.a, 1)]).getD 0 0) f
      let y := (x.woken u).popAll [r.a]
      if on then
        VectorIssued y s' r.mods r.d 6 (128 * n) (ofElems (f.w / 8) (es.map (·.1))) (ones (128 * n)) (orAll (es.map (·.2)))
      else HasIssued y s' r.mods (nextPc y.pc) [] := by
  intro on u hr hs
  refine ⟨_, exec_dequant h rfl hr hs rfl rfl, ?_⟩
  dsimp only [on]
  split
  · exact Here.doneVector_issued _ _ _ _ _ _ _ (hr.popAll_stream _)
  · exact Here.done_issued _ _ (hr.popAll_stream _)

/-- `vquant` only issues with its gate off, and with it on gives the blocks that it makes (R197). -/
theorem quant_issues {c : RegW → Instr} {scal : RegW → List (Nat × BitVec 8)} {start : Here → RegW → Option Nat}
    (h : ∀ r s, exec (c r) s = quantWord r s (scal r) fun y => start y r) (x : Here) (r : RegW) :
    let u := x.wholeUses r 1 12 (opdR 1 r.a 2 :: (scal r).map fun p => opdR p.1 p.2 1) (some r.fdn.toNat)
    x.Ready r.mods u →
    (x.gate0 r.pred r.pn = false → ∃ s', exec (c r) x.s = .next s' ∧ HasIssued (x.woken u) s' r.mods (nextPc x.pc) []) ∧
    (x.gate0 r.pred r.pn = true → (x.woken u).Supplied [r.a] (some r.d) → ∃ s', exec (c r) x.s = .next s' ∧
      let y := (x.woken u).popAll [r.a]
      let d := fdOf (vget y.t.fds r.fdn.toNat 0).toNat
      let q := y.quantised r (((x.woken u).sourceValues [(r.a, 2)]).getD 0 0) (start y r)
      let t := { y.t with lfsr := if r.fn.toNat % 4 = 2 then BitVec.ofNat 32 q.2 else y.t.lfsr }
      VectorIssued (y.withTeam (t.feed r.fdn.toNat d q.1)) s' r.mods r.d 12 128 (d.packBlocks (q.1.map (·.2)))
        (ones 128) (orAll (q.1.map fun b => b.2.flags))) := by
  intro u hr
  refine ⟨fun hg => ⟨_, exec_quant_off h rfl hr hg, ?_⟩, fun hg hs => ⟨_, exec_quant_on h rfl hr hg hs rfl rfl, ?_⟩⟩
  · rw [← x.woken_pc u]
    exact Here.done_issued _ _ hr.stream
  · exact Here.doneVector_issued _ _ _ _ _ _ _ (hr.popAll_stream [r.a])

/-- Settles O18: the conversion is one shared shape; the other two run behind their gate. -/
theorem conversionWords : Obligations.ConversionWords := by
  unfold Obligations.ConversionWords
  refine ⟨?vcvt, ?quant, ?dequant⟩
  case vcvt =>
    intro x r ws wd wm n u hr hs
    exact ⟨_, exec_vcvt rfl rfl rfl rfl hr hs rfl rfl rfl,
      Here.doneVector_issued _ _ _ _ _ _ _ ((Here.elementModes_k _ _ _).trans_le (hr.popAll_stream _))⟩
  case quant =>
    simp only [List.forall_mem_cons, List.not_mem_nil, false_imp_iff, implies_true, and_true]
    exact ⟨quant_issues (scal := fun _ => []) (start := fun _ _ => none) fun _ _ => rfl,
      quant_issues (scal := fun r => [(2, r.b)])
        (start := fun y r => some (min ((y.t.scalar r.b).toNat % 256) 254)) fun _ _ => rfl⟩
  case dequant =>
    simp only [List.forall_mem_cons, List.not_mem_nil, false_imp_iff, implies_true, and_true]
    exact ⟨dequant_issues fun _ _ => rfl, dequant_issues fun _ _ => rfl⟩

end Sys2Proof.Machine
end

section
/-! The words for engine queues and signal slots (O31). -/

namespace Sys2Proof.Machine

open Sys2Proof

/-! ## `enq` and `qclr` (R236–R239) -/

/-- What `enq` reads: the words of its command. -/
def Here.enqUses (x : Here) (r : EngW) : Uses :=
  { opds := [⟨1, r.a, 4, ones (8 * (lenOf (x.t.scalarAt r.a 0) + 1)), 0⟩] }

theorem exec_enq {x : Here} {r : EngW} {y : Here} (hr : x.Ready r.mods (x.enqUses r)) (hy : y = x.woken (x.enqUses r)) :
    exec (.enq r) x.s = .next (if (y.t.queue r.q.toNat).room
      then y.done r.mods (y.t.accept r.q.toNat (y.command r.a)) [] else y.hold (.queueRoom r.q.toNat)) := by
  subst hy
  exact (show exec (.enq r) x.s = execEnq r x.s from rfl).trans (issueWord_ready hr rfl)

theorem EngQ.room_iff (x : EngQ) : x.room = true ↔ x.cmds.length < 32 := decide_eq_true_iff

/-- With room in its queue `enq` accepts the command. -/
theorem enq_accepts {x : Here} {r : EngW} {y : Here} (hr : x.Ready r.mods (x.enqUses r)) (hy : y = x.woken (x.enqUses r))
    (hroom : (y.t.queue r.q.toNat).cmds.length < 32) : ∃ s', exec (.enq r) x.s = .next s' ∧
      HasIssued { y with t := y.t.accept r.q.toNat (y.command r.a) } s' r.mods (nextPc y.pc) [] := by
  refine ⟨_, exec_enq hr hy, ?_⟩
  rw [if_pos ((EngQ.room_iff _).mpr hroom)]
  exact Here.finish_issued _ _ _ _ (hy ▸ hr.stream)

/-- Without room it holds. -/
theorem enq_holds {x : Here} {r : EngW} {y : Here} (hr : x.Ready r.mods (x.enqUses r)) (hy : y = x.woken (x.enqUses r))
    (hfull : 32 ≤ (y.t.queue r.q.toNat).cmds.length) :
    ∃ s', exec (.enq r) x.s = .next s' ∧ HeldOn y s' (.queueRoom r.q.toNat) := by
  refine ⟨_, exec_enq hr hy, ?_⟩
  rw [if_neg (mt (EngQ.room_iff _).mp (Nat.not_lt.mpr hfull))]
  exact Here.hold_held _

theorem qclr_issues {x : Here} {r : EngW} {y : Here} (hr : x.Ready r.mods {}) (hy : y = x.woken {}) :
    ∃ s', exec (.qclr r) x.s = .next s' ∧
      HasIssued { y with t := if (y.t.queue r.q.toNat).stopped
        then y.t.setQueue r.q.toNat { y.t.queue r.q.toNat with clear := true } else y.t } s' r.mods (nextPc y.pc) [] := by
  subst hy
  exact ⟨_, (show exec (.qclr r) x.s = execQclr r x.s from rfl).trans (issueWord_ready hr rfl),
    Here.finish_issued _ _ _ _ hr.stream⟩

/-! ## Signal slots (R241–R243) -/

theorem sigGet_issues {x : Here} {r : RegW} {u : Uses}
    (hu : u = { opds := [opdW 0 r.d 1 (x.gate0 r.pred r.pn)], predR := gateReads r.pred, lat := 2,
                holds := x.gate0 r.pred r.pn, off := !x.gate0 r.pred r.pn })
    (hr : x.Ready r.mods u) :
    ∃ s', exec (.sigGet r) x.s = .next s' ∧ HasIssued (x.woken u) s' r.mods (nextPc (x.woken u).pc)
      (if x.gate0 r.pred r.pn then
        [(x.woken u).flyScalar r.d 2 (vget (x.woken u).t.slots (r.c.toNat % 64) 0).toNat 0] else []) := by
  refine ⟨_, (show exec (.sigGet r) x.s = execSigGet r x.s from rfl).trans (issueWord_ready hr hu.symm), ?_⟩
  rw [Here.woken_gate0]
  split
  · exact Here.done_issued _ _ hr.stream
  · exact Here.done_issued _ _ hr.stream

/-- A word that changes a slot lists the change for the next cycle when its gate is on. -/
theorem slotWord_issues {c : RegW → Instr} {f : Nat → Nat → SlotChange} (h : ∀ r s, exec (c r) s = slotWord r s f) {x : Here}
    {r : RegW} {u : Uses}
    (hu : u = { opds := [opdB 1 r.a 1 0xF], predR := gateReads r.pred, off := !x.gate0 r.pred r.pn })
    (hr : x.Ready r.mods u) :
    ∃ s', exec (c r) x.s = .next s' ∧
      let y := x.woken u
      HasIssued { y with t := if y.gate0 r.pred r.pn then { y.t with slotNext := y.t.slotNext ++
        [f (r.c.toNat % 64) ((y.t.scalar r.a).toNat % 2 ^ 32)] } else y.t } s' r.mods (nextPc y.pc) [] := by
  refine ⟨_, (h r x.s).trans (issueWord_ready hr hu.symm), ?_⟩
  dsimp only
  split
  · exact Here.finish_issued _ _ _ _ hr.stream
  · exact Here.done_issued _ _ hr.stream

/-- The message of `sig.add.r` to the core of handle h. -/
def Here.slotMsg (y : Here) (r : RegW) (h : Nat) : SpMsg :=
  { h := y.h, k := y.k, tag := y.s.nextReq, target := h,
    slotAdd := some (r.c.toNat % 64, (y.t.scalarAt r.a 0).toNat % 2 ^ 32) }

/-- The machine with a message of y's stream at a core. -/
def Here.messaged (y : Here) (core : Nat) (m : SpMsg) : Here :=
  { y with s := { y.s with nextReq := y.s.nextReq + 1 }.setCore core { y.s.core core with msgs := (y.s.core core).msgs ++ [m] } }

theorem sigAddR_sends {x : Here} {r : RegW} {u : Uses} {y : Here} {h : Nat}
    (hu : u = { opds := [opdB 1 r.a 2 0xF0F], predR := gateReads r.pred, off := !x.gate0 r.pred r.pn })
    (hr : x.Ready r.mods u) (hy : y = x.woken u) (hh : h = (y.t.scalarAt r.a 1).toNat % 2 ^ 32)
    (hg : y.gate0 r.pred r.pn = true) (hcore : handleCore h < 576) (hctx : handleCtx h = y.t.ctx) :
    ∃ s', exec (.sigAddR r) x.s = .next s' ∧
      HasIssued (y.messaged (handleCore h) (y.slotMsg r h)) s' r.mods (nextPc y.pc) [] := by
  refine ⟨_, (show exec (.sigAddR r) x.s = execSigAddR r x.s from rfl).trans (issueWord_ready hr hu.symm), ?_⟩
  rw [← hy, if_pos hg]
  dsimp only
  rw [← hh, if_neg (Nat.not_le.mpr hcore), if_neg (not_not.mpr hctx)]
  exact Here.done_issued (y := y.messaged _ _) _ _ (hy ▸ hr.stream)

/-- Settles O31: each word runs its own part on its woken place; the words that set and add share `slotWord`. -/
theorem engineQueueWords : Obligations.EngineQueueWords := by
  unfold Obligations.EngineQueueWords
  refine ⟨⟨?enq, ?qclr⟩, ?sigGet, ?slots, ?sigAddR⟩
  case enq =>
    intro x r u hr
    exact ⟨enq_accepts hr rfl, enq_holds hr rfl⟩
  case qclr =>
    intro x r hr
    exact qclr_issues hr rfl
  case sigGet =>
    intro x r on u hr
    exact sigGet_issues rfl hr
  case slots =>
    simp only [List.forall_mem_cons, List.not_mem_nil, false_imp_iff, implies_true, and_true]
    refine ⟨?_, ?_⟩
    · intro x r hr
      exact slotWord_issues (fun _ _ => rfl) rfl hr
    · intro x r hr
      exact slotWord_issues (fun _ _ => rfl) rfl hr
  case sigAddR =>
    intro x r u hr y h hg hcore hctx
    exact sigAddR_sends rfl hr rfl rfl hg hcore hctx

end Sys2Proof.Machine
end

section
/-! Commands of engines that act in one step (O33, O34, O36): what each leaves once its source bytes and its tiles are there. -/

namespace Sys2Proof.Machine

open Sys2Proof

/-! ## What performing leaves -/

/-- A command whose body performs its effect on the team, from the state `s` that holds it, has that effect. -/
theorem command_performs {c : Cmd → Instr} {body : Cmd → Eng → State} {e : Eng} {k : Cmd} {b s : State} {t : Team}
    {f : Prog → Prog} (hk : e.Performs k) (hc : exec (c k) e.s = engineWord e.s k (body k) fun e => e.s)
    (hbody : body k e = e.performed s f) (ht : s.team? e.h = some t) (ho : ∀ g, g ≠ e.h → s.team? g = b.team? g)
    (hr : s = { b with teams := s.teams }) :
    ∃ s1, exec (c k) e.s = .next (s1.drainOut e.h e.q) ∧ Effect b s1 e.h e.q t f :=
  ⟨e.performed s f, by rw [hc, engineWord_plain hk, hbody], Eng.performed_effect ht ho hr⟩

/-- A command that fills tiles of its team has that effect. -/
theorem commandForm_of {c : Cmd → Instr} {body : Cmd → Eng → State} {ok : Eng → Cmd → Prop} {t : Eng → Cmd → Team}
    {f : Eng → Cmd → Prog → Prog} (hc : ∀ k s, exec (c k) s = engineWord s k (body k) fun e => e.s)
    (hbody : ∀ e k, e.Performs k → ok e k → body k e = e.performed (e.s.setTeam e.h (t e k)) (f e k)) : CommandForm c ok t f :=
  fun e k hk hok => command_performs hk (hc k e.s) (hbody e k hk hok) TeamIs.set.team TeamIs.set.others TeamIs.set.rest

/-- A command whose source bytes are not all there gathers them. -/
theorem command_gathers {i : Instr} {body : Eng → State} {e : Eng} {k : Cmd} {need : List Seg} (hk : e.Performs k)
    (hc : exec i e.s = engineWord e.s k body fun e => e.s) (hbody : body e = e.gather need) :
    exec i e.s = .next ((e.gather need).drainOut e.h e.q) := by
  rw [hc, engineWord_plain hk, hbody]

/-- A command whose body performs the change `r` of the team and its flags. -/
theorem teamForm_of {c : Cmd → Instr} {body : Cmd → Eng → State} {ok : Eng → Cmd → Prop} (r : Eng → Cmd → Team × Nat)
    (hc : ∀ k s, exec (c k) s = engineWord s k (body k) fun e => e.s)
    (hbody : ∀ e k, e.Performs k → ok e k → body k e = e.performedTeam (r e k)) :
    CommandForm c ok (fun e k => (r e k).1) fun e k p => { p with flags := p.flags ||| (r e k).2 } :=
  commandForm_of hc hbody

/-! ## Tiles (R257–R263) -/

/-- What `cp.mv` leaves: its tile filled from another one, transposed or not. -/
def Eng.moved (e : Eng) (c : Cmd) : Team × Nat :=
  let m := bits c.w1.toNat 0 6
  e.t.fillTile c (e.tile (tileOf c)) (e.tileFd (tileOf c)) (fdOf (e.tileFd m).toNat) fun i j =>
    some ((fdOf (e.tileFd m).toNat).codeAt (e.t.tileRow (e.tile m) (e.tileFd m) (if trOf c then j else i)) (if trOf c then i else j))

theorem cpMv_form : CommandForm .cpMv (fun e c => e.TilesPresent [bits c.w1.toNat 0 6, tileOf c])
    (fun e c => (e.moved c).1) fun e c p => { p with flags := p.flags ||| (e.moved c).2 } := by
  refine teamForm_of Eng.moved (fun k s => show execCpMv k s = _ from rfl) fun e k hk hok => ?_
  rw [Eng.withTiles_present hok]
  unfold Eng.moved
  cases trOf k
  · rfl
  · rfl

/-- What `cp.zero` leaves: its tile's rows of zero codes. -/
def Eng.zeroed (e : Eng) (c : Cmd) : Team :=
  let x := e.tile (tileOf c)
  let fd := e.tileFd (tileOf c)
  (List.range x.rows).foldl (fun t i =>
    t.setTileRow x fd i (if fdUsable fd.toNat then (fdOf fd.toNat).zeroRow x.cols else 0)) e.t

theorem cpZero_form : CommandForm .cpZero (fun e c => e.TilesPresent [tileOf c]) Eng.zeroed fun _ _ p => p := by
  refine commandForm_of (fun k s => show execCpZero k s = _ from rfl) fun e k hk hok => ?_
  rw [Eng.withTiles_present hok, Eng.performedTeam]
  simp only [Nat.or_zero]
  rfl

/-- What `cp.ld` leaves once its bytes are there: its tile filled from the tensor, empty beyond the tensor's edge. -/
def Eng.filled (e : Eng) (c : Cmd) : Team × Nat :=
  e.t.fillTile c (e.tile (tileOf c)) (e.tileFd (tileOf c)) (e.gfd c) fun i j =>
    let r := if trOf c then j else i
    let k := if trOf c then i else j
    if r < (e.reach c).1 && k < (e.reach c).2
    then some ((e.gfd c).codeAt (e.p.row (tensorOf c) (e.gfd c) r (e.reach c).2) k) else none

theorem Eng.filled_eq (e : Eng) (c : Cmd) :
    e.filled c = e.t.fillTile c (e.tile (tileOf c)) (e.tileFd (tileOf c)) (e.gfd c) (e.loaded c) := by
  have hget : e.loaded c = fun i j =>
      let r := if trOf c then j else i
      let k := if trOf c then i else j
      if r < (e.reach c).1 && k < (e.reach c).2
      then some ((e.gfd c).codeAt (e.p.row (tensorOf c) (e.gfd c) r (e.reach c).2) k) else none := by
    funext i j
    unfold Eng.loaded
    cases trOf c
    · rfl
    · rfl
  rw [hget, Eng.filled]

theorem cpLd_form : CommandForm .cpLd (fun e c => e.p.ready (e.loadNeed c) = true ∧ e.TilesPresent [tileOf c])
    (fun e c => (e.filled c).1) fun e c p => { p with flags := p.flags ||| (e.filled c).2 } := by
  refine teamForm_of Eng.filled (fun k s => show execCpLd k s = _ from rfl) fun e k hk hok => ?_
  dsimp only
  rw [hok.1, Eng.withTiles_present hok.2, Eng.filled_eq]
  rfl

theorem cpLd_gathers {e : Eng} {c : Cmd} (hk : e.Performs c) (hneed : e.p.ready (e.loadNeed c) = false) :
    exec (.cpLd c) e.s = .next ((e.gather (e.loadNeed c)).drainOut e.h e.q) :=
  command_gathers hk (show execCpLd c e.s = _ from rfl) (by simp [hneed])

theorem cpSt_form : CommandForm .cpSt (fun e c => e.p.ready (e.storeNeed c) = true ∧ e.TilesPresent [tileOf c])
    (fun e c => (e.storeRows c).1)
    fun e c p => { p with out := (e.storeRows c).2.1, flags := p.flags ||| (e.storeRows c).2.2 } := by
  refine commandForm_of (fun k s => show execCpSt k s = _ from rfl) fun e k hk hok => ?_
  dsimp only
  rw [hok.1, Eng.withTiles_present hok.2]
  rfl

theorem cpSt_gathers {e : Eng} {c : Cmd} (hk : e.Performs c) (hneed : e.p.ready (e.storeNeed c) = false) :
    exec (.cpSt c) e.s = .next ((e.gather (e.storeNeed c)).drainOut e.h e.q) :=
  command_gathers hk (show execCpSt c e.s = _ from rfl) (by simp [hneed])

/-- Rows that leave the team and the generator alone: their pieces one after another, and the flags of all. -/
theorem foldl_rows {τ ζ : Type} (cut : Nat → List Seg) (fl : Nat → Nat) (t : τ) (z : ζ) (l : List Nat) (out : List Seg) (f : Nat) :
    l.foldl (fun (acc : τ × List Seg × Nat × ζ) r => (acc.1, acc.2.1 ++ cut r, acc.2.2.1 ||| fl r, acc.2.2.2)) (t, out, f, z) =
      (t, out ++ l.flatMap cut, (l.map fl).foldl (· ||| ·) f, z) := by
  induction l generalizing out f with
  | nil => simp
  | cons r l ih => simp [ih, List.flatMap_cons]

/-- Rows that end with a byte keep no bits of their last one. -/
theorem Eng.storeRest_whole {e : Eng} {c : Cmd}
    (hend : (e.gfd c).kind = 1 → (e.gfd c).bs = 0 → (e.reach c).2 * (e.gfd c).w % 8 = 0) : e.storeRest c = 0 := by
  unfold Eng.storeRest
  split
  · rename_i h
    simp only [Bool.and_eq_true, decide_eq_true_eq] at h
    exact hend h.1 h.2
  · rfl

/-- Without conversion, and with rows that end with a byte, `cp.st` writes the codes of its tile's rows. -/
theorem Eng.storeRows_raw {e : Eng} {c : Cmd} (hcv : cvOf c = 0) (hrest : e.storeRest c = 0) :
    e.storeRows c = (e.t,
      segsOf e.aps ((List.range (e.reach c).1).flatMap fun r => cutSegs ((tensorOf c).rowVa r) ((e.gfd c).rowBytes (e.reach c).2)
        ((e.gfd c).rawRow (e.storedRow c r (e.reach c).2)).1),
      orAll ((List.range (e.reach c).1).map fun r => ((e.gfd c).rawRow (e.storedRow c r (e.reach c).2)).2)) := by
  unfold Eng.storeRows
  simp only [hcv, hrest, if_true]
  exact congrArg (fun p => (p.1, segsOf e.aps p.2.1, p.2.2.1)) (foldl_rows
    (fun r => cutSegs ((tensorOf c).rowVa r) ((e.gfd c).rowBytes (e.reach c).2)
      ((e.gfd c).rawRow (e.storedRow c r (e.reach c).2)).1)
    (fun r => ((e.gfd c).rawRow (e.storedRow c r (e.reach c).2)).2) e.t (lfsrSeeded (seedOf c)) (List.range (e.reach c).1) [] 0)

/-- Settles O33: each command fills or stores its tile once its bytes and tiles are there, and gathers its bytes until then. -/
theorem tileCommands : Obligations.TileCommands := by
  unfold Obligations.TileCommands
  refine ⟨⟨cpMv_form, cpZero_form⟩, ⟨cpLd_form, fun e c hk hneed => cpLd_gathers hk hneed⟩,
    cpSt_form, fun e c hk hneed => cpSt_gathers hk hneed, fun e c hcv hend => ?_⟩
  have hrest := Eng.storeRest_whole hend
  exact ⟨by rw [Eng.storeNeed, if_pos hrest], Eng.storeRows_raw hcv hrest⟩

/-! ## `cp.red` and `cp.renc` (R264, R265, R382) -/

theorem cpRed_sends {e : Eng} {c : Cmd} (hk : e.Performs c) (htile : e.TilesPresent [tileOf c]) :
    ∃ s1, Effect e.s s1 e.h e.q e.t (fun p => { p with
        reds := (e.updates c).map (·.1), flags := p.flags ||| orAll ((e.updates c).map (·.2)) }) ∧
      exec (.cpRed c) e.s = .next (match (s1.drainOut e.h e.q).eng? e.h e.q with
        | some e1 => e1.reduceOn
        | none => s1.drainOut e.h e.q) := by
  refine ⟨_, Eng.performed_effect hk.team (fun _ _ => rfl) rfl, ?_⟩
  rw [show exec (.cpRed c) e.s = execCpRed c e.s from rfl, execCpRed, engineWord_performs hk, Eng.withTiles_present htile]
  split
  · rename_i h; simp only [h]
  · rename_i h; simp only [h]

/-- A command with no claim of its tile makes one. -/
theorem cpRenc_claims {e : Eng} {c : Cmd} {n i : Nat} (hk : e.Performs c) (hnone : e.s.claimOf (.renc e.h e.q) = none)
    (htile : e.s.rencTile e.t c = some (n, i)) :
    exec (.cpRenc c) e.s = .next ((e.s.addClaim
      { by_ := .renc e.h e.q, ctx := e.t.ctx, core := e.t.core, entry := n, tile := i, gen := e.t.gen.toNat }).drainOut e.h e.q) := by
  rw [show exec (.cpRenc c) e.s = execCpRenc c e.s from rfl, execCpRenc, engineWord_plain hk]
  simp only [hnone, htile]

/-- Once its claim has ended the command has its effect. -/
theorem cpRenc_ends {e : Eng} {c : Cmd} {k tgen : Nat} {x : Claim} (hk : e.Performs c)
    (hclaim : e.s.claimOf (.renc e.h e.q) = some (k, x)) (hended : x.st = .ended tgen) :
    ∃ s1, exec (.cpRenc c) e.s = .next (s1.drainOut e.h e.q) ∧
      Effect { e.s with claims := tdel e.s.claims k } s1 e.h e.q e.t (fun p => p) := by
  refine ⟨e.performed { e.s with claims := tdel e.s.claims k } id, ?_, Eng.performed_effect hk.team (fun _ _ => rfl) rfl⟩
  rw [show exec (.cpRenc c) e.s = execCpRenc c e.s from rfl, execCpRenc, engineWord_plain hk]
  simp only [hclaim, hended]

/-- Settles O34: `cp.red` performs its list of updates and sends them on; `cp.renc` claims, and ends with its claim. -/
theorem reduceAndReencode : Obligations.ReduceAndReencode := by
  unfold Obligations.ReduceAndReencode
  exact ⟨fun e c hk htile => cpRed_sends hk htile, fun e c n i hk hnone htile => cpRenc_claims hk hnone htile,
    fun e c k tgen x hk hclaim hended => cpRenc_ends hk hclaim hended⟩

/-! ## `cl.put` and `cl.putq` (R267, R268, R270, R323) -/

/-- A release that need not wait goes on with its tag and the machine after it. -/
theorem Eng.releaseAt_tag {e : Eng} {sc : Nat} (h : e.MayRelease sc)
    (k : Option (Nat × Vector (BitVec 16) 4) → State → State) : e.releaseAt sc k = k (e.releaseTag sc) (e.released sc) := by
  unfold Eng.releaseAt Eng.releaseTag Eng.released
  split
  case isTrue hw => rw [if_pos (h hw)]
  case isFalse => rfl

/-- A put at a scope leaves its output, with the tag of a wide scope. -/
theorem Eng.putOut_effect {e : Eng} {k : Cmd} (len v fl : Nat) (hk : e.Performs k) (hr : e.MayRelease (cmdScope k)) :
    Effect (e.released (cmdScope k)) (e.putOut k len v fl) e.h e.q e.t (fun p => { p with
      out := segsOf e.aps (cutSegs k.w2.toNat len v), flags := p.flags ||| fl, tag := e.releaseTag (cmdScope k) }) := by
  have hteam : (e.released (cmdScope k)).team? e.h = some e.t := by
    rw [State.team?, (e.released_frame (cmdScope k)).1]
    exact hk.team
  rw [Eng.putOut, Eng.releaseAt_tag hr]
  exact Eng.performed_effect hteam (fun _ _ => rfl) rfl

theorem exec_clPut {e : Eng} {k : Cmd} (hk : e.Performs k)
    (hready : e.p.ready (readSegs e.aps [(k.w1.toNat, fld k 0 32)]) = true) :
    exec (.clPut k) e.s =
      .next ((e.putOut k (fld k 0 32) (e.p.bytes k.w1.toNat (fld k 0 32)) 0).drainOut e.h e.q) := by
  rw [show exec (.clPut k) e.s = execClPut k e.s from rfl, execClPut, engineWord_plain hk]
  simp only [hready, Bool.not_true, Bool.false_eq_true, if_false]

theorem exec_clPutq {e : Eng} {k : Cmd} {n : Nat} {r : List Nat × Nat} (hk : e.Performs k) (hn : n = fld k 0 32)
    (hready : e.p.ready (readSegs e.aps [(k.w1.toNat, 4 * n)]) = true)
    (hwire : r = wire (some (fdOf k.w3.toNat)) (elems 4 n (e.p.bytes k.w1.toNat (4 * n)))) :
    exec (.clPutq k) e.s = .next ((e.putOut k (4 * n) (ofElems 4 r.1) r.2).drainOut e.h e.q) := by
  subst hn hwire
  rw [show exec (.clPutq k) e.s = execClPutq k e.s from rfl, execClPutq, engineWord_plain hk]
  simp only [hready, Bool.not_true, Bool.false_eq_true, if_false]

/-- Settles O36: both put their bytes out at the scope of the command. -/
theorem collectivePuts : Obligations.CollectivePuts := by
  unfold Obligations.CollectivePuts
  refine ⟨fun e k hk hready hr => ⟨_, exec_clPut hk hready, ?_⟩,
    fun e k hk hready hr => ⟨_, exec_clPutq hk rfl hready rfl, Eng.putOut_effect _ _ _ hk hr⟩⟩
  simpa only [Nat.or_zero] using Eng.putOut_effect (fld k 0 32) (e.p.bytes k.w1.toNat (fld k 0 32)) 0 hk hr

end Sys2Proof.Machine
end

section
/-! A reduction or gather at a rank that holds every rank's values (O37). -/

namespace Sys2Proof.Machine

open Sys2Proof

/-! ## What a collective works on (R266–R269) -/

/-- The rank table that the command has read. -/
def Eng.rankTable (e : Eng) (d : ClDesc) : Nat := e.p.bytes d.table (8 * d.ranks)

def Eng.rankWords (e : Eng) (d : ClDesc) : List Nat := elems 8 d.ranks (e.rankTable d)

def Eng.ranks (e : Eng) (d : ClDesc) : List Rank := (e.rankWords d).map rankOf

/-- The descriptor of the values in memory. -/
def Eng.localFd (e : Eng) (c : Cmd) : Fd := fdOf (vget e.p.fds (fld c 32 4) 0).toNat

/-- This rank's own values, widened to FP32. -/
def Eng.ownValues (e : Eng) (c : Cmd) : List Nat :=
  (List.range (fld c 0 32)).map
    ((e.localFd c).widened (e.p.bytes c.w2.toNat ((e.localFd c).rowBytes (fld c 0 32))))

/-- The digest that the ranks of a collective compare (log entry 34). -/
def Eng.rankDigest (e : Eng) (c : Cmd) (d : ClDesc) : Nat :=
  let v := e.p.bytes c.w1.toNat 64
  Config.collectiveDigest (toBytes 64 (v - bits v 16 8 * 2 ^ 16) ++ toBytes (8 * d.ranks) (e.rankTable d))

/-- The other ranks. -/
def ClDesc.others (d : ClDesc) : List Nat := (List.range d.ranks).filter (· ≠ d.mine)

/-- The values of every rank. -/
def Eng.rankValues (e : Eng) (c : Cmd) (d : ClDesc) : List (List Nat) :=
  (List.range d.ranks).map fun q =>
    match e.s.arrived e.h q (e.ranks d) with
    | some x => if q = d.mine then e.ownValues c else elems 4 (fld c 0 32) (ofBytes x.data)
    | none => e.ownValues c

/-- The result of the command at this rank. -/
def Eng.collected (e : Eng) (c : Cmd) (d : ClDesc) : List Nat × Nat × List Nat :=
  ClDesc.collect c d (fld c 0 32) (e.localFd c) (e.rankValues c d)

/-- The command in progress with its result to be written. -/
def Eng.collectDone (e : Eng) (c : Cmd) (d : ClDesc) (p : Prog) : Prog :=
  let r := e.collected c d
  { p with
    out := segsOf e.aps (cutSegs c.w3.toNat (kindBytes (e.localFd c).kind * r.1.length) (ofElems (kindBytes (e.localFd c).kind) r.1)),
    flags := p.flags ||| r.2.1,
    noise := if c.cmd = 0x40 && bit d.stat 15 && d.op = 0 && ((e.ranks d).findIdx? (·.here)).getD 0 = d.mine then
      some (bits d.stat 0 8, noiseOf (e.rankValues c d) r.2.2) else none,
    reached := [] }

/-! ## Every rank has been sent this one's values, and its own are here -/

theorem Eng.length_ranks (e : Eng) (d : ClDesc) : (e.ranks d).length = d.ranks := by
  simp [Eng.ranks, Eng.rankWords, elems]

theorem ClDesc.mem_others {d : ClDesc} {q : Nat} : q ∈ d.others ↔ q < d.ranks ∧ q ≠ d.mine := by
  simp [ClDesc.others]

theorem foldl_stays {α β : Type} {f : α → β → α} {a : α} {l : List β} (h : ∀ b ∈ l, f a b = a) : l.foldl f a = a := by
  induction l with
  | nil => rfl
  | cons b l ih =>
    rw [List.foldl_cons, h b List.mem_cons_self]
    exact ih fun c hc => h c (List.mem_cons_of_mem b hc)

/-- A rank whose values have gone to every other rank sends nothing more. -/
theorem Eng.sendRanks_sent {e : Eng} {d : ClDesc} {ranks : List Rank} (bytes : List Byte) (digest : Nat)
    (he : e.s.eng? e.h e.q = some e) (hsent : ∀ q < ranks.length, q ≠ d.mine → e.p.reached.contains q = true) :
    e.sendRanks d ranks bytes digest = e.s := by
  refine foldl_stays fun p hp => ?_
  have hlt : p.2 < ranks.length := by simpa using List.snd_lt_of_mem_zipIdx hp
  have hskip : (decide (p.2 = d.mine) || e.p.reached.contains p.2) = true := by
    by_cases hm : p.2 = d.mine
    · simp [hm]
    · simp only [hsent p.2 hlt hm, Bool.or_true]
  simp only [he, hskip, if_true]

/-- Taking data out of the hold space changes that alone. -/
theorem State.takeData_frame (s : State) (h : Nat) (ranks : List Rank) (others : List Nat) :
    ∃ l, s.takeData h ranks others = { s with collectives := l } := by
  induction others generalizing s with
  | nil => exact ⟨s.collectives, rfl⟩
  | cons q others ih =>
    unfold State.takeData
    rw [List.foldl_cons]
    split
    · exact ih _
    · exact ih _

/-- The data of every other rank is here, in agreement with this rank's. -/
def Eng.Gathered (e : Eng) (c : Cmd) (d : ClDesc) : Prop :=
  ∀ q < d.ranks, q ≠ d.mine → e.p.reached.contains q = true ∧
    ∃ x, e.s.arrived e.h q (e.ranks d) = some x ∧ x.digest = e.rankDigest c d ∧ x.data.length = 4 * fld c 0 32

/-- The descriptor, the rank table and the values have been read and pass their checks (R266, R271). -/
structure Eng.CollectiveRead (e : Eng) (c : Cmd) (d : ClDesc) : Prop where
  aligned : c.w1.toNat % 64 = 0
  desc : clDescOf (e.p.bytes c.w1.toNat 64) = some d
  parts : c.cmd = 0x41 → fld c 0 32 % d.ranks = 0
  descHere : e.p.ready (readSegs e.aps [(c.w1.toNat, 64)]) = true
  dataHere : e.p.ready (readSegs e.aps [(d.table, 8 * d.ranks),
    (c.w2.toNat, (e.localFd c).rowBytes (fld c 0 32))]) = true
  ranks : ∀ x ∈ e.rankWords d, rankBad e.t.ctx x = false

theorem Prog.ready_append (p : Prog) (a b : List Seg) : p.ready (a ++ b) = (p.ready a && p.ready b) := List.all_append

/-- The command performs its result once it holds every rank's values. -/
theorem collectiveWord_performs {e : Eng} {c : Cmd} {d : ClDesc} (hk : e.Performs c) (hread : e.CollectiveRead c d)
    (hall : e.Gathered c d) : collectiveWord c e.s =
      .next ((e.performed (e.s.takeData e.h (e.ranks d) d.others) (e.collectDone c d)).drainOut e.h e.q) := by
  have hparts : (decide (c.cmd = 0x41) && decide (fld c 0 32 % d.ranks ≠ 0)) = false := by
    by_cases h : c.cmd = 0x41
    · simp [hread.parts h]
    · simp only [h, decide_false, Bool.false_and]
  have hranks : (e.rankWords d).findIdx? (rankBad e.t.ctx) = none := List.findIdx?_eq_none_iff.mpr hread.ranks
  have hsent : ∀ bytes digest, e.sendRanks d (e.ranks d) bytes digest = e.s := fun bytes digest =>
    Eng.sendRanks_sent bytes digest hk.eng fun q hq hm => (hall q (e.length_ranks d ▸ hq) hm).1
  have hhere : (d.others.all fun q => (e.s.arrived e.h q (e.ranks d)).isSome && e.p.reached.contains q) = true := by
    rw [List.all_eq_true]
    intro q hq
    obtain ⟨hlt, hm⟩ := ClDesc.mem_others.mp hq
    obtain ⟨hto, x, hx, -, -⟩ := hall q hlt hm
    rw [hx, hto]
    rfl
  unfold collectiveWord
  rw [engineWord_plain hk]
  have hdata := hread.dataHere
  unfold Eng.localFd at hdata
  unfold Eng.ranks Eng.rankWords Eng.rankTable at hhere hsent hranks
  unfold ClDesc.others at hhere
  simp only [hread.aligned, hread.descHere, hread.desc, hparts, Prog.ready_append, hdata, hranks, hsent, hk.eng,
    hhere, ne_eq, not_true_eq_false, Bool.not_true, Bool.false_eq_true, Bool.and_self, if_false]
  split
  · next q hq =>
    obtain ⟨hlt, hm⟩ := ClDesc.mem_others.mp (List.mem_of_find?_eq_some hq)
    obtain ⟨-, x, hx, hd, hl⟩ := hall q hlt hm
    unfold Eng.ranks Eng.rankWords Eng.rankTable at hx
    unfold Eng.rankDigest Eng.rankTable at hd
    have hbad := List.find?_some hq
    simp [hx, hd, hl] at hbad
  · rfl

/-- The result is the command's effect, the data that it held gone. -/
theorem collectiveWord_effect {e : Eng} {c : Cmd} {d : ClDesc} (hk : e.Performs c) (hread : e.CollectiveRead c d)
    (hall : e.Gathered c d) : ∃ s1, collectiveWord c e.s = .next (s1.drainOut e.h e.q) ∧
      Effect (e.s.takeData e.h (e.ranks d) d.others) s1 e.h e.q e.t (e.collectDone c d) := by
  obtain ⟨l, hl⟩ := e.s.takeData_frame e.h (e.ranks d) d.others
  refine ⟨_, collectiveWord_performs hk hread hall, Eng.performed_effect ?_ (fun _ _ => rfl) rfl⟩
  rw [hl]
  exact hk.team

/-- Settles O37: with every rank's values here, the three commands share one path to the result. -/
theorem collectiveReductions : Obligations.CollectiveReductions := by
  unfold Obligations.CollectiveReductions
  have hform : ∀ k ∈ ([Instr.clAred, Instr.clRsc, Instr.clAgat] : List (Cmd → Instr)), ∀ c s,
      exec (k c) s = collectiveWord c s := by
    simp only [List.forall_mem_cons, List.not_mem_nil, false_imp_iff, implies_true, and_true]
    exact ⟨fun _ _ => rfl, fun _ _ => rfl, fun _ _ => rfl⟩
  intro k hmem e c d hk n lfd v tab ranks row own digest others vs r haligned hdesc hparts hdescHere hdataHere hranks hall
  rw [hform k hmem]
  exact collectiveWord_effect hk ⟨haligned, hdesc, hparts, hdescHere, hdataHere, hranks⟩ hall

end Sys2Proof.Machine
end

section
/-! The matrix commands (O35): their products change windows of their team alone, and the command then works through its cell
operations. -/

namespace Sys2Proof.Machine

open Sys2Proof

/-! ## What products change -/

/-- A team that differs from t in the contents of its windows alone. -/
def Team.SameButWindows (t u : Team) : Prop :=
  ∃ w a c s d l, u = { t with wb := w, ab := a, cb := c, sp := s, dirty := d, spBusy := l }

theorem Team.SameButWindows.refl (t : Team) : t.SameButWindows t := ⟨t.wb, t.ab, t.cb, t.sp, t.dirty, t.spBusy, rfl⟩

theorem Team.SameButWindows.trans {t u v : Team} (h : t.SameButWindows u) (h' : u.SameButWindows v) : t.SameButWindows v := by
  obtain ⟨w, a, c, s, d, l, rfl⟩ := h
  obtain ⟨w, a, c, s, d, l, rfl⟩ := h'
  exact ⟨w, a, c, s, d, l, rfl⟩

theorem Team.SameButWindows.queue {t u : Team} (h : t.SameButWindows u) (q : Nat) : u.queue q = t.queue q := by
  obtain ⟨w, a, c, s, d, l, rfl⟩ := h; rfl

theorem Team.SameButWindows.joined {t u : Team} (h : t.SameButWindows u) : u.joined = t.joined := by
  obtain ⟨w, a, c, s, d, l, rfl⟩ := h; rfl

theorem Team.SameButWindows.slotNow {t u : Team} (h : t.SameButWindows u) : u.slotNow = t.slotNow := by
  obtain ⟨w, a, c, s, d, l, rfl⟩ := h; rfl

theorem Team.SameButWindows.core {t u : Team} (h : t.SameButWindows u) : u.core = t.core := by
  obtain ⟨w, a, c, s, d, l, rfl⟩ := h; rfl

theorem Team.SameButWindows.handle {t u : Team} (h : t.SameButWindows u) : u.handle = t.handle := by
  obtain ⟨w, a, c, s, d, l, rfl⟩ := h; rfl

theorem Team.writeWindow_windows (t : Team) (b : Buf) (off v mask n : Nat) : t.SameButWindows (t.writeWindow b off v mask n) := by
  obtain ⟨d, l, h⟩ := t.writeWindow_frame b off v mask n
  rw [h]
  cases b
  · exact ⟨_, _, _, _, _, _, rfl⟩
  · exact ⟨_, _, _, _, _, _, rfl⟩
  · exact ⟨_, _, _, _, _, _, rfl⟩
  · exact ⟨_, _, _, _, _, _, rfl⟩

theorem Team.setTileRow_windows (t : Team) (x : Tile) (fd : BitVec 64) (i v : Nat) : t.SameButWindows (t.setTileRow x fd i v) :=
  List.foldlRecOn _ _ (Team.SameButWindows.refl t) fun u hu _ _ => hu.trans (u.writeWindow_windows ..)

theorem Eng.product_windows (e : Eng) (c : Cmd) (p : Nat × Nat × Nat) (rows : List Nat) :
    e.t.SameButWindows (e.product c p rows).1.t :=
  List.foldlRecOn (motive := fun acc : Team × Nat => e.t.SameButWindows acc.1) _ _ (Team.SameButWindows.refl e.t)
    fun acc hacc _ _ => hacc.trans (acc.1.setTileRow_windows ..)

/-- The products of a matrix command in order: the engine, the flags and the cell operations. -/
def Eng.products (e : Eng) (k : Cmd) : Eng × Nat × Nat :=
  (e.productRows k).foldl (fun (acc : Eng × Nat × Nat) p =>
    let x := acc.1.product k p.1 p.2
    (x.1, acc.2.1 ||| x.2.1, acc.2.2 + x.2.2)) (e, 0, 0)

theorem Eng.products_windows (e : Eng) (k : Cmd) : e.t.SameButWindows (e.products k).1.t :=
  List.foldlRecOn (motive := fun acc : Eng × Nat × Nat => e.t.SameButWindows acc.1.t) _ _ (Team.SameButWindows.refl e.t)
    fun acc hacc p _ => hacc.trans (acc.1.product_windows k p.1 p.2)

theorem Eng.multiply_eq (e : Eng) (k : Cmd) : e.multiply k = e.performed (e.s.setTeam e.h (e.products k).1.t)
    fun p => { p with flags := p.flags ||| (e.products k).2.1, work := (e.products k).2.2 } := rfl

/-! ## Work in a cycle (R253) -/

theorem Team.setQueue_setQueue (t : Team) (q : Nat) (x y : EngQ) : (t.setQueue q x).setQueue q y = t.setQueue q y := by
  match q with
  | 0 => rfl
  | 1 => rfl
  | _ + 2 => rfl

@[simp] theorem Team.setQueue_joined (t : Team) (q : Nat) (x : EngQ) : (t.setQueue q x).joined = t.joined := by
  unfold Team.setQueue; split <;> rfl

/-- A command in progress after its banks' work in one cycle. -/
def Prog.worked (p : Prog) (joined : Nat) : Prog := { p with work := p.work - 1024 * joined }

theorem State.eng?_some {s : State} {h q : Nat} {t : Team} {p : Prog} (ht : s.team? h = some t)
    (hp : (t.queue q).prog = some p) : s.eng? h q = some ⟨s, h, q, t, t.queue q, p⟩ := by
  simp [State.eng?, ht, hp]

/-- The work of one cycle changes the command in progress alone. -/
theorem Eng.workOn_team {s : State} {h q : Nat} {t : Team} {p : Prog} (ht : s.team? h = some t)
    (hp : (t.queue q).prog = some p) : (⟨s, h, q, t, t.queue q, p⟩ : Eng).workOn =
      s.setTeam h (t.setQueue q { t.queue q with prog := some (p.worked t.joined) }) := by
  simp only [Eng.workOn, State.modProg, State.modTeam_some _ ht, hp]
  rfl

/-- The effect of a command with work, and the first cycle of it. -/
theorem Effect.workOn {b s : State} {h q : Nat} {t : Team} {p : Prog} {f : Prog → Prog} (he : Effect b s h q t f)
    (hp : (t.queue q).prog = some p) : ∃ e, s.eng? h q = some e ∧
      Effect b e.workOn h q t fun p => (f p).worked t.joined := by
  have ht := he.team
  rw [hp, Option.map_some] at ht
  refine ⟨_, State.eng?_some ht (by rw [Team.queue_setQueue_same]), ?_⟩
  rw [Eng.workOn_team ht (by rw [Team.queue_setQueue_same])]
  refine ⟨?_, fun g hg => (State.team?_setTeam_other _ _ _ _ hg).trans (he.others g hg), ?_⟩
  · rw [State.team?_setTeam_same, Team.setQueue_setQueue, Team.queue_setQueue_same, Team.setQueue_joined, hp]
    rfl
  · rw [he.rest]; rfl

/-! ## The end of a command (R93, R247) -/

/-- A command of its queue's head that is at its end completes next, whatever its effect made of its team's windows. -/
theorem Eng.Clear.ends_of_atEnd {e : Eng} {k : Cmd} {code : BitVec 8} {b s' : State} {t : Team} {f : Prog → Prog} {p : Prog}
    (hc : e.Clear k code) (hk : e.Performs k) (he : Effect b s' e.h e.q t f) (ht : e.t.SameButWindows t)
    (hp : p = { f e.p with phase := .performed, fetched := [] }) (hcmd : p.cmd = k) (hfo : hasFollowOn k = false)
    (hend : s'.atEnd (t.setQueue e.q { e.x with prog := some p }) e.q p = true) : e.Ends k s' := by
  have hqueue : t.queue e.q = e.x := (ht.queue e.q).trans hk.queue.symm
  have hteam : s'.team? e.h = some (t.setQueue e.q { e.x with prog := some p }) := by
    rw [he.team, hqueue, hk.prog, Option.map_some, hp]
  obtain ⟨s2, hexec, hs2⟩ := exec_engineCmdComplete hteam (by rw [Team.queue_setQueue_same]) hend (hcmd ▸ hfo)
  obtain ⟨-, -, hchain, -⟩ := hc.queue
  refine ⟨s2, _, hexec, hs2, ?_⟩
  rw [Team.completed_queue, Team.completed_slotNow, Team.queue_setQueue_same, EngQ.advance_head _ (by exact hchain), hcmd]
  exact ⟨rfl, rfl, rfl, by simp [ht.slotNow, signalAdds]⟩

/-- A matrix command is no copy, reducing copy, `qfence` or `seal`. -/
theorem matrix_atEnd {s : State} {t : Team} {q : Nat} {p : Prog} (hcode : p.cmd.cmd = 0x20 ∨ p.cmd.cmd = 0x21) (hq : q < 3)
    (hphase : p.phase = .performed) (hwork : p.work = 0)
    (hleft : p.out = [] ∧ p.reds = [] ∧ p.asked = [] ∧ p.awaits = 0) (hfix : (t.queue q).fixups = [])
    (hpath : ∀ w ∈ (s.core t.core).path, w.h = t.handle → w.k < 5 ∨ 8 ≤ w.k) :
    s.atEnd t q p = true ∧ hasFollowOn p.cmd = false := by
  obtain ⟨hout, hreds, hasked, hawaits⟩ := hleft
  have hfo : hasFollowOn p.cmd = false := by
    rcases hcode with h | h <;> simp [hasFollowOn, h]
  have hred : p.cmd.cmd ≠ 6#8 := by
    rcases hcode with h | h <;> simp [h]
  have hseal : p.cmd.cmd ≠ 0xF3 := by
    rcases hcode with h | h <;> simp [h]
  have hw := State.written_of_path (t := t) hq hseal hpath
  exact ⟨by simp [State.atEnd, hphase, hwork, hout, hreds, hasked, hawaits, hred, hfix, hw, hfo], hfo⟩

/-! ## The matrix commands -/

theorem matrixWord_performs {e : Eng} {k : Cmd} (hk : e.Performs k) (htiles : e.TilesPresent (tileUse k).reads)
    (hout : e.p.out = []) : ∃ s', matrixWord k e.s = .next s' ∧ Effect e.s s' e.h e.q (e.products k).1.t
      (fun p => { p with flags := p.flags ||| (e.products k).2.1, work := (e.products k).2.2 - 1024 * e.t.joined }) := by
  have hwin := e.products_windows k
  have hp : ((e.products k).1.t.queue e.q).prog = some e.p := by rw [hwin.queue, ← hk.queue, hk.prog]
  have heff : Effect e.s (e.multiply k) e.h e.q (e.products k).1.t
      fun p => { p with flags := p.flags ||| (e.products k).2.1, work := (e.products k).2.2 } := by
    rw [Eng.multiply_eq]
    exact Eng.performed_effect TeamIs.set.team TeamIs.set.others TeamIs.set.rest
  obtain ⟨e', heng, hwork⟩ := heff.workOn hp
  refine ⟨e'.workOn, ?_, hwin.joined ▸ hwork⟩
  unfold matrixWord
  rw [engineWord_performs hk, Eng.withTiles_present htiles, drainOut_of_performed heff hp hout]
  simp only [heng]

/-- A command that needs no more than its banks do in its first cycle completes next. -/
theorem matrix_ends {e : Eng} {k : Cmd} {code : BitVec 8} {s' : State} {fl work : Nat} {t : Team} (hk : e.Performs k)
    (hc : e.Clear k code) (hcode : code = 0x20 ∨ code = 0x21) (ht : e.t.SameButWindows t) (hwork : work = 0)
    (he : Effect e.s s' e.h e.q t (fun p => { p with flags := p.flags ||| fl, work := work })) :
    e.Ends k s' := by
  obtain ⟨hq, hhandle, -, hfix⟩ := hc.queue
  obtain ⟨hout, hreds, hasked, hawaits, -, -⟩ := hc.left
  obtain ⟨hatEnd, hfo⟩ := matrix_atEnd (s := s') (q := e.q)
    (t := t.setQueue e.q { e.x with prog := some { e.p with
      flags := e.p.flags ||| fl, work := work, phase := .performed, fetched := [] } })
    (p := { e.p with flags := e.p.flags ||| fl, work := work, phase := .performed, fetched := [] })
    (by rw [hk.cmd, hc.code]; exact hcode) hq rfl hwork ⟨hout, hreds, hasked, hawaits⟩
    (by rw [Team.queue_setQueue_same]; exact hfix) (by
      rw [Team.setQueue_core, Team.setQueue_handle, ht.core, ht.handle, hhandle, he.rest]
      exact hc.path)
  exact hc.ends_of_atEnd hk he ht rfl hk.cmd (hk.cmd ▸ hfo) hatEnd

/-- While the command is in progress each joined bank does its cell operations. -/
theorem matrixWord_works {s : State} {h q : Nat} {t : Team} {p : Prog} (hcur : s.cur = .engine h q)
    (ht : s.team? h = some t) (hp : (t.queue q).prog = some p) (hphase : p.phase = .performed) (hout : p.out = []) :
    matrixWord p.cmd s = .next (s.setTeam h (t.setQueue q { t.queue q with prog := some (p.worked t.joined) })) := by
  have heng := State.eng?_some ht hp
  have hdrain : s.drainOut h q = s := by simp [State.drainOut, heng, hout]
  rw [← Eng.workOn_team ht hp]
  unfold matrixWord engineWord
  simp [hcur, ht, heng, hphase, hdrain]

/-- Settles O35: both commands make their products, and work through their cell operations cycle by cycle. -/
theorem matrixCommands : Obligations.MatrixCommands := by
  unfold Obligations.MatrixCommands
  have hform : ∀ c ∈ ([(Instr.mm, 0x20), (Instr.mmG, 0x21)] : List ((Cmd → Instr) × BitVec 8)),
      (∀ k s, exec (c.1 k) s = matrixWord k s) ∧ (c.2 = 0x20 ∨ c.2 = 0x21) := by
    simp only [List.forall_mem_cons, List.not_mem_nil, false_imp_iff, implies_true, and_true]
    exact ⟨⟨fun _ _ => rfl, .inl trivial⟩, fun _ _ => rfl, .inr trivial⟩
  intro c hmem
  obtain ⟨hexec, hcode⟩ := hform c hmem
  refine ⟨fun e k hk htiles hout => ?_, fun s h q t p hcur ht hp hphase hout => ?_⟩
  · obtain ⟨s', hs', heff⟩ := matrixWord_performs hk htiles hout
    exact ⟨s', (hexec k e.s).trans hs', heff, fun hc hle =>
      matrix_ends hk hc hcode (e.products_windows k) (Nat.sub_eq_zero_of_le hle) heff⟩
  · exact ⟨_, (hexec p.cmd s).trans (matrixWord_works hcur ht hp hphase hout), TeamIs.set⟩

end Sys2Proof.Machine
end

section
/-! What requests to the fault path and to peers leave of the Sextant unit (O51): the unit's record of every context. -/

namespace Sys2Proof.Machine

open Sys2Proof

/-- From s to s' no context's Sextant unit changed. -/
structure State.KeepsSextants (s s' : State) : Prop where
  sextant : ∀ ctx, (s'.ctx? ctx).map Context.sextant = (s.ctx? ctx).map Context.sextant

theorem State.KeepsSextants.refl (s : State) : s.KeepsSextants s := ⟨fun _ => rfl⟩

theorem State.KeepsSextants.trans {s u v : State} (h : s.KeepsSextants u) (h' : u.KeepsSextants v) : s.KeepsSextants v :=
  ⟨fun ctx => (h'.sextant ctx).trans (h.sextant ctx)⟩

theorem State.KeepsSextants.of_contexts {s u : State} (h : u.contexts = s.contexts) : s.KeepsSextants u :=
  ⟨fun ctx => by rw [State.ctx?, State.ctx?, h]⟩

theorem State.setCtx_keepsSextants {s : State} {ctx : Nat} {c d : Context} (hc : s.ctx? ctx = some c)
    (hd : d.sextant = c.sextant) : s.KeepsSextants (s.setCtx ctx d) := by
  refine ⟨fun g => ?_⟩
  by_cases hg : g = ctx
  · subst hg
    rw [State.ctx?_setCtx_same, hc, Option.map_some, Option.map_some, hd]
  · rw [State.ctx?_setCtx_other _ _ _ _ hg]

theorem State.KeepsSextants.of_tput {s u : State} {ctx : Nat} {c d : Context} (hu : u.contexts = tput s.contexts ctx d)
    (hc : s.ctx? ctx = some c) (hd : d.sextant = c.sextant) : s.KeepsSextants u :=
  (State.setCtx_keepsSextants hc hd).trans (.of_contexts hu)

theorem State.modCtx_keepsSextants (s : State) (ctx : Nat) {f : Context → Context} (hf : ∀ c, (f c).sextant = c.sextant) :
    s.KeepsSextants (s.modCtx ctx f) := by
  unfold State.modCtx
  split
  · next c hc => exact State.setCtx_keepsSextants hc (hf c)
  · exact .refl s

/-! ## Translation and the fault path -/

/-- A choice that is made or not. -/
theorem State.chooseUnless_keepsSextants (s : State) (b : Bool) : s.KeepsSextants (if b then (false, s) else s.choose).2 := by
  split
  · exact .refl s
  · exact .of_contexts rfl

theorem State.lookup_keepsSextants (s : State) (ctx die va : Nat) : s.KeepsSextants (s.lookup ctx die va).2 := by
  unfold State.lookup
  dsimp only
  split
  · exact .refl s
  · split
    · exact s.chooseUnless_keepsSextants _
    · split
      · dsimp only
        split
        · exact s.chooseUnless_keepsSextants _
        · exact (s.chooseUnless_keepsSextants _).trans (State.modCtx_keepsSextants _ _ fun _ => rfl)
      · exact s.chooseUnless_keepsSextants _

theorem State.translate_keepsSextants (s : State) (ctx die va len : Nat) (acc : Acc) :
    s.KeepsSextants (s.translate ctx die va len acc).2 := by
  have h := s.lookup_keepsSextants ctx die va
  unfold State.translate
  dsimp only
  split
  · exact h
  · exact h
  · exact h

theorem State.joinFault_keepsSextants (s : State) (ctx die kind reason : Nat) (acc : Acc) (va : Nat) (w : Who) :
    s.KeepsSextants (s.joinFault ctx die kind reason acc va w).2 := by
  unfold State.joinFault
  split
  · exact .refl s
  · next c hc =>
    dsimp only
    split
    · exact .refl s
    · split
      · split
        · exact State.setCtx_keepsSextants hc (by rfl)
        · exact .refl s
      · split
        · exact .refl s
        · exact .of_tput (d := { c with
            nextSerial := c.nextSerial + 1, faults := c.faults ++ [{
              serial := c.nextSerial.toNat, vpn := bits va 12 44, kind := kind, reason := reason, dies := [die] }] }) rfl hc rfl

theorem State.faultAt_keepsSextants (s : State) (ctx die va : Nat) (x : Xlat) (acc : Acc) (w : Who) :
    s.KeepsSextants (s.faultAt ctx die va x acc w).2 := by
  unfold State.faultAt
  split
  · next c r =>
    have h := s.joinFault_keepsSextants ctx die c r acc va w
    dsimp only
    split
    · exact h
    · exact h
    · exact h
  · exact .refl s
  · exact .refl s

theorem State.resolve_keepsSextants (s : State) (ctx die : Nat) (aps : List Aperture) (va len : Nat) (acc : Acc) (w : Who) :
    s.KeepsSextants (s.resolve ctx die aps va len acc w).2 := by
  unfold State.resolve
  split
  · exact .refl s
  · split
    · exact .refl s
    · exact .refl s
  · dsimp only
    have h := s.translate_keepsSextants ctx die va (min len (4096 - va % 4096)) acc
    split
    · exact h
    · exact h.trans (State.faultAt_keepsSextants ..)

/-! ## Messages to peers -/

theorem State.putCourse_keepsSextants (s : State) (ctx peer : Nat) (e : CourseEntry) :
    s.KeepsSextants (s.putCourse ctx peer e) := by
  have h : s.KeepsSextants (s.modCtx ctx fun c => { c with courses := tput c.courses peer e }) :=
    s.modCtx_keepsSextants ctx fun _ => rfl
  unfold State.putCourse
  dsimp only
  split
  · exact h.trans (.of_contexts rfl)
  · exact h

theorem State.courseUnread_keepsSextants (s : State) (ctx peer : Nat) : s.KeepsSextants (s.courseUnread ctx peer) :=
  s.putCourse_keepsSextants ctx peer _

theorem State.failCourse_keepsSextants (s : State) (ctx peer i cause hop : Nat) :
    s.KeepsSextants (s.failCourse ctx peer i cause hop) := by
  unfold State.failCourse
  split
  · exact .refl s
  · dsimp only
    split
    · exact s.putCourse_keepsSextants ctx peer _
    · exact s.modCtx_keepsSextants ctx fun _ => rfl

theorem State.pickCourse_keepsSextants (s : State) (ctx peer : Nat) (line : Option Nat) (fuel : Nat) :
    s.KeepsSextants (s.pickCourse ctx peer line fuel).2 := by
  induction fuel generalizing s with
  | zero => exact .refl s
  | succ fuel ih =>
    unfold State.pickCourse
    split
    · split
      · exact .refl s
      · dsimp only
        split
        · exact .refl s
        · split
          · exact .refl s
          · exact (s.failCourse_keepsSextants ..).trans (ih _)
    · exact .refl s

theorem State.addTraffic_contexts (s : State) (die i n : Nat) : (s.addTraffic die i n).contexts = s.contexts := by
  unfold State.addTraffic
  dsimp only
  split
  · rfl
  · rfl

theorem State.modTeam_contexts (s : State) (h : Nat) (f : Team → Team) : (s.modTeam h f).contexts = s.contexts := by
  unfold State.modTeam
  split
  · rfl
  · rfl

theorem State.countSent_contexts (s : State) (o : Origin) (die n : Nat) : (s.countSent o die n).contexts = s.contexts := by
  unfold State.countSent
  dsimp only
  split
  · rw [State.modTeam_contexts, State.addTraffic_contexts]
  · exact State.addTraffic_contexts ..

theorem State.flowFull_contexts (s : State) (ctx peer flow : Nat) : (s.flowFull ctx peer flow).2.contexts = s.contexts := by
  unfold State.flowFull
  split
  · rfl
  · rfl

theorem State.sendKnown_keepsSextants (s : State) (ctx peer hd die : Nat) (o : Origin) (va : Nat) (pay : Payload) :
    s.KeepsSextants (s.sendKnown ctx peer hd die o va pay).2 := by
  have hpick := s.pickCourse_keepsSextants ctx peer (payloadLine pay) 5
  unfold State.sendKnown
  dsimp only
  split
  · have hflow := fun (u : State) f => State.KeepsSextants.of_contexts (u.flowFull_contexts ctx peer f)
    split
    · exact hpick.trans (hflow _ _)
    · exact (hpick.trans (hflow _ _)).trans (.of_contexts (State.countSent_contexts ..))
  · exact hpick

theorem State.readCourse_keepsSextants (s : State) (ctx peer fuel : Nat) :
    s.KeepsSextants (s.readCourse ctx peer fuel).2 := by
  induction fuel generalizing s peer with
  | zero => exact .refl s
  | succ fuel ih =>
    unfold State.readCourse
    split
    · exact .refl s
    · next c hc =>
      have hres := s.resolve_keepsSextants ctx 0 [] (c.crstab + 64 * peer) 64 .read { src := 7 }
      dsimp only
      split
      · split
        · exact hres.trans (State.courseUnread_keepsSextants ..)
        · exact hres.trans (State.putCourse_keepsSextants ..)
      · exact hres.trans (State.putCourse_keepsSextants _ ctx peer (courseEntryOf 0))
      · next p pa hd ro n heq =>
        split
        · exact hres.trans (ih _ _)
        · split
          · exact hres
          · have hsent := hres.trans (State.sendKnown_keepsSextants _ ctx p hd 0 (.course ctx peer) (c.crstab + 64 * peer) (.read pa 64 ro))
            split
            · next heq =>
              rw [heq] at hsent
              exact hsent.trans (State.modCtx_keepsSextants _ _ fun _ => rfl)
            · next heq =>
              rw [heq] at hsent
              exact hsent
            · next heq =>
              rw [heq] at hsent
              exact hsent.trans (State.courseUnread_keepsSextants ..)
      · exact hres.trans (State.courseUnread_keepsSextants ..)
      · exact hres.trans (State.courseUnread_keepsSextants ..)
      · exact hres.trans (State.courseUnread_keepsSextants ..)
      · exact hres.trans (State.modCtx_keepsSextants _ _ fun _ => rfl)
      · exact hres

theorem State.sendPeer_keepsSextants (s : State) (ctx peer hd die : Nat) (o : Origin) (va : Nat) (pay : Payload) :
    s.KeepsSextants (s.sendPeer ctx peer hd die o va pay).2 := by
  unfold State.sendPeer
  dsimp only
  cases (s.ctx? ctx).bind fun c => c.course? peer with
  | some e =>
    dsimp only
    split
    · exact s.sendKnown_keepsSextants ..
    · exact .refl s
  | none =>
    have hread := s.readCourse_keepsSextants ctx peer 3
    dsimp only
    split
    · exact hread.trans (State.sendKnown_keepsSextants ..)
    · exact hread

/-! ## The unit's writes (R493, R494) -/

theorem State.sxFlag_keepsSextants (s : State) (ctx : Nat) (c : Context) (n : Nat) (on : Bool) :
    s.KeepsSextants (s.sxFlag ctx c n on).2 := by
  have hres := s.resolve_keepsSextants ctx 0 [] (canon (c.sxcb + 4)) 4 .atomic { src := 6 }
  unfold State.sxFlag
  dsimp only
  split
  · exact .refl s
  · split
    · exact hres
    · exact hres
    · exact hres
    · exact hres
    · split
      · exact hres
      · exact hres.trans (.of_contexts rfl)
    · split
      · split
        · exact hres
        · exact hres
        · exact hres
      · split
        · exact hres.trans ((State.sendPeer_keepsSextants ..).trans (State.modCtx_keepsSextants _ _ fun _ => rfl))
        · exact hres.trans (State.sendPeer_keepsSextants ..)
        · exact hres.trans (State.sendPeer_keepsSextants ..)
    · exact hres


end Sys2Proof.Machine
end

section
/-! Step requests of the Sextant unit, its rules, and ordered reductions (O51). -/

namespace Sys2Proof.Machine

open Sys2Proof

/-! ## What a flag's write leaves of the unit (R366, R376, R377) -/

/-- A unit's record that differs from x in its writes and what they wait for alone. -/
def Sextant.SameButWrites (x y : Sextant) : Prop := ∃ l w, y = { x with writes := l, wait := w }

theorem Sextant.SameButWrites.refl (x : Sextant) : x.SameButWrites x := ⟨x.writes, x.wait, rfl⟩

theorem Sextant.SameButWrites.trans {x y z : Sextant} (h : x.SameButWrites y) (h' : y.SameButWrites z) : x.SameButWrites z := by
  obtain ⟨l, w, rfl⟩ := h
  obtain ⟨l, w, rfl⟩ := h'
  exact ⟨l, w, rfl⟩

theorem State.KeepsSextants.ctx? {s u : State} {ctx : Nat} {c : Context} (h : s.KeepsSextants u) (hc : s.ctx? ctx = some c) :
    ∃ c', u.ctx? ctx = some c' ∧ c'.sextant = c.sextant := by
  have hs := h.sextant ctx
  rw [hc, Option.map_some] at hs
  exact Option.map_eq_some_iff.mp hs

theorem State.modSx_some {s : State} {ctx : Nat} {c : Context} (f : Sextant → Sextant) (hc : s.ctx? ctx = some c) :
    s.modSx ctx f = s.setCtx ctx { c with sextant := f c.sextant } := State.modCtx_some _ hc

/-- A unit's record once the setting of flag n, the first of its writes, has been made or refused; a refused one leaves the
setting of ERR. -/
def Sextant.flagSet (x : Sextant) (n : Nat) (refused : Bool) : Sextant :=
  { x with
    writes := if refused && SxWrite.flag n true ≠ .flag 0 true then .flag 0 true :: x.writes.drop 1 else x.writes.drop 1,
    wait := { x.wait with denied := [] } }

theorem State.sxWritten_set (s : State) (ctx n : Nat) (refused : Bool) :
    s.sxWritten ctx (.flag n true) refused = (s.dropUnitOps ctx 6).modSx ctx (·.flagSet n refused) := by
  match n with
  | 0 => rfl
  | 1 => rfl
  | _ + 2 => rfl

theorem State.ctx?_sxWritten_set {s : State} {ctx : Nat} {c : Context} (n : Nat) (refused : Bool) (hc : s.ctx? ctx = some c) :
    ∃ c', (s.sxWritten ctx (.flag n true) refused).ctx? ctx = some c' ∧ c'.sextant = c.sextant.flagSet n refused := by
  rw [State.sxWritten_set, State.dropUnitOps, State.modCtx_some _ hc, State.modSx_some _ (State.ctx?_setCtx_same ..)]
  exact ⟨_, State.ctx?_setCtx_same .., rfl⟩

/-- A list of flags to be set. -/
def setsFlags (l : List SxWrite) : Prop := ∀ w ∈ l, ∃ n, w = .flag n true

theorem setsFlags.flagSet {x : Sextant} (n : Nat) (refused : Bool) (h : setsFlags x.writes) :
    setsFlags (x.flagSet n refused).writes := by
  have hrest : setsFlags (x.writes.drop 1) := fun v hv => h v (List.mem_of_mem_drop hv)
  unfold Sextant.flagSet
  dsimp only
  split
  · exact List.forall_mem_cons.mpr ⟨⟨0, rfl⟩, hrest⟩
  · exact hrest

/-- Making a list of flag settings, as far as it can be made, leaves the rest of the unit. -/
theorem State.sxWrites_set {s : State} {ctx : Nat} {c : Context} (fuel : Nat) (hc : s.ctx? ctx = some c)
    (hw : setsFlags c.sextant.writes) :
    ∃ c', (s.sxWrites ctx fuel).ctx? ctx = some c' ∧ c.sextant.SameButWrites c'.sextant := by
  induction fuel generalizing s c with
  | zero => exact ⟨c, hc, .refl _⟩
  | succ fuel ih =>
    unfold State.sxWrites
    simp only [hc]
    split
    · exact ⟨c, hc, .refl _⟩
    · next w rest hlist =>
      obtain ⟨n, rfl⟩ := hw w (hlist ▸ List.mem_cons_self)
      split
      · exact ⟨c, hc, .refl _⟩
      · obtain ⟨c1, hc1, hsx⟩ := (s.sxFlag_keepsSextants ctx c n true).ctx? hc
        have hgo : ∀ refused, ∃ c', (((s.sxFlag ctx c n true).2.sxWritten ctx (.flag n true) refused).sxWrites ctx fuel).ctx? ctx =
            some c' ∧ c.sextant.SameButWrites c'.sextant := by
          intro refused
          obtain ⟨c2, hc2, hset⟩ := State.ctx?_sxWritten_set n refused hc1
          rw [hsx] at hset
          obtain ⟨c', hc', hsame⟩ := ih hc2 (hset ▸ hw.flagSet n refused)
          exact ⟨c', hc', Sextant.SameButWrites.trans ⟨_, _, hset⟩ hsame⟩
        dsimp only
        split
        · exact hgo false
        · exact hgo true
        · exact ⟨c1, hc1, hsx ▸ .refl _⟩
        · rw [State.modSx_some _ hc1]
          exact ⟨_, State.ctx?_setCtx_same .., _, _, by rw [hsx]⟩

/-- Setting a flag leaves the rest of a unit that has no writes left. -/
theorem State.sxPut_set {s : State} {ctx : Nat} {c : Context} (n : Nat) (hc : s.ctx? ctx = some c)
    (hw : c.sextant.writes = []) :
    ∃ c', (s.sxPut ctx [.flag n true]).ctx? ctx = some c' ∧ c.sextant.SameButWrites c'.sextant := by
  unfold State.sxPut
  rw [State.modSx_some _ hc, hw]
  obtain ⟨c', hc', l, w, hsame⟩ := State.sxWrites_set (2 * [SxWrite.flag n true].length + 4)
    (State.ctx?_setCtx_same s ctx { c with sextant := { c.sextant with writes := [.flag n true] } })
    (List.forall_mem_singleton.mpr ⟨n, rfl⟩)
  exact ⟨c', hc', l, w, hsame⟩

/-- A request of 0 to 3 is pending from now when none is; any other changes nothing of the step. -/
theorem sextantStepRequest_pends {s : State} {ctx : Nat} {v : Word} {c : Context} (hc : s.ctx? ctx = some c)
    (hw : c.sextant.writes = []) :
    ∃ s' c', exec (.sextantStepRequest ctx v) s = .next s' ∧ s'.ctx? ctx = some c' ∧ c'.sextant.entries = c.sextant.entries ∧
      c'.sextant.gen = c.sextant.gen ∧ c'.sextant.pend = (if v.toNat < 4 ∧ c.sextant.pend = none
        then some { eval := v.getLsbD 0, reload := v.getLsbD 1 } else c.sextant.pend) := by
  rw [show exec (.sextantStepRequest ctx v) s = execSextantStepRequest ctx v s from rfl, execSextantStepRequest]
  simp only [hc]
  by_cases hv : v.toNat < 4 ∧ c.sextant.pend = none
  · have hgood : (decide (v.toNat / 4 ≠ 0) || c.sextant.pend.isSome) = false := by
      simp [hv.2, Nat.div_eq_of_lt hv.1]
    rw [hgood, if_pos hv, if_neg Bool.false_ne_true, State.modSx_some _ hc]
    obtain ⟨c', hc', l, w, hsame⟩ := State.sxPut_set 1 (State.ctx?_setCtx_same s ctx
      { c with sextant := { c.sextant with pend := some { eval := v.getLsbD 0, reload := v.getLsbD 1 } } }) hw
    exact ⟨_, c', rfl, hc', by rw [hsame], by rw [hsame], by rw [hsame]⟩
  · have hbad : (decide (v.toNat / 4 ≠ 0) || c.sextant.pend.isSome) = true := by
      rw [Bool.or_eq_true, decide_eq_true_eq, Option.isSome_iff_ne_none]
      by_cases hlt : v.toNat < 4
      · exact .inr fun h => hv ⟨hlt, h⟩
      · exact .inl (by omega)
    rw [hbad, if_neg hv, if_pos rfl]
    obtain ⟨c', hc', l, w, hsame⟩ := State.sxPut_set 0 hc hw
    exact ⟨_, c', rfl, hc', by rw [hsame], by rw [hsame], by rw [hsame]⟩

/-! ## Steps and rules (R377–R379) -/

theorem State.sxWrites_nil {s : State} {ctx : Nat} {c : Context} (fuel : Nat) (hc : s.ctx? ctx = some c)
    (hw : c.sextant.writes = []) : s.sxWrites ctx fuel = s := by
  cases fuel with
  | zero => rfl
  | succ fuel => simp only [State.sxWrites, hc, hw]

/-- A due step without a reload applies the rules to the unit's own copy. -/
theorem sextantStepApply_due {s : State} {ctx : Nat} {c : Context} {r : StepReq} (hc : s.ctx? ctx = some c)
    (hw : c.sextant.writes = []) (hp : c.sextant.pend = some r) (happ : c.sextant.applied = false) (hst : c.st = .running)
    (hser : c.sextant.wait.serial = none) (hre : r.reload = false)
    (hover : ∀ e ∈ s.launches, e.2.ctx = ctx → e.2.afterStep = false → e.2.fate ≠ .running) :
    exec (.sextantStepApply ctx) s = .next (s.takeStep ctx c r (some c.sextant)) := by
  have hearlier : (s.launches.any fun e => e.2.ctx = ctx && !e.2.afterStep && e.2.fate = .running) = false := by
    rw [List.any_eq_false]
    intro e he hrun
    simp only [Bool.and_eq_true, decide_eq_true_eq, Bool.not_eq_true'] at hrun
    obtain ⟨⟨hctx, hafter⟩, hfate⟩ := hrun
    exact hover e he hctx hafter hfate
  rw [show exec (.sextantStepApply ctx) s = execSextantStepApply ctx s from rfl, execSextantStepApply, State.sxWrites_nil _ hc hw]
  simp only [hc, hp, happ, hw, hearlier, hst, hser, hre]
  rfl

/-- One turn of the rules: with room CURR falls by one, or rises by one below NR; else the entry does not move. -/
theorem SxEntry.turn_cases (e : SxEntry) (room : Bool) :
    ((e.turn room).2 = true ∧ room = true ∧ (e.turn room).1.curr + 1 = e.curr) ∨
    ((e.turn room).2 = true ∧ room = true ∧ e.curr < e.nr ∧ (e.turn room).1.curr = e.curr + 1) ∨
    ((e.turn room).2 = false ∧ (e.turn room).1.curr = e.curr) := by
  unfold SxEntry.turn
  dsimp only
  split
  · split
    · next hdown =>
      rw [Bool.and_eq_true, decide_eq_true_eq] at hdown
      exact .inl ⟨rfl, hdown.2, Nat.sub_add_cancel hdown.1⟩
    · exact .inr (.inr ⟨rfl, rfl⟩)
  · split
    · split
      · exact .inr (.inr ⟨rfl, rfl⟩)
      · split
        · next hup =>
          simp only [Bool.and_eq_true, decide_eq_true_eq] at hup
          obtain ⟨⟨-, hlt⟩, hroom⟩ := hup
          exact .inr (.inl ⟨rfl, hroom, hlt, rfl⟩)
        · exact .inr (.inr ⟨rfl, rfl⟩)
    · exact .inr (.inr ⟨rfl, rfl⟩)

/-- CURR moves by one at most, and within 0 and NR. -/
theorem SxEntry.turn_curr (e : SxEntry) (room : Bool) (h : e.curr ≤ e.nr) :
    ((e.turn room).2 = true → (e.turn room).1.curr + 1 = e.curr ∨ (e.turn room).1.curr = e.curr + 1) ∧
    ((e.turn room).2 = false → (e.turn room).1.curr = e.curr) ∧ (e.turn room).1.curr ≤ e.nr ∧
    (room = false → (e.turn room).2 = false) := by
  rcases e.turn_cases room with ⟨hm, hr, hc⟩ | ⟨hm, hr, hlt, hc⟩ | ⟨hm, hc⟩
  · exact ⟨fun _ => .inl hc, by simp [hm], by omega, by simp [hr]⟩
  · exact ⟨fun _ => .inr hc, by simp [hm], by omega, by simp [hr]⟩
  · exact ⟨by simp [hm], fun _ => hc, by omega, fun _ => hm⟩

theorem Sextant.advance_gen (x : Sextant) (moved : List Nat) :
    (x.advance moved).gen = if moved = [] then x.gen else x.gen + 1 := by
  cases moved with
  | nil => rfl
  | cons i l => rfl

/-! ## Ordered reductions (R440–R442) -/

theorem State.openRegion_some {s : State} {m : RedMsg} {r : RedRegion} (h : s.redRegion m = some r) :
    s.openRegion m = some (r, s) := by
  simp [State.openRegion, h]

/-- What an update does at its M-die, whose entry of the region is r: applied in its SEQ, held when it is early, refused
when it is past. -/
theorem exec_redUpdateArrive {s : State} {die n pa : Nat} {m : RedMsg} {r : RedRegion} (hm : tget s.redMsgs n = some m)
    (hpa : m.pa = some pa) (hdie : m.mdie = die) (hfresh : m.refusedAt = none) (hr : s.redRegion m = some r) :
    exec (.redUpdateArrive die n) s = .next (
      if (m.seq - r.exp).toNat = 0 then
        if m.back.isNone && s.pathTouches (handleCore m.h) pa (kindBytes (fdOf m.fd.toNat).kind) then s else s.applyUpdate n m pa
      else if (m.seq - r.exp).toNat < 32768 then s.holdRed n m
      else (s.dropRed n).redAnswer m (.fault 0x34 0)) := by
  rw [show exec (.redUpdateArrive die n) s = execRedUpdateArrive die n s from rfl, execRedUpdateArrive]
  simp only [hm, hpa, State.openRegion_some hr, hdie, hfresh]
  split
  · next h => simp at h
  · split
    · rfl
    · split
      · rfl
      · rfl

theorem exec_redMarkerArrive {s : State} {die n : Nat} {m : RedMsg} {r : RedRegion} (hm : tget s.redMsgs n = some m)
    (hpa : m.pa = none) (hdie : m.mdie = die) (hfresh : m.refusedAt = none) (hr : s.redRegion m = some r) :
    exec (.redMarkerArrive die n) s = .next (
      if (m.seq - r.exp).toNat = 0 then if s.updatesLeft m then s else (s.dropRed n).advanceRegion r
      else if (m.seq - r.exp).toNat < 32768 then s.holdRed n m
      else s.dropRed n) := by
  rw [show exec (.redMarkerArrive die n) s = execRedMarkerArrive die n s from rfl, execRedMarkerArrive]
  simp only [hm, hpa, State.openRegion_some hr, hdie, hfresh]
  split
  · next h => simp at h
  · split
    · rfl
    · split
      · rfl
      · rfl

theorem exec_redRetry {s : State} {die n : Nat} {m : RedMsg} (hm : tget s.redMsgs n = some m) (hdie : m.mdie = die)
    (href : m.refusedAt ≠ none) :
    exec (.redRetry die n) s = .next { s with redMsgs := tput s.redMsgs n { m with refusedAt := none } } := by
  rw [show exec (.redRetry die n) s = execRedRetry die n s from rfl, execRedRetry]
  simp only [hm, hdie, Option.isSome_iff_ne_none.mpr href, decide_true, Bool.and_self, if_true]
  rfl

/-! ### An update in its SEQ -/

/-- The bytes of a number. -/
theorem ofBytes_toBytes (n x : Nat) : ofBytes (toBytes n x) = x % 2 ^ (8 * n) := by
  induction n generalizing x with
  | zero => simp [toBytes, ofBytes, Nat.mod_one]
  | succ n ih =>
    have hcons : toBytes (n + 1) x = BitVec.ofNat 8 x :: toBytes n (x >>> 8) := by
      unfold toBytes
      rw [List.range_succ_eq_map, List.map_cons, List.map_map]
      simp [Function.comp_def, ← Nat.shiftRight_add, Nat.mul_add, Nat.add_comm]
    have hpow : 2 ^ (8 * (n + 1)) = 256 * 2 ^ (8 * n) := by rw [Nat.mul_add, Nat.pow_add, Nat.mul_comm]
    rw [hcons, ofBytes, List.foldr_cons, ← ofBytes, ih, hpow, Nat.mod_mul]
    rw [← Nat.shiftLeft_add_eq_or_of_lt (BitVec.isLt _), BitVec.toNat_ofNat, Nat.shiftLeft_eq, Nat.shiftRight_eq_div_pow,
      Nat.mul_comm, Nat.add_comm]

/-- A byte of a number cut to n bytes. -/
theorem ofNat_mod_shiftRight {n i : Nat} (x : Nat) (hi : i < n) :
    BitVec.ofNat 8 ((x % 2 ^ (8 * n)) >>> (8 * i)) = BitVec.ofNat 8 (x >>> (8 * i)) := by
  apply BitVec.eq_of_getLsbD_eq
  intro j hj
  have hlt : 8 * i + j < 8 * n := by omega
  simp [BitVec.getLsbD_ofNat, Nat.testBit_shiftRight, Nat.testBit_mod_two_pow, hlt]

/-- The bytes of a number stand in memory after its write. -/
theorem Mem.get_write_toBytes {m : Mem} (a w v b : Nat) (hm : m.wf = true) :
    Mem.get (Mem.write m a (ofBytes (toBytes w v)) (toBytes w v).length) b =
      if a ≤ b ∧ b < a + w then BitVec.ofNat 8 (v >>> (8 * (b - a))) else Mem.get m b := by
  have hlen : (toBytes w v).length = w := by simp [toBytes]
  rw [hlen, Mem.get_write _ _ _ _ hm, ofBytes_toBytes]
  split
  · next h => exact ofNat_mod_shiftRight (n := w) (i := b - a) v (by omega)
  · rfl

theorem State.clearErrors_frame (s : State) (pa n : Nat) : ∃ e, s.clearErrors pa n = { s with errors := e } := by
  unfold State.clearErrors
  split
  · exact ⟨s.errors, rfl⟩
  · exact ⟨_, rfl⟩

/-- A write at a page that does not move changes memory and what is kept of its lines. -/
theorem State.homeWrite_frame {s : State} {pa : Nat} (b : List Byte) (h : s.migrating pa = false) :
    ∃ e l, s.homeWrite pa b = { s with hbm := Mem.write s.hbm pa (ofBytes b) b.length, errors := e, tagOf := l } := by
  obtain ⟨e, he⟩ := State.clearErrors_frame { s with hbm := Mem.write s.hbm pa (ofBytes b) b.length } pa b.length
  refine ⟨e, ?_, ?_⟩
  case refine_2 =>
    unfold State.homeWrite
    dsimp only
    rw [he, if_neg (by exact h ▸ Bool.false_ne_true)]
    rfl

theorem State.modTeam_frame (s : State) (h : Nat) (f : Team → Team) : ∃ l, s.modTeam h f = { s with teams := l } := by
  unfold State.modTeam
  split
  · exact ⟨_, rfl⟩
  · exact ⟨s.teams, rfl⟩

/-- An update in its SEQ whose line is whole and still changes its element at the home alone. -/
theorem State.applyUpdate_frame {s : State} {n pa w : Nat} {m : RedMsg} (hw : w = kindBytes (fdOf m.fd.toNat).kind)
    (hback : m.back = none) (hbad : s.lineBad pa w = false) (hstill : s.migrating pa = false) :
    ∃ e l t, s.applyUpdate n m pa = { s with
      redMsgs := tdel s.redMsgs n, errors := e, tagOf := l, teams := t,
      hbm := Mem.write s.hbm pa (ofBytes (toBytes w (m.apply (Mem.readN s.hbm pa w)).1))
        (toBytes w (m.apply (Mem.readN s.hbm pa w)).1).length } := by
  subst hw
  obtain ⟨e, l, hwrite⟩ := State.homeWrite_frame (s := s.dropRed n)
    (toBytes (kindBytes (fdOf m.fd.toNat).kind) (m.apply (Mem.readN s.hbm pa (kindBytes (fdOf m.fd.toNat).kind))).1) hstill
  have hline : (s.dropRed n).lineBad pa (kindBytes (fdOf m.fd.toNat).kind) = false := hbad
  have hmem : (s.dropRed n).hbm = s.hbm := rfl
  unfold State.applyUpdate
  simp only [hline, hmem, hwrite, State.redAnswer, hback, Bool.false_eq_true, if_false]
  obtain ⟨t, ht⟩ := State.modTeam_frame _ _ _
  exact ⟨e, l, t, ht⟩

/-! ### Messages at the M-die -/

theorem State.failLaunch_redMsgs (s : State) (t : Team) : (s.failLaunch t).redMsgs = s.redMsgs := by
  unfold State.failLaunch
  split
  · split
    · rfl
    · split
      · rfl
      · rfl
    · rfl
  · rfl

theorem State.haltTeam_redMsgs (s : State) (h : Nat) : (s.haltTeam h).redMsgs = s.redMsgs := by
  unfold State.haltTeam
  split
  · rfl
  · split
    · exact State.failLaunch_redMsgs ..
    · exact State.failLaunch_redMsgs ..

theorem State.postEvent_redMsgs (s : State) (h : Nat) (ti : TrapInfo) (q : Option Nat) :
    (s.postEvent h ti q).redMsgs = s.redMsgs := by
  unfold State.postEvent
  split
  · rfl
  · split
    · exact State.haltTeam_redMsgs ..
    · rfl

theorem State.stopCommand_redMsgs (s : State) (h q seq code reason detail : Nat) :
    (s.stopCommand h q seq code reason detail).redMsgs = s.redMsgs := by
  unfold State.stopCommand
  split
  · rfl
  · split
    · unfold State.stopQueue
      split
      · rfl
      · dsimp only
        split
        · rfl
        · exact State.postEvent_redMsgs ..
    · rfl

theorem State.redAnswer_redMsgs (s : State) (m : RedMsg) (a : Answer) : (s.redAnswer m a).redMsgs = s.redMsgs := by
  unfold State.redAnswer
  split
  · rfl
  · rfl
  · obtain ⟨l, hl⟩ := State.modTeam_frame _ _ _
    rw [hl]
  · exact State.stopCommand_redMsgs ..

theorem State.addTraffic_redMsgs (s : State) (die i n : Nat) : (s.addTraffic die i n).redMsgs = s.redMsgs := by
  unfold State.addTraffic
  dsimp only
  split
  · rfl
  · rfl

theorem State.migrateAgain_redMsgs (s : State) (o : Outstanding) (first : Nat) (alt : BitVec 64) :
    (s.migrateAgain o first alt).redMsgs = s.redMsgs := by
  unfold State.migrateAgain
  dsimp only
  by_cases hcopy : s.copying first = true
  · rw [if_pos hcopy, if_pos hcopy]
    exact (apply_ite State.redMsgs _ _ _).trans (ite_self _)
  · rw [if_neg hcopy, if_neg hcopy]
    exact (apply_ite State.redMsgs _ _ _).trans (ite_self _)

theorem State.sendPage_redMsgs (s : State) (off : Nat) (b : Option (List Byte)) : (s.sendPage off b).redMsgs = s.redMsgs := by
  unfold State.sendPage
  dsimp only
  split
  · rfl
  · split
    · exact State.addTraffic_redMsgs ..
    · rw [State.migrateAgain_redMsgs, State.addTraffic_redMsgs]

theorem State.homeWrite_redMsgs (s : State) (pa : Nat) (b : List Byte) : (s.homeWrite pa b).redMsgs = s.redMsgs := by
  obtain ⟨e, he⟩ := State.clearErrors_frame { s with hbm := Mem.write s.hbm pa (ofBytes b) b.length } pa b.length
  unfold State.homeWrite
  dsimp only
  rw [he]
  split
  · exact State.sendPage_redMsgs ..
  · rfl

theorem State.applyUpdate_redMsgs (s : State) (n pa : Nat) (m : RedMsg) :
    (s.applyUpdate n m pa).redMsgs = tdel s.redMsgs n := by
  unfold State.applyUpdate
  dsimp only
  split
  · exact State.redAnswer_redMsgs ..
  · rw [State.redAnswer_redMsgs, State.homeWrite_redMsgs]
    rfl

/-! ### The clauses of R440–R442 -/

theorem toNat_sub_eq_zero {a b : BitVec 16} (h : a = b) : (a - b).toNat = 0 := by
  rw [h, BitVec.sub_self]
  rfl

/-- An update in its SEQ that touches no write still on its way is applied. -/
theorem redUpdateArrive_inSeq {s : State} {die n pa w : Nat} {m : RedMsg} {r : RedRegion} (hm : tget s.redMsgs n = some m)
    (hpa : m.pa = some pa) (hdie : m.mdie = die) (hfresh : m.refusedAt = none) (hback : m.back = none)
    (hr : s.redRegion m = some r) (hseq : m.seq = r.exp) (hw : w = kindBytes (fdOf m.fd.toNat).kind)
    (hpath : s.pathTouches (handleCore m.h) pa w = false) (hbad : s.lineBad pa w = false) (hstill : s.migrating pa = false)
    (hwf : s.hbm.wf = true) :
    ∃ s', exec (.redUpdateArrive die n) s = .next s' ∧ tget s'.redMsgs n = none ∧ s'.redRegions = s.redRegions ∧
      ∀ a, Mem.get s'.hbm a = if pa ≤ a ∧ a < pa + w
        then BitVec.ofNat 8 ((m.apply (Mem.readN s.hbm pa w)).1 >>> (8 * (a - pa))) else Mem.get s.hbm a := by
  have hexec : exec (.redUpdateArrive die n) s = .next (s.applyUpdate n m pa) := by
    rw [exec_redUpdateArrive hm hpa hdie hfresh hr, if_pos (toNat_sub_eq_zero hseq), hback, ← hw, hpath]
    rfl
  obtain ⟨e, l, t, happly⟩ := State.applyUpdate_frame (n := n) hw hback hbad hstill
  refine ⟨_, hexec, ?_, ?_, fun a => ?_⟩
  · rw [happly]
    exact tget_tdel_same ..
  · rw [happly]
  · rw [happly]
    exact Mem.get_write_toBytes pa w _ a hwf

/-- An early update is held while a shared slot is free, and else refused for this attempt. -/
theorem redUpdateArrive_early {s : State} {die n pa : Nat} {m : RedMsg} {r : RedRegion} (hm : tget s.redMsgs n = some m)
    (hpa : m.pa = some pa) (hdie : m.mdie = die) (hfresh : m.refusedAt = none) (hheld : m.held = false)
    (hr : s.redRegion m = some r) (hne : (m.seq - r.exp).toNat ≠ 0) (hearly : (m.seq - r.exp).toNat < 32768) :
    exec (.redUpdateArrive die n) s = .next { s with redMsgs := tput s.redMsgs n (if s.redHeld die < Config.redSlots
      then { m with held := true } else { m with refusedAt := some s.cycle }) } := by
  rw [exec_redUpdateArrive hm hpa hdie hfresh hr, if_neg hne, if_pos hearly, State.holdRed, hheld, if_neg Bool.false_ne_true, hdie]
  split
  · rfl
  · rfl

/-- An update in its SEQ needs no shared slot: it is never refused for this attempt. -/
theorem redUpdateArrive_needsNoSlot {s : State} {die n pa : Nat} {m : RedMsg} {r : RedRegion}
    (hm : tget s.redMsgs n = some m) (hpa : m.pa = some pa) (hdie : m.mdie = die) (hfresh : m.refusedAt = none)
    (hr : s.redRegion m = some r) (hseq : m.seq = r.exp) :
    ∃ s', exec (.redUpdateArrive die n) s = .next s' ∧ ∀ x, tget s'.redMsgs n = some x → x.refusedAt = none := by
  refine ⟨_, (exec_redUpdateArrive hm hpa hdie hfresh hr).trans (congrArg Host.Outcome.next (if_pos (toNat_sub_eq_zero hseq))), ?_⟩
  intro x hx
  split at hx
  · rw [hm, Option.some.injEq] at hx
    exact hx ▸ hfresh
  · rw [State.applyUpdate_redMsgs, tget_tdel_same] at hx
    exact absurd hx nofun

/-- An update of a past SEQ is dropped and answered with fault 0x34. -/
theorem redUpdateArrive_past {s : State} {die n pa : Nat} {m : RedMsg} {r : RedRegion} (hm : tget s.redMsgs n = some m)
    (hpa : m.pa = some pa) (hdie : m.mdie = die) (hfresh : m.refusedAt = none) (hr : s.redRegion m = some r)
    (hpast : 32768 ≤ (m.seq - r.exp).toNat) :
    exec (.redUpdateArrive die n) s = .next ((s.dropRed n).redAnswer m (.fault 0x34 0)) := by
  rw [exec_redUpdateArrive hm hpa hdie hfresh hr, if_neg (by omega), if_neg (by omega)]

theorem State.redAnswer_past_here {m : RedMsg} (s : State) (h : m.back = none) :
    s.redAnswer m (.fault 0x34 0) = s.stopCommand m.h 0 m.cmdSeq 0x34 0 (bits m.va 32 32) := by
  unfold State.redAnswer
  rw [h]
  rfl

theorem State.redAnswer_past_peer {m : RedMsg} {p : Packet} (s : State) (h : m.back = some p) :
    s.redAnswer m (.fault 0x34 0) = s.reply p (.refused refusedSeq) := by
  unfold State.redAnswer
  rw [h]
  rfl

theorem redMarkerArrive_past {s : State} {die n : Nat} {m : RedMsg} {r : RedRegion} (hm : tget s.redMsgs n = some m)
    (hpa : m.pa = none) (hdie : m.mdie = die) (hfresh : m.refusedAt = none) (hr : s.redRegion m = some r)
    (hpast : 32768 ≤ (m.seq - r.exp).toNat) :
    exec (.redMarkerArrive die n) s = .next { s with redMsgs := tdel s.redMsgs n } := by
  rw [exec_redMarkerArrive hm hpa hdie hfresh hr, if_neg (by omega), if_neg (by omega)]
  rfl

theorem State.advanceRegion_eq (s : State) (r : RedRegion) :
    s.advanceRegion r = { s with
      redRegions := if r.exp = 0xFFFF then s.redRegions.erase r
        else s.redRegions.map fun x => if x = r then { x with exp := x.exp + 1 } else x } := by
  unfold State.advanceRegion
  split
  · rfl
  · rfl

/-- A marker in its SEQ, with no update of it left, raises EXP or frees the entry. -/
theorem redMarkerArrive_inSeq {s : State} {die n : Nat} {m : RedMsg} {r : RedRegion} (hm : tget s.redMsgs n = some m)
    (hpa : m.pa = none) (hdie : m.mdie = die) (hfresh : m.refusedAt = none) (hr : s.redRegion m = some r) (hseq : m.seq = r.exp)
    (hleft : s.updatesLeft m = false) :
    exec (.redMarkerArrive die n) s = .next { s with
      redMsgs := tdel s.redMsgs n,
      redRegions := if r.exp = 0xFFFF then s.redRegions.erase r
        else s.redRegions.map fun x => if x = r then { x with exp := x.exp + 1 } else x } := by
  rw [exec_redMarkerArrive hm hpa hdie hfresh hr, if_pos (toNat_sub_eq_zero hseq), hleft, if_neg Bool.false_ne_true,
    State.advanceRegion_eq]
  rfl

/-! ## Collective data (R269) -/

/-- A rank's values, of a sender of this package, are held for the team. -/
theorem exec_collectiveDataArrive {s : State} {h rank sender digest : Nat} {t : Team} (data : List Byte) (ht : s.team? h = some t)
    (hsender : sender < 2 ^ 32) :
    exec (.collectiveDataArrive h { rank := rank, sender := sender } data digest) s = .next
      { s with collectives := s.collectives ++ [{ h := h, rank := rank, sender := sender, data := data, digest := digest }] } := by
  rw [show exec (.collectiveDataArrive h { rank := rank, sender := sender } data digest) s =
    execCollectiveDataArrive h { rank := rank, sender := sender } data digest s from rfl, execCollectiveDataArrive]
  simp only [ht, if_pos hsender]

/-- Settles O51: a flag's setting leaves the unit's entries and requests, a turn of the rules is one of three, and a message at
its M-die is met by its SEQ against EXP. -/
theorem sextantAndReductionEvents : Obligations.SextantAndReductionEvents := by
  unfold Obligations.SextantAndReductionEvents
  refine ⟨?_, ?_, SxEntry.turn_curr, Sextant.advance_gen, ?_, ?_, ?_, ?_, ?_, ?_, ?_, ?_⟩
  · intro s ctx v c hc hw
    exact sextantStepRequest_pends hc hw
  · intro s ctx c r hc hw hp happ hst hser hre hover
    exact sextantStepApply_due hc hw hp happ hst hser hre hover
  · intro s die n pa m r hm hpa hdie hfresh hback hr hseq w hpath hbad hstill hwf
    exact redUpdateArrive_inSeq hm hpa hdie hfresh hback hr hseq rfl hpath hbad hstill hwf
  · intro s die n pa m r hm hpa hdie hfresh hheld hr hne hearly
    exact ⟨_, redUpdateArrive_early hm hpa hdie hfresh hheld hr hne hearly, rfl⟩
  · intro s die n pa m r hm hpa hdie hfresh hr hseq _
    exact redUpdateArrive_needsNoSlot hm hpa hdie hfresh hr hseq
  · intro s die n pa m r hm hpa hdie hfresh hr hpast
    have hexec := redUpdateArrive_past hm hpa hdie hfresh hr hpast
    exact ⟨fun hback => hexec.trans (congrArg Host.Outcome.next (State.redAnswer_past_here _ hback)),
      fun p hback => hexec.trans (congrArg Host.Outcome.next (State.redAnswer_past_peer _ hback))⟩
  · intro s die n m r hm hpa hdie hfresh hr hpast
    exact redMarkerArrive_past hm hpa hdie hfresh hr hpast
  · intro s die n m r hm hpa hdie hfresh hr hseq hleft
    exact ⟨_, redMarkerArrive_inSeq hm hpa hdie hfresh hr hseq hleft, rfl⟩
  · intro s die n m hm hdie href
    exact exec_redRetry hm hdie href
  · intro s h rank sender digest data t ht hsender
    exact exec_collectiveDataArrive data ht hsender

end Sys2Proof.Machine
end

section
/-! The refutation of the statement of the map unit's events (O46): its clause of claims leaves the clocks out of what a claim
may change, and a claim that finds its tile converted already is an acquire (R323, R382). -/

namespace Sys2Proof.Machine

open Sys2Proof

/-- A claim of tile 0 of Sextant entry 5 for generation 2, by core 0. -/
def lateClaim : Claim := { by_ := .renc 0 0, ctx := 0, core := 0, entry := 5, tile := 0, gen := 2 }

/-- The tag that another claimer has written: TGEN 2, ENT 5, not BUSY, CORE 144, the first core of die 1. -/
def convertedTag : Nat := 2 + 5 * 2 ^ 32 + 144 * 2 ^ 41

/-- The page tables of `loadTables`, with entry 5's tags at 0x9000. The tag of tile 0 was written as a release of die 1, at the
first count of that die's clock, which die 0 has not acquired. -/
def convertedState : State :=
  { State.reset with
    hbm := Mem.write (loadTables []) 0x9000 convertedTag 8, tagOf := [(0x9000, #v[0, 1, 0, 0])],
    teams := [(0, loadedTeam)], claims := [(4, lateClaim)],
    contexts := [(0, { loadedContext with sextant := { gen := 2, entries := [(5,
      { mode := 1, tagt := 0x9000, rungs := [3, 0x107391], hists := [{ gfrom := 1, rung := 0 }] })] } })] }

/-- The translation of the tag of the late claim, with the state that it leaves. -/
def tagFrames : Frames × State :=
  convertedState.frames 0 0 .atomic (lateClaim.who convertedState) (segmentsOf (lateClaim.tagVa convertedState) 8)

/-- The count of die 1 in die 0's clock in an outcome. -/
def countOfDie1 (o : Out) : Option (BitVec 16) :=
  match o with
  | .next s => some (vget (s.clock 0) 1 0)
  | _ => none

/-- The tag is found in the frame at 0x9000. -/
theorem tagFrames_frames : tagFrames.1 = .ok [(0x9000, 8)] := by rfl

/-- Finding the tag leaves die 0's clock as it was. -/
theorem countOfDie1_tagFrames : countOfDie1 (.next tagFrames.2) = some 0 := by decide +kernel

/-- The late claim finds TGEN 2 and ends; it acquires the write of the tag, so that die 0's clock takes die 1's count. -/
theorem countOfDie1_tileClaim : countOfDie1 (exec (.tileClaim 4) convertedState) = some 1 := by decide +kernel

/-- Refutes O46: its clause of claims says that a claim, whatever its tag's TGEN, changes memory, claims, teams, traffic and free
choices alone. In `convertedState` the claim finds its tile converted already, and its read of the tag is an acquire at package
scope (R382), which sets the clock of its die (R323). -/
theorem not_mapUnitEvents : ¬ Obligations.MapUnitEvents := by
  unfold Obligations.MapUnitEvents
  rintro ⟨-, hclaim, -⟩
  obtain ⟨s', hexec, -, hframe, -⟩ := hclaim convertedState tagFrames.2 4 0x9000 lateClaim rfl rfl rfl
    (Prod.ext tagFrames_frames rfl) (by decide +kernel) (by decide +kernel) (by decide +kernel) (by decide +kernel)
    (by decide +kernel) (by decide +kernel)
  have hclocks : s'.clocks = tagFrames.2.clocks := by rw [hframe]
  have hsame : countOfDie1 (.next s') = countOfDie1 (.next tagFrames.2) := by simp only [countOfDie1, State.clock, hclocks]
  have hacquired := countOfDie1_tileClaim
  rw [hexec, hsame, countOfDie1_tagFrames] at hacquired
  exact absurd hacquired (by decide)

end Sys2Proof.Machine
end

section
/-! Proofs about remote promotion: requests at the log arbiter, the start of a flush, and the ends of its two phases
(R323, R331–R337). -/

namespace Sys2Proof.Machine

open Sys2Proof

/-! ## Folds over a list -/

/-- A fold whose every step takes its element in, and gives up none that it holds, holds every element of the list. -/
theorem foldl_takesIn {α σ : Type} {f : σ → α → σ} {R : α → σ → Prop} (hnew : ∀ m e, R e (f m e))
    (hkeep : ∀ m x e, R x m → R x (f m e)) {l : List α} {x : α} (hx : x ∈ l) (m : σ) : R x (l.foldl f m) := by
  induction l generalizing m with
  | nil => cases hx
  | cons e r ih =>
    rcases List.mem_cons.mp hx with rfl | hr
    · exact List.foldlRecOn r f (hnew m x) fun m hm e _ => hkeep m x e hm
    · exact ih hr (f m e)

/-- What a part of the state comes to under a fold whose steps each leave the part or set it once and for all. -/
theorem foldl_part {α σ β : Type} {f : σ → α → σ} {g : σ → β} {φ : β → β} {p : α → Bool}
    (hf : ∀ s a, g (f s a) = if p a then φ (g s) else g s) (hφ : ∀ b, φ (φ b) = φ b) (l : List α) (s : σ) :
    g (l.foldl f s) = if l.any p then φ (g s) else g s := by
  induction l generalizing s with
  | nil => rfl
  | cons a r ih =>
    rw [List.foldl_cons, ih, hf, List.any_cons]
    cases p a <;> cases r.any p <;> simp [hφ]

/-! ## Requests (R333) -/

theorem State.req?_setReq_other (s : State) (n m : Nat) (q : Req) (hm : m ≠ n) : (s.setReq n q).req? m = s.req? m :=
  tget_tput_other _ _ _ _ hm

theorem State.modTeam_req? (s : State) (h n : Nat) (f : Team → Team) : (s.modTeam h f).req? n = s.req? n := by
  obtain ⟨l, hl⟩ := s.modTeam_frame h f
  rw [hl]
  rfl

/-- A request that its own strand waits for, and that the arbiter does not hold yet, is answered at once or waits. -/
theorem exec_promotionRequest {s : State} {core n : Nat} {q : Req} (hq : s.logAll.req? n = some q) (hst : q.st = .promotion)
    (hcore : handleCore q.handle = core)
    (hnew : ((s.logAll.core core).requests.any fun r => r.k < 9 && r.tag = n) = false) :
    exec (.promotionRequest core n) s = .next (if s.logAll.promotedAtOnce core q then s.logAll.setReq n { q with st := .promoted }
      else s.logAll.setCore core { s.logAll.core core with requests := (s.logAll.core core).requests ++ [{
        h := q.h, k := q.k, tag := n, point := (s.logAll.core core).relCount, level := s.logAll.requestLevel q }] }) := by
  change execPromotionRequest core n s = _
  unfold execPromotionRequest
  simp only [hq, hst, hcore, hnew, ne_eq, not_true_eq_false, decide_false, Bool.or_false, Bool.false_eq_true, if_false]
  split <;> rfl

/-! ## The start of a flush (R323, R334, R335) -/

/-- A write of the path that carries no tag yet takes that of a tagged event. -/
def Posted.tagged (e : Posted) (tag : Nat × Vector (BitVec 16) 4) : Posted :=
  if e.tag.isNone then { e with tag := some tag } else e

theorem Posted.tagged_tag (e : Posted) (tag : Nat × Vector (BitVec 16) 4) : (e.tagged tag).tag ≠ none := by
  unfold Posted.tagged
  split
  · exact Option.some_ne_none _
  · rename_i h
    exact fun hnone => h (Option.isNone_iff_eq_none.mpr hnone)

theorem State.tagPath_core (s : State) (core : Nat) : (s.tagPath core).2.core core =
    { s.core core with path := (s.core core).path.map (·.tagged (s.tagPath core).1) } :=
  State.core_setCore_same _ _ _

/-- The flush of a level and a point that a core starts. -/
def State.newFlush (s : State) (core level : Nat) (point : BitVec 32) : Flush :=
  let entries := (s.core core).covered level point
  { level := level, point := point, phase := .localPart, marks := entries.foldl (fun m e => m ||| e.summary) 0,
    upto := (s.core core).nextNum, must := entries.foldl (fun m e => max m e.upto) 0, began := s.cycle }

/-- The marks of a flush take in the lines of every entry that it covers (R334). -/
theorem State.newFlush_marks {s : State} {core level : Nat} {point : BitVec 32} {e : LogEntry}
    (he : e ∈ (s.core core).covered level point) : e.summary &&& (s.newFlush core level point).marks = e.summary := by
  have hor : e.summary ||| (s.newFlush core level point).marks = (s.newFlush core level point).marks :=
    foldl_takesIn (R := fun (e : LogEntry) m => e.summary ||| m = m)
      (fun m e => by rw [BitVec.or_comm m, ← BitVec.or_assoc, BitVec.or_self])
      (fun m x e hx => by rw [← BitVec.or_assoc, hx]) he 0
  rw [← hor]
  ext i hi
  rw [BitVec.getElem_and, BitVec.getElem_or]
  cases e.summary[i] <;> rfl

/-- A flush waits for the whole write set of every entry that it covers (R401). -/
theorem State.newFlush_must {s : State} {core level : Nat} {point : BitVec 32} {e : LogEntry}
    (he : e ∈ (s.core core).covered level point) : e.upto ≤ (s.newFlush core level point).must :=
  foldl_takesIn (R := fun (e : LogEntry) m => e.upto ≤ m) (fun _ _ => le_max_right _ _)
    (fun _ _ _ hx => le_max_of_le_left hx) he 0

/-- With no flush in progress and nothing owed from the last one, the next flush starts over the tagged path. -/
theorem exec_flushStart {s : State} {core level : Nat} {point : BitVec 32} (hidle : (s.core core).flush = none)
    (hnext : (s.core core).nextFlush = some (level, point)) (hlead : s.leadOk (dieOf core) = true)
    (howed : ∀ x ∈ (s.core core).owed, s.owedStill core x = false) :
    exec (.flushStart core) s = .next ((s.tagPath core).2.setCore core { (s.tagPath core).2.core core with
      flush := some (s.newFlush core level point), owed := [] }) := by
  have hnone : (s.core core).owed.any (s.owedStill core) = false :=
    List.any_eq_false.mpr fun x hx => Bool.eq_false_iff.mp (howed x hx)
  change execFlushStart core s = _
  unfold execFlushStart
  simp only [hidle, hnext, hlead, hnone, Bool.not_false, Bool.and_self, if_true]
  rfl

/-! ## The end of the local phase (R334, R335) -/

theorem exec_flushLocalPhaseEnd {s : State} {core : Nat} {f : Flush} (hf : (s.core core).flush = some f)
    (hlocal : f.phase = .localPart) :
    exec (.flushLocalPhaseEnd core) s = .next (s.setCore core { s.core core with
      flush := some { f with phase := .remotePart, marks := 0 } }) := by
  change execFlushLocalPhaseEnd core s = _
  unfold execFlushLocalPhaseEnd
  simp only [hf, hlocal, if_true]
  rfl

/-! ## The end of a flush (R334, R337) -/

/-- The answer to a strand's request changes the request of its tag; the answer to another changes none. -/
theorem State.answer_req? (s : State) (r : PromReq) (n : Nat) : (s.answer r).req? n =
    if decide (r.k < 9) && decide (r.tag = n) then (s.req? n).map ({ · with st := .promoted }) else s.req? n := by
  unfold State.answer
  by_cases hk : r.k < 9
  · by_cases hn : r.tag = n
    · subst hn
      cases hq : s.req? r.tag <;> simp [hk, hq]
    · cases hq : s.req? r.tag <;> simp [hk, hn, State.req?_setReq_other _ _ _ _ (Ne.symm hn)]
  · simp only [hk, if_false, decide_false, Bool.false_and, Bool.false_eq_true]
    exact s.modTeam_req? ..

/-- The answer to the request that precedes a team's end changes that team; the answer to another changes none. -/
theorem State.answer_team? (s : State) (r : PromReq) (h : Nat) : (s.answer r).team? h =
    if decide (9 ≤ r.k) && decide (r.h = h) then (s.team? h).map ({ · with flushed := .done }) else s.team? h := by
  unfold State.answer
  by_cases hk : 9 ≤ r.k
  · rw [if_neg (Nat.not_lt.mpr hk)]
    unfold State.modTeam
    by_cases hh : r.h = h
    · subst hh
      cases ht : s.team? r.h <;> simp [hk, ht]
    · cases ht : s.team? r.h <;> simp [hk, hh, State.team?_setTeam_other _ _ _ _ (Ne.symm hh)]
  · rw [if_pos (Nat.lt_of_not_le hk)]
    simp only [hk, decide_false, Bool.false_and, Bool.false_eq_true, if_false]
    split <;> rfl

theorem State.answer_cores (s : State) (r : PromReq) : (s.answer r).cores = s.cores := by
  unfold State.answer State.modTeam
  split <;> split <;> rfl

/-- Of the requests answered, one of a strand finds its reply there, however many times its tag is among them. -/
theorem State.answers_req {s : State} {rs : List PromReq} {r : PromReq} {q : Req} (hr : r ∈ rs) (hk : r.k < 9)
    (hq : s.req? r.tag = some q) : (rs.foldl State.answer s).req? r.tag = some { q with st := .promoted } := by
  have hany : rs.any (fun x => decide (x.k < 9) && decide (x.tag = r.tag)) = true :=
    List.any_eq_true.mpr ⟨r, hr, by simp [hk]⟩
  exact (foldl_part (g := (State.req? · r.tag)) (fun s x => s.answer_req? x r.tag) (fun b => by cases b <;> rfl) rs s).trans
    ((if_pos hany).trans (congrArg _ hq))

/-- Of the requests answered, one that precedes a team's end finds its flush done. -/
theorem State.answers_team {s : State} {rs : List PromReq} {r : PromReq} {t : Team} (hr : r ∈ rs) (hk : 9 ≤ r.k)
    (ht : s.team? r.h = some t) : (rs.foldl State.answer s).team? r.h = some { t with flushed := .done } := by
  have hany : rs.any (fun x => decide (9 ≤ x.k) && decide (x.h = r.h)) = true :=
    List.any_eq_true.mpr ⟨r, hr, by simp [hk]⟩
  exact (foldl_part (g := (State.team? · r.h)) (fun s x => s.answer_team? x r.h) (fun b => by cases b <;> rfl) rs s).trans
    ((if_pos hany).trans (congrArg _ ht))

theorem State.answers_core (s : State) (rs : List PromReq) (core : Nat) : (rs.foldl State.answer s).core core = s.core core := by
  have hcores : (rs.foldl State.answer s).cores = s.cores :=
    List.foldlRecOn (motive := fun b : State => b.cores = s.cores) rs State.answer rfl fun b hb r _ => (b.answer_cores r).trans hb
  rw [State.core, hcores, State.core]

/-- A core after a flush has ended: its log promoted, and the requests gone that the flush answers. -/
def State.afterFlush (s : State) (core : Nat) (f : Flush) : Core :=
  { s.core core with
    flush := none, log := (s.core core).log.map (·.promoted f),
    requests := (s.core core).requests.filter fun r => !s.answeredNow (s.core core) f r }

theorem exec_flushRemotePhaseEnd {s : State} {core : Nat} {f : Flush} (hf : (s.core core).flush = some f)
    (hremote : f.phase = .remotePart) (hdone : (s.core core).flushed f = true) :
    exec (.flushRemotePhaseEnd core) s = .next (((s.core core).requests.filter (s.answeredNow (s.core core) f)).foldl State.answer
      (s.setCore core (s.afterFlush core f))) := by
  change execFlushRemotePhaseEnd core s = _
  unfold execFlushRemotePhaseEnd
  simp only [hf, hremote, hdone, decide_true, Bool.and_self, if_true, List.partition_eq_filter_filter]
  rfl

theorem LogEntry.promoted_eq (e : LogEntry) (f : Flush) : e.promoted f =
    if e.valid = true ∧ seqBefore e.seq f.point = true ∧ e.prom < f.level
      then { e with prom := f.level, valid := decide (f.level < 2) } else e := by
  simp only [LogEntry.promoted, Bool.and_eq_true, decide_eq_true_eq, and_assoc]

/-- Settles O44: a request is answered or joins those that wait; a flush is `State.newFlush` over the tagged path; its phases end
as the one lemma of each says, and the answers of its end are a fold that reaches each named request and team once and for all. -/
theorem promotionEvents : Obligations.PromotionEvents := by
  unfold Obligations.PromotionEvents
  refine ⟨fun s core n q => ?_, fun s core level point hidle hnext hlead howed => ?_, fun s core f hf hlocal => ?_,
    fun s core f hf hremote hdone => ?_⟩
  · intro z hq hst hcore hnew
    have hexec := exec_promotionRequest hq hst hcore hnew
    refine ⟨fun honce => ⟨_, hexec, ?_⟩, fun hwaits => ⟨_, hexec, ?_⟩⟩
    · rw [if_pos honce]
      exact ReqIs.set
    · rw [if_neg (Bool.eq_false_iff.mp hwaits)]
      exact CoreIs.set
  · refine ⟨_, s.newFlush core level point, exec_flushStart hidle hnext hlead howed, ?_⟩
    rw [State.core_setCore_same, State.tagPath_core]
    refine ⟨rfl, rfl, rfl, rfl, rfl, fun e he => ⟨State.newFlush_marks he, State.newFlush_must he⟩, List.length_map _,
      fun e he => ?_, rfl, rfl, rfl⟩
    obtain ⟨w, -, rfl⟩ := List.mem_map.mp he
    exact w.tagged_tag _
  · exact ⟨_, exec_flushLocalPhaseEnd hf hlocal, CoreIs.set⟩
  · refine ⟨_, exec_flushRemotePhaseEnd hf hremote hdone, ?_⟩
    rw [State.answers_core, State.core_setCore_same]
    refine ⟨rfl, List.map_congr_left fun e _ => e.promoted_eq f, rfl, fun r hr hnow => ?_⟩
    have hmem := List.mem_filter.mpr ⟨hr, hnow⟩
    exact ⟨fun hk q hq => State.answers_req hmem hk hq, fun hk t ht => State.answers_team hmem hk ht⟩

end Sys2Proof.Machine
end

section
/-! Proofs about the work identifier (R344, R354). -/

namespace Sys2Proof.Machine

open Sys2Proof

/-! ## Fields packed below an argument -/

/-- The number that holds the values of `i` in fields of the given widths, field 0 lowest, with `a` above them. -/
def packFields : List Nat → (Nat → Nat) → Nat → Nat
  | [], _, a => a
  | f :: fs, i, a => i 0 + 2 ^ f * packFields fs (fun k => i (k + 1)) a

theorem packFields_eq_sum (fs : List Nat) (i : Nat → Nat) (a : Nat) :
    packFields fs i a = a * 2 ^ fs.sum + ((List.range fs.length).map fun k => i k * 2 ^ (fs.take k).sum).sum := by
  induction fs generalizing i with
  | nil => simp [packFields]
  | cons f fs ih =>
    have hterm : ∀ k, i (k + 1) * 2 ^ (f + (fs.take k).sum) = 2 ^ f * (i (k + 1) * 2 ^ (fs.take k).sum) := fun k => by ring
    simp only [packFields, ih, List.length_cons, List.range_succ_eq_map, List.map_cons, List.map_map, Function.comp_def,
      List.take_zero, List.take_succ_cons, List.sum_cons, List.sum_nil, Nat.succ_eq_add_one, hterm, List.sum_map_mul_left]
    ring

/-- Above the first fields stand the others, and the argument above them. -/
theorem packFields_div_take {fs : List Nat} {i : Nat → Nat} (a : Nat) (hfit : ∀ k < fs.length, i k < 2 ^ fs.getD k 0) {k : Nat}
    (hk : k ≤ fs.length) : packFields fs i a / 2 ^ (fs.take k).sum = packFields (fs.drop k) (fun j => i (j + k)) a := by
  induction fs generalizing i k with
  | nil => simp [packFields]
  | cons f fs ih =>
    cases k with
    | zero => simp
    | succ k =>
      have hlow : i 0 < 2 ^ f := hfit 0 (Nat.succ_pos _)
      have hrest : ∀ j < fs.length, i (j + 1) < 2 ^ fs.getD j 0 := fun j hj => hfit (j + 1) (Nat.succ_lt_succ hj)
      have hup : packFields (f :: fs) i a / 2 ^ f = packFields fs (fun j => i (j + 1)) a := by
        rw [packFields, Nat.add_mul_div_left _ _ (Nat.two_pow_pos f), Nat.div_eq_of_lt hlow, Nat.zero_add]
      rw [List.take_succ_cons, List.sum_cons, pow_add, ← Nat.div_div_eq_div_mul, hup, ih hrest (Nat.le_of_succ_le_succ hk)]
      rfl

theorem packFields_field {fs : List Nat} {i : Nat → Nat} (a : Nat) (hfit : ∀ k < fs.length, i k < 2 ^ fs.getD k 0) {k : Nat}
    (hk : k < fs.length) : packFields fs i a / 2 ^ (fs.take k).sum % 2 ^ fs.getD k 0 = i k := by
  have hwidth : fs.getD k 0 = fs[k] := List.getD_eq_getElem fs 0 hk
  rw [packFields_div_take a hfit hk.le, List.drop_eq_getElem_cons hk, packFields, hwidth, Nat.add_mul_mod_self_left,
    Nat.zero_add, Nat.mod_eq_of_lt (hwidth ▸ hfit k hk)]

theorem packFields_above {fs : List Nat} {i : Nat → Nat} (a : Nat) (hfit : ∀ k < fs.length, i k < 2 ^ fs.getD k 0) :
    packFields fs i a / 2 ^ fs.sum = a := by
  have h := packFields_div_take a hfit le_rfl
  rwa [List.take_length, List.drop_length] at h

/-! ## A word's upper bits -/

theorem mod_two_pow_div_two_pow (x : Nat) {a c : Nat} (h : a ≤ c) : x % 2 ^ c / 2 ^ a = x / 2 ^ a % 2 ^ (c - a) := by
  rw [← Nat.mod_mul_right_div_self, ← pow_add, Nat.add_sub_cancel' h]

/-- A field of a word is the number's, where the word reaches to its end. -/
theorem mod_two_pow_field (x : Nat) {a f c : Nat} (h : a + f ≤ c) : x % 2 ^ c / 2 ^ a % 2 ^ f = x / 2 ^ a % 2 ^ f := by
  rw [mod_two_pow_div_two_pow x (Nat.le_of_add_right_le h), Nat.mod_mod_of_dvd _ (pow_dvd_pow 2 (Nat.le_sub_of_add_le' h))]

theorem sum_take_add_getD_le (fs : List Nat) {k : Nat} (hk : k < fs.length) : (fs.take k).sum + fs.getD k 0 ≤ fs.sum := by
  rw [List.getD_eq_getElem fs 0 hk, ← List.sum_take_succ fs k hk, ← List.sum_take_add_sum_drop fs (k + 1)]
  exact Nat.le_add_right _ _

/-! ## Level indices (R354) -/

/-- The index of level `k` of item n: 0 for a level that the item has not. -/
def levelIndex (perm extents : List Nat) (n k : Nat) : Nat :=
  (((levelIndices perm extents n).find? fun e => e.1 = k).map (·.2)).getD 0

/-- There is one index for each level, in the order of the levels. -/
theorem levelIndices_keys (perm extents : List Nat) (n : Nat) : (levelIndices perm extents n).map (·.1) = perm := by
  rw [levelIndices, List.foldl_reverse]
  induction perm with
  | nil => rfl
  | cons k perm ih => rw [List.foldr_cons, List.map_cons, ih]

theorem find?_key_eq {l : List (Nat × Nat)} (hl : (l.map (·.1)).Nodup) {e : Nat × Nat} (he : e ∈ l) :
    (l.find? fun x => x.1 = e.1) = some e := by
  have hsome : (l.find? fun x => x.1 = e.1).isSome := List.find?_isSome.mpr ⟨e, he, decide_eq_true rfl⟩
  obtain ⟨e', hfind⟩ := Option.isSome_iff_exists.mp hsome
  have hkey : e'.1 = e.1 := by simpa using List.find?_some hfind
  rw [hfind, List.inj_on_of_nodup_map hl (List.mem_of_find?_eq_some hfind) he hkey]

theorem levelIndex_of_mem {perm extents : List Nat} {n : Nat} (hnd : perm.Nodup) {e : Nat × Nat}
    (he : e ∈ levelIndices perm extents n) : levelIndex perm extents n e.1 = e.2 := by
  rw [levelIndex, find?_key_eq ((levelIndices_keys perm extents n).symm ▸ hnd) he]
  rfl

theorem levelIndex_of_notMem {perm extents : List Nat} {n k : Nat} (hk : k ∉ perm) : levelIndex perm extents n k = 0 := by
  have hnone : ((levelIndices perm extents n).find? fun e => e.1 = k) = none :=
    List.find?_eq_none.mpr fun e he hek =>
      hk (levelIndices_keys perm extents n ▸ of_decide_eq_true hek ▸ List.mem_map_of_mem he)
  rw [levelIndex, hnone]
  rfl

/-- A sum over distinct numbers below `m` is one over all of them, where the others add nothing. -/
theorem sum_map_eq_sum_range {l : List Nat} {m : Nat} {f : Nat → Nat} (hnd : l.Nodup) (hm : ∀ k ∈ l, k < m)
    (hzero : ∀ k ∉ l, f k = 0) : (l.map f).sum = ((List.range m).map f).sum := by
  have hsub : l.toFinset ⊆ (List.range m).toFinset := fun k hk =>
    List.mem_toFinset.mpr (List.mem_range.mpr (hm k (List.mem_toFinset.mp hk)))
  rw [← List.sum_toFinset f hnd, ← List.sum_toFinset f List.nodup_range]
  exact Finset.sum_subset hsub fun k _ hk => hzero k (mt List.mem_toFinset.mpr hk)

theorem levelIndices_sum {perm extents : List Nat} {n m : Nat} (hnd : perm.Nodup) (hm : ∀ k ∈ perm, k < m) (g : Nat → Nat) :
    ((levelIndices perm extents n).map fun e => e.2 * g e.1).sum =
      ((List.range m).map fun k => levelIndex perm extents n k * g k).sum := by
  calc ((levelIndices perm extents n).map fun e => e.2 * g e.1).sum
      = ((levelIndices perm extents n).map ((fun k => levelIndex perm extents n k * g k) ∘ (·.1))).sum :=
        congrArg List.sum (List.map_congr_left fun e he => by rw [Function.comp_apply, levelIndex_of_mem hnd he])
    _ = (perm.map fun k => levelIndex perm extents n k * g k).sum := by rw [← List.map_map, levelIndices_keys]
    _ = ((List.range m).map fun k => levelIndex perm extents n k * g k).sum :=
        sum_map_eq_sum_range hnd hm fun k hk => by rw [levelIndex_of_notMem hk, Nat.zero_mul]

/-! ## The work identifier (R344) -/

theorem foldl_add_eq_add_sum (l : List Nat) (a : Nat) : l.foldl (· + ·) a = a + l.sum := by
  rw [← List.sum_cons, List.sum_eq_foldl, List.foldl_cons, Nat.zero_add]

theorem widOf_toNat {l : Launch} {t : Task} (n : Nat) (hnd : t.perm.Nodup) (hlt : ∀ k ∈ t.perm, k < l.fws.length) :
    (widOf l t n).toNat = packFields l.fws (levelIndex t.perm t.extents n) l.arg.toNat % 2 ^ 64 := by
  rw [widOf, BitVec.toNat_ofNat, packFields_eq_sum, ← levelIndices_sum hnd hlt fun k => 2 ^ (l.fws.take k).sum]
  simp only [foldl_add_eq_add_sum, Nat.zero_add]

/-- Settles O48: WID is the argument and the level indices packed (`widOf_toNat`), and a field of what is packed is read back
where it was put. -/
theorem workIdentifierFields : Obligations.WorkIdentifierFields := by
  unfold Obligations.WorkIdentifierFields
  refine ⟨fun l t n hnd hlt => ?_, fun s t k => rfl⟩
  have hwid := widOf_toNat n hnd hlt
  refine ⟨by rw [← packFields_eq_sum]; exact hwid, fun hS hfit => ⟨fun k hk => ?_, ?_⟩⟩
  · rw [hwid, mod_two_pow_field _ ((sum_take_add_getD_le l.fws hk).trans hS)]
    exact packFields_field _ hfit hk
  · rw [hwid, mod_two_pow_div_two_pow _ hS, packFields_above (i := levelIndex t.perm t.extents n) _ hfit]

end Sys2Proof.Machine
end

section
/-! The refutation of the statement of faults and host events (O50): its clause of retries admits a request table with two entries
under one number. -/

namespace Sys2Proof.Machine

open Sys2Proof

/-- Record 3 of context 0: a miss of page 8. -/
def missedPage : FaultRec := { serial := 3, vpn := 8, kind := 0, reason := 0, dies := [0] }

/-- A load of stream k of team 0 in that page, waiting on the record. -/
def missedLoad (k : Nat) : Req where
  tag := 7
  h := 0
  k := k
  pc := 0x4000
  word := .ld (MemW.ofWord 0)
  ea := 0x8000
  x := 0
  cmp := 0
  handle := 0
  mask := 0xFF
  dest := 0
  st := .faultPath 3

/-- Context 0 with its fault queue at 0x40000, its reply table at 0x50000 and the record outstanding. -/
def missedContext : Context := { loadedContext with fqbase := 0x40000, frbase := 0x50000, faults := [missedPage] }

/-- Its machine: entry 3 of the reply table, at 0x50030, holds a reply of ACTION 1 to the record, and number 7 names a load of
strand 0 and behind it one of the access stream. -/
def doubledState : State :=
  { State.reset with
    hbm := Mem.write (loadTables []) 0x50030 (3 + 1 * 2 ^ 32) 16, contexts := [(0, missedContext)], teams := [(0, loadedTeam)],
    reqs := [(7, missedLoad 0), (7, missedLoad 4)] }

/-- The stream of request 7 in an outcome. -/
def streamOf7 (o : Out) : Option Nat :=
  match o with
  | .next s => (s.req? 7).map Req.k
  | _ => none

/-- The retry takes number 7 out of the table for the strand's load, and puts the access stream's load back under it (R400). -/
theorem streamOf7_faultReply : streamOf7 (exec (.faultReply 0 3) doubledState) = some 4 := by decide +kernel

/-- Strand 0 has no request but the load under number 7. -/
theorem eq_missedLoad_of_mem {e : Nat × Req} (he : e ∈ doubledState.reqs) (hk : e.2.k = 0) : e = (7, missedLoad 0) := by
  rcases List.mem_pair.mp he with rfl | rfl
  · rfl
  · exact absurd hk (by decide)

/-- Refutes O50: its clause of a reply of ACTION 1 asks that a strand has one request, and does not ask, as its next clause does
for the access stream, that the request's number names no other. In `doubledState` strand 0's load under number 7 is to be gone
after the retry; the access stream's load under the same number starts again in its place. -/
theorem not_faultAndHostEvents : ¬ Obligations.FaultAndHostEvents := by
  unfold Obligations.FaultAndHostEvents
  rintro ⟨-, -, hreply, -⟩
  obtain ⟨hretry, -⟩ := hreply doubledState 0 3 missedContext missedPage rfl (by decide) (by decide) (by decide) (by decide)
    (by decide +kernel) (by decide) (by decide +kernel) (by decide +kernel) (by decide +kernel)
  obtain ⟨s', -, hexec, -, -, -, -, hstrand, -⟩ := hretry (by decide +kernel)
  obtain ⟨hgone, -⟩ := hstrand 7 (missedLoad 0) loadedTeam rfl rfl (by decide) rfl (by decide)
    fun _ he _ hk => eq_missedLoad_of_mem he hk
  have hkept := streamOf7_faultReply
  rw [hexec, streamOf7, hgone] at hkept
  exact absurd hkept (by decide)

end Sys2Proof.Machine
end

section
/-! Writes at home and what they leave of the machine. -/

namespace Sys2Proof.Machine

open Sys2Proof

/-! ## Bytes written at home -/

/-- Byte i of a list's number. -/
theorem ofNat_ofBytes_shiftRight (b : List Byte) (i : Nat) : BitVec.ofNat 8 (ofBytes b >>> (8 * i)) = b.getD i 0 := by
  induction b generalizing i with
  | nil => simp [ofBytes]
  | cons x r ih =>
    have hcons : ofBytes (x :: r) = ofBytes r * 2 ^ 8 + x.toNat := by
      rw [ofBytes, List.foldr_cons, ← ofBytes, ← Nat.shiftLeft_add_eq_or_of_lt (BitVec.isLt _), Nat.shiftLeft_eq]
    have hx : x.toNat < 2 ^ 8 := x.isLt
    cases i with
    | zero =>
      apply BitVec.eq_of_toNat_eq
      rw [hcons, Nat.mul_zero, Nat.shiftRight_zero, BitVec.toNat_ofNat, Nat.mul_add_mod_self_right, Nat.mod_eq_of_lt hx]
      rfl
    | succ i =>
      have htail : ofBytes (x :: r) >>> 8 = ofBytes r := by
        rw [hcons, Nat.shiftRight_eq_div_pow]; omega
      rw [Nat.mul_succ, Nat.add_comm, Nat.shiftRight_add, htail, ih, List.getD_cons_succ]

/-- The bytes of a list stand in memory after its write. -/
theorem Mem.get_write_ofBytes {m : Mem} (a : Nat) (b : List Byte) (y : Nat) (hm : m.wf = true) :
    Mem.get (Mem.write m a (ofBytes b) b.length) y = if a ≤ y ∧ y < a + b.length then b.getD (y - a) 0 else Mem.get m y := by
  rw [Mem.get_write _ _ _ _ hm, ofNat_ofBytes_shiftRight]

theorem State.addTraffic_frame (s : State) (die i n : Nat) : ∃ t, s.addTraffic die i n = { s with traffic := t } := by
  unfold State.addTraffic
  dsimp only
  split
  · exact ⟨s.traffic, rfl⟩
  · exact ⟨_, rfl⟩

/-- From s to u only the fabric changed, and which course words the migration has used. -/
def State.SameButCourse (s u : State) : Prop := ∃ f n, u = { s with fabric := f, gliem := { s.gliem with migcrs := n } }

/-- A migration's message takes its other course word or ends (R433). -/
theorem State.migrateAgain_frame (s : State) (o : Outstanding) (first : Nat) (alt : BitVec 64) :
    s.SameButCourse (s.migrateAgain o first alt) := by
  unfold State.migrateAgain
  dsimp only
  by_cases hcopy : s.copying first = true
  · rw [if_pos hcopy, if_pos hcopy]
    exact iteInduction (fun _ => ⟨_, _, rfl⟩) fun _ => ⟨_, _, rfl⟩
  · rw [if_neg hcopy, if_neg hcopy]
    exact iteInduction (fun _ => ⟨_, s.gliem.migcrs, rfl⟩) fun _ => ⟨_, s.gliem.migcrs, rfl⟩

/-- Sending bytes of the moving page changes the fabric, the traffic counters, and how far the migration has come (R433). -/
theorem State.sendPage_frame (s : State) (off : Nat) (b : Option (List Byte)) :
    ∃ f t n c r, s.sendPage off b =
      { s with fabric := f, traffic := t, gliem := { s.gliem with migseq := n, migcrs := c, migref := r } } := by
  unfold State.sendPage
  dsimp only
  split
  · exact ⟨s.fabric, s.traffic, _, _, true, rfl⟩
  · split
    · obtain ⟨t, ht⟩ := State.addTraffic_frame _ _ _ _
      rw [ht]
      exact ⟨_, t, _, _, _, rfl⟩
    · obtain ⟨f, n, hf⟩ := State.migrateAgain_frame _ _ _ _
      obtain ⟨t, ht⟩ := State.addTraffic_frame _ _ _ _
      rw [hf, ht]
      exact ⟨f, t, _, n, _, rfl⟩

/-- A write at its home, whether or not its page moves (`State.homeWrite_frame` is the case that it does not). -/
theorem State.homeWrite_frame_any (s : State) (pa : Nat) (b : List Byte) :
    ∃ e l f t g, s.homeWrite pa b =
      { s with hbm := Mem.write s.hbm pa (ofBytes b) b.length, errors := e, tagOf := l, fabric := f, traffic := t, gliem := g } := by
  obtain ⟨e, he⟩ := State.clearErrors_frame { s with hbm := Mem.write s.hbm pa (ofBytes b) b.length } pa b.length
  unfold State.homeWrite
  dsimp only
  rw [he]
  split
  · obtain ⟨f, t, n, c, r, h⟩ := State.sendPage_frame _ _ _
    rw [h]
    exact ⟨e, _, f, t, _, rfl⟩
  · exact ⟨e, _, s.fabric, s.traffic, s.gliem, rfl⟩

end Sys2Proof.Machine
end

section
/-! Proofs about the debug blocks and the Ultra Ethernet endpoint (R437, R484, R487). -/

namespace Sys2Proof.Machine

open Sys2Proof

/-! ## The debug block of a context (R484) -/

/-- The machine with team h and the debug block of a context as given. -/
def State.putDebug (s : State) (h : Nat) (t : Team) (ctx : Nat) (c : Context) (d : Debug) : State :=
  (s.setTeam h t).setCtx ctx { c with dblk := d }

theorem State.putDebug_team (s : State) (h : Nat) (t : Team) (ctx : Nat) (c : Context) (d : Debug) :
    (s.putDebug h t ctx c d).team? h = some t := tget_tput_same _ _ _

theorem State.putDebug_team_other (s : State) {h g : Nat} (t : Team) (ctx : Nat) (c : Context) (d : Debug) (hg : g ≠ h) :
    (s.putDebug h t ctx c d).team? g = s.team? g := tget_tput_other _ _ _ _ hg

theorem State.putDebug_ctx (s : State) (h : Nat) (t : Team) (ctx : Nat) (c : Context) (d : Debug) :
    (s.putDebug h t ctx c d).ctx? ctx = some { c with dblk := d } := tget_tput_same _ _ _

theorem State.putDebug_ctx_other (s : State) (h : Nat) (t : Team) {ctx x : Nat} (c : Context) (d : Debug) (hx : x ≠ ctx) :
    (s.putDebug h t ctx c d).ctx? x = s.ctx? x := tget_tput_other _ _ _ _ hx

theorem State.modDebug_some {s : State} {ctx : Nat} {c : Context} (f : Debug → Debug) (hc : s.ctx? ctx = some c) :
    s.modDebug ctx f = s.setCtx ctx { c with dblk := f c.dblk } := State.modCtx_some _ hc

theorem State.modDebug_setTeam {s : State} {ctx : Nat} {c : Context} (h : Nat) (t : Team) (f : Debug → Debug)
    (hc : s.ctx? ctx = some c) : (s.setTeam h t).modDebug ctx f = s.putDebug h t ctx c (f c.dblk) :=
  State.modDebug_some (s := s.setTeam h t) f hc

/-- A refused command leaves its cause in the block, and nothing else changes. -/
theorem State.refuseDebug_is {s : State} {ctx : Nat} {c : Context} (code : Nat) (hc : s.ctx? ctx = some c) :
    CtxIs s (s.refuseDebug ctx code) ctx { c with dblk := { c.dblk with err := true, code := code, busy := false } } := by
  rw [State.refuseDebug, State.modDebug_some _ hc]
  exact CtxIs.set

theorem State.withDebug_detached {s : State} {ctx : Nat} {c : Context} (k : Context → Team → State) (hc : s.ctx? ctx = some c)
    (hmask : s.pkg.dbgmask.getLsbD ctx = false) : s.withDebug ctx k = s.refuseDebug ctx 1 := by
  simp [State.withDebug, hc, hmask]

/-- Each command is one of the selected team of an attached context. -/
theorem exec_debug_eq_withDebug {e : Nat → Instr} (he : e ∈ ([.debugStop, .debugRelease, .debugRead, .debugWrite] : List (Nat → Instr)))
    (s : State) (ctx : Nat) : ∃ k, exec (e ctx) s = .next (s.withDebug ctx k) := by
  simp only [List.mem_cons, List.not_mem_nil, or_false] at he
  rcases he with rfl | rfl | rfl | rfl
  · exact ⟨_, rfl⟩
  · exact ⟨_, rfl⟩
  · exact ⟨_, rfl⟩
  · exact ⟨_, rfl⟩

/-! ### Strands stopped and let go -/

/-- A team with some of its strands changed, each from what it was. -/
def Team.setStrands (t : Team) (f : Strand → Strand) (ks : List Nat) : Team :=
  ks.foldl (fun t k => t.setStrand k (f (t.strand k))) t

theorem Team.setStrands_frame (t : Team) (f : Strand → Strand) (ks : List Nat) :
    ∃ ss, t.setStrands f ks = { t with strands := ss } := by
  induction ks generalizing t with
  | nil => exact ⟨t.strands, rfl⟩
  | cons k r ih => exact ih (t.setStrand k (f (t.strand k)))

theorem Team.setStrands_regs (t : Team) (f : Strand → Strand) (ks : List Nat) : (t.setStrands f ks).regs = t.regs := by
  obtain ⟨ss, h⟩ := t.setStrands_frame f ks
  rw [h]

theorem Team.setStrands_strand (t : Team) (f : Strand → Strand) {ks : List Nat} (hks : ∀ k ∈ ks, k ≤ 4) (hnd : ks.Nodup) {j : Nat}
    (hj : j ≤ 4) : (t.setStrands f ks).strand j = if j ∈ ks then f (t.strand j) else t.strand j := by
  induction ks generalizing t with
  | nil => rfl
  | cons k r ih =>
    have hk : k ≤ 4 := hks k List.mem_cons_self
    obtain ⟨hnot, hnd'⟩ := List.nodup_cons.mp hnd
    refine (ih (t.setStrand k (f (t.strand k))) (fun j hj => hks j (List.mem_cons_of_mem _ hj)) hnd').trans ?_
    by_cases hjk : j = k
    · subst hjk
      rw [if_neg hnot, if_pos List.mem_cons_self, Team.strand_setStrand_same _ _ _ hk]
    · simp only [Team.strand_setStrand_other _ _ _ _ hk hj hjk, List.mem_cons, hjk, false_or]

/-- A team let go by the debugger. -/
def Team.debugReleased (t : Team) : Team :=
  ({ t with dbg := false } : Team).setStrands (fun d => { d with stopped := false }) (List.range 5)

theorem Team.debugReleased_frame (t : Team) : ∃ ss, t.debugReleased = { t with dbg := false, strands := ss } :=
  Team.setStrands_frame ..

theorem Team.debugReleased_strand (t : Team) {k : Nat} (hk : k ≤ 4) :
    t.debugReleased.strand k = { t.strand k with stopped := false } :=
  (Team.setStrands_strand _ _ (fun _ h => Nat.le_of_lt_succ (List.mem_range.mp h)) List.nodup_range hk).trans
    (if_pos (List.mem_range.mpr (Nat.lt_succ_of_le hk)))

theorem Team.mem_liveStrands_le {t : Team} {k : Nat} (hk : k ∈ t.liveStrands) : k ≤ 4 :=
  (List.mem_range.mp (List.mem_filter.mp hk).1).le

/-- A team with all its local stores performed (R298). -/
def Team.flushedAll (t : Team) : Team := (List.range 5).foldl Team.flushSpills t

theorem Team.flushedAll_strand (t : Team) {k : Nat} (hk : k ≤ 4) : t.flushedAll.strand k = { t.strand k with spills := [] } := by
  obtain ⟨_, _, _, _, _, _, _, ss, hflush, hss⟩ := t.flushAll_frame
  rw [Team.flushedAll, hflush]
  exact hss k hk

theorem Team.flushedAll_regs (t : Team) : t.flushedAll.regs = t.regs := by
  obtain ⟨_, _, _, _, _, _, _, _, hflush, -⟩ := t.flushAll_frame
  rw [Team.flushedAll, hflush]

theorem Team.flushedAll_liveStrands (t : Team) : t.flushedAll.liveStrands = t.liveStrands :=
  List.filter_congr fun _ hk => (congrArg Strand.live (t.flushedAll_strand (List.mem_range.mp hk).le)).trans rfl

theorem Team.debugStopped_eq (t : Team) :
    t.debugStopped = t.flushedAll.setStrands (fun d => { d with stopped := true }) t.liveStrands := by
  rw [← Team.flushedAll_liveStrands]
  rfl

theorem Team.debugStopped_regs (t : Team) : t.debugStopped.regs = t.regs := by
  rw [Team.debugStopped_eq, Team.setStrands_regs, Team.flushedAll_regs]

theorem Team.debugStopped_strand {t : Team} {k : Nat} (hk : k ∈ t.liveStrands) :
    t.debugStopped.strand k = { t.strand k with spills := [], stopped := true } := by
  have hk4 := Team.mem_liveStrands_le hk
  rw [Team.debugStopped_eq, Team.setStrands_strand _ _ (fun _ h => Team.mem_liveStrands_le h) (List.nodup_range.filter _) hk4,
    if_pos hk, Team.flushedAll_strand _ hk4]

/-! ### The commands of an attached context -/

section
variable {s : State} {ctx : Nat} {c : Context} {t : Team} (hc : s.ctx? ctx = some c) (hmask : s.pkg.dbgmask.getLsbD ctx = true)
  (ht : s.debugTeam ctx c.dblk = some t)
include hc hmask ht

theorem State.withDebug_attached (k : Context → Team → State) : s.withDebug ctx k = k c t := by
  simp [State.withDebug, hc, hmask, ht]

/-- A stop asks the team to stop; interrupt 34 is raised where that has stopped it. -/
theorem exec_debugStop {t' : Team} (ht' : t' = { t with dbg := true }) : exec (.debugStop ctx) s = .next
    { s.putDebug t.handle t' ctx c
        { c.dblk with busy := false, stopping := if t'.isStopped then c.dblk.stopping else c.dblk.stopping ++ [t.handle] } with
      interrupts := s.interrupts ++ if t'.isStopped = true ∧ t.isStopped = false then [34] else [] } := by
  change execDebugStop ctx s = _
  rw [execDebugStop, State.withDebug_attached hc hmask ht, ← ht']
  simp only [State.modDebug_setTeam _ _ _ hc]
  by_cases hnew : t'.isStopped = true ∧ t.isStopped = false
  · simp only [hnew, and_self, if_true, Bool.not_false, Bool.and_self]
    rfl
  · rw [if_neg hnew, List.append_nil, if_neg (by simpa using hnew)]
    rfl

theorem exec_debugRelease_running (hrun : t.isStopped = false) : exec (.debugRelease ctx) s = .next (s.refuseDebug ctx 3) := by
  change execDebugRelease ctx s = _
  rw [execDebugRelease, State.withDebug_attached hc hmask ht, hrun]
  rfl

theorem exec_debugRelease_stopped (hstop : t.isStopped = true) : exec (.debugRelease ctx) s =
    .next (s.putDebug t.handle t.debugReleased ctx c { c.dblk with busy := false }) := by
  have hhandle : t.debugReleased.handle = t.handle := by
    obtain ⟨ss, hrel⟩ := t.debugReleased_frame
    rw [hrel]
  change execDebugRelease ctx s = _
  rw [execDebugRelease, State.withDebug_attached hc hmask ht, hstop]
  change Host.Outcome.next ((s.setTeam t.debugReleased.handle t.debugReleased).modDebug ctx fun d => { d with busy := false }) = _
  rw [State.modDebug_setTeam _ _ _ hc, hhandle]

/-- A read that is allowed wakes the granules it reaches, and stalls or brings the space's bytes to the block (R42, R43). -/
theorem exec_debugRead {w : Team × Bool} {got : Mem} (hallow : spaceRefusal t c.dblk false = none)
    (hw : w = t.wake s.cycle (debugGranules t c.dblk)) (hgot : got = (s.setTeam t.handle w.1).spaceRead c w.1 c.dblk) :
    exec (.debugRead ctx) s = .next (s.putDebug t.handle w.1 ctx c
      (if w.2 = true then { c.dblk with reading := true, busy := true }
      else { c.dblk with
        data := (if c.dblk.space = 0 then got.filter fun e => c.dblk.off.toNat + e.1 < 4096 * t.regsz else got)
          ++ c.dblk.data.filter (fun e => c.dblk.len ≤ e.1),
        gated := decide (c.dblk.space = 0) && decide (4096 * t.regsz < c.dblk.off.toNat + c.dblk.len),
        busy := false, reading := false })) := by
  have hsame : w.1.handle = t.handle ∧ w.1.regsz = t.regsz := by
    obtain ⟨g, hg⟩ := t.wake_frame s.cycle (debugGranules t c.dblk)
    rw [hw, hg]
    exact ⟨rfl, rfl⟩
  obtain ⟨hhandle, hregsz⟩ := hsame
  change execDebugRead ctx s = _
  rw [execDebugRead, State.withDebug_attached hc hmask ht]
  dsimp only
  rw [hallow]
  dsimp only
  rw [← hw, hhandle, hregsz, State.modDebug_setTeam _ _ _ hc, State.modDebug_setTeam _ _ _ hc, ← hgot]
  cases w.2
  · rfl
  · rfl

/-- A write that is allowed changes the team by its space; `old` and `new` are the save area before and after. -/
theorem exec_debugWrite (hallow : spaceRefusal t c.dblk true = none) : ∃ old new, exec (.debugWrite ctx) s =
    .next (s.putDebug t.handle (t.writeSpace s.cycle c.dblk old new) ctx c { c.dblk with busy := false }) := by
  change ∃ old new, execDebugWrite ctx s = _
  rw [execDebugWrite, State.withDebug_attached hc hmask ht]
  dsimp only
  rw [hallow]
  dsimp only
  rw [State.modDebug_setTeam _ _ _ hc]
  exact ⟨_, _, rfl⟩

end

/-- The granules that a write of the registers reaches are touched, and its bytes below the allocation's end stored (R42, R43). -/
theorem Team.writeSpace_registers (t : Team) (cycle : Nat) {d : Debug} (old new : Mem) (hspace : d.space = 0) :
    t.writeSpace cycle d old new = { (t.wake cycle (debugGranules t d)).1 with
      regs := Mem.writeN t.regs d.off.toNat (Mem.readN d.data 0 d.len) (ones (4096 * t.regsz - d.off.toNat)) d.len } := by
  unfold Team.writeSpace
  rw [hspace]
  rfl

theorem Team.writeSpace_tiles (t : Team) (cycle : Nat) {d : Debug} (old new : Mem) (hspace : d.space = 9) :
    t.writeSpace cycle d old new = t := by
  unfold Team.writeSpace
  rw [hspace]
  rfl

/-- A byte after a write that is cut at address `hi`. -/
theorem Mem.get_writeN_below {m : Mem} (a v hi n y : Nat) (hm : m.wf = true) : Mem.get (Mem.writeN m a v (ones (hi - a)) n) y =
    if a ≤ y ∧ y < a + n ∧ y < hi then BitVec.ofNat 8 (v >>> (8 * (y - a))) else Mem.get m y := by
  rw [Mem.get_writeN _ _ _ _ _ hm, testBit_ones]
  exact if_congr (by rw [decide_eq_true_eq]; omega) rfl rfl

/-- The one team of a context that was to stop has stopped (R484). -/
theorem exec_debugTeamStopped {s : State} {ctx h : Nat} {c : Context} {t : Team} (ht : s.team? h = some t) (hc : s.ctx? ctx = some c)
    (hdue : (s.handlesOf ctx fun t => t.dbg && t.resident && !t.isStopped &&
      t.liveStrands.all fun k => (t.strand k).mayStop && (!t.halted || (t.strand k).flights.isEmpty)) = [h]) :
    exec (.debugTeamStopped ctx) s = .next
      ((s.putDebug h t.debugStopped ctx c { c.dblk with stopping := c.dblk.stopping.filter (· ≠ h) }).interrupt 34) := by
  change execDebugTeamStopped ctx s = _
  rw [execDebugTeamStopped]
  dsimp only
  rw [hdue, List.foldl_cons, List.foldl_nil, State.modTeam_some _ ht, State.modDebug_setTeam _ _ _ hc]

/-! ## The endpoint (R437, R487) -/

/-- The place of the next completion of a queue pair. -/
def UeQp.completionAt (q : UeQp) : Nat := bits q.cqbase.toNat 12 40 * 4096 + 16 * (q.cqtail.toNat % 1024)

/-- A queue pair after the completion of its oldest entry. -/
def UeQp.completed (q : UeQp) : UeQp := { q with done := q.done + 1, cqtail := q.cqtail + 1 }

/-- A completion moves its queue pair on and writes its 16 bytes. -/
theorem State.complete_frame (s : State) (k status count : Nat) : ∃ e l f t g, s.complete k status count =
    { s with
      ue := tput s.ue k (s.qp k).completed, errors := e, tagOf := l, fabric := f, traffic := t, gliem := g,
      hbm := Mem.write s.hbm (s.qp k).completionAt
        (ofBytes (toBytes 16 ((s.qp k).done % 2 ^ 32 + status * 2 ^ 32 + count * 2 ^ 64))) 16 } :=
  State.homeWrite_frame_any { s with ue := tput s.ue k (s.qp k).completed } _ _

theorem State.complete_qp (s : State) (k status count : Nat) : (s.complete k status count).qp k = (s.qp k).completed := by
  obtain ⟨_, _, _, _, _, h⟩ := s.complete_frame k status count
  rw [h]
  exact congrArg (Option.getD · {}) (tget_tput_same s.ue k _)

/-- The completion's 16 bytes: the entry's index, the status and the byte count. -/
theorem State.complete_bytes {s : State} (k : Nat) {status count : Nat} (hm : s.hbm.wf = true) (hs : status < 2 ^ 32)
    (hc : count < 2 ^ 32) : Mem.readN (s.complete k status count).hbm (s.qp k).completionAt 16 =
      (s.qp k).done % 2 ^ 32 + status * 2 ^ 32 + count * 2 ^ 64 := by
  obtain ⟨_, _, _, _, _, h⟩ := s.complete_frame k status count
  rw [h, Mem.readN_write _ _ _ hm, ofBytes_toBytes, Nat.mod_mod]
  exact Nat.mod_eq_of_lt (by omega)

/-- A byte that is none of the completion's stands as it did. -/
theorem State.complete_byte_other {s : State} (k status count : Nat) {y : Nat} (hm : s.hbm.wf = true)
    (hy : y < (s.qp k).completionAt ∨ (s.qp k).completionAt + 16 ≤ y) :
    Mem.get (s.complete k status count).hbm y = Mem.get s.hbm y := by
  obtain ⟨_, _, _, _, _, h⟩ := s.complete_frame k status count
  rw [h, Mem.get_write _ _ _ _ hm, if_neg (by omega)]

/-- What is stored from outside stands in memory. -/
theorem State.storeOutside_frame (s : State) {pa : Nat} {b : List Byte} (h : pa + b.length ≤ deviceBase) :
    ∃ e l f t g, s.storeOutside pa b =
      { s with hbm := Mem.write s.hbm pa (ofBytes b) b.length, errors := e, tagOf := l, fabric := f, traffic := t, gliem := g } := by
  rw [State.storeOutside, if_neg (Nat.not_lt.mpr h)]
  exact s.homeWrite_frame_any pa b

theorem State.addTraffic_keeps (s : State) (die i n : Nat) (hm : s.hbm.wf = true) :
    (s.addTraffic die i n).ue = s.ue ∧ (s.addTraffic die i n).hbm.wf = true := by
  obtain ⟨t, ht⟩ := s.addTraffic_frame die i n
  rw [ht]
  exact ⟨rfl, hm⟩

/-- Storing bytes from outside, counted at a die, moves no queue pair on and keeps memory's form. -/
theorem State.storeOutside_keeps (s : State) (die i n pa : Nat) (b : List Byte) (hm : s.hbm.wf = true) :
    ((s.addTraffic die i n).storeOutside pa b).ue = s.ue ∧ ((s.addTraffic die i n).storeOutside pa b).hbm.wf = true := by
  obtain ⟨t, ht⟩ := s.addTraffic_frame die i n
  rw [ht]
  by_cases h : pa + b.length ≤ deviceBase
  · obtain ⟨_, _, _, _, _, hw⟩ := State.storeOutside_frame { s with traffic := t } h
    rw [hw]
    exact ⟨rfl, Mem.wf_write _ _ _ hm⟩
  · rw [State.storeOutside, if_pos (Nat.lt_of_not_le h)]
    exact ⟨rfl, hm⟩

/-- A well-formed entry of the operation is performed, if its status says so, and completes. -/
theorem State.performSend_served {s : State} {k op status x : Nat} (f : SendEntry → State → State) (hx : s.nextSend k = some x)
    (hgood : sendBad x = false) (hop : (sendEntryOf x).op = op) (hs : status < 3) : s.performSend k op status f =
      (if status = 0 then f (sendEntryOf x) s else s).complete k status (if status = 0 then (sendEntryOf x).len else 0) := by
  unfold State.performSend
  simp only [hx, hgood, hop, Nat.not_le.mpr hs, ne_eq, not_true_eq_false, decide_false, Bool.or_self, Bool.false_eq_true, if_false]
  split
  · next h => rw [h]
  · rfl

theorem sendEntryOf_len_lt (x : Nat) : (sendEntryOf x).len < 2 ^ 32 := Nat.mod_lt _ (Nat.two_pow_pos _)

/-- Where performing the entry moves no queue pair on and keeps memory's form, the entry completes in its queue. -/
theorem State.performSend_completes {s : State} {k op status x : Nat} {f : SendEntry → State → State} (hx : s.nextSend k = some x)
    (hgood : sendBad x = false) (hop : (sendEntryOf x).op = op) (hs : status < 3) (hm : s.hbm.wf = true)
    (hf : (f (sendEntryOf x) s).ue = s.ue ∧ (f (sendEntryOf x) s).hbm.wf = true) :
    (s.performSend k op status f).qp k = (s.qp k).completed ∧
      Mem.readN (s.performSend k op status f).hbm (s.qp k).completionAt 16 =
        (s.qp k).done % 2 ^ 32 + status * 2 ^ 32 + (if status = 0 then (sendEntryOf x).len else 0) * 2 ^ 64 := by
  rw [State.performSend_served f hx hgood hop hs]
  have hlen := sendEntryOf_len_lt x
  have hcount : (if status = 0 then (sendEntryOf x).len else 0) < 2 ^ 32 := by split <;> omega
  have hbase : (if status = 0 then f (sendEntryOf x) s else s).ue = s.ue ∧
      (if status = 0 then f (sendEntryOf x) s else s).hbm.wf = true := by
    split
    · exact hf
    · exact ⟨rfl, hm⟩
  obtain ⟨hue, hwf⟩ := hbase
  have hqp : (if status = 0 then f (sendEntryOf x) s else s).qp k = s.qp k := by rw [State.qp, hue, State.qp]
  rw [← hqp]
  exact ⟨State.complete_qp .., State.complete_bytes k hwf (by omega) hcount⟩

/-- Bytes read into memory stand there after the entry has completed, where the completion is put elsewhere. -/
theorem exec_ueRead_stores {s : State} {k x : Nat} {data : List Byte} (hx : s.nextSend k = some x) (hgood : sendBad x = false)
    (hop : (sendEntryOf x).op = 2) (hlen : data.length = (sendEntryOf x).len)
    (hdev : (sendEntryOf x).addr + data.length ≤ deviceBase) (hm : s.hbm.wf = true)
    (hapart : (s.qp k).completionAt + 16 ≤ (sendEntryOf x).addr ∨ (sendEntryOf x).addr + data.length ≤ (s.qp k).completionAt) :
    ∃ s', exec (.ueRead k 0 data) s = .next s' ∧
      ∀ i < data.length, Mem.get s'.hbm ((sendEntryOf x).addr + i) = data.getD i 0 := by
  refine ⟨_, rfl, fun i hi => ?_⟩
  obtain ⟨t, ht⟩ := s.addTraffic_frame (homeDie (sendEntryOf x).addr) 9 (sendEntryOf x).len
  obtain ⟨_, _, _, _, _, hw⟩ := State.storeOutside_frame { s with traffic := t } hdev
  rw [State.performSend_served _ hx hgood hop (by decide), if_pos rfl, if_pos rfl, ht, ← hlen, List.take_length, hw,
    State.complete_byte_other _ _ _ (Mem.wf_write _ _ _ hm) (by change _ < (s.qp k).completionAt ∨ (s.qp k).completionAt + _ ≤ _; omega)]
  refine (Mem.get_write_ofBytes _ data _ hm).trans ?_
  rw [if_pos (by omega), Nat.add_sub_cancel_left]

/-- Settles O54: each command of the debugger is one of the selected team of an attached context; a send entry of a queue pair is
performed and completed, or completed alone. -/
theorem debugAndEndpointEvents : Obligations.DebugAndEndpointEvents := by
  unfold Obligations.DebugAndEndpointEvents
  refine ⟨?stop, ?detached, ?stopped, ?release, ?running, ?read, ?write, fun s k v => rfl, ?complete, ?stored, ?timeout, ?packet⟩
  case stop =>
    intro s ctx c t hc hmask ht
    exact ⟨_, exec_debugStop hc hmask ht rfl, tget_tput_same _ _ _, tget_tput_same _ _ _, rfl⟩
  case detached =>
    intro e he s ctx c hc hmask
    obtain ⟨k, hexec⟩ := exec_debug_eq_withDebug he s ctx
    rw [hexec, State.withDebug_detached k hc hmask]
    exact ⟨_, rfl, State.refuseDebug_is 1 hc⟩
  case stopped =>
    intro s ctx h c t ht hc hdue
    exact ⟨_, t.debugStopped, exec_debugTeamStopped ht hc hdue, tget_tput_same _ _ _, tget_tput_same _ _ _, t.debugStopped_regs,
      fun k hk => Team.debugStopped_strand hk, rfl⟩
  case release =>
    intro s ctx c t hc hmask ht hstop
    obtain ⟨ss, hrel⟩ := t.debugReleased_frame
    exact ⟨_, t.debugReleased, exec_debugRelease_stopped hc hmask ht hstop, State.putDebug_team .., by rw [hrel],
      fun k hk => t.debugReleased_strand hk, by rw [hrel], State.putDebug_ctx ..⟩
  case running =>
    intro s ctx c t hc hmask ht hrun
    exact ⟨_, exec_debugRelease_running hc hmask ht hrun, State.refuseDebug_is 3 hc⟩
  case read =>
    intro s ctx c t hc hmask ht hallow w got
    exact ⟨_, exec_debugRead hc hmask ht hallow rfl rfl, State.putDebug_team .., fun g hg => State.putDebug_team_other _ _ _ _ _ hg,
      fun d hd => State.putDebug_ctx_other _ _ _ _ _ hd, rfl, State.putDebug_ctx ..⟩
  case write =>
    intro s ctx c t hc hmask ht hallow
    obtain ⟨old, new, hexec⟩ := exec_debugWrite hc hmask ht hallow
    refine ⟨fun hspace hregs => ⟨_, _, hexec, State.putDebug_team .., ?_, fun a => ?_, State.putDebug_ctx ..⟩,
      fun hspace => ⟨_, hexec, ?_, State.putDebug_ctx ..⟩⟩
    · rw [Team.writeSpace_registers t _ _ _ hspace]
    · rw [Team.writeSpace_registers t _ _ _ hspace]
      exact Mem.get_writeN_below _ _ _ _ _ hregs
    · rw [Team.writeSpace_tiles t _ _ _ hspace]
      exact State.putDebug_team ..
  case complete =>
    intro s k x status hx hgood hs hm q e a done
    refine ⟨fun hop => ⟨_, rfl, ?_⟩, fun hop => ⟨_, rfl, ?_⟩, fun hop data => ⟨_, rfl, ?_⟩⟩
    · exact State.performSend_completes hx hgood hop hs hm (State.addTraffic_keeps s _ _ _ hm)
    · exact State.performSend_completes hx hgood hop hs hm (State.addTraffic_keeps s _ _ _ hm)
    · exact State.performSend_completes hx hgood hop hs hm (State.storeOutside_keeps s _ _ _ _ _ hm)
  case stored =>
    intro s k x data hx hgood hop hlen hdev hm q a hapart
    exact exec_ueRead_stores hx hgood hop hlen hdev hm hapart
  case timeout =>
    intro s k x hx hgood hm q
    refine ⟨s.complete k 2 0, ?_, State.complete_qp .., ?_⟩
    · change execUeCompletionTimeout k s = _
      simp only [execUeCompletionTimeout, hx, hgood, Bool.false_eq_true, if_false]
    · exact State.complete_bytes k hm (by decide) (by decide)
  case packet =>
    intro s port die pa data hlen hdev hm
    obtain ⟨t, ht⟩ := s.addTraffic_frame die 9 data.length
    obtain ⟨_, _, _, _, _, hw⟩ := State.storeOutside_frame { s with traffic := t } hdev
    refine ⟨(s.addTraffic die 9 data.length).storeOutside pa data, ?_, fun a => ?_⟩
    · change execUePacketReceive port die pa data s = _
      rw [execUePacketReceive, if_neg (Nat.not_lt.mpr hlen)]
    · rw [ht, hw]
      exact Mem.get_write_ofBytes pa data a hm

end Sys2Proof.Machine
end

section
/-! Proofs about the Gliem fabric (R411–R434). -/

namespace Sys2Proof.Machine

open Sys2Proof

/-! ## Routers (R418, R419) -/

theorem State.inject_transit (s : State) (p : Packet) : tget (s.inject p).fabric.transit s.fabric.nextPkt = some p :=
  tget_tput_same _ _ _

/-- The fault of a packet that came by some port starts back on those ports. -/
theorem State.returnFault_entered {p : Packet} (s : State) (cause hop : Nat) (h : p.entered ≠ []) :
    s.returnFault p cause hop = s.inject { p with isReply := true, hop := 0, payload := .courseFault cause hop } := by
  rw [State.returnFault, if_neg (by simpa using h)]

theorem exec_packetHop_up {s : State} {n port : Nat} {p : Packet} (hp : tget s.fabric.transit n = some p)
    (hport : routePort p = some port) (hup : s.portUp port = true) : exec (.packetHop n) s = .next
      { s with fabric := { s.fabric with
        transit := tdel s.fabric.transit n,
        links := tput s.fabric.links n { port := port, channel := p.hop, packet := { p with
          hop := p.hop + 1, entered := if p.isReply then p.entered.dropLast else p.entered } } } } := by
  have hup' : (s.dropTransit n).portUp port = true := hup
  change execPacketHop n s = _
  simp only [execPacketHop, hp, hport, hup', if_true]
  rfl

/-- A packet that cannot go on is taken from the router: a reply is lost, the fault of a request starts back. -/
theorem exec_packetHop_down {s : State} {n : Nat} {p : Packet} (hp : tget s.fabric.transit n = some p)
    (hdown : ∀ port, routePort p = some port → s.portUp port = false) : exec (.packetHop n) s =
      .next (if p.isReply then s.dropTransit n else (s.dropTransit n).returnFault p 7 p.hop) := by
  change execPacketHop n s = _
  cases hport : routePort p with
  | none => simp only [execPacketHop, hp, hport]
  | some port =>
    have hdown' : (s.dropTransit n).portUp port = false := hdown port hport
    simp only [execPacketHop, hp, hport, hdown', Bool.false_eq_true, if_false]

/-! ## Arrivals (R415, R418, R419) -/

section
variable {s : State} {ch : Chart} {p : Packet} (port : Nat) (hch : s.chart = some ch)
include hch

theorem exec_packetArrive_reply (hr : p.isReply = true) (hent : p.entered ≠ []) :
    exec (.packetArrive { port := port, packet := p }) s = .next (s.inject p) := by
  change execPacketArrive _ s = _
  have hne : p.entered.isEmpty = false := by simpa using hent
  simp only [execPacketArrive, hch, hr, hne, if_true, Bool.not_false]

theorem exec_packetArrive_passes (hr : p.isReply = false) (hhop : p.hop ≤ nhOf p.course) :
    exec (.packetArrive { port := port, packet := p }) s = .next (s.inject { p with entered := p.entered ++ [port] }) := by
  change execPacketArrive _ s = _
  simp only [execPacketArrive, hch, hr, hhop, Bool.false_eq_true, if_false, if_true]

theorem exec_packetArrive_astray (hr : p.isReply = false) (hhop : nhOf p.course < p.hop)
    (hdest : destOf p.course ≠ ch.self ∨ p.hop ≠ nhOf p.course + 1) : exec (.packetArrive { port := port, packet := p }) s =
      .next (s.returnFault { p with entered := p.entered ++ [port] } 8 (nhOf p.course)) := by
  change execPacketArrive _ s = _
  have hhere : ¬ (decide (destOf p.course = ch.self) && decide (p.hop = nhOf p.course + 1)) = true := by
    simpa [imp_iff_not_or] using hdest
  simp only [execPacketArrive, hch, hr, Nat.not_le.mpr hhop, hhere, Bool.false_eq_true, if_false]

theorem exec_packetArrive_here (hr : p.isReply = false) (hhop : p.hop = nhOf p.course + 1) (hdest : destOf p.course = ch.self) :
    exec (.packetArrive { port := port, packet := p }) s = .next (s.takeRequest { p with entered := p.entered ++ [port] }) := by
  change execPacketArrive _ s = _
  simp only [execPacketArrive, hch, hr, hdest, hhop, Bool.false_eq_true, if_false, decide_true, Bool.and_self, if_true,
    Nat.not_succ_le_self]

end

/-! ## A request at its home (R426, R428–R431) -/

/-- A message that is due, where none of its flow came early and none has come when it is performed, is performed and no other. -/
theorem State.takeRequest_due {s : State} {p : Packet} (hseq : p.seq = s.flowNext p)
    (hearly : s.fabric.early = []) (hwait : s.mustWait p = false) (hafter : ((s.flowTaken p).serveRequest p).fabric.early = []) :
    s.takeRequest p = (s.flowTaken p).serveRequest p := by
  have hturn : (p.seq + 2 ^ 32 - s.flowNext p) % 2 ^ 32 < 2 ^ 31 := by
    rw [← hseq, Nat.add_sub_cancel_left]; decide
  have horder : s.inOrder p 1 = (s.flowTaken p).serveRequest p := by
    rw [State.inOrder, hafter]
    rfl
  unfold State.takeRequest
  dsimp only
  rw [if_pos hturn, hearly, if_neg (by simp), if_pos (by simp [← hseq, hwait]), List.length_nil, horder, hafter]
  rfl

theorem State.serveAccess_admitted {s : State} {p : Packet} {pa n : Nat} {u : FabricUse} {x : Export} (k : State → State)
    (hok : s.refusal p.src p.hd pa n u = none) (hmoved : ∀ m ∈ s.moved, m.pa ≠ pa / 4096 * 4096)
    (hx : s.exportFor p.src pa n = some x) (hmig : x.mig = false) : s.serveAccess p pa n u k = k s := by
  have hnone : (s.moved.find? fun m => m.pa = pa / 4096 * 4096) = none :=
    List.find?_eq_none.mpr fun m hm => by simpa using hmoved m hm
  simp only [State.serveAccess, hok, hnone, hx, hmig, Bool.false_eq_true, if_false]

/-- A write that is admitted, of lines that are whole, to a page that stays: its bytes are stored, and it is acknowledged. -/
theorem State.serveRequest_write {s : State} {p : Packet} {pa : Nat} {b : List Byte} {x : Export} (hpay : p.payload = .write pa b)
    (hok : s.refusal p.src p.hd pa b.length .store = none) (hmoved : ∀ m ∈ s.moved, m.pa ≠ pa / 4096 * 4096)
    (hx : s.exportFor p.src pa b.length = some x) (hmig : x.mig = false) (hwhole : s.partialBad pa b.length (ones b.length) = false)
    (hstill : s.migrating pa = false) : ∃ t e l, s.serveRequest p =
      State.reply { s with traffic := t, errors := e, tagOf := l, hbm := Mem.write s.hbm pa (ofBytes b) b.length } p .ack := by
  obtain ⟨t, ht⟩ := s.addTraffic_frame (homeDie pa) 7 b.length
  obtain ⟨e, l, hw⟩ := State.homeWrite_frame (s := { s with traffic := t }) b hstill
  have hwhole' : State.partialBad { s with traffic := t } pa b.length (ones b.length) = false := hwhole
  refine ⟨t, e, l, ?_⟩
  unfold State.serveRequest
  simp only [hpay]
  rw [State.serveAccess_admitted _ hok hmoved hx hmig]
  simp only [ht, hwhole', Bool.false_eq_true, if_false, hw]

/-! ## Course faults and timeouts (R424) -/

/-- The fault of the course that a message is on marks the course, and sends the message again unless it is held or answered. -/
theorem State.courseFault_own {s : State} {n : Nat} {o : Outstanding} (cause hop : Nat) (ho : s.outstanding? n = some o)
    (hmig : ∀ first alt, o.origin ≠ .migration first alt) : s.courseFault n o.packet.course cause hop =
      if o.held = false ∧ o.moved = none then (s.failCourse o.packet.ctx o.peer o.course cause hop).resend o
      else s.failCourse o.packet.ctx o.peer o.course cause hop := by
  have hindex : s.courseIndex o o.packet.course = some o.course := if_pos rfl
  unfold State.courseFault
  -- `simp` takes the second arm of the marking: `hmig` excludes the first
  simp only [ho, hindex, decide_true, Bool.true_and, Bool.and_eq_true, Bool.not_eq_true', Option.isNone_iff_eq_none]

/-- The fault of a migration's message marks no course of a context. -/
theorem State.courseFault_migration {s : State} {n first : Nat} {alt : BitVec 64} {o : Outstanding} (cause hop : Nat)
    (ho : s.outstanding? n = some o) (hmig : o.origin = .migration first alt) (hheld : o.held = false) (hmoved : o.moved = none) :
    s.courseFault n o.packet.course cause hop = s.migrateAgain o first alt := by
  unfold State.courseFault
  simp only [ho, hmig, hheld, hmoved, decide_true, Bool.not_false, Bool.and_self, Option.isNone_none, if_true, State.resend]

theorem exec_requestTimeout {s : State} {n : Nat} {o : Outstanding} (ho : s.outstanding? n = some o) (hmoved : o.moved = none) :
    exec (.requestTimeout n) s = .next (if o.held then s.resend o
      else if o.sentAt + 2 ^ 20 ≤ s.cycle then s.courseFault n o.packet.course 9 0 else s) := by
  change execRequestTimeout n s = _
  rw [show (2 : Nat) ^ 20 = 1048576 from rfl]
  simp only [execRequestTimeout, ho, hmoved, Option.isSome_none, Bool.false_eq_true, if_false]
  split
  · rfl
  · split
    · rfl
    · rfl

/-! ## Course tables (R422) -/

theorem State.logEvent_ctx? (s : State) (code about ctx : Nat) : (s.logEvent code about).ctx? ctx = s.ctx? ctx := rfl

/-- The hardware's copy of a peer's entry. -/
theorem State.putCourse_ctx? {s : State} {ctx : Nat} {c : Context} (peer : Nat) (e : CourseEntry) (hc : s.ctx? ctx = some c) :
    (s.putCourse ctx peer e).ctx? ctx = some { c with courses := tput c.courses peer e } := by
  unfold State.putCourse
  dsimp only
  rw [State.modCtx_some _ hc]
  split
  · exact State.ctx?_setCtx_same ..
  · exact State.ctx?_setCtx_same ..

/-- An entry in a local frame, its line whole, is read at once. -/
theorem State.readCourse_frame {s s1 : State} {ctx peer pa n : Nat} {c : Context} (fuel : Nat) (hc : s.ctx? ctx = some c)
    (hres : s.resolve ctx 0 [] (c.crstab + 64 * peer) 64 .read { src := 7 } = (.ok (.frame pa) n, s1))
    (hwhole : s1.lineBad pa 64 = false) :
    s.readCourse ctx peer (fuel + 1) = (true, s1.putCourse ctx peer (courseEntryOf (Mem.readN s1.hbm pa 64))) := by
  rw [State.readCourse]
  simp only [hc, hres, hwhole, Bool.false_eq_true, if_false]

/-- With no change of the entry to be written back it is read. -/
theorem exec_courseTableReread_reads {s : State} {ctx : Nat} {v : Word} {c : Context} (hv : v.toNat < 2048) (hc : s.ctx? ctx = some c)
    (hback : ∀ e, c.course? v.toNat = some e → e.back = none) : exec (.courseTableReread ctx v) s =
      .next ((s.setCtx ctx { c with courses := tdel c.courses v.toNat }).readCourse ctx v.toNat 3).2 := by
  have hnone : (((s.ctx? ctx).bind fun c => c.course? v.toNat).any fun e => e.back.isSome) = false := by
    rw [hc, Option.bind_some]
    cases he : c.course? v.toNat with
    | none => rfl
    | some e => rw [Option.any_some, hback e he, Option.isSome_none]
  change execCourseTableReread ctx v s = _
  simp only [execCourseTableReread, Nat.not_le.mpr hv, if_false, hnone, Bool.false_eq_true, State.rereadCourse]
  rw [State.modCtx_some _ hc]

/-- A change of one entry of a table where it stands. -/
theorem tget_map_at {α : Type} (f : α → α) (t : List (Nat × α)) (k : Nat) :
    tget (t.map fun x => if x.1 = k then (x.1, f x.2) else x) k = (tget t k).map f := by
  induction t with
  | nil => rfl
  | cons e r ih =>
    obtain ⟨a, b⟩ := e
    by_cases h : a = k
    · simp [tget, h]
    · simpa [tget, h] using ih

/-- With a change of the entry to be written back, the entry is to be read again after that. -/
theorem exec_courseTableReread_waits {s : State} {ctx : Nat} {v : Word} {c : Context} {e : CourseEntry} (hv : v.toNat < 2048)
    (hc : s.ctx? ctx = some c) (he : c.course? v.toNat = some e) (hback : e.back ≠ none) : exec (.courseTableReread ctx v) s =
      .next (s.setCtx ctx { c with courses := c.courses.map fun x =>
        if x.1 = v.toNat then (x.1, { x.2 with reread := true }) else x }) := by
  have hsome : e.back.isSome = true := Option.isSome_iff_ne_none.mpr hback
  change execCourseTableReread ctx v s = _
  simp only [execCourseTableReread, Nat.not_le.mpr hv, if_false, hc, Option.bind_some, he, Option.any_some, hsome, if_true]
  rw [State.modCtx_some _ hc]

/-! ## Links (R411, R415, R447) -/

theorem setBit36_getLsbD (v : BitVec 36) (p i : Nat) (on : Bool) (hi : i < 36) :
    (setBit36 v p on).getLsbD i = if i = p then on else v.getLsbD i := by
  have hbit : (BitVec.ofNat 36 (2 ^ p)).getLsbD i = decide (i = p) := by
    rw [BitVec.getLsbD_ofNat, Nat.testBit_two_pow]
    simp [hi, eq_comm]
  cases on with
  | true =>
    rw [setBit36, if_pos rfl, BitVec.getLsbD_or, hbit]
    by_cases h : i = p <;> simp [h]
  | false =>
    rw [setBit36, if_neg Bool.false_ne_true, BitVec.getLsbD_and, BitVec.getLsbD_not, hbit, decide_eq_true hi]
    by_cases h : i = p <;> simp [h]

/-- The change of a plane that is in use is made. -/
theorem planeChange_made {port : Nat} {old up stuck : Bool} (hport : port < 36) (hnew : old ≠ up)
    (hkept : up = true → stuck = false) : ¬ (decide (36 ≤ port) || decide (old = up) || (up && stuck)) = true := by
  rw [decide_eq_false (Nat.not_le.mpr hport), decide_eq_false hnew]
  simpa using hkept

/-- Plane A of a port goes up or down: its bit of LINKA alone. -/
theorem State.planeChange_a {s : State} {port : Nat} {up : Bool} (hport : port < 36) (hnew : s.gliem.linka.getLsbD port ≠ up)
    (hkept : up = true → s.retired.contains (.plane port 0) = false) :
    (s.planeChange port 0 up).gliem = { s.gliem with linka := setBit36 s.gliem.linka port up } := by
  unfold State.planeChange
  dsimp only
  rw [if_pos rfl, if_neg (planeChange_made hport hnew hkept), if_pos rfl]
  rfl

/-- Plane B of a port goes up or down: its bit of LINKB alone. -/
theorem State.planeChange_b {s : State} {port : Nat} {up : Bool} (hport : port < 36) (hnew : s.gliem.linkb.getLsbD port ≠ up)
    (hkept : up = true → s.retired.contains (.plane port 1) = false) :
    (s.planeChange port 1 up).gliem = { s.gliem with linkb := setBit36 s.gliem.linkb port up } := by
  unfold State.planeChange
  dsimp only
  rw [if_neg Nat.one_ne_zero, if_neg (planeChange_made hport hnew hkept), if_neg Nat.one_ne_zero]
  rfl

/-- A plane that has been retired stays down. -/
theorem State.planeChange_retired {s : State} {port plane : Nat} (h : s.retired.contains (.plane port plane) = true) :
    s.planeChange port plane true = s := by
  unfold State.planeChange
  dsimp only
  rw [h, if_pos (by simp)]

/-! ## The chart, and the table of the accesses that the package admits (R413, R415, R429) -/

theorem allSome_eq_none {α : Type} {l : List (Option α)} : allSome l = none ↔ none ∈ l := by
  induction l with
  | nil => simp [allSome]
  | cons x r ih => cases x <;> simp [allSome, ih]

theorem allSome_eq_some {α : Type} {l : List (Option α)} {r : List α} : allSome l = some r ↔ l = r.map some := by
  induction l generalizing r with
  | nil => cases r <;> simp [allSome]
  | cons x l ih => cases x <;> cases r <;> simp [allSome, ih, and_comm]

theorem exec_chartInstall_taken {s : State} {c : Chart} (hbusy : s.gliem.cbusy = true)
    (hc : s.chartAt (bits s.gliem.chartbase.toNat 6 46 * 64) = some c) : exec .chartInstall s =
      .next { s with chart := some c, gliem := { s.gliem with cbusy := false }, root := decide (c.mroot = c.self) } := by
  change execChartInstall s = _
  simp only [execChartInstall, hbusy, hc, Bool.not_true, Bool.false_eq_true, if_false]

theorem exec_chartInstall_refused {s : State} (hbusy : s.gliem.cbusy = true)
    (hc : s.chartAt (bits s.gliem.chartbase.toNat 6 46 * 64) = none) :
    exec .chartInstall s = .next { s with gliem := { s.gliem with cbusy := false, cref := true } } := by
  change execChartInstall s = _
  simp only [execChartInstall, hbusy, hc, Bool.not_true, Bool.false_eq_true, if_false]

/-- The entries of the table that stands at EXPBASE. -/
def State.exportEntries (s : State) : List (Option (Option Export)) :=
  let x := Mem.readN s.hbm (bits s.gliem.expbase.toNat 6 46 * 64) 2048
  (List.range 64).map fun i => exportOf (bytesAt x (32 * i) 32)

theorem State.mem_exportEntries {s : State} {e : Option (Option Export)} : e ∈ s.exportEntries ↔
    ∃ i < 64, exportOf (bytesAt (Mem.readN s.hbm (bits s.gliem.expbase.toNat 6 46 * 64) 2048) (32 * i) 32) = e := by
  simp only [State.exportEntries, List.mem_map, List.mem_range]

theorem exec_exportLoad_taken {s : State} {l : List (Option Export)} (hbusy : s.gliem.ebusy = true)
    (hl : allSome s.exportEntries = some l) :
    exec .exportLoad s = .next { s with exports := l.filterMap id, gliem := { s.gliem with ebusy := false } } := by
  unfold State.exportEntries at hl
  dsimp only at hl
  change execExportLoad s = _
  unfold execExportLoad
  simp only [hbusy, hl, Bool.not_true, Bool.false_eq_true, if_false]

theorem exec_exportLoad_refused {s : State} (hbusy : s.gliem.ebusy = true) (hl : allSome s.exportEntries = none) :
    exec .exportLoad s = .next { s with gliem := { s.gliem with ebusy := false, eref := true } } := by
  unfold State.exportEntries at hl
  dsimp only at hl
  change execExportLoad s = _
  unfold execExportLoad
  simp only [hbusy, hl, Bool.not_true, Bool.false_eq_true, if_false]

/-! ## Migration (R433) -/

/-- The machine whose migration of the page at MIGPA has begun. -/
def State.migrationBegun (s : State) : State :=
  { s with
    gliem := { s.gliem with migst := 1, migfirst := s.gliem.migseq, migcrs := 0, migref := false },
    moved := s.moved.filter fun m => m.pa ≠ bits s.gliem.migpa.toNat 12 40 * 4096 }

theorem exec_migrationStart {s : State} (hidle : s.gliem.migst ≠ 1) : ∃ b, exec .migrationStart s =
    .next (s.migrationBegun.sendPage 0 (some b)) := by
  change ∃ b, execMigrationStart s = _
  unfold execMigrationStart
  simp only [hidle, if_false]
  exact ⟨_, rfl⟩

/-- The migration has ended, with its state as given: its page is counted no more. -/
def State.migrationEnded (s : State) (pa st : Nat) : State :=
  { s with gliem := { s.gliem with migst := st }, migCounts := s.migCounts.filter fun c => c.pa ≠ pa }

theorem exec_migrationSwitch_fails {s : State} (hcopying : s.gliem.migst = 1) (hfailed : s.gliem.migref = true ∨ s.gliem.migcrs = 2) :
    exec (.migrationSwitch false) s = .next (s.migrationEnded (bits s.gliem.migpa.toNat 12 40 * 4096) 3) := by
  have hfail : (s.gliem.migref || decide (s.gliem.migcrs = 2)) = true := by simpa using hfailed
  change execMigrationSwitch false s = _
  simp only [execMigrationSwitch, hcopying, hfail, ne_eq, not_true_eq_false, Bool.not_false, if_false, if_true]
  rfl

/-- The page as it is marked when it has moved. -/
def State.movedPage (s : State) : Moved :=
  { pa := bits s.gliem.migpa.toNat 12 40 * 4096, peer := s.gliem.migpeer, npa := bits s.gliem.mignpa.toNat 12 40 * 4096 }

theorem exec_migrationSwitch_moves {s : State} (hcopying : s.gliem.migst = 1) (href : s.gliem.migref = false)
    (hcourse : s.gliem.migcrs ≠ 2) (hacked : s.migrationWaits = false) : exec (.migrationSwitch true) s =
      .next (State.migrationEnded { s.sendPage 0 none with moved := (s.sendPage 0 none).moved ++ [s.movedPage] }
        (bits s.gliem.migpa.toNat 12 40 * 4096) 2) := by
  change execMigrationSwitch true s = _
  simp only [execMigrationSwitch, hcopying, href, hcourse, hacked, ne_eq, not_true_eq_false, decide_false, Bool.not_true,
    Bool.or_self, Bool.false_eq_true, if_false]
  rfl

/-! ## Moved pages at the requester (R434) -/

/-- A fault that answers a request of a stream is kept with the request. -/
theorem State.answerReq_fault {s : State} {tag : Nat} {q : Req} (o : Outstanding) (code reason : Nat) (hq : s.req? tag = some q) :
    s.answerReq tag o (.fault code reason) =
      s.setReq tag { q with st := .failed { code := code, reason := reason, info := BitVec.ofNat 64 o.va } } := by
  unfold State.answerReq
  simp only [hq]
  split
  · contradiction
  · rfl

section
variable {s : State} {n tag : Nat} {o : Outstanding} {q : Req} (ho : s.outstanding? n = some o) (hdone : o.moved = some 2)
  (horigin : o.origin = .request tag) (hq : s.req? tag = some q)
include ho hdone horigin hq

/-- A page that no leaf names: the access starts again. -/
theorem exec_movedResend_again (hwalk : s.walk o.packet.ctx o.va = .missing) :
    exec (.movedResend n) s = .next ((s.dropOutstanding o.ref).setReq tag q.again) := by
  have hq' : (s.dropOutstanding o.ref).req? tag = some q := hq
  change execMovedResend n s = _
  simp only [execMovedResend, ho, hdone, hwalk, horigin, State.askAgain, hq', ne_eq, not_true_eq_false, Bool.false_eq_true, if_false]

/-- A leaf that still names the old peer and frame: the access ends with fault 0x42. -/
theorem exec_movedResend_fault {level e l : Nat} (hwalk : s.walk o.packet.ctx o.va = .leaf level e) (hlocal : s.pteLocal e = false)
    (hpeer : ptePeer e = o.peer) (hline : payloadLine o.packet.payload = some l)
    (hframe : (ptePa e + o.va % leafSize level) / 4096 = l / 4096) : exec (.movedResend n) s =
      .next ((s.dropOutstanding o.ref).setReq tag
        { q with st := .failed { code := 0x42, reason := 0, info := BitVec.ofNat 64 o.va } }) := by
  have hq' : (s.dropOutstanding o.ref).req? tag = some q := hq
  change execMovedResend n s = _
  simp only [execMovedResend, ho, hdone, hwalk, hlocal, hpeer, hline, hframe, horigin, State.endMessage, State.deliverAnswer,
    State.answerReq_fault o _ _ hq', ne_eq, not_true_eq_false, decide_true, Bool.not_false, Bool.and_self, Option.any_some, if_false, if_true]

end

/-- A write that an entry of the table admits, come in the turn of its flow with nothing of a flow waiting: it is served, and no
other message is. -/
theorem exec_packetArrive_write {s : State} {port pa : Nat} {p : Packet} {ch : Chart} {b : List Byte} {x : Export}
    (hch : s.chart = some ch) (hr : p.isReply = false) (hhop : p.hop = nhOf p.course + 1) (hdest : destOf p.course = ch.self)
    (hseq : p.seq = s.flowNext p) (hearly : s.fabric.early = []) (hpay : p.payload = .write pa b)
    (hok : s.refusal p.src p.hd pa b.length .store = none) (hmoved : ∀ m ∈ s.moved, m.pa ≠ pa / 4096 * 4096)
    (hfree : s.awaitsPage pa = false) (hx : s.exportFor p.src pa b.length = some x) (hmig : x.mig = false)
    (hwhole : s.partialBad pa b.length (ones b.length) = false) (hstill : s.migrating pa = false) :
    ∃ t e l, exec (.packetArrive { port := port, packet := p }) s = .next (State.reply { s.flowTaken p with
      traffic := t, errors := e, tagOf := l, hbm := Mem.write s.hbm pa (ofBytes b) b.length }
        { p with entered := p.entered ++ [port] } .ack) := by
  obtain ⟨t, e, l, hserve⟩ := State.serveRequest_write (s := s.flowTaken p) (p := { p with entered := p.entered ++ [port] })
    hpay hok hmoved hx hmig hwhole hstill
  have hwait : s.mustWait { p with entered := p.entered ++ [port] } = false := by
    simp only [State.mustWait, hpay, hfree, Bool.false_and]
  have hafter : ((s.flowTaken p).serveRequest { p with entered := p.entered ++ [port] }).fabric.early = [] := by
    rw [hserve]
    exact hearly
  have htake := State.takeRequest_due (p := { p with entered := p.entered ++ [port] }) hseq hearly hwait hafter
  exact ⟨t, e, l, (exec_packetArrive_here port hch hr hhop hdest).trans (congrArg _ (htake.trans hserve))⟩

/-- Settles O52: each event's one case that its conditions pick, and what that leaves. -/
theorem fabricEvents : Obligations.FabricEvents := by
  unfold Obligations.FabricEvents
  refine ⟨fun s n port p => exec_packetHop_up, ?down, ?arrive, ?nochart, ?write, ?fault, ?timeout, ?held, ?waits, ?expiry, ?reread,
    ?later, fun s port plane => rfl, ?plane, ?chart, ?table, ?start, ?switch, ?moved, ?revoke⟩
  case down =>
    intro s n p hp hdown
    have hexec := exec_packetHop_down hp hdown
    refine ⟨fun hr => ?_, fun hr hent => ⟨_, s.fabric.nextPkt, hexec, ?_⟩⟩
    · rw [hexec, hr]
      rfl
    · rw [hr, if_neg Bool.false_ne_true, State.returnFault_entered _ _ _ hent]
      exact State.inject_transit ..
  case arrive =>
    intro s port p ch hch
    refine ⟨fun hr hent => ⟨_, exec_packetArrive_reply port hch hr hent, State.inject_transit .., rfl⟩,
      fun hr hhop => ⟨_, exec_packetArrive_passes port hch hr hhop, State.inject_transit .., rfl⟩,
      fun hr hhop hdest => ⟨_, exec_packetArrive_astray port hch hr hhop hdest, ?_⟩⟩
    rw [State.returnFault_entered _ _ _ (by simp)]
    exact State.inject_transit ..
  case nochart =>
    intro s port p hch
    change execPacketArrive _ s = _
    simp only [execPacketArrive, hch]
  case write =>
    intro s port p ch pa b x hch hr hhop hdest hseq _ hearly hpay hok hmoved hfree hx hmig hwhole hstill hm
    obtain ⟨t, e, l, hexec⟩ := exec_packetArrive_write (port := port) hch hr hhop hdest hseq hearly hpay hok hmoved hfree hx hmig
      hwhole hstill
    have hself : s.selfPeer.getD 0 = ch.self := by rw [State.selfPeer, hch]; rfl
    refine ⟨_, hexec, fun a => Mem.get_write_ofBytes pa b a hm, ?_, rfl⟩
    rw [← hself]
    rfl
  case fault =>
    intro s n cause hop o ho
    refine ⟨fun hmig hheld hmoved => ?_, fun hmig hstays => ?_, fun first alt hmig hheld hmoved => ?_⟩
    · exact congrArg _ ((State.courseFault_own cause hop ho hmig).trans (if_pos ⟨hheld, hmoved⟩))
    · refine congrArg _ ((State.courseFault_own cause hop ho hmig).trans (if_neg ?_))
      rintro ⟨hheld, hmoved⟩
      exact hstays.elim (by simp [hheld]) (absurd hmoved)
    · exact congrArg _ (State.courseFault_migration cause hop ho hmig hheld hmoved)
  case timeout =>
    intro s n o ho hmoved hheld hlate
    rw [exec_requestTimeout ho hmoved, hheld, if_neg Bool.false_ne_true, if_pos hlate]
    rfl
  case held =>
    intro s n o ho hmoved hheld
    rw [exec_requestTimeout ho hmoved, if_pos hheld]
  case waits =>
    intro s n o ho hmoved hheld hsoon
    rw [exec_requestTimeout ho hmoved, hheld, if_neg Bool.false_ne_true, if_neg (Nat.not_le.mpr hsoon)]
  case expiry =>
    intro s n g hg hold
    change execDupReplyExpiry n s = _
    simp only [execDupReplyExpiry, hg]
    exact if_pos hold
  case reread =>
    intro s s1 ctx pa n v c hv hc hback hres hctx hwhole
    obtain ⟨c1, hc1⟩ := hctx
    have hread := State.readCourse_frame 2 (State.ctx?_setCtx_same ..) hres hwhole
    have hput := State.putCourse_ctx? v.toNat (courseEntryOf (Mem.readN s1.hbm pa 64)) hc1
    rw [exec_courseTableReread_reads hv hc hback, hread]
    exact ⟨_, _, rfl, hput, tget_tput_same _ _ _⟩
  case later =>
    intro s ctx v c e hv hc he hback
    refine ⟨_, _, exec_courseTableReread_waits hv hc he hback, CtxIs.set, ?_⟩
    refine (tget_map_at (fun e : CourseEntry => { e with reread := true }) c.courses v.toNat).trans ?_
    exact congrArg _ he
  case plane =>
    intro s port up hport
    refine ⟨fun hnew hkept => ⟨_, rfl, ?_, fun i hi => ?_⟩, fun hnew hkept => ⟨_, rfl, ?_, fun i hi => ?_⟩, fun plane h => ?_⟩
    · rw [State.planeChange_a hport hnew hkept]
    · rw [State.planeChange_a hport hnew hkept]
      exact setBit36_getLsbD _ _ _ _ hi
    · rw [State.planeChange_b hport hnew hkept]
    · rw [State.planeChange_b hport hnew hkept]
      exact setBit36_getLsbD _ _ _ _ hi
    · exact congrArg _ (State.planeChange_retired h)
  case chart => exact fun s hbusy => ⟨fun c => exec_chartInstall_taken hbusy, exec_chartInstall_refused hbusy⟩
  case table =>
    intro s hbusy x
    refine ⟨fun hbad => exec_exportLoad_refused hbusy (allSome_eq_none.mpr (State.mem_exportEntries.mpr hbad)), fun hgood => ?_⟩
    cases hl : allSome s.exportEntries with
    | none =>
      obtain ⟨i, hi, hnone⟩ := State.mem_exportEntries.mp (allSome_eq_none.mp hl)
      exact absurd hnone (hgood i hi)
    | some l =>
      refine ⟨_, exec_exportLoad_taken hbusy hl, rfl, fun e => ?_⟩
      have hentries : s.exportEntries = l.map some := allSome_eq_some.mp hl
      rw [← State.mem_exportEntries, hentries]
      simp
  case start =>
    intro s hidle
    obtain ⟨b, hexec⟩ := exec_migrationStart hidle
    obtain ⟨f, t, n, c, r, hsend⟩ := s.migrationBegun.sendPage_frame 0 (some b)
    refine ⟨_, hexec, ?_⟩
    rw [hsend]
    refine ⟨rfl, rfl, rfl, rfl, fun m hm => ?_⟩
    exact of_decide_eq_true (List.mem_filter.mp hm).2
  case switch =>
    intro s hcopying
    refine ⟨fun hfailed => ⟨_, exec_migrationSwitch_fails hcopying hfailed, rfl, rfl, rfl⟩, fun href hcourse hacked =>
      ⟨_, exec_migrationSwitch_moves hcopying href hcourse hacked, rfl, ?_, ?_⟩⟩
    all_goals
      obtain ⟨f, t, n, c, r, hsend⟩ := s.sendPage_frame 0 none
      rw [hsend]
      rfl
  case moved =>
    intro s n tag o q ho hdone horigin hq
    refine ⟨fun hwalk => ⟨_, exec_movedResend_again ho hdone horigin hq hwalk, State.req?_setReq_same .., rfl⟩,
      fun level e l hwalk hlocal hpeer hline hframe =>
        ⟨_, exec_movedResend_fault ho hdone horigin hq hwalk hlocal hpeer hline hframe, State.req?_setReq_same .., rfl⟩⟩
  case revoke =>
    intro s peer lo hi
    refine ⟨_, rfl, rfl, fun l => ?_⟩
    refine List.mem_filter.trans ?_
    simp only [Bool.not_eq_true', ← Bool.not_eq_true, Bool.and_eq_true, decide_eq_true_eq, and_assoc]

end Sys2Proof.Machine
end
